-- ==== Sys2Proof/Word.lean ====
section
/-! DEFINITION. The word types of the KX-940 and the sorted table that sparse state is kept in. -/

namespace Sys2Proof

/-- A 32-bit register or parcel (R121, R132). -/
abbrev Word := BitVec 32

/-- One byte of memory. -/
abbrev Byte := BitVec 8

/-- A 64-bit value: an address (R46), a register pair (R72). -/
abbrev DWord := BitVec 64

/-- A set of lanes of one group, lane `l` in bit `l`; W = 64 (R1). -/
abbrev Mask := BitVec 64

/-- The values of one register in lanes 0, 1, …; a lane past the end of the list holds 0. -/
abbrev Lanes := List Word

/-- Sparse data by key: pairs in strictly rising key order. -/
abbrev Tab (α : Type) := List (Nat × α)

/-- The group width W of the KX-940 (R1). -/
abbrev W : Nat := 64

end Sys2Proof
end

