-- ==== Sys2Proof/Config.lean ====
section
/-! DEFINITION. What an implementation fixes and the values the manual leaves free. -/

namespace Sys2Proof

/-- A region entry of R376, in 64 KiB units. -/
structure Region where
  v : Bool := false
  sec : Bool := false
  tier : Nat := 0
  base : Nat := 0
  limit : Nat := 0
  deriving DecidableEq, Repr, Inhabited

/-- What the configuration record holds (R377 step 3): the layout of R374, each slice's world, bridle
minimums and initial boundary, the ports, peers and module number, the default regions, the region right. -/
structure ConfigRecord where
  layout : Nat := 1
  sliceNS : List Bool := []
  minG : List Nat := []
  minC : List Nat := []
  bound : List Nat := []
  fixB : List Bool := []
  ports : BitVec 18 := 0
  /-- The world bits of the ports, and by slice of the display engines and the encoders (R376). -/
  portNS : BitVec 18 := 0
  deNS : List Bool := []
  veNS : List Bool := []
  peers : List Nat := []
  moduleNo : Nat := 0
  regions : List Region := []
  regionRight : Bool := false
  deriving DecidableEq, Repr, Inhabited

/-- The outcome of R377 steps 2 and 3 on the flash contents: a reason code of R378, or the record. -/
inductive BootCheck where
  | fails (reason : BitVec 8)
  | passes (record : ConfigRecord)
  deriving DecidableEq, Repr, Inhabited

namespace Config

/-- A free number: which of several allowed outcomes happens. Free, log 3. -/
opaque freeNat : Nat → Nat

/-- A free set of lanes. Free, log 3. -/
opaque freeMask : Nat → BitVec 64

/-- A free word. Free, log 3. -/
opaque freeWord : Nat → BitVec 32

/-- A free 64-bit value. Free, log 3. -/
opaque freeDWord : Nat → BitVec 64

/-- Which of the two neighbours of an inexact value FEXP2, FLOG2, FSIN or FCOS delivers: a fixed function of the
instruction, the format and the input (R82). Free, log 3. -/
opaque freeUlp : Nat → Nat → Nat → Bool

/-- What a code 6 or 7 in a ray block's APERM acts as (R104 lists 0 to 5). Free, log 3. -/
opaque freePerm : Nat → Nat

/-- Whether the host refuses the device's accesses to a host bus address (R410). Free, log 3. -/
opaque hostRefuses : Nat → Bool

/-- How many cycles after its issue a variable-latency operation completes (R146: not architectural). -/
opaque latency : Nat → Nat

/-- The verdict of the signature checks of R377 on the flash contents, and the record read from them. -/
opaque bootCheck : List (Nat × BitVec 8) → BootCheck

/-- The stepping that ID.STEP reads (R363 gives no value). -/
opaque step : BitVec 8

/-- The stream an encoder makes of a frame (R375): command words and layer bytes to stream bytes. -/
opaque encode : List (BitVec 64) → List (BitVec 8) → List (BitVec 8)

/-- The implementation-owned contents of an engine record of KIND 2 or 3 or of a raster checkpoint (R344). -/
opaque privateByte : Nat → BitVec 8

end Config

end Sys2Proof
end

