-- ==== Sys2Proof/Syntax.lean ====
section
/-! DEFINITION. The instructions and events of spec/opcode_table.json, one constructor for each row. -/

namespace Sys2Proof

/-- Who performs an act: nobody, one split of the group in a slot of a core, or a workgroup's spool processor. -/
inductive Agent where
  | none
  | group (core slot split : Nat)
  | spool (wg : Nat)
  deriving DecidableEq, Repr, Inhabited

/-- A host register that the event REGISTER_WRITE names (R363, R365, R372, R392, R413, R428). -/
inductive HostReg where
  | apbase
  | cethr
  | qbase (q : Nat)
  | qctx (q : Nat)
  | trsize (q : Nat)
  | trctl (q : Nat)
  | loghead (q : Nat)
  | id
  | bootstat
  | failcnt
  | capptr
  | temp
  | pwr
  | cecnt
  | ueaddr
  | portstat (p : Nat)
  | dlstat (k : Nat)
  | qhead (q : Nat)
  | trtail (q : Nat)
  | trpend (q : Nat)
  | logtail (q : Nat)
  | restart
  | irqstat
  | errlog
  | uestat
  | flashctl
  | qsize (q : Nat)
  | qctl (q : Nat)
  | qtail (q : Nat)
  | qerr (q : Nat)
  | trbase (q : Nat)
  | trhead (q : Nat)
  | tract (q : Nat)
  | trkill (q : Nat)
  | cap (off : Nat)
  | flash (off : Nat)
  deriving DecidableEq, Repr, Inhabited

/-- Where a soft error strikes (R411): `worse` marks one the code cannot correct. -/
inductive SoftErr where
  | l1 (core : Nat)
  | tlb (die : Nat)
  | l2tag (die : Nat) (dirty worse : Bool)
  | reg (core slot : Nat) (r : BitVec 9) (lane : Nat) (worse : Bool)
  | spoolReg (wg : Nat) (r : Nat) (worse : Bool)
  | sramWord (key : Nat) (worse : Bool)
  | accWord (core tile row : Nat) (worse : Bool)
  | dramUnit (key : Nat) (worse : Bool)
  deriving DecidableEq, Repr, Inhabited

/-- The fields of the parcels of R127 and R128, as they stand in the words: stall count `s`, guard `g` and
its negation `gn`, destination `d`, source `a`, sources `b` and `c`, minor opcode `mn`, type `ty`, token `tk`,
modifier `m`, and the literal of parcel 2. -/
structure Fld where
  s : BitVec 3 := 0
  g : BitVec 3 := 0
  gn : BitVec 1 := 0
  d : BitVec 8 := 0
  a : BitVec 8 := 0
  b : BitVec 9 := 0
  c : BitVec 9 := 0
  mn : BitVec 4 := 0
  ty : BitVec 4 := 0
  tk : BitVec 4 := 0
  m : BitVec 2 := 0
  lit : BitVec 32 := 0
  deriving DecidableEq, Repr, Inhabited

/-- One constructor for each row of spec/opcode_table.json, in its order. -/
inductive Instr where
  /-- NOP (R164). -/
  | nop (f : Fld)
  /-- YIELD (R163). -/
  | yield (f : Fld)
  /-- EXIT (R162). -/
  | exit (f : Fld)
  /-- RET (R160). -/
  | ret (f : Fld)
  /-- JOIN (R33). -/
  | join (f : Fld)
  /-- JOIN_T (R35). -/
  | joinT (f : Fld)
  /-- JOIN_TIMER_EXPIRY (R35). -/
  | joinTimerExpiry (ag : Agent)
  /-- TRAP (R165). -/
  | trap (f : Fld)
  /-- SYS (R166). -/
  | sys (f : Fld)
  /-- SYS_COMPLETE (R166). -/
  | sysComplete (id : Nat)
  /-- SYS_SERVICE_NONE (R371). -/
  | sysServiceNone (id : Nat)
  /-- SYS_SERVICE_LOG (R371). -/
  | sysServiceLog (id : Nat)
  /-- SYS_SERVICE_RAISE_VECTOR (R371). -/
  | sysServiceRaiseVector (id : Nat)
  /-- SYS_SERVICE_HOST_WRITE (R371). -/
  | sysServiceHostWrite (id : Nat)
  /-- BRA (R155). -/
  | bra (f : Fld)
  /-- BRP_ALL (R156). -/
  | brpAll (f : Fld)
  /-- BRP_ANY (R156). -/
  | brpAny (f : Fld)
  /-- BRP_NONE (R156). -/
  | brpNone (f : Fld)
  /-- BRV (R32). -/
  | brv (f : Fld)
  /-- BRX (R159). -/
  | brx (f : Fld)
  /-- CALL (R160). -/
  | call (f : Fld)
  /-- CALLX (R160). -/
  | callx (f : Fld)
  /-- SADD (R167). -/
  | sadd (f : Fld)
  /-- SSUB (R167). -/
  | ssub (f : Fld)
  /-- SMIN (R167). -/
  | smin (f : Fld)
  /-- SMAX (R167). -/
  | smax (f : Fld)
  /-- SAND (R167). -/
  | sand (f : Fld)
  /-- SOR (R167). -/
  | sor (f : Fld)
  /-- SXOR (R167). -/
  | sxor (f : Fld)
  /-- SNOT (R167). -/
  | snot (f : Fld)
  /-- SSHL (R167). -/
  | sshl (f : Fld)
  /-- SSHR (R167). -/
  | sshr (f : Fld)
  /-- SCLZ (R167). -/
  | sclz (f : Fld)
  /-- SPOP (R167). -/
  | spop (f : Fld)
  /-- SMUL (R168). -/
  | smul (f : Fld)
  /-- SMULH (R168). -/
  | smulh (f : Fld)
  /-- SMAD (R168). -/
  | smad (f : Fld)
  /-- SDIV (R169). -/
  | sdiv (f : Fld)
  /-- SREM (R169). -/
  | srem (f : Fld)
  /-- SCMP (R170). -/
  | scmp (f : Fld)
  /-- SSEL (R171). -/
  | ssel (f : Fld)
  /-- SMOV (R172). -/
  | smov (f : Fld)
  /-- SLI (R173). -/
  | sli (f : Fld)
  /-- SBFE (R174). -/
  | sbfe (f : Fld)
  /-- SBFI (R174). -/
  | sbfi (f : Fld)
  /-- GETSR (R175). -/
  | getsr (f : Fld)
  /-- GETSR_VECTOR (R175). -/
  | getsrVector (f : Fld)
  /-- SETSR (R176). -/
  | setsr (f : Fld)
  /-- VADD (R182). -/
  | vadd (f : Fld)
  /-- VSUB (R182). -/
  | vsub (f : Fld)
  /-- VMIN (R182). -/
  | vmin (f : Fld)
  /-- VMAX (R182). -/
  | vmax (f : Fld)
  /-- VAND (R182). -/
  | vand (f : Fld)
  /-- VOR (R182). -/
  | vor (f : Fld)
  /-- VXOR (R182). -/
  | vxor (f : Fld)
  /-- VNOT (R182). -/
  | vnot (f : Fld)
  /-- VSHL (R182). -/
  | vshl (f : Fld)
  /-- VSHR (R182). -/
  | vshr (f : Fld)
  /-- VABS (R182). -/
  | vabs (f : Fld)
  /-- VCLZ (R182). -/
  | vclz (f : Fld)
  /-- VPOP (R182). -/
  | vpop (f : Fld)
  /-- VBREV (R182). -/
  | vbrev (f : Fld)
  /-- VMUL (R183). -/
  | vmul (f : Fld)
  /-- VMULH (R183). -/
  | vmulh (f : Fld)
  /-- VMAD (R183). -/
  | vmad (f : Fld)
  /-- VDIV (R184). -/
  | vdiv (f : Fld)
  /-- VREM (R184). -/
  | vrem (f : Fld)
  /-- VCMP (R185). -/
  | vcmp (f : Fld)
  /-- VSEL (R186). -/
  | vsel (f : Fld)
  /-- VMOV (R187). -/
  | vmov (f : Fld)
  /-- VLI (R187). -/
  | vli (f : Fld)
  /-- VBFE (R188). -/
  | vbfe (f : Fld)
  /-- VBFI (R188). -/
  | vbfi (f : Fld)
  /-- VBREV_FLD (R188). -/
  | vbrevFld (f : Fld)
  /-- FADD (R189). -/
  | fadd (f : Fld)
  /-- FSUB (R189). -/
  | fsub (f : Fld)
  /-- FMUL (R189). -/
  | fmul (f : Fld)
  /-- FMIN (R189). -/
  | fmin (f : Fld)
  /-- FMAX (R189). -/
  | fmax (f : Fld)
  /-- FLDEXP (R189). -/
  | fldexp (f : Fld)
  /-- FFMA (R190). -/
  | ffma (f : Fld)
  /-- FCMP (R191). -/
  | fcmp (f : Fld)
  /-- FRCP (R192). -/
  | frcp (f : Fld)
  /-- FRSQ (R192). -/
  | frsq (f : Fld)
  /-- FSQRT (R192). -/
  | fsqrt (f : Fld)
  /-- FDIV (R192). -/
  | fdiv (f : Fld)
  /-- FEXP2 (R192). -/
  | fexp2 (f : Fld)
  /-- FLOG2 (R192). -/
  | flog2 (f : Fld)
  /-- FSIN (R192). -/
  | fsin (f : Fld)
  /-- FCOS (R192). -/
  | fcos (f : Fld)
  /-- FRND (R193). -/
  | frnd (f : Fld)
  /-- FCLASS (R193). -/
  | fclass (f : Fld)
  /-- CVT (R194). -/
  | cvt (f : Fld)
  /-- CVTKB (R195). -/
  | cvtkb (f : Fld)
  /-- UNPKB (R196). -/
  | unpkb (f : Fld)
  /-- PACK2 (R197). -/
  | pack2 (f : Fld)
  /-- UNPK2 (R197). -/
  | unpk2 (f : Fld)
  /-- PAND (R198). -/
  | pand (f : Fld)
  /-- POR (R198). -/
  | por (f : Fld)
  /-- PXOR (R198). -/
  | pxor (f : Fld)
  /-- PNOT (R198). -/
  | pnot (f : Fld)
  /-- VOTE_ALL (R199). -/
  | voteAll (f : Fld)
  /-- VOTE_ANY (R199). -/
  | voteAny (f : Fld)
  /-- VOTE_BALLOT (R199). -/
  | voteBallot (f : Fld)
  /-- SHFL (R200). -/
  | shfl (f : Fld)
  /-- VRED (R201). -/
  | vred (f : Fld)
  /-- VSCAN (R202). -/
  | vscan (f : Fld)
  /-- QSWZ (R203). -/
  | qswz (f : Fld)
  /-- QBC (R203). -/
  | qbc (f : Fld)
  /-- VREADL (R204). -/
  | vreadl (f : Fld)
  /-- VWRITEL (R204). -/
  | vwritel (f : Fld)
  /-- RAND (R94). -/
  | rand (f : Fld)
  /-- TISET (R207). -/
  | tiset (f : Fld)
  /-- TIOP_LD (R208). -/
  | tiopLd (f : Fld)
  /-- TIOP_ST (R208). -/
  | tiopSt (f : Fld)
  /-- TIOP_ADV (R208). -/
  | tiopAdv (f : Fld)
  /-- TIGET (R209). -/
  | tiget (f : Fld)
  /-- SPILL (R212). -/
  | spill (f : Fld)
  /-- FILL (R213). -/
  | fill (f : Fld)
  /-- LD (R220). -/
  | ld (f : Fld)
  /-- ST (R221). -/
  | st (f : Fld)
  /-- LDS (R223). -/
  | lds (f : Fld)
  /-- STS (R223). -/
  | sts (f : Fld)
  /-- ATOM (R226). -/
  | atom (f : Fld)
  /-- ATOM_ORD (R228). -/
  | atomOrd (f : Fld)
  /-- ORDERED_PASSAGE (R229). -/
  | orderedPassage (lnch site : Nat)
  /-- LCOPY (R230). -/
  | lcopy (f : Fld)
  /-- LCOPY_COMPLETE (R231). -/
  | lcopyComplete (id : Nat)
  /-- WAITF (R232). -/
  | waitf (f : Fld)
  /-- WAITF_RETURN (R232). -/
  | waitfReturn (ag : Agent)
  /-- FENCE (R233). -/
  | fence (f : Fld)
  /-- PROMOTE (R71). -/
  | promote (f : Fld)
  /-- BARI (R238). -/
  | bari (f : Fld)
  /-- BARA (R238). -/
  | bara (f : Fld)
  /-- BARW (R238). -/
  | barw (f : Fld)
  /-- BARW_RETURN (R238). -/
  | barwReturn (ag : Agent)
  /-- BART (R238). -/
  | bart (f : Fld)
  /-- QPOP (R239). -/
  | qpop (f : Fld)
  /-- QPOP_TRY (R239). -/
  | qpopTry (f : Fld)
  /-- QPOP_SERVE (R240). -/
  | qpopServe (ag : Agent)
  /-- QPUSH (R243). -/
  | qpush (f : Fld)
  /-- OBRES (R248). -/
  | obres (f : Fld)
  /-- OBREL (R249). -/
  | obrel (f : Fld)
  /-- MLOOP_NEW (R253). -/
  | mloopNew (f : Fld)
  /-- MLOOP_ACC (R253). -/
  | mloopAcc (f : Fld)
  /-- SEQUENCER_COMMAND_START (R246). -/
  | sequencerCommandStart (core : Nat)
  /-- MLOOP_READ_ARRIVAL (R253). -/
  | mloopReadArrival (core : Nat)
  /-- MLOOP_COMPLETE (R253). -/
  | mloopComplete (core : Nat)
  /-- MPUB (R257). -/
  | mpub (f : Fld)
  /-- HEAD_TILE_TAKE (R257). -/
  | headTileTake (core : Nat)
  /-- SPREQ (R263). -/
  | spreq (f : Fld)
  /-- SPRECV (R264). -/
  | sprecv (f : Fld)
  /-- SPRECV_TRY (R264). -/
  | sprecvTry (f : Fld)
  /-- SPRECV_RECEIVE (R264). -/
  | sprecvReceive (ag : Agent)
  /-- TCOPY (R265). -/
  | tcopy (f : Fld)
  /-- TCOPY_COMPLETE (R270). -/
  | tcopyComplete (id : Nat)
  /-- COLL (R272). -/
  | coll (f : Fld)
  /-- COLL_COMPLETE (R274). -/
  | collComplete (id : Nat)
  /-- RCVT (R282). -/
  | rcvt (f : Fld)
  /-- BOXT (R283). -/
  | boxt (f : Fld)
  /-- FDIN (R284). -/
  | fdin (f : Fld)
  /-- TRIT (R285). -/
  | trit (f : Fld)
  /-- RHIT (R286). -/
  | rhit (f : Fld)
  /-- RTRACE (R287). -/
  | rtrace (f : Fld)
  /-- RTRACE_COMPLETE (R289). -/
  | rtraceComplete (id : Nat)
  /-- NSWAP (R291). -/
  | nswap (f : Fld)
  /-- GDRAIN (R292). -/
  | gdrain (f : Fld)
  /-- GDRAIN_RETURN (R292). -/
  | gdrainReturn (ag : Agent)
  /-- DRAWV (R295). -/
  | drawv (f : Fld)
  /-- DRAWV_PASS_COMPLETE (R300). -/
  | drawvPassComplete (id : Nat)
  /-- SLBEGIN (R311). -/
  | slbegin (f : Fld)
  /-- SLEND (R315). -/
  | slend (f : Fld)
  /-- SLNEXT (R312). -/
  | slnext (f : Fld)
  /-- SLNEXT_WAIT_END (R312). -/
  | slnextWaitEnd (ag : Agent)
  /-- STADV (R313). -/
  | stadv (f : Fld)
  /-- STJMP (R313). -/
  | stjmp (f : Fld)
  /-- WAITL (R314). -/
  | waitl (f : Fld)
  /-- WAITL_RETURN (R314). -/
  | waitlReturn (ag : Agent)
  /-- LAUNCH (R322). -/
  | launch (f : Fld)
  /-- LAUNCH_TRY (R322). -/
  | launchTry (f : Fld)
  /-- LAUNCH_POOL_WAIT_END (R322). -/
  | launchPoolWaitEnd (ag : Agent)
  /-- TSTAT (R324). -/
  | tstat (f : Fld)
  /-- CLAUSE_START (R125). -/
  | clauseStart (ag : Agent)
  /-- ISSUE_HOLD_RELEASE (R219). -/
  | issueHoldRelease (ag : Agent)
  /-- VARIABLE_LATENCY_COMPLETE (R137). -/
  | variableLatencyComplete (id : Nat)
  /-- PAGE_WALK_COMPLETE (R401). -/
  | pageWalkComplete (die lnch : Nat) (va : BitVec 64)
  /-- ENGINE_FAULT (R402). -/
  | engineFault (id : Nat)
  /-- TRACT_SKIP (R394). -/
  | tractSkip (q : Nat) (serial : BitVec 32)
  /-- TRACT_RETRY (R394). -/
  | tractRetry (q : Nat) (serial : BitVec 32)
  /-- TRACT_KILL (R394). -/
  | tractKill (q : Nat) (serial : BitVec 32)
  /-- TRKILL (R397). -/
  | trkill (q : Nat) (lid : BitVec 32)
  /-- TRHEAD_WRITE (R393). -/
  | trheadWrite (q : Nat) (value : BitVec 32)
  /-- TRBASE_WRITE (R410). -/
  | trbaseWrite (q : Nat) (value : BitVec 64)
  /-- WORKGROUP_DISPATCH (R307). -/
  | workgroupDispatch (lnch core : Nat)
  /-- WORKGROUP_RETIRE (R45). -/
  | workgroupRetire (wg : Nat)
  /-- SCOREBOARD_BIT_RECEIVE (R306). -/
  | scoreboardBitReceive (lnch die wgix : Nat)
  /-- GRAPH_NODE_START (R319). -/
  | graphNodeStart (graph node : Nat)
  /-- GRAPH_REPLAY_START (R325). -/
  | graphReplayStart (graph : Nat)
  /-- GROUP_SWAP_START (R333). -/
  | groupSwapStart (core : Nat)
  /-- GROUP_SWAP_END (R333). -/
  | groupSwapEnd (core : Nat)
  /-- BRIDLE_EVALUATE (R338). -/
  | bridleEvaluate (slice : Nat)
  /-- CONTEXT_SAVE (R341). -/
  | contextSave (save : Nat)
  /-- LATE_COMPLETION_APPLY (R340). -/
  | lateCompletionApply (id : Nat)
  /-- WORKGROUP_RESTORE (R345). -/
  | workgroupRestore (save record : Nat)
  /-- QTAIL_WRITE (R366). -/
  | qtailWrite (q : Nat) (value : BitVec 32)
  /-- QCTL_WRITE (R365). -/
  | qctlWrite (q : Nat) (value : BitVec 32)
  /-- QSIZE_WRITE (R365). -/
  | qsizeWrite (q : Nat) (value : BitVec 32)
  /-- QERR_READ (R365). -/
  | qerrRead (q : Nat)
  /-- QUEUE_NOP (R368). -/
  | queueNop (q : Nat)
  /-- LAUNCH_COMMAND (R369). -/
  | launchCommand (q : Nat)
  /-- GRAPH_COMMAND (R370). -/
  | graphCommand (q : Nat)
  /-- WAITV (R368). -/
  | waitv (q : Nat)
  /-- WAITV_SATISFIED (R368). -/
  | waitvSatisfied (q : Nat)
  /-- FRAME (R375). -/
  | frame (q : Nat)
  /-- FRAME_ENCODE_COMPLETE (R375). -/
  | frameEncodeComplete (id : Nat)
  /-- INVAL (R368). -/
  | inval (q : Nat)
  /-- INVAL_COMPLETE (R368). -/
  | invalComplete (id : Nat)
  /-- PREEMPT (R339). -/
  | preempt (q : Nat)
  /-- RESUME (R345). -/
  | resume (q : Nat)
  /-- COMM (R368). -/
  | comm (q : Nat)
  /-- BRIDLE (R368). -/
  | bridle (q : Nat)
  /-- REGION (R376). -/
  | region (q : Nat)
  /-- COMMAND_COMPLETE (R366). -/
  | commandComplete (id : Nat)
  /-- RESTART (R377). -/
  | restart (value : BitVec 16)
  /-- IRQSTAT_WRITE (R363). -/
  | irqstatWrite (value : BitVec 64)
  /-- ERRLOG_WRITE (R363). -/
  | errlogWrite (value : BitVec 32)
  /-- FLASHCTL_WRITE (R363). -/
  | flashctlWrite (value : BitVec 32)
  /-- FLASH_WINDOW_WRITE (R430). -/
  | flashWindowWrite (off : Nat) (value : BitVec 32)
  /-- APERTURE_ACCESS (R362). -/
  | apertureAccess (write : Bool) (off size : Nat) (value : BitVec 64)
  /-- CECNT_READ (R413). -/
  | cecntRead
  /-- UESTAT_WRITE (R413). -/
  | uestatWrite (value : BitVec 32)
  /-- PORTSTAT_READ (R428). -/
  | portstatRead (port : Nat)
  /-- DLSTAT_READ (R428). -/
  | dlstatRead (link : Nat)
  /-- REGISTER_WRITE (R6). -/
  | registerWrite (reg : HostReg) (value : BitVec 64)
  /-- MODULE_RESET (R377). -/
  | moduleReset
  /-- START_TIMEOUT (R377). -/
  | startTimeout
  /-- THERMAL_TRIP (R379). -/
  | thermalTrip
  /-- POWER_LIMIT (R22). -/
  | powerLimit (reached : Bool)
  /-- FABRIC_WRITE (R373). -/
  | fabricWrite (port : Nat) (flit : List (BitVec 8))
  /-- FABRIC_READ_REQUEST (R373). -/
  | fabricReadRequest (port : Nat) (flit : List (BitVec 8))
  /-- FABRIC_READ_DATA (R373). -/
  | fabricReadData (port : Nat) (flit : List (BitVec 8))
  /-- FABRIC_COLLECTIVE_DATA (R373). -/
  | fabricCollectiveData (port : Nat) (flit : List (BitVec 8))
  /-- FABRIC_ACKNOWLEDGE (R425). -/
  | fabricAcknowledge (port : Nat) (flit : List (BitVec 8))
  /-- REPLAY_TIMEOUT (R425). -/
  | replayTimeout (port : Nat)
  /-- LANE_LOCK_LOSS (R425). -/
  | laneLockLoss (port : Nat)
  /-- PORT_RETRAIN_COMPLETE (R426). -/
  | portRetrainComplete (port : Nat) (ok : Bool)
  /-- DIE_LINK_RETRAIN_COMPLETE (R427). -/
  | dieLinkRetrainComplete (link : Nat) (ok : Bool)
  /-- SCRUB_PATROL (R411). -/
  | scrubPatrol (loc : Nat)
  /-- SOFT_ERROR (R411). -/
  | softError (err : SoftErr)
  /-- TRAINING_COMPLETE (R377). -/
  | trainingComplete (reason : BitVec 8)
  /-- FLASH_WRITE_COMPLETE (R430). -/
  | flashWriteComplete (off : Nat)
  deriving DecidableEq, Repr

end Sys2Proof
end

