-- ==== Sys2Proof/Machine/Rows.lean ====
section
/-! DEFINITION. The opcode map (R145, R146) as one table of rows, the encoding checks of R383 that it gives,
the classes and placement rules of R123 and R124, and the registers each instruction names. -/

namespace Sys2Proof.Machine

open Sys2Proof

/-- The length of a row of R146: one, two or three parcels, or "2/3" (R129). -/
inductive RLen where
  | one | two | lit | three
  deriving DecidableEq, Repr

/-- The latency of a row of R146; `fixF` is 4, or 8 for f64. -/
inductive Lat where
  | fix (n : Nat) | fixF | var | no
  deriving DecidableEq, Repr

/-- What field D or A names. `any`: the entry's own check reads the field. -/
inductive RK where
  | zero | sReg | sTy | sPair | vReg | vTy | vPair | pred | predNeg | num (n : Nat)
  | sRange (n al : Nat) | vRange (n al : Nat) | any
  deriving DecidableEq, Repr

/-- What field B or C names: an operand of R131 with the kinds it admits and its type (`none`: the
instruction's TY), the first of `n` v registers, a v register that is written, an even s register, a predicate, nothing, or
`any`. -/
inductive OK where
  | zero | vOut | opd (v s k l : Bool) (ty : Option Nat) | vRange (n al : Nat) | sPair | pred | any
  deriving DecidableEq, Repr

/-- One row of the opcode map. -/
structure Row where
  op : BitVec 7
  mins : List Nat
  len : RLen
  lat : Lat
  guarded : Bool
  d : RK
  a : RK
  b : OK
  c : OK
  tys : List Nat
  tk : Bool
  ms : List Nat
  deriving DecidableEq, Repr

/-- What the clause check knows of the kernel: `.regs`, STAGED, NSITE (R369), and who runs it: `none` either, `some true` the spool, `some false` a group. -/
structure KInfo where
  regs : Nat := 256
  staged : Bool := true
  nsite : Nat := 8
  spool : Option Bool := none
  deriving DecidableEq, Repr

/-- A register that an instruction reads or writes. -/
inductive Ref where
  | v (n : Nat) | s (n : Nat) | p (n : Nat)
  deriving DecidableEq, Repr

/-- An s register, a constant or a literal, of the instruction's type. -/
def oS : OK := .opd false true true true none
/-- The same, read as n32. -/
def oS32 : OK := .opd false true true true (some 1)
/-- Any operand of R131, of the instruction's type. -/
def oV : OK := .opd true true true true none
/-- Any operand of R131, read as 32 bits. -/
def oV32 : OK := .opd true true true true (some 1)
/-- A v register only. -/
def oVOnly : OK := .opd true false false false (some 1)
/-- An s register or an inline constant. -/
def oSNoLit : OK := .opd false true true false (some 1)
/-- The integer type codes. -/
def tyInt : List Nat := [0, 1, 5, 6, 7, 8, 9, 10]
/-- The float type codes of R191. -/
def tyFl : List Nat := [2, 3, 4, 11]
/-- The float and packed type codes of R189. -/
def tyFlp : List Nat := [2, 3, 4, 11, 12, 13]
/-- Every assigned type code. -/
def tyAll : List Nat := List.range 14

/-- The fields and the row of an encoded instruction; an event has none. The descriptor operand of the bit-field forms is read as
n32 whatever the type, since its entry names no type (R174; log 74, DESIGN CHOICE). -/
def enc : Instr → Option (Fld × Row)
  | .nop f => some (f, ⟨0x0, [0], .one, .no, true, .zero, .zero, .zero, .zero, [], false, [0]⟩)
  | .yield f => some (f, ⟨0x1, [0], .one, .no, false, .zero, .zero, .zero, .zero, [], false, [0]⟩)
  | .exit f => some (f, ⟨0x2, [0], .one, .no, false, .zero, .zero, .zero, .zero, [], false, [0]⟩)
  | .ret f => some (f, ⟨0x3, [0], .one, .no, false, .zero, .sPair, .zero, .zero, [], false, [0]⟩)
  | .join f => some (f, ⟨0x4, [0], .lit, .no, false, .zero, .zero, .zero, .zero, [], false, [0]⟩)
  | .joinT f => some (f, ⟨0x4, [1], .lit, .no, false, .zero, .zero, oS, .zero, [1], false, [0]⟩)
  | .joinTimerExpiry _ => none
  | .trap f => some (f, ⟨0x5, [0], .lit, .no, false, .zero, .zero, oS, .zero, [1], false, [0]⟩)
  | .sys f => some (f, ⟨0x6, [0], .lit, .var, false, .sReg, .sPair, oS, .zero, [1], true, [0]⟩)
  | .sysComplete _ => none
  | .sysServiceNone _ => none
  | .sysServiceLog _ => none
  | .sysServiceRaiseVector _ => none
  | .sysServiceHostWrite _ => none
  | .bra f => some (f, ⟨0x7, [0], .three, .no, false, .zero, .zero, .zero, .zero, [], false, [0]⟩)
  | .brpAll f => some (f, ⟨0x8, [0], .three, .no, false, .zero, .pred, .zero, .zero, [], false, [0]⟩)
  | .brpAny f => some (f, ⟨0x8, [1], .three, .no, false, .zero, .pred, .zero, .zero, [], false, [0]⟩)
  | .brpNone f => some (f, ⟨0x8, [2], .three, .no, false, .zero, .pred, .zero, .zero, [], false, [0]⟩)
  | .brv f => some (f, ⟨0x9, [0], .three, .no, false, .zero, .predNeg, .zero, .zero, [], false, [0]⟩)
  | .brx f => some (f, ⟨0xa, [0], .lit, .no, false, .zero, .sPair, oV32, .zero, [1], false, [0]⟩)
  | .call f => some (f, ⟨0xb, [0], .three, (.fix 2), false, .sPair, .zero, .zero, .zero, [], false, [0]⟩)
  | .callx f => some (f, ⟨0xc, [0], .lit, (.fix 2), false, .sPair, .sPair, oV32, .zero, [1], false, [0]⟩)
  | .sadd f => some (f, ⟨0x10, [0], .lit, (.fix 2), false, .sTy, .sTy, oS, .zero, tyInt, false, [0]⟩)
  | .ssub f => some (f, ⟨0x10, [1], .lit, (.fix 2), false, .sTy, .sTy, oS, .zero, tyInt, false, [0]⟩)
  | .smin f => some (f, ⟨0x10, [2], .lit, (.fix 2), false, .sTy, .sTy, oS, .zero, tyInt, false, [0]⟩)
  | .smax f => some (f, ⟨0x10, [3], .lit, (.fix 2), false, .sTy, .sTy, oS, .zero, tyInt, false, [0]⟩)
  | .sand f => some (f, ⟨0x10, [4], .lit, (.fix 2), false, .sTy, .sTy, oS, .zero, tyInt, false, [0]⟩)
  | .sor f => some (f, ⟨0x10, [5], .lit, (.fix 2), false, .sTy, .sTy, oS, .zero, tyInt, false, [0]⟩)
  | .sxor f => some (f, ⟨0x10, [6], .lit, (.fix 2), false, .sTy, .sTy, oS, .zero, tyInt, false, [0]⟩)
  | .snot f => some (f, ⟨0x10, [7], .lit, (.fix 2), false, .sTy, .sTy, .zero, .zero, tyInt, false, [0]⟩)
  | .sshl f => some (f, ⟨0x10, [8], .lit, (.fix 2), false, .sTy, .sTy, oS, .zero, tyInt, false, [0]⟩)
  | .sshr f => some (f, ⟨0x10, [9], .lit, (.fix 2), false, .sTy, .sTy, oS, .zero, tyInt, false, [0]⟩)
  | .sclz f => some (f, ⟨0x10, [10], .lit, (.fix 2), false, .sReg, .sTy, .zero, .zero, tyInt, false, [0]⟩)
  | .spop f => some (f, ⟨0x10, [11], .lit, (.fix 2), false, .sReg, .sTy, .zero, .zero, tyInt, false, [0]⟩)
  | .smul f => some (f, ⟨0x11, [0], .lit, (.fix 4), false, .sTy, .sTy, oS, .zero, tyInt, false, [0]⟩)
  | .smulh f => some (f, ⟨0x11, [1], .lit, (.fix 4), false, .sTy, .sTy, oS, .zero, tyInt, false, [0]⟩)
  | .smad f => some (f, ⟨0x11, [2], .lit, (.fix 4), false, .sTy, .sTy, oS, oS, tyInt, false, [0]⟩)
  | .sdiv f => some (f, ⟨0x12, [0], .lit, .var, false, .sTy, .sTy, oS, .zero, tyInt, true, [0]⟩)
  | .srem f => some (f, ⟨0x12, [1], .lit, .var, false, .sTy, .sTy, oS, .zero, tyInt, true, [0]⟩)
  | .scmp f => some (f, ⟨0x13, [0, 1, 2, 3, 4, 5], .lit, (.fix 2), false, .sReg, .sTy, oS, .zero, tyInt, false, [0]⟩)
  | .ssel f => some (f, ⟨0x14, [0], .lit, (.fix 2), false, .sTy, .sReg, oS, oS, tyInt, false, [0]⟩)
  | .smov f => some (f, ⟨0x15, [0], .one, (.fix 2), false, .sReg, .sReg, .zero, .zero, [], false, [0]⟩)
  | .sli f => some (f, ⟨0x16, [0], .lit, (.fix 2), false, .sTy, .zero, oS, .zero, tyInt, false, [0]⟩)
  | .sbfe f => some (f, ⟨0x17, [0], .lit, (.fix 2), false, .sTy, .sTy, oS32, .zero, tyInt, false, [0]⟩)
  | .sbfi f => some (f, ⟨0x17, [1], .lit, (.fix 2), false, .sTy, .sTy, oS32, oS, tyInt, false, [0]⟩)
  | .getsr f => some (f, ⟨0x18, [0], .two, (.fix 2), false, .sTy, .any, .zero, .zero, [1, 10], false, [0]⟩)
  | .getsrVector f => some (f, ⟨0x18, [1], .two, (.fix 2), true, .vTy, .any, .zero, .zero, [1, 10], false, [0]⟩)
  | .setsr f => some (f, ⟨0x19, [0], .lit, (.fix 2), false, .zero, .any, oS, .zero, [1], false, [0]⟩)
  | .vadd f => some (f, ⟨0x20, [0], .lit, (.fix 4), true, .vTy, .vTy, oV, .zero, tyInt, false, [0, 1]⟩)
  | .vsub f => some (f, ⟨0x20, [1], .lit, (.fix 4), true, .vTy, .vTy, oV, .zero, tyInt, false, [0, 1]⟩)
  | .vmin f => some (f, ⟨0x20, [2], .lit, (.fix 4), true, .vTy, .vTy, oV, .zero, tyInt, false, [0]⟩)
  | .vmax f => some (f, ⟨0x20, [3], .lit, (.fix 4), true, .vTy, .vTy, oV, .zero, tyInt, false, [0]⟩)
  | .vand f => some (f, ⟨0x20, [4], .lit, (.fix 4), true, .vTy, .vTy, oV, .zero, tyInt, false, [0]⟩)
  | .vor f => some (f, ⟨0x20, [5], .lit, (.fix 4), true, .vTy, .vTy, oV, .zero, tyInt, false, [0]⟩)
  | .vxor f => some (f, ⟨0x20, [6], .lit, (.fix 4), true, .vTy, .vTy, oV, .zero, tyInt, false, [0]⟩)
  | .vnot f => some (f, ⟨0x20, [7], .lit, (.fix 4), true, .vTy, .vTy, .zero, .zero, tyInt, false, [0]⟩)
  | .vshl f => some (f, ⟨0x20, [8], .lit, (.fix 4), true, .vTy, .vTy, oV, .zero, tyInt, false, [0]⟩)
  | .vshr f => some (f, ⟨0x20, [9], .lit, (.fix 4), true, .vTy, .vTy, oV, .zero, tyInt, false, [0]⟩)
  | .vabs f => some (f, ⟨0x20, [10], .lit, (.fix 4), true, .vTy, .vTy, .zero, .zero, [0, 5, 7, 9], false, [0]⟩)
  | .vclz f => some (f, ⟨0x20, [11], .lit, (.fix 4), true, .vReg, .vTy, .zero, .zero, tyInt, false, [0]⟩)
  | .vpop f => some (f, ⟨0x20, [12], .lit, (.fix 4), true, .vReg, .vTy, .zero, .zero, tyInt, false, [0]⟩)
  | .vbrev f => some (f, ⟨0x20, [13], .lit, (.fix 4), true, .vTy, .vTy, .zero, .zero, tyInt, false, [0]⟩)
  | .vmul f => some (f, ⟨0x21, [0], .lit, (.fix 6), true, .vTy, .vTy, oV, .zero, tyInt, false, [0]⟩)
  | .vmulh f => some (f, ⟨0x21, [1], .lit, (.fix 6), true, .vTy, .vTy, oV, .zero, tyInt, false, [0]⟩)
  | .vmad f => some (f, ⟨0x21, [2], .lit, (.fix 6), true, .vTy, .vTy, oV, oV, tyInt, false, [0]⟩)
  | .vdiv f => some (f, ⟨0x22, [0], .lit, .var, true, .vTy, .vTy, oV, .zero, tyInt, true, [0]⟩)
  | .vrem f => some (f, ⟨0x22, [1], .lit, .var, true, .vTy, .vTy, oV, .zero, tyInt, true, [0]⟩)
  | .vcmp f => some (f, ⟨0x23, [0, 1, 2, 3, 4, 5], .lit, (.fix 4), true, .pred, .vTy, oV, .zero, tyInt, false, [0]⟩)
  | .vsel f => some (f, ⟨0x24, [0], .lit, (.fix 4), true, .vTy, .pred, oV, oV, tyAll, false, [0]⟩)
  | .vmov f => some (f, ⟨0x25, [0], .one, (.fix 2), true, .vReg, .vReg, .zero, .zero, [], false, [0]⟩)
  | .vli f => some (f, ⟨0x26, [0], .lit, (.fix 2), true, .vTy, .zero, oV, .zero, tyAll, false, [0]⟩)
  | .vbfe f => some (f, ⟨0x27, [0], .lit, (.fix 4), true, .vTy, .vTy, oV32, .zero, tyInt, false, [0]⟩)
  | .vbfi f => some (f, ⟨0x27, [1], .lit, (.fix 4), true, .vTy, .vTy, oV32, oV, tyInt, false, [0]⟩)
  | .vbrevFld f => some (f, ⟨0x27, [2], .lit, (.fix 4), true, .vTy, .vTy, oV32, .zero, tyInt, false, [0]⟩)
  | .fadd f => some (f, ⟨0x30, [0], .lit, .fixF, true, .vTy, .vTy, oV, .zero, tyFlp, false, [0, 1, 2, 3]⟩)
  | .fsub f => some (f, ⟨0x30, [1], .lit, .fixF, true, .vTy, .vTy, oV, .zero, tyFlp, false, [0, 1, 2, 3]⟩)
  | .fmul f => some (f, ⟨0x30, [2], .lit, .fixF, true, .vTy, .vTy, oV, .zero, tyFlp, false, [0, 1, 2, 3]⟩)
  | .fmin f => some (f, ⟨0x30, [3], .lit, .fixF, true, .vTy, .vTy, oV, .zero, tyFlp, false, [0]⟩)
  | .fmax f => some (f, ⟨0x30, [4], .lit, .fixF, true, .vTy, .vTy, oV, .zero, tyFlp, false, [0]⟩)
  | .fldexp f => some (f, ⟨0x30, [5], .lit, .fixF, true, .vTy, .vTy, oV32, .zero, tyFlp, false, [0, 1, 2, 3]⟩)
  | .ffma f => some (f, ⟨0x31, [0], .lit, .fixF, true, .vTy, .vTy, oV, oV, tyFlp, false, [0, 1, 2, 3]⟩)
  | .fcmp f => some (f, ⟨0x32, [0, 1, 2, 3, 4, 5, 6, 7], .lit, (.fix 4), true, .pred, .vTy, oV, .zero, tyFl, false, [0]⟩)
  | .frcp f => some (f, ⟨0x33, [0], .lit, .var, true, .vTy, .vTy, .zero, .zero, tyFl, true, [0, 1, 2, 3]⟩)
  | .frsq f => some (f, ⟨0x33, [1], .lit, .var, true, .vTy, .vTy, .zero, .zero, tyFl, true, [0, 1, 2, 3]⟩)
  | .fsqrt f => some (f, ⟨0x33, [2], .lit, .var, true, .vTy, .vTy, .zero, .zero, tyFl, true, [0, 1, 2, 3]⟩)
  | .fdiv f => some (f, ⟨0x33, [3], .lit, .var, true, .vTy, .vTy, oV, .zero, tyFl, true, [0, 1, 2, 3]⟩)
  | .fexp2 f => some (f, ⟨0x33, [4], .lit, .var, true, .vTy, .vTy, .zero, .zero, [2, 3, 4], true, [0, 1, 2, 3]⟩)
  | .flog2 f => some (f, ⟨0x33, [5], .lit, .var, true, .vTy, .vTy, .zero, .zero, [2, 3, 4], true, [0, 1, 2, 3]⟩)
  | .fsin f => some (f, ⟨0x33, [6], .lit, .var, true, .vTy, .vTy, .zero, .zero, [2, 3, 4], true, [0, 1, 2, 3]⟩)
  | .fcos f => some (f, ⟨0x33, [7], .lit, .var, true, .vTy, .vTy, .zero, .zero, [2, 3, 4], true, [0, 1, 2, 3]⟩)
  | .frnd f => some (f, ⟨0x34, [0], .lit, .fixF, true, .vTy, .vTy, .zero, .zero, tyFlp, false, [0, 1, 2, 3]⟩)
  | .fclass f => some (f, ⟨0x34, [1], .lit, .fixF, true, .vReg, .vTy, .zero, .zero, tyFl, false, [0]⟩)
  | .cvt f => some (f, ⟨0x35, [0], .lit, (.fix 4), true, .vTy, .any, .zero, .any, [0, 1, 2, 3, 4, 5, 6, 7, 8, 9, 10, 11], false, [0, 1, 2, 3]⟩)
  | .cvtkb f => some (f, ⟨0x35, [1], .lit, .var, true, .any, .any, .vOut, .any, [2, 3, 4], true, [0, 1, 2, 3]⟩)
  | .unpkb f => some (f, ⟨0x35, [2], .lit, .var, true, .any, .any, oVOnly, .any, [2], true, [0]⟩)
  | .pack2 f => some (f, ⟨0x35, [3], .lit, (.fix 4), true, .vReg, .vReg, oV32, .zero, [12, 13], false, [0, 1, 2, 3]⟩)
  | .unpk2 f => some (f, ⟨0x35, [4], .lit, (.fix 4), true, .vPair, .vReg, .zero, .zero, [12, 13], false, [0]⟩)
  | .pand f => some (f, ⟨0x36, [0], .lit, (.fix 2), true, .pred, .pred, .pred, .zero, [], false, [0, 1, 2, 3]⟩)
  | .por f => some (f, ⟨0x36, [1], .lit, (.fix 2), true, .pred, .pred, .pred, .zero, [], false, [0, 1, 2, 3]⟩)
  | .pxor f => some (f, ⟨0x36, [2], .lit, (.fix 2), true, .pred, .pred, .pred, .zero, [], false, [0, 1, 2, 3]⟩)
  | .pnot f => some (f, ⟨0x36, [3], .lit, (.fix 2), true, .pred, .pred, .zero, .zero, [], false, [0, 1]⟩)
  | .voteAll f => some (f, ⟨0x37, [0], .two, (.fix 4), true, .pred, .pred, .zero, .zero, [], false, [0]⟩)
  | .voteAny f => some (f, ⟨0x37, [1], .two, (.fix 4), true, .pred, .pred, .zero, .zero, [], false, [0]⟩)
  | .voteBallot f => some (f, ⟨0x37, [2], .two, (.fix 4), true, (.sRange 2 2), .pred, .zero, .zero, [], false, [0]⟩)
  | .shfl f => some (f, ⟨0x38, [0, 1, 2, 3], .lit, (.fix 6), true, .vTy, .vTy, oV32, .zero, [1, 10], false, [0, 1]⟩)
  | .vred f => some (f, ⟨0x39, [0, 1, 2, 3, 4, 5], .two, .var, true, .vTy, .vTy, .zero, .zero, [0, 1, 9, 10, 2, 3, 4, 11], true, [0, 1, 2, 3]⟩)
  | .vscan f => some (f, ⟨0x3a, [0, 1, 2, 3, 4, 5, 8, 9, 10, 11, 12, 13], .two, .var, true, .vTy, .vTy, .zero, .zero, [0, 1, 9, 10, 2, 3, 4, 11], true, [0, 1, 2, 3]⟩)
  | .qswz f => some (f, ⟨0x3b, [0], .lit, (.fix 6), true, .vTy, .vTy, oS32, .zero, [1, 10], false, [0]⟩)
  | .qbc f => some (f, ⟨0x3b, [1], .lit, (.fix 6), true, .vTy, .vTy, oS32, .zero, [1, 10], false, [0]⟩)
  | .vreadl f => some (f, ⟨0x3c, [0], .lit, (.fix 6), true, .sTy, .vTy, oS32, .zero, [1, 10], false, [0]⟩)
  | .vwritel f => some (f, ⟨0x3c, [1], .lit, (.fix 6), true, .vTy, .zero, oS, oS32, [1, 10], false, [0]⟩)
  | .rand f => some (f, ⟨0x3d, [0], .two, (.fix 6), true, .vReg, .zero, .zero, .zero, [1], false, [0]⟩)
  | .tiset f => some (f, ⟨0x3e, [0], .lit, (.fix 4), true, (.num 4), (.sRange 16 4), .zero, .zero, [], false, [0]⟩)
  | .tiopLd f => some (f, ⟨0x3e, [1], .lit, .var, true, .any, (.num 4), oS32, .any, [1, 5, 6, 7, 8, 10, 2, 3, 4], true, [0]⟩)
  | .tiopSt f => some (f, ⟨0x3e, [1], .lit, .var, true, .any, (.num 4), oS32, .any, [1, 5, 6, 7, 8, 10, 2, 3, 4], true, [1]⟩)
  | .tiopAdv f => some (f, ⟨0x3e, [1], .lit, .var, true, .zero, (.num 4), oS32, .zero, [], true, [2]⟩)
  | .tiget f => some (f, ⟨0x3e, [2], .lit, (.fix 4), true, .vReg, (.num 4), .any, .zero, [1], false, [0, 1]⟩)
  | .spill f => some (f, ⟨0x4a, [0], .lit, .var, true, .zero, .vReg, .sPair, oS32, [1], true, [0]⟩)
  | .fill f => some (f, ⟨0x4a, [1], .lit, .var, true, .vReg, .zero, .sPair, oS32, [1], true, [0]⟩)
  | .ld f => some (f, ⟨0x40, [0, 1, 2, 3], .lit, .var, true, .any, .any, oV32, .any, tyAll, true, [0]⟩)
  | .st f => some (f, ⟨0x41, [0, 1, 2, 3], .lit, .no, true, .any, .any, oV32, .any, tyAll, false, [0]⟩)
  | .lds f => some (f, ⟨0x42, [0, 2], .lit, .var, false, .any, .sPair, oS32, .any, tyAll, true, [0]⟩)
  | .sts f => some (f, ⟨0x43, [0, 2], .lit, .no, false, .any, .sPair, oS32, .any, tyAll, false, [0]⟩)
  | .atom f => some (f, ⟨0x44, [0, 1, 2, 3, 4, 5, 6, 7, 8, 9, 10, 11], .lit, .var, true, .any, .any, .any, .any, [0, 1, 2, 9, 10], true, [0, 1, 2, 3]⟩)
  | .atomOrd f => some (f, ⟨0x45, [0, 1, 2, 3, 4, 5, 6, 7, 8, 9, 10, 11], .lit, .var, true, .any, .any, .any, .any, [0, 1, 2, 9, 10], true, [0, 1, 2, 3]⟩)
  | .orderedPassage _ _ => none
  | .lcopy f => some (f, ⟨0x46, [0, 1, 2, 3], .lit, .no, true, .any, .any, oV32, .any, [], false, [0]⟩)
  | .lcopyComplete _ => none
  | .waitf f => some (f, ⟨0x47, [0], .lit, .no, false, (.num 8), .zero, oS, .zero, [1], false, [0]⟩)
  | .waitfReturn _ => none
  | .fence f => some (f, ⟨0x48, [0], .two, .no, false, .zero, .zero, .zero, .any, [], false, [0]⟩)
  | .promote f => some (f, ⟨0x49, [0], .lit, .var, false, .sTy, .sPair, oS32, .zero, [1, 10], true, [0]⟩)
  | .bari f => some (f, ⟨0x50, [0], .lit, .no, false, (.num 16), .zero, oS, .zero, [1], false, [0]⟩)
  | .bara f => some (f, ⟨0x51, [0], .lit, .no, false, (.num 16), .zero, oS, .zero, [1], false, [0]⟩)
  | .barw f => some (f, ⟨0x52, [0], .lit, .no, false, (.num 16), .zero, oSNoLit, .zero, [1], false, [0]⟩)
  | .barwReturn _ => none
  | .bart f => some (f, ⟨0x53, [0], .lit, (.fix 2), false, .sReg, (.num 16), .zero, .zero, [], false, [0]⟩)
  | .qpop f => some (f, ⟨0x54, [0], .two, .var, true, .any, (.num 2), .any, .any, [0, 1, 2], true, [0]⟩)
  | .qpopTry f => some (f, ⟨0x54, [1], .two, .var, true, .any, (.num 2), .any, .any, [0, 1, 2], true, [0]⟩)
  | .qpopServe _ => none
  | .qpush f => some (f, ⟨0x55, [0], .two, .no, true, .any, .any, .any, .zero, [1], false, [0]⟩)
  | .obres f => some (f, ⟨0x60, [0], .lit, .var, false, .sReg, (.sRange 4 4), oS, .zero, [1], true, [0]⟩)
  | .obrel f => some (f, ⟨0x61, [0], .lit, .no, false, .zero, .zero, oS, .zero, [1], false, [0]⟩)
  | .mloopNew f => some (f, ⟨0x62, [0], .two, .var, false, .any, (.sRange 8 8), oSNoLit, .any, [], true, [0]⟩)
  | .mloopAcc f => some (f, ⟨0x62, [1], .two, .var, false, .any, (.sRange 8 8), oSNoLit, .any, [], true, [0]⟩)
  | .sequencerCommandStart _ => none
  | .mloopReadArrival _ => none
  | .mloopComplete _ => none
  | .mpub f => some (f, ⟨0x63, [0], .two, .var, false, .zero, .zero, .zero, .zero, [], true, [0]⟩)
  | .headTileTake _ => none
  | .spreq f => some (f, ⟨0x64, [0], .lit, .no, false, .zero, .zero, oS, .zero, [1], false, [0]⟩)
  | .sprecv f => some (f, ⟨0x6a, [0], .two, .var, false, .sReg, .zero, .zero, .zero, [1], false, [0]⟩)
  | .sprecvTry f => some (f, ⟨0x6a, [1], .two, .var, false, (.sRange 2 2), .zero, .zero, .zero, [1], false, [0]⟩)
  | .sprecvReceive _ => none
  | .tcopy f => some (f, ⟨0x68, [0], .two, .var, false, .any, (.sRange 16 16), .zero, .any, [], false, [0]⟩)
  | .tcopyComplete _ => none
  | .coll f => some (f, ⟨0x69, [0, 1, 2, 3, 4], .two, .var, false, .any, (.sRange 8 8), .zero, .any, [0, 1, 2, 4], false, [0]⟩)
  | .collComplete _ => none
  | .rcvt f => some (f, ⟨0x70, [0], .lit, (.fix 4), true, .any, (.vRange 12 4), .any, .zero, [], false, [0, 1]⟩)
  | .boxt f => some (f, ⟨0x71, [0], .lit, .var, true, .vReg, (.vRange 20 4), (.vRange 16 4), .zero, [], true, [0]⟩)
  | .fdin f => some (f, ⟨0x72, [0], .lit, .var, true, (.vRange 20 4), (.vRange 20 4), oV32, .zero, [], true, [0]⟩)
  | .trit f => some (f, ⟨0x73, [0], .lit, .var, true, (.vRange 16 4), (.vRange 20 4), (.vRange 16 4), .any, [], true, [0]⟩)
  | .rhit f => some (f, ⟨0x75, [0], .lit, (.fix 4), true, .vReg, (.vRange 16 4), (.vRange 3 4), .zero, [2], false, [0, 1, 2, 3]⟩)
  | .rtrace f => some (f, ⟨0x74, [0], .lit, .var, true, (.vRange 16 4), (.vRange 12 4), .sPair, .any, [], true, [0]⟩)
  | .rtraceComplete _ => none
  | .nswap f => some (f, ⟨0x77, [0], .lit, .var, false, .sReg, .sPair, .sPair, .zero, [10], true, [0]⟩)
  | .gdrain f => some (f, ⟨0x78, [0], .lit, .no, false, .zero, .zero, oS, .zero, [1], false, [0]⟩)
  | .gdrainReturn _ => none
  | .drawv f => some (f, ⟨0x76, [0], .lit, .var, false, .sReg, .sPair, .zero, .zero, [], true, [0]⟩)
  | .drawvPassComplete _ => none
  | .slbegin f => some (f, ⟨0x79, [0], .lit, .no, false, .any, .sReg, oS, .zero, [1], false, [0]⟩)
  | .slend f => some (f, ⟨0x79, [1], .lit, .no, false, .zero, .zero, .zero, .zero, [1], false, [0]⟩)
  | .slnext f => some (f, ⟨0x7a, [0], .two, .var, false, .sReg, .zero, .zero, .zero, [1], true, [0]⟩)
  | .slnextWaitEnd _ => none
  | .stadv f => some (f, ⟨0x7b, [0], .lit, .no, false, .zero, .zero, oS, .zero, [1], false, [0]⟩)
  | .stjmp f => some (f, ⟨0x7b, [1], .lit, .no, false, .zero, .zero, oS, .zero, [1], false, [0]⟩)
  | .waitl f => some (f, ⟨0x7c, [0], .lit, .no, false, .zero, .zero, oS, .zero, [1], false, [0]⟩)
  | .waitlReturn _ => none
  | .launch f => some (f, ⟨0x7d, [0], .lit, .no, true, .zero, .vReg, oS32, .zero, [1], false, [0]⟩)
  | .launchTry f => some (f, ⟨0x7d, [1], .lit, (.fix 2), true, .pred, .vReg, oS32, .zero, [1], false, [0]⟩)
  | .launchPoolWaitEnd _ => none
  | .tstat f => some (f, ⟨0x7e, [0], .lit, (.fix 2), false, .sReg, .zero, oS, .zero, [1], false, [0, 1, 2]⟩)
  | .clauseStart _ => none
  | .issueHoldRelease _ => none
  | .variableLatencyComplete _ => none
  | .pageWalkComplete _ _ _ => none
  | .engineFault _ => none
  | .tractSkip _ _ => none
  | .tractRetry _ _ => none
  | .tractKill _ _ => none
  | .trkill _ _ => none
  | .trheadWrite _ _ => none
  | .trbaseWrite _ _ => none
  | .workgroupDispatch _ _ => none
  | .workgroupRetire _ => none
  | .scoreboardBitReceive _ _ _ => none
  | .graphNodeStart _ _ => none
  | .graphReplayStart _ => none
  | .groupSwapStart _ => none
  | .groupSwapEnd _ => none
  | .bridleEvaluate _ => none
  | .contextSave _ => none
  | .lateCompletionApply _ => none
  | .workgroupRestore _ _ => none
  | .qtailWrite _ _ => none
  | .qctlWrite _ _ => none
  | .qsizeWrite _ _ => none
  | .qerrRead _ => none
  | .queueNop _ => none
  | .launchCommand _ => none
  | .graphCommand _ => none
  | .waitv _ => none
  | .waitvSatisfied _ => none
  | .frame _ => none
  | .frameEncodeComplete _ => none
  | .inval _ => none
  | .invalComplete _ => none
  | .preempt _ => none
  | .resume _ => none
  | .comm _ => none
  | .bridle _ => none
  | .region _ => none
  | .commandComplete _ => none
  | .restart _ => none
  | .irqstatWrite _ => none
  | .errlogWrite _ => none
  | .flashctlWrite _ => none
  | .flashWindowWrite _ _ => none
  | .apertureAccess _ _ _ _ => none
  | .cecntRead => none
  | .uestatWrite _ => none
  | .portstatRead _ => none
  | .dlstatRead _ => none
  | .registerWrite _ _ => none
  | .moduleReset => none
  | .startTimeout => none
  | .thermalTrip => none
  | .powerLimit _ => none
  | .fabricWrite _ _ => none
  | .fabricReadRequest _ _ => none
  | .fabricReadData _ _ => none
  | .fabricCollectiveData _ _ => none
  | .fabricAcknowledge _ _ => none
  | .replayTimeout _ => none
  | .laneLockLoss _ => none
  | .portRetrainComplete _ _ => none
  | .dieLinkRetrainComplete _ _ => none
  | .scrubPatrol _ => none
  | .softError _ => none
  | .trainingComplete _ => none
  | .flashWriteComplete _ => none

/-- The instruction that major opcode `op` and minor opcode `mn` name (R145, R146); `none`: the opcode is not
assigned (`Except.error 1`) or the minor is not listed (`Except.error 2`); M selects among the TIOP forms (R208), and the checks refuse M = 3. -/
def ofOp (op mn m : Nat) (f : Fld) : Except Nat Instr :=
  match op with
  | 0x0 =>
    match mn with
    | 0 => .ok (.nop f)
    | _ => .error 2
  | 0x1 =>
    match mn with
    | 0 => .ok (.yield f)
    | _ => .error 2
  | 0x2 =>
    match mn with
    | 0 => .ok (.exit f)
    | _ => .error 2
  | 0x3 =>
    match mn with
    | 0 => .ok (.ret f)
    | _ => .error 2
  | 0x4 =>
    match mn with
    | 0 => .ok (.join f)
    | 1 => .ok (.joinT f)
    | _ => .error 2
  | 0x5 =>
    match mn with
    | 0 => .ok (.trap f)
    | _ => .error 2
  | 0x6 =>
    match mn with
    | 0 => .ok (.sys f)
    | _ => .error 2
  | 0x7 =>
    match mn with
    | 0 => .ok (.bra f)
    | _ => .error 2
  | 0x8 =>
    match mn with
    | 0 => .ok (.brpAll f)
    | 1 => .ok (.brpAny f)
    | 2 => .ok (.brpNone f)
    | _ => .error 2
  | 0x9 =>
    match mn with
    | 0 => .ok (.brv f)
    | _ => .error 2
  | 0xa =>
    match mn with
    | 0 => .ok (.brx f)
    | _ => .error 2
  | 0xb =>
    match mn with
    | 0 => .ok (.call f)
    | _ => .error 2
  | 0xc =>
    match mn with
    | 0 => .ok (.callx f)
    | _ => .error 2
  | 0x10 =>
    match mn with
    | 0 => .ok (.sadd f)
    | 1 => .ok (.ssub f)
    | 2 => .ok (.smin f)
    | 3 => .ok (.smax f)
    | 4 => .ok (.sand f)
    | 5 => .ok (.sor f)
    | 6 => .ok (.sxor f)
    | 7 => .ok (.snot f)
    | 8 => .ok (.sshl f)
    | 9 => .ok (.sshr f)
    | 10 => .ok (.sclz f)
    | 11 => .ok (.spop f)
    | _ => .error 2
  | 0x11 =>
    match mn with
    | 0 => .ok (.smul f)
    | 1 => .ok (.smulh f)
    | 2 => .ok (.smad f)
    | _ => .error 2
  | 0x12 =>
    match mn with
    | 0 => .ok (.sdiv f)
    | 1 => .ok (.srem f)
    | _ => .error 2
  | 0x13 =>
    match mn with
    | 0 => .ok (.scmp f)
    | 1 => .ok (.scmp f)
    | 2 => .ok (.scmp f)
    | 3 => .ok (.scmp f)
    | 4 => .ok (.scmp f)
    | 5 => .ok (.scmp f)
    | _ => .error 2
  | 0x14 =>
    match mn with
    | 0 => .ok (.ssel f)
    | _ => .error 2
  | 0x15 =>
    match mn with
    | 0 => .ok (.smov f)
    | _ => .error 2
  | 0x16 =>
    match mn with
    | 0 => .ok (.sli f)
    | _ => .error 2
  | 0x17 =>
    match mn with
    | 0 => .ok (.sbfe f)
    | 1 => .ok (.sbfi f)
    | _ => .error 2
  | 0x18 =>
    match mn with
    | 0 => .ok (.getsr f)
    | 1 => .ok (.getsrVector f)
    | _ => .error 2
  | 0x19 =>
    match mn with
    | 0 => .ok (.setsr f)
    | _ => .error 2
  | 0x20 =>
    match mn with
    | 0 => .ok (.vadd f)
    | 1 => .ok (.vsub f)
    | 2 => .ok (.vmin f)
    | 3 => .ok (.vmax f)
    | 4 => .ok (.vand f)
    | 5 => .ok (.vor f)
    | 6 => .ok (.vxor f)
    | 7 => .ok (.vnot f)
    | 8 => .ok (.vshl f)
    | 9 => .ok (.vshr f)
    | 10 => .ok (.vabs f)
    | 11 => .ok (.vclz f)
    | 12 => .ok (.vpop f)
    | 13 => .ok (.vbrev f)
    | _ => .error 2
  | 0x21 =>
    match mn with
    | 0 => .ok (.vmul f)
    | 1 => .ok (.vmulh f)
    | 2 => .ok (.vmad f)
    | _ => .error 2
  | 0x22 =>
    match mn with
    | 0 => .ok (.vdiv f)
    | 1 => .ok (.vrem f)
    | _ => .error 2
  | 0x23 =>
    match mn with
    | 0 => .ok (.vcmp f)
    | 1 => .ok (.vcmp f)
    | 2 => .ok (.vcmp f)
    | 3 => .ok (.vcmp f)
    | 4 => .ok (.vcmp f)
    | 5 => .ok (.vcmp f)
    | _ => .error 2
  | 0x24 =>
    match mn with
    | 0 => .ok (.vsel f)
    | _ => .error 2
  | 0x25 =>
    match mn with
    | 0 => .ok (.vmov f)
    | _ => .error 2
  | 0x26 =>
    match mn with
    | 0 => .ok (.vli f)
    | _ => .error 2
  | 0x27 =>
    match mn with
    | 0 => .ok (.vbfe f)
    | 1 => .ok (.vbfi f)
    | 2 => .ok (.vbrevFld f)
    | _ => .error 2
  | 0x30 =>
    match mn with
    | 0 => .ok (.fadd f)
    | 1 => .ok (.fsub f)
    | 2 => .ok (.fmul f)
    | 3 => .ok (.fmin f)
    | 4 => .ok (.fmax f)
    | 5 => .ok (.fldexp f)
    | _ => .error 2
  | 0x31 =>
    match mn with
    | 0 => .ok (.ffma f)
    | _ => .error 2
  | 0x32 =>
    match mn with
    | 0 => .ok (.fcmp f)
    | 1 => .ok (.fcmp f)
    | 2 => .ok (.fcmp f)
    | 3 => .ok (.fcmp f)
    | 4 => .ok (.fcmp f)
    | 5 => .ok (.fcmp f)
    | 6 => .ok (.fcmp f)
    | 7 => .ok (.fcmp f)
    | _ => .error 2
  | 0x33 =>
    match mn with
    | 0 => .ok (.frcp f)
    | 1 => .ok (.frsq f)
    | 2 => .ok (.fsqrt f)
    | 3 => .ok (.fdiv f)
    | 4 => .ok (.fexp2 f)
    | 5 => .ok (.flog2 f)
    | 6 => .ok (.fsin f)
    | 7 => .ok (.fcos f)
    | _ => .error 2
  | 0x34 =>
    match mn with
    | 0 => .ok (.frnd f)
    | 1 => .ok (.fclass f)
    | _ => .error 2
  | 0x35 =>
    match mn with
    | 0 => .ok (.cvt f)
    | 1 => .ok (.cvtkb f)
    | 2 => .ok (.unpkb f)
    | 3 => .ok (.pack2 f)
    | 4 => .ok (.unpk2 f)
    | _ => .error 2
  | 0x36 =>
    match mn with
    | 0 => .ok (.pand f)
    | 1 => .ok (.por f)
    | 2 => .ok (.pxor f)
    | 3 => .ok (.pnot f)
    | _ => .error 2
  | 0x37 =>
    match mn with
    | 0 => .ok (.voteAll f)
    | 1 => .ok (.voteAny f)
    | 2 => .ok (.voteBallot f)
    | _ => .error 2
  | 0x38 =>
    match mn with
    | 0 => .ok (.shfl f)
    | 1 => .ok (.shfl f)
    | 2 => .ok (.shfl f)
    | 3 => .ok (.shfl f)
    | _ => .error 2
  | 0x39 =>
    match mn with
    | 0 => .ok (.vred f)
    | 1 => .ok (.vred f)
    | 2 => .ok (.vred f)
    | 3 => .ok (.vred f)
    | 4 => .ok (.vred f)
    | 5 => .ok (.vred f)
    | _ => .error 2
  | 0x3a =>
    match mn with
    | 0 => .ok (.vscan f)
    | 1 => .ok (.vscan f)
    | 2 => .ok (.vscan f)
    | 3 => .ok (.vscan f)
    | 4 => .ok (.vscan f)
    | 5 => .ok (.vscan f)
    | 8 => .ok (.vscan f)
    | 9 => .ok (.vscan f)
    | 10 => .ok (.vscan f)
    | 11 => .ok (.vscan f)
    | 12 => .ok (.vscan f)
    | 13 => .ok (.vscan f)
    | _ => .error 2
  | 0x3b =>
    match mn with
    | 0 => .ok (.qswz f)
    | 1 => .ok (.qbc f)
    | _ => .error 2
  | 0x3c =>
    match mn with
    | 0 => .ok (.vreadl f)
    | 1 => .ok (.vwritel f)
    | _ => .error 2
  | 0x3d =>
    match mn with
    | 0 => .ok (.rand f)
    | _ => .error 2
  | 0x3e =>
    match mn with
    | 0 => .ok (.tiset f)
    | 1 => match m with
      | 0 => .ok (.tiopLd f)
      | 1 => .ok (.tiopSt f)
      | _ => .ok (.tiopAdv f)
    | 2 => .ok (.tiget f)
    | _ => .error 2
  | 0x40 =>
    match mn with
    | 0 => .ok (.ld f)
    | 1 => .ok (.ld f)
    | 2 => .ok (.ld f)
    | 3 => .ok (.ld f)
    | _ => .error 2
  | 0x41 =>
    match mn with
    | 0 => .ok (.st f)
    | 1 => .ok (.st f)
    | 2 => .ok (.st f)
    | 3 => .ok (.st f)
    | _ => .error 2
  | 0x42 =>
    match mn with
    | 0 => .ok (.lds f)
    | 2 => .ok (.lds f)
    | _ => .error 2
  | 0x43 =>
    match mn with
    | 0 => .ok (.sts f)
    | 2 => .ok (.sts f)
    | _ => .error 2
  | 0x44 =>
    match mn with
    | 0 => .ok (.atom f)
    | 1 => .ok (.atom f)
    | 2 => .ok (.atom f)
    | 3 => .ok (.atom f)
    | 4 => .ok (.atom f)
    | 5 => .ok (.atom f)
    | 6 => .ok (.atom f)
    | 7 => .ok (.atom f)
    | 8 => .ok (.atom f)
    | 9 => .ok (.atom f)
    | 10 => .ok (.atom f)
    | 11 => .ok (.atom f)
    | _ => .error 2
  | 0x45 =>
    match mn with
    | 0 => .ok (.atomOrd f)
    | 1 => .ok (.atomOrd f)
    | 2 => .ok (.atomOrd f)
    | 3 => .ok (.atomOrd f)
    | 4 => .ok (.atomOrd f)
    | 5 => .ok (.atomOrd f)
    | 6 => .ok (.atomOrd f)
    | 7 => .ok (.atomOrd f)
    | 8 => .ok (.atomOrd f)
    | 9 => .ok (.atomOrd f)
    | 10 => .ok (.atomOrd f)
    | 11 => .ok (.atomOrd f)
    | _ => .error 2
  | 0x46 =>
    match mn with
    | 0 => .ok (.lcopy f)
    | 1 => .ok (.lcopy f)
    | 2 => .ok (.lcopy f)
    | 3 => .ok (.lcopy f)
    | _ => .error 2
  | 0x47 =>
    match mn with
    | 0 => .ok (.waitf f)
    | _ => .error 2
  | 0x48 =>
    match mn with
    | 0 => .ok (.fence f)
    | _ => .error 2
  | 0x49 =>
    match mn with
    | 0 => .ok (.promote f)
    | _ => .error 2
  | 0x4a =>
    match mn with
    | 0 => .ok (.spill f)
    | 1 => .ok (.fill f)
    | _ => .error 2
  | 0x50 =>
    match mn with
    | 0 => .ok (.bari f)
    | _ => .error 2
  | 0x51 =>
    match mn with
    | 0 => .ok (.bara f)
    | _ => .error 2
  | 0x52 =>
    match mn with
    | 0 => .ok (.barw f)
    | _ => .error 2
  | 0x53 =>
    match mn with
    | 0 => .ok (.bart f)
    | _ => .error 2
  | 0x54 =>
    match mn with
    | 0 => .ok (.qpop f)
    | 1 => .ok (.qpopTry f)
    | _ => .error 2
  | 0x55 =>
    match mn with
    | 0 => .ok (.qpush f)
    | _ => .error 2
  | 0x60 =>
    match mn with
    | 0 => .ok (.obres f)
    | _ => .error 2
  | 0x61 =>
    match mn with
    | 0 => .ok (.obrel f)
    | _ => .error 2
  | 0x62 =>
    match mn with
    | 0 => .ok (.mloopNew f)
    | 1 => .ok (.mloopAcc f)
    | _ => .error 2
  | 0x63 =>
    match mn with
    | 0 => .ok (.mpub f)
    | _ => .error 2
  | 0x64 =>
    match mn with
    | 0 => .ok (.spreq f)
    | _ => .error 2
  | 0x68 =>
    match mn with
    | 0 => .ok (.tcopy f)
    | _ => .error 2
  | 0x69 =>
    match mn with
    | 0 => .ok (.coll f)
    | 1 => .ok (.coll f)
    | 2 => .ok (.coll f)
    | 3 => .ok (.coll f)
    | 4 => .ok (.coll f)
    | _ => .error 2
  | 0x6a =>
    match mn with
    | 0 => .ok (.sprecv f)
    | 1 => .ok (.sprecvTry f)
    | _ => .error 2
  | 0x70 =>
    match mn with
    | 0 => .ok (.rcvt f)
    | _ => .error 2
  | 0x71 =>
    match mn with
    | 0 => .ok (.boxt f)
    | _ => .error 2
  | 0x72 =>
    match mn with
    | 0 => .ok (.fdin f)
    | _ => .error 2
  | 0x73 =>
    match mn with
    | 0 => .ok (.trit f)
    | _ => .error 2
  | 0x74 =>
    match mn with
    | 0 => .ok (.rtrace f)
    | _ => .error 2
  | 0x75 =>
    match mn with
    | 0 => .ok (.rhit f)
    | _ => .error 2
  | 0x76 =>
    match mn with
    | 0 => .ok (.drawv f)
    | _ => .error 2
  | 0x77 =>
    match mn with
    | 0 => .ok (.nswap f)
    | _ => .error 2
  | 0x78 =>
    match mn with
    | 0 => .ok (.gdrain f)
    | _ => .error 2
  | 0x79 =>
    match mn with
    | 0 => .ok (.slbegin f)
    | 1 => .ok (.slend f)
    | _ => .error 2
  | 0x7a =>
    match mn with
    | 0 => .ok (.slnext f)
    | _ => .error 2
  | 0x7b =>
    match mn with
    | 0 => .ok (.stadv f)
    | 1 => .ok (.stjmp f)
    | _ => .error 2
  | 0x7c =>
    match mn with
    | 0 => .ok (.waitl f)
    | _ => .error 2
  | 0x7d =>
    match mn with
    | 0 => .ok (.launch f)
    | 1 => .ok (.launchTry f)
    | _ => .error 2
  | 0x7e =>
    match mn with
    | 0 => .ok (.tstat f)
    | _ => .error 2
  | _ => .error 1


/-- The row of an encoded instruction. -/
def row? (i : Instr) : Option Row := (enc i).map Prod.snd

/-- The fields of an encoded instruction. -/
def fld? (i : Instr) : Option Fld := (enc i).map Prod.fst

/-- The engine class of a major opcode (R123). -/
def opClass (op : Nat) : Nat := if op < 0x40 then 0 else if op < 0x60 then 1 else if op < 0x70 then 2 else 3

/-- The control transfers of R124. -/
def isControl (op : Nat) : Bool := op ∈ [0x02, 0x03, 0x05, 0x06, 0x07, 0x08, 0x09, 0x0A, 0x0B, 0x0C]

/-- The waiting instructions of R124. -/
def isWaiting (op mn : Nat) : Bool :=
  op ∈ [0x04, 0x47, 0x52, 0x78, 0x7A, 0x7C] || (op ∈ [0x54, 0x6A, 0x7D] && mn == 0)

/-- Whether a major opcode's instructions are one parcel long (R146). -/
def oneParcel (op : Nat) : Bool := op ∈ [0x00, 0x01, 0x02, 0x03, 0x15, 0x25]

/-- Whether a type code is one of a 64-bit type (R128). -/
def wideTy (ty : Nat) : Bool := ty == 9 || ty == 10 || ty == 11

/-- How many registers a value of the type takes (R72). -/
def regsOf (ty : Nat) : Nat := if wideTy ty then 2 else 1

/-- The L field that R129 gives a row with fields `f`. -/
def lenCode (r : Row) (f : Fld) : Nat :=
  match r.len with
  | .one => 0
  | .two => 1
  | .three => 2
  | .lit => if f.b = 511 ∨ f.c = 511 then 2 else 1

/-- `n` registers from `x` on. -/
def vRefs (x n : Nat) : List Ref := (List.range n).map fun i => .v (x + i)
/-- `n` registers from `x` on. -/
def sRefs (x n : Nat) : List Ref := (List.range n).map fun i => .s (x + i)

/-- The registers that a D or A field names. -/
def rkRefs (k : RK) (x ty : Nat) : List Ref :=
  match k with
  | .sReg => [.s x]
  | .sTy => sRefs x (regsOf ty)
  | .sPair => sRefs x 2
  | .vReg => [.v x]
  | .vTy => vRefs x (regsOf ty)
  | .vPair => vRefs x 2
  | .pred | .predNeg => [.p (x % 8)]
  | .sRange n _ => sRefs x n
  | .vRange n _ => vRefs x n
  | .zero | .num _ | .any => []

/-- `n` registers named by an operand value of R131; a constant or literal names none. -/
def opdRefs (x n : Nat) : List Ref :=
  if x < 256 then vRefs x n else if x < 384 then sRefs (x - 256) n else []

/-- The registers that a B or C field names. -/
def okRefs (k : OK) (x ty : Nat) : List Ref :=
  match k with
  | .opd _ _ _ _ t => opdRefs x (regsOf (t.getD ty))
  | .vRange n _ => if x < 256 then vRefs x n else []
  | .sPair => if 256 ≤ x ∧ x < 384 then sRefs (x - 256) 2 else []
  | .pred => [.p (x % 8)]
  | .zero | .vOut | .any => []

/-- The 32-bit registers that `L` values of `m` bits fill (R195). -/
def kbRegs (c : Nat) : Nat := ((if c / 8 % 2 = 1 then 32 else 16) * (c % 8 + 2) + 31) / 32
/-- The block length that C of R195 gives. -/
def kbLen (c : Nat) : Nat := if c / 8 % 2 = 1 then 32 else 16

/-- The bytes that a type code moves (R217). -/
def tySize (ty : Nat) : Nat :=
  if ty = 7 ∨ ty = 8 then 1 else if ty ∈ [3, 4, 5, 6] then 2 else if wideTy ty then 8 else 4

/-- The constant that an inline count operand of 0 to 32 or a literal gives, if the operand is one. -/
def constOf? (x : Nat) (lit : Word) : Option Nat :=
  if x = 511 then some lit.toNat
  else if 384 ≤ x ∧ x ≤ 416 then some (x - 384)
  else if 417 ≤ x ∧ x ≤ 432 then some (2 ^ 32 - 433 + x)
  else if 433 ≤ x ∧ x ≤ 443 then some (2 ^ (x - 427))
  else if x = 444 then some 0xFFFFFFFF
  else if x = 445 then some 0
  else if x = 446 then some 0xFFFF
  else if x = 447 then some 0xFFFF0000
  else none

/-- The registers of an MLOOP, QPOP, load or other form whose entry lays a field out itself: sources read. -/
def extraReads (i : Instr) : List Ref :=
  match i with
  | .cvt f => vRefs f.a.toNat (regsOf (f.c.toNat % 16))
  | .cvtkb f => vRefs f.a.toNat (kbLen f.c.toNat)
  | .unpkb f => vRefs f.a.toNat (kbRegs f.c.toNat) ++ opdRefs f.b.toNat 1
  | .tiopLd f => opdRefs f.c.toNat 1
  | .tiopSt f => opdRefs f.c.toNat 1 ++
      vRefs f.d.toNat (min 512 (((constOf? f.b.toNat f.lit).getD 0) * regsOf f.ty.toNat))
  | .tiget f => if f.m = 0 then [] else opdRefs f.b.toNat 1
  | .ld f => (if f.mn.toNat % 2 = 1 then sRefs f.a.toNat 2 else vRefs f.a.toNat 2)
  | .st f => (if f.mn.toNat % 2 = 1 then sRefs f.a.toNat 2 else vRefs f.a.toNat 2) ++
      vRefs f.d.toNat (if f.mn.toNat / 2 % 2 = 1 then 4 else regsOf f.ty.toNat)
  | .sts f => sRefs f.d.toNat (if f.mn.toNat / 2 % 2 = 1 then 4 else regsOf f.ty.toNat)
  | .atom f | .atomOrd f =>
      (if f.m.toNat / 2 = 1 then sRefs f.a.toNat 2 else vRefs f.a.toNat 2) ++
      opdRefs f.b.toNat (regsOf f.ty.toNat * if f.mn.toNat = 8 then 2 else 1)
  | .lcopy f => (if f.mn.toNat % 2 = 1 then sRefs f.a.toNat 2 else vRefs f.a.toNat 2) ++
      (if f.mn.toNat / 2 % 2 = 1 then sRefs f.d.toNat 2 else vRefs f.d.toNat 2)
  | .qpush f => vRefs f.a.toNat (f.b.toNat - 384)
  | .rcvt f => if f.m.toNat = 0 then (if 256 ≤ f.b.toNat ∧ f.b.toNat < 384 then sRefs (f.b.toNat - 256) 2 else []) else []
  | _ => []

/-- The registers that such a form writes. -/
def extraWrites (i : Instr) : List Ref :=
  match i with
  | .cvtkb f => vRefs f.d.toNat (kbRegs f.c.toNat) ++ opdRefs f.b.toNat 1
  | .unpkb f => vRefs f.d.toNat (kbLen f.c.toNat)
  | .tiopLd f => vRefs f.d.toNat (min 512 (((constOf? f.b.toNat f.lit).getD 0) * regsOf f.ty.toNat))
  | .ld f => vRefs f.d.toNat (if f.mn.toNat / 2 % 2 = 1 then 4 else regsOf f.ty.toNat)
  | .lds f => sRefs f.d.toNat (if f.mn.toNat / 2 % 2 = 1 then 4 else regsOf f.ty.toNat)
  | .atom f | .atomOrd f => if f.m.toNat % 2 = 1 then vRefs f.d.toNat (regsOf f.ty.toNat) else []
  | .qpop f | .qpopTry f =>
      vRefs f.d.toNat (if f.a.toNat = 0 then 1 else f.b.toNat - 384) ++ [.p (f.c.toNat % 8)]
  | .rcvt f => vRefs f.d.toNat (if f.m.toNat = 0 then 20 else 16)
  | _ => []

/-- The words of a TCOPY's command block that it does not read: those of the levels from nlev on (R266). -/
def unread (i : Instr) : List Ref :=
  match i with
  | .tcopy f =>
    let top := match f.c.toNat / 8 with
      | 1 => 12
      | 2 => 14
      | _ => 16
    (sRefs (f.a.toNat + 4 + 2 * (f.d.toNat / 32 + 1)) (top - 4 - 2 * (f.d.toNat / 32 + 1)))
  | _ => []

/-- The registers that an instruction reads, as far as its fields name them. Field A, when it names a register, names a source;
field D only in the stores, where `extraReads` has it. Both registers of a 64-bit shift count count as read, though the even one
alone gives the count (R167; log 76, DESIGN CHOICE). -/
def readRefs (i : Instr) : List Ref :=
  match enc i with
  | none => []
  | some (f, r) =>
    (rkRefs r.a f.a.toNat f.ty.toNat ++ okRefs r.b f.b.toNat f.ty.toNat ++ okRefs r.c f.c.toNat f.ty.toNat ++
      extraReads i ++ (if r.guarded && f.g != 0 && r.op != 0 then [Ref.p f.g.toNat] else [])).filter fun x =>
        x != Ref.p 0 && !decide (x ∈ unread i)

/-- The registers that an instruction writes. -/
def writeRefs (i : Instr) : List Ref :=
  match enc i with
  | none => []
  | some (f, r) => (rkRefs r.d f.d.toNat f.ty.toNat ++ extraWrites i).filter (· != Ref.p 0)

/-- The special-register numbers that name a per-lane register (R142). -/
def srLane (n : Nat) : Bool := n < 3
/-- The special-register numbers that are assigned (R142). -/
def srAssigned (n : Nat) : Bool := n < 3 || (8 ≤ n && n ≤ 0x22)

/-- The reason, if any, that a condition gives. -/
def failIf (c : Bool) (r : Nat) : List Nat := if c then [r] else []

/-- Reasons that a D or A field gives (R383); `top`: how many s registers there are. -/
def rkReasons (k : RK) (x ty top : Nat) : List Nat :=
  match k with
  | .zero => failIf (x != 0) 5
  | .sReg => failIf (top ≤ x) 4
  | .sTy => failIf (top ≤ x) 4 ++ failIf (wideTy ty && x % 2 == 1) 8
  | .sPair => failIf (top ≤ x) 4 ++ failIf (x % 2 == 1) 8
  | .vReg => []
  | .vTy => failIf (wideTy ty && x % 2 == 1) 8
  | .vPair => failIf (x % 2 == 1) 8
  | .pred => failIf (7 < x) 4
  | .predNeg => failIf (15 < x) 4
  | .num n => failIf (n ≤ x) 4
  | .sRange n al => failIf (top ≤ x) 4 ++ failIf (x % al != 0 || top < x + n) 7
  | .vRange _ al => failIf (x % al != 0) 7
  | .any => []

/-- Reasons that a B or C field gives (R383). -/
def okReasons (k : OK) (x ty top : Nat) : List Nat :=
  failIf (256 + top ≤ x && x < 384 && k != .any && k != .zero) 4 ++
  match k with
  | .zero => failIf (x != 0) 5
  | .opd v s k l t =>
      failIf ((x < 256 && !v) || (256 ≤ x && x < 384 && !s) || (384 ≤ x && x < 448 && !k) ||
        (448 ≤ x && x < 511) || (x == 511 && !l)) 4 ++
      failIf (x < 384 && wideTy (t.getD ty) && x % 2 == 1) 8
  | .vRange _ al => failIf (256 ≤ x) 4 ++ failIf (x % al != 0) 7
  | .vOut => failIf (256 ≤ x) 4
  | .sPair => failIf (x < 256 || 384 ≤ x) 4 ++ failIf (x % 2 == 1) 8
  | .pred => failIf (7 < x) 4
  | .any => []

/-- Reasons that C as the ordering of R216 gives; `ok`: the ORD values admitted by R217. -/
def orderReasons (c : Nat) (ok : List Nat) : List Nat :=
  failIf (63 < c) 5 ++
  failIf (!(c % 8 ∈ ok) || 5 < c / 8 % 8 || (c % 8 == 0 && c / 8 % 8 != 0)) 11

/-- Reasons that a load or store gives (R217, R220, R221, R223). -/
def ldstReasons (f : Fld) (scalar : Bool) (top : Nat) (ok : List Nat) : List Nat :=
  let x4 := f.mn.toNat / 2 % 2 == 1
  let n := if x4 then 16 else tySize f.ty.toNat
  let sBase := scalar || f.mn.toNat % 2 == 1
  orderReasons f.c.toNat ok ++
  failIf (x4 && f.ty != 1) 3 ++
  failIf (f.c.toNat % 8 != 0 && n != 4 && n != 8) 11 ++
  failIf (scalar && top ≤ f.d.toNat) 4 ++
  failIf (x4 && f.d.toNat % 4 != 0) 7 ++
  failIf (n == 8 && f.d.toNat % 2 == 1) 8 ++
  failIf (f.a.toNat % 2 == 1) 8 ++
  failIf (sBase && top ≤ f.a.toNat) 4

/-- The types that an atomic operation admits (R226). -/
def atomTys (mn : Nat) : List Nat :=
  if mn < 7 then [0, 1, 9, 10] else if mn < 9 then [0, 1, 2, 9, 10] else if mn < 11 then [1] else [2]

/-- Reasons that ATOM and ATOM.ord give (R225 to R228). -/
def atomReasons (f : Fld) : List Nat :=
  let wide := wideTy f.ty.toNat
  failIf (4 < f.c.toNat % 8 || 5 < f.c.toNat / 8 % 8) 11 ++
  failIf (!(f.ty.toNat ∈ atomTys f.mn.toNat)) 3 ++
  failIf (f.m.toNat % 2 == 0 && f.d != 0) 5 ++
  failIf (f.m.toNat % 2 == 1 && wide && f.d.toNat % 2 == 1) 8 ++
  failIf (f.a.toNat % 2 == 1) 8 ++
  failIf (f.m.toNat / 2 == 1 && 127 < f.a.toNat) 4 ++
  failIf (448 ≤ f.b.toNat && f.b.toNat < 511) 4 ++
  (if f.mn == 8 then
    failIf (384 ≤ f.b.toNat) 11 ++ failIf (f.b.toNat < 384 && f.b.toNat % (if wide then 4 else 2) != 0) 7
   else failIf (wide && f.b.toNat < 384 && f.b.toNat % 2 == 1) 8)

/-- Reasons that a tensor-iterator transfer gives (R208, R214). -/
def tiopReasons (f : Fld) (ld : Bool) (regs : Nat) : List Nat :=
  let n := constOf? f.b.toNat f.lit
  let c := f.c.toNat
  let top := f.d.toNat + n.getD 1 * regsOf f.ty.toNat
  failIf (match n with | some k => k == 0 || 32 < k | none => false) 11 ++
  failIf (256 ≤ c && c != 384) 4 ++
  failIf (wideTy f.ty.toNat && f.d.toNat % 2 == 1) 8 ++
  failIf (regs < top) 7 ++
  failIf (ld && c < 256 && n.isSome && f.d.toNat ≤ c && c < top) 11

/-- How many s registers the issuer has (R132, R260). -/
def KInfo.top (k : KInfo) : Nat := if k.spool = some true then 64 else 128

/-- The reasons of an entry that lays fields out itself. -/
def special (i : Instr) (k : KInfo) : List Nat :=
  match i with
  | .getsr f => failIf (!srAssigned f.a.toNat || srLane f.a.toNat) 9
  | .getsrVector f => failIf (!srAssigned f.a.toNat) 9
  | .setsr f => failIf (!srAssigned f.a.toNat) 9
  | .cvt f => failIf (11 < f.c.toNat % 16) 3 ++ failIf (15 < f.c.toNat) 5 ++
      failIf (wideTy (f.c.toNat % 16) && f.a.toNat % 2 == 1) 8
  | .cvtkb f | .unpkb f => failIf (15 < f.c.toNat) 5 ++ failIf (f.c.toNat % 8 == 7) 11
  | .pnot f => failIf (1 < f.m.toNat) 5 ++ failIf (f.b != 0) 5
  | .shfl f => failIf (f.m == 1 && (f.mn == 3 || f.b.toNat < 385 || 390 < f.b.toNat)) 11 ++
      failIf ((f.m == 1 || f.mn != 3) && f.b.toNat < 256) 4
  | .vred f => failIf (f.ty.toNat ∈ tyFl && 2 < f.mn.toNat) 3 ++
      failIf (f.m != 0 && !(f.mn == 0 && f.ty.toNat ∈ tyFl)) 5
  | .vscan f => failIf (f.ty.toNat ∈ tyFl && 2 < f.mn.toNat % 8) 3 ++
      failIf (f.m != 0 && !(f.mn.toNat % 8 == 0 && f.ty.toNat ∈ tyFl)) 5
  | .tiopLd f => tiopReasons f true k.regs
  | .tiopSt f => tiopReasons f false k.regs
  | .tiopAdv f => failIf (match constOf? f.b.toNat f.lit with | some n => n == 0 || 32 < n | none => false) 11
  | .tiget f => if f.m == 0 then failIf (f.b != 0) 5 else okReasons oS32 f.b.toNat 1 k.top
  | .ld f => ldstReasons f false k.top [0, 1, 2, 4]
  | .st f => ldstReasons f false k.top [0, 1, 3, 4]
  | .lds f => ldstReasons f true k.top [0, 1, 2, 4]
  | .sts f => ldstReasons f true k.top [0, 1, 3, 4]
  | .atom f => failIf (63 < f.c.toNat) 5 ++ atomReasons f
  | .atomOrd f => failIf (!(f.mn.toNat ∈ [0, 2, 3, 4, 5, 6, 11]) || f.m.toNat / 2 == 0) 11 ++ atomReasons f ++
      failIf (k.nsite ≤ f.c.toNat / 64) 11
  | .lcopy f => failIf (3 < f.c.toNat % 8) 11 ++ failIf (31 < f.c.toNat) 5 ++
      failIf (f.a.toNat % 2 == 1 || f.d.toNat % 2 == 1) 8 ++
      failIf ((f.mn.toNat % 2 == 1 && 127 < f.a.toNat) || (f.mn.toNat / 2 % 2 == 1 && 127 < f.d.toNat)) 4
  | .fence f => orderReasons f.c.toNat [2, 3, 4]
  | .qpop f | .qpopTry f => failIf (7 < f.c.toNat) 4 ++
      (if f.a == 0 then failIf (f.b != 0) 5 ++ failIf (f.ty == 1) 3
       else failIf (f.b.toNat < 385 || 400 < f.b.toNat) 4 ++ failIf (f.ty != 1) 3)
  | .qpush f => failIf (f.d != 1) 4 ++ failIf (f.b.toNat < 385 || 400 < f.b.toNat) 4
  | .mloopNew f | .mloopAcc f => failIf (31 < f.d.toNat || 255 < f.c.toNat) 5
  | .tcopy f => failIf (31 < f.c.toNat) 5 ++
      failIf (f.c.toNat / 8 == 3 || 191 < f.d.toNat || (f.c.toNat / 8 == 1 && 127 < f.d.toNat) ||
        (f.c.toNat / 8 == 2 && 159 < f.d.toNat)) 11
  | .coll f => failIf (31 < f.d.toNat || 3 < f.c.toNat) 5 ++ failIf (f.c == 3 && f.mn.toNat < 2) 11
  | .rcvt f => failIf (f.d.toNat % 4 != 0) 7 ++
      (if f.m == 0 then okReasons .sPair f.b.toNat 10 k.top else failIf (f.b != 0) 5)
  | .trit f => failIf (f.c.toNat % 2 == 1 || 7 < f.c.toNat) 5
  | .rtrace f => failIf (7 < f.c.toNat) 5
  | .slbegin f => failIf (135 < f.d.toNat) 11 ++
      failIf (match constOf? f.b.toNat f.lit with | some n => n == 0 || 32 < n | none => false) 11 ++
      failIf (!k.staged) 11
  | .slend _ | .slnext _ | .stadv _ | .stjmp _ | .waitl _ => failIf (!k.staged) 11
  | _ => []

/-- The instructions that the spool processor issues (R147, R261). -/
def onSpool (op mn : Nat) : Bool :=
  op ∈ [0x00, 0x01, 0x02, 0x03, 0x05, 0x07, 0x0B, 0x42, 0x43, 0x48, 0x50, 0x51, 0x52, 0x53, 0x68, 0x69, 0x6A] ||
  (0x10 ≤ op && op < 0x18) || (op == 0x18 && mn == 0)

/-- Whether a register lies outside what the kernel gives (R383 reason 7). -/
def refOutside (k : KInfo) : Ref → Bool
  | .v n => k.regs ≤ n || 256 ≤ n
  | .s n => k.top ≤ n
  | .p _ => false

/-- Every reason of R383, from 3 on, that an instruction breaks whose L field is `l`. Where parcel 1 is
absent its fields are not there to break anything. GN without a guard (G = 0) on a guarded form is no unused field here: the manual
does not say, and the instruction runs unguarded (R130; log 75, DESIGN CHOICE). -/
def reasons (i : Instr) (l : Nat) (k : KInfo) : List Nat :=
  match enc i with
  | none => []
  | some (f, r) =>
    let op := r.op.toNat
    let p1 := decide (l ≠ 0) && !(oneParcel op)
    rkReasons r.d f.d.toNat f.ty.toNat k.top ++ rkReasons r.a f.a.toNat f.ty.toNat k.top ++
    failIf (op < 0x20 && ((r.d == .zero && 127 < f.d.toNat) || 127 < f.a.toNat)) 4 ++
    failIf (!r.guarded && (f.g != 0 || f.gn != 0)) 5 ++
    failIf (k.spool = some true && (f.g != 0 || f.gn != 0 || f.tk != 0)) 5 ++
    failIf (l != lenCode r f) 6 ++
    failIf ((readRefs i ++ writeRefs i).any (refOutside k)) 7 ++
    failIf (k.spool = some true && !onSpool op f.mn.toNat) 10 ++
    failIf (k.spool = some false && 0x68 ≤ op && op ≤ 0x6A) 10 ++
    (if p1 then
      failIf (13 < f.ty.toNat || (!r.tys.isEmpty && !(f.ty.toNat ∈ r.tys))) 3 ++
      failIf (r.tys.isEmpty && f.ty != 0) 5 ++
      okReasons r.b f.b.toNat f.ty.toNat k.top ++ okReasons r.c f.c.toNat f.ty.toNat k.top ++
      failIf (!r.tk && f.tk != 0) 5 ++
      failIf (r.ms == [0] && f.m != 0) 5 ++
      failIf (r.ms != [0] && !(f.m.toNat ∈ r.ms)) 11 ++
      special i k
     else [])

/-- The lowest of some reasons (R383). -/
def lowest : List Nat → Option Nat
  | [] => none
  | x :: xs => match lowest xs with
    | none => some x
    | some y => some (min x y)

/-- The reason with which the clause check refuses an instruction, if it does (R383). -/
def encReason (i : Instr) (l : Nat) (k : KInfo) : Option Nat := lowest (reasons i l k)

end Sys2Proof.Machine
end

