-- ==== Sys2Proof/WellFormed.lean ====
section
/-! DEFINITION. Which terms of Instr are instructions: an encoded instruction obeys R129 to R132 and the
restrictions of its entry (no reason of R383 applies), and its absent fields are zero; an event names units
that exist. -/

namespace Sys2Proof

open Sys2Proof.Machine

/-- Fields that no parcel of the instruction carries are zero: parcel 1 of a one-parcel form, the literal
without L = 2 (R127 to R129). The minor opcode is one of the row's. -/
def Instr.absentZero (i : Instr) : Bool :=
  match enc i with
  | none => true
  | some (f, r) =>
    decide (f.mn.toNat ∈ r.mins) &&
    (lenCode r f == 2 || f.lit == 0) &&
    (r.len != .one || (f.b == 0 && f.c == 0 && f.mn == 0 && f.ty == 0 && f.tk == 0 && f.m == 0))

/-- The clause check finds no reason of R383 against the instruction. -/
def Instr.noReason (i : Instr) : Bool :=
  match enc i with
  | none => true
  | some (f, r) => (encReason i (lenCode r f) {}).isNone

/-- The units that an event names exist (R15, R362, R365, R374, R428). -/
def Instr.unitsExist (i : Instr) : Bool :=
  match i with
  | .nop _ => true
  | .yield _ => true
  | .exit _ => true
  | .ret _ => true
  | .join _ => true
  | .joinT _ => true
  | .joinTimerExpiry _ => true
  | .trap _ => true
  | .sys _ => true
  | .sysComplete _ => true
  | .sysServiceNone _ => true
  | .sysServiceLog _ => true
  | .sysServiceRaiseVector _ => true
  | .sysServiceHostWrite _ => true
  | .bra _ => true
  | .brpAll _ => true
  | .brpAny _ => true
  | .brpNone _ => true
  | .brv _ => true
  | .brx _ => true
  | .call _ => true
  | .callx _ => true
  | .sadd _ => true
  | .ssub _ => true
  | .smin _ => true
  | .smax _ => true
  | .sand _ => true
  | .sor _ => true
  | .sxor _ => true
  | .snot _ => true
  | .sshl _ => true
  | .sshr _ => true
  | .sclz _ => true
  | .spop _ => true
  | .smul _ => true
  | .smulh _ => true
  | .smad _ => true
  | .sdiv _ => true
  | .srem _ => true
  | .scmp _ => true
  | .ssel _ => true
  | .smov _ => true
  | .sli _ => true
  | .sbfe _ => true
  | .sbfi _ => true
  | .getsr _ => true
  | .getsrVector _ => true
  | .setsr _ => true
  | .vadd _ => true
  | .vsub _ => true
  | .vmin _ => true
  | .vmax _ => true
  | .vand _ => true
  | .vor _ => true
  | .vxor _ => true
  | .vnot _ => true
  | .vshl _ => true
  | .vshr _ => true
  | .vabs _ => true
  | .vclz _ => true
  | .vpop _ => true
  | .vbrev _ => true
  | .vmul _ => true
  | .vmulh _ => true
  | .vmad _ => true
  | .vdiv _ => true
  | .vrem _ => true
  | .vcmp _ => true
  | .vsel _ => true
  | .vmov _ => true
  | .vli _ => true
  | .vbfe _ => true
  | .vbfi _ => true
  | .vbrevFld _ => true
  | .fadd _ => true
  | .fsub _ => true
  | .fmul _ => true
  | .fmin _ => true
  | .fmax _ => true
  | .fldexp _ => true
  | .ffma _ => true
  | .fcmp _ => true
  | .frcp _ => true
  | .frsq _ => true
  | .fsqrt _ => true
  | .fdiv _ => true
  | .fexp2 _ => true
  | .flog2 _ => true
  | .fsin _ => true
  | .fcos _ => true
  | .frnd _ => true
  | .fclass _ => true
  | .cvt _ => true
  | .cvtkb _ => true
  | .unpkb _ => true
  | .pack2 _ => true
  | .unpk2 _ => true
  | .pand _ => true
  | .por _ => true
  | .pxor _ => true
  | .pnot _ => true
  | .voteAll _ => true
  | .voteAny _ => true
  | .voteBallot _ => true
  | .shfl _ => true
  | .vred _ => true
  | .vscan _ => true
  | .qswz _ => true
  | .qbc _ => true
  | .vreadl _ => true
  | .vwritel _ => true
  | .rand _ => true
  | .tiset _ => true
  | .tiopLd _ => true
  | .tiopSt _ => true
  | .tiopAdv _ => true
  | .tiget _ => true
  | .spill _ => true
  | .fill _ => true
  | .ld _ => true
  | .st _ => true
  | .lds _ => true
  | .sts _ => true
  | .atom _ => true
  | .atomOrd _ => true
  | .orderedPassage _ _ => true
  | .lcopy _ => true
  | .lcopyComplete _ => true
  | .waitf _ => true
  | .waitfReturn _ => true
  | .fence _ => true
  | .promote _ => true
  | .bari _ => true
  | .bara _ => true
  | .barw _ => true
  | .barwReturn _ => true
  | .bart _ => true
  | .qpop _ => true
  | .qpopTry _ => true
  | .qpopServe _ => true
  | .qpush _ => true
  | .obres _ => true
  | .obrel _ => true
  | .mloopNew _ => true
  | .mloopAcc _ => true
  | .sequencerCommandStart core => decide (core < 144)
  | .mloopReadArrival core => decide (core < 144)
  | .mloopComplete core => decide (core < 144)
  | .mpub _ => true
  | .headTileTake core => decide (core < 144)
  | .spreq _ => true
  | .sprecv _ => true
  | .sprecvTry _ => true
  | .sprecvReceive _ => true
  | .tcopy _ => true
  | .tcopyComplete _ => true
  | .coll _ => true
  | .collComplete _ => true
  | .rcvt _ => true
  | .boxt _ => true
  | .fdin _ => true
  | .trit _ => true
  | .rhit _ => true
  | .rtrace _ => true
  | .rtraceComplete _ => true
  | .nswap _ => true
  | .gdrain _ => true
  | .gdrainReturn _ => true
  | .drawv _ => true
  | .drawvPassComplete _ => true
  | .slbegin _ => true
  | .slend _ => true
  | .slnext _ => true
  | .slnextWaitEnd _ => true
  | .stadv _ => true
  | .stjmp _ => true
  | .waitl _ => true
  | .waitlReturn _ => true
  | .launch _ => true
  | .launchTry _ => true
  | .launchPoolWaitEnd _ => true
  | .tstat _ => true
  | .clauseStart _ => true
  | .issueHoldRelease _ => true
  | .variableLatencyComplete _ => true
  | .pageWalkComplete die _ _ => decide (die < 3)
  | .engineFault _ => true
  | .tractSkip q _ => decide (q < 64)
  | .tractRetry q _ => decide (q < 64)
  | .tractKill q _ => decide (q < 64)
  | .trkill q _ => decide (q < 64)
  | .trheadWrite q _ => decide (q < 64)
  | .trbaseWrite q _ => decide (q < 64)
  | .workgroupDispatch _ core => decide (core < 144)
  | .workgroupRetire _ => true
  | .scoreboardBitReceive _ die _ => decide (die < 3)
  | .graphNodeStart _ _ => true
  | .graphReplayStart _ => true
  | .groupSwapStart core => decide (core < 144)
  | .groupSwapEnd core => decide (core < 144)
  | .bridleEvaluate slice => decide (slice < 6)
  | .contextSave _ => true
  | .lateCompletionApply _ => true
  | .workgroupRestore _ _ => true
  | .qtailWrite q _ => decide (q < 64)
  | .qctlWrite q _ => decide (q < 64)
  | .qsizeWrite q _ => decide (q < 64)
  | .qerrRead q => decide (q < 64)
  | .queueNop q => decide (q < 64)
  | .launchCommand q => decide (q < 64)
  | .graphCommand q => decide (q < 64)
  | .waitv q => decide (q < 64)
  | .waitvSatisfied q => decide (q < 64)
  | .frame q => decide (q < 64)
  | .frameEncodeComplete _ => true
  | .inval q => decide (q < 64)
  | .invalComplete _ => true
  | .preempt q => decide (q < 64)
  | .resume q => decide (q < 64)
  | .comm q => decide (q < 64)
  | .bridle q => decide (q < 64)
  | .region q => decide (q < 64)
  | .commandComplete _ => true
  | .restart _ => true
  | .irqstatWrite _ => true
  | .errlogWrite _ => true
  | .flashctlWrite _ => true
  | .flashWindowWrite _ _ => true
  | .apertureAccess _ _ _ _ => true
  | .cecntRead => true
  | .uestatWrite _ => true
  | .portstatRead port => decide (port < 18)
  | .dlstatRead link => decide (link < 3)
  | .registerWrite _ _ => true
  | .moduleReset => true
  | .startTimeout => true
  | .thermalTrip => true
  | .powerLimit _ => true
  | .fabricWrite port flit => decide (port < 18) && decide (flit.length = 128)
  | .fabricReadRequest port flit => decide (port < 18) && decide (flit.length = 128)
  | .fabricReadData port flit => decide (port < 18) && decide (flit.length = 128)
  | .fabricCollectiveData port flit => decide (port < 18) && decide (flit.length = 128)
  | .fabricAcknowledge port flit => decide (port < 18) && decide (flit.length = 128)
  | .replayTimeout port => decide (port < 21)
  | .laneLockLoss port => decide (port < 21)
  | .portRetrainComplete port _ => decide (port < 18)
  | .dieLinkRetrainComplete link _ => decide (link < 3)
  | .scrubPatrol _ => true
  | .softError _ => true
  | .trainingComplete _ => true
  | .flashWriteComplete _ => true

/-- A well-formed instruction or event. -/
def Instr.wellFormed (i : Instr) : Bool := i.absentZero && i.noReason && i.unitsExist

end Sys2Proof
end

