-- ==== Sys2Proof/Decode.lean ====
section
/-! DEFINITION. Decoding bytes to an instruction, total, rejecting by the reason of R383, and the encoder. -/

namespace Sys2Proof

open Sys2Proof.Machine

/-- Why bytes are no instruction: they end too soon, or a reason of R383 holds. -/
inductive Reject where
  | short
  | reason (r : Nat)
  deriving DecidableEq, Repr

/-- The field of `n` bits at bit `i` of a parcel. -/
def Word.fld (w : Word) (i n : Nat) : BitVec n := w.extractLsb' i n

/-- The fields of R127 and R128 as they stand in the parcels. -/
def rawFld (p0 p1 p2 : Word) : Fld where
  s := Word.fld p0 2 3
  g := Word.fld p0 12 3
  gn := Word.fld p0 15 1
  d := Word.fld p0 16 8
  a := Word.fld p0 24 8
  b := Word.fld p1 0 9
  c := Word.fld p1 9 9
  mn := Word.fld p1 18 4
  ty := Word.fld p1 22 4
  tk := Word.fld p1 26 4
  m := Word.fld p1 30 2
  lit := p2

/-- The L field of parcel 0. -/
def lenOf (p0 : Word) : Nat := (Word.fld p0 0 2).toNat

/-- The major opcode in parcel 0. -/
def opOf (p0 : Word) : Nat := (Word.fld p0 5 7).toNat

/-- The instruction that three parcels name, before its checks: L = 3 is reason 0, then the opcode map
gives reason 1 or 2. Parcels that L or the row does not give count as zero. -/
def rawDecode (p0 p1 p2 : Word) : Except Nat Instr :=
  let l := lenOf p0
  if l = 3 then .error 0
  else
    let q1 := if l = 0 ∨ oneParcel (opOf p0) then 0 else p1
    let q2 := if l = 2 ∧ oneParcel (opOf p0) = false then p2 else 0
    let f := rawFld p0 q1 q2
    ofOp (opOf p0) f.mn.toNat f.m.toNat f

/-- The instruction that three parcels name, or the lowest reason against it (R383). -/
def decodeParcels (k : KInfo) (p0 p1 p2 : Word) : Except Nat Instr :=
  match rawDecode p0 p1 p2 with
  | .error r => .error r
  | .ok i =>
    match encReason i (lenOf p0) k with
    | some r => .error r
    | none => .ok i

/-- Four bytes as a parcel, least significant byte first (R3). -/
def wordOfBytes (b0 b1 b2 b3 : Byte) : Word := b3 ++ b2 ++ b1 ++ b0

/-- The bytes of a parcel, least significant first. -/
def bytesOfWord (w : Word) : List Byte :=
  [w.extractLsb' 0 8, w.extractLsb' 8 8, w.extractLsb' 16 8, w.extractLsb' 24 8]

/-- The first parcel of a list of bytes, and the rest. -/
def takeWord : List Byte → Option (Word × List Byte)
  | b0 :: b1 :: b2 :: b3 :: rest => some (wordOfBytes b0 b1 b2 b3, rest)
  | _ => none

/-- Parcels 1 and 2 as far as L gives them, zero where it does not, and the bytes after them. -/
def takeRest (l : Nat) (bs : List Byte) : Option (Word × Word × List Byte) :=
  match l with
  | 0 => some (0, 0, bs)
  | 1 => match takeWord bs with
    | some (p1, bs) => some (p1, 0, bs)
    | none => none
  | _ => match takeWord bs with
    | some (p1, bs) => match takeWord bs with
      | some (p2, bs) => some (p1, p2, bs)
      | none => none
    | none => none

/-- Decode the instruction at the head of some bytes; total. -/
def decode (bs : List Byte) : Except Reject (Instr × List Byte) :=
  match takeWord bs with
  | none => .error .short
  | some (p0, bs) =>
    if lenOf p0 = 3 then .error (.reason 0)
    else
      match takeRest (lenOf p0) bs with
      | none => .error .short
      | some (p1, p2, bs) =>
        match decodeParcels {} p0 p1 p2 with
        | .error r => .error (.reason r)
        | .ok i => .ok (i, bs)

/-- Parcel 0 of R127. -/
def parcel0 (f : Fld) (op : BitVec 7) (l : BitVec 2) : Word :=
  f.a ++ f.d ++ f.gn ++ f.g ++ op ++ f.s ++ l

/-- Parcel 1 of R128. -/
def parcel1 (f : Fld) : Word := f.m ++ f.tk ++ f.ty ++ f.mn ++ f.c ++ f.b

/-- The parcels of an instruction (R127 to R129); an event has none. -/
def encode (i : Instr) : List Word :=
  match enc i with
  | none => []
  | some (f, r) =>
    match lenCode r f with
    | 0 => [parcel0 f r.op 0]
    | 1 => [parcel0 f r.op 1, parcel1 f]
    | _ => [parcel0 f r.op 2, parcel1 f, f.lit]

/-- The bytes of an instruction as memory holds them. -/
def encodeBytes (i : Instr) : List Byte := (encode i).flatMap bytesOfWord

/-- The bytes of a table word: `nbits` bits numbered from the least significant of the first parcel, and
zeros above them up to three parcels. -/
def tableBytes (nbits w : Nat) : List Byte :=
  (List.range 12).map fun i => BitVec.ofNat 8 ((w % 2 ^ nbits) / 2 ^ (8 * i))

/-- The instruction the decoder reads from a word of the opcode table. -/
def decodeTableWord (nbits w : Nat) : Option Instr :=
  match decode (tableBytes nbits w) with
  | .ok (i, _) => some i
  | .error _ => none

end Sys2Proof
end

