-- ==== Sys2Proof/Machine/Tab.lean ====
section
/-! DEFINITION. The operations on sorted tables: look up, insert, remove, and the table with a default value,
which lists no key that holds the default. -/

namespace Sys2Proof.Machine

open Sys2Proof

/-- The value listed for a key. -/
def Tab.find? {α : Type} : Tab α → Nat → Option α
  | [], _ => none
  | (k, x) :: t, j => if k = j then some x else Tab.find? t j

/-- List a value for a key, in rising key order. -/
def Tab.put {α : Type} : Tab α → Nat → α → Tab α
  | [], j, y => [(j, y)]
  | (k, x) :: t, j, y =>
    if j < k then (j, y) :: (k, x) :: t
    else if j = k then (j, y) :: t
    else (k, x) :: Tab.put t j y

/-- List nothing for a key. -/
def Tab.erase {α : Type} (t : Tab α) (j : Nat) : Tab α := t.filter fun e => e.1 != j

/-- The value of a key in a table whose unlisted keys hold `d`. -/
def Tab.get {α : Type} (d : α) (t : Tab α) (j : Nat) : α := (Tab.find? t j).getD d

/-- Set the value of a key in a table whose unlisted keys hold `d`. -/
def Tab.set {α : Type} [DecidableEq α] (d : α) (t : Tab α) (j : Nat) (y : α) : Tab α :=
  if y = d then Tab.erase t j else Tab.put t j y

/-- The table lists strictly rising keys. -/
def Tab.sorted {α : Type} : Tab α → Bool
  | [] => true
  | (k, _) :: t => t.all (fun e => k < e.1) && Tab.sorted t

/-- The table is sorted and lists no default value: its one canonical form. -/
def Tab.wf {α : Type} [DecidableEq α] (d : α) (t : Tab α) : Bool :=
  Tab.sorted t && t.all (fun e => decide (e.2 ≠ d))

/-- Change the value listed for a key, if one is. -/
def Tab.modify {α : Type} (t : Tab α) (j : Nat) (f : α → α) : Tab α :=
  t.map fun e => if e.1 = j then (e.1, f e.2) else e

/-- A vector of lanes from a function of the lane. -/
def lanesOf (f : Nat → Word) : Lanes := (List.range W).map f

/-- The value of one lane. -/
def laneAt (xs : Lanes) (l : Nat) : Word := xs.getD l 0

/-- A mask from a test of the lane. -/
def maskOf (f : Nat → Bool) : Mask :=
  (List.range W).foldl (fun m l => if f l then m ||| (1#64 <<< l) else m) 0

/-- The lanes of a mask, ascending. -/
def lanesIn (m : Mask) : List Nat := (List.range W).filter fun l => m.getLsbD l

/-- The number of lanes of a mask. -/
def popMask (m : Mask) : Nat := (lanesIn m).length

/-- Insert a number into a rising list. -/
def insertNat (x : Nat) : List Nat → List Nat
  | [] => [x]
  | y :: ys => if x ≤ y then x :: y :: ys else y :: insertNat x ys

/-- Sort numbers, rising. -/
def sortNats (xs : List Nat) : List Nat := xs.foldr insertNat []

end Sys2Proof.Machine
end

