-- ==== Sys2Proof/Machine/State.lean ====
section
/-! DEFINITION. The state of the module as plain data, the reasons a step can stop, and the state after reset. -/

namespace Sys2Proof.Machine

open Sys2Proof

/-- Why a step stops with a fault. Each is raised by the model where no act of the machine is possible; stopping
is safe: nothing is claimed of what the hardware would do. -/
inductive Fault where
  /-- An encoded instruction is executed while `cur` names no resident split and no running spool
  processor. Raised by the shared issue operation. Safe. -/
  | noAgent
  /-- An event is executed in a state in which the manual does not let it happen (a completion of an
  operation that is not outstanding, a command that is not at its queue's head). Raised by the events and
  by step for an act that is not possible. Safe. -/
  | notEnabled (event : String)
  deriving DecidableEq, Repr

/-- Why a step is refused. -/
inductive Refusal where
  /-- The instruction has no meaning in this model yet. Raised by exec's arms alone. Safe. -/
  | notModelled (mnemonic : String)
  deriving DecidableEq, Repr

/-- A write to registers: an s register, a v register in the lanes of a mask, a predicate in the lanes of a mask. -/
inductive Wr where
  | s (r : Nat) (x : Word)
  | v (r : Nat) (m : Mask) (xs : Lanes)
  | p (r : Nat) (m : Mask) (x : Mask)
  deriving DecidableEq, Repr

/-- A fixed-latency result on its way (R136): readable from cycle `ready` on; `split` issued it. `ti`: an iterator record that
lands with it (R207); `age`: an AGEMAX (R176). -/
structure Fix where
  ready : Nat
  split : Nat
  wrs : List Wr
  ti : Option (Nat × List Word) := none
  age : Option Nat := none
  deriving DecidableEq, Repr

/-! ### What happens before what (R61) -/

/-- What happens before a point: by the number of an agent, the first of its epochs that does not. -/
abbrev Clk := Tab Nat

/-- Where an agent stands for the scopes of R58, 0 for nowhere: its group, its workgroup, its die. -/
structure Place where
  grp : Nat := 0
  wg : Nat := 0
  die : Nat := 0
  deriving DecidableEq, Repr

/-- A release that a write carries (R61): its scope, the place of its agent, and what happens before it; `also`: the place of
a workgroup that lies in its scope through a promotion (R71). -/
structure Rel where
  scp : Nat
  place : Place
  clk : Clk
  also : Option Nat := none
  deriving DecidableEq, Repr

/-- One byte of an access: its key, whether its page is checked (R406), whether races are tracked for it, whether it
is read through the non-coherent path, as a fetch or a table is too (R68, R158), its path, and its virtual address. -/
structure Hit where
  key : Nat
  chk : Bool := false
  tracked : Bool := true
  alias0 : Bool := false
  path : Nat := 0
  va : DWord := 0
  deriving DecidableEq, Repr

/-- A write of a byte: its place in coherence order, the value that it replaced, the agent with its epoch, its path, the
fences that its agent had made (R69) and its launch, how it was ordered (R59), the releases that it carries, and the outstanding
loads that happen before it (R63). -/
structure Wrec where
  key : Nat
  seq : Nat
  old : Byte
  agent : Nat := 0
  epoch : Nat := 0
  path : Nat := 0
  fences : Nat := 0
  lnch : Nat := 0
  marked : Bool := true
  ar : Bool := false
  atom : Bool := false
  scp : Nat := 5
  place : Place := {}
  rels : List Rel := []
  after : List Nat := []
  /-- The slice whose NSWAP made it, plus one (R118). -/
  nswap : Nat := 0
  deriving DecidableEq, Repr

/-- Where an agent stands in happens-before: its epoch, the first one that is its own (a split's place is used again), what
happens before its next access; its fences and whether a release has come since its last acquire (R69); the releases that
its next marked store carries for a fence, those that its last marked load read and the operation of that load, those of the write
that its last access read (R61), and what happens before the .ar fences that its own follow in the order of R64. -/
structure AgHb where
  epoch : Nat := 0
  start : Nat := 0
  clk : Clk := []
  fences : Nat := 0
  released : Bool := false
  fenceRel : List Rel := []
  readRel : List Rel := []
  lastRel : List Rel := []
  readOp : Nat := 0
  arClk : Clk := []
  deriving DecidableEq, Repr

/-- The carriers of R62 that hold what has been released to them: a barrier's completed phases and its present one, a
token, a counter, a staged iteration, the groups of a workgroup that have exited, the retirement of a workgroup, the start and
the end of a launch, a node of a graph (256: the start of its replay), the latest replay of an object, a mailbox, the published
tiles of a core, the traversals of a slice sampled in a generation, the passes of a group on a die, what the commands of a queue follow,
the effects of a command, the commands that a queue has completed. -/
inductive Chan where
  | bar (wg n : Nat) | barNow (wg n : Nat)
  | tok (wg grp n : Nat) | cnt (wg grp n : Nat)
  | stage (wg loop it : Nat)
  | exited (wg : Nat)
  | ret (lnch ix : Nat) | start (lnch : Nat) | ended (lnch : Nat)
  | node (graph n : Nat) | replay (obj root : Nat)
  | mail (wg : Nat) | tile (core : Nat)
  | trav (slice gen : Nat)
  | pass (wg grp die : Nat)
  | queue (q : Nat) | cmd (id : Nat) | fin (q : Nat)
  deriving DecidableEq, Repr

/-- Happens-before: where each agent stands; what each carrier holds, oldest first; the promotions made (R71): key, party, and
the place of the owner's workgroup; the .ar fences made, in the order of R64; and by the number of a collective the runs of keys
that its members name as SRC and DST (R274): first key and length. -/
structure Hb where
  agents : Tab AgHb := []
  chans : List (Chan × List Clk) := []
  promoted : List (Nat × Nat × Nat) := []
  arFences : List Rel := []
  bufs : List (Nat × List (Nat × Nat)) := []
  deriving DecidableEq, Repr

/-- A clause that a split or a spool processor has reached and that has passed its check (R382): the header, the
address of its next instruction, the index of that instruction, the parcels from it on, whether the clause has
started (R125), the cycle the next stall count is measured from (R136), and Y with the YIELDs issued (R163). -/
structure Clause where
  hdr : DWord
  at_ : DWord
  idx : Nat
  rest : List Word
  started : Bool
  base : Nat
  y : Bool
  deriving DecidableEq, Repr

/-- A split-table entry (R31). `pc` is the address of the clause header; its top byte is 0 once a check has
passed. `st`: 0 ready, 1 waiting at a join, 2 waiting with a timer. `block`: 1 it waits at a waiting instruction it has
reached, in cycle `since`, 2 its next instruction's issue is held in place (R25). `notBefore`: the first cycle in which it may start
its next clause (R125, R136). `again`, after an action on a trap: 1 its instruction was passed over, and S counts from the end of
the freeze; 2 it was stopped by the stall-count check, and waits for its register (R394). -/
structure Split where
  v : Bool := false
  pc : DWord := 0
  mask : Mask := 0
  j : Option (BitVec 56) := none
  je : Nat := 3
  n : Nat := 0
  age : Nat := 0
  st : Nat := 0
  timer : Nat := 0
  cl : Option Clause := none
  notBefore : Nat := 0
  block : Nat := 0
  since : Nat := 0
  again : Nat := 0
  deriving DecidableEq, Repr

/-- A join-table entry (R31). -/
structure JoinEnt where
  v : Bool := false
  ja : BitVec 56 := 0
  jm : Mask := 0
  arr : Mask := 0
  oj : Option (BitVec 56) := none
  out : Nat := 3
  deriving DecidableEq, Repr

/-- A reconvergence-stack entry (R31, R36). -/
structure StackEnt where
  pc : BitVec 56
  mask : Mask
  j : Option (BitVec 56)
  owner : Nat
  deriving DecidableEq, Repr

/-- What a trap is raised with (R380, R381): the cause code, INFO, TRAPADDR, AUX, and whether it comes from the
clause check (`false`) or from issue (`true`). -/
structure Trap where
  cause : BitVec 16
  info : BitVec 16
  addr : DWord
  aux : DWord
  atIssue : Bool
  /-- For a fault that one walk finds: the die and the 64 KiB page it is shared on (R403). -/
  walk : Option (Nat × Nat) := none
  /-- For a deferred fault: the outstanding operation that stopped (R402). -/
  op : Option Nat := none
  /-- Not a trap yet: the bytes of peer modules that the access has still to read (R373, log 16). Of a deferred fault: the bytes
  whose writes a peer refused or a port lost. -/
  far : List Hit := []
  /-- Not a trap yet: the poison that a plain read meets, which is a deferred fault (R402). -/
  late : Bool := false
  deriving DecidableEq, Repr

/-- A trap entry of a queue (R393) that awaits its ring place or an action; `joined`: the agents frozen by it; `failed`: its write
has failed (R410); `at_`: the cycle in which it was raised. Its serial is 0 until it is written. -/
structure Pend where
  q : Nat
  serial : Word
  lnch : Nat
  lid : Word
  trap : Trap
  joined : List Agent
  entry : List Word
  written : Bool
  failed : Bool := false
  at_ : Nat := 0
  /-- The workgroup and the slot that it names; 64: the spool processor. -/
  wg : Nat := 0
  slot : Nat := 0
  deriving DecidableEq, Repr

/-- A TIOP in progress: its issue operands (R210, R343), and what a `st` moves, by register, as read at issue (R136); of a `ld` the
steps that await bytes of peer modules, by lane with the bytes read here. -/
structure Tiop where
  mode : Nat
  ty : Nat
  reg : Nat
  n : Nat
  hnd : Nat
  act : Mask
  ofs : Lanes
  data : List Lanes
  plan : List (Nat × List (Nat × List (Hit × Byte))) := []
  deriving DecidableEq, Repr

/-- The state of one resident group (R26, R31, R132, R142, R144, R309, R343). -/
structure Group where
  wg : Nat
  grp : Nat
  s : Tab Word := []
  v : Tab Lanes := []
  p : Tab Mask := []
  tk : Tab Nat := []
  f : Tab Nat := []
  fpstat : BitVec 5 := 0
  chksb : Bool := false
  agemax : Nat := 1
  trapCause : Word := 0
  trapAddr : DWord := 0
  iter : Option Word := none
  stage : BitVec 16 := 0
  lp : Nat := 0
  hold : Bool := false
  claim : Option Word := none
  claimReg : Nat := 0
  claimTok : Nat := 0
  draw : Tab Word := []
  ti : Tab (List Word) := []
  splits : List Split := []
  joins : List JoinEnt := []
  stack : List StackEnt := []
  stks : Nat := 0
  fixes : List Fix := []
  held : Tab (List Word) := []
  exited : Bool := false
  lmask : Mask := 0
  helper : Mask := 0
  pbase : DWord := 0
  spillBase : DWord := 0
  spillSize : Nat := 0
  sites : List Nat := []
  launches : Tab Nat := []
  trapped : Bool := false
  /-- Registers and lanes that hold an uncorrectable error, and those with a correctable one (R411). -/
  regErr : List (Nat × Nat) := []
  regFlaw : List (Nat × Nat) := []
  /-- The last issue: the cycle after it, the split, and the pipe (0 scalar, 1 vector, 2 engine). -/
  issued : Nat := 0
  issuedBy : Nat := 0
  pipe : Nat := 0
  deriving DecidableEq, Repr

/-- A barrier register (R235). -/
structure Bar where
  ph : Bool := false
  arr : Nat := 0
  exp : Nat := 1
  deriving DecidableEq, Repr

/-- An open or pending staged loop (R309). -/
structure SLoop where
  id : Nat
  n : Word
  t : Nat
  mem : Nat
  joined : Nat
  ended : Nat := 0
  next : Word := 0
  deriving DecidableEq, Repr

/-- An iteration entry of the stage table (R309). -/
structure SEnt where
  v : Bool := false
  it : Word := 0
  stg : BitVec 16 := 0
  deriving DecidableEq, Repr

/-- A workgroup's spool processor (R260): the spool has traps of its own (R390). -/
structure Spool where
  run : Bool := true
  pc : DWord := 0
  s : Tab Word := []
  cl : Option Clause := none
  notBefore : Nat := 0
  block : Nat := 0
  again : Nat := 0
  trapCause : Word := 0
  trapAddr : DWord := 0
  trapped : Bool := false
  regErr : List Nat := []
  regFlaw : List Nat := []
  issued : Nat := 0
  deriving DecidableEq, Repr

/-- A workgroup: resident, or saved in a context save area; `dropped`: saved, and its launch has been killed (R395). -/
structure Wg where
  lnch : Nat
  core : Nat
  ix : Nat
  wx : Nat := 0
  wy : Nat := 0
  wz : Nat := 0
  ngrp : Nat := 1
  slots : List Nat := []
  vwbase : Nat := 0
  vwsize : Nat := 0
  resid : Nat := 0
  bars : Tab Bar := []
  obr : Tab (List Word) := []
  obHeld : List (Nat × Nat × List Nat) := []
  loop : Option SLoop := none
  pendLoop : Option SLoop := none
  ents : Tab SEnt := []
  mbox : List Word := []
  spool : Option Spool := none
  turn : Nat := 0
  passed : List Nat := []
  saved : Bool := false
  dropped : Bool := false
  deriving DecidableEq, Repr

/-- The matrix unit of a core (R246, R254, R256): tile rows by key 64·tile + row; the head (`none`: the position
is empty), whether it is opened and its type; the published tiles, oldest first; the next row to pop; the
sequencer queue by operation identifier; MRP. -/
structure Matrix where
  acc : Tab Lanes := []
  head : Option Nat := some 0
  opened : Bool := false
  i32 : Bool := false
  pub : List Nat := []
  nextRow : Nat := 0
  queue : List Nat := []
  busy : Bool := false
  step : Nat := 0
  row : Nat := 0
  bad : List Nat := []
  deriving DecidableEq, Repr

/-- A shader core. `active`: the slots of the active set in order of entry; `swap`: incoming slot, outgoing slot,
last cycle (R333); `resid`: the last residency number (R330); `ns`: the world of its last workgroup (R376);
`halted`: stopped by the drogue (R339). -/
structure CoreSt where
  active : List Nat := []
  swap : Option (Nat × Option Nat × Nat) := none
  resid : Nat := 0
  ns : Bool := false
  halted : Bool := false
  mx : Matrix := {}
  deriving DecidableEq, Repr

/-- The translation context of a launch or command (R367). -/
structure Ctx where
  root : Nat := 0
  ttier : Nat := 0
  asid : Nat := 0
  ns : Bool := false
  slice : Nat := 0
  deriving DecidableEq, Repr

/-- The kernel descriptor of R369. -/
structure Kernel where
  entry : DWord := 0
  data : DWord := 0
  spool : DWord := 0
  regs : Nat := 8
  vault : Nat := 0
  priv : Nat := 0
  roles : Word := 0
  staged : Bool := false
  det : Bool := false
  matrix : Bool := false
  nsite : Nat := 0
  deps : List (Int × Int × Int) := []
  deriving DecidableEq, Repr

/-- One contribution to an ordered-atomic site, awaiting its place in the sequence of R229; the place of its group, the releases of a
fence before it, and what its group has done by then. -/
structure Contrib where
  wg : Nat
  grp : Nat
  op : Nat
  opn : Nat
  ord : Nat
  scp : Nat
  lanes : List (Nat × DWord)
  place : Place := {}
  fence : List Rel := []
  clk : Clk := []
  deriving DecidableEq, Repr

/-- An ordered-atomic site of a launch (R228, R229): its binding, running total, the next workgroup to pass, the
contributions that wait, and the ORD and SCP of the last passage with the releases that its write carries. -/
structure Site where
  addr : DWord
  ty : Nat
  acc : DWord
  next : Nat := 0
  waiting : List Contrib := []
  ord : Nat := 1
  scp : Nat := 3
  rels : List Rel := []
  deriving DecidableEq, Repr

/-- A running launch: a LAUNCH command, or a node of a graph. `done`: the workgroups that have retired;
`die d`: the retirement bits that die d's copy has received (R306); `boarded`: its scoreboard has been written back (R305). -/
structure Launch where
  q : Nat
  lid : Word
  node : Option (Nat × Nat) := none
  ctx : Ctx := {}
  k : Kernel := {}
  param : DWord := 0
  gx : Nat := 1
  gy : Nat := 1
  gz : Nat := 1
  l : Nat := 64
  seed : DWord := 0
  det : Bool := false
  chksb : Bool := false
  gfx : Bool := false
  shade : Bool := false
  view : List Word := []
  agemax : Nat := 1
  priv : DWord := 0
  spill : DWord := 0
  spsz : Nat := 0
  sboard : DWord := 0
  sites : List Site := []
  cmd : Option Nat := none
  killed : Bool := false
  cut : Bool := false
  ranges : Tab (Nat × Nat) := []
  disp : List Nat := []
  done : List Nat := []
  die0 : List Nat := []
  die1 : List Nat := []
  die2 : List Nat := []
  histStart : Nat := 0
  order : Nat := 0
  boarded : Bool := false
  deriving DecidableEq, Repr

/-- What the device itself awaits of peer modules (R373): the acceptance of a passage write for a workgroup (R229), of a scoreboard
write-back that serves one (R305), of the last write of a command, a graph object's PMASK (R418) or a frame (R375), of a completion write of a queue (R366); the bytes that a
queue's next command or a graph's next start reads (their number). -/
inductive DevK where
  | passage (site ix : Nat)
  | board (ix : Nat)
  | mask (cmd : Nat)
  | completion (q slot : Nat)
  | read (n : Nat)
  deriving DecidableEq, Repr

/-- The kinds of outstanding operations. -/
inductive OpK where
  /-- Registers computed at issue land at completion (loads, atomics, divisions, functions, reductions). -/
  | reg
  /-- A store: nothing lands; its counter falls at completion. -/
  | store
  /-- A load: the type, the first register, the size, whether it is marked, and by lane (64: an s register) the bytes with the
  values read at issue; `read`: they have been read, and not stopped by a poisoned byte (R412). -/
  | load (ty d n : Nat) (marked read : Bool) (plan : List (Nat × List (Hit × Byte)))
  /-- An ATOM that awaits the answers of peer modules, or that a poisoned byte has stopped (R373, R412): the operation, type,
  result register and form, by lane (in ascending order) the bytes, the operand, the comparand and the old value; `sent`: the
  lanes here are done, and the requests of the others have left. -/
  | atom (mn ty d : Nat) (ret sent : Bool) (plan : List (Nat × List Hit × DWord × DWord × Nat))
  /-- Bytes of peer modules that an agent's next instruction or clause needs, asked for (R373). -/
  | far
  /-- A FILL that reads its slot at completion: the register, the lanes and the slot's address. -/
  | fill (d : Nat) (act : Mask) (slot : DWord)
  /-- SYS: the service and argument address; the status once it is known. -/
  | sys (svc : Nat) (arg : DWord) (status : Option Word)
  /-- LCOPY: per lane the source, destination, bytes copied and bytes written (R230). -/
  | lcopy (lanes : List (Nat × DWord × DWord × Nat × Nat))
  /-- TIOP: its registers and stores go step by step (R208). -/
  | tiop (t : Tiop)
  /-- MLOOP: .acc, the operand block, the K-steps, the formats, and the covering records of A and B (R250 to R253). -/
  | mloop (acc : Bool) (blk : List Word) (n fa fb : Nat) (ra rb : List Word)
  | mpub
  /-- TCOPY: fields C and D, the command block, the coordinate counters (R266, R271). -/
  | tcopy (fc fd : Nat) (blk : List Word) (c : List Nat)
  | coll (mn red ty : Nat) (src dst : DWord) (count comm root seq : Nat)
  /-- BOXT, FDIN or TRIT (the opcode): the first destination, field C, and by lane the ray block and the second source. -/
  | trav (opc d c : Nat) (lanes : List (Nat × List Word × List Word))
  /-- RTRACE: its first destination, by lane the root ray, the scene base, field C, and the generation sampled (R118). -/
  | rtrace (d : Nat) (rays : List (Nat × List Word)) (base : DWord) (flags : Nat) (gen : Word)
  | drawv (view : DWord) (gen : Word)
  /-- ATOM.ord: its site, its result register and form, its contribution's place; whether its result has landed (R229). -/
  | atomOrd (site d : Nat) (ret landed : Bool)
  /-- A QPOP of q0 that took a poisoned row (R412), with the key of a poisoned byte. -/
  | badRow (key : Nat)
  /-- What the device itself awaits of peer modules. -/
  | device (d : DevK)
  deriving DecidableEq, Repr

/-- An outstanding variable-latency operation, in issue order in the state (R137, R219). `done`: it has completed,
and its counter waits for earlier ones; `fault`: it has stopped at a deferred fault (R402); `tags`: the tags of its fabric
reads still awaited; `got`: the bytes of peer modules that have arrived for it, by key (R373); `core`, `slot`, `grp`, `at_`: the
core, slot, GRPID and cycle of its issue (R166, R372); `skip`: what a skip of a
stopped traversal lands (R404); `raised`: its deferred fault has been raised against its group (R402). -/
structure Op where
  id : Nat
  ag : Agent
  wg : Nat
  lnch : Nat
  k : OpK
  pc : DWord := 0
  opc : Nat := 0
  idx : Nat := 0
  par0 : Word := 0
  par1 : Word := 0
  split : Nat := 0
  tok : Option Nat := none
  cnt : Option Nat := none
  wrs : List Wr := []
  flags : BitVec 5 := 0
  bar : Option Nat := none
  due : Nat := 0
  done : Bool := false
  fault : Option Trap := none
  tags : List Nat := []
  got : Tab Byte := []
  core : Nat := 0
  slot : Nat := 0
  grp : Nat := 0
  at_ : Nat := 0
  skip : List Wr := []
  raised : Bool := false
  /-- Whether it acquires (R59). -/
  acq : Bool := false
  /-- How it is ordered and its scope (R59), the releases that its write carries, and of a load whether the write that it read is
  settled, by a release that it joined or by the order of R64 (R63). -/
  ord : Nat := 0
  scp : Nat := 0
  rels : List Rel := []
  settled : Bool := false
  /-- Its agent, with the epoch and the fences, and the writes made before it (R63). -/
  me : Nat := 0
  epoch : Nat := 0
  fences : Nat := 0
  histAt : Nat := 0
  /-- The operation of the device that it completes after: the write of an ordered-atomic passage (R218, R229). -/
  waits : Option Nat := none
  deriving DecidableEq, Repr

/-- A command queue (R365, R372, R392). `started`: commands consumed and not complete; `serial`: the serial counter
of R393. -/
structure Queue where
  loc : Nat := 0
  base : Nat := 0
  size : Nat := 6
  en : Bool := false
  pri : Nat := 0
  irq : Bool := false
  tail : Word := 0
  head : Word := 0
  ctx : DWord := 0
  err : BitVec 24 := 0
  trLoc : Nat := 0
  trBase : Nat := 0
  trSize : Nat := 0
  trIrq : Bool := false
  trTail : Word := 0
  trHead : Word := 0
  serial : Word := 1
  logTail : Word := 0
  logHead : Word := 0
  started : List Nat := []
  lastTurn : Nat := 0
  deriving DecidableEq, Repr

/-- What a started command still has to do before its completion write (R366). -/
inductive CmdK where
  | launch (lnch : Nat)
  | graph (g : Nat)
  | frame (words : List DWord)
  | waitv (addr val : DWord)
  | region
  | inval (asid base size : Nat)
  | preempt (save : Nat)
  | resume (tier area : Nat)
  | plain
  deriving DecidableEq, Repr

/-- A command consumed and not complete (R366), with its first slot. -/
structure Cmd where
  slot : Nat
  q : Nat
  k : CmdK
  ctx : Ctx
  irq : Bool
  caddr : DWord
  cval : DWord
  ready : Bool := false
  deriving DecidableEq, Repr

/-- A task record waiting in a node's queue, with the key of R323 and what happens before its pop (R62). -/
structure TaskRec where
  words : List Word
  key : List Nat := []
  clk : Clk := []
  deriving DecidableEq, Repr

/-- A node of a graph replay (R318 to R321, R416): its entry, its launch when it runs, its queue, the pool slots in use,
and its kernel descriptor; `l`: a task node's workgroup size. -/
structure Node where
  task : Bool
  body : List Word
  rw : Nat := 0
  cap : Nat := 0
  maxwg : Nat := 0
  param : DWord := 0
  psize : Nat := 0
  lnch : Option Nat := none
  started : Bool := false
  complete : Bool := false
  poisoned : Bool := false
  /-- Its poison has passed along its overlap edges (R416). -/
  told : Bool := false
  skipped : Bool := false
  closed : Bool := false
  queue : List TaskRec := []
  used : Nat := 0
  k : Kernel := {}
  l : Nat := 0
  deriving DecidableEq, Repr

/-- A graph replay (R318, R325, R370): the object, its nodes, its edges (from, to, kind). -/
structure Graph where
  obj : DWord
  q : Nat
  ctx : Ctx
  nodes : List Node
  edges : List (Nat × Nat × Nat)
  cmd : Nat
  waiting : Bool := false
  order : Nat := 0
  copyAt : Nat := 0
  deriving DecidableEq, Repr

/-- A slice (R374, R338): its cores, memory ranges in GiB, world, the boundary and the bridle's settings, the marked
core, the scene generation (R118). -/
structure Slice where
  core0 : Nat
  cores : Nat
  hbm0 : Nat
  hbm : Nat
  tier0 : Nat
  tier : Nat
  de : Nat := 0
  ve : Nat := 0
  ns : Bool := false
  bound : Nat := 0
  minG : Nat := 0
  minC : Nat := 0
  fix : Bool := false
  target : Nat := 0
  marked : Option Nat := none
  lastEval : Nat := 0
  gen : Word := 0
  /-- The world bits of its display engine and encoder (R376). -/
  deNs : Bool := false
  veNs : Bool := false
  deriving DecidableEq, Repr

/-- A DRAWV pass (R295, R297, R300): its operation, view record words, the dies that have still to serve it, the
samples done on each die (the checkpoints), the status bits, and whether it is checkpointed. -/
structure Pass where
  op : Nat
  slice : Nat
  view : List Word
  gen : Word
  dies : List Nat
  pos : Tab Nat := []
  status : Word := 0
  stopped : Bool := false
  deriving DecidableEq, Repr

/-- A call of one member of a collective (R272, R424). -/
structure Member where
  op : Nat
  rank : Nat
  deriving DecidableEq, Repr

/-- A collective matched by (COMM, SEQ) (R424): the communicator's table and the values the first member fixed (MIN,
red, TY, COUNT, ROOT), the members that have issued, the data by rank (of other modules as it arrives, of this one
as its members are read), and the ranks that have completed; `failed`: the ranks in `done` have been failed, and each
later one will be. -/
structure Collective where
  comm : Nat
  seq : Nat
  table : List (Nat × Nat)
  key : List Nat
  members : List Member := []
  failed : Bool := false
  data : Tab (List Byte) := []
  done : List Nat := []
  /-- The values of members of other modules, by rank (R424). -/
  keys : Tab (List Nat) := []
  /-- The poisoned bytes of the data, by rank and place (R412). -/
  bad : List (Nat × Nat) := []
  deriving DecidableEq, Repr

/-- A pre-emption (R339 to R345): its cores, the area, and how far it has come. `recs`: the record offsets written,
with the workgroup each holds; `histAt`: the writes made when it was complete. -/
structure Save where
  cores : List Nat
  kind : Nat
  target : Nat
  tier : Nat
  area : Nat
  size : Nat
  cmds : List (Nat × Nat × Nat × Nat)
  slice : Nat := 0
  halting : Bool := true
  done : Bool := false
  ovf : Bool := false
  recs : List (Nat × Nat) := []
  resuming : Option Nat := none
  saved : List (Nat × Group) := []
  mxs : List (Nat × Matrix) := []
  histAt : Nat := 0
  deriving DecidableEq, Repr

/-- An access that a tag records (R406): the party and its region, whether it was marked, the agent and its epoch. A party is a
group, a spool processor or an engine operation. -/
structure TagAcc where
  party : Nat
  region : Nat
  marked : Bool
  agent : Nat := 0
  epoch : Nat := 0
  deriving DecidableEq, Repr

/-- The race tag of a byte (R406): the last writer, and the readers; a summary of one reader and the two-or-more bit is read
off the open ones. -/
structure Tag where
  writer : Option TagAcc := none
  readers : List TagAcc := []
  deriving DecidableEq, Repr

/-- A translation held by a die's TLB (R57): the leaf of a 64 KiB page for a context's ASID. -/
structure Tlb where
  asid : Nat
  page : Nat
  leaf : DWord
  leafAt : Nat
  deriving DecidableEq, Repr

/-- A request of an operation to a peer module (R373): its tag, the operation, its first key, how many bytes, the virtual address,
and the SEQ of its flit. -/
structure FarReq where
  tag : Nat
  op : Nat
  key : Nat
  n : Nat
  va : DWord
  seq : Nat
  deriving DecidableEq, Repr

/-- A fabric port (R373, R425, R428). `unacked`: the flits kept, oldest first, of which `sent` have left; `out`: what the port
has put on its link, oldest first; `resent`: how often each flit kept has been sent again; `ns`: its world bit (R376);
`kept`: the requests whose flits are not acknowledged; `waiting`: the reads and atomics not answered. -/
structure Port where
  st : Nat := 0
  retrain : Nat := 0
  replay : Nat := 0
  sendSeq : Nat := 0
  recvSeq : Nat := 0
  unacked : List (List Byte) := []
  sent : Nat := 0
  out : List (List Byte) := []
  kept : List FarReq := []
  resent : List Nat := []
  ns : Bool := false
  fails : Nat := 0
  lastAck : Nat := 0
  waiting : List FarReq := []
  deriving DecidableEq, Repr

/-- A die-to-die link (R427, R428). -/
structure DLink where
  st : Nat := 1
  retrain : Nat := 0
  replay : Nat := 0
  fails : Nat := 0
  deriving DecidableEq, Repr

/-- What has been settled in this cycle, so that no earlier event of the cycle may follow (R237, R316): a BARI has written a
barrier register; a BARW that returned has read one; a WAITL or SLNEXT has returned in a workgroup. -/
inductive Seal where
  | barSet (wg n : Nat) | barRead (wg n : Nat)
  | stageRead (wg : Nat)
  deriving DecidableEq, Repr

/-- What the machine does next, where the interleaving is given from outside as data (log 2). -/
inductive Act where
  | tick
  | issue (core slot split : Nat)
  | spool (wg : Nat)
  | event (i : Instr)
  deriving DecidableEq, Repr

/-- The whole module. -/
structure State where
  /-- Who performs the instruction being executed. The model's own. -/
  cur : Agent
  /-- The acts to perform next; empty: the device's own schedulers choose. The model's own (log 2). -/
  agenda : List Act
  /-- What this cycle has settled. The model's own (log 77). -/
  sealed : List Seal
  /-- The counter that free values are applied to. The model's own (log 3). -/
  freeCtr : Nat
  /-- The writes made, newest first (R63). The model's own (log 4). -/
  hist : List Wrec
  /-- The number of writes so far. The model's own (log 4). -/
  histLen : Nat
  /-- Happens-before. The model's own (log 4). -/
  hb : Hb
  /-- What the last host read returned. The model's own. -/
  hostData : DWord
  /-- CLOCK (R142, R22). -/
  clock : Nat
  /-- Whether the power controller has lowered the clock (R22). -/
  clockLow : Bool
  /-- Every memory of the module and the host bus, by address key (R46, R52). -/
  mem : Tab Byte
  /-- Poisoned words and units by the key of their first byte (R411, R412). -/
  poison : List Nat
  /-- Poisoned 64-bit words of L2, by the key of their first byte (R411). -/
  l2poison : List Nat
  /-- Corrupted but correctable words and units, until a read or the scrubber finds them (R411). -/
  flaws : List Nat
  /-- Corrupted but correctable 64-bit words of L2, by the key of their first byte (R411). -/
  l2flaws : List Nat
  /-- Translations held, by die (R57). -/
  tlbs : List (Nat × Tlb)
  /-- Race tags by byte key (R406). -/
  tags : Tab Tag
  /-- The open region of each party (R406). -/
  regions : Tab Nat
  cores : Tab CoreSt
  /-- Groups by 48·core + slot. -/
  groups : Tab Group
  wgs : Tab Wg
  launches : Tab Launch
  ops : List Op
  nextId : Nat
  pend : List Pend
  queues : Tab Queue
  cmds : Tab Cmd
  graphs : Tab Graph
  comms : Tab (List (Nat × Nat))
  colls : List Collective
  passes : List Pass
  saves : Tab Save
  slices : List Slice
  regionTab : Tab Region
  regionRight : Bool
  ports : Tab Port
  dlinks : Tab DLink
  peers : List Nat
  moduleNo : Nat
  layout : Nat
  bootState : Nat
  bootReason : BitVec 8
  failCnt : Nat
  skipCheck : Bool
  apBase : Nat
  apTier : Nat
  irqStat : DWord
  errLog : Word
  flashWe : Bool
  flashBusy : List (Nat × Word)
  temp : BitVec 8
  pwr : BitVec 12
  ceCnt : Word
  ceThr : Word
  ueAddr : DWord
  ueStat : Word
  linkDown : Bool
  deriving DecidableEq, Repr

/-- The module right after reset (R363, R365, R377, R392, R413, R428): STATE 0, nothing started, every table at its
reset values (a queue, core or port that is not listed holds the defaults of its structure). Flash, and every
memory, read as 0 (log 5). -/
def State.reset : State where
  cur := .none
  agenda := []
  sealed := []
  freeCtr := 0
  hist := []
  histLen := 0
  hb := {}
  hostData := 0
  clock := 0
  clockLow := false
  mem := []
  poison := []
  l2poison := []
  flaws := []
  l2flaws := []
  tlbs := []
  tags := []
  regions := []
  cores := []
  groups := []
  wgs := []
  launches := []
  ops := []
  nextId := 0
  pend := []
  queues := []
  cmds := []
  graphs := []
  comms := []
  colls := []
  passes := []
  saves := []
  slices := []
  regionTab := []
  regionRight := false
  ports := []
  dlinks := []
  peers := []
  moduleNo := 0
  layout := 0
  bootState := 0
  bootReason := 0
  failCnt := 0
  skipCheck := false
  apBase := 0
  apTier := 0
  irqStat := 0
  errLog := 0
  flashWe := false
  flashBusy := []
  temp := 0
  pwr := 0
  ceCnt := 0
  ceThr := 0
  ueAddr := 0
  ueStat := 0
  linkDown := false

end Sys2Proof.Machine
end

