-- ==== Sys2Proof/Machine/Mem.lean ====
section
/-! DEFINITION. The operations on memory: the one store behind the six paths (R46 to R52), translation (R53 to
R57), the checks of R400, race tags (R406, R407), and the values a load may return (R63, R67, R68). -/

namespace Sys2Proof.Machine

open Sys2Proof

/-- The key of byte `off` of a memory: 0 HBM, 1 second tier, 2 host, 3 peer modules, 4 + c the vault of core c,
148 + c its operand buffer, 292 flash, 293 the log rings. -/
def mKey (code off : Nat) : Nat := code * 2 ^ 64 + off

/-- The memory that a key belongs to. -/
def keyCode (k : Nat) : Nat := k / 2 ^ 64
/-- The offset of a key in its memory. -/
def keyOff (k : Nat) : Nat := k % 2 ^ 64

/-- What a byte that nothing has written reads as (log 5). -/
def unwritten : Byte := 0

/-- Read one byte. -/
def State.byte (s : State) (k : Nat) : Byte := Tab.get unwritten s.mem k

/-- The memory is in its one canonical form. -/
def Memory.wf (m : Tab Byte) : Bool := Tab.wf unwritten m

/-- Write the byte that a record names, keeping the canonical form, and remember the value it replaces (log 4). -/
def State.putByte (s : State) (r : Wrec) (b : Byte) : State :=
  { s with mem := Tab.set unwritten s.mem r.key b, hist := { r with old := s.byte r.key } :: s.hist }

/-- Write one byte on behalf of the device itself, which every agent's accesses follow (log 72). -/
def State.setByte (s : State) (k : Nat) (b : Byte) : State :=
  { s with
    mem := Tab.set unwritten s.mem k b
    hist := { key := k, seq := s.histLen, old := s.byte k } :: s.hist
    histLen := s.histLen + 1 }

/-- The size of the unit that a code word protects (R411). -/
def unitSize (k : Nat) : Nat := if keyCode k < 4 then 64 else 8
/-- The first key of that unit. -/
def unitOf (k : Nat) : Nat := k / unitSize k * unitSize k

/-- A unit or word that is written whole loses its poison (R412). -/
def State.cleanse (s : State) (ks : List Nat) : State :=
  { s with
    poison := s.poison.filter fun u => !((List.range (unitSize u)).all fun i => decide (u + i ∈ ks))
    l2poison := s.l2poison.filter fun u => !((List.range 8).all fun i => decide (u + i ∈ ks)) }

/-- Write bytes on behalf of the device itself. -/
def State.writeBytes (s : State) (kbs : List (Nat × Byte)) : State :=
  (kbs.foldl (fun s kb => s.setByte kb.1 kb.2) s).cleanse (kbs.map (·.1))

/-- Whether a byte's unit, or its word of L2, is poisoned. -/
def State.poisoned (s : State) (k : Nat) : Bool := decide (unitOf k ∈ s.poison) || decide (k / 8 * 8 ∈ s.l2poison)

/-- `n` bytes from a key on as a number, least significant first (R3). -/
def State.readNat (s : State) (k : Nat) : Nat → Nat
  | 0 => 0
  | n + 1 => (s.byte k).toNat + 256 * s.readNat (k + 1) n

/-- Bytes as a number, least significant first. -/
def natOfBytes : List Byte → Nat
  | [] => 0
  | b :: bs => b.toNat + 256 * natOfBytes bs

/-- The low `n` bytes of a number, least significant first. -/
def bytesOfNat (n x : Nat) : List Byte := (List.range n).map fun i => BitVec.ofNat 8 (x / 256 ^ i)

/-- Write `n` bytes of a number from a key on. -/
def State.writeNat (s : State) (k n x : Nat) : State :=
  s.writeBytes ((List.range n).zip (bytesOfNat n x) |>.map fun ib => (k + ib.1, ib.2))

/-- The die of a core (R15). -/
def dieOf (core : Nat) : Nat := core / 48

/-- The record of a key in the groups' table. -/
def gKey (core slot : Nat) : Nat := core * 48 + slot

/-- A core. -/
def State.core (s : State) (c : Nat) : CoreSt := Tab.get {} s.cores c
/-- A queue. -/
def State.queue (s : State) (q : Nat) : Queue := Tab.get {} s.queues q
/-- A port. -/
def State.port (s : State) (p : Nat) : Port := Tab.get {} s.ports p
/-- A die link. -/
def State.dlink (s : State) (k : Nat) : DLink := Tab.get {} s.dlinks k
/-- The group in a slot. -/
def State.group? (s : State) (k : Nat) : Option Group := Tab.find? s.groups k
/-- A workgroup. -/
def State.wg? (s : State) (w : Nat) : Option Wg := Tab.find? s.wgs w
/-- A launch. -/
def State.launch? (s : State) (l : Nat) : Option Launch := Tab.find? s.launches l
/-- A slice. -/
def State.slice (s : State) (n : Nat) : Slice := s.slices.getD n { core0 := 0, cores := 144, hbm0 := 0, hbm := 512, tier0 := 0, tier := 1024 }

/-- Store a core. -/
def State.setCore (s : State) (c : Nat) (x : CoreSt) : State := { s with cores := Tab.put s.cores c x }
/-- Store a queue. -/
def State.setQueue (s : State) (q : Nat) (x : Queue) : State := { s with queues := Tab.put s.queues q x }
/-- Store a port. -/
def State.setPort (s : State) (p : Nat) (x : Port) : State := { s with ports := Tab.put s.ports p x }
/-- Store a die link. -/
def State.setDlink (s : State) (k : Nat) (x : DLink) : State := { s with dlinks := Tab.put s.dlinks k x }
/-- Store a group. -/
def State.setGroup (s : State) (k : Nat) (x : Group) : State := { s with groups := Tab.put s.groups k x }
/-- Change a group. -/
def State.modGroup (s : State) (k : Nat) (f : Group → Group) : State := { s with groups := Tab.modify s.groups k f }
/-- Change a workgroup. -/
def State.modWg (s : State) (w : Nat) (f : Wg → Wg) : State := { s with wgs := Tab.modify s.wgs w f }
/-- Change a launch. -/
def State.modLaunch (s : State) (l : Nat) (f : Launch → Launch) : State := { s with launches := Tab.modify s.launches l f }
/-- Change a slice. -/
def State.modSlice (s : State) (n : Nat) (f : Slice → Slice) : State := { s with slices := s.slices.modify n f }
/-- Use one free value: the number it is applied to, and the state that has used it. -/
def State.free (s : State) : Nat × State := (s.freeCtr, { s with freeCtr := s.freeCtr + 1 })

/-! ### Translation -/

/-- The bit of a number. -/
def bit (x i : Nat) : Bool := x / 2 ^ i % 2 = 1
/-- The field of `n` bits at bit `i` of a number. -/
def bits (x i n : Nat) : Nat := x / 2 ^ i % 2 ^ n

/-- The memory code of a page-table tier. -/
def tierKey (tier off : Nat) : Nat := mKey tier off

/-- Whether a table entry that points to a next table is well formed (R54). -/
def tableOk (e : Nat) : Bool := bits e 2 11 = 0 && bits e 48 8 = 0
/-- Whether a leaf at a level is well formed (R54, R55): LF only at L2 and L3, SZ 2 at L2, 0 or 1 at L3. -/
def leafOk (lev e : Nat) : Bool :=
  bits e 12 4 = 0 && bits e 48 8 = 0 && ((lev == 3 && bits e 2 2 < 2) || (lev == 2 && bits e 2 2 = 2))
/-- The bits of a group of entries that must agree (R55): V, LF, SZ, RO, NX, SEC, CHK, TIER and the page's ADDR. -/
def groupKey (e : Nat) : Nat × Nat :=
  (bits e 0 10, if bits e 2 2 = 1 then bits e 21 27 else bits e 30 18)

/-- The group of entries around a large leaf agrees (R55). -/
def groupOk (s : State) (tier tbl idx e : Nat) : Bool :=
  let cnt := if bits e 2 2 = 1 then 32 else 16
  let first := idx - idx % cnt
  bits e 2 2 = 0 || (List.range cnt).all fun j =>
    let f := s.readNat (tierKey tier (tbl + 8 * (first + j))) 8
    groupKey f == groupKey e && bits f 12 4 = 0 && bits f 48 8 = 0

/-- The bytes of the physical space of a tier: HBM, the second tier, host memory, peer modules (R54, R373). -/
def tierBytes (tier : Nat) : Nat :=
  match tier with
  | 0 => 2 ^ 39
  | 1 => 2 ^ 40
  | 3 => 2 ^ 47
  | _ => 2 ^ 48

/-- Walk the tables for a virtual offset (R53 to R55): a leaf and the key it stands at, or the cause code of
the fault in the order the walk finds them. `levs` lists the levels still to visit. The manual names no fault for a table that
lies beyond the space of its tier, nor for a poisoned entry: the walk gives 0x0046 and 0x004E there (log 71, DESIGN CHOICE). -/
def walkFrom (s : State) (tier va : Nat) : List Nat → Nat → Except Nat (Nat × Nat)
  | [], _ => .error 0x45
  | lev :: rest, tbl =>
    let idx := bits va (46 - 10 * lev) 10
    let loc := tierKey tier (tbl + 8 * idx)
    let e := s.readNat loc 8
    if tierBytes tier < tbl + 8 * idx + 8 then .error 0x46
    else if s.poisoned loc then .error 0x4E
    else if !bit e 0 then .error 0x44
    else if bit e 1 then
      if leafOk lev e && groupOk s tier tbl idx e then .ok (e, loc) else .error 0x45
    else if lev == 3 || !tableOk e then .error 0x45
    else walkFrom s tier va rest (bits e 13 35 * 2 ^ 13)

/-- The poisoned table entry at which a walk ends with 0x004E. -/
def walkPoison (s : State) (tier va : Nat) : List Nat → Nat → Option Nat
  | [], _ => none
  | lev :: rest, tbl =>
    let loc := tierKey tier (tbl + 8 * bits va (46 - 10 * lev) 10)
    let e := s.readNat loc 8
    if s.poisoned loc then some loc
    else if !bit e 0 || bit e 1 then none
    else walkPoison s tier va rest (bits e 13 35 * 2 ^ 13)

/-- The translation of a page that a die's TLB holds. -/
def tlbFind (s : State) (die asid page : Nat) : Option Tlb :=
  (s.tlbs.find? fun e => e.1 == die && e.2.asid == asid && e.2.page == page).map (·.2)

/-- The leaf for a virtual offset: from the die's TLB, or by a walk (R57). -/
def leafOf (s : State) (die : Nat) (ctx : Ctx) (va : Nat) : Except Nat (Nat × Nat) :=
  match tlbFind s die ctx.asid (va / 2 ^ 16) with
  | some e => .ok (e.leaf.toNat, e.leafAt)
  | none => walkFrom s ctx.ttier va [0, 1, 2, 3] (ctx.root / 2 ^ 13 * 2 ^ 13)

/-- The physical address of a virtual offset under a leaf (R54, R55). -/
def physOf (leaf va : Nat) : Nat :=
  match bits leaf 2 2 with
  | 0 => bits leaf 16 32 * 2 ^ 16 + va % 2 ^ 16
  | 1 => bits leaf 21 27 * 2 ^ 21 + va % 2 ^ 21
  | _ => bits leaf 30 18 * 2 ^ 30 + va % 2 ^ 30

/-- The tier a leaf names. -/
def tierOf (leaf : Nat) : Nat := bits leaf 8 2

/-- Whether a physical address lies beyond the space of its tier (R54, R373). -/
def beyond (tier pa : Nat) : Bool := decide (tierBytes tier ≤ pa)

/-- Whether a physical byte lies in a secure region (R376), as each access checks (R409). -/
def secureAt (s : State) (tier pa : Nat) : Bool :=
  s.regionTab.any fun e =>
    e.2.v && e.2.sec && e.2.tier == tier && e.2.base ≤ pa / 2 ^ 16 && pa / 2 ^ 16 ≤ e.2.limit

/-- The enabled port that reaches a module, the lowest-numbered (R373); a port that is down reaches none (R426). -/
def portTo (s : State) (m : Nat) : Option Nat :=
  (List.range 18).find? fun p =>
    ((s.port p).st == 1 || (s.port p).st == 2) && s.peers.getD p 256 == m

/-- Whether an access to a physical byte leaves what the agent's slice may reach (R374, R373). -/
def isolated (s : State) (slice tier pa : Nat) : Bool :=
  let sl := s.slice slice
  (tier == 0 && !(sl.hbm0 * 2 ^ 30 ≤ pa && pa < (sl.hbm0 + sl.hbm) * 2 ^ 30)) ||
  (tier == 1 && !(sl.tier0 * 2 ^ 30 ≤ pa && pa < (sl.tier0 + sl.tier) * 2 ^ 30)) ||
  (tier == 3 && (portTo s (bits pa 39 8)).isNone)

/-- The kinds of access that R56 and R400 tell apart. -/
inductive AccK where
  | load | store | atomic | fetch | engRead | engWrite | table
  deriving DecidableEq, Repr

/-- Whether an access writes. -/
def AccK.writes : AccK → Bool
  | .store | .atomic | .engWrite => true
  | _ => false

/-- Whether an engine makes the access. -/
def AccK.engine : AccK → Bool
  | .engRead | .engWrite => true
  | _ => false

/-- Who makes an access: the context, the core (`none`: the task unit or a command), the workgroup, the window, the
operand-buffer ranges held, the per-lane region (PBASE and P), the party of R406, and the operation whose
access it is, if one is; the agent of R66 (0: the device itself), its place, its launch by key plus one, and how the access is ordered (R59); the bytes of peer
modules that have arrived for it (R373), and whether a plain read asks for those that have not; whether its launch is deterministic
(R337); whether it is a bulk copy, which may read a byte that it has written as it was before (R269); the slice of an NSWAP, plus
one; and of a traversal's header read the slice, plus one, with the writes made when the traversal sampled its generation (R118). -/
structure Who where
  ctx : Ctx
  core : Option Nat := none
  vwbase : Nat := 0
  vwsize : Nat := 0
  obs : List (Nat × Nat) := []
  pbase : Option (Nat × Nat) := none
  party : Nat := 0
  histStart : Nat := 0
  op : Option Nat := none
  me : Nat := 0
  place : Place := {}
  lnch : Nat := 0
  acq : Bool := false
  rel : Bool := false
  ar : Bool := false
  atom : Bool := false
  scp : Nat := 0
  got : Tab Byte := []
  asks : Bool := false
  det : Bool := false
  copy : Bool := false
  nswap : Nat := 0
  sampled : Option (Nat × Nat) := none
  deriving DecidableEq, Repr

/-- The die an agent's translations are held on; the task unit's stand on die 0. -/
def Who.die (w : Who) : Nat := dieOf (w.core.getD 0)

/-- A page that an access used: its virtual page number, its leaf and where the leaf stands. -/
abbrev Touch := Nat × Nat × Nat

/-- The check of R400 that a fault belongs to (1 path, 2 alignment, 3 translation, 4 to 7 rights, 8 race) and the cause. -/
abbrev FaultAt := Nat × Nat

/-- Translate and check one byte of a global access (R400 checks 3 and 4). -/
def globalByte (s : State) (w : Who) (k : AccK) (sel va : Nat) : Except FaultAt (Hit × Touch) :=
  match leafOf s w.die w.ctx va with
  | .error c => .error (3, c)
  | .ok (e, loc) =>
    let pa := physOf e va
    let t := tierOf e
    if beyond t pa then .error (3, 0x46)
    else if k.writes && bit e 4 then .error (4, 0x47)
    else if k == .fetch && bit e 5 then .error (5, 0x48)
    else if (bit e 6 || secureAt s t pa) && w.ctx.ns then .error (6, 0x49)
    else if isolated s w.ctx.slice t pa then .error (7, 0x4A)
    else
      let alias_ := sel == 1 || k == .table || k == .fetch
      .ok ({ key := mKey t pa, chk := bit e 7 && !alias_, tracked := bit e 7 && !alias_, alias0 := alias_, path := sel }, (va / 2 ^ 16, e, loc))

/-- All results, or the first error. -/
def collect {ε α : Type} : List (Except ε α) → Except ε (List α)
  | [] => .ok []
  | .error e :: _ => .error e
  | .ok a :: xs => match collect xs with
    | .error e => .error e
    | .ok as => .ok (a :: as)

/-- Of several errors the one of the lowest check, the first on equal. -/
def worst : List (Except FaultAt α) → Option FaultAt
  | [] => none
  | .ok _ :: xs => worst xs
  | .error e :: xs => match worst xs with
    | none => some e
    | some e' => some (if e'.1 < e.1 then e' else e)

/-- A vault byte of this core's window or of any vault, or an operand-buffer byte. -/
def localHit (path code off : Nat) : Hit := { key := mKey code off, tracked := false, path := path }

/-- Whether every byte of a range lies in a range that is held (R49). -/
def heldAll (obs : List (Nat × Nat)) (off n : Nat) : Bool :=
  (List.range n).all fun i => obs.any fun r => r.1 ≤ off + i && off + i < r.1 + r.2

/-- The path that an address selects (R46). -/
def pathSel (a : DWord) : Nat := bits a.toNat 56 8

/-- Resolve an access of `n` bytes at a 64-bit address by one lane on a path that admits it (R46 to R51, R400 checks 1 to 4). `al`:
the alignment required. -/
def resolveOn (s : State) (w : Who) (k : AccK) (lane : Option Nat) (addr : DWord) (n al : Nat) :
    Except FaultAt (List Hit × List Touch) :=
  let sel := pathSel addr
  let off := bits addr.toNat 0 56
  let aligned := addr.toNat % al = 0
  let global (vas : List Nat) : Except FaultAt (List Hit × List Touch) :=
    if !aligned then .error (2, 0x42)
    else
      let rs := vas.map (globalByte s w k sel)
      match worst rs with
      | some e => .error e
      | none => match collect rs with
        | .error e => .error e
        | .ok xs => .ok (xs.map (·.1), (xs.map (·.2)).eraseDups)
  match sel with
  | 0 | 1 =>
    if sel == 1 && k.writes then .error (1, 0x41)
    else if 2 ^ 56 < off + n then .error (1, 0x40)
    else global ((List.range n).map (off + ·))
  | 8 =>
    if k == .table then .error (1, 0x41)
    else if 2 ^ 23 ≤ off || w.vwsize < off + n then .error (1, 0x40)
    else if !aligned then .error (2, 0x42)
    else .ok ((List.range n).map fun i => localHit 8 (4 + w.core.getD 0) (w.vwbase + off + i), [])
  | 9 =>
    let die := bits off 54 2
    let c := bits off 48 6
    let o := bits off 0 23
    let sl := s.slice w.ctx.slice
    let core := 48 * die + c
    if k == .table then .error (1, 0x41)
    else if bits off 23 25 != 0 || die == 3 || 48 ≤ c || 2 ^ 23 < o + n then .error (1, 0x40)
    else if !aligned then .error (2, 0x42)
    else if !(sl.core0 ≤ core && core < sl.core0 + sl.cores) then .error (7, 0x4A)
    else .ok ((List.range n).map fun i => localHit 9 (4 + core) (o + i), [])
  | 12 =>
    if k == .table || k == .atomic then .error (1, 0x41)
    else if 2 ^ 20 < off + n then .error (1, 0x40)
    else if !heldAll w.obs off n then .error (1, 0x43)
    else if !aligned then .error (2, 0x42)
    else .ok ((List.range n).map fun i => localHit 12 (148 + w.core.getD 0) (off + i), [])
  | 14 =>
    match w.pbase, lane with
    | some (pb, p), some l =>
      if k == .table then .error (1, 0x41)
      else if p < off + n then .error (1, 0x40)
      else global ((List.range n).map fun i =>
        let o := off + i
        (pb + o / 4 * 4 * W + 4 * l + o % 4) % 2 ^ 56)
    | some (_, p), none => if p < off + n then .error (1, 0x40) else .error (1, 0x41)
    | _, _ => .error (1, 0x41)
  | _ => .error (1, 0x40)

/-- Resolve an access (R400 checks 1 to 4). A fetch on another path than 0x00 and 0x01 passes the checks of its address first, and
fails that of the fetch right (R126, R399). -/
def resolve (s : State) (w : Who) (k : AccK) (lane : Option Nat) (addr : DWord) (n al : Nat) :
    Except FaultAt (List Hit × List Touch) :=
  if k == .fetch && 1 < pathSel addr then
    match resolveOn s w k lane addr n al with
    | .error e => if e.1 < 5 && e.2 != 0x41 then .error e else .error (5, 0x48)
    | .ok _ => .error (5, 0x48)
  else resolveOn s w k lane addr n al

/-- The walker sets AC, and DY for a write, in the entry it used (R55, R57), and the die's TLB holds the page. -/
def touch (s : State) (w : Who) (write : Bool) (t : Touch) : State :=
  let e := t.2.1
  let want : Nat := if write then 0xC else 0x4
  let b := s.byte (t.2.2 + 1)
  let b' : Byte := b ||| BitVec.ofNat 8 want
  let e' := e ||| (want * 256)
  let held := (tlbFind s w.die w.ctx.asid t.1).isSome
  if held && e' == e then s
  else
    { s with
      mem := Tab.set unwritten s.mem (t.2.2 + 1) b'
      tlbs := (w.die, ⟨w.ctx.asid, t.1, BitVec.ofNat 64 e', t.2.2⟩) ::
        s.tlbs.filter fun x => !(x.1 == w.die && x.2.asid == w.ctx.asid && x.2.page == t.1) }

/-- Touch every page an access used. -/
def touchAll (s : State) (w : Who) (write : Bool) (ts : List Touch) : State :=
  ts.foldl (fun s t => touch s w write t) s

/-! ### Regions (R406) -/

/-- The open region of a party. -/
def State.region (s : State) (party : Nat) : Nat := Tab.get 0 s.regions party

/-- A releasing event of a party: its region ends and the next opens (R406). -/
def State.release (s : State) (party : Nat) : State :=
  { s with regions := Tab.put s.regions party (s.region party + 1) }

/-! ### Happens-before (R61 to R66) -/

/-- The number of an agent: lane set k of a group of a workgroup (R60 orders the lanes of one split among themselves). -/
def laneMe (wid grp k : Nat) : Nat := 4 * ((wid * 32 + grp) * 4 + k) + 1
/-- The number of a workgroup's spool processor. -/
def spoolMe (wid : Nat) : Nat := 4 * wid + 2
/-- The number of an engine operation. -/
def opMe (id : Nat) : Nat := 4 * id + 3
/-- The number of the host (R66). -/
def hostMe : Nat := 4
/-- The number of a peer module's agents; the model tells no two agents of one module apart (log 72). -/
def peerMe (m : Nat) : Nat := 4 * (m + 2)
/-- The number under which the passages of an ordered-atomic site are made (R229). -/
def siteMe (lnch site : Nat) : Nat := 4 * (1000 + 8 * lnch + site)

/-- The place of a group on a die. -/
def groupPlace (wid grp core : Nat) : Place := { grp := wid * 32 + grp + 1, wg := wid + 1, die := dieOf core + 1 }
/-- The place of a workgroup's copies and matrix operations, and of its spool processor. -/
def wgPlace (wid core : Nat) : Place := { wg := wid + 1, die := dieOf core + 1 }
/-- The place of a peer module's agents. -/
def peerPlace (m : Nat) : Place := { die := 100 + m }
/-- The place of the host. -/
def hostPlace : Place := { die := 1000 }

/-- Whether two agents are in one domain at a scope (R58). -/
def inScope (scp : Nat) (a b : Place) : Bool :=
  match scp with
  | 0 => a.grp == b.grp && a.grp != 0
  | 1 => a.wg == b.wg && a.wg != 0
  | 2 => a.die == b.die && a.die != 0
  | 3 => a.die < 100 && b.die < 100
  | 4 => a.die < 1000 && b.die < 1000
  | _ => true

/-- The union of two pasts. -/
def Clk.join (a b : Clk) : Clk := b.foldl (fun c e => Tab.put c e.1 (max (Tab.get 0 c e.1) e.2)) a

/-- Where an agent stands. -/
def State.agHb (s : State) (me : Nat) : AgHb := Tab.get {} s.hb.agents me
/-- Store where an agent stands; the device itself stands nowhere. -/
def State.setHb (s : State) (me : Nat) (a : AgHb) : State :=
  if me = 0 then s else { s with hb := { s.hb with agents := Tab.put s.hb.agents me a } }
/-- What happens before the end of an agent's present epoch: what a release by it now orders before itself (R61). -/
def State.relClk (s : State) (me : Nat) : Clk :=
  if me = 0 then [] else Clk.join (s.agHb me).clk [(me, (s.agHb me).epoch + 1)]
/-- An agent's next epoch begins. -/
def State.bump (s : State) (me : Nat) : State := s.setHb me { s.agHb me with epoch := (s.agHb me).epoch + 1 }
/-- An agent has released: its next epoch begins (R61, R62). -/
def State.released (s : State) (me : Nat) : State :=
  s.setHb me { s.agHb me with epoch := (s.agHb me).epoch + 1, released := true }
/-- An acquire by an agent: a past happens before its later accesses (R61, R62); after a release it orders the vault paths as
a FENCE does (R69). -/
def State.learn (s : State) (me : Nat) (c : Clk) : State :=
  let a := s.agHb me
  s.setHb me { a with clk := a.clk.join c, fences := if a.released then a.fences + 1 else a.fences, released := false }

/-- Where a past orders accesses to some bytes alone (R274), it stands under this number: collective `c`, agent `me`. -/
def bufKey (c me : Nat) : Nat := (c + 1) * 2 ^ 64 + me

/-- A past that counts for the buffers of collective `c` alone. -/
def Clk.only (x : Clk) (c : Nat) : Clk := (x.filter fun e => e.1 < 2 ^ 64).map fun e => (bufKey c e.1, e.2)

/-- What a carrier holds, oldest first. -/
def State.chan (s : State) (c : Chan) : List Clk := ((s.hb.chans.find? fun e => e.1 == c).map (·.2)).getD []
/-- Store what a carrier holds. -/
def State.setChan (s : State) (c : Chan) (xs : List Clk) : State :=
  let rest := s.hb.chans.filter fun e => e.1 != c
  { s with hb := { s.hb with chans := if xs.isEmpty then rest else rest ++ [(c, xs)] } }
/-- The past that a carrier has gathered. -/
def State.gathered (s : State) (c : Chan) : Clk := (s.chan c).foldl Clk.join []
/-- Add a past to what a carrier has gathered. -/
def State.post (s : State) (c : Chan) (x : Clk) : State :=
  if x.isEmpty then s else s.setChan c [(s.gathered c).join x]
/-- Put a past behind those that a carrier holds in order. -/
def State.push (s : State) (c : Chan) (x : Clk) : State := s.setChan c (s.chan c ++ [x])
/-- An agent acquires what a carrier has gathered. -/
def State.hear (s : State) (me : Nat) (c : Chan) : State := s.learn me (s.gathered c)
/-- An agent acquires the oldest past that a carrier holds, which leaves it. -/
def State.pull (s : State) (me : Nat) (c : Chan) : State := (s.learn me ((s.chan c).headD [])).setChan c (s.chan c).tail

/-! ### Race detection (R406, R407) -/

/-- Whether a recorded access is by another party whose region is open, and does not happen before an access by `w`: an engine
follows what its issuer did before it (R70), and detection is sound (R408). -/
def openOther (s : State) (w : Who) (x : TagAcc) : Bool :=
  x.party != w.party && s.region x.party == x.region && !decide (x.epoch < Tab.get 0 (s.agHb w.me).clk x.agent)

/-- Whether an access to a byte races with what its tag records (R407, R408). -/
def races (s : State) (w : Who) (write marked : Bool) (k : Nat) : Bool :=
  let t := Tab.get ({} : Tag) s.tags k
  let open_ := t.readers.filter (openOther s w)
  (match t.writer with
    | some x => openOther s w x && !(marked && x.marked)
    | none => false) ||
  (write && ((match open_ with
      | x :: _ => !(marked && x.marked)
      | [] => false) ||
    (!marked && 1 < open_.length)))

/-- Record an access in the tag of a byte (R406): a write leaves the readers whose regions are open. -/
def record (s : State) (w : Who) (write marked : Bool) (k : Nat) : State :=
  let t := Tab.get ({} : Tag) s.tags k
  let me : TagAcc := ⟨w.party, s.region w.party, marked, w.me, (s.agHb w.me).epoch⟩
  let open_ := t.readers.filter fun x => s.region x.party == x.region
  let t' : Tag :=
    if write then { writer := some me, readers := open_ }
    else { t with readers := open_.filter (fun x => x.party != w.party) ++ [me] }
  { s with tags := Tab.put s.tags k t' }

/-! ### What a read may return (R63 to R68) -/

/-- Whether the launch of a record (its key plus one) still runs. -/
def State.runs (s : State) (lnch : Nat) : Bool := lnch != 0 && (s.launch? (lnch - 1)).isSome

/-- Whether one of a write and an access reaches private bytes of a running launch, the owner's, on another path: the two are
unordered (R50). -/
def Wrec.clash (s : State) (w : Who) (path : Nat) (r : Wrec) : Bool :=
  if path = 14 then r.path != 14 && w.histStart ≤ r.seq else r.path == 14 && s.runs r.lnch

/-- Whether a past holds a write: as such, or as one to a buffer that a collective names (R274). -/
def State.knows (s : State) (c : Clk) (r : Wrec) : Bool :=
  r.epoch < Tab.get 0 c r.agent ||
  s.hb.bufs.any fun b => r.epoch < Tab.get 0 c (bufKey b.1 r.agent) && b.2.any fun x => x.1 ≤ r.key && r.key < x.1 + x.2

/-- Whether a write happens before an access by an agent on a path (R60 to R62, R69). What the device itself writes does. -/
def Wrec.before (s : State) (w : Who) (path : Nat) (r : Wrec) : Bool :=
  let a := s.agHb w.me
  if r.agent == 0 || w.me == 0 then true
  else if r.clash s w path then false
  else if r.agent == w.me && a.start ≤ r.epoch then r.path == path || r.fences < a.fences
  else s.knows a.clk r

/-- Whether an agent lies in the scope of a release and the releasing agent in that of the acquire (R61), or is reached by a
promotion (R71). -/
def Rel.reaches (r : Rel) (w : Who) : Bool :=
  (inScope r.scp r.place w.place && inScope w.scp w.place r.place) || r.also == some w.place.wg

/-- Whether a write's agent and an access lie in each other's scopes. -/
def Wrec.mutual (w : Who) (r : Wrec) : Bool := inScope w.scp w.place r.place && inScope r.scp r.place w.place

/-- What precedes a marked read in the order of R64: what its agent's .ar fences follow, and for an .ar access what the .ar fences
before it do (log 91, DEDUCED). -/
def State.arPast (s : State) (w : Who) : Clk :=
  let own := (s.agHb w.me).arClk
  if w.ar then (s.hb.arFences.filter (·.reaches w)).foldl (fun c f => c.join f.clk) own else own

/-- Whether no older write may be read past a write by a marked read: it happens before the read (R63); both are .ar accesses, or
atomics, in each other's scopes (R64, R65); atomics of a vault take every scope (R65); it precedes the read in the order of R64; a
workgroup of the reader's deterministic launch has made it, in its turns (R335, R337); or the NSWAP whose generation the reader's
traversal has sampled, or an earlier one, has (R118). -/
def Wrec.stops (s : State) (w : Who) (path : Nat) (r : Wrec) : Bool :=
  r.before s w path || (w.ar && r.ar && r.mutual w) ||
  (w.atom && r.atom && (r.mutual w || path == 8 || path == 9)) || s.knows (s.arPast w) r ||
  (w.det && r.lnch == w.lnch && r.place.wg == w.place.wg) ||
  w.sampled.any fun x => r.nswap == x.1 && r.seq < x.2

/-- The writes of a byte, newest first. -/
def State.writesOf (s : State) (k : Nat) : List Wrec := s.hist.filter fun r => r.key == k

/-- Whether a read of a byte is in a data race: a write by another agent, or on another path, does not happen before it, and
one of the two is unmarked (R66). What a bulk copy has itself written is in R269's hands. -/
def racesNow (s : State) (w : Who) (marked : Bool) (h : Hit) : Bool :=
  w.me != 0 &&
  (s.writesOf h.key).any fun r => !(marked && r.marked) && !r.before s w h.path && !(w.copy && r.agent == w.me)

/-- The value of a byte at a place in the order of writes. -/
def State.byteAt (s : State) (k n : Nat) : Byte :=
  (((s.writesOf k).reverse.find? fun r => n ≤ r.seq).map (·.old)).getD (s.byte k)

/-- Choose one of some places. -/
def pickInstant (s : State) (ns : List Nat) : Nat × State :=
  match ns with
  | [n] => (n, s)
  | _ => (ns.getD (Config.freeNat s.freeCtr % ns.length) 0, s.free.2)

/-- The places in the order of writes at which a byte held the values that a read may return: now, and before each write of it that a
test admits. -/
def placesOf (s : State) (k : Nat) (ok : Wrec → Bool) : List Nat := s.histLen :: ((s.writesOf k).filter ok).map (·.seq)

/-- The places at which an unmarked or racing read of a byte may stand: on path 0x01 any since the launch's start (R68), in a
deterministic launch that start (R337); in a race any (R67); for a bulk copy that has written the byte, any since (R269); else now. -/
def readPlaces (s : State) (w : Who) (racing : Bool) (h : Hit) : List Nat :=
  if h.alias0 then (if w.det then [w.histStart] else placesOf s h.key fun r => w.histStart ≤ r.seq)
  else if racing then placesOf s h.key fun _ => true
  else if w.copy then placesOf s h.key fun r => r.agent == w.me
  else [s.histLen]

/-- Read one byte: its value at one of the places at which the read may stand, that place, and the state. -/
def readHit (s : State) (w : Who) (racing : Bool) (h : Hit) : Byte × Nat × State :=
  let (n, s1) := pickInstant s (readPlaces s w racing h)
  (s.byteAt h.key n, n, s1)

/-- The places in the order of writes at which a marked read of some bytes may stand: now, or before a write past which it may
read (R63). -/
def instants (s : State) (w : Who) (hs : List Hit) : List Nat :=
  let floor (h : Hit) : Nat := (((s.writesOf h.key).find? fun r => r.stops s w h.path).map fun r => r.seq + 1).getD 0
  let lo := hs.foldl (fun n h => max n (floor h)) 0
  s.histLen :: ((s.hist.filter fun r => lo ≤ r.seq && hs.any fun h => h.key == r.key).map (·.seq)).eraseDups

/-- The write that gives a byte its value at a place in the order of writes. -/
def State.writeAt (s : State) (k n : Nat) : Option Wrec := (s.writesOf k).find? fun r => r.seq < n

/-- The releases that it carries. -/
def relsAt (s : State) (k n : Nat) : List Rel := ((s.writeAt k n).map (·.rels)).getD []

/-- The releases of the one write that gives some bytes their values, each at its place; none where several do. -/
def relsOf (s : State) : List (Hit × Nat) → List Rel
  | [] => []
  | (h, n) :: xs =>
    let r := s.writeAt h.key n
    if xs.all fun x => (s.writeAt x.1.key x.2).map (·.seq) == r.map (·.seq) then (r.map (·.rels)).getD [] else []

/-- An acquire comes: after a release it orders the vault paths as a FENCE does (R69). -/
def State.acquires (s : State) (me : Nat) : State :=
  let a := s.agHb me
  if a.released then s.setHb me { a with fences := a.fences + 1, released := false } else s

/-- A marked read has read from a write: an acquire joins what the releases it carries have in their scope; an acquire fence
may do so later, for every lane of the last marked load (R61, R71). -/
def State.readFrom (s : State) (w : Who) (rels : List Rel) : State :=
  let a := s.agHb w.me
  let s1 := s.setHb w.me { a with readRel := a.readRel ++ rels, lastRel := rels }
  if w.acq then (rels.filter (·.reaches w)).foldl (fun (s : State) r => s.learn w.me r.clk) (s1.acquires w.me) else s1

/-- A marked load begins, as the operation to start next: a fence that follows it goes by what it reads (R61). -/
def State.newLoad (s : State) (me : Nat) : State :=
  s.setHb me { s.agHb me with readRel := [], lastRel := [], readOp := s.nextId }

/-- An error of a storage array has been corrected (R413). -/
def State.corrected (s : State) : State :=
  let n := if s.ceCnt = 0xFFFFFFFF then s.ceCnt else s.ceCnt + 1
  { s with ceCnt := n, errLog := if s.ceThr != 0 && n == s.ceThr then s.errLog ||| 32 else s.errLog }

/-- A read corrects the unit it reaches and the word of L2, and the correction is written back (R411). -/
def correctAt (s : State) (k : Nat) : State :=
  let s1 := if unitOf k ∈ s.flaws then { s with flaws := s.flaws.filter (· != unitOf k) }.corrected else s
  if k / 8 * 8 ∈ s1.l2flaws then { s1 with l2flaws := s1.l2flaws.filter (· != k / 8 * 8) }.corrected else s1

/-- Record the reads of some bytes. -/
def recordReads (s : State) (w : Who) (marked : Bool) (hs : List Hit) : State :=
  hs.foldl (fun s h => if h.tracked then record s w false marked h.key else s) s

/-- Read bytes each by itself: with each the place at which it was read. -/
def readEach (s : State) (w : Who) (marked : Bool) : List Hit → List (Byte × Nat) × State
  | [] => ([], s)
  | h :: hs =>
    let (b, n, s1) := readHit s w (racesNow s w marked h) h
    let (bs, s2) := readEach s1 w marked hs
    ((b, n) :: bs, s2)

/-- Whether a physical byte that was translated before may still be accessed: the cause where the region table, the slices or the
worlds now forbid it (R409). -/
def Hit.denied (s : State) (w : Who) (h : Hit) : Option Nat :=
  let code := keyCode h.key
  if code < 4 then
    if w.ctx.ns && secureAt s code (keyOff h.key) then some 0x49
    else if isolated s w.ctx.slice code (keyOff h.key) then some 0x4A else none
  else none

/-- Whether the bytes of an access lie in a peer module. -/
def isFar (hs : List Hit) : Bool := hs.any fun h => keyCode h.key == 3

/-- The bytes read, those of peer modules as they have arrived (R373). -/
def withGot (w : Who) (hs : List Hit) (bs : List Byte) : List Byte :=
  if w.got.isEmpty then bs else (hs.zip bs).map fun x => (Tab.find? w.got x.1.key).getD x.2

/-- Read the bytes of one access: an atomic, and a marked read unless it races, takes its whole location at once (R63, R65, R67). A
marked read that races acquires from the write that gave it every byte; one of a peer module acquires when its value comes. -/
def readHits (s0 : State) (w : Who) (marked : Bool) (hs : List Hit) : List Byte × State :=
  let s := hs.foldl (fun s h => correctAt s h.key) s0
  if marked && (w.atom || hs.all fun h => !h.alias0 && !racesNow s w true h) then
    let (n, s1) := pickInstant s (instants s w hs)
    let s2 := recordReads s1 w marked hs
    (withGot w hs (hs.map fun h => s.byteAt h.key n),
      if isFar hs then s2 else s2.readFrom w (relsOf s (hs.map fun h => (h, n))))
  else
    let (xs, s1) := readEach s w marked hs
    let s2 := recordReads s1 w marked hs
    (withGot w hs (xs.map (·.1)), if marked && !isFar hs then s2.readFrom w (relsOf s (hs.zip (xs.map (·.2)))) else s2)

/-- The releases that a value which a peer module has answered carries: those of the newest recorded write that leaves it, else all
that the peer has done here (R61; log 92, DESIGN CHOICE). -/
def farRels (s : State) (hs : List Hit) (bs : List Byte) : List Rel :=
  let xs := hs.zip bs
  let at_ (n : Nat) : Bool := xs.all fun x => s.byteAt x.1.key n == x.2
  let ns := (s.histLen :: (s.hist.filter fun r => hs.any fun h => h.key == r.key).map (·.seq))
  match hs, ns.find? at_ with
  | [], _ => []
  | h :: _, some n => relsAt s h.key n
  | h :: _, none => [⟨4, peerPlace (bits (keyOff h.key) 39 8), s.relClk (peerMe (bits (keyOff h.key) 39 8)), none⟩]

/-! ### Flits (R373, R425) -/

/-- One bit step of the CRC-64 of ECMA-182. -/
def crcStep (c : DWord) : DWord := if c.getLsbD 63 then (c <<< 1) ^^^ 0x42F0E1EBA9EA3693 else c <<< 1
/-- One byte. -/
def crcByte (c : DWord) (b : Byte) : DWord :=
  (List.range 8).foldl (fun c _ => crcStep c) (c ^^^ (b.setWidth 64 <<< 56))
/-- The CRC-64 of some bytes (R373). -/
def crc64 (bs : List Byte) : DWord := bs.foldl crcByte 0

/-- A flit of 128 bytes (R373). -/
def mkFlit (type src dst seq ns tag : Nat) (payload : List Byte) : List Byte :=
  let hdr := type + src * 2 ^ 4 + dst * 2 ^ 12 + seq % 2 ^ 16 * 2 ^ 20 + payload.length * 2 ^ 36 + ns * 2 ^ 43 + tag % 2 ^ 20 * 2 ^ 44
  let body := bytesOfNat 8 hdr ++ payload ++ List.replicate (112 - payload.length) 0
  body ++ bytesOfNat 8 (crc64 body).toNat

/-- The most flits that a port has on their way without an acknowledgement (R425). -/
def replayDepth : Nat := 512

/-- Put the kept flits that may leave on the link: those within the replay buffer, while the port is up (R425). -/
def Port.transmit (x : Port) : Port :=
  if x.st = 1 then
    { x with out := x.out ++ (x.unacked.take replayDepth).drop x.sent, sent := min replayDepth x.unacked.length }
  else x

/-- Send a flit on a port: it is kept until it is acknowledged, and with it what it asks for an operation (R425). -/
def sendFlit (s : State) (p type dst ns tag : Nat) (req : Option FarReq) (payload : List Byte) : State :=
  let x := s.port p
  s.setPort p (Port.transmit { x with
    unacked := x.unacked ++ [mkFlit type s.moduleNo dst x.sendSeq ns tag payload], sendSeq := (x.sendSeq + 1) % 2 ^ 16
    resent := x.resent ++ [0]
    kept := match req with
      | some r => x.kept ++ [{ r with seq := x.sendSeq }]
      | none => x.kept
    lastAck := if x.unacked.isEmpty then s.clock else x.lastAck })

/-- The peer module of a TIER 3 key (R373). -/
def peerOf (k : Nat) : Nat := bits (keyOff k) 39 8
/-- The offset in the peer's HBM. -/
def peerOff (k : Nat) : Nat := bits (keyOff k) 0 39

/-- The TIER 3 bytes among some keys. -/
def farKeys (ks : List Nat) : List Nat := ks.filter fun k => keyCode k == 3

/-- Cut keyed data into runs of consecutive keys, of at most `n` each. -/
def runsOf {α : Type} (n : Nat) (xs : List (Nat × α)) : List (List (Nat × α)) :=
  xs.foldr (fun kb acc => match acc with
    | (h :: r) :: rs => if h.1 == kb.1 + 1 && r.length + 1 < n then (kb :: h :: r) :: rs else [kb] :: acc
    | _ => [kb] :: acc) []

/-- A tag for a request, and the state that has used it. -/
def State.newTag (s : State) : Nat × State := (s.freeCtr % 2 ^ 20, { s with freeCtr := s.freeCtr + 1 })

/-- Send the remote bytes of a write to their peers: a payload of the offset and the data (log 12). -/
def sendWrites (s : State) (w : Who) (hbs : List (Hit × Byte)) : State :=
  (runsOf 104 ((hbs.filter fun x => keyCode x.1.key == 3).map fun x => (x.1.key, x))).foldl (fun (s : State) run =>
    match run with
    | [] => s
    | (k, h, _) :: _ => match portTo s (peerOf k) with
      | none => s
      | some p =>
        let (tag, s1) := s.newTag
        sendFlit s1 p 1 (peerOf k) (if w.ctx.ns then 1 else 0) tag (w.op.map fun id => ⟨tag, id, k, run.length, h.va, 0⟩)
          (bytesOfNat 8 (peerOff k) ++ run.map (·.2.2))) s

/-- The outstanding loads of a byte that a write by an agent does not happen before, but after (R63). -/
def loadsBefore (s : State) (w : Who) (h : Hit) : List Nat :=
  let a := s.agHb w.me
  let past (o : Op) (path : Nat) : Bool :=
    if o.me = w.me && a.start ≤ o.epoch then path == h.path || o.fences < a.fences else o.epoch < Tab.get 0 a.clk o.me
  (s.ops.filter fun o => match o.k with
    | .load _ _ _ _ _ plan => plan.any fun l => l.2.any fun x => x.1.key == h.key && past o x.1.path
    | _ => false).map (·.id)

/-- The place of the owner's workgroup that a release at .dev or wider by a party on a byte reaches through a promotion (R71). -/
def promotedTo (s : State) (w : Who) (k : Nat) : Option Nat :=
  (s.hb.promoted.find? fun p => p.1 == k && p.2.1 == w.party).map (·.2.2)

/-- The releases that a marked write by an agent carries: that of a fence before it, and its own (R61). -/
def ownRels (s : State) (w : Who) : List Rel :=
  (s.agHb w.me).fenceRel ++ if w.rel then [⟨w.scp, w.place, s.relClk w.me, none⟩] else []

/-- What a write by an agent is remembered with: a marked one carries its own release, that of a fence before it, and as an
atomic those of the write that it read (R61). -/
def wrecOf (s : State) (w : Who) (marked : Bool) (h : Hit) : Wrec :=
  let a := s.agHb w.me
  let wide (r : Rel) : Rel := if 3 ≤ r.scp then { r with also := promotedTo s w h.key } else r
  { key := h.key, seq := s.histLen, old := s.byte h.key, agent := w.me, epoch := a.epoch, path := h.path, fences := a.fences
    lnch := w.lnch, marked := marked, ar := w.ar, atom := w.atom, scp := w.scp, place := w.place
    rels := if marked then (ownRels s w).map wide ++ (if w.atom then a.lastRel else []) else []
    after := loadsBefore s w h, nswap := w.nswap }

/-- Write the bytes of one access at one place in the order of writes. -/
def writeOnce (s : State) (w : Who) (marked : Bool) (hbs : List (Hit × Byte)) : State :=
  let s1 := hbs.foldl (fun (t : State) x => t.putByte (wrecOf s w marked x.1) x.2) s
  { s1 with histLen := s1.histLen + 1 }

/-- Write the bytes of one access, and record the writes; 16 bytes are two accesses (R51). Bytes of peer modules leave on their
ports (R373). -/
def writeHits (s : State) (w : Who) (marked : Bool) (hs : List Hit) (bs : List Byte) : State :=
  let s1 := hs.foldl (fun s h => if h.tracked then record s w true marked h.key else s) s
  let xs := hs.zip bs
  let s2 := writeOnce s1 w marked (xs.take 8)
  let s3 := if 8 < xs.length then writeOnce s2 w marked (xs.drop 8) else s2
  sendWrites (s3.cleanse (hs.map (·.key))) w xs

/-- The host as an agent (R66): each of its accesses is marked, and acquires and releases at .sys (log 72, DESIGN CHOICE). -/
def hostWho (s : State) : Who := { ctx := {}, me := hostMe, place := hostPlace, histStart := s.histLen, scp := 5, acq := true, rel := true }
/-- The agents of a peer module as one (R66): each access is marked, and acquires and releases at .fab (log 72, DESIGN CHOICE). -/
def peerWho (s : State) (m : Nat) : Who :=
  { ctx := {}, me := peerMe m, place := peerPlace m, histStart := s.histLen, scp := 4, acq := true, rel := true }

/-- A byte that an agent outside the module reaches: no race tag records it (R406). -/
def extHit (k : Nat) : Hit := { key := k, tracked := false }

/-- A write by an agent outside the module, which is a release by it. -/
def extWrite (s : State) (w : Who) (kbs : List (Nat × Byte)) : State :=
  (writeHits s w true (kbs.map fun x => extHit x.1) (kbs.map (·.2))).released w.me

/-- A read by an agent outside the module. -/
def extRead (s : State) (w : Who) (ks : List Nat) : List Byte × State := readHits s w true (ks.map extHit)

/-- After its next marked store a fence's release is spent (R61). -/
def spendFence (s : State) (w : Who) : State :=
  if (s.agHb w.me).fenceRel.isEmpty then s else s.setHb w.me { s.agHb w.me with fenceRel := [] }

/-- The first byte of an access on a checked page that races (R407): its offset in the access. -/
def raceAt (s : State) (w : Who) (write marked : Bool) (hs : List Hit) : Option Nat :=
  hs.findIdx? fun h => h.chk && races s w write marked h.key

/-- A request of one lane: the lane (`none`: not a lane's), the address, the bytes. -/
abbrev Req := Option Nat × DWord × Nat

/-- A memory fault: the cause code, AUX, and the shared page of a fault that a walk finds (R399, R403); `far`: no fault, but the
bytes of peer modules that a plain read has still to ask for (log 16). -/
structure MFault where
  cause : Nat
  aux : DWord
  page : Option Nat
  far : List Hit := []
  /-- The poison of a plain read, which is a deferred fault (R402). -/
  late : Bool := false
  deriving DecidableEq, Repr

/-- The virtual offsets that an access of `n` bytes at an address translates (R46, R50): none on a vault or operand-buffer path. -/
def vasOf (w : Who) (lane : Option Nat) (a : DWord) (n : Nat) : List Nat :=
  let off := bits a.toNat 0 56
  match pathSel a, w.pbase, lane with
  | 0, _, _ | 1, _, _ => (List.range n).map (off + ·)
  | 14, some (pb, _), some l => (List.range n).map fun i => (pb + (off + i) / 4 * 4 * W + 4 * l + (off + i) % 4) % 2 ^ 56
  | _, _, _ => []

/-- The 64 KiB page on which a walk finds a fault: that of the first byte that meets it (R403). -/
def walkPage (s : State) (w : Who) (k : AccK) (r : Req) (c : Nat) : Option Nat :=
  if c ∈ [0x44, 0x45, 0x46] then
    ((vasOf w r.1 r.2.1 r.2.2).find? fun va => match globalByte s w k (pathSel r.2.1) va with
      | .error e => e.2 == c
      | .ok _ => false).map (· / 2 ^ 16)
  else none

/-- AUX of cause 0x004E, and what UEADDR records: the physical address and the tier (R399). -/
def poisonAux (k : Nat) : DWord :=
  let code := keyCode k
  BitVec.ofNat 64 (if code < 4 then keyOff k % 2 ^ 48 + code * 2 ^ 48
    else keyOff k % 2 ^ 24 + ((code - 4) % 144 % 48) * 2 ^ 38 + dieOf ((code - 4) % 144) * 2 ^ 46 + 2 * 2 ^ 48)

/-- AUX of a fault of an access: its address; of a poisoned table entry the physical address (R399). -/
def faultAux (s : State) (w : Who) (r : Req) (c : Nat) : DWord :=
  if c = 0x4E then (((vasOf w r.1 r.2.1 r.2.2).findSome? fun va =>
    if (tlbFind s w.die w.ctx.asid (va / 2 ^ 16)).isSome then none
    else walkPoison s w.ctx.ttier va [0, 1, 2, 3] (w.ctx.root / 2 ^ 13 * 2 ^ 13)).map poisonAux).getD r.2.1
  else r.2.1

/-- Of the errors of several lanes, the one of the lowest check at the lowest lane (R400). -/
def worstLane {β : Type} : List (Except FaultAt α × β) → Option (FaultAt × β)
  | [] => none
  | (.ok _, _) :: xs => worstLane xs
  | (.error e, a) :: xs => match worstLane xs with
    | none => some (e, a)
    | some (e', a') => if e'.1 < e.1 then some (e', a') else some (e, a)

/-- The first race on a checked page among the accesses of several lanes. -/
def firstRace (s : State) (w : Who) (write marked : Bool) : List (Req × List Hit) → Option DWord
  | [] => none
  | (r, hs) :: xs => match raceAt s w write marked hs with
    | some i => some (r.2.1 + BitVec.ofNat 64 i)
    | none => firstRace s w write marked xs

/-- Give the bytes of an access their virtual addresses. -/
def atVa (a : DWord) (hs : List Hit) : List Hit := hs.zipIdx.map fun x => { x.1 with va := a + BitVec.ofNat 64 x.2 }

/-- Resolve the accesses of one instruction for every lane (R400 checks 1 to 5, R401): the bytes of each lane and the
state in which the pages have been touched, or the fault to report. -/
def resolveAll (s : State) (w : Who) (k : AccK) (marked : Bool) (al : DWord → Nat → Nat) (rs : List Req) :
    Except MFault (List (Req × List Hit) × State) :=
  let xs := rs.map fun r => (resolve s w k r.1 r.2.1 r.2.2 (al r.2.1 r.2.2), r)
  match worstLane xs with
  | some (e, r) => .error { cause := e.2, aux := faultAux s w r e.2, page := walkPage s w k r e.2 }
  | none =>
    match collect (xs.map (·.1)) with
    | .error e => .error { cause := e.2, aux := 0, page := none }
    | .ok ys =>
      let hits := rs.zip (ys.map (·.1)) |>.map fun x => (x.1, atVa x.1.2.1 x.2)
      match firstRace s w k.writes (marked && !k.engine) hits with
      | some a => .error { cause := 0x4D, aux := a, page := none }
      | none => .ok (hits, touchAll s w k.writes (ys.flatMap (·.2)))

/-- Whether a resolved access would deliver a poisoned byte (R412). -/
def anyPoison (s : State) (hs : List Hit) : Option Nat :=
  (hs.find? fun h => s.poisoned h.key).map (·.key)

/-- An uncorrectable error has been found at a place (R413). -/
def State.foundUe (s : State) (place : DWord) (scrub : Bool) : State :=
  { s with ueAddr := place, ueStat := s.ueStat ||| (if scrub then 3 else 1), errLog := s.errLog ||| 64 }

end Sys2Proof.Machine
end

