-- ==== Sys2Proof/Machine/Ops.lean ====
section
/-! DEFINITION. The named operations over registers and control state: landing of results (R136 to R139),
tokens and counters (R137, R218, R219), barriers (R236), taking an exception and returning from one
(R380, R390 to R396), and the end of a launch (R395, R416). -/

namespace Sys2Proof.Machine

open Sys2Proof

/-! ### Parties, agents -/

/-- The party of R406 that a group, a spool processor or an engine operation is. -/
def partyGroup (k : Nat) : Nat := 3 * k
/-- The party of a spool processor. -/
def partySpool (w : Nat) : Nat := 3 * w + 1
/-- The party of an engine operation. -/
def partyOp (id : Nat) : Nat := 3 * id + 2

/-- Whether the accesses of an operation are an engine's: LCOPY, the matrix unit's, the traversals, DRAWV (R70). -/
def Op.byEngine (o : Op) : Bool := decide (o.opc ∈ [0x46, 0x62, 0x63, 0x71, 0x72, 0x73, 0x74, 0x76])

/-- The group key of an agent that is a split of a group. -/
def agentKey : Agent → Option Nat
  | .group c sl _ => some (gKey c sl)
  | _ => none

/-- The workgroup of an agent. -/
def agentWg (s : State) : Agent → Option Nat
  | .none => none
  | .group c sl _ => (s.group? (gKey c sl)).map (·.wg)
  | .spool w => some w

/-- Whether an agent is a spool processor. -/
def isSpool : Agent → Bool
  | .spool _ => true
  | _ => false

/-- The party of an agent. -/
def agentParty : Agent → Nat
  | .none => 0
  | .group c sl _ => partyGroup (gKey c sl)
  | .spool w => partySpool w

/-- The number of the agent that a split or a spool processor is (R66). -/
def agentMe (s : State) : Agent → Nat
  | .none => 0
  | .group c sl k => match s.group? (gKey c sl) with
    | some g => laneMe g.wg g.grp k
    | none => 0
  | .spool w => spoolMe w

/-- A releasing event of an agent (R61, R62): its party's region ends and its next epoch begins; what it orders before
itself goes to the carriers named. -/
def releaseTo (s : State) (ag : Agent) (cs : List Chan) : State :=
  let clk := s.relClk (agentMe s ag)
  ((cs.foldl (fun (s : State) c => s.post c clk) s).released (agentMe s ag)).release (agentParty ag)

/-! ### Bytes of peer modules (R373) -/

/-- The bytes of peer modules among those of an access that have not arrived. -/
def farHits (got : Tab Byte) (hs : List Hit) : List Hit := hs.filter fun h => keyCode h.key == 3 && (Tab.find? got h.key).isNone

/-- Send one request of operation `id` to a peer, from a byte on, with what else its payload holds (log 12): the tag, and the
state. -/
def requestRun (s : State) (ns : Bool) (id : Nat) (h : Hit) (n : Nat) (extra : List Byte) : Nat × State :=
  let (tag, s1) := s.newTag
  match portTo s1 (peerOf h.key) with
  | none => (tag, s1)
  | some p =>
    let r : FarReq := ⟨tag, id, h.key, n, h.va, (s1.port p).sendSeq⟩
    let s2 := sendFlit s1 p 2 (peerOf h.key) (if ns then 1 else 0) tag (some r) (bytesOfNat 8 (peerOff h.key) ++ bytesOfNat 2 n ++ extra)
    (tag, s2.setPort p { s2.port p with waiting := (s2.port p).waiting ++ [r] })

/-- Send some requests, each of a run of bytes with its extra payload, for operation `id`, which then awaits their tags. -/
def requestAll (s : State) (ns : Bool) (id : Nat) (runs : List (Hit × Nat × List Byte)) : State :=
  let (s1, tags) := runs.foldl (fun (acc : State × List Nat) run =>
    let (tag, s1) := requestRun acc.1 ns id run.1 run.2.1 run.2.2
    (s1, acc.2 ++ [tag])) (s, [])
  let ask (o : Op) : Op := if o.id = id then { o with tags := o.tags ++ tags } else o
  { s1 with ops := s1.ops.map ask }

/-- Ask the peers for remote bytes of an operation. -/
def requestReads (s : State) (ns : Bool) (id : Nat) (hs : List Hit) : State :=
  let ks := ((hs.filter fun h => keyCode h.key == 3).map fun h => (h.key, h))
  let once := ks.foldl (fun (acc : List (Nat × Hit)) x => if acc.any fun y => y.1 == x.1 then acc else acc ++ [x]) []
  requestAll s ns id ((runsOf 104 once).filterMap fun run => match run with
    | [] => none
    | (_, h) :: _ => some (h, run.length, []))

/-- Whether requests of an operation have not been acknowledged. -/
def unackedOp (s : State) (id : Nat) : Bool := s.ports.any fun x => x.2.kept.any fun r => r.op == id

/-- A write of no instruction's operation, made as operation `o` under the next number, stays outstanding while peer modules have
bytes of it to accept (R373). -/
def keepFar (s : State) (o : Op) : State :=
  if unackedOp s s.nextId then { s with ops := s.ops ++ [{ o with id := s.nextId }], nextId := s.nextId + 1 } else s

/-- The number of no launch. -/
def noLaunch : Nat := 2 ^ 80

/-- The operation by which the device itself awaits peer modules, for a launch; it is no workgroup's. -/
def devOp (lnch : Nat) (d : DevK) : Op := { id := 0, ag := .none, wg := 2 ^ 80, lnch := lnch, k := .device d }

/-- Whether the device awaits the acceptance of writes that it has made for a running launch. -/
def devOut (s : State) (lnch : Nat) : Bool := s.ops.any fun o => o.lnch == lnch && (match o.k with
  | .device (.passage _ _) | .device (.board _) => true
  | _ => false)

/-- The operation that holds what an agent's plain reads have asked for. -/
def farOp? (s : State) (ag : Agent) : Option Op := s.ops.find? fun o => o.ag == ag && (match o.k with
  | .far => true
  | _ => false)

/-- An agent asks for bytes that its next instruction or clause reads plainly, the trap `t` naming both; what has arrived for it
already stays. -/
def askFar (s : State) (ag : Agent) (wg lnch : Nat) (ns : Bool) (t : Trap) : State :=
  match farOp? s ag with
  | some o => requestReads s ns o.id t.far
  | none =>
    let o : Op := { id := s.nextId, ag := ag, wg := wg, lnch := lnch, k := .far, due := s.clock, pc := t.addr
                    opc := bits t.info.toNat 0 7, idx := bits t.info.toNat 8 4 }
    requestReads { s with ops := s.ops ++ [o], nextId := s.nextId + 1 } ns o.id t.far

/-- The plain read of an agent's next instruction or clause has met a poisoned byte: a deferred fault (R401, R402), of the operation
that stands for what the agent has to read. -/
def deferFar (s : State) (ag : Agent) (wg lnch : Nat) (ns : Bool) (t : Trap) : State :=
  let s1 := askFar s ag wg lnch ns { t with far := [] }
  let stop (o : Op) : Op := { o with fault := some { t with op := some o.id, late := false } }
  match farOp? s1 ag with
  | some o => { s1 with ops := s1.ops.map fun x => if x.id = o.id then stop x else x }
  | none => s1

/-- An agent needs what it asked for no more. -/
def forgetFar (s : State) (ag : Agent) : State :=
  match farOp? s ag with
  | some o => { s with ops := s.ops.filter fun x => x.id != o.id }
  | none => s

/-! ### Registers -/

/-- Read an s register. -/
def Group.rs (g : Group) (r : Nat) : Word := Tab.get 0 g.s r
/-- Read an even pair of s registers (R72). -/
def Group.rs2 (g : Group) (r : Nat) : DWord := g.rs (r + 1) ++ g.rs r
/-- Read a v register in one lane; a lane outside the launch mask reads as zero (R28). -/
def Group.rv (g : Group) (r l : Nat) : Word := if g.lmask.getLsbD l then laneAt (Tab.get [] g.v r) l else 0
/-- Read an even pair of v registers in one lane. -/
def Group.rv2 (g : Group) (r l : Nat) : DWord := g.rv (r + 1) l ++ g.rv r l
/-- Read a predicate in every lane; p0 reads all ones (R132). -/
def Group.rp (g : Group) (r : Nat) : Mask := if r = 0 then BitVec.allOnes 64 else Tab.get 0 g.p r

/-- One register write. A v write reaches only lanes of the launch mask (R28); a write to p0 is ignored (R132). -/
def Group.write (g : Group) : Wr → Group
  | .s r x =>
    let other (e : Nat × Nat) : Bool := e.1 != 256 + r
    { g with s := Tab.put g.s r x, regErr := g.regErr.filter other, regFlaw := g.regFlaw.filter other }
  | .v r m xs =>
    let old := Tab.get [] g.v r
    let new := lanesOf fun l => if (m &&& g.lmask).getLsbD l then laneAt xs l else laneAt old l
    let other (e : Nat × Nat) : Bool := !(e.1 == r && m.getLsbD e.2)
    { g with v := Tab.put g.v r new, regErr := g.regErr.filter other, regFlaw := g.regFlaw.filter other }
  | .p r m x => if r = 0 then g else { g with p := Tab.put g.p r ((x &&& m) ||| (Tab.get 0 g.p r &&& ~~~m)) }

/-- Several register writes, in order. -/
def Group.writes (g : Group) (ws : List Wr) : Group := ws.foldl Group.write g

/-- What is left of an earlier write under a later one that has landed (R136, R153). -/
def Wr.under (later : Wr) : Wr → Option Wr
  | .s r x => match later with
    | .s r' _ => if r = r' then none else some (.s r x)
    | _ => some (.s r x)
  | .v r m xs => match later with
    | .v r' m' _ => if r = r' then some (.v r (m &&& ~~~m') xs) else some (.v r m xs)
    | _ => some (.v r m xs)
  | .p r m x => match later with
    | .p r' m' _ => if r = r' then some (.p r (m &&& ~~~m') x) else some (.p r m x)
    | _ => some (.p r m x)

/-- The writes of a result that is not yet readable, once later-issued writes have landed over them. -/
def Fix.under (e : Fix) (later : List Wr) : Fix :=
  { e with wrs := later.foldl (fun ws w => ws.filterMap (Wr.under w)) e.wrs }

/-- A result lands: its register writes, an AGEMAX (R176), an iterator record (R207). -/
def Fix.land (e : Fix) (g : Group) : Group :=
  let g' := { g.writes e.wrs with agemax := e.age.getD g.agemax }
  match e.ti with
  | some (h, r) => { g' with ti := Tab.put g'.ti h r }
  | none => g'

/-- Land every fixed-latency result that is readable at cycle `t`, in issue order (R136, R153). -/
def landFixes (t : Nat) : List Fix → List Fix → Group → Group
  | [], kept, g => { g with fixes := kept }
  | e :: es, kept, g =>
    if e.ready ≤ t then landFixes t es (kept.map fun k => k.under e.wrs) (e.land g)
    else landFixes t es (kept ++ [e]) g

/-- A group with its readable results landed. -/
def Group.land (g : Group) (t : Nat) : Group := landFixes t g.fixes [] g

/-- The register a write names. -/
def Wr.ref : Wr → Ref
  | .s r _ => .s r
  | .v r _ _ => .v r
  | .p r _ _ => .p r

/-- The outstanding operations of an agent's group or spool that have not landed. -/
def opsOf (s : State) (ag : Agent) : List Op :=
  s.ops.filter fun o => !o.done && (match ag, o.ag with
    | .group c sl _, .group c' sl' _ => c == c' && sl == sl'
    | .spool w, .spool w' => w == w'
    | _, _ => false)

/-- The registers an outstanding operation will write. -/
def Op.refs (o : Op) : List Ref := o.wrs.map Wr.ref

/-- Whether the writes of an outstanding operation are known: its registers were computed at its issue. -/
def Op.known (o : Op) : Bool := o.fault.isNone && (match o.k with
  | .reg | .tiop _ => true
  | .load _ _ _ _ read plan => read && !(plan.any fun p => isFar (p.2.map (·.1)))
  | .trav _ _ _ lanes => lanes.isEmpty
  | _ => false)

/-- Under R138 a read of a register whose variable-latency write is outstanding returns the old value or the value
written, register by register and lane by lane: the group as this read sees it. Where the value to be written is not yet known, or
the operation has stopped at a fault (R402), the read returns the old one (log 78). -/
def viewOps (reads : List Ref) : List Op → Group → Nat → Group × Nat
  | [], g, n => (g, n)
  | o :: os, g, n =>
    let ws := o.wrs.filter fun w => o.known && decide (w.ref ∈ reads)
    let seen := (ws.zipIdx n).filterMap fun wi => match wi.1 with
      | .s r x => if Config.freeNat wi.2 % 2 = 1 then some (.s r x) else none
      | .v r m xs => some (.v r (m &&& Config.freeMask wi.2) xs)
      | .p r m x => some (.p r (m &&& Config.freeMask wi.2) x)
    viewOps reads os (g.writes seen) (n + ws.length)

/-! ### Tokens, counters, barriers -/

/-- A token's outstanding count (R137). -/
def Group.tok (g : Group) (n : Nat) : Nat := Tab.get 0 g.tk n
/-- An in-flight counter (R218). -/
def Group.cnt (g : Group) (n : Nat) : Nat := Tab.get 0 g.f n
/-- Raise a token. -/
def Group.tokUp (g : Group) (n : Nat) : Group := { g with tk := Tab.put g.tk n (g.tok n + 1) }
/-- Lower a token. -/
def Group.tokDown (g : Group) (n : Nat) : Group := { g with tk := Tab.put g.tk n (g.tok n - 1) }
/-- Raise a counter. -/
def Group.cntUp (g : Group) (n : Nat) : Group := { g with f := Tab.put g.f n (g.cnt n + 1) }
/-- Lower a counter. -/
def Group.cntDown (g : Group) (n : Nat) : Group := { g with f := Tab.put g.f n (g.cnt n - 1) }

/-- Whether two operations are of one group or spool. -/
def sameAgent : Agent → Agent → Bool
  | .group c sl _, .group c' sl' _ => c == c' && sl == sl'
  | .spool w, .spool w' => w == w'
  | _, _ => false

/-- The operations that have completed and whose counter may fall: nothing earlier on the counter is outstanding
(R219). `seen` lists the agents and counters with an earlier operation still outstanding. -/
def lowerable : List Op → List (Agent × Nat) → List Op
  | [], _ => []
  | o :: os, seen =>
    match o.cnt with
    | none => if o.done then o :: lowerable os seen else lowerable os seen
    | some c =>
      let blocked := seen.any fun x => sameAgent x.1 o.ag && x.2 == c
      if o.done && !blocked then o :: lowerable os seen
      else lowerable os ((o.ag, c) :: seen)

/-- What a completed operation released goes to its counter and to the retirement of its workgroup (R62). -/
def counterPast (s : State) (o : Op) : State :=
  let t := s.post (.exited o.wg) (s.relClk (opMe o.id))
  match o.ag, o.cnt with
  | .group c sl _, some n => match t.group? (gKey c sl) with
    | some g => t.post (.cnt g.wg g.grp n) (t.relClk (opMe o.id))
    | none => t
  | _, _ => t

/-- Nothing more happens by some operations. -/
def forgetOpHb (s : State) (ids : List Nat) : State :=
  { s with hb := { s.hb with agents := s.hb.agents.filter fun e => !(ids.any fun i => opMe i == e.1) } }

/-- Lower the counters of completed operations in issue order and forget those operations (R219); the completion of a group's own
access, which lowers fN, ends its race region (R62, R406). -/
def lowerCounters (s : State) : State :=
  let out := lowerable s.ops []
  let ids := out.map (·.id)
  let s1 := out.foldl (fun s o => match agentKey o.ag, o.cnt with
    | some k, some c => s.modGroup k (·.cntDown c)
    | _, _ => s) s
  let s2 := (out.filter fun o => o.cnt.isSome && !o.byEngine).foldl (fun (s : State) o => s.release (agentParty o.ag)) (out.foldl counterPast s1)
  forgetOpHb { s2 with ops := s2.ops.filter fun o => !(o.id ∈ ids) } ids

/-- A barrier register; it resets to the group count (R235). -/
def Wg.bar (w : Wg) (n : Nat) : Bar := Tab.get { exp := w.ngrp } w.bars n

/-- Flip the phase once for each whole expected count, at most `fuel` times (R236). -/
def barFlip : Nat → Bar → Bar
  | 0, b => b
  | n + 1, b => if b.exp ≤ b.arr ∧ 0 < b.exp then barFlip n { b with arr := b.arr - b.exp, ph := !b.ph } else b

/-- An arrival of count `c` at a barrier register (R236). -/
def Bar.arrive (b : Bar) (c : Nat) : Bar := barFlip (b.arr + c) { b with arr := b.arr + c }

/-- An arrival at barrier `n` of a workgroup. -/
def Wg.arrive (w : Wg) (n c : Nat) : Wg := { w with bars := Tab.put w.bars n ((w.bar n).arrive c) }

/-- An arrival at barrier `n` of a workgroup that releases a past: with the phase flip that it completes, the arrivals of
that phase can be acquired (R62, R237). -/
def State.arriveAt (s : State) (wid n c : Nat) (past : Clk) : State :=
  let s1 := (s.post (.barNow wid n) past).modWg wid (·.arrive n c)
  let flips : Bool := match s.wg? wid, s1.wg? wid with
    | some w, some w' => (w.bar n).exp ≤ (w.bar n).arr + c && (w'.bar n).arr != (w.bar n).arr + c
    | _, _ => false
  if flips then (s1.post (.bar wid n) (s1.gathered (.barNow wid n))).setChan (.barNow wid n) [] else s1

/-- The word that BART returns (R235). -/
def Bar.word (b : Bar) : Word :=
  BitVec.ofNat 32 ((if b.ph then 1 else 0) + b.arr % 4096 * 16 + b.exp % 4096 * 65536)

/-! ### Rings -/

/-- The key of a byte of a ring, by its LOC (R365, R392): 0 host, which may refuse it (R410), 1 HBM, 2 second tier. -/
def ringKey (loc addr : Nat) : Option Nat :=
  match loc with
  | 0 => if Config.hostRefuses addr then none else some (mKey 2 addr)
  | 1 => if addr < 2 ^ 39 then some (mKey 0 addr) else none
  | 2 => if addr < 2 ^ 40 then some (mKey 1 addr) else none
  | _ => none

/-- The word of a queue's context descriptor that names its world and slice (R367). -/
def queueWorld (s : State) (q : Nat) : Nat := s.readNat (mKey 0 ((s.queue q).ctx.toNat + 8)) 8

/-- The key of a byte of a ring of queue q, where the access passes the rights of its context's world and slice (R400, R410). -/
def ringAt (s : State) (q loc addr : Nat) : Option Nat :=
  let x := queueWorld s q
  if (loc == 1 || loc == 2) && ((secureAt s (loc - 1) addr && bit x 16) || isolated s (bits x 17 3) (loc - 1) addr) then none
  else ringKey loc addr

/-- Raise a queue's MSI-X vector: its bit in IRQSTAT (R363). -/
def State.raiseVector (s : State) (q : Nat) : State := { s with irqStat := s.irqStat ||| (1#64 <<< q) }

/-- Set a bit of ERRLOG (R363). -/
def State.logErr (s : State) (n : Nat) : State := { s with errLog := s.errLog ||| (1#32 <<< n) }

/-- Record a code in QERR with a slot number (R365). -/
def queueErr (s : State) (q slot code : Nat) : State :=
  (s.setQueue q { s.queue q with err := BitVec.ofNat 24 (slot % 65536 + code * 65536) }).logErr 1

/-- A ring access or a completion write of a queue has failed: its EN is cleared (R410). -/
def ringFail (s : State) (q slot : Nat) : State := queueErr (s.setQueue q { s.queue q with en := false }) q slot 6

/-- The log₂ of a trap ring's entries: 1 and 13 to 15 act as 0 (R392). -/
def Queue.trLog (q : Queue) : Nat := if q.trSize = 1 ∨ 13 ≤ q.trSize then 0 else q.trSize

/-- Whether a queue's trap ring has no free place (R393). -/
def Queue.trFull (q : Queue) : Bool := (q.trTail - q.trHead).toNat == 2 ^ q.trLog

/-- The serial after a serial: it never is 0 (R393). -/
def nextSerial (x : Word) : Word := if x + 1 = 0 then 1 else x + 1

/-- Write one trap entry, whose first word is the queue's next serial, at the ring's tail, or say that the write failed (R393,
R410). -/
def writeEntry (s : State) (qn : Nat) (ws : List Word) : State × Bool :=
  let q := s.queue qn
  match ringAt s qn q.trLoc (q.trBase + (q.trTail.toNat % 2 ^ q.trLog) * 64) with
  | none => (s.logErr 7, false)
  | some k =>
    let s1 := s.writeBytes (((q.serial :: ws.tail).flatMap bytesOfWord).zipIdx.map fun bi => (k + bi.2, bi.1))
    let s2 := s1.setQueue qn { q with trTail := q.trTail + 1, serial := nextSerial q.serial }
    (if q.trIrq then s2.raiseVector qn else s2, true)

/-! ### Taking an exception -/

/-- INFO of R381. -/
def infoOf (op idx reason : Nat) : BitVec 16 := BitVec.ofNat 16 (op % 128 + idx % 16 * 256 + reason % 16 * 4096)

/-- The number of splits in use, of join entries in use. -/
def Group.splitsUsed (g : Group) : Nat := (g.splits.filter (·.v)).length
/-- Join entries in use. -/
def Group.joinsUsed (g : Group) : Nat := (g.joins.filter (·.v)).length

/-- The words of a trap entry (R393). -/
def entryWords (serial : Word) (t : Trap) (lid : Word) (ix core slot grp split : Nat) (mask : Mask) (clock : Nat) :
    List Word :=
  let d (x : DWord) : List Word := [x.extractLsb' 0 32, x.extractLsb' 32 32]
  [serial, t.info ++ t.cause] ++ d t.addr ++ [lid, BitVec.ofNat 32 ix,
    BitVec.ofNat 32 (core % 256 + slot % 64 * 256 + grp % 32 * 65536 + split % 4 * 2 ^ 22),
    if t.atIssue then 1 else 0] ++ d mask ++ d t.aux ++ d (BitVec.ofNat 64 clock) ++ [0, 0]

/-- Write TRAPCAUSE and TRAPADDR of the trapping agent, which issues nothing more (R380, R390). -/
def setTrapRegs (s : State) (ag : Agent) (t : Trap) : State :=
  match ag with
  | .none => s
  | .group c sl _ => s.modGroup (gKey c sl) fun g =>
      { g with trapCause := t.info ++ t.cause, trapAddr := t.addr, trapped := true }
  | .spool w => s.modWg w fun x => { x with spool := x.spool.map fun p =>
      { p with trapCause := t.info ++ t.cause, trapAddr := t.addr, trapped := true } }

/-- The place of the entry that a shared fault joins: of the same launch and cause, found by one walk of the same die on the same
page, and not yet acted on (R403). -/
def joinable (s : State) (lnch : Nat) (t : Trap) : Option Nat :=
  match t.walk with
  | none => none
  | some _ => s.pend.findIdx? fun p => p.lnch == lnch && p.trap.cause == t.cause && p.trap.walk == t.walk

/-! ### Graph state -/

/-- Whether a node is poisoned by its producers (R416): through a completion edge, a task edge, or an overlap edge
when it has already started at the moment its producer is poisoned. -/
def Graph.reached (g : Graph) (n : Nat) (x : Node) : Bool :=
  g.edges.any fun e =>
    let y := g.nodes.getD e.1 { task := false, body := [] }
    e.2.1 == n && y.poisoned && (e.2.2 != 1 || (x.started && !y.told))

/-- One round: poison passes along edges, a poisoned node that has not started is skipped and counts as complete,
a task node's queue closes once every task producer is complete, and a task node with nothing left is complete
(R321, R416). `busy`: nodes that still have workgroups or held records. -/
def Graph.round (g : Graph) (busy : Nat → Bool) : Graph :=
  { g with nodes := g.nodes.zipIdx.map fun xi =>
      let x := xi.1
      let n := xi.2
      let p := x.poisoned || g.reached n x
      let prod := g.edges.filter fun e => e.2.1 == n && e.2.2 == 2
      let closed := x.closed || (x.task && !g.waiting && prod.all fun e => (g.nodes.getD e.1 x).complete)
      if p && !x.started then
        { x with poisoned := true, told := x.poisoned, skipped := true, complete := true, closed := true, queue := [], used := 0 }
      else
        let fin := x.task && closed && x.queue.isEmpty && !busy n
        { x with poisoned := p, told := x.poisoned, closed := closed, complete := x.complete || fin } }

/-- As many rounds as the graph has nodes settle it. -/
def Graph.settle (g : Graph) (busy : Nat → Bool) : Graph :=
  (List.range (g.nodes.length + 1)).foldl (fun g _ => g.round busy) g

/-- Whether a node of a graph still has workgroups or groups that hold its records. -/
def nodeBusy (s : State) (gid n : Nat) : Bool :=
  s.wgs.any fun w => match s.launch? w.2.lnch with
    | some l => l.node == some (gid, n)
    | none => false

/-- A command has no effect left but its completion write (R366). -/
def State.cmdReady (s : State) (c : Nat) : State :=
  { s with cmds := Tab.modify s.cmds c fun x => { x with ready := true } }

/-- PMASK of a graph object (R418). -/
def Graph.pmask (g : Graph) : Nat :=
  g.nodes.zipIdx.foldl (fun m xi => if xi.1.poisoned then m + 2 ^ xi.2 else m) 0

/-- The workgroups of a launch's grid (R29). -/
def Launch.n (l : Launch) : Nat := l.gx * l.gy * l.gz

/-- The scoreboard bytes of a sweep grid: the retirement bits (R305). -/
def Launch.boardBytes (l : Launch) : List Byte :=
  (List.range ((l.n + 7) / 8)).map fun i =>
    (List.range 8).foldl (fun (b : Byte) j => if decide (8 * i + j ∈ l.done) then b ||| BitVec.ofNat 8 (2 ^ j) else b) 0

/-- Write bytes of a sweep's scoreboard region as the task unit (R305, R308, R419); `ix`: the workgroup whose retirement is served. -/
def boardWrite (s : State) (lid : Nat) (l : Launch) (ix : Nat) (bs : List Byte) : Except MFault State :=
  if l.k.deps.isEmpty then .ok s
  else
    let w : Who := { ctx := l.ctx, histStart := l.histStart, op := some s.nextId }
    match resolveAll s w .store true (fun _ _ => 1) [(none, l.sboard, bs.length)] with
    | .error m => .error m
    | .ok (hs, s1) => .ok (keepFar (writeHits s1 w true ((hs.flatMap (·.2)).map fun h => { h with tracked := false }) bs)
        (devOp lid (.board ix)))

/-- Write PMASK of a graph object as the task unit (R418); a write that faults is not made. -/
def maskWrite (s : State) (g : Graph) (x : Nat) : State :=
  let w : Who := { ctx := g.ctx, histStart := s.histLen, op := some s.nextId }
  match resolveAll s w .store true (fun _ _ => 8) [(none, g.obj + 0x20, 32)] with
  | .error _ => s
  | .ok (hs, s1) => keepFar (writeHits s1 w true ((hs.flatMap (·.2)).map fun h => { h with tracked := false }) (bytesOfNat 32 x))
      (devOp noLaunch (.mask g.cmd))

/-- Whether a carrier belongs to a workgroup. -/
def Chan.ofWg (w : Nat) : Chan → Bool
  | .bar a _ | .barNow a _ | .tok a _ _ | .cnt a _ _ | .stage a _ _ | .exited a | .mail a | .pass a _ _ => a == w
  | _ => false
/-- Whether a carrier belongs to a launch. -/
def Chan.ofLaunch (l : Nat) : Chan → Bool
  | .ret a _ | .start a | .ended a => a == l
  | _ => false
/-- Whether a carrier belongs to a replay. -/
def Chan.ofGraph (g : Nat) : Chan → Bool
  | .node a _ => a == g
  | _ => false

/-- Drop the carriers that a test names. -/
def State.dropChans (s : State) (p : Chan → Bool) : State :=
  { s with hb := { s.hb with chans := s.hb.chans.filter fun e => !p e.1 } }

/-- A replay has ended: PMASK has its final value, and the GRAPH command has only its completion write left, once a peer module has accepted PMASK (R418, R366); what its
nodes released goes to the object's next replay (R325) and to the command. -/
def endReplay (s : State) (gid : Nat) (g : Graph) : State :=
  let past := (List.range 257).foldl (fun (c : Clk) n => c.join (s.gathered (.node gid n))) []
  let s0 := ((s.dropChans (Chan.ofGraph gid)).post (.replay g.obj.toNat g.ctx.root) past).post (.cmd g.cmd) past
  let s1 := maskWrite { s0 with graphs := Tab.erase s0.graphs gid } g g.pmask
  let s2 := if g.pmask = 0 then s1 else s1.logErr 8
  if s2.ops.any fun o => o.k == .device (.mask g.cmd) then s2 else s2.cmdReady g.cmd

/-- What a launch did is released to the consumers of its node (R318). -/
def nodePast (s : State) (lid gid n : Nat) : State :=
  s.post (.node gid n) ((s.gathered (.start lid)).join (s.gathered (.ended lid)))

/-- Settle a graph; once every node is complete its replay ends. -/
def settleGraph (s : State) (gid : Nat) : State :=
  match Tab.find? s.graphs gid with
  | none => s
  | some g =>
    let g' := g.settle (nodeBusy s gid)
    let endings := g'.nodes.zipIdx.filterMap fun x => if x.1.task && x.1.complete then x.1.lnch.map fun l => (l, x.2) else none
    let ended := endings.map (·.1)
    let rest (x : Node) : Node := if x.task && x.complete then { x with lnch := none } else x
    let g2 : Graph := { g' with nodes := g'.nodes.map rest }
    let s0 := endings.foldl (fun (s : State) x => nodePast s x.1 gid x.2) s
    let s1 := { s0 with
      graphs := Tab.put s.graphs gid g2
      launches := s.launches.filter fun (l : Nat × Launch) => !(decide (l.1 ∈ ended) && !l.2.killed) }
    if g2.nodes.all (·.complete) && !g2.waiting then endReplay s1 gid g2 else s1

/-- Write a launch's scoreboard back, once (R305); `ix`: the workgroup whose retirement is served. -/
def boardOut (s : State) (l ix : Nat) : Except MFault State :=
  match s.launch? l with
  | none => .ok s
  | some x =>
    if x.boarded then .ok s
    else (boardWrite s l x ix x.boardBytes).map fun s1 => s1.modLaunch l fun y => { y with boarded := true }

/-- A launch has ended, and what the device has written for it stands: its command or its node completes (R366, R318, R395). A
killed node is poisoned (R416). -/
def closeLaunch (s : State) (l : Nat) : State :=
  match s.launch? l with
  | none => s
  | some x =>
    let s0 := match x.node with
      | some (g, n) => nodePast s l g n
      | none => s
    let s1 := match x.cmd with
      | some c => (s0.post (.cmd c) ((s0.gathered (.start l)).join (s0.gathered (.ended l)))).cmdReady c
      | none => s0
    let s2 := { s1.dropChans (Chan.ofLaunch l) with launches := Tab.erase s1.launches l }
    match x.node with
    | none => s2
    | some (g, n) =>
      settleGraph { s2 with graphs := Tab.modify s2.graphs g fun y =>
        { y with nodes := y.nodes.modify n fun z =>
            { z with complete := z.complete || !z.task || x.killed, poisoned := z.poisoned || x.killed
                     closed := z.closed || x.killed, lnch := none } } } g

/-- A launch has ended: a sweep's scoreboard is written back; once peer modules have accepted what the device has written for it, it
is closed (R305, R366). -/
def finishLaunch (s : State) (l : Nat) : State :=
  let s1 := match boardOut s l 0 with
    | .ok s1 => s1
    | .error _ => s
  if devOut s1 l then s1 else closeLaunch s1 l

/-! ### Ending a launch -/

/-- With B held fixed the next core on the wrong side of it is marked (R368). -/
def Slice.remark (x : Slice) : Slice :=
  if x.marked.isSome || !x.fix || x.bound == x.target then x
  else { x with marked := some (x.core0 + if x.target < x.bound then x.bound - 1 else x.bound) }

/-- A marked core that has drained changes partition (R338). -/
def Slice.move (empty : Nat → Bool) (x : Slice) : Slice :=
  match x.marked with
  | none => x.remark
  | some c =>
    if empty c then
      Slice.remark { x with marked := none, bound := if c < x.core0 + x.bound then x.bound - 1 else x.bound + 1 }
    else x

/-- Move the boundary of every slice whose marked core holds no workgroup, resident or saved (R338). -/
def bridleSettle (s : State) : State :=
  let empty (c : Nat) : Bool := !(s.wgs.any fun w => w.2.core == c && !w.2.dropped)
  { s with slices := s.slices.map fun x => (List.range (x.cores + 1)).foldl (fun x _ => x.move empty) x }

/-- A core whose slots have been vacated: they leave the active set, and a swap in which one was to come in ends. -/
def CoreSt.without (c : CoreSt) (slots : List Nat) : CoreSt :=
  let gone (k : Nat) : Bool := decide (k ∈ slots)
  { c with
    active := c.active.filter fun k => !gone k
    swap := match c.swap with
      | none => none
      | some (i, o, t) => if gone i then none else some (i, if o.any gone then none else o, t) }

/-- Nothing more happens by the agents of a workgroup, nor through its carriers. -/
def forgetWgHb (s : State) (w : Nat) : State :=
  let mine (me : Nat) : Bool := (me % 4 == 1 && me / 512 == w) || me == spoolMe w
  { s.dropChans (Chan.ofWg w) with hb := { (s.dropChans (Chan.ofWg w)).hb with agents := s.hb.agents.filter fun e => !mine e.1 } }

/-- Free a workgroup's place: its groups, and the core's active set (R45, R395). -/
def freeWg (s : State) (w : Nat) : State :=
  match s.wg? w with
  | none => s
  | some x =>
    let keys := x.slots.map (gKey x.core)
    let c := s.core x.core
    let s1 := { s with groups := keys.foldl Tab.erase s.groups, wgs := Tab.erase s.wgs w }
    let s2 := keys.foldl (fun s k => s.release (partyGroup k)) s1
    bridleSettle ((forgetWgHb s2 w).setCore x.core (c.without x.slots))

/-- The records that a workgroup's groups hold free their pool slots (R242, R395). -/
def freeHeld (s : State) (lnch : Nat) (g : Group) : State :=
  match s.launch? lnch with
  | none => s
  | some x => match x.node with
    | none => s
    | some (gr, n) => { s with graphs := Tab.modify s.graphs gr fun y =>
        { y with nodes := y.nodes.modify n fun z => { z with used := z.used - g.held.length } } }

/-- Whether a workgroup has operations outstanding (R45). -/
def wgBusy (s : State) (w : Nat) : Bool := s.ops.any fun o => o.wg == w

/-- Whether a clause has a waiting instruction before it, as its first (R124). -/
def Clause.headWaits (c : Clause) : Bool :=
  let p := c.rest.headD 0
  c.idx == 0 && isWaiting (opOf p) (if p.toNat % 4 = 0 then 0 else bits (c.rest.getD 1 0).toNat 18 4)

/-- Whether an agent stands within a clause: it has started, and does not stand at a waiting instruction, which is a clause start
(R331). -/
def Clause.inside (c : Clause) : Bool := c.started && !c.headWaits

/-- Whether a split stands within a clause whose rest it may still issue (R390): not before an instruction held in place, nor
at a waiting one. -/
def Split.running (x : Split) : Bool := x.v && x.block == 0 && x.cl.any Clause.inside

/-- Whether the agents of a workgroup have stopped as R390 says. -/
def wgStopped (s : State) (w : Wg) : Bool :=
  (w.slots.all fun sl => (s.group? (gKey w.core sl)).all fun g => g.exited || g.trapped || !(g.splits.any Split.running)) &&
  w.spool.all fun p => p.trapped || !p.run || p.block != 0 || !p.cl.any Clause.inside

/-- The matrix resource of a core returns to it, with nothing published (R245). -/
def resetMx (s : State) (core : Nat) : State :=
  (s.setCore core { s.core core with mx := {} }).setChan (.tile core) []

/-- The operation that a core's sequencer is performing. -/
def Matrix.running (m : Matrix) : Option Nat := if m.busy then m.queue.head? else none

/-- The bytes that rank `r` gives a collective: MIN 0 allreduce, 1 reducescatter, 2 allgather, 3 bcast, 4 alltoall. -/
def Collective.need (c : Collective) (r : Nat) : Nat :=
  let g (i : Nat) : Nat := c.key.getD i 0
  let n := g 3 * (tySize (g 2))
  match g 0 with
  | 1 | 4 => n * c.table.length
  | 3 => if r = g 4 then n else 0
  | _ => n
where
  /-- The bytes of an element: 4, or 2 for bf16. -/
  tySize (ty : Nat) : Nat := if ty = 4 then 2 else 4

/-- Whether every member of a collective has issued, and its data is here. -/
def Collective.full (c : Collective) (module_ : Nat) : Bool :=
  c.table.zipIdx.all fun er =>
    (if er.1.1 = module_ then (c.members.any fun m => m.rank == er.2) && (Tab.find? c.data er.2).isSome
     else (Tab.find? c.keys er.2).isSome) && c.need er.2 ≤ (Tab.get [] c.data er.2).length

/-- Whether a COLL still waits for members. -/
def collWaits (s : State) (id : Nat) : Bool :=
  !(s.colls.any fun c => !c.failed && c.full s.moduleNo && c.members.any fun m => m.op == id)

/-- Whether an outstanding operation is discarded when its launch is killed (R395): a matrix command that has not
started, an MPUB that waits for a tile, a COLL that waits for members; an ATOM.ord whose passage will not come; what an agent has asked peers for. An engine stopped at a fault is completed as
a skip completes it, by its ENGINE_FAULT. -/
def killDrops (s : State) (l : Nat) (o : Op) : Bool :=
  o.lnch == l && (match o.k with
    | .mloop .. => !(s.cores.any fun c => c.2.mx.running == some o.id)
    | .mpub | .far | .atomOrd .. => true
    | .coll .. => o.fault.isNone && collWaits s o.id
    | _ => false)

/-- MLOOPs have read their last operand bytes, or never will: ranges that they alone still held are free (R249). -/
def dropReaders (s : State) (gone : List Nat) : State :=
  let left (h : Nat × Nat × List Nat) : Nat × Nat × List Nat := (h.1, h.2.1, h.2.2.filter fun i => !decide (i ∈ gone))
  { s with wgs := s.wgs.map fun (e : Nat × Wg) =>
      (e.1, { e.2 with obHeld := (e.2.obHeld.map left).filter fun h => !h.2.2.isEmpty }) }

/-- Forget operations by identifier, here, in the sequencer queues and among the members of collectives. -/
def forgetOps (s0 : State) (gone : List Nat) : State :=
  let s := dropReaders s0 gone
  { s with
    ops := s.ops.filter fun o => !decide (o.id ∈ gone)
    colls := s.colls.map fun c => { c with members := c.members.filter fun m => !decide (m.op ∈ gone) }
    passes := s.passes.filter fun p => !decide (p.op ∈ gone)
    cores := s.cores.map fun (kc : Nat × CoreSt) =>
      (kc.1, { kc.2 with mx := { kc.2.mx with queue := kc.2.mx.queue.filter fun k => !decide (k ∈ gone) } }) }

/-- A killed launch's workgroups give up their resources once they have stopped and nothing of theirs is outstanding; after the
last, the launch ends (R395). What the rest of their clauses has issued and a kill discards is discarded first. -/
def reap (s0 : State) (l : Nat) : State :=
  match s0.launch? l with
  | none => s0
  | some x =>
    if !x.killed then s0
    else
      let s := forgetOps s0 ((s0.ops.filter (killDrops s0 l)).map (·.id))
      let mine := s.wgs.filter fun w => w.2.lnch == l && !w.2.saved && !wgBusy s w.1 && wgStopped s w.2
      let s1 := mine.foldl (fun s w =>
        let s := (w.2.slots.map (gKey w.2.core)).foldl (fun s k => match s.group? k with
          | some g => freeHeld s l g
          | none => s) s
        freeWg (if x.k.matrix then resetMx s w.2.core else s) w.1) s
      if s1.wgs.any (fun w => w.2.lnch == l) then s1 else finishLaunch s1 l

/-- Set RSTD of the saved workgroup records of a launch in a context save area (R395, R341). -/
def dropRecs (s : State) (l : Nat) (sv : Save) : State :=
  sv.recs.foldl (fun (s : State) (r : Nat × Nat) => match s.wg? r.2 with
    | some w =>
      if w.lnch == l && w.saved then
        let k := tierKey sv.tier (sv.area + r.1 + 7)
        s.setByte k (s.byte k ||| 1)
      else s
    | none => s) s

/-- Drop the saved workgroups of a launch: those with late completions due leave once these have been applied (R395). -/
def dropSaved (s : State) (l : Nat) : State :=
  let s1 := s.saves.foldl (fun (s : State) (sv : Nat × Save) => dropRecs s l sv.2) s
  let mine (w : Wg) : Bool := w.lnch == l && w.saved
  let left := s1.wgs.filter fun w => !(mine w.2 && !wgBusy s1 w.1)
  bridleSettle { s1 with wgs := left.map fun w => (w.1, if mine w.2 then { w.2 with dropped := true } else w.2) }

/-- A killed task node's queued records are discarded and free their slots (R417). -/
def dropQueued (s : State) (x : Launch) : State :=
  match x.node with
  | none => s
  | some (g, n) => settleGraph { s with graphs := Tab.modify s.graphs g fun y =>
      { y with nodes := y.nodes.modify n fun z =>
          { z with poisoned := true, closed := true, used := z.used - z.queue.length, queue := [] } } } g

/-- Kill a launch (R395): its workgroups stop, undispatched ones are never dispatched, its pending traps await no
action, queued matrix commands are discarded and an MPUB that waits for a tile is abandoned, a COLL fails here
without its arrival, engines stopped at a fault are completed, saved workgroups are dropped with RSTD set, a task
node's queued records are discarded (R417). -/
def killLaunch (s : State) (l : Nat) : State :=
  match s.launch? l with
  | none => s
  | some x =>
    if x.killed then s
    else
      let s1 := { s.modLaunch l (fun y => { y with killed := true }) with
        pend := s.pend.filter (·.lnch != l)
        ops := s.ops.map fun o => if o.lnch = l then { o with raised := false } else o }
      let s2 := forgetOps s1 ((s1.ops.filter (killDrops s1 l)).map (·.id))
      reap ((dropQueued (dropSaved s2 l) x).logErr 3) l

/-- Put a trap entry behind those that stand, but of its workgroup and cycle in ascending group slot, the spool processor's last
(R391). -/
def insertPend (p : Pend) : List Pend → List Pend
  | [] => [p]
  | x :: xs =>
    if x.at_ = p.at_ ∧ x.wg = p.wg ∧ x.q = p.q ∧ p.slot < x.slot ∧ !x.written then p :: x :: xs else x :: insertPend p xs

/-- Record a trap: join the entry it shares, or add an entry of its own, which is written as the cycle ends; without a ring the
launch is killed (R391, R393, R403). -/
def report (s : State) (ag : Agent) (wid : Nat) (wg : Wg) (mask : Mask) (grp slot split : Nat) (t : Trap) : State :=
  match s.launch? wg.lnch with
  | none => s
  | some l =>
    if l.killed then s
    else match joinable s wg.lnch t with
    | some i => { s with pend := s.pend.modify i fun x => { x with joined := x.joined ++ [ag] } }
    | none =>
      if (s.queue l.q).trLog = 0 then killLaunch (s.logErr 4) wg.lnch
      else
        let p : Pend :=
          { q := l.q, serial := 0, lnch := wg.lnch, lid := l.lid, trap := t, joined := [ag]
            entry := entryWords 0 t l.lid wg.ix wg.core slot grp split mask s.clock
            written := false, at_ := s.clock, wg := wid, slot := if grp = 16 then 64 else slot }
        { s with pend := insertPend p s.pend }

/-- TAKING AN EXCEPTION (R380, R390, R393): TRAPCAUSE and TRAPADDR of the group receive the cause and the address, the
workgroup freezes for as long as an entry of one of its agents is pending, and the trap is recorded for the
queue that submitted the launch. -/
def raise (s : State) (ag : Agent) (t : Trap) : State :=
  match agentWg s ag with
  | none => s
  | some w => match s.wg? w with
    | none => s
    | some x =>
      let s1 := setTrapRegs s ag t
      match ag with
      | .group c sl k => match s.group? (gKey c sl) with
        | none => s1
        | some g => report s1 ag w x ((g.splits.getD k {}).mask) g.grp sl k t
      | _ => report s1 ag w x 0 16 0 0 t

/-- Whether a workgroup is frozen: an entry of one of its agents awaits an action (R390). -/
def frozen (s : State) (w : Nat) : Bool :=
  s.pend.any fun p => p.joined.any fun a => agentWg s a == some w

/-- Write the entries of a queue that wait, in order, as far as places of the ring have freed; one whose write fails, or has
failed, holds back those behind it (R393, R410). An entry that freezes no agent is over once it is written (R414). -/
def flushList (s : State) (qn : Nat) : List Pend → List Pend × State
  | [] => ([], s)
  | p :: ps =>
    let q := s.queue qn
    if p.q = qn ∧ !p.written then
      if p.failed || q.trLog == 0 || q.trFull then (p :: ps, s)
      else match writeEntry s qn p.entry with
        | (s1, false) => ({ p with failed := true } :: ps, s1)
        | (s1, true) =>
          let (r, s2) := flushList s1 qn ps
          (if p.joined.isEmpty then r else { p with serial := q.serial, written := true } :: r, s2)
    else
      let (r, s1) := flushList s qn ps
      (p :: r, s1)

/-- Write the entries of a queue that wait; one of this cycle that finds the ring full sets ERRLOG.TRFULL (R393). -/
def flushTraps (s : State) (qn : Nat) : State :=
  let (ps, s1) := flushList s qn s.pend
  let s2 := { s1 with pend := ps }
  if (s2.queue qn).trFull && ps.any fun p => p.q == qn && !p.written && p.at_ == s2.clock then s2.logErr 2 else s2

/-- Write the entries that this cycle has recorded (R391, R393). -/
def flushAll (s : State) : State := ((s.pend.filter fun p => !p.written).map (·.q)).eraseDups.foldl flushTraps s

/-! ### The split and its clause -/

/-- Change a split of a group. -/
def Group.modSplit (g : Group) (k : Nat) (f : Split → Split) : Group := { g with splits := g.splits.modify k f }

/-- The first cycle in which every fixed-latency result of a split is readable. -/
def Group.lastReady (g : Group) (k : Nat) : Nat :=
  (g.fixes.filter (·.split == k)).foldl (fun m e => max m e.ready) 0

/-- The number of parcels of an instruction (R127). -/
def parcels (i : Instr) : Nat :=
  match enc i with
  | none => 0
  | some (f, r) => lenCode r f + 1

/-- A clause past its current instruction, issued at cycle `t`; `none` after the last (R136). -/
def Clause.next (c : Clause) (n t : Nat) : Option Clause :=
  let rest := c.rest.drop n
  if rest.isEmpty then none
  else some { c with at_ := c.at_ + BitVec.ofNat 64 (4 * n), idx := c.idx + 1, rest := rest, base := t + 1 }

/-- The number of parcels of a clause (R121). -/
def pcntOf (hdr : DWord) : Nat := bits hdr.toNat 4 5 + 1

/-- The header that follows a clause (R121). -/
def nextHeader (pc hdr : DWord) : DWord := pc + BitVec.ofNat 64 (8 + 4 * pcntOf hdr)

/-- The address of 56 bits that PC, J and JA hold (R31). -/
def pc56 (a : DWord) : BitVec 56 := a.extractLsb' 0 56
/-- A PC, J or JA as an address on path 0x00. -/
def addr56 (a : BitVec 56) : DWord := a.setWidth 64

/-- Pass the turn of a deterministic workgroup to the next party (R335): the live splits in (GRPID, index) order, the
spool last. Party 4·g + k is split k of group g; 64 is the spool. -/
def parties (s : State) (w : Wg) : List Nat :=
  (w.slots.zipIdx.flatMap fun sg => match s.group? (gKey w.core sg.1) with
    | none => []
    | some g => if g.exited then [] else
        (List.range 4).filterMap fun k => if (g.splits.getD k {}).v then some (4 * sg.2 + k) else none) ++
  (match w.spool with
    | some p => if p.run then [64] else []
    | none => [])

/-- The party after `t` in cyclic order. -/
def nextParty (ps : List Nat) (t : Nat) : Nat :=
  match ps.find? (t < ·) with
  | some p => p
  | none => ps.headD t

/-- Pass the turn. -/
def passTurn (s : State) (w : Nat) : State :=
  match s.wg? w with
  | none => s
  | some x => s.modWg w fun y => { y with turn := nextParty (parties s x) x.turn }

/-- The party of an agent in its workgroup's cycle. -/
def partyOf (s : State) : Agent → Nat
  | .none => 0
  | .group c sl k => match s.group? (gKey c sl) with
    | some g => 4 * g.grp + k
    | none => 0
  | .spool _ => 64

/-- If the turn's holder is gone, the turn passes (R335). -/
def fixTurn (s : State) (w : Nat) : State :=
  match s.wg? w with
  | none => s
  | some x => if x.turn ∈ parties s x then s else passTurn s w

end Sys2Proof.Machine
end

