-- ==== Sys2Proof/Machine/Flags.lean ====
section
/-! DEFINITION. Number formats and arithmetic: integers (R72, R73), floating point with its rounding, special
values and flags (R74 to R84), block float (R85 to R87), and the flags' places in FPSTAT (R79). -/

namespace Sys2Proof.Machine

open Sys2Proof

/-! ### Types -/

/-- The width in bits of a type code (R128). -/
def tyBits (ty : Nat) : Nat :=
  if ty ∈ [3, 4, 5, 6] then 16 else if ty = 7 ∨ ty = 8 then 8 else if wideTy ty then 64 else 32

/-- Whether an integer type is signed. -/
def tySigned (ty : Nat) : Bool := ty ∈ [0, 5, 7, 9]

/-- A pattern of `n` bits as a two's-complement number. -/
def toSigned (n x : Nat) : Int := if x % 2 ^ n < 2 ^ (n - 1) then (x % 2 ^ n : Nat) else (x % 2 ^ n : Nat) - (2 ^ n : Nat)

/-- The pattern of `n` bits of a number (R73). -/
def ofInt (n : Nat) (x : Int) : Nat := (x % (2 ^ n : Nat)).toNat

/-- The number that a pattern of an integer type is. -/
def tyVal (ty x : Nat) : Int := if tySigned ty then toSigned (tyBits ty) x else (x % 2 ^ tyBits ty : Nat)

/-- A value of a type as its 32-bit register, or its register pair as 64 bits: signed narrow values are
sign-extended, the others zero-extended (R72). -/
def widen (ty x : Nat) : DWord :=
  if tySigned ty ∧ tyBits ty < 32 then BitVec.ofNat 64 (ofInt 32 (toSigned (tyBits ty) x))
  else BitVec.ofNat 64 (x % 2 ^ tyBits ty)

/-- The largest and the least number of an integer type. -/
def tyMax (ty : Nat) : Int := if tySigned ty then (2 ^ (tyBits ty - 1) : Nat) - 1 else (2 ^ tyBits ty : Nat) - 1
/-- The least number of an integer type. -/
def tyMin (ty : Nat) : Int := if tySigned ty then -(2 ^ (tyBits ty - 1) : Nat) else 0

/-- Saturate to a type. -/
def tySat (ty : Nat) (x : Int) : Int := if x < tyMin ty then tyMin ty else if tyMax ty < x then tyMax ty else x

/-! ### Floating-point formats -/

/-- A floating-point format by its exponent and fraction widths (R74). -/
structure Fmt where
  eb : Nat
  mb : Nat
  deriving DecidableEq, Repr

/-- The exponent bias. -/
def Fmt.bias (f : Fmt) : Nat := 2 ^ (f.eb - 1) - 1
/-- The width. -/
def Fmt.width (f : Fmt) : Nat := 1 + f.eb + f.mb
/-- The exponent of the smallest normal value. -/
def Fmt.emin (f : Fmt) : Int := 1 - f.bias
/-- The encoding of +∞. -/
def Fmt.inf (f : Fmt) : Nat := (2 ^ f.eb - 1) * 2 ^ f.mb
/-- The largest finite value's encoding. -/
def Fmt.maxFin (f : Fmt) : Nat := f.inf - 1
/-- The canonical NaN. -/
def Fmt.nan (f : Fmt) : Nat := f.inf + 2 ^ (f.mb - 1)
/-- The sign bit's weight. -/
def Fmt.sign (f : Fmt) : Nat := 2 ^ (f.eb + f.mb)

/-- binary16. -/
def f16 : Fmt := ⟨5, 10⟩
/-- bfloat16. -/
def bf16 : Fmt := ⟨8, 7⟩
/-- binary32. -/
def f32 : Fmt := ⟨8, 23⟩
/-- binary64. -/
def f64 : Fmt := ⟨11, 52⟩

/-- The element format of a float type code; of a packed type, its halves'. -/
def fmtOf (ty : Nat) : Fmt :=
  if ty = 3 ∨ ty = 12 then f16 else if ty = 4 ∨ ty = 13 then bf16 else if ty = 11 then f64 else f32

/-- The flags of FPSTAT (R79). -/
def fIV : BitVec 5 := 1
/-- Division by zero. -/
def fDZ : BitVec 5 := 2
/-- Overflow. -/
def fOF : BitVec 5 := 4
/-- Underflow. -/
def fUF : BitVec 5 := 8
/-- Inexact. -/
def fIX : BitVec 5 := 16

/-- A float taken apart: a NaN (signalling or not), an infinity, or (−1)^neg · m · 2^e. -/
inductive FV where
  | nan (signalling : Bool)
  | inf (neg : Bool)
  | fin (neg : Bool) (m : Nat) (e : Int)
  deriving DecidableEq, Repr

/-- Take an encoding apart (R74, R77: subnormals at their exact values). -/
def unpack (f : Fmt) (x : Nat) : FV :=
  let frac := x % 2 ^ f.mb
  let ex := x / 2 ^ f.mb % 2 ^ f.eb
  let neg := bit x (f.eb + f.mb)
  if ex = 2 ^ f.eb - 1 then
    if frac = 0 then .inf neg else .nan (frac < 2 ^ (f.mb - 1))
  else if ex = 0 then .fin neg frac (f.emin - f.mb)
  else .fin neg (2 ^ f.mb + frac) ((ex : Int) - f.bias - f.mb)

/-- An encoding with a sign. -/
def Fmt.signed (f : Fmt) (neg : Bool) (x : Nat) : Nat := if neg then f.sign + x else x

/-- A result and the flags it raises. -/
abbrev FR := Nat × BitVec 5

/-- Whether a rounding mode moves an inexact magnitude away from zero: 0 RNE, 1 RZ, 2 RU, 3 RD, 4 away (R76). `odd`:
the truncated value's last bit; `cmp`: 0 below half, 1 half, 2 above half. -/
def roundsAway (mode : Nat) (neg odd : Bool) (cmp : Nat) : Bool :=
  match mode with
  | 0 => cmp = 2 || (cmp = 1 && odd)
  | 1 => false
  | 2 => !neg
  | 3 => neg
  | _ => true

/-- The magnitude m·2^e (with something more below its last bit when `sticky`) as a multiple of 2^q, rounded, and
whether it was inexact. -/
def roundAt (mode : Nat) (neg : Bool) (m : Nat) (e : Int) (sticky : Bool) (q : Int) : Nat × Bool :=
  if q ≤ e then (m * 2 ^ (e - q).toNat, sticky)
  else
    let sh := (q - e).toNat
    let n := m / 2 ^ sh
    let r := m % 2 ^ sh
    let half := 2 ^ (sh - 1)
    let cmp := if r < half then 0 else if r = half && !sticky then 1 else 2
    let inexact := r != 0 || sticky
    (if inexact && roundsAway mode neg (n % 2 = 1) cmp then n + 1 else n, inexact)

/-- Round a non-zero magnitude once to a format (R76), with subnormals, underflow and overflow of R77. -/
def roundTo (f : Fmt) (mode : Nat) (neg : Bool) (m : Nat) (e : Int) (sticky : Bool) : FR :=
  let ex := e + (Nat.log2 m : Int)
  let qu := ex - f.mb
  let q := max qu (f.emin - f.mb)
  let (nu, _) := roundAt mode neg m e sticky qu
  let tiny := (if f.emin ≤ qu then false else decide (nu < 2 ^ (f.emin - qu).toNat))
  let (n, inexact) := roundAt mode neg m e sticky q
  let x := (q - (f.emin - f.mb)).toNat * 2 ^ f.mb + n
  if f.inf ≤ x then
    let toInf := match mode with
      | 0 => true
      | 1 => false
      | 2 => !neg
      | 3 => neg
      | _ => true
    (f.signed neg (if toInf then f.inf else f.maxFin), fOF ||| fIX)
  else (f.signed neg x, if inexact then (if tiny then fUF ||| fIX else fIX) else 0)

/-- An exact zero whose addends do not all have one sign (R77). -/
def zeroSum (f : Fmt) (mode : Nat) : Nat := f.signed (mode = 3) 0

/-- The canonical NaN with the invalid flag when `iv`. -/
def qnan (f : Fmt) (iv : Bool) : FR := (f.nan, if iv then fIV else 0)

/-- Whether a value is a signalling NaN. -/
def FV.snan : FV → Bool
  | .nan s => s
  | _ => false
/-- Whether a value is a NaN. -/
def FV.isNan : FV → Bool
  | .nan _ => true
  | _ => false
/-- The sign. -/
def FV.neg : FV → Bool
  | .nan _ => false
  | .inf n => n
  | .fin n _ _ => n
/-- The value with its sign turned. -/
def FV.negate : FV → FV
  | .nan s => .nan s
  | .inf n => .inf (!n)
  | .fin n m e => .fin (!n) m e

/-- m·2^e, signed, as an integer multiple of 2^q for q ≤ e. -/
def scaled (neg : Bool) (m : Nat) (e q : Int) : Int :=
  let x : Int := (m * 2 ^ (e - q).toNat : Nat)
  if neg then -x else x

/-- Round a signed multiple of 2^q, which is not zero. -/
def roundInt (f : Fmt) (mode : Nat) (x q : Int) : FR := roundTo f mode (x < 0) x.natAbs q false

/-- The sum of finite addends, rounded once (R77). -/
def sumFin (f : Fmt) (mode : Nat) (a b : Bool × Nat × Int) : FR :=
  let q := min a.2.2 b.2.2
  let s := scaled a.1 a.2.1 a.2.2 q + scaled b.1 b.2.1 b.2.2 q
  if s = 0 then
    (if a.2.1 = 0 ∧ b.2.1 = 0 ∧ a.1 = b.1 then f.signed a.1 0 else zeroSum f mode, 0)
  else roundInt f mode s q

/-- Addition of values taken apart (R77, R78, R81). -/
def addFV (f : Fmt) (mode : Nat) (a b : FV) : FR :=
  match a, b with
  | .nan s, y => qnan f (s || y.snan)
  | x, .nan s => qnan f (s || x.snan)
  | .inf x, .inf y => if x = y then (f.signed x f.inf, 0) else qnan f true
  | .inf x, .fin .. => (f.signed x f.inf, 0)
  | .fin .., .inf y => (f.signed y f.inf, 0)
  | .fin n1 m1 e1, .fin n2 m2 e2 => sumFin f mode (n1, m1, e1) (n2, m2, e2)

/-- FADD (R81). -/
def fAdd (f : Fmt) (mode a b : Nat) : FR := addFV f mode (unpack f a) (unpack f b)
/-- FSUB. -/
def fSub (f : Fmt) (mode a b : Nat) : FR := addFV f mode (unpack f a) (unpack f b).negate

/-- The exact product of two values; a NaN where there is none (R78): the product, and whether it is invalid. -/
def mulFV (a b : FV) : FV × Bool :=
  match a, b with
  | .nan s, y => (.nan false, s || y.snan)
  | x, .nan s => (.nan false, s || x.snan)
  | .inf x, .inf y => (.inf (x != y), false)
  | .inf x, .fin y m _ => if m = 0 then (.nan false, true) else (.inf (x != y), false)
  | .fin x m _, .inf y => if m = 0 then (.nan false, true) else (.inf (x != y), false)
  | .fin n1 m1 e1, .fin n2 m2 e2 => (.fin (n1 != n2) (m1 * m2) (e1 + e2), false)

/-- Round a value taken apart. -/
def roundFV (f : Fmt) (mode : Nat) (x : FV) (iv : Bool) : FR :=
  match x with
  | .nan _ => qnan f iv
  | .inf n => (f.signed n f.inf, 0)
  | .fin n m e => if m = 0 then (f.signed n 0, 0) else roundTo f mode n m e false

/-- FMUL (R81). -/
def fMul (f : Fmt) (mode a b : Nat) : FR :=
  let p := mulFV (unpack f a) (unpack f b)
  roundFV f mode p.1 p.2

/-- FFMA: 0 × ∞ + c raises invalid even for a quiet NaN c (R81). -/
def fFma (f : Fmt) (mode a b c : Nat) : FR :=
  let p := mulFV (unpack f a) (unpack f b)
  let r := addFV f mode p.1 (unpack f c)
  (r.1, r.2 ||| (if p.2 then fIV else 0))

/-- FDIV (R81): at least two more bits than the fraction, the rest in the sticky bit. -/
def fDiv (f : Fmt) (mode a b : Nat) : FR :=
  match unpack f a, unpack f b with
  | .nan s, y => qnan f (s || y.snan)
  | x, .nan s => qnan f (s || x.snan)
  | .inf _, .inf _ => qnan f true
  | .inf x, .fin y _ _ => (f.signed (x != y) f.inf, 0)
  | .fin x _ _, .inf y => (f.signed (x != y) 0, 0)
  | .fin n1 m1 e1, .fin n2 m2 e2 =>
    if m2 = 0 then
      if m1 = 0 then qnan f true else (f.signed (n1 != n2) f.inf, fDZ)
    else if m1 = 0 then (f.signed (n1 != n2) 0, 0)
    else
      let k := f.mb + 4 + Nat.log2 m2
      roundTo f mode (n1 != n2) (m1 * 2 ^ k / m2) (e1 - e2 - k) (m1 * 2 ^ k % m2 != 0)

/-- The largest r below 2^(n+1) with r² ≤ x, for `n + 1` bits. -/
def isqrt : Nat → Nat → Nat → Nat
  | 0, r, x => if (r + 1) * (r + 1) ≤ x then r + 1 else r
  | n + 1, r, x => isqrt n (if (r + 2 ^ (n + 1)) * (r + 2 ^ (n + 1)) ≤ x then r + 2 ^ (n + 1) else r) x

/-- The integer square root. -/
def natSqrt (x : Nat) : Nat := isqrt (Nat.log2 x / 2 + 1) 0 x

/-- FSQRT (R81). -/
def fSqrt (f : Fmt) (mode a : Nat) : FR :=
  match unpack f a with
  | .nan s => qnan f s
  | .inf n => if n then qnan f true else (f.inf, 0)
  | .fin n m e =>
    if m = 0 then (f.signed n 0, 0)
    else if n then qnan f true
    else
      let odd := decide (e % 2 = 1)
      let m' := (if odd then 2 * m else m) * 2 ^ (2 * (f.mb + 3))
      let e' := (if odd then e - 1 else e) - 2 * (f.mb + 3 : Nat)
      let r := natSqrt m'
      roundTo f mode false r (e' / 2) (r * r != m')

/-- FRCP (R81). -/
def fRcp (f : Fmt) (mode a : Nat) : FR :=
  match unpack f a with
  | .nan s => qnan f s
  | .inf n => (f.signed n 0, 0)
  | .fin n m e =>
    if m = 0 then (f.signed n f.inf, fDZ)
    else
      let k := f.mb + 4 + Nat.log2 m
      roundTo f mode n (2 ^ k / m) (-e - k) (2 ^ k % m != 0)

/-- FRSQ (R81). -/
def fRsq (f : Fmt) (mode a : Nat) : FR :=
  match unpack f a with
  | .nan s => qnan f s
  | .inf n => if n then qnan f true else (0, 0)
  | .fin n m e =>
    if m = 0 then (f.signed n f.inf, fDZ)
    else if n then qnan f true
    else
      let odd := decide (e % 2 = 1)
      let m' := if odd then 2 * m else m
      let e' := if odd then e - 1 else e
      let t := Nat.log2 m' / 2 + f.mb + 5
      let r := natSqrt (2 ^ (2 * t) / m')
      roundTo f mode false r (-(t : Int) - e' / 2) (r * r * m' != 2 ^ (2 * t))

/-- Compare two values that are no NaN: less, equal. -/
def ltFV (a b : FV) : Bool :=
  match a, b with
  | .inf x, .inf y => x && !y
  | .inf x, _ => x
  | _, .inf y => !y
  | .fin n1 m1 e1, .fin n2 m2 e2 =>
    let q := min e1 e2
    scaled n1 m1 e1 q < scaled n2 m2 e2 q
  | _, _ => false
/-- Equal, the two zeros among them. -/
def eqFV (a b : FV) : Bool := !a.isNan && !b.isNan && !ltFV a b && !ltFV b a

/-- FMIN and FMAX: minimumNumber and maximumNumber (R83). -/
def fMinMax (f : Fmt) (isMax : Bool) (a b : Nat) : FR :=
  let x := unpack f a
  let y := unpack f b
  let iv : BitVec 5 := if x.snan || y.snan then fIV else 0
  if x.isNan && y.isNan then (f.nan, iv)
  else if x.isNan then (b, iv)
  else if y.isNan then (a, iv)
  else
    let less := ltFV x y || (eqFV x y && x.neg && !y.neg)
    (if less == isMax then b else a, iv)

/-- FCMP: 0 eq, 1 ne, 2 lt, 3 le, 4 gt, 5 ge, 6 ordered, 7 unordered (R83). -/
def fCmp (f : Fmt) (cond a b : Nat) : Bool × BitVec 5 :=
  let x := unpack f a
  let y := unpack f b
  let un := x.isNan || y.isNan
  let r := match cond with
    | 0 => eqFV x y
    | 1 => !(eqFV x y)
    | 2 => !un && ltFV x y
    | 3 => !un && !(ltFV y x)
    | 4 => !un && ltFV y x
    | 5 => !un && !(ltFV x y)
    | 6 => !un
    | _ => un
  (r, if x.snan || y.snan then fIV else 0)

/-- Round a value to an integer in a mode: the integer and whether it was inexact. -/
def toIntegral (mode : Nat) (neg : Bool) (m : Nat) (e : Int) : Int × Bool :=
  let (n, ix) := roundAt mode neg m e false 0
  (if neg then -(n : Int) else n, ix)

/-- FRND (R193): round to an integer in the format; infinities and zeros stay. -/
def fRnd (f : Fmt) (mode a : Nat) : FR :=
  match unpack f a with
  | .nan s => qnan f s
  | .inf n => (f.signed n f.inf, 0)
  | .fin n m e =>
    if m = 0 then (f.signed n 0, 0)
    else
      let (k, _) := toIntegral mode n m e
      if k = 0 then (f.signed n 0, 0) else ((roundInt f 1 k 0).1, 0)

/-- FLDEXP (R189): va · 2^k, rounded; a k beyond any exponent acts as one just beyond. -/
def fLdexp (f : Fmt) (mode a : Nat) (k : Int) : FR :=
  match unpack f a with
  | .fin n m e => roundFV f mode (.fin n m (e + max (-5000) (min 5000 k))) false
  | v => roundFV f mode v v.snan

/-- FCLASS (R193): the bit of the class. -/
def fClass (f : Fmt) (a : Nat) : Nat :=
  match unpack f a with
  | .nan s => if s then 1 else 2
  | .inf n => if n then 4 else 512
  | .fin n m _ =>
    if m = 0 then (if n then 32 else 64)
    else if m < 2 ^ f.mb then (if n then 16 else 128)
    else (if n then 8 else 256)

/-- An operation on each half of a packed pair (R75). -/
def packed2 (op : Nat → Nat → Nat → FR) (a b c : Nat) : FR :=
  let lo := op (a % 2 ^ 16) (b % 2 ^ 16) (c % 2 ^ 16)
  let hi := op (a / 2 ^ 16) (b / 2 ^ 16) (c / 2 ^ 16)
  (lo.1 + 2 ^ 16 * hi.1, lo.2 ||| hi.2)

/-- A float operation of a type: on the value, or on each half of a packed pair. -/
def floatOp (ty : Nat) (op : Fmt → Nat → Nat → Nat → FR) (a b c : Nat) : FR :=
  if ty = 12 ∨ ty = 13 then packed2 (op (fmtOf ty)) a b c else op (fmtOf ty) a b c

/-! ### Conversions (R84) -/

/-- Float to float. -/
def cvtFF (src dst : Fmt) (mode x : Nat) : FR :=
  let v := unpack src x
  roundFV dst mode v v.snan

/-- Integer to float. -/
def cvtIF (dst : Fmt) (mode : Nat) (x : Int) : FR := if x = 0 then (0, 0) else roundInt dst mode x 0

/-- Float to integer: the value, saturated, and its flags (R84). Whether a value lies outside the range is judged on the integer it
rounds to, which the manual leaves open (log 96, DESIGN CHOICE). -/
def cvtFI (src : Fmt) (ty mode x : Nat) : FR :=
  match unpack src x with
  | .nan _ => (0, fIV)
  | .inf n => (ofInt (tyBits ty) (if n then tyMin ty else tyMax ty), fIV)
  | .fin n m e =>
    let (k, ix) := toIntegral mode n m e
    let s := tySat ty k
    (ofInt (tyBits ty) s, if s ≠ k then fIV else if ix then fIX else 0)

/-- Integer to integer. -/
def cvtII (dst : Nat) (x : Int) : Nat := ofInt (tyBits dst) (tySat dst x)

/-! ### Block float (R85 to R87) -/

/-- The exponent byte of a KB block of these elements (R86). -/
def kbExp (xs : List FV) : Nat :=
  if xs.any (·.isNan) then 255
  else
    let es := xs.filterMap fun x => match x with
      | .fin _ m e => if m = 0 then none else some (e + (Nat.log2 m : Int))
      | _ => none
    match es with
    | [] => if xs.any (fun x => match x with | .inf _ => true | _ => false) then 254 else 0
    | e :: rest =>
      let emax := rest.foldl max e
      (max 0 (min (emax + 128) 254)).toNat

/-- One element of a KB block: its mantissa and flags (R86). -/
def kbElem (bm mode E : Nat) (x : FV) : Int × BitVec 5 :=
  let q : Int := (E : Int) - 127 - (bm - 1 : Nat)
  let hi : Int := (2 ^ (bm - 1) : Nat) - 1
  let lo : Int := -(2 ^ (bm - 1) : Nat)
  match x with
  | .nan _ => (0, 0)
  | .inf n => (if n then lo else hi, fIV)
  | .fin n m e =>
    let (k, ix) := roundAt mode n m e false q
    let t : Int := if n then -(k : Int) else k
    let c := max lo (min hi t)
    (c, if c ≠ t then fOF ||| fIX else if ix then fIX else 0)

/-- CVTKB: the exponent, the packed mantissas and the flags (R86). -/
def kbPack (bm mode : Nat) (xs : List FV) : Nat × Nat × BitVec 5 :=
  let E := kbExp xs
  if E = 255 then (255, 0, fIV)
  else
    let ys := xs.map (kbElem bm mode E)
    (E, ys.zipIdx.foldl (fun a y => a + ofInt bm y.1.1 * 2 ^ (bm * y.2)) 0, ys.foldl (fun a y => a ||| y.2) 0)

/-- The mantissa of element j of a packed block. -/
def kbMant (bm packed j : Nat) : Int := toSigned bm (packed / 2 ^ (bm * j))

/-- The value of an element (R85); `none` in a block-NaN. -/
def kbVal (bm E packed j : Nat) : FV :=
  if E = 255 then .nan false
  else
    let k := kbMant bm packed j
    .fin (k < 0) k.natAbs ((E : Int) - 127 - (bm - 1 : Nat))

/-- UNPKB of one element, exact in f32 (R87). -/
def kbUnpack (bm E packed j : Nat) : Nat :=
  match kbVal bm E packed j with
  | .fin n m e => if m = 0 then 0 else (roundTo f32 0 n m e false).1
  | _ => f32.nan

/-! ### FEXP2, FLOG2, FSIN, FCOS (R82) -/

/-- The fraction bits of the fixed point in which these are evaluated. -/
def fxBits : Nat := 320
/-- π · 2^320, truncated. -/
def fxPi : Nat :=
  6710401180212168915155840974220003240804194089427148950727106424351713218671805380099500388914039
/-- ln 2 · 2^320, truncated. -/
def fxLn2 : Nat :=
  1480553391661173448385607439722553250922680800745876974795605978609098082859138712941075737848984

/-- The fixed-point product. -/
def fxMul (a b : Nat) : Nat := a * b / 2 ^ fxBits

/-- The first `n` terms of the exponential series from term `k` = t on. -/
def fxExp (x : Nat) : Nat → Nat → Nat → Nat → Nat
  | 0, _, _, acc => acc
  | n + 1, k, t, acc => fxExp x n (k + 1) (fxMul t x / (k + 1)) (acc + t)

/-- The series z + z³/3 + z⁵/5 + …; `zz` is z². -/
def fxAtanh (zz : Nat) : Nat → Nat → Nat → Nat → Nat
  | 0, _, _, acc => acc
  | n + 1, k, t, acc => fxAtanh zz n (k + 2) (fxMul t zz) (acc + t / k)

/-- The series x − x³/3! + x⁵/5! − … from term `k`; `xx` is x². -/
def fxSin (xx : Nat) : Nat → Nat → Nat → Bool → Int → Int
  | 0, _, _, _, acc => acc
  | n + 1, k, t, neg, acc =>
    fxSin xx n (k + 2) (fxMul t xx / ((k + 1) * (k + 2))) (!neg) (if neg then acc - t else acc + t)

/-- A result within 1 ulp of an inexact value m·2^e: one of its two neighbours, as a fixed function of the
instruction, the format and the input picks (log 3). Which one is not stated. -/
def within1ulp (f : Fmt) (op x : Nat) (neg : Bool) (m : Nat) (e : Int) : FR :=
  roundTo f (if Config.freeUlp op (f.eb * 64 + f.mb) x then 4 else 1) neg m e true

/-- FEXP2. -/
def fExp2 (f : Fmt) (a : Nat) : FR :=
  match unpack f a with
  | .nan s => qnan f s
  | .inf n => if n then (0, 0) else (f.inf, 0)
  | .fin n m e =>
    let q := min e 0
    let x := scaled n m e q
    let one : Int := (2 ^ (-q).toNat : Nat)
    let k := x / one
    let r := (x % one).toNat
    if (f.bias : Int) < k then (f.inf, fOF ||| fIX)
    else if r = 0 then
      (if k < f.emin - f.mb then (0, fUF ||| fIX) else roundTo f 0 false 1 k false)
    else if k < f.emin - f.mb then
      (if k = f.emin - f.mb - 1 then 1 else 0, fUF ||| fIX)
    else
      let frac := r * 2 ^ fxBits / one.toNat
      let y := fxExp (fxMul frac fxLn2) 80 0 (2 ^ fxBits) 0
      let z := within1ulp f 4 a false y (k - fxBits)
      if z.1 = f.inf ∨ (roundTo f 1 false y (k - fxBits) true).1 = f.maxFin then (f.inf, fOF ||| fIX) else z

/-- FLOG2. -/
def fLog2 (f : Fmt) (a : Nat) : FR :=
  match unpack f a with
  | .nan s => qnan f s
  | .inf n => if n then qnan f true else (f.inf, 0)
  | .fin n m e =>
    if m = 0 then (f.signed true f.inf, fDZ)
    else if n then qnan f true
    else
      let lg := Nat.log2 m
      let k : Int := e + lg
      if m = 2 ^ lg then (if k = 0 then (0, 0) else roundInt f 0 k 0)
      else
        -- m / 2^lg = (1 + z) / (1 - z)
        let z := (m - 2 ^ lg) * 2 ^ fxBits / (m + 2 ^ lg)
        let ln := 2 * fxAtanh (fxMul z z) 110 1 z 0
        let l2 := ln * 2 ^ fxBits / fxLn2
        let y : Int := k * (2 ^ fxBits : Nat) + l2
        within1ulp f 5 a (y < 0) y.natAbs (-(fxBits : Int))

/-- sin πr for r = n / 2^320 in [0, ½]. -/
def fxSinPi (r : Nat) : Nat :=
  let x := fxMul r fxPi
  (fxSin (fxMul x x) 50 1 x false 0).toNat

/-- FSIN and FCOS of a finite value: x = k/2 + r with 0 ≤ r < ½; `k` modulo 4 turns, shifted by one for the cosine. -/
def fTrig (f : Fmt) (op a : Nat) (cos : Bool) : FR :=
  match unpack f a with
  | .nan s => qnan f s
  | .inf _ => qnan f true
  | .fin n m e =>
    let q := min e (-1)
    let x := scaled n m e q
    let half : Int := (2 ^ (-q - 1).toNat : Nat)
    let k := x / half + (if cos then 1 else 0)
    let r := (x % half).toNat
    let j := (k % 4).toNat
    if r = 0 then
      if j % 2 = 1 then (f.signed (j = 3) (f.bias * 2 ^ f.mb), 0)
      else (f.signed (n && !cos) 0, 0)
    else
      let fr := r * 2 ^ fxBits / (2 * half.toNat)
      let y := if j % 2 = 0 then fxSinPi fr else fxSinPi (2 ^ (fxBits - 1) - fr)
      within1ulp f op a (2 ≤ j) y (-(fxBits : Int))

end Sys2Proof.Machine
end

