-- ==== Sys2Proof/Machine/Operands.lean ====
section
/-! DEFINITION. What an instruction reads: the context of its issue, the operand space of R131 with its
constants and literals (R134, R135), and values of every type in registers (R72). -/

namespace Sys2Proof.Machine

open Sys2Proof

/-- The context of one issue: the agent; its group's key, its workgroup and launch; its registers as this
instruction reads them (a spool processor's as a group with s registers alone); the split and its clause; the
instruction, its fields and row; and the active lanes (R133, R179). -/
structure Cx where
  ag : Agent
  gk : Nat
  wid : Nat
  w : Wg
  lid : Nat
  l : Launch
  g : Group
  k : Nat
  sp : Split
  cl : Clause
  i : Instr
  f : Fld
  r : Row
  act : Mask
  /-- The bytes of peer modules that have arrived for its plain reads (R373). -/
  got : Tab Byte := []
  deriving Repr

/-- The core. -/
def Cx.core (cx : Cx) : Nat := cx.w.core
/-- The header's address H (R140). -/
def Cx.H (cx : Cx) : DWord := cx.sp.pc
/-- The address of the header that follows the clause. -/
def Cx.next (cx : Cx) : DWord := nextHeader cx.H cx.cl.hdr
/-- The lanes that count for effects that a helper lane does not have (R30). -/
def Cx.actNH (cx : Cx) : Mask := cx.act &&& ~~~cx.g.helper
/-- The rounding mode, or modifier. -/
def Cx.m (cx : Cx) : Nat := cx.f.m.toNat
/-- The type code. -/
def Cx.ty (cx : Cx) : Nat := cx.f.ty.toNat
/-- Whether a spool processor issues. -/
def Cx.onSpool (cx : Cx) : Bool := match cx.ag with
  | .spool _ => true
  | _ => false

/-- The address H + 4 · offset (R140). -/
def offAddr (base : DWord) (ofs : DWord) : DWord := base + 4 * ofs

/-! ### Constants and literals -/

/-- The integer constants of R134 for a type, as a number before reduction. -/
def intConst (ty x : Nat) : Int :=
  if x ≤ 416 then (x : Int) - 384
  else if x ≤ 432 then (x : Int) - 433
  else if x ≤ 443 then (2 ^ (x - 427) : Nat)
  else if x = 444 then tyMax ty
  else if x = 445 then tyMin ty
  else if x = 446 then 0x0000FFFF
  else 0xFFFF0000

/-- The encoding of an integer in a float format. -/
def floatOfInt (f : Fmt) (x : Int) : Nat := (cvtIF f 0 x).1

/-- The float constants of R134. -/
def floatConst (f : Fmt) (x : Nat) : Nat :=
  if x ≤ 416 then floatOfInt f ((x : Int) - 384)
  else if x ≤ 432 then floatOfInt f ((x : Int) - 433)
  else
    let frac (neg : Bool) (k : Nat) : Nat := (roundTo f 0 neg 1 (-(k : Int)) false).1
    match x with
    | 433 => frac false 1
    | 434 => frac true 1
    | 435 => frac false 2
    | 436 => frac true 2
    | 437 => frac false 3
    | 438 => frac true 3
    | 439 => f.sign
    | 440 => f.inf
    | 441 => f.sign + f.inf
    | 442 => f.nan
    | 443 => f.maxFin
    | 444 => 2 ^ f.mb
    | 445 => 1
    | 446 => (roundTo f 0 false fxPi (-(fxBits : Int)) true).1
    | _ => (roundTo f 0 false fxLn2 (-(fxBits : Int)) true).1

/-- Whether a type code is a float type, and whether it is a packed one. -/
def tyFloat (ty : Nat) : Bool := ty ∈ [2, 3, 4, 11, 12, 13]
/-- A packed type (R75). -/
def tyPacked (ty : Nat) : Bool := ty = 12 || ty = 13

/-- An inline constant as a pattern of its type (R134). -/
def constVal (ty x : Nat) : Nat :=
  if tyPacked ty then
    let e := floatConst (fmtOf ty) x
    e + 2 ^ 16 * e
  else if tyFloat ty then floatConst (fmtOf ty) x
  else ofInt (tyBits ty) (intConst ty x)

/-- A literal as a pattern of its type (R135). -/
def litVal (ty : Nat) (lit : Word) : Nat :=
  match ty with
  | 9 => ofInt 64 (toSigned 32 lit.toNat)
  | 11 =>
    match unpack f32 lit.toNat with
    | .nan _ => f64.signed (bit lit.toNat 31) (f64.inf + lit.toNat % 2 ^ 23 * 2 ^ 29)
    | _ => (cvtFF f32 f64 0 lit.toNat).1
  | _ => lit.toNat % 2 ^ tyBits ty

/-! ### Reading values -/

/-- A value of a type in v registers of a lane (R72). -/
def Group.vVal (g : Group) (ty r l : Nat) : Nat :=
  (if wideTy ty then (g.rv2 r l).toNat else (g.rv r l).toNat) % 2 ^ tyBits ty
/-- A value of a type in s registers. -/
def Group.sVal (g : Group) (ty r : Nat) : Nat :=
  (if wideTy ty then (g.rs2 r).toNat else (g.rs r).toNat) % 2 ^ tyBits ty

/-- The value, as a pattern of its type, that an operand field of R131 gives in a lane. -/
def Cx.opd (cx : Cx) (x ty l : Nat) : Nat :=
  if x < 256 then cx.g.vVal ty x l
  else if x < 384 then cx.g.sVal ty (x - 256)
  else if x < 511 then constVal ty x
  else litVal ty cx.f.lit

/-- Operand B, C of the instruction's own type. -/
def Cx.b (cx : Cx) (l : Nat) : Nat := cx.opd cx.f.b.toNat cx.ty l
/-- Operand C. -/
def Cx.c (cx : Cx) (l : Nat) : Nat := cx.opd cx.f.c.toNat cx.ty l
/-- Operand B read as n32. -/
def Cx.b32 (cx : Cx) (l : Nat) : Nat := cx.opd cx.f.b.toNat 1 l
/-- Operand C read as n32. -/
def Cx.c32 (cx : Cx) (l : Nat) : Nat := cx.opd cx.f.c.toNat 1 l
/-- The offset in B, read as i32 and sign-extended to 64 bits (R215). -/
def Cx.ofs (cx : Cx) (l : Nat) : DWord := BitVec.ofInt 64 (toSigned 32 (cx.opd cx.f.b.toNat 0 l))
/-- Source A of a scalar opcode. -/
def Cx.sa (cx : Cx) : Nat := cx.g.sVal cx.ty cx.f.a.toNat
/-- Source A of a vector opcode, in a lane. -/
def Cx.va (cx : Cx) (l : Nat) : Nat := cx.g.vVal cx.ty cx.f.a.toNat l
/-- The low 32 bits of operand B: of the even register of a pair, the literal or the constant (R167). -/
def Cx.bLow (cx : Cx) (l : Nat) : Nat := cx.b l % 2 ^ 32

/-! ### Results -/

/-- A scalar result of a type, written under R72. -/
def sWrite (ty d x : Nat) : List Wr :=
  let y := widen ty x
  if wideTy ty then [.s d (y.extractLsb' 0 32), .s (d + 1) (y.extractLsb' 32 32)] else [.s d (y.extractLsb' 0 32)]

/-- A vector result of a type in the lanes of a mask. -/
def vWrite (ty d : Nat) (m : Mask) (f : Nat → Nat) : List Wr :=
  if wideTy ty then
    [.v d m (lanesOf fun l => (widen ty (f l)).extractLsb' 0 32),
     .v (d + 1) m (lanesOf fun l => (widen ty (f l)).extractLsb' 32 32)]
  else [.v d m (lanesOf fun l => (widen ty (f l)).extractLsb' 0 32)]

/-- A vector result whose values are given by lane. -/
def vWrite32 (d : Nat) (m : Mask) (f : Nat → Nat) : List Wr := vWrite 1 d m f

/-- The union of the flags of the lanes that raise flags: active and no helper (R80). -/
def Cx.flags (cx : Cx) (f : Nat → BitVec 5) : BitVec 5 :=
  (lanesIn cx.actNH).foldl (fun a l => a ||| f l) 0

/-! ### Memory by an agent -/

/-- The operand-buffer ranges that a workgroup's records hold (R248, R49). -/
def Wg.obRanges (w : Wg) : List (Nat × Nat) :=
  w.obr.map fun r => (bits ((r.2.getD 0 0).toNat) 0 20, bits ((r.2.getD 1 0).toNat) 0 21)

/-- The ORD and SCP with which an instruction's accesses are made (R59, R216): a PROMOTE and the header loads of an
FDIN are .acq.dev (R71, R116), an NSWAP's store .rel.dev (R291). -/
def ordOf : Instr → Nat × Nat
  | .ld f | .lds f | .st f | .sts f | .atom f | .atomOrd f | .fence f => (f.c.toNat % 8, f.c.toNat / 8 % 8)
  | .promote _ | .fdin _ => (2, 3)
  | .nswap _ => (3, 3)
  | _ => (0, 0)

/-- Whether an instruction is an atomic. -/
def isAtomic : Instr → Bool
  | .atom _ | .atomOrd _ => true
  | _ => false

/-- The number of the agent that issues (R66). -/
def Cx.me (cx : Cx) : Nat :=
  match cx.ag with
  | .none => 0
  | .group .. => laneMe cx.wid cx.g.grp cx.k
  | .spool w => spoolMe w

/-- Where the agent that issues stands (R58). -/
def Cx.place (cx : Cx) : Place := if cx.onSpool then wgPlace cx.wid cx.core else groupPlace cx.wid cx.g.grp cx.core

/-- Who makes the accesses of an instruction. -/
def Cx.who (cx : Cx) : Who :=
  let o := ordOf cx.i
  { ctx := cx.l.ctx, core := some cx.core, vwbase := cx.w.vwbase, vwsize := cx.w.vwsize, obs := cx.w.obRanges
    pbase := if cx.onSpool then none else some (cx.g.pbase.toNat % 2 ^ 56, cx.l.k.priv)
    party := agentParty cx.ag, histStart := cx.l.histStart
    me := cx.me, place := cx.place, lnch := cx.lid + 1, acq := o.1 == 2 || o.1 == 4, rel := o.1 == 3 || o.1 == 4
    ar := o.1 == 4, atom := isAtomic cx.i, scp := o.2, got := cx.got, asks := true, det := cx.l.det
    nswap := match cx.i with
      | .nswap _ => cx.l.ctx.slice + 1
      | _ => 0 }

end Sys2Proof.Machine
end

