-- ==== Sys2Proof/Machine/Waits.lean ====
section
/-! DEFINITION. What an issue depends on: its context, the role check (R41, R386), the deterministic-mode checks
(R336), the counter it raises (R218), what holds it in place (R25, R137, R138, R208, R219, R246, R263, R270, R297),
and the conditions of the waiting instructions (R124). -/

namespace Sys2Proof.Machine

open Sys2Proof

/-- The node that a launch runs as, with its graph's key, the graph and its number. -/
def nodeOf (s : State) (l : Launch) : Option (Nat × Graph × Nat × Node) :=
  match l.node with
  | none => none
  | some (gid, n) => match Tab.find? s.graphs gid with
    | none => none
    | some g => match g.nodes[n]? with
      | none => none
      | some x => some (gid, g, n, x)

/-- The target of a LAUNCH of record registers from `a` on (R322): the graph's key, the issuing node and the target, when the checks
hold. -/
def targetOf (s : State) (l : Launch) (b a : Nat) : Option (Nat × Nat × Node) :=
  match nodeOf s l with
  | none => none
  | some (gid, g, n, _) =>
    match g.nodes[b]? with
    | none => none
    | some x =>
      if b < 256 && x.task && !x.closed && (g.edges.any fun e => e.1 == n && e.2.1 == b && e.2.2 == 2) &&
          a + x.rw ≤ l.k.regs then some (gid, n, x)
      else none

/-- The registers that an instruction reads whose number a register or its target gives: the data of a TIOP.st (R208), the record
of a LAUNCH (R322). -/
def lateRefs (s : State) (l : Launch) (g : Group) (f : Fld) : Instr → List Ref
  | .tiopSt _ =>
    if 256 ≤ f.b.toNat ∧ f.b.toNat < 384 then vRefs f.d.toNat (min (g.rs (f.b.toNat - 256)).toNat 32 * regsOf f.ty.toNat) else []
  | .launch _ | .launchTry _ =>
    let b : Nat := if f.b = 511 then f.lit.toNat else if 384 ≤ f.b.toNat then constVal 1 f.b.toNat else (g.rs (f.b.toNat - 256)).toNat
    match targetOf s l b f.a.toNat with
    | some (_, _, x) => vRefs f.a.toNat x.rw
    | none => []
  | _ => []

/-- The bytes of peer modules that have arrived for an agent's plain reads. -/
def gotOf (s : State) (ag : Agent) : Tab Byte := ((farOp? s ag).map (·.got)).getD []

/-- The number of a register in AUX of 0x0003 (R381). -/
def refCode : Ref → Nat
  | .v n => n
  | .s n => 256 + n
  | .p n => 512 + n

/-- Correctable errors in the registers of a group that an instruction reads are corrected, each in the lanes that it reads (R411). -/
def correctRegs (s : State) (key : Nat) (rs : List Ref) (reads : Ref → Nat → Bool) : State :=
  match s.group? key with
  | none => s
  | some g =>
    let hit (e : Nat × Nat) : Bool := rs.any fun r => refCode r == e.1 && reads r e.2
    if g.regFlaw.any hit then
      (g.regFlaw.filter hit).foldl (fun (s : State) _ => s.corrected) (s.modGroup key fun g => { g with regFlaw := g.regFlaw.filter fun e => !hit e })
    else s

/-- Correctable errors in the registers of a spool processor that an instruction reads are corrected (R411). -/
def correctSpool (s : State) (wid : Nat) (rs : List Ref) : State :=
  match (s.wg? wid).bind (·.spool) with
  | none => s
  | some p =>
    let hit (r : Nat) : Bool := decide (Ref.s r ∈ rs)
    if p.regFlaw.any hit then
      (p.regFlaw.filter hit).foldl (fun (s : State) _ => s.corrected)
        (s.modWg wid fun w => { w with spool := w.spool.map fun p => { p with regFlaw := p.regFlaw.filter fun r => !hit r } })
    else s

/-- The lane that SHFL reads for lane l: 0 up, 1 down, 2 xor, 3 idx (R200). -/
def shflSrc (mode off l : Nat) : Nat :=
  let src : Option Nat := match mode with
    | 0 => if off ≤ l then some (l - off) else none
    | 1 => some (l + off)
    | 2 => some (l ^^^ off)
    | _ => some off
  match src with
  | some x => if x < W then x else l
  | none => l

/-- The lanes of A that an instruction moves across lanes (R200, R203, R204): `none`, its own. -/
def Cx.laneOfA (cx : Cx) (l : Nat) : Option Nat :=
  match cx.i with
  | .shfl _ => some (shflSrc cx.f.mn.toNat (if cx.m = 1 then W / 2 ^ cx.b32 l else cx.b32 l) l)
  | .qswz _ => some (l / 4 * 4 + bits (cx.b32 l) (2 * (l % 4)) 2)
  | .qbc _ => some (l / 4 * 4 + cx.b32 l % 4)
  | .vreadl _ => some (cx.b32 0 % W)
  | _ => none

/-- Whether an instruction reads a register in a lane (R411): a v register in the active lanes, but the operand that moves across
lanes in those it comes from, and what SPILL stores in every lane of the launch mask. -/
def Cx.readsLane (cx : Cx) (r : Ref) (l : Nat) : Bool :=
  match r with
  | .s _ => true
  | .p _ | .v _ =>
    if (cx.laneOfA 0).isSome && r ∈ vRefs cx.f.a.toNat (regsOf cx.ty) then
      ((lanesIn cx.act).any fun k => cx.laneOfA k == some l) || (r == .v cx.f.b.toNat && cx.act.getLsbD l)
    else match cx.i with
      | .spill _ => cx.g.lmask.getLsbD l
      | _ => cx.act.getLsbD l

/-- The context of the issue of an encoded instruction by an agent that stands within a clause, from which every source is read
(R141), and the state in which the results readable now have landed and the choices of R138 are made. GN without a guard (G = 0)
guards nothing (log 75, DESIGN CHOICE). -/
def mkCx (s : State) (ag : Agent) (i : Instr) : Option (Cx × State) :=
  match enc i, ag with
  | none, _ => none
  | _, .none => none
  | some (f, r), .group c sl k =>
    match s.group? (gKey c sl) with
    | none => none
    | some g0 =>
      match g0.splits[k]?, s.wg? g0.wg with
      | some sp, some w =>
        match sp.cl, s.launch? w.lnch with
        | some cl, some l =>
          let g1 := g0.land s.clock
          let (ga, na) := viewOps (readRefs i) (opsOf s ag) g1 s.freeCtr
          let (g, n) := viewOps (lateRefs s l ga f i) (opsOf s ag) ga na
          let guard := if f.g = 0 ∨ r.op = 0 then BitVec.allOnes 64
            else if f.gn = 1 then ~~~(g.rp f.g.toNat) else g.rp f.g.toNat
          let cx : Cx := ⟨ag, gKey c sl, g0.wg, w, w.lnch, l, g, k, sp, cl, i, f, r, g0.lmask &&& sp.mask &&& guard, gotOf s ag⟩
          some (cx, correctRegs { s.setGroup (gKey c sl) g1 with freeCtr := n } (gKey c sl) (readRefs i ++ lateRefs s l g f i) cx.readsLane)
        | _, _ => none
      | _, _ => none
  | some (f, r), .spool wid =>
    match s.wg? wid with
    | none => none
    | some w =>
      match w.spool, s.launch? w.lnch with
      | some p, some l =>
        match p.cl with
        | some cl =>
          some (⟨ag, 0, wid, w, w.lnch, l, { wg := wid, grp := 16, s := p.s, regErr := p.regErr.map fun r => (256 + r, 0) }, 0, { v := true, pc := p.pc }, cl, i, f, r, 0, gotOf s ag⟩, correctSpool s wid (readRefs i))
        | none => none
      | _, _ => none

/-! ### Addresses -/

/-- Base A plus offset B in a lane (R215); `uniform`: the base is an s pair. -/
def Cx.addr (cx : Cx) (uniform : Bool) (l : Nat) : DWord :=
  (if uniform then cx.g.rs2 cx.f.a.toNat else cx.g.rv2 cx.f.a.toNat l) + cx.ofs l
/-- The path of an address (R46). -/
def pathOf (a : DWord) : Nat := bits a.toNat 56 8
/-- The addresses of the active lanes of LD, ST and ATOM, and the one of LDS, STS and PROMOTE. -/
def Cx.addrs (cx : Cx) : List DWord :=
  match cx.i with
  | .ld _ => (lanesIn cx.act).map (cx.addr (bit cx.f.mn.toNat 0))
  | .st _ => (lanesIn cx.actNH).map (cx.addr (bit cx.f.mn.toNat 0))
  | .lds _ | .sts _ | .promote _ => [cx.addr true 0]
  | .atom _ => (lanesIn cx.actNH).map fun l => if cx.m / 2 = 1 then cx.g.rs2 cx.f.a.toNat else cx.g.rv2 cx.f.a.toNat l
  | .atomOrd _ => [cx.g.rs2 cx.f.a.toNat]
  | _ => []

/-! ### Roles -/

/-- The role of a group (R369): 0 G, 1 F, 2 M, 3 D. -/
def Cx.role (cx : Cx) : Nat := bits cx.l.k.roles.toNat (2 * cx.g.grp) 2

/-- Whether the table of R41 admits an instruction to a role; the spool processor has none (R386). A TIOP on path 0x0C falls under the
table's TIOP row, and not under its row of stores on that path, which the manual leaves open (log 62). -/
def roleAdmits (cx : Cx) : Bool :=
  let op := cx.r.op.toNat
  let role := cx.role
  cx.onSpool || role == 0 ||
  (if op < 0x20 then true
   else if op < 0x40 || op == 0x4A then role != 2
   else if op == 0x42 || op == 0x40 || op == 0x41 || op == 0x43 || op == 0x44 || op == 0x45 || op == 0x49 then
     role == 1 || (role == 3 && !(cx.addrs.any fun a => pathOf a == 12))
   else if op == 0x46 then role == 1
   else if op == 0x47 || op == 0x48 || (0x50 ≤ op && op ≤ 0x53) || op == 0x64 then true
   else if op == 0x54 then (if cx.f.a = 0 then role == 3 else role != 2)
   else if op == 0x55 then role != 2
   else if op == 0x60 || op == 0x61 then role == 1
   else if op == 0x62 || op == 0x63 then role == 2
   else if 0x79 ≤ op then role != 2
   else false)

/-! ### Deterministic mode -/

/-- Whether an instruction raises the deterministic-mode trap (R336, R389). -/
def detForbids (cx : Cx) : Bool :=
  cx.l.det && (match cx.i with
    | .atom f | .ld f | .st f | .lds f | .sts f | .fence f => 2 ≤ f.c.toNat / 8 % 8
    | .promote _ | .nswap _ | .launchTry _ | .qpopTry _ | .sprecvTry _ => true
    | _ => false)

/-! ### Counters -/

/-- The path that a FILL takes from its base; TIOP.ld from its record's BASE (R218). -/
def Cx.basePath (cx : Cx) : Nat :=
  match cx.i with
  | .tiopLd f => bits ((Tab.get [] cx.g.ti f.a.toNat).getD 1 0).toNat 24 8
  | _ => pathOf (cx.g.rs2 (cx.f.b.toNat - 256))

/-- Whether a path counts on f4 (R218). -/
def globalPath (p : Nat) : Bool := p == 0 || p == 1 || p == 14

/-- The in-flight counter that an instruction raises (R218); the spool processor has none. -/
def counterOf (cx : Cx) : Option Nat :=
  if cx.onSpool then none
  else match cx.i with
    | .lcopy f => some (f.c.toNat / 8 % 4)
    | .ld _ | .lds _ => some (if cx.addrs.isEmpty || cx.addrs.any (fun a => !(pathOf a ∈ [8, 9, 12])) then 4 else 5)
    | .fill _ | .tiopLd _ => some (if cx.basePath ∈ [8, 9, 12] then 5 else 4)
    | .promote _ => some 4
    | .st _ | .sts _ | .atom _ | .atomOrd _ | .spill _ | .tiopSt _ | .nswap _ => some 6
    | .boxt _ | .fdin _ | .trit _ | .rtrace _ | .drawv _ => some 7
    | _ => none

/-- The token that an instruction raises (R137). -/
def tokenOf (cx : Cx) : Option Nat := if cx.r.tk && !cx.onSpool then some cx.f.tk.toNat else none

/-! ### The checks at issue -/

/-- A trap at issue: TRAPADDR is the instruction's parcel 0 (R380, R381). -/
def Cx.trap (cx : Cx) (cause : Nat) (aux : DWord) : Trap :=
  { cause := BitVec.ofNat 16 cause, info := infoOf cx.r.op.toNat cx.cl.idx 0, addr := cx.cl.at_, aux := aux, atIssue := true }

/-- The registers that an instruction reads. -/
def srcRefs (s : State) (cx : Cx) : List Ref := readRefs cx.i ++ lateRefs s cx.l cx.g cx.f cx.i

/-- The first register that an instruction reads whose fixed-latency result of this split is not yet readable, or whose
variable-latency write of this split is outstanding, with the cycles that are left. It goes by the registers named, whatever the
active lanes: the manual does not say whether an instruction without one reads them (log 79, DESIGN CHOICE). -/
def lateReg (s : State) (cx : Cx) : Option (Ref × Nat) :=
  (srcRefs s cx).findSome? fun r => match cx.g.fixes.find? fun e => e.split == cx.k && decide (r ∈ e.wrs.map Wr.ref) with
    | some e => some (r, e.ready - s.clock)
    | none => match (opsOf s cx.ag).find? fun o => o.split == cx.k && decide (r ∈ o.refs) with
      | some o => some (r, o.due - s.clock)
      | none => none

/-- The stall-count check under CHKSB = 1 (R139, R385); a retried trap of it waits for its register instead (R394). -/
def stallTrap (s : State) (cx : Cx) : Option Trap :=
  if !cx.g.chksb || cx.sp.again == 2 then none
  else (lateReg s cx).map fun x => cx.trap 0x0003 (BitVec.ofNat 64 (refCode x.1 + x.2 * 2 ^ 32))

/-- A read register that holds an uncorrectable error in a lane that is read (R411, R412). -/
def regErrTrap (s : State) (cx : Cx) : Option Trap :=
  match (srcRefs s cx).find? fun r => cx.g.regErr.any fun e => e.1 == refCode r && cx.readsLane r e.2 with
  | none => none
  | some r => some (cx.trap 0x004F (BitVec.ofNat 64 (refCode r)))

/-- Whether an instruction traps at its issue, whatever holds it or whatever it waits for (R384). -/
def trapsFirst (s : State) (cx : Cx) : Bool := (stallTrap s cx).isSome || !roleAdmits cx || detForbids cx

/-! ### Holds -/

/-- The registers that an instruction will write, the register count of TIOP.ld read where it is a register's. -/
def destRefs (cx : Cx) : List Ref :=
  match cx.i with
  | .tiopLd f => vRefs f.d.toNat (min (cx.b32 0) 32 * regsOf f.ty.toNat)
  | i => writeRefs i

/-- Whether a TIOP of a handle of a group is outstanding (R208). -/
def handleBusy (s : State) (cx : Cx) (h : Nat) : Bool :=
  (opsOf s cx.ag).any fun o => match o.k with
    | .tiop x => x.hnd == h
    | _ => false

/-- The dies that own tiles of a view of some pixels (R296). -/
def diesOf (width height : Nat) : List Nat :=
  if width = 0 ∨ height = 0 then [] else (List.range 3).filter fun d => d ≤ (width + 15) / 16 + (height + 15) / 16 - 2

/-- The dies of the view that a view record describes, as far as it can be read. -/
def viewDies (s : State) (w : Who) (a : DWord) : List Nat :=
  match resolve s w .engRead none a 128 128 with
  | .error _ => []
  | .ok (hs, _) =>
    let n (i : Nat) : Nat := natOfBytes (((hs.drop i).take 2).map fun h => s.byte h.key)
    diesOf (n 0x44) (n 0x46)

/-! ### What an issue translates -/

/-- The record of a handle. -/
def Group.tiRec (g : Group) (h : Nat) : List Word := Tab.get [] g.ti h
/-- A word of a record. -/
def tiWord (r : List Word) (k : Nat) : Nat := (r.getD k 0).toNat
/-- E0 to E3. -/
def tiExt (r : List Word) (j : Nat) : Nat := bits (tiWord r (2 + j / 2)) (16 * (j % 2)) 16
/-- I0 to I3. -/
def tiIx (r : List Word) (j : Nat) : Nat := bits (tiWord r (8 + j / 2)) (16 * (j % 2)) 16
/-- BASE. -/
def tiBase (r : List Word) : DWord := BitVec.ofNat 64 (tiWord r 0 + 2 ^ 32 * tiWord r 1)
/-- ST0 to ST3. -/
def tiStr (r : List Word) (j : Nat) : Int := toSigned 32 (tiWord r (4 + j))
/-- KDONE. -/
def tiKdone (r : List Word) : Nat := bits (tiWord r 10) 0 6
/-- The position P. -/
def tiPos (r : List Word) : Nat := tiIx r 0 + tiExt r 0 * (tiIx r 1 + tiExt r 1 * (tiIx r 2 + tiExt r 2 * tiIx r 3))
/-- The total T. -/
def tiTot (r : List Word) : Nat := tiExt r 0 * tiExt r 1 * tiExt r 2 * tiExt r 3
/-- The digits of an element, or the end form. -/
def tiDigits (r : List Word) (e : Nat) : List Nat :=
  if e < tiTot r then [e % tiExt r 0, e / tiExt r 0 % tiExt r 1, e / tiExt r 0 / tiExt r 1 % tiExt r 2,
    e / tiExt r 0 / tiExt r 1 / tiExt r 2]
  else [0, 0, 0, tiExt r 3]
/-- The address of an element with a lane's offset, on BASE's path. -/
def tiAddr (r : List Word) (e : Nat) (ofs : Word) : DWord :=
  let sum : Int := (tiDigits r e).zipIdx.foldl (fun a dj => a + dj.1 * tiStr r dj.2) 0
  let a := tiBase r + BitVec.ofInt 64 (sum + toSigned 32 ofs.toNat)
  (tiBase r).extractLsb' 56 8 ++ a.extractLsb' 0 56
/-- The accesses of step k of a TIOP: the active lanes whose element exists. -/
def tiReqsOf (r : List Word) (act : Mask) (ofs : Nat → Word) (ty k : Nat) : List Req :=
  (lanesIn act).filterMap fun l =>
    let e := tiPos r + k * W + l
    if e < tiTot r then some (some l, tiAddr r e (ofs l), tyBits ty / 8) else none

/-- The length of an LCOPY. -/
def Cx.lcLen (cx : Cx) : Nat := 4 * 2 ^ (cx.f.c.toNat % 8)
/-- The valid bytes of an LCOPY in a lane. -/
def Cx.lcN (cx : Cx) (l : Nat) : Nat := min (cx.b32 l) cx.lcLen
/-- The source base of an LCOPY in a lane. -/
def Cx.lcSrc (cx : Cx) (l : Nat) : DWord := if bit cx.f.mn.toNat 0 then cx.g.rs2 cx.f.a.toNat else cx.g.rv2 cx.f.a.toNat l
/-- The destination base of an LCOPY in a lane. -/
def Cx.lcDst (cx : Cx) (l : Nat) : DWord := if bit cx.f.mn.toNat 1 then cx.g.rs2 cx.f.d.toNat else cx.g.rv2 cx.f.d.toNat l

/-- The spilled stack entries that an instruction of the split may move: those that pushes spill, those that pops bring back (R36). -/
def Cx.stackReqs (cx : Cx) (pops : Bool) : List Req :=
  let n := min 16 cx.g.stks
  if pops then (if cx.g.stks ≠ 0 ∧ cx.g.stack.length ≤ 1 then [(none, cx.g.spillBase + BitVec.ofNat 64 (24 * (cx.g.stks - n)), 24 * n)] else [])
  else if 31 ≤ cx.g.stack.length ∧ 24 * (cx.g.stks + 16) ≤ cx.g.spillSize then
    [(none, cx.g.spillBase + BitVec.ofNat 64 (24 * cx.g.stks), 24 * 16)]
  else []

/-- The accesses whose pages an instruction translates before it issues (R401): by lane, address and bytes. -/
def Cx.reaches (cx : Cx) : List Req :=
  let size : Nat := if bit cx.f.mn.toNat 1 then 16 else tyBits cx.ty / 8
  match cx.i with
  | .ld _ => (lanesIn cx.act).map fun l => (some l, cx.addr (bit cx.f.mn.toNat 0) l, size)
  | .st _ => (lanesIn cx.actNH).map fun l => (some l, cx.addr (bit cx.f.mn.toNat 0) l, size)
  | .lds _ | .sts _ | .promote _ => [(none, cx.addr true 0, size)]
  | .atom _ => (lanesIn cx.actNH).map fun l =>
      (some l, if cx.m / 2 = 1 then cx.g.rs2 cx.f.a.toNat else cx.g.rv2 cx.f.a.toNat l, tyBits cx.ty / 8)
  | .atomOrd _ => [(none, cx.g.rs2 cx.f.a.toNat, tyBits cx.ty / 8)]
  | .lcopy _ => (lanesIn cx.actNH).flatMap fun l => [(some l, cx.lcSrc l, cx.lcN l), (some l, cx.lcDst l, cx.lcLen)]
  | .spill _ => [(none, cx.g.rs2 (cx.f.b.toNat - 256) + BitVec.ofNat 64 (cx.c32 0), 16 + 4 * W)]
  | .fill _ => [(none, cx.g.rs2 (cx.f.b.toNat - 256) + BitVec.ofNat 64 (cx.c32 0), 16)]
  | .nswap _ => [(none, cx.g.rs2 cx.f.a.toNat, 4)]
  | .brx _ | .callx _ => (none, cx.g.rs2 cx.f.a.toNat, 8) :: cx.stackReqs false
  | .brv _ => cx.stackReqs false
  | .join _ | .joinT _ => cx.stackReqs true
  | .tiopLd f | .tiopSt f =>
    let act := match cx.i with
      | .tiopSt _ => cx.actNH
      | _ => cx.act
    let ofs (l : Nat) : Word := if f.c = 384 then 0 else BitVec.ofNat 32 (cx.c32 l)
    (List.range (min (cx.b32 0) 32)).flatMap (tiReqsOf (cx.g.tiRec (f.a.toNat % 4)) act ofs cx.ty)
  | _ => []

/-- Whether an instruction on a core that the drogue is halting would wait for a walk or a tag check, which it then is halted
before (R401). On a core that runs, the walk and the check answer at once (log 70). -/
def walkPending (s : State) (cx : Cx) : Bool :=
  (s.core cx.core).halted && cx.reaches.any fun r => (vasOf cx.who r.1 r.2.1 r.2.2).any fun va =>
    match tlbFind s (dieOf cx.core) cx.l.ctx.asid (va / 2 ^ 16) with
    | none => true
    | some e => bit e.leaf.toNat 7

/-- Whether an instruction makes an access that its split orders with its others (R60). -/
def accesses (cx : Cx) : Bool :=
  match cx.i with
  | .ld _ | .lds _ | .st _ | .sts _ | .atom _ | .atomOrd _ | .promote _ | .nswap _ | .fill _ | .spill _ | .tiopLd _ | .tiopSt _
  | .lcopy _ | .tcopy _ | .coll _ | .mloopNew _ | .mloopAcc _ | .mpub _ | .boxt _ | .fdin _ | .trit _ | .rtrace _ | .drawv _ => true
  | _ => false

/-- Whether an instruction releases what its split has done, to another agent (R61, R62). -/
def handsOn (cx : Cx) : Bool :=
  match cx.i with
  | .fence _ | .bara _ | .spreq _ | .launch _ | .launchTry _ | .qpush _ | .stadv _ | .stjmp _ | .slnext _ | .slend _ | .join _
  | .joinT _ | .exit _ => true
  | _ => false

/-- Whether an operation is an acquire whose value is still to come: from a peer module, or of an ordered-atomic site (R229). -/
def Op.farAcquire (o : Op) : Bool := !o.done && o.acq && (!o.tags.isEmpty || (match o.k with
  | .atomOrd _ _ _ landed => !landed
  | _ => false))

/-- Whether requests of an agent's operations to peer modules have not been acknowledged or answered. -/
def farOut (s : State) (cx : Cx) : Bool :=
  (opsOf s cx.ag).any fun o => o.split == cx.k && (!o.tags.isEmpty || s.ports.any fun x => x.2.kept.any fun r => r.op == o.id)

/-- Whether accesses to peer modules hold an issue (log 12, DESIGN CHOICE): an access, an engine's or a release while the split has
an acquire that is not answered (R61, R70); a release or a FENCE at .fab or .sys, and what is .ar, while requests of the split are
not acknowledged or answered (R61, R64, R233). -/
def farHeld (s : State) (cx : Cx) : Bool :=
  ((farOp? s cx.ag).any fun o => !o.tags.isEmpty || o.fault.isSome) ||
  ((accesses cx || handsOn cx) && (opsOf s cx.ag).any fun o => o.split == cx.k && o.farAcquire) ||
  ((match cx.i with
    | .fence _ => cx.f.c.toNat % 8 == 4 || 4 ≤ cx.f.c.toNat / 8 % 8
    | .ld _ | .lds _ | .st _ | .sts _ | .atom _ | .atomOrd _ =>
      cx.f.c.toNat % 8 == 4 || (cx.f.c.toNat % 8 == 3 && 4 ≤ cx.f.c.toNat / 8 % 8)
    | _ => false) && farOut s cx) ||
  (match cx.i with
    | .sys _ => farOut s cx
    | _ => false)

/-- Whether the issue is held in place (R25): a token at 63, a destination outstanding, a counter at 255, a handle in
use, the sequencer queue full, the mailbox full, 8 copies in progress on the core, 16 passes on a die, a walk (R401), peer
modules, a register of a retried stall-count trap; on the spool processor also a source that has not landed (R262). -/
def held (s : State) (cx : Cx) : Bool :=
  let out := (opsOf s cx.ag).flatMap Op.refs
  walkPending s cx || farHeld s cx || (cx.sp.again == 2 && (lateReg s cx).isSome) ||
  (match tokenOf cx with
    | some n => 63 ≤ cx.g.tok n
    | none => false) ||
  (destRefs cx).any (fun r => decide (r ∈ out)) ||
  (cx.onSpool && (srcRefs s cx).any fun r => decide (r ∈ out)) ||
  (match counterOf cx with
    | some n => 255 ≤ cx.g.cnt n
    | none => false) ||
  (match cx.i with
    | .tiset f => handleBusy s cx (f.d.toNat % 4)
    | .tiget f | .tiopLd f | .tiopSt f | .tiopAdv f => handleBusy s cx (f.a.toNat % 4)
    | .mloopNew _ | .mloopAcc _ | .mpub _ => 8 ≤ (s.core cx.core).mx.queue.length
    | .spreq _ => (match cx.w.spool with
        | some p => p.run && 32 ≤ cx.w.mbox.length
        | none => false)
    | .tcopy _ => 8 ≤ (s.ops.filter fun o => (match o.k with
        | .tcopy .. => true
        | _ => false) && (s.wg? o.wg).any fun w => w.core == cx.core && !w.saved).length
    | .drawv _ => (viewDies s cx.who (cx.g.rs2 cx.f.a.toNat)).any fun d =>
        16 ≤ (s.passes.filter fun p => decide (d ∈ p.dies)).length
    | _ => false)

/-! ### Staged loops -/

/-- The stage-table entry of an iteration (R309). -/
def Wg.ent (w : Wg) (i : Nat) : SEnt := Tab.get {} w.ents (i % 32)
/-- Whether a claimed iteration is finished (R309). -/
def Wg.finished (w : Wg) (i : Nat) : Bool :=
  let e := w.ent i
  e.v && ((e.it.toNat == i && e.stg == 0xFFFF) || i < e.it.toNat)
/-- The stage of a claimed iteration that is not finished (R309). -/
def Wg.stageOf (w : Wg) (i : Nat) : Nat :=
  let e := w.ent i
  if e.v && e.it.toNat == i then e.stg.toNat else 0
/-- Whether entry k mod 32 may be taken for iteration k (R312). -/
def Wg.entryFree (w : Wg) (k : Nat) : Bool := k < 32 || w.finished (k - 32)
/-- Whether the window admits iteration k (R312). -/
def Wg.windowOpen (w : Wg) (k : Nat) : Bool := match w.loop with
  | some o => k < o.t || w.finished (k - o.t)
  | none => false

/-! ### Work graphs -/

/-- The lists of numbers in lexicographic order. -/
def keyLt : List Nat → List Nat → Bool
  | [], [] => false
  | [], _ => true
  | _, [] => false
  | a :: as, b :: bs => a < b || (a == b && keyLt as bs)

/-- The groups of a workgroup, resident or saved. -/
def wgGroups (s : State) (wid : Nat) (w : Wg) : List Group :=
  if w.saved then s.saves.flatMap fun sv => (sv.2.saved.filter fun e => e.1 / 64 == wid).map (·.2)
  else w.slots.filterMap fun sl => s.group? (gKey w.core sl)

/-- Whether a record of a lower key than `key` can still arrive at node n (R323): a workgroup of a task producer with a
lower key has not retired, or its own workgroup has a group below that has not exited. -/
def lowerCanArrive (s : State) (g : Graph) (n : Nat) (key : List Nat) : Bool :=
  g.edges.any fun e => e.2.1 == n && e.2.2 == 2 && (match g.nodes[e.1]? with
    | none => false
    | some p => !p.complete && (e.1 < key.getD 0 0 || (e.1 == key.getD 0 0 &&
        (match p.lnch with
          | none => !p.started
          | some l => match s.launch? l with
            | none => false
            | some y => (List.range (key.getD 1 0)).any (fun ix => !decide (ix ∈ y.done)) ||
                s.wgs.any fun w => w.2.lnch == l && w.2.ix == key.getD 1 0 &&
                  (wgGroups s w.1 w.2).any fun gr => gr.grp < key.getD 2 0 && !gr.exited))))

/-- Put a record in the queue of a deterministic launch by key. -/
def insertKey (r : TaskRec) : List TaskRec → List TaskRec
  | [] => [r]
  | x :: xs => if keyLt r.key x.key then r :: x :: xs else x :: insertKey r xs

/-- The records of a queue that may be served now, in order (R241, R323). -/
def servable (s : State) (det : Bool) (g : Graph) (n : Nat) (x : Node) : List TaskRec :=
  if det then
    (x.queue.takeWhile fun r => r.key.isEmpty || !lowerCanArrive s g n r.key)
  else x.queue

/-- The target of a LAUNCH. -/
def launchTarget (s : State) (cx : Cx) : Option (Nat × Nat × Node) := targetOf s cx.l (cx.b32 0) cx.f.a.toNat

/-! ### The conditions of the waiting instructions -/

/-- Whether a traversal's sample precedes generation g (R118). -/
def precedes (x g : Word) : Bool :=
  let d := (g - x).toNat
  1 ≤ d && d < 2 ^ 31

/-- The instruction at the head of a clause's rest. -/
def headInstr (c : Clause) : Option Instr :=
  match c.rest with
  | [] => none
  | p0 :: ps => match decodeParcels {} p0 (ps.getD 0 0) (ps.getD 1 0) with
    | .ok i => some i
    | .error _ => none

/-- Whether a split waits at a pop of a queue. -/
def Split.pops (x : Split) (q0 : Bool) : Bool := x.v && x.block == 1 && (match x.cl.bind headInstr with
  | some (.qpop f) => (f.a == 0) == q0
  | _ => false)

/-- Whether a pop must be served before one of this split: one that another split of the group issued earlier, or of a lower group
slot of the core that reached the same queue in the same cycle (R242). -/
def earlierPop (s : State) (cx : Cx) (q0 : Bool) : Bool :=
  let since := if cx.sp.block = 1 then cx.sp.since else s.clock
  (cx.g.splits.zipIdx.any fun x => x.2 != cx.k && x.1.pops q0 && x.1.since < since) ||
  s.groups.any fun e => e.1 / 48 == cx.gk / 48 && e.1 < cx.gk && (q0 || (s.wg? e.2.wg).any fun w => w.lnch == cx.lid) &&
    e.2.splits.any fun x => x.pops q0 && x.since == since

/-- Whether the wait of a waiting instruction is over; it is also where its issue traps. -/
def waitMet (s : State) (cx : Cx) : Bool :=
  match cx.i with
  | .waitf f => cx.g.cnt (f.d.toNat % 8) ≤ min (cx.b32 0) 255
  | .barw f => (cx.w.bar (f.d.toNat % 16)).ph != bit (cx.b32 0) 0
  | .gdrain _ =>
    !(s.ops.any fun o => !o.done && ((s.launch? o.lnch).any fun l => l.ctx.slice == cx.l.ctx.slice) && (match o.k with
        | .rtrace _ _ _ _ gen => precedes gen (BitVec.ofNat 32 (cx.b32 0))
        | .drawv _ gen => precedes gen (BitVec.ofNat 32 (cx.b32 0))
        | _ => false))
  | .qpop f =>
    !earlierPop s cx (f.a == 0) &&
    if f.a = 0 then !(s.core cx.core).mx.pub.isEmpty
    else match nodeOf s cx.l with
      | none => true
      | some (_, g, n, x) =>
        let have_ := (servable s cx.l.det g n x).length
        popMask cx.actNH ≤ have_ || (x.closed && have_ == x.queue.length)
  | .launch _ =>
    match launchTarget s cx with
    | none => true
    | some (_, _, x) => cx.l.det || popMask cx.actNH ≤ x.cap - x.used
  | .sprecv _ => !cx.w.mbox.isEmpty
  | .waitl _ =>
    match cx.g.iter with
    | none => true
    | some i => !cx.g.hold || i == 0 || cx.w.finished (i.toNat - 1) || min (cx.b32 0) 0xFFFF ≤ cx.w.stageOf (i.toNat - 1)
  | .slnext _ =>
    match cx.g.claim with
    | some k => cx.g.lp == 1 && (cx.w.ent k.toNat).it == k && cx.w.windowOpen k.toNat
    | none => cx.g.lp != 2
  | _ => true

/-- Whether the holder of a deterministic workgroup's turn passes it at this unmet wait (R335). -/
def passesAt (s : State) (cx : Cx) : Bool :=
  match cx.i with
  | .barw f => !(s.ops.any fun o => o.wg == cx.wid && !o.done && o.bar == some (f.d.toNat % 16))
  | .qpop f => f.a == 0 && (s.core cx.core).mx.queue.isEmpty
  | .waitl _ | .slnext _ | .sprecv _ => true
  | _ => false

/-- The stall count of a clause's next instruction (R136). -/
def Clause.stall (c : Clause) : Nat := bits (c.rest.headD 0).toNat 2 3
/-- The first cycle in which it may issue. -/
def Clause.issueAt (c : Clause) : Nat := c.base + c.stall

/-- The clause that an agent stands in, and what blocks it. -/
def clauseOf (s : State) : Agent → Option (Clause × Nat)
  | .none => none
  | .group c sl k => match s.group? (gKey c sl) with
    | none => none
    | some g => match (g.splits.getD k {}).cl with
      | some cl => some (cl, (g.splits.getD k {}).block)
      | none => none
  | .spool w => match s.wg? w with
    | none => none
    | some x => match x.spool with
      | none => none
      | some p => p.cl.map fun cl => (cl, p.block)

/-- The agent of a party of a workgroup's cycle (R335). -/
def agentOf (x : Wg) (wid party : Nat) : Agent :=
  if party = 64 then .spool wid else .group x.core (x.slots.getD (party / 4) 0) (party % 4)

/-- Whether an issue has an effect that does not wait: a QPOP of q1 ends the hold of earlier records (R242). -/
def endsHold (cx : Cx) : Bool := match cx.i with
  | .qpop f => f.a != 0 && !cx.g.held.isEmpty
  | _ => false

/-- Whether an instruction, issued now, would wait. -/
def wouldWait (s : State) (cx : Cx) : Bool :=
  isWaiting cx.r.op.toNat cx.f.mn.toNat && !trapsFirst s cx && (regErrTrap s cx).isNone && !waitMet s cx

/-- Whether an agent stands at a waiting instruction whose wait is not over (R331). -/
def atUnmetWait (s : State) (ag : Agent) (c : Clause) : Bool :=
  match headInstr c with
  | none => false
  | some i => match mkCx s ag i with
    | none => false
    | some (cx, s1) => wouldWait s1 cx && !endsHold cx

/-- Whether an agent stands at an unmet wait at which the turn passes (R335). -/
def waitsPassing (s : State) (ag : Agent) : Bool :=
  (match ag with
    | .group c sl k => (match s.group? (gKey c sl) with
        | some g => (g.splits.getD k {}).st != 0
        | none => false)
    | _ => false) ||
  (match clauseOf s ag with
    | some (cl, _) => cl.started && cl.issueAt ≤ s.clock && (match headInstr cl with
      | none => false
      | some i => match mkCx s ag i with
        | none => false
        | some (cx, s1) => wouldWait s1 cx && !endsHold cx && !held s1 cx && passesAt s1 cx)
    | none => false)

/-- Pass the turn over parties that are gone or that stand at a wait that passes it, at most `n` times (R335). -/
def settleTurnN (s : State) (wid : Nat) : Nat → State
  | 0 => s
  | n + 1 => match s.wg? wid with
    | none => s
    | some x =>
      let ps := parties s x
      if ps.isEmpty then s
      else if !decide (x.turn ∈ ps) || waitsPassing s (agentOf x wid x.turn) then
        settleTurnN (passTurn s wid) wid n
      else s

/-- Settle the turn of a workgroup of a deterministic launch. -/
def settleTurn (s : State) (wid : Nat) : State :=
  match s.wg? wid with
  | none => s
  | some x => if !x.saved && (s.launch? x.lnch).any (·.det) then settleTurnN s wid (parties s x).length else s

end Sys2Proof.Machine
end

