-- ==== Sys2Proof/Machine/Access.lean ====
section
/-! DEFINITION. Accesses to memory on behalf of an instruction, the traps they give (R399 to R402), and the
reconvergence stack with its spill area, divergence, joins and fusion (R31 to R38). -/

namespace Sys2Proof.Machine

open Sys2Proof

/-! ### Traps of an access -/

/-- A memory fault as a trap at issue (R399, R403). -/
def Cx.mtrap (cx : Cx) (m : MFault) : Trap :=
  { cx.trap m.cause m.aux with walk := m.page.map fun p => (dieOf cx.core, p), far := m.far, late := m.late }

/-! ### Accesses -/

/-- The alignment that R51 requires of an access of `n` bytes: its size where it is marked, or lies on a vault or
operand-buffer path; else none. -/
def alignFor (marked : Bool) (a : DWord) (n : Nat) : Nat := if marked || pathOf a ∈ [8, 9, 12] then n else 1
/-- The alignment to the size itself. -/
def natural (_ : DWord) (n : Nat) : Nat := n

/-- A read that no race concerns: a table, a spilled stack entry. A poisoned byte faults (R400 check 6), which is deferred (R401). The bytes of peer modules
that an agent's read needs are asked for first (R373, log 16). -/
def readPlain (s : State) (w : Who) (k : AccK) (a : DWord) (n al : Nat) : Except MFault (List Byte × State) :=
  match resolveAll s w k true (fun _ _ => al) [(none, a, n)] with
  | .error e => .error e
  | .ok (hs, s1) =>
    let hits := hs.flatMap (·.2)
    let far := if w.asks then farHits w.got hits else []
    if !far.isEmpty then .error { cause := 0, aux := 0, page := none, far := far }
    else match anyPoison s1 hits with
    | some key => .error { cause := 0x4E, aux := poisonAux key, page := none, late := true }
    | none => .ok (readHits s1 w true (hits.map fun h => { h with tracked := false }))

/-- A write that no race concerns. -/
def writePlain (s : State) (w : Who) (a : DWord) (al : Nat) (bs : List Byte) : Except MFault State :=
  match resolveAll s w .store true (fun _ _ => al) [(none, a, bs.length)] with
  | .error e => .error e
  | .ok (hs, s1) => .ok (writeHits s1 w true ((hs.flatMap (·.2)).map fun h => { h with tracked := false }) bs)

/-- A number read from memory, least significant byte first. -/
def readNum (s : State) (w : Who) (k : AccK) (a : DWord) (n : Nat) : Except MFault (Nat × State) :=
  match readPlain s w k a n (if n ∈ [1, 2, 4, 8] then n else 1) with
  | .error e => .error e
  | .ok (bs, s1) => .ok (natOfBytes bs, s1)

/-- Read bytes one after another, each of which must translate. -/
def readBlock (s : State) (w : Who) (k : AccK) (a : DWord) (n al : Nat) : Except MFault (Nat → Nat → Nat) :=
  match readPlain s w k a n al with
  | .error e => .error e
  | .ok (bs, _) => .ok fun off len => natOfBytes ((bs.drop off).take len)

/-! ### The reconvergence stack (R31, R36) -/

/-- A stack entry in the spill area. -/
def StackEnt.bytes (e : StackEnt) : List Byte :=
  bytesOfNat 8 e.mask.toNat ++ bytesOfNat 8 (e.pc.toNat + e.owner % 4 * 2 ^ 56) ++
  bytesOfNat 8 (match e.j with
    | some j => j.toNat + 2 ^ 63
    | none => 0)

/-- The entry that 24 bytes of the spill area hold. -/
def stackEntOf (bs : List Byte) : StackEnt :=
  let m := natOfBytes (bs.take 8)
  let p := natOfBytes ((bs.drop 8).take 8)
  let j := natOfBytes ((bs.drop 16).take 8)
  ⟨BitVec.ofNat 56 p, BitVec.ofNat 64 m, if bit j 63 then some (BitVec.ofNat 56 j) else none, bits p 56 2⟩

/-- The address of spilled entry i. -/
def Group.spillAt (g : Group) (i : Nat) : DWord := g.spillBase + BitVec.ofNat 64 (24 * i)

/-- Write entries to the spill area from index i on. -/
def spillOut (s : State) (w : Who) (g : Group) : Nat → List StackEnt → Except MFault State
  | _, [] => .ok s
  | i, e :: es => match writePlain s w (g.spillAt i) 8 e.bytes with
    | .error m => .error m
    | .ok s1 => spillOut s1 w g (i + 1) es

/-- Read `n` entries of the spill area from index i on. -/
def spillIn (s : State) (w : Who) (g : Group) (i : Nat) : Nat → Except MFault (List StackEnt × State)
  | 0 => .ok ([], s)
  | n + 1 => match readPlain s w .load (g.spillAt i) 24 8 with
    | .error m => .error m
    | .ok (bs, s1) => match spillIn s1 w g (i + 1) n with
      | .error m => .error m
      | .ok (es, s2) => .ok (stackEntOf bs :: es, s2)

/-- The operation of a spill to a peer module, which stays outstanding until it is accepted. -/
def Cx.spillOp (cx : Cx) (s : State) : Op :=
  { id := 0, ag := cx.ag, wg := cx.wid, lnch := cx.lid, k := .store, pc := cx.cl.at_, opc := cx.r.op.toNat, idx := cx.cl.idx
    split := cx.k, due := s.clock, core := cx.core, grp := cx.g.grp, at_ := s.clock }

/-- Write entries of an agent's stack to the spill area. -/
def spillBy (s : State) (cx : Cx) (g : Group) (i : Nat) (es : List StackEnt) : Except MFault State :=
  (spillOut s { cx.who with op := some s.nextId } g i es).map fun s1 => keepFar s1 (cx.spillOp s)

/-- Push an entry: with 32 on chip the 16 oldest are spilled first; a push past the end of the area is the
stack-overflow trap (R36, R381). -/
def pushEnt (s : State) (cx : Cx) (e : StackEnt) : Except Trap State :=
  match s.group? cx.gk with
  | none => .ok s
  | some g =>
    if g.stack.length < 32 then .ok (s.setGroup cx.gk { g with stack := g.stack ++ [e] })
    else if g.spillSize < 24 * (g.stks + 16) then
      .error (cx.trap 0x000F (BitVec.ofNat 64 (g.spillSize / 24 * 2 ^ 32)))
    else match spillBy s cx g g.stks (g.stack.take 16) with
      | .error m => .error (cx.mtrap m)
      | .ok s1 => .ok (s1.setGroup cx.gk { g with stack := g.stack.drop 16 ++ [e], stks := g.stks + 16 })

/-- The index of the topmost entry that split k owns. -/
def topOwned (es : List StackEnt) (k : Nat) : Option Nat :=
  (List.range es.length).reverse.find? fun i => (es.getD i ⟨0, 0, none, 4⟩).owner == k

/-- After a pop: with nothing left on chip, up to 16 of the newest spilled entries return (R36). -/
def refill (s : State) (cx : Cx) : Except Trap State :=
  match s.group? cx.gk with
  | none => .ok s
  | some g =>
    if !g.stack.isEmpty || g.stks = 0 then .ok s
    else
      let n := min 16 g.stks
      match spillIn s cx.who g (g.stks - n) n with
      | .error m => .error (cx.mtrap m)
      | .ok (es, s1) => .ok (s1.setGroup cx.gk { g with stack := es, stks := g.stks - n })

/-- The newest spilled entry below index i that split k owns, read from the top of the area downwards: its index, the entry,
and those above it (R36). -/
def findSpilled (s : State) (w : Who) (g : Group) (k : Nat) :
    Nat → List StackEnt → Except MFault (Option (Nat × StackEnt × List StackEnt) × State)
  | 0, _ => .ok (none, s)
  | i + 1, above => match readPlain s w .load (g.spillAt i) 24 8 with
    | .error m => .error m
    | .ok (bs, s1) =>
      let e := stackEntOf bs
      if e.owner = k then .ok (some (i, e, above), s1) else findSpilled s1 w g k i (e :: above)

/-- Pop the topmost entry whose owner is split k, on chip or from the spill area, whose gap is closed (R36). -/
def popEnt (s : State) (cx : Cx) (k : Nat) : Except Trap (Option StackEnt × State) :=
  match s.group? cx.gk with
  | none => .ok (none, s)
  | some g =>
    match topOwned g.stack k with
    | some i =>
      match refill (s.setGroup cx.gk { g with stack := g.stack.eraseIdx i }) cx with
      | .error t => .error t
      | .ok s1 => .ok (g.stack[i]?, s1)
    | none =>
      match findSpilled s cx.who g k g.stks [] with
      | .error m => .error (cx.mtrap m)
      | .ok (none, s1) => .ok (none, s1)
      | .ok (some (i, e, above), s1) =>
        match spillBy s1 cx g i above with
        | .error m => .error (cx.mtrap m)
        | .ok s2 => .ok (some e, s2.setGroup cx.gk { g with stks := g.stks - 1 })

/-! ### Divergence and fusion -/

/-- The index of the first element that a test admits. -/
def firstIdx {α : Type} (p : α → Bool) (xs : List α) : Option Nat := xs.findIdx? p

/-- The first cycle in which the next clause of a split that issues now may start (R125, R136). -/
def nextClauseAt (s : State) (g : Group) (k : Nat) (y : Bool) : Nat :=
  max (g.lastReady k) (if y then s.clock + 2 else s.clock + 1)

/-- A split that a separation makes follows everything that the splitting one has done (R60); its place was another's before. -/
def splitHb (s : State) (g : Group) (k k' : Nat) : State :=
  let me := laneMe g.wg g.grp k
  let new := laneMe g.wg g.grp k'
  let a := s.agHb new
  (s.setHb new { epoch := a.epoch + 1, start := a.epoch + 1, clk := s.relClk me, fences := (s.agHb me).fences }).bump me

/-- One separation of R32 and R38 by split `k`, which holds T and R: in the tables the split keeps T and the lowest
free split gets R; else two entries are pushed, `defer` says whether R (a BRV) or T (a BRX) is deferred, and the
split goes on with the other. The answer names the split that holds R, or the one that goes on. -/
def separate (s : State) (cx : Cx) (k : Nat) (t r : Mask × BitVec 56) (jb : BitVec 56) (deferR : Bool) :
    Except Trap (State × Nat) :=
  match s.group? cx.gk with
  | none => .ok (s, k)
  | some g =>
    let sp := g.splits.getD k {}
    match firstIdx (fun x => !x.v) g.splits, firstIdx (fun (x : JoinEnt) => !x.v) g.joins with
    | some k', some e =>
      if sp.n = 0 then
        let nb := nextClauseAt s g cx.k false
        let taken : Split := { sp with pc := addr56 t.2, mask := t.1, j := some jb, je := e, age := 0, st := 0 }
        let fall : Split := { v := true, pc := addr56 r.2, mask := r.1, j := some jb, je := e, notBefore := nb }
        let ent : JoinEnt := ⟨true, jb, sp.mask, 0, sp.j, sp.je⟩
        .ok (splitHb (s.setGroup cx.gk { g with splits := (g.splits.set k taken).set k' fall, joins := g.joins.set e ent }) g k k', k')
      else stackSep g sp
    | _, _ => stackSep g sp
where
  stackSep (_ : Group) (sp : Split) : Except Trap (State × Nat) :=
    let d := if deferR then r else t
    let c := if deferR then t else r
    match pushEnt s cx ⟨jb, sp.mask, sp.j, k⟩ with
    | .error x => .error x
    | .ok s1 => match pushEnt s1 cx ⟨d.2, d.1, some jb, k⟩ with
      | .error x => .error x
      | .ok s2 => .ok (s2.modGroup cx.gk fun g => g.modSplit k fun x =>
          { x with pc := addr56 c.2, mask := c.1, j := some jb, n := x.n + 2 }, k)

/-- Fuse a completed join entry (R33). -/
def Group.fuse (g : Group) (e : Nat) : Group :=
  let ent := g.joins.getD e {}
  match firstIdx (fun (x : Split) => x.v && x.je == e && x.st != 0) g.splits with
  | none => g
  | some f =>
    { g with
      splits := g.splits.zipIdx.map fun xi =>
        if xi.2 = f then { xi.1 with mask := ent.jm, j := ent.oj, je := ent.out, pc := addr56 ent.ja, age := 0, st := 0, cl := none, block := 0, timer := 0 }
        else if xi.1.v && xi.1.je == e then {} else xi.1
      joins := g.joins.set e {} }

/-- Fuse an entry if its arrivals are complete and it is in use. -/
def Group.fuseIf (g : Group) (e : Nat) : Group :=
  let ent := g.joins.getD e {}
  if ent.v && ent.arr == ent.jm then g.fuse e else g

/-- A split arrives at its join entry; `timed` gives the timer of a JOIN.T (R33, R35). -/
def Group.arriveJoin (g : Group) (k : Nat) (timed : Option Nat) : Group :=
  let sp := g.splits.getD k {}
  let g1 := { g with joins := g.joins.modify sp.je fun e => { e with arr := e.arr ||| sp.mask } }
  let st := match timed with
    | some _ => 2
    | none => 1
  (g1.modSplit k fun x => { x with st := st, timer := timed.getD 0, cl := none, block := 0 }).fuseIf sp.je

/-- An arrival at a join is a release by its split; where it fuses the entry, the fused split acquires every arriving one (R34,
R62). `g`: the group before. -/
def joinHb (s : State) (key : Nat) (g : Group) (k : Nat) : State :=
  let e := (g.splits.getD k {}).je
  let ent := g.joins.getD e {}
  let s1 := (s.released (laneMe g.wg g.grp k)).release (partyGroup key)
  let ks := (List.range 4).filter fun i => i == k || ((g.splits.getD i {}).v && (g.splits.getD i {}).je == e && (g.splits.getD i {}).st != 0)
  if (ent.arr ||| (g.splits.getD k {}).mask) = ent.jm then
    s1.learn (laneMe g.wg g.grp (ks.headD k)) (ks.foldl (fun c i => c.join (s1.relClk (laneMe g.wg g.grp i))) [])
  else s1

/-- Whether a split's timer has run out (R35). -/
def Split.expired (x : Split) : Bool := x.v && x.st == 2 && x.timer == 0

/-- An entry that fuses as timers run out: the fused split acquires those that waited (R34, R35). -/
def expireHb (s : State) (g g' : Group) : State :=
  (List.range 3).foldl (fun (s : State) e =>
    let ks := (List.range 4).filter fun i => (g.splits.getD i {}).v && (g.splits.getD i {}).je == e && (g.splits.getD i {}).st != 0 &&
      !(g.splits.getD i {}).expired
    if (g.joins.getD e {}).v && !(g'.joins.getD e {}).v && !ks.isEmpty then
      s.learn (laneMe g.wg g.grp (ks.headD 0)) (ks.foldl (fun c i => c.join (s.relClk (laneMe g.wg g.grp i))) [])
    else s) s

/-- The splits whose timer has run out leave their entries in ascending index; then the fusion check is made (R35). An entry whose
members have all left (JM = ARR = 0) holds no split to fuse: the manual names no fate for it, and the model frees it (log 73,
DESIGN CHOICE). -/
def Group.expire (g : Group) : Group :=
  let due := (List.range g.splits.length).filter fun k => (g.splits.getD k {}).expired
  let step (g : Group) (k : Nat) : Group :=
    let sp := g.splits.getD k {}
    let e := g.joins.getD sp.je {}
    { g with
      joins := g.joins.set sp.je { e with jm := e.jm &&& ~~~sp.mask, arr := e.arr &&& ~~~sp.mask }
      splits := g.splits.set k { sp with j := e.oj, je := e.out, st := 0 } }
  let g1 := due.foldl step g
  let ents := (due.map fun k => (g.splits.getD k {}).je).eraseDups
  ents.foldl (fun g e => if (g.joins.getD e {}).jm == 0 then { g with joins := g.joins.set e {} } else g.fuseIf e) g1

/-- Whether a group is converged (R37). -/
def Group.converged (g : Group) (k : Nat) : Bool :=
  let sp := g.splits.getD k {}
  g.splitsUsed == 1 && sp.mask == g.lmask && sp.n == 0 && g.joinsUsed == 0 && g.stack.isEmpty && g.stks == 0

end Sys2Proof.Machine
end

