-- ==== Sys2Proof/Machine/Time.lean ====
section
/-! DEFINITION. Who may issue (R331, R332, R335), and the join timers (R35). -/

namespace Sys2Proof.Machine

open Sys2Proof

/-- TKW of a header. -/
def tkwOf (hdr : DWord) : Nat := bits hdr.toNat 16 16
/-- FZW of a header. -/
def fzwOf (hdr : DWord) : Nat := bits hdr.toNat 32 8

/-- Whether the tokens and counters that a header names let a group start the clause (R125). -/
def Group.headerMet (g : Group) (hdr : DWord) : Bool :=
  (List.range 16).all (fun n => !(bit (tkwOf hdr) n) || g.tok n == 0) &&
  (List.range 8).all (fun n => !(bit (fzwOf hdr) n) || g.cnt n == 0)

/-! ### Who may issue -/

/-- The pipe of a major opcode (R332). -/
def pipeOf (op : Nat) : Nat := if op < 0x20 then 0 else if op < 0x40 then 1 else 2

/-- Whether a split stands within a clause, or before a waiting instruction that is held in place (R331, R219). -/
def Split.within (x : Split) : Bool := x.v && x.cl.any fun c => c.inside || (c.started && x.block == 2)

/-- Whether a core's issue slots and a pipe are free in this cycle (R332). -/
def pipeFree (s : State) (core pipe : Nat) : Bool :=
  let now := s.groups.filter fun (e : Nat × Group) => e.1 / 48 == core && e.2.issued == s.clock + 1
  now.length < 2 && (now.filter fun e => e.2.pipe == pipe).length < (if pipe = 1 then 2 else 1)

/-- Whether the party of a deterministic workgroup holds the turn (R335). -/
def hasTurn (s : State) (ag : Agent) : Bool :=
  match agentWg s ag with
  | none => true
  | some w => match s.wg? w with
    | none => true
    | some x => match s.launch? x.lnch with
      | none => true
      | some l => !l.det || x.turn == partyOf s ag

/-- Whether an agent is stopped at a boundary by a freeze or a halt of its core (R390, R339). -/
def heldBack (s : State) (w core : Nat) : Bool :=
  frozen s w || (s.core core).halted || (match s.wg? w with
    | some x => x.saved || (match s.launch? x.lnch with
      | some l => l.killed
      | none => true)
    | none => true)

/-- Whether an agent stands where it may issue or return, its pipe and the other splits' claims apart: its group is in the active
set and not in a swap, no other split of the group is within a clause, it holds the turn, it is not trapped, and unless it is
within a clause, before no held instruction, its workgroup is not stopped (R331, R332, R335, R339, R390). -/
def mayReturn (s : State) (ag : Agent) : Bool :=
  match ag with
  | .none => false
  | .group core slot k => match s.group? (gKey core slot) with
    | none => false
    | some g =>
      let sp := g.splits.getD k {}
      let c := s.core core
      sp.v && sp.st == 0 && !g.exited && !g.trapped &&
      !(g.splits.zipIdx.any fun xi => xi.2 != k && xi.1.within) && decide (slot ∈ c.active) &&
      !(c.swap.any fun x => x.1 == slot || x.2.1 == some slot) &&
      (sp.running || !heldBack s g.wg core) && hasTurn s ag
  | .spool w => match s.wg? w with
    | none => false
    | some x => match x.spool with
      | none => false
      | some p => p.run && !x.saved && !p.trapped && hasTurn s ag &&
        ((p.block == 0 && p.cl.any Clause.inside) || !heldBack s w x.core)

/-- Whether an agent may issue an instruction of a major opcode in this cycle, its clause apart: it has not issued yet, and a pipe
is free (R332). -/
def canRun (s : State) (ag : Agent) (op : Nat) : Bool :=
  mayReturn s ag && (match ag with
    | .none => false
    | .group core slot _ => (s.group? (gKey core slot)).any (fun g => g.issued ≤ s.clock) && pipeFree s core (pipeOf op)
    | .spool w => ((s.wg? w).bind (·.spool)).any fun p => p.issued ≤ s.clock)

/-! ### Join timers -/

/-- Whether time stands still for a group: its workgroup is frozen (R390), or its core halted (R35, R339). -/
def stopped (s : State) (key : Nat) (g : Group) : Bool := frozen s g.wg || (s.core (key / 48)).halted

/-- The run-out timers of a group, where time passes for it. -/
def expireAt (s : State) (e : Nat × Group) : Nat × Group := if stopped s e.1 e.2 then e else (e.1, e.2.expire)

end Sys2Proof.Machine
end

