-- ==== Sys2Proof/Machine/Issue.lean ====
section
/-! DEFINITION. The issue of an encoded instruction: its checks in the order of R384, its holds, its effect, and the
advance of its clause; how results are written (R136, R137); how outstanding operations complete; the clause check
(R382). -/

namespace Sys2Proof.Machine

open Sys2Proof

/-- What the body of an instruction answers: it is done and the clause goes on; it has moved the split (whose clause
ends); it traps; it waits. -/
inductive Eff where
  | done (s : State)
  | jump (s : State)
  | trap (t : Trap)
  | wait (s : State)
  deriving Repr

/-- Set what blocks an agent: 1 at a waiting instruction, since the cycle in which it reached it, 2 at a held one. -/
def setBlock (s : State) (ag : Agent) (b : Nat) : State :=
  match ag with
  | .none => s
  | .group c sl k => s.modGroup (gKey c sl) fun g => g.modSplit k fun x =>
      { x with block := b, since := if x.block = 1 then x.since else s.clock }
  | .spool w => s.modWg w fun x => { x with spool := x.spool.map fun p => { p with block := b } }

/-- Whether a clause yields (R125, R163). -/
def Clause.yields (c : Clause) : Bool := c.y || bit c.hdr.toNat 11

/-- A split past the instruction it has issued (R136). -/
def Split.advance (x : Split) (n t nb : Nat) : Split :=
  match x.cl with
  | none => x
  | some c => match c.next n t with
    | some c' => { x with cl := some c', age := 0, block := 0, again := 0 }
    | none => { x with pc := nextHeader x.pc c.hdr, cl := none, age := 0, block := 0, again := 0, notBefore := nb }

/-- The clause of an agent after an instruction that leaves it in its clause stream. -/
def advance (s : State) (cx : Cx) : State :=
  let n := lenCode cx.r cx.f + 1
  match cx.ag with
  | .none => s
  | .group _ _ k => s.modGroup cx.gk fun g =>
      let y := match (g.splits.getD k {}).cl with
        | some c => c.yields
        | none => false
      { g.modSplit k (·.advance n s.clock (nextClauseAt s g k y)) with
        issued := s.clock + 1, issuedBy := k, pipe := pipeOf cx.r.op.toNat }
  | .spool w => s.modWg w fun x => { x with spool := x.spool.map fun p => match p.cl with
      | none => p
      | some c => match c.next n s.clock with
        | some c' => { p with cl := some c', block := 0, issued := s.clock + 1 }
        | none => { p with pc := nextHeader p.pc c.hdr, cl := none, block := 0, notBefore := s.clock + 1, issued := s.clock + 1 } }

/-- The clause of an agent that has been moved: it ends. -/
def leave (s : State) (cx : Cx) : State :=
  match cx.ag with
  | .none => s
  | .group _ _ k => s.modGroup cx.gk fun g =>
      { g.modSplit k (fun x => if x.v then { x with cl := none, age := 0, block := 0, again := 0, notBefore := nextClauseAt s g k cx.cl.yields } else x) with
        issued := s.clock + 1, issuedBy := k, pipe := pipeOf cx.r.op.toNat }
  | .spool w => s.modWg w fun x => { x with spool := x.spool.map fun p =>
      { p with cl := none, block := 0, notBefore := s.clock + 1, issued := s.clock + 1 } }

/-- Whether an agent stands outside any clause. -/
def clauseDone (s : State) (ag : Agent) : Bool := (clauseOf s ag).isNone

/-- After an issue in a deterministic workgroup the turn passes at the end of a clause with Y = 1, and from a party
that is gone or waits (R335). -/
def afterIssue (s : State) (cx : Cx) : State :=
  if cx.l.det then
    let y := match clauseOf s cx.ag with
      | none => cx.cl.yields || (cx.r.op == 1 && !cx.onSpool)
      | some _ => false
    settleTurn (if y then passTurn s cx.wid else s) cx.wid
  else s

/-- What an effect comes to, register errors apart. An access that has bytes of peer modules to ask for first is held (R373, log
16), and so is one whose plain read has met a poisoned byte, until its deferred fault is acted on (R402). -/
def outcome (s1 : State) (cx : Cx) : Eff → Host.Outcome State Fault Refusal
  | .done s2 => .next (afterIssue (advance (forgetFar s2 cx.ag) cx) cx)
  | .jump s2 => .next (afterIssue (leave (forgetFar s2 cx.ag) cx) cx)
  | .wait s2 => .next (afterIssue (setBlock s2 cx.ag 1) cx)
  | .trap t =>
    if t.late then .next (setBlock (deferFar s1 cx.ag cx.wid cx.lid cx.l.ctx.ns t) cx.ag 2)
    else if t.far.isEmpty then .next (raise (forgetFar s1 cx.ag) cx.ag t)
    else .next (setBlock (askFar s1 cx.ag cx.wid cx.lid cx.l.ctx.ns t) cx.ag 2)

/-- Whether an effect is a trap of the checks before the memory faults (R384). -/
def Eff.early : Eff → Bool
  | .trap t => t.cause < 0x40
  | _ => false

/-- UEADDR of an error in a register of a core (R413). -/
def corePlace (core : Nat) : DWord := BitVec.ofNat 64 (core % 48 * 2 ^ 38 + dieOf core * 2 ^ 46 + 2 * 2 ^ 48)

/-- What an effect comes to. A register error is a memory cause: it gives way to the earlier checks of R384. -/
def finish (s1 : State) (cx : Cx) (e : Eff) : Host.Outcome State Fault Refusal :=
  match regErrTrap s1 cx with
  | none => outcome s1 cx e
  | some t => if e.early then outcome s1 cx e else .next (raise (s1.foundUe (corePlace cx.core) false) cx.ag t)

/-- The issue of an encoded instruction by the agent that `cur` names: the checks of R384 in order, the holds, then the
instruction's own effect. -/
def issue (i : Instr) (s : State) (body : Cx → State → Eff) : Host.Outcome State Fault Refusal :=
  match mkCx s s.cur i with
  | none => .fault .noAgent
  | some (cx, s1) =>
    match stallTrap s1 cx with
    | some t => .next (raise s1 cx.ag t)
    | none =>
      if !roleAdmits cx then .next (raise s1 cx.ag (cx.trap 0x0004 (BitVec.ofNat 64 cx.role)))
      else if detForbids cx then .next (raise s1 cx.ag (cx.trap 0x000E 0))
      else if held s1 cx then .next (setBlock s1 cx.ag 2)
      else finish s1 cx (body cx s1)

/-- The group of an agent with the record of its last issue as it was: the end of a wait takes no issue slot (R316). -/
def keepIssued (s : State) (ag : Agent) (t : State) : State :=
  match agentKey ag, (agentKey ag).bind s.group? with
  | some key, some g => t.modGroup key fun x => { x with issued := g.issued, issuedBy := g.issuedBy, pipe := g.pipe }
  | _, _ => t

/-- Whether the tokens and counters that a header names let its agent start (R125); a spool processor has none. -/
def headerReady (s : State) (ag : Agent) (c : Clause) : Bool :=
  match ag with
  | .group core sl _ => (s.group? (gKey core sl)).any fun g => g.headerMet c.hdr
  | _ => true

/-- A start acquires what was released to the tokens and counters that its header names (R62). -/
def startHears (s : State) (ag : Agent) (hdr : DWord) : State :=
  match ag with
  | .group core sl _ => match s.group? (gKey core sl) with
    | none => s
    | some g =>
      let toks := ((List.range 16).filter (bit (tkwOf hdr))).map fun n => Chan.tok g.wg g.grp n
      let cnts := ((List.range 8).filter (bit (fzwOf hdr))).map fun n => Chan.cnt g.wg g.grp n
      (toks ++ cnts).foldl (fun (s : State) c => s.hear (agentMe s ag) c) s
  | _ => s

/-- The return of a waiting instruction at which an agent stands and whose wait is over: its effect, as at its issue. It stands
at a clause start: what its header names must hold then too, and what was released to it is acquired (R125, R331); nothing may hold it
(R137, R138). -/
def resume (name : String) (ag : Agent) (s : State) (mine : Instr → Bool) (body : Cx → State → Eff) :
    Host.Outcome State Fault Refusal :=
  match clauseOf s ag with
  | some (cl, 1) => match headInstr cl with
    | none => .fault (.notEnabled name)
    | some i => match mkCx s ag i with
      | none => .fault (.notEnabled name)
      | some (cx, s0) =>
        let s1 := startHears s0 ag cl.hdr
        if mine i && mayReturn s0 ag && headerReady s0 ag cl && waitMet s1 cx && !held s1 cx then match finish s1 cx (body cx s1) with
          | .next t => .next (keepIssued s1 ag t)
          | x => x
        else .fault (.notEnabled name)
  | _ => .fault (.notEnabled name)

/-! ### Results -/

/-- The latency of a fixed-latency row (R146). -/
def latOf (cx : Cx) : Nat := match cx.r.lat with
  | .fix n => n
  | .fixF => if cx.ty = 11 then 8 else 4
  | .var | .no => 0

/-- Writes to a spool processor's s registers. -/
def Spool.writes (p : Spool) (ws : List Wr) : Spool :=
  let g : Group := { wg := 0, grp := 16, s := p.s, regErr := p.regErr.map fun r => (256 + r, 0) }
  let g' := g.writes ws
  let gone (r : Nat) : Bool := ws.any fun w => w.ref == .s r
  { p with s := g'.s, regErr := g'.regErr.map (fun e => e.1 - 256), regFlaw := p.regFlaw.filter fun r => !gone r }
/-- Writes to the registers of a workgroup's spool processor. -/
def Wg.spoolWrites (x : Wg) (ws : List Wr) : Wg := { x with spool := x.spool.map (·.writes ws) }

/-- A fixed-latency result (R136); the interlocked spool processor's lands before its next instruction (R262). -/
def addFix (s : State) (cx : Cx) (ws : List Wr) : State :=
  match cx.ag with
  | .spool w => s.modWg w (·.spoolWrites ws)
  | _ => s.modGroup cx.gk fun g => { g with fixes := g.fixes ++ [{ ready := s.clock + latOf cx, split := cx.k, wrs := ws }] }

/-- An iterator record that lands with the latency of its instruction (R207). -/
def addFixTi (s : State) (cx : Cx) (h : Nat) (r : List Word) : State := s.modGroup cx.gk fun g =>
  { g with fixes := g.fixes ++ [{ ready := s.clock + latOf cx, split := cx.k, wrs := [], ti := some (h, r) }] }

/-- Merge flags into FPSTAT (R80). -/
def mergeFlags (s : State) (key : Nat) (fl : BitVec 5) : State := s.modGroup key fun g => { g with fpstat := g.fpstat ||| fl }

/-- A fixed-latency result with flags, merged in issue order (R80). -/
def addFixF (s : State) (cx : Cx) (ws : List Wr) (fl : BitVec 5) : State := mergeFlags (addFix s cx ws) cx.gk fl

/-- Whether an operation makes engine accesses, as an agent of its own (R66, R70). -/
def OpK.engine : OpK → Bool
  | .lcopy .. | .mloop .. | .tcopy .. | .coll .. | .trav .. | .rtrace .. | .drawv .. => true
  | _ => false

/-- The slot of the issuing group. -/
def Cx.slotNo (cx : Cx) : Nat := match cx.ag with
  | .group _ sl _ => sl
  | _ => 0

/-- An operation record of this instruction. -/
def mkOp (s : State) (cx : Cx) (k : OpK) (ws : List Wr) (fl : BitVec 5) (bar : Option Nat) : Op :=
  { id := s.nextId, ag := cx.ag, wg := cx.wid, lnch := cx.lid, k := k, pc := cx.cl.at_, opc := cx.r.op.toNat, idx := cx.cl.idx
    par0 := cx.cl.rest.headD 0, par1 := cx.cl.rest.getD 1 0, split := cx.k, tok := tokenOf cx, cnt := counterOf cx
    wrs := ws, flags := fl, bar := bar, due := s.clock + 1 + Config.latency s.nextId
    core := cx.core, slot := cx.slotNo, grp := cx.g.grp, at_ := s.clock, acq := cx.who.acq, ord := (ordOf cx.i).1, scp := cx.who.scp
    rels := ownRels s cx.who, settled := cx.who.ar || (cx.who.acq && (s.agHb cx.me).readRel.any (·.reaches cx.who))
    me := cx.me, epoch := (s.agHb cx.me).epoch, fences := (s.agHb cx.me).fences, histAt := s.histLen }

/-- The past of the operation to start next: all that its agent has done so far, whose next epoch begins (R62, R70). -/
def startHb (s : State) (cx : Cx) : State :=
  let me := agentMe s cx.ag
  (s.setHb (opMe s.nextId) { clk := s.relClk me }).bump me

/-- Start a variable-latency or counted operation: its token and counter rise (R137, R218). -/
def startOp (s : State) (cx : Cx) (k : OpK) (ws : List Wr) (fl : BitVec 5 := 0) (bar : Option Nat := none) : State :=
  let o := mkOp s cx k ws fl bar
  let s0 := startHb s cx
  let s1 := { s0 with ops := s0.ops ++ [o], nextId := s0.nextId + 1 }
  if cx.onSpool then s1
  else s1.modGroup cx.gk fun g =>
    let g1 := match o.tok with
      | some n => g.tokUp n
      | none => g
    match o.cnt with
    | some n => g1.cntUp n
    | none => g1

/-- Land writes in a group: they were issued after every result still on its way to the same register (R136, R138). -/
def Group.landWrs (g : Group) (ws : List Wr) : Group :=
  if g.exited then g else { g.writes ws with fixes := g.fixes.map fun e => e.under ws }

/-- Change an operation. -/
def State.modOp (s : State) (id : Nat) (f : Op → Op) : State :=
  let f' (o : Op) : Op := if o.id = id then f o else o
  { s with ops := s.ops.map f' }

/-- Mark an operation as completed. -/
def State.opDone (s : State) (id : Nat) : State := s.modOp id fun o => { o with done := true }

/-- An operation. -/
def State.op? (s : State) (id : Nat) : Option Op := s.ops.find? fun o => o.id == id

/-- What an operation orders before its completion takes in what its agent has done for it since (R62): the agent's next epoch begins. -/
def opFollows (s : State) (o : Op) : State := (s.setHb (opMe o.id) { clk := s.relClk o.me }).bump o.me

/-- Whether the workgroup of an operation stands saved in a context save area. -/
def opSaved (s : State) (o : Op) : Bool := (s.wg? o.wg).any (·.saved)

/-- What a hardware traversal has done goes to the GDRAINs of later generations (R292), and that of a DRAWV pass to the end of its
launch (R300). -/
def travHb (s : State) (o : Op) : State :=
  let past := s.relClk (opMe o.id)
  let slice := (s.launch? o.lnch).elim 0 (·.ctx.slice)
  match o.k with
  | .rtrace _ _ _ _ gen => s.post (.trav slice gen.toNat) past
  | .drawv _ gen => (s.post (.trav slice gen.toNat) past).post (.ended o.lnch) past
  | _ => s

/-- What the completion of an operation releases goes to its token, and for a group's own ends its race region (R62, R406); its
counter has it once it falls. -/
def completeHb (s : State) (o : Op) : State :=
  match o.ag, o.tok with
  | .group c sl _, some n => match s.group? (gKey c sl) with
    | some g =>
      let s1 := s.post (.tok g.wg g.grp n) (s.relClk (opMe o.id))
      if o.byEngine then s1 else s1.release (agentParty o.ag)
    | none => s
  | _, _ => s

/-- An operation completes: its writes land, its flags merge, its token falls, its barrier arrival is made, its counter
falls in issue order (R137, R80, R218, R219, R236). -/
def completeHere (s0 : State) (o : Op) : State :=
  let s := completeHb s0 o
  let s1 := match o.ag with
    | .none => s
    | .group c sl _ => s.modGroup (gKey c sl) fun g =>
        let g1 := g.landWrs o.wrs
        let g2 := { g1 with fpstat := g1.fpstat ||| o.flags }
        match o.tok with
        | some n => g2.tokDown n
        | none => g2
    | .spool w => s.modWg w (·.spoolWrites o.wrs)
  let s2 := match o.bar with
    | some b => s1.arriveAt o.wg b 1 (s1.relClk (opMe o.id))
    | none => s1
  reap (lowerCounters (s2.opDone o.id)) o.lnch

/-- An operation completes; that of a saved workgroup becomes a late completion, which waits to be applied (R340). -/
def completeOp (s : State) (o : Op) : State :=
  if opSaved s o then s.modOp o.id fun _ => { o with k := .reg } else completeHere s o

/-- A deferred fault of an outstanding operation (R402). -/
def deferFault (s : State) (id : Nat) (t : Trap) : State := s.modOp id fun o => { o with fault := some { t with op := some id } }

/-- The trap of an operation that stops: TRAPADDR names its instruction (R402). -/
def opTrap (o : Op) (cause : Nat) (aux : DWord) : Trap :=
  { cause := BitVec.ofNat 16 cause, info := infoOf o.opc o.idx 0, addr := o.pc, aux := aux, atIssue := true, op := some o.id }

/-- Move the issuing agent to an address: the split's PC, or the spool processor's. -/
def setPc (s : State) (cx : Cx) (a : DWord) : State :=
  match cx.ag with
  | .none => s
  | .group _ _ k => s.modGroup cx.gk fun g => g.modSplit k fun x => { x with pc := addr56 (pc56 a) }
  | .spool w => s.modWg w fun x => { x with spool := x.spool.map fun p => { p with pc := addr56 (pc56 a) } }

/-- The fetch checks made at a transfer: those of an address on another path than 0x00 and 0x01, which no PC holds (R399, R400), and the
fetch right of the page (R56, R126). -/
def targetOk (s : State) (cx : Cx) (a : DWord) : Option Trap :=
  if 1 < pathOf a then match resolve s cx.who .fetch none a 8 4 with
    | .error e => some (cx.trap e.2 a)
    | .ok _ => none
  else match leafOf s (dieOf cx.core) cx.l.ctx (bits a.toNat 0 56) with
    | .ok (e, _) => if bit e 5 then some { cx.trap 0x0048 a with walk := some (dieOf cx.core, bits a.toNat 16 40) } else none
    | .error _ => none

/-- A transfer to an address. -/
def jumpTo (s : State) (cx : Cx) (a : DWord) : Eff :=
  match targetOk s cx a with
  | some t => .trap t
  | none => .jump (setPc s cx a)

/-- A release by the issuing agent: its race region and its epoch end (R61, R62, R406). -/
def releaseBy (s : State) (cx : Cx) : State := releaseTo s cx.ag []

/-! ### Leaving a staged loop -/

/-- The stage counter of an iteration of a workgroup's open loop (R62). -/
def stageChan (s : State) (wid : Nat) (it : Option Word) : Chan :=
  .stage wid (((s.wg? wid).bind (·.loop)).elim 0 (·.id)) ((it.getD 0).toNat)

/-- Change the stage-table entry of an iteration of a workgroup. -/
def State.modEnt (s : State) (wid i : Nat) (f : SEnt → SEnt) : State :=
  s.modWg wid fun w => { w with ents := Tab.put w.ents (i % 32) (f (w.ent i)) }

/-- A claim of a group that waits for its entry takes it once that is free (R312). -/
def takeEntry (s : State) (wid key : Nat) : State :=
  match s.wg? wid, (s.group? key).bind (·.claim) with
  | some w, some k => if w.entryFree k.toNat then s.modEnt wid k.toNat fun _ => ⟨true, k, 0⟩ else s
  | _, _ => s

/-- The claims of a workgroup's groups that wait for their entries take those that are free. -/
def takeEntries (s : State) (wid : Nat) : State :=
  match s.wg? wid with
  | none => s
  | some w => w.slots.foldl (fun s sl => takeEntry s wid (gKey w.core sl)) s

/-- Finish the iteration that a group holds (R312, R315), by its agent: its entry passes all stages, a release at .wg. -/
def finishIter (s : State) (ag : Agent) (key : Nat) : State :=
  match s.group? key with
  | none => s
  | some g =>
    if !g.hold then s
    else
      let s1 := s.modEnt g.wg (g.iter.getD 0).toNat fun e => { e with stg := 0xFFFF }
      takeEntries (releaseTo (s1.setGroup key { g with hold := false, iter := none, stage := 0 }) ag [stageChan s g.wg g.iter]) g.wg

/-- A group claims the next iteration of its open loop, with the register and token of its SLNEXT (R312). -/
def claimNext (s : State) (wid key : Nat) (f : Fld) : State :=
  match (s.wg? wid).bind (·.loop) with
  | none => s
  | some o =>
    let s1 := s.modWg wid fun w => { w with loop := some { o with next := o.next + 1 } }
    takeEntry (s1.modGroup key fun g => { g with claim := some o.next, claimReg := f.d.toNat, claimTok := f.tk.toNat }) wid key

/-- The SLNEXT at which a split of a group waits. -/
def Group.atSlnext (g : Group) : Option Fld :=
  g.splits.findSome? fun x => match x.block, x.cl.bind headInstr with
    | 1, some (.slnext f) => some f
    | _, _ => none

/-- The SLNEXTs that waited for a loop to open claim in ascending group slot (R312, R316). -/
def claimWaiting (s : State) (wid : Nat) : State :=
  match s.wg? wid with
  | none => s
  | some w => (sortNats w.slots).foldl (fun (s : State) sl => match s.group? (gKey w.core sl), (s.wg? wid).bind (·.loop) with
      | some g, some o => match g.atSlnext with
        | some f => if g.lp = 1 ∧ g.claim = none ∧ o.next < o.n then claimNext s wid (gKey w.core sl) f else s
        | none => s
      | _, _ => s) s

/-- The stage counters of a workgroup's loop are gone. -/
def dropStages (s : State) (wid : Nat) : State :=
  { s with hb := { s.hb with chans := s.hb.chans.filter fun e => match e.1 with
      | .stage w _ _ => w != wid
      | _ => true } }

/-- Close the open loop when all its members have ended; a pending loop then opens, and its members with it (R315). -/
def closeLoop (s : State) (wid : Nat) : State :=
  match s.wg? wid with
  | none => s
  | some w => match w.loop with
    | none => s
    | some o =>
      if o.ended < o.mem then s
      else
        let opened : Option SLoop := w.pendLoop.map fun p => { p with next := 0 }
        let s1 := (dropStages s wid).modWg wid fun x => { x with loop := opened, pendLoop := none, ents := [] }
        claimWaiting { s1 with groups := s1.groups.map fun (e : Nat × Group) =>
            (e.1, if e.2.wg = wid ∧ e.2.lp = 2 then { e.2 with lp := 1 } else e.2) } wid

/-- The loops of every workgroup are settled as a cycle ends, after its joins, departures and stage writes: one whose members have all
ended closes, a pending one opens, and the SLNEXTs that waited for it claim (R316). -/
def closeLoops (s : State) : State := s.wgs.foldl (fun (s : State) w => closeLoop (closeLoop s w.1) w.1) s

/-- SLEND (R315): the held iteration is finished, and the group leaves its loop, which closes as the cycle ends. -/
def leaveLoop (s : State) (ag : Agent) (key : Nat) : State :=
  match s.group? key with
  | none => s
  | some g =>
    if g.lp = 0 then s
    else
      let s1 := finishIter s ag key
      let s2 := s1.modGroup key fun x => { x with lp := 0 }
      s2.modWg g.wg fun w =>
        if g.lp = 1 then { w with loop := w.loop.map fun o => { o with ended := o.ended + 1 } }
        else { w with pendLoop := w.pendLoop.map fun o => { o with ended := o.ended + 1 } }

/-! ### The clause check (R382) -/

/-- What the clause check knows of who runs the clause (R383). -/
def kinfo (l : Launch) (spool : Bool) : KInfo := { regs := l.k.regs, staged := l.k.staged, nsite := l.k.nsite, spool := some spool }

/-- A trap of the clause check. -/
def checkTrap (pc : DWord) (cause reason op idx : Nat) (aux : DWord) : Trap :=
  { cause := BitVec.ofNat 16 cause, info := infoOf op idx reason, addr := pc, aux := aux, atIssue := false }

/-- Delimit the instructions by their L fields: the parcels of each, or the index and first parcel with L = 3. -/
def delimit : Nat → List Word → Nat → Except (Nat × Word × Word) (List (List Word))
  | 0, _, _ => .ok []
  | _ + 1, [], _ => .ok []
  | n + 1, p :: ps, idx =>
    let l := p.toNat % 4
    if l = 3 then .error (idx, p, ps.getD 0 0)
    else match delimit n (ps.drop l) (idx + 1) with
      | .error e => .error e
      | .ok is => .ok ((p :: ps.take l) :: is)

/-- The first failure of the encoding checks and of clause reasons 3 to 5, in ascending index (R382 step 3). -/
def checkInstrs (k : KInfo) (pc hdr : DWord) (last : Nat) : List (List Word) → Nat → Bool → Option Trap
  | [], _, _ => none
  | ps :: rest, idx, waited =>
    let p0 := ps.headD 0
    let p1 := ps.getD 1 0
    let op := bits p0.toNat 5 7
    let mn := if ps.length < 2 then 0 else bits p1.toNat 18 4
    let ecl := bits hdr.toNat 9 2
    match decodeParcels k p0 p1 (ps.getD 2 0) with
    | .error r => some (checkTrap pc 0x0002 r op idx (p1 ++ p0))
    | .ok _ =>
      if opClass op ≠ 0 ∧ opClass op ≠ ecl then some (checkTrap pc 0x0001 3 op idx hdr)
      else if isControl op ∧ idx ≠ last then some (checkTrap pc 0x0001 4 op idx hdr)
      else if isWaiting op mn ∧ (idx ≠ 0 ∨ waited) then some (checkTrap pc 0x0001 5 op idx hdr)
      else checkInstrs k pc hdr last rest (idx + 1) (waited || isWaiting op mn)

/-- The header's own checks (R122, R382 step 1). -/
def checkHeader (k : KInfo) (pc hdr : DWord) : Option Trap :=
  if bits hdr.toNat 12 4 ≠ 0 ∨ bits hdr.toNat 40 24 ≠ 0 then some (checkTrap pc 0x0001 0 0 0 hdr)
  else if k.spool = some true ∧ (tkwOf hdr ≠ 0 ∨ fzwOf hdr ≠ 0) then some (checkTrap pc 0x0001 6 0 0 hdr)
  else none

/-- The checks of a clause's parcels: the clause, ready to start, or the first failure (R382 steps 2 and 3). -/
def checkClause (k : KInfo) (pc hdr : DWord) (parcels : List Word) : Except Trap Clause :=
  let icnt := bits hdr.toNat 0 4 + 1
  match delimit 32 parcels 0 with
  | .error (idx, p0, p1) => .error (checkTrap pc 0x0002 0 (bits p0.toNat 5 7) idx (p1 ++ p0))
  | .ok is =>
    if is.length ≠ icnt then .error (checkTrap pc 0x0001 1 0 0 hdr)
    else if (is.foldl (fun n i => n + ((i.headD 0).toNat % 4 + 1)) 0) ≠ pcntOf hdr then .error (checkTrap pc 0x0001 2 0 0 hdr)
    else match checkInstrs k pc hdr (icnt - 1) is 0 false with
      | some t => .error t
      | none => .ok { hdr := hdr, at_ := pc + 8, idx := 0, rest := parcels, started := false, base := 0, y := false }

/-- Fetch a clause and check it. A header at an address that is not a multiple of 4, which only a RET can name, is a misaligned
access: no rule lists it (R160; log 80, DESIGN CHOICE). -/
def fetchClause (s : State) (w : Who) (k : KInfo) (pc : DWord) : Except Trap (Clause × State) :=
  let mt (m : MFault) : Trap := { checkTrap pc m.cause 0 0 0 m.aux with walk := m.page.map fun p => (w.die, p), far := m.far, late := m.late }
  match readPlain s w .fetch pc 8 4 with
  | .error m => .error (mt m)
  | .ok (hb, s1) =>
    let hdr := BitVec.ofNat 64 (natOfBytes hb)
    match checkHeader k pc hdr with
    | some t => .error t
    | none =>
      match readPlain s1 w .fetch (pc + 8) (4 * pcntOf hdr) 4 with
      | .error m => .error (mt m)
      | .ok (bs, s2) =>
        let ps := (List.range (pcntOf hdr)).map fun i => BitVec.ofNat 32 (natOfBytes ((bs.drop (4 * i)).take 4))
        match checkClause k pc hdr ps with
        | .error t => .error t
        | .ok c => .ok (c, s2)

/-- Who fetches for a group or spool processor. -/
def whoFetch (s : State) (ag : Agent) (w : Wg) (l : Launch) : Who :=
  { ctx := l.ctx, core := some w.core, party := agentParty ag, histStart := l.histStart, place := wgPlace 0 w.core, got := gotOf s ag, asks := true }

end Sys2Proof.Machine
end

