-- ==== Sys2Proof/Machine/Control.lean ====
section
/-! DEFINITION. Control flow (R155 to R166): branches, calls, joins, EXIT, YIELD, NOP, TRAP and SYS, with the events
of join timers and system services (R371, R372). -/

namespace Sys2Proof.Machine

open Sys2Proof

/-- An event that is not possible now. -/
def notNow (name : String) : Host.Outcome State Fault Refusal := .fault (.notEnabled name)

/-- NOP (R164). -/
def execNop (f : Fld) (s : State) : Host.Outcome State Fault Refusal := issue (.nop f) s fun _ s => .done s

/-- YIELD sets Y for the clause that holds it (R163); on the spool processor it acts as NOP (R261). -/
def execYield (f : Fld) (s : State) : Host.Outcome State Fault Refusal := issue (.yield f) s fun cx s =>
  .done (if cx.onSpool then s else s.modGroup cx.gk fun g => g.modSplit cx.k fun x =>
    { x with cl := x.cl.map fun c => { c with y := true } })

/-- AUX of a diverged exit (R381): splits in use, join entries in use, stack entries on chip and in the spill area. -/
def exitAux (g : Group) : DWord :=
  BitVec.ofNat 64 (g.splitsUsed + g.joinsUsed * 8 + g.stack.length * 2 ^ 8 + g.stks * 2 ^ 32)

/-- Free the pool slots of the records that a group holds (R242). -/
def dropHeld (s : State) (cx : Cx) : State :=
  (freeHeld s cx.lid cx.g).modGroup cx.gk fun g => { g with held := [] }

/-- EXIT (R162, R37, R388): legal only when the group is converged; a member of a staged loop leaves it first (R315), held
records are freed (R242). A spool processor's EXIT ends it (R260). -/
def execExit (f : Fld) (s : State) : Host.Outcome State Fault Refusal := issue (.exit f) s fun cx s =>
  if cx.onSpool then
    .jump ((releaseTo s cx.ag [.exited cx.wid]).modWg cx.wid fun w => { w with spool := w.spool.map fun p => { p with run := false } })
  else if !cx.g.converged cx.k then .trap (cx.trap 0x0005 (exitAux cx.g))
  else .jump (releaseTo ((dropHeld (leaveLoop s cx.ag cx.gk) cx).modGroup cx.gk fun g => { g with exited := true }) cx.ag [.exited cx.wid])

/-- RET (R160). -/
def execRet (f : Fld) (s : State) : Host.Outcome State Fault Refusal := issue (.ret f) s fun cx s =>
  jumpTo s cx (cx.g.rs2 cx.f.a.toNat)

/-- The evaluation of a JOIN at the clause's address (R33); `timer`: the cycles of a JOIN.T (R35). A pop orders the popped path after
this one as a fusion does, and an arrival is a release (R34). -/
def joinBody (cx : Cx) (s : State) (timer : Option Nat) : Eff :=
  if cx.sp.j ≠ some (pc56 cx.H) then .done s
  else if 0 < cx.sp.n then
    match popEnt s cx cx.k with
    | .error t => .trap t
    | .ok (none, s1) => .done s1
    | .ok (some e, s1) => .jump ((releaseBy s1 cx).modGroup cx.gk fun g => g.modSplit cx.k fun x =>
        { x with pc := addr56 e.pc, mask := e.mask, j := e.j, n := x.n - 1 })
  else if 3 ≤ cx.sp.je then .done s
  else .jump ((joinHb s cx.gk cx.g cx.k).modGroup cx.gk fun g => g.arriveJoin cx.k timer)

/-- JOIN (R161). -/
def execJoin (f : Fld) (s : State) : Host.Outcome State Fault Refusal := issue (.join f) s fun cx s => joinBody cx s none

/-- JOIN.T (R161): in deterministic mode it acts as JOIN. -/
def execJoinT (f : Fld) (s : State) : Host.Outcome State Fault Refusal := issue (.joinT f) s fun cx s =>
  joinBody cx s (if cx.l.det then none else some (min (cx.b32 0) 65535))

/-- Whether a split of a group may still arrive at a join in this cycle: the group has not issued, and a split does not wait. -/
def mayArrive (s : State) (g : Group) : Bool := g.issued ≤ s.clock && g.splits.any fun x => x.v && x.st == 0

/-- The run-out timers of a group: the splits leave their join entries in ascending index, once no arrival of the same cycle can come
before (R35). -/
def execJoinTimerExpiry (ag : Agent) (s : State) : Host.Outcome State Fault Refusal :=
  match ag with
  | .group c sl k => match s.group? (gKey c sl) with
    | none => notNow "JOIN_TIMER_EXPIRY"
    | some g =>
      if (g.splits.getD k {}).expired && !stopped s (gKey c sl) g && !mayArrive s g then
        .next ((expireHb s g g.expire).setGroup (gKey c sl) g.expire)
      else notNow "JOIN_TIMER_EXPIRY"
  | _ => notNow "JOIN_TIMER_EXPIRY"

/-- TRAP raises the program trap; INFO is its code (R165). -/
def execTrap (f : Fld) (s : State) : Host.Outcome State Fault Refusal := issue (.trap f) s fun cx _ =>
  .trap { cx.trap 0x0010 0 with info := BitVec.ofNat 16 (cx.b32 0) }

/-- BRA (R155). -/
def execBra (f : Fld) (s : State) : Host.Outcome State Fault Refusal := issue (.bra f) s fun cx s =>
  jumpTo s cx (offAddr cx.H (cx.f.lit.signExtend 64))

/-- A BRP that takes its branch when `take` of the number of lanes with the predicate and of all lanes (R156). -/
def brpBody (take : Nat → Nat → Bool) (cx : Cx) (s : State) : Eff :=
  let v := cx.sp.mask &&& ~~~cx.g.helper
  let n := popMask (v &&& cx.g.rp (cx.f.a.toNat % 8))
  if take n (popMask v) then jumpTo s cx (offAddr cx.H (cx.f.lit.signExtend 64)) else .done s

/-- BRP.all. -/
def execBrpAll (f : Fld) (s : State) : Host.Outcome State Fault Refusal := issue (.brpAll f) s (brpBody fun n v => n == v)
/-- BRP.any. -/
def execBrpAny (f : Fld) (s : State) : Host.Outcome State Fault Refusal := issue (.brpAny f) s (brpBody fun n _ => 0 < n)
/-- BRP.none. -/
def execBrpNone (f : Fld) (s : State) : Host.Outcome State Fault Refusal := issue (.brpNone f) s (brpBody fun n _ => n == 0)

/-- BRV: the divergent branch (R32, R157). -/
def execBrv (f : Fld) (s : State) : Host.Outcome State Fault Refusal := issue (.brv f) s fun cx s =>
  let p := cx.g.rp (cx.f.a.toNat % 8)
  let t := cx.sp.mask &&& (if bit cx.f.a.toNat 3 then ~~~p else p)
  let r := cx.sp.mask &&& ~~~t
  let target := offAddr cx.H ((cx.f.lit.extractLsb' 0 16).signExtend 64)
  let jb := offAddr cx.H ((cx.f.lit.extractLsb' 16 16).signExtend 64)
  if t = 0 then .done s
  else if r = 0 then jumpTo s cx target
  else match targetOk s cx target with
    | some x => .trap x
    | none => match separate s cx cx.k (t, pc56 target) (r, pc56 cx.next) (pc56 jb) true with
      | .error x => .trap x
      | .ok (s1, _) => .jump s1

/-! ### Branch tables (R158, R159) -/

/-- The lanes of a mask by the index each selects, lowest index first. -/
def byIndex (cx : Cx) : List (Nat × Mask) :=
  let xs := sortNats ((lanesIn cx.sp.mask).map cx.b32).eraseDups
  xs.map fun x => (x, maskOf fun l => cx.sp.mask.getLsbD l && cx.b32 l == x)

/-- The targets of some table indices. -/
def tableTargets (s : State) (cx : Cx) (tab : DWord) : List (Nat × Mask) → Except Trap (List (Mask × DWord) × State)
  | [] => .ok ([], s)
  | (x, m) :: xs => match readPlain s cx.who .table (tab + 8 + BitVec.ofNat 64 (4 * x)) 4 4 with
    | .error e => .error (cx.mtrap e)
    | .ok (bs, s1) =>
      let a := offAddr tab ((BitVec.ofNat 32 (natOfBytes bs)).signExtend 64)
      match targetOk s1 cx a with
      | some t => .error t
      | none => match tableTargets s1 cx tab xs with
        | .error t => .error t
        | .ok (ys, s2) => .ok ((m, a) :: ys, s2)

/-- The separations of R38: split `k` holds the lanes of every listed target. -/
def separateAll (s : State) (cx : Cx) (jb : BitVec 56) (k : Nat) : List (Mask × DWord) → Except Trap State
  | [] => .ok s
  | [(_, a)] => .ok (s.modGroup cx.gk fun g => g.modSplit k fun x => { x with pc := addr56 (pc56 a) })
  | (m, a) :: rest =>
    let rem : Mask := rest.foldl (fun acc x => acc ||| x.1) 0
    let last := (rest.getLast?.map fun x => pc56 x.2).getD 0
    match separate s cx k (m, pc56 a) (rem, last) jb false with
    | .error t => .error t
    | .ok (s1, k') => separateAll s1 cx jb k' rest

/-- BRX: read the table, check every index before any effect, and branch each lane to its target (R159, R38). -/
def brxBody (cx : Cx) (s : State) : Eff :=
  let tab := cx.g.rs2 cx.f.a.toNat
  match readPlain s cx.who .table tab 8 8 with
  | .error e => .trap (cx.mtrap e)
  | .ok (hb, s1) =>
    let h := natOfBytes hb
    let count := bits h 0 16
    let jofs := BitVec.ofNat 32 (bits h 32 32)
    let aux (x : Nat) : DWord := BitVec.ofNat 64 (x % 2 ^ 32 + count * 2 ^ 32)
    if count = 0 ∨ 4096 < count ∨ bits h 16 16 ≠ 0 then .trap (cx.trap 0x0006 (aux 0xFFFFFFFF))
    else match (lanesIn cx.sp.mask).find? fun l => count ≤ cx.b32 l with
      | some l => .trap (cx.trap 0x0006 (aux (cx.b32 l)))
      | none => match tableTargets s1 cx tab (byIndex cx) with
        | .error t => .trap t
        | .ok (ts, s2) => match separateAll s2 cx (pc56 (offAddr tab (jofs.signExtend 64))) cx.k ts with
          | .error t => .trap t
          | .ok s3 => .jump s3

/-- BRX. -/
def execBrx (f : Fld) (s : State) : Host.Outcome State Fault Refusal := issue (.brx f) s brxBody

/-- The pair sd := R, a fixed-latency result (R160). -/
def linkWrites (cx : Cx) : List Wr := sWrite 10 cx.f.d.toNat cx.next.toNat

/-- CALL (R160). -/
def execCall (f : Fld) (s : State) : Host.Outcome State Fault Refusal := issue (.call f) s fun cx s =>
  jumpTo (addFix s cx (linkWrites cx)) cx (offAddr cx.H (cx.f.lit.signExtend 64))

/-- CALLX: the return address, then as BRX (R160). -/
def execCallx (f : Fld) (s : State) : Host.Outcome State Fault Refusal := issue (.callx f) s fun cx s =>
  brxBody cx (addFix s cx (linkWrites cx))

/-! ### System calls -/

/-- SYS: a release at .sys; the request is delivered and the group runs on (R166). A service of 4 or more is not
assigned and gives 0xFFFF_FFFF (R371). -/
def execSys (f : Fld) (s : State) : Host.Outcome State Fault Refusal := issue (.sys f) s fun cx s =>
  let svc := cx.b32 0
  .done (startOp (releaseBy s cx) cx (.sys svc (cx.g.rs2 cx.f.a.toNat) (if 4 ≤ svc then some 0xFFFFFFFF else none))
    [.s cx.f.d.toNat 0])

/-- The status of a SYS lands in its register; its token falls; an acquire at .sys (R166). -/
def execSysComplete (id : Nat) (s : State) : Host.Outcome State Fault Refusal :=
  match s.op? id with
  | none => notNow "SYS_COMPLETE"
  | some o => match o.k, o.wrs with
    | .sys _ _ (some st), [.s d _] => .next (completeOp s { o with wrs := [.s d st] })
    | _, _ => notNow "SYS_COMPLETE"

/-- Give the status of a service. -/
def sysStatus (s : State) (o : Op) (st : Word) : State := s.modOp o.id fun o => match o.k with
  | .sys v a _ => { o with k := .sys v a (some st) }
  | _ => o

/-- Where an operation stands for the scopes: lane copies and traversals with their group, copies and matrix operations with their
workgroup (R58). -/
def opPlace (w : Wg) (o : Op) : Place :=
  match o.k with
  | .lcopy .. | .trav .. | .rtrace .. => groupPlace o.wg o.grp w.core
  | _ => wgPlace o.wg w.core

/-- Who reads an argument block: the issuing group, through its context. -/
def opWho (s : State) (o : Op) : Who :=
  match s.wg? o.wg, s.launch? o.lnch with
  | some w, some l => { ctx := l.ctx, core := some w.core, vwbase := w.vwbase, vwsize := w.vwsize, obs := w.obRanges
                        party := partyOp o.id, histStart := l.histStart, op := some o.id, me := opMe o.id
                        place := opPlace w o, lnch := o.lnch + 1, got := o.got, det := l.det }
  | _, _ => { ctx := {} }

/-- The world of an operation's context. -/
def opNs (s : State) (o : Op) : Bool := (s.launch? o.lnch).any (·.ctx.ns)

/-- Read bytes for an operation, of peer modules once they have arrived (R373); `bad`: what an address that faults comes to. -/
def readFor (name : String) (s : State) (o : Op) (a : DWord) (n : Nat) (bad : State)
    (go : List Byte → State → State) : Host.Outcome State Fault Refusal :=
  match readPlain s { opWho s o with asks := true } .load a n 1 with
  | .ok (bs, s1) => .next (go bs s1)
  | .error m =>
    if m.far.isEmpty then .next bad
    else if o.tags.isEmpty then .next (requestReads s (opNs s o) o.id m.far)
    else notNow name

/-- Perform a service of a SYS that awaits its status: the bytes of its argument block, or status 2 (R371). -/
def service (name : String) (n len : Nat) (id : Nat) (s : State)
    (act : Op → List Byte → State → Host.Outcome State Fault Refusal) : Host.Outcome State Fault Refusal :=
  match s.op? id with
  | none => notNow name
  | some o => match o.k with
    | .sys svc arg none =>
      if svc ≠ n then notNow name
      else if len = 0 then act o [] s
      else if pathOf arg ≠ 0 then .next (sysStatus s o 2)
      else match readPlain s { opWho s o with asks := true } .load arg len 1 with
        | .ok (bs, s1) => act o bs s1
        | .error m =>
          if m.far.isEmpty then .next (sysStatus s o 2)
          else if o.tags.isEmpty then .next (requestReads s (opNs s o) o.id m.far)
          else notNow name
    | _ => notNow name

/-- Service 0 does nothing (R371). -/
def execSysServiceNone (id : Nat) (s : State) : Host.Outcome State Fault Refusal :=
  service "SYS_SERVICE_NONE" 0 0 id s fun o _ s => .next (sysStatus s o 0)

/-- The queue that submitted an operation's launch, and its LID. -/
def opQueue (s : State) (o : Op) : Nat × Word := match s.launch? o.lnch with
  | some l => (l.q, l.lid)
  | none => (0, 0)

/-- The header of a log record (R372). -/
def logHeader (len core grp slot : Nat) (lid : Word) (clock : Nat) : List Byte :=
  bytesOfNat 4 len ++ bytesOfNat 4 (core % 256 + grp % 32 * 256 + slot % 64 * 65536) ++ bytesOfWord lid ++ bytesOfNat 4 clock

/-- Append a log record to queue q's ring, or answer status 1 when it has too little room (R371, R372). -/
def appendLog (s : State) (o : Op) (data : List Byte) : State :=
  let (q, lid) := opQueue s o
  let qu := s.queue q
  let size := 16 + (data.length + 7) / 8 * 8
  let pos := qu.logTail.toNat % 65536
  let skip := if 65536 < pos + size then 65536 - pos else 0
  if 65536 < (qu.logTail - qu.logHead).toNat + size + skip then sysStatus s o 1
  else
    let base := mKey 293 (65536 * q)
    let hdr (n : Nat) : List Byte := logHeader n o.core o.grp o.slot lid o.at_
    let put (s : State) (at_ : Nat) (bs : List Byte) : State := s.writeBytes (bs.zipIdx.map fun bi => (base + at_ + bi.2, bi.1))
    let s1 := if skip = 0 then s else put s pos ((hdr 0xFFFF).take skip)
    let at_ := if skip = 0 then pos else 0
    let rec_ := hdr data.length ++ data ++ List.replicate (size - 16 - data.length) 0
    let s2 := put s1 at_ rec_
    sysStatus (s2.setQueue q { qu with logTail := qu.logTail + BitVec.ofNat 32 (size + skip) }) o 0

/-- Service 1: the bytes are appended to the log ring (R371, R372). -/
def execSysServiceLog (id : Nat) (s : State) : Host.Outcome State Fault Refusal :=
  service "SYS_SERVICE_LOG" 1 12 id s fun o bs s =>
    let addr := BitVec.ofNat 64 (natOfBytes (bs.take 8))
    let len := min (natOfBytes ((bs.drop 8).take 4)) 4096
    if pathOf addr ≠ 0 then .next (sysStatus s o 2)
    else if len = 0 then .next (appendLog s o [])
    else readFor "SYS_SERVICE_LOG" s o addr len (sysStatus s o 2) fun data s1 => appendLog s1 o data

/-- Service 2 raises the vector of the queue that launched the work (R371). -/
def execSysServiceRaiseVector (id : Nat) (s : State) : Host.Outcome State Fault Refusal :=
  service "SYS_SERVICE_RAISE_VECTOR" 2 4 id s fun o _ s => .next (sysStatus (s.raiseVector (opQueue s o).1) o 0)

/-- Service 3 writes a value to the host bus and raises the vector (R371). -/
def execSysServiceHostWrite (id : Nat) (s : State) : Host.Outcome State Fault Refusal :=
  service "SYS_SERVICE_HOST_WRITE" 3 16 id s fun o bs s =>
    let s1 := s.writeNat (mKey 2 (natOfBytes (bs.take 8))) 8 (natOfBytes ((bs.drop 8).take 8))
    .next (sysStatus (s1.raiseVector (opQueue s o).1) o 0)

end Sys2Proof.Machine
end

