-- ==== Sys2Proof/Machine/Ints.lean ====
section
/-! DEFINITION. Integer operations of an n-bit type (R73, R167 to R174, R182 to R188), on patterns of the type. -/

namespace Sys2Proof.Machine

open Sys2Proof

/-- Add modulo 2ⁿ. -/
def iAdd (ty a b : Nat) : Nat := (a + b) % 2 ^ tyBits ty
/-- Subtract modulo 2ⁿ. -/
def iSub (ty a b : Nat) : Nat := ofInt (tyBits ty) ((a : Int) - b)
/-- The saturating sum (R182). -/
def iAddSat (ty a b : Nat) : Nat := ofInt (tyBits ty) (tySat ty (tyVal ty a + tyVal ty b))
/-- The saturating difference. -/
def iSubSat (ty a b : Nat) : Nat := ofInt (tyBits ty) (tySat ty (tyVal ty a - tyVal ty b))
/-- The smaller, signed or unsigned by the type. -/
def iMin (ty a b : Nat) : Nat := if tyVal ty b < tyVal ty a then b else a
/-- The larger. -/
def iMax (ty a b : Nat) : Nat := if tyVal ty a < tyVal ty b then b else a
/-- Bitwise and. -/
def iAnd (_ a b : Nat) : Nat := a &&& b
/-- Bitwise or. -/
def iOr (_ a b : Nat) : Nat := a ||| b
/-- Bitwise exclusive or. -/
def iXor (_ a b : Nat) : Nat := a ^^^ b
/-- Bitwise not. -/
def iNot (ty a : Nat) : Nat := 2 ^ tyBits ty - 1 - a % 2 ^ tyBits ty
/-- Shift left; 0 for a count of n or more. -/
def iShl (ty a k : Nat) : Nat := if tyBits ty ≤ k then 0 else a * 2 ^ k % 2 ^ tyBits ty
/-- Shift right: floor division, the count of a signed type held at n − 1. -/
def iShr (ty a k : Nat) : Nat :=
  if tySigned ty then ofInt (tyBits ty) (tyVal ty a / (2 ^ min k (tyBits ty - 1) : Nat))
  else if tyBits ty ≤ k then 0 else a / 2 ^ k
/-- Leading zero bits of n bits. -/
def iClz (ty a : Nat) : Nat := if a = 0 then tyBits ty else tyBits ty - 1 - Nat.log2 a
/-- 1 bits of n bits. -/
def iPop (ty a : Nat) : Nat := ((List.range (tyBits ty)).filter fun i => bit a i).length
/-- The magnitude; the type minimum gives itself. -/
def iAbs (ty a : Nat) : Nat := ofInt (tyBits ty) (tyVal ty a).natAbs
/-- The number whose bit i is `f i`, for `n` bits. -/
def natOfBits (n : Nat) (f : Nat → Bool) : Nat := (List.range n).foldl (fun x i => if f i then x + 2 ^ i else x) 0
/-- The n bits in reverse order. -/
def iBrev (ty a : Nat) : Nat := natOfBits (tyBits ty) fun i => bit a (tyBits ty - 1 - i)
/-- The low half of the product. -/
def iMul (ty a b : Nat) : Nat := a * b % 2 ^ tyBits ty
/-- The high half of the product, signed or unsigned by the type. -/
def iMulh (ty a b : Nat) : Nat := ofInt (tyBits ty) (tyVal ty a * tyVal ty b / (2 ^ tyBits ty : Nat))
/-- The product plus c. -/
def iMad (ty a b c : Nat) : Nat := (a * b + c) % 2 ^ tyBits ty
/-- The quotient towards zero, with the corners of R169. -/
def iDiv (ty a b : Nat) : Nat :=
  let n := tyBits ty
  let x := tyVal ty a
  let y := tyVal ty b
  if y = 0 then
    (if tySigned ty then ofInt n (if 0 ≤ x then tyMax ty else tyMin ty) else 2 ^ n - 1)
  else ofInt n (Int.tdiv x y)
/-- The remainder, of the dividend's sign (R169). -/
def iRem (ty a b : Nat) : Nat :=
  let x := tyVal ty a
  let y := tyVal ty b
  if y = 0 then a else ofInt (tyBits ty) (Int.tmod x y)
/-- A comparison: 0 eq, 1 ne, 2 lt, 3 le, 4 gt, 5 ge (R170). -/
def iCmp (ty cond a b : Nat) : Bool :=
  let x := tyVal ty a
  let y := tyVal ty b
  match cond with
  | 0 => x = y
  | 1 => x ≠ y
  | 2 => x < y
  | 3 => x ≤ y
  | 4 => y < x
  | _ => y ≤ x
/-- Extract the field that a descriptor gives (R174). -/
def iBfe (ty a desc : Nat) : Nat :=
  let n := tyBits ty
  let o := bits desc 0 8
  let v := min (bits desc 8 8) n
  if v = 0 then 0
  else
    let x := (a % 2 ^ n) / 2 ^ o % 2 ^ v
    if tySigned ty then ofInt n (toSigned v x) else x
/-- Insert a field (R174). -/
def iBfi (ty a desc c : Nat) : Nat :=
  let o := bits desc 0 8
  let w := bits desc 8 8
  natOfBits (tyBits ty) fun i => if o ≤ i ∧ i < o + w then bit c (i - o) else bit a i
/-- Reverse a field (R188). -/
def iBrevFld (ty a desc : Nat) : Nat :=
  let n := tyBits ty
  let o := bits desc 0 8
  let w := min (bits desc 8 8) (n - o)
  natOfBits n fun i => if o ≤ i ∧ i < o + w then bit a (o + (w - 1 - (i - o))) else bit a i

end Sys2Proof.Machine
end

