-- ==== Sys2Proof/Machine/Remote.lean ====
section
/-! DEFINITION. The remote part of memory accesses (R373): reads of the bytes of peer modules that an operation awaits. -/

namespace Sys2Proof.Machine

open Sys2Proof

/-- Go on with an operation that reads some bytes: at once if the remote ones among them have arrived; else its read requests
leave first, and it goes on once they are answered (R373). -/
def withFar (name : String) (s : State) (o : Op) (ns : Bool) (hs : List Hit)
    (go : State → Host.Outcome State Fault Refusal) : Host.Outcome State Fault Refusal :=
  let missing := farHits o.got hs
  if missing.isEmpty then go s
  else if o.tags.isEmpty then .next (requestReads s ns o.id missing)
  else .fault (.notEnabled name)

end Sys2Proof.Machine
end

