-- ==== Sys2Proof/Machine/Memory.lean ====
section
/-! DEFINITION. Loads, stores, atomics, lane copies, counters, fences and promotion (R220 to R234), and the reading of
bytes that land in registers. -/

namespace Sys2Proof.Machine

open Sys2Proof

/-- What a part of an engine's work comes to: it is done, or it stops at a fault with what it has done so far. -/
inductive Stepped where
  | ok (s : State)
  | stop (s : State) (m : MFault)
  deriving Repr

/-! ### Bytes into registers -/

/-- The size of an access by its type code (R217); .x4 moves 16 bytes. -/
def sizeOf (ty : Nat) (x4 : Bool) : Nat := if x4 then 16 else tyBits ty / 8

/-- A part of a value: the word of register `k` of a 16-byte value. -/
def wordAt (x k : Nat) : Nat := x / 2 ^ (32 * k) % 2 ^ 32

/-- The writes that land loaded values under R72: `vals` gives the values by lane, or the one of lane 64 for an s
register. -/
def loadWrs (ty d n : Nat) (vals : List (Nat × Nat)) : List Wr :=
  let f (l : Nat) : Nat := Tab.get 0 vals l
  if (Tab.find? vals 64).isSome then
    if n = 16 then (List.range 4).flatMap fun k => sWrite 1 (d + k) (wordAt (f 64) k) else sWrite ty d (f 64)
  else
    let m := maskOf fun l => (Tab.find? vals l).isSome
    if n = 16 then (List.range 4).flatMap fun k => vWrite 1 (d + k) m fun l => wordAt (f l) k else vWrite ty d m f

/-- The lane that a request is for; 64 for a scalar one. -/
def laneOf (r : Req) : Nat := r.1.getD 64

/-- Read the bytes of every request, in ascending lane order. -/
def readByteLanes (s : State) (w : Who) (marked : Bool) : List (Req × List Hit) → List (Nat × List Byte) × State
  | [] => ([], s)
  | (r, hs) :: xs =>
    let (bs, s1) := readHits s w marked hs
    let (ys, s2) := readByteLanes s1 w marked xs
    ((laneOf r, bs) :: ys, s2)

/-- Read the value of every request. -/
def readLanes (s : State) (w : Who) (marked : Bool) (hs : List (Req × List Hit)) : List (Nat × Nat) × State :=
  let (vals, s1) := readByteLanes s w marked hs
  (vals.map fun v => (v.1, natOfBytes v.2), s1)

/-- The newest operation started. -/
def lastId (s : State) : Nat := s.nextId - 1

/-- Writes that name the registers of a result that is not yet known, and change nothing that anything sees: no lane, or an
s register of an operation whose result replaces them (R138, log 78). -/
def pendingWrs (refs : List Ref) : List Wr :=
  refs.map fun r => match r with
    | .s r => .s r 0
    | .v r => .v r 0 []
    | .p r => .p r 0 0

/-- Start an operation whose registers are known only at its completion. -/
def startLater (s : State) (cx : Cx) (k : OpK) (refs : List Ref) : State := startOp s cx k (pendingWrs refs)

/-- The deferred fault of a poisoned byte (R412). -/
def poisonTrap (o : Op) (key : Nat) : Trap := opTrap o 0x4E (poisonAux key)

/-- Stop an operation at a poisoned byte (R402). -/
def stopPoison (s : State) (id key : Nat) : State :=
  match s.op? id with
  | none => s
  | some o => deferFault s id (poisonTrap o key)

/-- By lane the bytes of resolved requests, with the values read for them. -/
def planOf (hs : List (Req × List Hit)) (vals : List (Nat × List Byte)) : List (Nat × List (Hit × Byte)) :=
  hs.zipIdx.map fun x => (laneOf x.1.1, x.1.2.zipIdx.map fun h => (h.1, ((vals.getD x.2 (0, [])).2).getD h.2 0))

/-- A load of resolved requests: its values are read now, and may still give way to later ones as it completes (R63); poisoned bytes
stop it at a deferred fault, and those of peer modules are asked for (R400, R412, R373). -/
def loadEff (s : State) (cx : Cx) (marked : Bool) (ty d n : Nat) (hs : List (Req × List Hit)) : Eff :=
  let hits := hs.flatMap (·.2)
  let refs := (loadWrs ty d n (hs.map fun x => (laneOf x.1, 0))).map Wr.ref
  match anyPoison s hits with
  | some key =>
    let s1 := startLater s cx (.load ty d n marked false (planOf hs [])) refs
    .done (stopPoison s1 (lastId s1) key)
  | none =>
    let (vals, s1) := readByteLanes (if marked then s.newLoad cx.me else s) cx.who marked hs
    let k : OpK := .load ty d n marked true (planOf hs vals)
    if !isFar hits then .done (startOp s1 cx k (loadWrs ty d n (vals.map fun v => (v.1, natOfBytes v.2))))
    else
      let s2 := startLater s1 cx k refs
      .done (requestReads s2 cx.l.ctx.ns (lastId s2) hits)

/-- Complete the newest operation, which moved nothing (R218: it counts once and completes at once). -/
def completeNow (s : State) : State :=
  match s.op? (lastId s) with
  | none => s
  | some o => completeOp s o

/-- The ORD of an instruction (R216). -/
def Cx.ord (cx : Cx) : Nat := cx.f.c.toNat % 8
/-- Whether an access is marked. -/
def Cx.marked (cx : Cx) : Bool := cx.ord != 0
/-- Whether ORD releases (R59). -/
def Cx.rel (cx : Cx) : Bool := cx.ord == 3 || cx.ord == 4
/-- The state after an access of this instruction that may release. -/
def relIf (s : State) (cx : Cx) : State := if cx.rel then releaseBy s cx else s
/-- The size of this instruction's access. -/
def Cx.size (cx : Cx) : Nat := sizeOf cx.ty (bit cx.f.mn.toNat 1)

/-- LD (R220). -/
def execLd (f : Fld) (s : State) : Host.Outcome State Fault Refusal := issue (.ld f) s fun cx s =>
  let rs : List Req := (lanesIn cx.act).map fun l => (some l, cx.addr (bit cx.f.mn.toNat 0) l, cx.size)
  if rs.isEmpty then .done (completeNow (startOp s cx .reg []))
  else match resolveAll s cx.who .load cx.marked (alignFor cx.marked) rs with
    | .error m => .trap (cx.mtrap m)
    | .ok (hs, s1) => loadEff s1 cx cx.marked cx.ty cx.f.d.toNat cx.size hs

/-- LDS (R223). -/
def execLds (f : Fld) (s : State) : Host.Outcome State Fault Refusal := issue (.lds f) s fun cx s =>
  match resolveAll s cx.who .load cx.marked (alignFor cx.marked) [(none, cx.addr true 0, cx.size)] with
  | .error m => .trap (cx.mtrap m)
  | .ok (hs, s1) => loadEff s1 cx cx.marked cx.ty cx.f.d.toNat cx.size hs

/-- The bytes that a store moves in a lane. -/
def Cx.stBytes (cx : Cx) (scalar : Bool) (l : Nat) : List Byte :=
  let r (k : Nat) : Nat := (if scalar then cx.g.rs (cx.f.d.toNat + k) else cx.g.rv (cx.f.d.toNat + k) l).toNat
  bytesOfNat cx.size (if cx.size = 16 then r 0 + 2 ^ 32 * r 1 + 2 ^ 64 * r 2 + 2 ^ 96 * r 3
    else if scalar then cx.g.sVal cx.ty cx.f.d.toNat else cx.g.vVal cx.ty cx.f.d.toNat l)

/-- The state after an access of this instruction that may release: its own release and that of a fence before it (R61). -/
def afterStore (s : State) (cx : Cx) : State :=
  let s1 := relIf s cx
  if cx.marked || isAtomic cx.i then spendFence s1 cx.who else s1

/-- Who makes the accesses of an instruction, for the operation that it will start. -/
def Cx.whoOp (cx : Cx) (s : State) : Who := { cx.who with op := some s.nextId }

/-- Perform the writes of resolved requests, in ascending lane order; units that they write whole together lose their poison
(R412). -/
def writeLanes (s : State) (w : Who) (marked : Bool) (hs : List (Req × List Hit)) (data : Nat → List Byte) : State :=
  (hs.foldl (fun (s : State) x => writeHits s w marked x.2 (data (laneOf x.1))) s).cleanse (hs.flatMap fun x => x.2.map (·.key))

/-- A store to some requests. -/
def storeEff (s : State) (cx : Cx) (rs : List Req) (data : Nat → List Byte) : Eff :=
  match resolveAll s cx.who .store cx.marked (alignFor cx.marked) rs with
  | .error m => .trap (cx.mtrap m)
  | .ok (hs, s1) => .done (startOp (afterStore (writeLanes s1 (cx.whoOp s1) cx.marked hs data) cx) cx .store [])

/-- ST (R221). -/
def execSt (f : Fld) (s : State) : Host.Outcome State Fault Refusal := issue (.st f) s fun cx s =>
  storeEff s cx ((lanesIn cx.actNH).map fun l => (some l, cx.addr (bit cx.f.mn.toNat 0) l, cx.size)) (cx.stBytes false)

/-- STS (R223). -/
def execSts (f : Fld) (s : State) : Host.Outcome State Fault Refusal := issue (.sts f) s fun cx s =>
  storeEff s cx [(none, cx.addr true 0, cx.size)] fun _ => cx.stBytes true 0

/-! ### Atomics -/

/-- The operation of an atomic on n-bit values (R226), with its flags. `cmp` is the comparand of cas. -/
def atomOp (mn ty old b cmp : Nat) : FR :=
  let n := tyBits ty
  match mn with
  | 0 => ⟨iAdd ty old b, 0⟩
  | 1 => ⟨iSub ty old b, 0⟩
  | 2 => ⟨iMin ty old b, 0⟩
  | 3 => ⟨iMax ty old b, 0⟩
  | 4 => ⟨iAnd ty old b, 0⟩
  | 5 => ⟨iOr ty old b, 0⟩
  | 6 => ⟨iXor ty old b, 0⟩
  | 7 => ⟨b, 0⟩
  | 8 => ⟨if old = cmp then b else old, 0⟩
  | 9 => ⟨if b ≤ old then 0 else (old + 1) % 2 ^ n, 0⟩
  | 10 => ⟨if old = 0 ∨ b < old then b else old - 1, 0⟩
  | _ => fAdd f32 0 old b

/-- Perform the atomics of some lanes in order (R65): the old values by lane, the flags, the state. -/
def atomLanes (s : State) (w : Who) (mn ty : Nat) :
    List (Nat × List Hit × DWord × DWord) → List (Nat × Nat) × BitVec 5 × State
  | [] => ([], 0, s)
  | (l, hs, b, cmp) :: xs =>
    let old := natOfBytes (readHits s w true hs).1
    let s1 := (readHits s w true hs).2
    let r := atomOp mn ty old b.toNat cmp.toNat
    let s2 := writeHits s1 w true hs (bytesOfNat (tyBits ty / 8) r.1)
    let (ys, fl, s3) := atomLanes s2 w mn ty xs
    ((l, old) :: ys, r.2 ||| fl, s3)

/-- The operand and the comparand of an ATOM in a lane: cas names the comparand in B and the new value behind it. -/
def Cx.atomOpd (cx : Cx) (l : Nat) : DWord × DWord :=
  if cx.f.mn = 8 then
    (BitVec.ofNat 64 (cx.opd (cx.f.b.toNat + (if wideTy cx.ty then 2 else 1)) cx.ty l), BitVec.ofNat 64 (cx.b l))
  else (BitVec.ofNat 64 (cx.b l), 0)

/-- Perform the atomics of the lanes whose words are here, in order: the old values found, the flags, the state (R65). -/
def atomHere (s : State) (w : Who) (mn ty : Nat) : List (Nat × List Hit × DWord × DWord × Nat) →
    List (Nat × List Hit × DWord × DWord × Nat) × BitVec 5 × State
  | [] => ([], 0, s)
  | (l, hs, b, cmp, old) :: xs =>
    if isFar hs then
      let (ys, fl, s1) := atomHere s w mn ty xs
      ((l, hs, b, cmp, old) :: ys, fl, s1)
    else
      let (olds, fl, s1) := atomLanes s w mn ty [(l, hs, b, cmp)]
      let (ys, fl', s2) := atomHere s1 w mn ty xs
      ((l, hs, b, cmp, Tab.get 0 olds l) :: ys, fl ||| fl', s2)

/-- What a request to perform an atomic holds beyond the offset and the size (log 15, DESIGN CHOICE): the operation, the type, the
operand and the comparand. -/
def atomPayload (mn ty : Nat) (b cmp : DWord) : List Byte :=
  bytesOfNat 1 mn ++ bytesOfNat 1 ty ++ bytesOfNat 8 b.toNat ++ bytesOfNat 8 cmp.toNat

/-- A lane of an ATOM: the lane, the bytes, the operand, the comparand, and the old value, or for a word of a peer module the tag of
its request. -/
abbrev AtomLane := Nat × List Hit × DWord × DWord × Nat

/-- Where the answer to a peer's atomic is kept, by its tag: two lanes may name one word. -/
def atomSlot (tag i : Nat) : Nat := 2 ^ 80 + 16 * tag + i

/-- Whether the answer for a lane of an ATOM has not come. -/
def unanswered (o : Op) (x : AtomLane) : Bool := isFar x.2.1 && (Tab.find? o.got (atomSlot x.2.2.2.2 0)).isNone

/-- Ask the peers to perform the lanes that `ask` names, one request each, in lane order (R65, R227, R373). -/
def askAtoms (s : State) (o : Op) (ns : Bool) (mn ty d : Nat) (ret : Bool) (ask : AtomLane → Bool) (plan : List AtomLane) : State :=
  let (s1, tags, plan1) := plan.foldl (fun (acc : State × List Nat × List AtomLane) x => match x.2.1 with
    | h :: _ =>
      if ask x then
        let (tag, s1) := requestRun acc.1 ns o.id h (tyBits ty / 8) (atomPayload mn ty x.2.2.1 x.2.2.2.1)
        (s1, acc.2.1 ++ [tag], acc.2.2 ++ [(x.1, x.2.1, x.2.2.1, x.2.2.2.1, tag)])
      else (acc.1, acc.2.1, acc.2.2 ++ [x])
    | [] => (acc.1, acc.2.1, acc.2.2 ++ [x])) (s, [], [])
  s1.modOp o.id fun x => { x with k := .atom mn ty d ret true plan1, tags := x.tags ++ tags }

/-- Perform an outstanding ATOM: the lanes here, and for each of the others a request to its peer, which performs it there. -/
def atomGo (s : State) (o : Op) (w : Who) (mn ty d : Nat) (ret : Bool) (plan : List AtomLane) : State :=
  let (p, fl, s1) := atomHere s w mn ty plan
  askAtoms (s1.modOp o.id fun x => { x with flags := fl }) o w.ctx.ns mn ty d ret (fun x => isFar x.2.1) p

/-- ATOM (R225 to R227). -/
def execAtom (f : Fld) (s : State) : Host.Outcome State Fault Refusal := issue (.atom f) s fun cx s =>
  let n := tyBits cx.ty / 8
  let ret := bit cx.m 0
  let a (l : Nat) : DWord := if bit cx.m 1 then cx.g.rs2 cx.f.a.toNat else cx.g.rv2 cx.f.a.toNat l
  let rs : List Req := (lanesIn cx.actNH).map fun l => (some l, a l, n)
  match resolveAll s cx.who .atomic true natural rs with
  | .error m => .trap (cx.mtrap m)
  | .ok (hs, s0) =>
    let s1 := s0.newLoad cx.me
    let hits := hs.flatMap (·.2)
    let refs := if ret then vRefs cx.f.d.toNat (regsOf cx.ty) else []
    let later := hs.map fun x => (laneOf x.1, x.2, (cx.atomOpd (laneOf x.1)).1, (cx.atomOpd (laneOf x.1)).2, 0)
    let k : OpK := .atom cx.f.mn.toNat cx.ty cx.f.d.toNat ret false later
    match anyPoison s1 hits with
    | some key =>
      let s2 := startLater (afterStore s1 cx) cx k refs
      .done (stopPoison s2 (lastId s2) key)
    | none =>
      if !isFar hits then
        let (olds, fl, s2) := atomLanes s1 (cx.whoOp s1) cx.f.mn.toNat cx.ty (later.map fun p => (p.1, p.2.1, p.2.2.1, p.2.2.2.1))
        .done (startOp (afterStore s2 cx) cx .reg (if ret then loadWrs cx.ty cx.f.d.toNat n olds else []) fl)
      else
        let s2 := startLater s1 cx k refs
        match s2.op? (lastId s2) with
        | none => .done s2
        | some o => .done (afterStore (opFollows (atomGo s2 o (cx.whoOp s1) cx.f.mn.toNat cx.ty cx.f.d.toNat ret later) o) cx)

/-! ### Lane copies -/

/-- A selector that R46 assigns. -/
def assigned (p : Nat) : Bool := p ∈ [0, 1, 8, 9, 12, 14]

/-- The first address, in the order given, whose assigned path an entry does not list (R399: 0x0041). -/
def badPath (ok : List Nat) (as : List DWord) : Option MFault :=
  match as.find? fun a => assigned (pathOf a) && !decide (pathOf a ∈ ok) with
  | some a => some { cause := 0x41, aux := a, page := none }
  | none => none

/-- One check of an engine's access: what it comes to, and the access. -/
abbrev Check := Except FaultAt (List Hit × List Touch) × AccK × Req

/-- The checks 1 to 4 of R400 of an access, the paths that an entry lists first. -/
def admitted (s : State) (w : Who) (ok : List Nat) (k : AccK) (r : Req) (al : Nat) : Check :=
  (if assigned (pathOf r.2.1) && !decide (pathOf r.2.1 ∈ ok) then .error (1, 0x41) else resolve s w k r.1 r.2.1 r.2.2 al, k, r)

/-- The race check of R400 of an access, at the byte that races. -/
def raceCheck (s : State) (w : Who) (k : AccK) (r : Req) (al : Nat) : Check :=
  match resolve s w k r.1 r.2.1 r.2.2 al with
  | .error _ => (.ok ([], []), k, r)
  | .ok (hs, _) => match raceAt s w k.writes false hs with
    | some i => (.error (8, 0x4D), k, (r.1, r.2.1 + BitVec.ofNat 64 i, r.2.2))
    | none => (.ok ([], []), k, r)

/-- The fault of the lowest check at the lowest place among some checks (R400), with the page that its walk shares (R403). -/
def worstOf (s : State) (w : Who) (cs : List Check) : Option MFault :=
  (worstLane cs).map fun x => { cause := x.1.2, aux := faultAux s w x.2.2 x.1.2, page := walkPage s w x.2.1 x.2.2 x.1.2 }

/-- The checks of a lane copy's addresses in a lane: the source while it has bytes to give, and the destination. -/
def lcChecks (s : State) (w : Who) (x : Nat × DWord × DWord × Nat × Nat) : List Check :=
  let src : Req := (some x.1, x.2.1, x.2.2.2.1)
  let dst : Req := (some x.1, x.2.2.1, x.2.2.2.2)
  (if 0 < x.2.2.2.1 then [admitted s w [0, 1, 8, 9] .engRead src 4, raceCheck s w .engRead src 4] else []) ++
  [admitted s w [8, 9, 12] .engWrite dst x.2.2.2.2, raceCheck s w .engWrite dst x.2.2.2.2]

/-- Resolve the two sides of a lane copy (R230, R400). -/
def lcResolve (s : State) (w : Who) (lanes : List (Nat × DWord × DWord × Nat × Nat)) :
    Except MFault (List (Req × List Hit) × List (Req × List Hit) × State) :=
  match worstOf s w (lanes.flatMap (lcChecks s w)) with
  | some m => .error m
  | none =>
    let srcs := (lanes.filter fun x => 0 < x.2.2.2.1).map fun x => ((some x.1, x.2.1, x.2.2.2.1) : Req)
    let dsts := lanes.map fun x => ((some x.1, x.2.2.1, x.2.2.2.2) : Req)
    match resolveAll s w .engRead false (fun _ _ => 4) srcs with
    | .error m => .error m
    | .ok (a, s1) => match resolveAll s1 w .engWrite false natural dsts with
      | .error m => .error m
      | .ok (b, s2) => .ok (a, b, s2)

/-- Who an operation's engine accesses are made by. -/
def engWho (s : State) (o : Op) : Who :=
  match agentKey o.ag with
  | none => opWho s o
  | some k => match s.group? k, s.launch? o.lnch with
    | some g, some l => { opWho s o with pbase := some (g.pbase.toNat % 2 ^ 56, l.k.priv) }
    | _, _ => opWho s o

/-- Who makes the accesses of an operation of a group that are the group's own (R60): the split itself. -/
def grpWho (s : State) (o : Op) : Who :=
  { engWho s o with party := agentParty o.ag, me := o.me, acq := o.acq, place := groupPlace o.wg o.grp o.core
                    rel := o.ord == 3 || o.ord == 4, ar := o.ord == 4, scp := o.scp, atom := match o.k with
                      | .atom .. => true
                      | _ => false }

/-- Who makes the accesses of the engine that an instruction starts (R70). -/
def Cx.engWho (cx : Cx) (s : State) : Who :=
  { cx.who with party := partyOp s.nextId, me := opMe s.nextId, op := some s.nextId }

/-- LCOPY (R230): the copy moves at its completion; its accesses are an engine's, which follow what its issuer did before (R70). -/
def execLcopy (f : Fld) (s : State) : Host.Outcome State Fault Refusal := issue (.lcopy f) s fun cx s =>
  let lanes := (lanesIn cx.actNH).map fun l => (l, cx.lcSrc l, cx.lcDst l, cx.lcN l, cx.lcLen)
  match lcResolve (startHb s cx) (cx.engWho s) lanes with
  | .error m => .trap (cx.mtrap m)
  | .ok (_, _, s1) =>
    let s2 := startOp s1 cx (.lcopy lanes) []
    .done (if lanes.isEmpty then completeNow s2 else s2)

/-- The bytes that a lane copy writes in a lane: those read, then zeros. -/
def lcBytes (vals : List (Nat × List Byte)) (l len : Nat) : List Byte :=
  let bs := Tab.get [] vals l
  bs ++ List.replicate (len - bs.length) 0

/-- Poison the destination units that receive bytes which were poisoned in `old` (R412). -/
def movePoison (old s : State) (pairs : List (Nat × Nat)) : State :=
  let bad := ((pairs.filter fun p => old.poisoned p.1).map fun p => unitOf p.2).eraseDups
  { s with poison := s.poison ++ bad.filter fun u => !decide (u ∈ s.poison) }

/-- Perform a lane copy that has been resolved: all reads, then the writes in ascending lane order (R230). -/
def lcMove (s : State) (w : Who) (a b : List (Req × List Hit)) : State :=
  let hitsOf (xs : List (Req × List Hit)) (l : Nat) : List Hit := (xs.find? fun x => laneOf x.1 == l).elim [] (·.2)
  let (vals, s1) := readByteLanes s w false a
  let s2 := writeLanes s1 w false b fun l => lcBytes vals l (hitsOf b l).length
  movePoison s s2 (b.flatMap fun x => ((hitsOf a (laneOf x.1)).map (·.key)).zip (x.2.map (·.key)))

/-- An engine operation has nothing left to do: its race region ends (R406), and it completes, once peer modules have accepted
what it wrote there (R373). -/
def endEngine (s : State) (o : Op) : State :=
  let s1 := travHb (s.release (partyOp o.id)) o
  if unackedOp s1 o.id then s1.modOp o.id fun _ => { o with k := .reg } else completeOp s1 o

/-- The completion of an LCOPY (R231): every lane is copied, or the copy stops at a deferred fault with nothing copied
(R404). -/
def execLcopyComplete (id : Nat) (s : State) : Host.Outcome State Fault Refusal :=
  match s.op? id with
  | none => notNow "LCOPY_COMPLETE"
  | some o => match o.k, o.fault, o.done with
    | .lcopy lanes, none, false =>
      match lcResolve s (engWho s o) lanes with
      | .error m => .next (deferFault s id { opTrap o m.cause m.aux with walk := m.page.map fun p => ((engWho s o).die, p) })
      | .ok (a, b, s1) =>
        withFar "LCOPY_COMPLETE" s1 o (opNs s o) (a.flatMap (·.2)) fun s2 =>
          .next (endEngine (lcMove s2 (engWho s o) a b) o)
    | _, _, _ => notNow "LCOPY_COMPLETE"

/-! ### Counters, fences, promotion -/

/-- The effect of a WAITF: its return acquires what the completions have released to the counter (R62). -/
def waitfEff (cx : Cx) (s : State) : Eff :=
  if waitMet s cx then .done (s.hear cx.me (.cnt cx.wid cx.g.grp (cx.f.d.toNat % 8))) else .wait s

/-- WAITF (R232): a waiting instruction. -/
def execWaitf (f : Fld) (s : State) : Host.Outcome State Fault Refusal := issue (.waitf f) s fun cx s =>
  waitfEff cx s

/-- Whether an instruction is a WAITF. -/
def isWaitf : Instr → Bool
  | .waitf _ => true
  | _ => false

/-- The return of a WAITF. -/
def execWaitfReturn (ag : Agent) (s : State) : Host.Outcome State Fault Refusal :=
  resume "WAITF_RETURN" ag s isWaitf waitfEff

/-- The acquire of a fence: it joins the releases that the last marked load before it read, which reads no later write that would
have it join more (R61). -/
def fenceAcq (s : State) (w : Who) : State :=
  let a := s.agHb w.me
  let mine := a.readRel.filter (·.reaches w)
  mine.foldl (fun (s : State) r => s.learn w.me r.clk)
    (s.modOp a.readOp fun o => if o.me = w.me then { o with acq := true, settled := o.settled || !mine.isEmpty } else o)

/-- The release of a fence, which the next marked store carries (R61). -/
def fenceRel (s : State) (cx : Cx) : State :=
  let w := cx.who
  let a := s.agHb w.me
  releaseBy (s.setHb w.me { a with fenceRel := a.fenceRel ++ [⟨w.scp, w.place, s.relClk w.me, none⟩] }) cx

/-- A fence orders the vault paths of its split (R69). -/
def fencePaths (s : State) (me : Nat) : State := s.setHb me { s.agHb me with fences := (s.agHb me).fences + 1 }

/-- An .ar fence takes its place in the order of R64: it follows the .ar fences before it in each other's scopes, and what happens
before it precedes the .ar events after it (log 91, DEDUCED). -/
def fenceOrder (s : State) (w : Who) : State :=
  let past := s.arPast w
  let s1 := s.setHb w.me { s.agHb w.me with arClk := past }
  { s1 with hb := { s1.hb with arFences := ⟨w.scp, w.place, (s1.relClk w.me).join past, none⟩ :: s1.hb.arFences } }

/-- FENCE (R233): an acquire, a release or both at a point of program order. The accesses before it have been performed, or their
requests to peer modules acknowledged (`farHeld`). -/
def execFence (f : Fld) (s : State) : Host.Outcome State Fault Refusal := issue (.fence f) s fun cx s =>
  let s1 := if cx.who.acq then fenceAcq s cx.who else s
  let s2 := if cx.who.ar then fenceOrder s1 cx.who else s1
  let s3 := if cx.rel then fenceRel s2 cx else s2
  .done (fencePaths s3 cx.me)

/-- The latest .wg release on a location counts from now on at .dev, and the promotion is remembered for the releases of the
promoting agent, by its group (R71; log 93, DESIGN CHOICE). -/
def widenRels (s : State) (w : Who) (k : Nat) : State :=
  match (s.writesOf k).find? fun r => r.rels.any fun x => x.scp == 1 with
  | none => s
  | some r =>
    let up (x : Rel) : Rel := if x.scp = 1 then { x with scp := 3 } else x
    { s with
      hist := s.hist.map fun (x : Wrec) => if x.seq = r.seq then { x with rels := x.rels.map up } else x
      hb := { s.hb with promoted := (k, w.party, r.place.wg) :: s.hb.promoted } }

/-- PROMOTE (R234, R71): an acquiring load at .dev on path 0x00, to which the latest .wg release on its address reaches. -/
def execPromote (f : Fld) (s : State) : Host.Outcome State Fault Refusal := issue (.promote f) s fun cx s =>
  let a := cx.addr true 0
  match badPath [0] [a] with
  | some m => .trap (cx.mtrap m)
  | none => match resolveAll s cx.who .load true natural [(none, a, tyBits cx.ty / 8)] with
    | .error m => .trap (cx.mtrap m)
    | .ok (hs, s1) => loadEff (widenRels s1 cx.who (((hs.flatMap (·.2)).map (·.key)).headD 0)) cx true cx.ty cx.f.d.toNat (tyBits cx.ty / 8) hs

end Sys2Proof.Machine
end

