-- ==== Sys2Proof/Machine/Vector.lean ====
section
/-! DEFINITION. Per-lane integer arithmetic, comparison, selection, moves and bit fields (R182 to R188), and
predicates and votes (R198, R199). -/

namespace Sys2Proof.Machine

open Sys2Proof

/-- A vector result of a type: `f` gives the value of each active lane. -/
def vResultAs (s : State) (cx : Cx) (ty : Nat) (f : Nat → Nat) : State := addFix s cx (vWrite ty cx.f.d.toNat cx.act f)
/-- A vector result of the instruction's type. -/
def vResult (s : State) (cx : Cx) (f : Nat → Nat) : State := vResultAs s cx cx.ty f
/-- A predicate result in the active lanes. -/
def pResult (s : State) (cx : Cx) (f : Nat → Bool) : State :=
  addFix s cx [.p (cx.f.d.toNat % 8) cx.act (maskOf f)]

/-- vd := op(va, b) per lane. -/
def vBin (op : Nat → Nat → Nat → Nat) (cx : Cx) (s : State) : Eff :=
  .done (vResult s cx fun l => op cx.ty (cx.va l) (cx.b l))
/-- vd := op(va, k) with k the n32 value of b. -/
def vShift (op : Nat → Nat → Nat → Nat) (cx : Cx) (s : State) : Eff :=
  .done (vResult s cx fun l => op cx.ty (cx.va l) (cx.b32 l))
/-- vd := op(va) per lane. -/
def vUn (op : Nat → Nat → Nat) (cx : Cx) (s : State) : Eff := .done (vResult s cx fun l => op cx.ty (cx.va l))
/-- vd := op(va), written as n32. -/
def vUn32 (op : Nat → Nat → Nat) (cx : Cx) (s : State) : Eff := .done (vResultAs s cx 1 fun l => op cx.ty (cx.va l))
/-- A variable-latency vd := op(va, b). -/
def vVar (op : Nat → Nat → Nat → Nat) (cx : Cx) (s : State) : Eff :=
  .done (startOp s cx .reg (vWrite cx.ty cx.f.d.toNat cx.act fun l => op cx.ty (cx.va l) (cx.b l)))

/-- VADD; M = 1 saturates (R182). -/
def execVadd (f : Fld) (s : State) : Host.Outcome State Fault Refusal := issue (.vadd f) s
  (vBin (if f.m = 1 then iAddSat else iAdd))
/-- VSUB; M = 1 saturates. -/
def execVsub (f : Fld) (s : State) : Host.Outcome State Fault Refusal := issue (.vsub f) s
  (vBin (if f.m = 1 then iSubSat else iSub))
/-- VMIN. -/
def execVmin (f : Fld) (s : State) : Host.Outcome State Fault Refusal := issue (.vmin f) s (vBin iMin)
/-- VMAX. -/
def execVmax (f : Fld) (s : State) : Host.Outcome State Fault Refusal := issue (.vmax f) s (vBin iMax)
/-- VAND. -/
def execVand (f : Fld) (s : State) : Host.Outcome State Fault Refusal := issue (.vand f) s (vBin iAnd)
/-- VOR. -/
def execVor (f : Fld) (s : State) : Host.Outcome State Fault Refusal := issue (.vor f) s (vBin iOr)
/-- VXOR. -/
def execVxor (f : Fld) (s : State) : Host.Outcome State Fault Refusal := issue (.vxor f) s (vBin iXor)
/-- VNOT. -/
def execVnot (f : Fld) (s : State) : Host.Outcome State Fault Refusal := issue (.vnot f) s (vUn iNot)
/-- VSHL. -/
def execVshl (f : Fld) (s : State) : Host.Outcome State Fault Refusal := issue (.vshl f) s (vShift iShl)
/-- VSHR. -/
def execVshr (f : Fld) (s : State) : Host.Outcome State Fault Refusal := issue (.vshr f) s (vShift iShr)
/-- VABS. -/
def execVabs (f : Fld) (s : State) : Host.Outcome State Fault Refusal := issue (.vabs f) s (vUn iAbs)
/-- VCLZ, written as n32. -/
def execVclz (f : Fld) (s : State) : Host.Outcome State Fault Refusal := issue (.vclz f) s (vUn32 iClz)
/-- VPOP, written as n32. -/
def execVpop (f : Fld) (s : State) : Host.Outcome State Fault Refusal := issue (.vpop f) s (vUn32 iPop)
/-- VBREV. -/
def execVbrev (f : Fld) (s : State) : Host.Outcome State Fault Refusal := issue (.vbrev f) s (vUn iBrev)
/-- VMUL (R183). -/
def execVmul (f : Fld) (s : State) : Host.Outcome State Fault Refusal := issue (.vmul f) s (vBin iMul)
/-- VMULH. -/
def execVmulh (f : Fld) (s : State) : Host.Outcome State Fault Refusal := issue (.vmulh f) s (vBin iMulh)
/-- VMAD. -/
def execVmad (f : Fld) (s : State) : Host.Outcome State Fault Refusal := issue (.vmad f) s fun cx s =>
  .done (vResult s cx fun l => iMad cx.ty (cx.va l) (cx.b l) (cx.c l))
/-- VDIV (R184). -/
def execVdiv (f : Fld) (s : State) : Host.Outcome State Fault Refusal := issue (.vdiv f) s (vVar iDiv)
/-- VREM. -/
def execVrem (f : Fld) (s : State) : Host.Outcome State Fault Refusal := issue (.vrem f) s (vVar iRem)
/-- VCMP (R185). -/
def execVcmp (f : Fld) (s : State) : Host.Outcome State Fault Refusal := issue (.vcmp f) s fun cx s =>
  .done (pResult s cx fun l => iCmp cx.ty cx.f.mn.toNat (cx.va l) (cx.b l))
/-- VSEL (R186). -/
def execVsel (f : Fld) (s : State) : Host.Outcome State Fault Refusal := issue (.vsel f) s fun cx s =>
  let p := cx.g.rp (cx.f.a.toNat % 8)
  .done (vResult s cx fun l => if p.getLsbD l then cx.b l else cx.c l)
/-- VMOV (R187). -/
def execVmov (f : Fld) (s : State) : Host.Outcome State Fault Refusal := issue (.vmov f) s fun cx s =>
  .done (vResultAs s cx 1 fun l => (cx.g.rv cx.f.a.toNat l).toNat)
/-- VLI (R187). -/
def execVli (f : Fld) (s : State) : Host.Outcome State Fault Refusal := issue (.vli f) s fun cx s =>
  .done (vResult s cx cx.b)
/-- VBFE (R188). -/
def execVbfe (f : Fld) (s : State) : Host.Outcome State Fault Refusal := issue (.vbfe f) s (vShift iBfe)
/-- VBFI. -/
def execVbfi (f : Fld) (s : State) : Host.Outcome State Fault Refusal := issue (.vbfi f) s fun cx s =>
  .done (vResult s cx fun l => iBfi cx.ty (cx.va l) (cx.b32 l) (cx.c l))
/-- VBREV of a field. -/
def execVbrevFld (f : Fld) (s : State) : Host.Outcome State Fault Refusal := issue (.vbrevFld f) s (vShift iBrevFld)

/-! ### Predicates -/

/-- A predicate source, inverted by a bit of M (R198). -/
def Cx.pSrc (cx : Cx) (r m : Nat) : Mask := if bit cx.m m then ~~~(cx.g.rp r) else cx.g.rp r
/-- pd := op(pa, pb). -/
def pBin (op : Mask → Mask → Mask) (cx : Cx) (s : State) : Eff :=
  let x := op (cx.pSrc (cx.f.a.toNat % 8) 0) (cx.pSrc (cx.f.b.toNat % 8) 1)
  .done (addFix s cx [.p (cx.f.d.toNat % 8) cx.act x])

/-- PAND. -/
def execPand (f : Fld) (s : State) : Host.Outcome State Fault Refusal := issue (.pand f) s (pBin fun a b => a &&& b)
/-- POR. -/
def execPor (f : Fld) (s : State) : Host.Outcome State Fault Refusal := issue (.por f) s (pBin fun a b => a ||| b)
/-- PXOR. -/
def execPxor (f : Fld) (s : State) : Host.Outcome State Fault Refusal := issue (.pxor f) s (pBin fun a b => a ^^^ b)
/-- PNOT. -/
def execPnot (f : Fld) (s : State) : Host.Outcome State Fault Refusal := issue (.pnot f) s (pBin fun a _ => ~~~a)

/-- The voting lanes and those of them in which pa holds (R199). -/
def votes (cx : Cx) : Mask × Mask := (cx.actNH, cx.actNH &&& cx.g.rp (cx.f.a.toNat % 8))
/-- VOTE.all. -/
def execVoteAll (f : Fld) (s : State) : Host.Outcome State Fault Refusal := issue (.voteAll f) s fun cx s =>
  let r := (votes cx).1 == (votes cx).2
  .done (pResult s cx fun _ => r)
/-- VOTE.any. -/
def execVoteAny (f : Fld) (s : State) : Host.Outcome State Fault Refusal := issue (.voteAny f) s fun cx s =>
  let r := (votes cx).2 != 0
  .done (pResult s cx fun _ => r)
/-- VOTE.ballot; without an active lane it has no effect (R180). -/
def execVoteBallot (f : Fld) (s : State) : Host.Outcome State Fault Refusal := issue (.voteBallot f) s fun cx s =>
  .done (if cx.act = 0 then s else addFix s cx (sWrite 10 cx.f.d.toNat (votes cx).2.toNat))

end Sys2Proof.Machine
end

