-- ==== Sys2Proof/Machine/Iterators.lean ====
section
/-! DEFINITION. The tensor iterators (R206 to R210) and the compressed spill and fill (R211 to R213). -/

namespace Sys2Proof.Machine

open Sys2Proof

/-! ### Records -/

/-- A record with a position, DONE and KDONE. -/
def tiSet (r : List Word) (e kdone : Nat) : List Word :=
  let d := tiDigits r e
  (List.range 10).map (fun k =>
    if k = 8 then BitVec.ofNat 32 (d.getD 0 0 + 65536 * d.getD 1 0)
    else if k = 9 then BitVec.ofNat 32 (d.getD 2 0 + 65536 * d.getD 3 0)
    else r.getD k 0) ++
  [BitVec.ofNat 32 (kdone + if tiTot r ≤ e then 256 else 0)] ++ List.replicate 5 0
/-- Store a record. -/
def Group.setRec (g : Group) (h : Nat) (r : List Word) : Group := { g with ti := Tab.put g.ti h r }

/-- Whether a record's counters lie within its extents or in the end form (R207). -/
def tiOk (r : List Word) : Bool :=
  (List.range 4).all (fun j => tiIx r j < tiExt r j) ||
  (tiIx r 0 == 0 && tiIx r 1 == 0 && tiIx r 2 == 0 && tiIx r 3 == tiExt r 3)

/-- The tensor-iterator trap; AUX names the handle. -/
def Cx.tiTrap (cx : Cx) (h : Nat) : Trap := cx.trap 0x0007 (BitVec.ofNat 64 h)

/-- TISET (R207): without an active lane it has no effect (R180). -/
def execTiset (f : Fld) (s : State) : Host.Outcome State Fault Refusal := issue (.tiset f) s fun cx s =>
  let h := cx.f.d.toNat % 4
  let r := (List.range 16).map fun k => cx.g.rs (cx.f.a.toNat + k)
  if cx.act = 0 then .done s
  else if !tiOk r then .trap (cx.tiTrap h)
  else .done (addFixTi s cx h (tiSet r (tiPos r) 0))

/-- TIGET (R209). -/
def execTiget (f : Fld) (s : State) : Host.Outcome State Fault Refusal := issue (.tiget f) s fun cx s =>
  let r := cx.g.tiRec (cx.f.a.toNat % 4)
  .done (vResult s cx fun l => if bit cx.m 0 then tiWord r (cx.b32 0 % 16) else (tiPos r + l) % 2 ^ 32)

/-! ### TIOP -/

/-- The registers of one element register: 1, or 2 for a 64-bit type. -/
def Tiop.regs (t : Tiop) : Nat := regsOf t.ty

/-- The requests of step k of a TIOP. -/
def tiReqs (r : List Word) (t : Tiop) (k : Nat) : List Req := tiReqsOf r t.act (laneAt t.ofs) t.ty k

/-- The fault that step k of a TIOP meets (R206, R214, R400). -/
def tiChecks (s : State) (w : Who) (t : Tiop) (rs : List Req) : Option MFault :=
  let k : AccK := if t.mode = 1 then .store else .load
  worstOf s w (rs.map fun r => admitted s w [0, 1, 8, 9, 12] k r (alignFor false r.2.1 r.2.2))

/-- The writes of step k of a load: a lane with no element receives 0. -/
def tiLand (t : Tiop) (k : Nat) (vals : List (Nat × Nat)) : List Wr :=
  vWrite t.ty (t.reg + k * t.regs) t.act fun l => Tab.get 0 vals l

/-- The bytes that step k of a store moves in a lane. -/
def tiBytes (t : Tiop) (k l : Nat) : List Byte :=
  let w (i : Nat) : Nat := (laneAt (t.data.getD (k * t.regs + i) []) l).toNat
  bytesOfNat (tyBits t.ty / 8) (if t.regs = 2 then w 0 + 2 ^ 32 * w 1 else w 0)

/-- The bytes that the steps of a TIOP.ld in progress await. -/
def Tiop.farHits (t : Tiop) : List Hit := t.plan.flatMap fun x => x.2.flatMap fun p => p.2.map (·.1)

/-- Change the TIOP of an operation. -/
def State.modTiop (s : State) (id : Nat) (f : Tiop → Tiop) : State := s.modOp id fun o => match o.k with
  | .tiop t => { o with k := .tiop (f t) }
  | _ => o

/-- Step k of a TIOP (R208): its accesses, then KDONE. What a load reads lands with the operation, or where a later step stops; a step
that has bytes of peer modules to wait for keeps what it has read here (R60). -/
def tiStep (s : State) (o : Op) (t : Tiop) (key k : Nat) : Stepped :=
  match s.group? key with
  | none => .ok s
  | some g =>
    let r := g.tiRec t.hnd
    let rs := tiReqs r t k
    let w := grpWho s o
    let done (s : State) : State := s.modGroup key fun g => g.setRec t.hnd (tiSet r (tiPos r) (k + 1))
    if t.mode = 2 then .ok (done s)
    else match tiChecks s w t rs with
    | some m => .stop s m
    | none => match resolveAll s w (if t.mode = 1 then .store else .load) false (alignFor false) rs with
      | .error m => .stop s m
      | .ok (hs, s1) =>
        if t.mode = 1 then .ok (done (writeLanes s1 w false hs (tiBytes t k)))
        else match anyPoison s1 (hs.flatMap (·.2)) with
          | some p => .stop s1 { cause := 0x4E, aux := poisonAux p, page := none }
          | none =>
            let (vals, s2) := readByteLanes s1 w false hs
            if isFar (hs.flatMap (·.2)) then .ok (done (s2.modTiop o.id fun x => { x with plan := x.plan ++ [(k, planOf hs vals)] }))
            else .ok (done (s2.modOp o.id fun x => { x with wrs := x.wrs ++ tiLand t k (vals.map fun v => (v.1, natOfBytes v.2)) }))

/-- Steps `k` on, `m` of them. -/
def tiSteps (s : State) (o : Op) (t : Tiop) (key k : Nat) : Nat → Stepped
  | 0 => .ok s
  | m + 1 => match tiStep s o t key k with
    | .stop s1 e => .stop s1 e
    | .ok s1 => tiSteps s1 o t key (k + 1) m

/-- The position after a TIOP (R208). -/
def tiAdvance (s : State) (t : Tiop) (key : Nat) : State := s.modGroup key fun g =>
  let r := g.tiRec t.hnd
  g.setRec t.hnd (tiSet r (min (tiPos r + t.n * W) (tiTot r)) 0)

/-- What an operation's writes have landed so far names its registers only (R210). -/
def landSoFar (s : State) (id key : Nat) : State :=
  match s.op? id with
  | none => s
  | some o => (s.modGroup key (·.landWrs o.wrs)).modOp id fun x => { x with wrs := pendingWrs x.refs }

/-- Go on with a TIOP from its record's KDONE: its accesses are made, or it stops at a deferred fault with KDONE kept (R208, R210,
R404). -/
def tiRun (s : State) (o : Op) (t : Tiop) (key : Nat) : Stepped :=
  let k := match s.group? key with
    | some g => tiKdone (g.tiRec t.hnd)
    | none => 0
  match tiSteps s o t key k (t.n - k) with
  | .ok s1 => .ok s1
  | .stop s1 m => .stop (deferFault (landSoFar s1 o.id key) o.id
      { opTrap o m.cause m.aux with walk := m.page.map fun p => ((grpWho s o).die, p) }) m

/-- A TIOP's writes to the record are issued after those of a TISET that have not landed, which they supersede (R136, R153; log 94,
DESIGN CHOICE). -/
def Group.dropTiset (g : Group) (h : Nat) : Group :=
  { g with fixes := g.fixes.map fun e => if e.ti.any fun x => x.1 == h then { e with ti := none } else e }

/-- The peers are asked for the bytes that the steps of a TIOP await. -/
def tiAsk (s : State) (id : Nat) (ns : Bool) : State := match s.op? id with
  | none => s
  | some o => match o.k with
    | .tiop t => if t.farHits.isEmpty then s else requestReads s ns id (farHits o.got t.farHits)
    | _ => s

/-- Start a TIOP (R208); without an active lane it has no effect and completes at once (R180). Its accesses are accesses of its
split in program order (R60), and are made as it issues; those to peer modules follow with the answers. -/
def tiopEff (mode : Nat) (cx : Cx) (s : State) : Eff :=
  let h := cx.f.a.toNat % 4
  let n := cx.b32 0
  let ty := cx.ty
  let last := cx.f.d.toNat + n * regsOf ty
  let inside := mode == 0 && cx.f.c.toNat < 256 && cx.f.d.toNat ≤ cx.f.c.toNat && cx.f.c.toNat < last
  let act := if mode = 1 then cx.actNH else cx.act
  if cx.act = 0 then .done (completeNow (startOp s cx .reg []))
  else if n = 0 ∨ 32 < n ∨ (mode ≠ 2 ∧ cx.l.k.regs < last) ∨ inside then .trap (cx.tiTrap h)
  else
    let data := if mode = 1 then (List.range (n * regsOf ty)).map fun k => lanesOf fun l => cx.g.rv (cx.f.d.toNat + k) l else []
    let t : Tiop := ⟨mode, ty, cx.f.d.toNat, n, h, act, lanesOf fun l => if cx.f.c = 384 then 0 else BitVec.ofNat 32 (cx.c32 l), data, []⟩
    let s1 := startLater (s.modGroup cx.gk (·.dropTiset h)) cx (.tiop t) (if mode = 0 then vRefs cx.f.d.toNat (n * regsOf ty) else [])
    match s1.op? (lastId s1) with
    | none => .done s1
    | some o => match tiRun s1 o t cx.gk with
      | .ok s2 => .done (tiAsk (opFollows s2 o) o.id cx.l.ctx.ns)
      | .stop s2 _ => .done (opFollows s2 o)

/-- TIOP.ld. -/
def execTiopLd (f : Fld) (s : State) : Host.Outcome State Fault Refusal := issue (.tiopLd f) s (tiopEff 0)
/-- TIOP.st. -/
def execTiopSt (f : Fld) (s : State) : Host.Outcome State Fault Refusal := issue (.tiopSt f) s (tiopEff 1)
/-- TIOP.adv. -/
def execTiopAdv (f : Fld) (s : State) : Host.Outcome State Fault Refusal := issue (.tiopAdv f) s (tiopEff 2)

/-- The writes of the steps of a TIOP.ld whose bytes of peer modules have arrived. -/
def Tiop.landPlan (t : Tiop) (w : Who) : List Wr :=
  t.plan.flatMap fun x => tiLand t x.1 (x.2.map fun p => (p.1, natOfBytes (withGot w (p.2.map (·.1)) (p.2.map (·.2)))))

/-- The TIOP of an operation as it stands; of another operation the one given. -/
def Op.tiopNow (o : Op) (t : Tiop) : Tiop := match o.k with
  | .tiop t' => t'
  | _ => t

/-- A TIOP whose steps are all made completes, once peer modules have answered and accepted. -/
def tiopEnd (s : State) (o : Op) (t : Tiop) (key : Nat) : Host.Outcome State Fault Refusal :=
  if !(farHits o.got t.farHits).isEmpty then .next (tiAsk s o.id (opNs s o))
  else if unackedOp s o.id then .next s
  else .next (completeOp (tiAdvance s t key) { o with wrs := o.wrs ++ t.landPlan (grpWho s o) })

/-- Complete a TIOP, or stop it at a deferred fault with KDONE kept (R208, R210, R404). -/
def tiopComplete (s : State) (o : Op) (t : Tiop) : Host.Outcome State Fault Refusal :=
  match agentKey o.ag with
  | none => .next s
  | some key =>
    if unackedOp s o.id then notNow "VARIABLE_LATENCY_COMPLETE"
    else withFar "VARIABLE_LATENCY_COMPLETE" s o (opNs s o) t.farHits fun s =>
      match tiRun s o t key with
      | .stop s1 _ => .next (opFollows s1 o)
      | .ok s1 => match s1.op? o.id with
        | none => .next s1
        | some o1 => tiopEnd (opFollows s1 o) o1 (o1.tiopNow t) key

/-! ### SPILL and FILL -/

/-- The slot address of SPILL and FILL (R212). -/
def Cx.slot (cx : Cx) : DWord := cx.g.rs2 (cx.f.b.toNat - 256) + BitVec.ofNat 64 (cx.c32 0)

/-- The format of a register and its base (R211, R212). -/
def spillFmt (lm : Mask) (v : Nat → Word) : Nat × Word :=
  let ls := lanesIn lm
  let base := v (ls.headD 0)
  let dl (l : Nat) : Int := (v l - base).toInt
  (if ls.all fun l => dl l == 0 then 1
   else if ls.all fun l => -128 ≤ dl l && dl l ≤ 127 then 2
   else if ls.all fun l => -32768 ≤ dl l && dl l ≤ 32767 then 3
   else 0, base)

/-- The bytes of a slot: the header and DATA (R211). -/
def spillBytes (lm : Mask) (v : Nat → Word) : List Byte :=
  let (fmt, base) := spillFmt lm v
  let x (l : Nat) : Word := if lm.getLsbD l then v l else 0
  let d (l : Nat) : Word := if lm.getLsbD l then v l - base else 0
  bytesOfNat 4 fmt ++ bytesOfNat 4 base.toNat ++ List.replicate 8 0 ++
  (match fmt with
    | 0 => (List.range W).flatMap fun l => bytesOfNat 4 (x l).toNat
    | 1 => []
    | 2 => (List.range W).flatMap fun l => bytesOfNat 1 (d l).toNat
    | _ => (List.range W).flatMap fun l => bytesOfNat 2 (d l).toNat)

/-- A slot's access: on path 0x00 or 0x08, the slot aligned to 16 bytes (R211, R214). -/
def slotResolve (s : State) (w : Who) (k : AccK) (slot : DWord) (off n : Nat) :
    Except MFault (List (Req × List Hit) × State) :=
  match worstOf s w [admitted s w [0, 8] k (none, slot, off + n) 16] with
  | some m => .error m
  | none => resolveAll s w k false (fun _ _ => 1) [(none, slot + BitVec.ofNat 64 off, n)]

/-- SPILL (R212): every lane of the launch mask, whatever the guard and the MASK. -/
def execSpill (f : Fld) (s : State) : Host.Outcome State Fault Refusal := issue (.spill f) s fun cx s =>
  let bs := spillBytes cx.g.lmask (cx.g.rv cx.f.a.toNat)
  match slotResolve s cx.who .store cx.slot 0 bs.length with
  | .error m => .trap (cx.mtrap m)
  | .ok (hs, s1) => .done (startOp (writeLanes s1 (cx.whoOp s1) false hs fun _ => bs) cx .store [])

/-- The size of DATA by format. -/
def fillSize (fmt : Nat) : Nat := match fmt with
  | 0 => 4 * W
  | 1 => 0
  | 2 => W
  | _ => 2 * W

/-- A lane's value from a slot's header and DATA (R211). -/
def fillLane (hdr data : List Byte) (l : Nat) : Nat :=
  let base := natOfBytes ((hdr.drop 4).take 4)
  let part (n : Nat) : Nat := natOfBytes ((data.drop (n * l)).take n)
  match natOfBytes (hdr.take 4) % 256 with
  | 0 => part 4
  | 1 => base
  | 2 => ofInt 32 (base + toSigned 8 (part 1))
  | _ => ofInt 32 (base + toSigned 16 (part 2))

/-- What reading a slot comes to: its bytes, a fault, a poisoned byte, or remote bytes that have to be asked for. -/
inductive Filled where
  | ok (hdr data : List Byte) (s : State)
  | bad (m : MFault)
  | poison (key : Nat) (s : State)
  | far (hs : List Hit) (s : State)
  deriving Repr

/-- The bytes of a slot's DATA that the lanes of a mask receive (R211). -/
def fillTakes (fmt : Nat) (act : Mask) (ds : List Hit) : List Hit :=
  let n := fillSize fmt / W
  (lanesIn act).flatMap fun l => (ds.drop (n * l)).take n

/-- Read a slot for some lanes (R213): the header, then as much DATA as its format has; a poisoned byte stops it where a lane receives
it (R412). Bytes of peer modules that have not arrived are to be asked for first. -/
def fillRead (s : State) (w : Who) (act : Mask) (slot : DWord) : Filled :=
  match slotResolve s w .load slot 0 16 with
  | .error m => .bad m
  | .ok (hs, s1) =>
    let hits := hs.flatMap (·.2)
    match anyPoison s1 (if act = 0 then [] else hits.take 8) with
    | some k => .poison k s1
    | none =>
      let (hdr, s2) := readHits s1 w false hits
      let fmt := natOfBytes (hdr.take 4) % 256
      if !(farHits w.got hits).isEmpty then .far hits s1
      else if 3 < fmt then .bad { cause := 0x4C, aux := slot, page := none }
      else match slotResolve s2 w .load slot 16 (fillSize fmt) with
        | .error m => .bad m
        | .ok (ds, s3) =>
          let dhits := ds.flatMap (·.2)
          if !(farHits w.got dhits).isEmpty then .far dhits s2
          else match anyPoison s3 (fillTakes fmt act dhits) with
          | some k => .poison k s3
          | none =>
            let (data, s4) := readHits s3 w false dhits
            .ok hdr data s4

/-- The writes of a FILL. -/
def fillWrs (d : Nat) (act : Mask) (hdr data : List Byte) : List Wr := vWrite 1 d act (fillLane hdr data)

/-- FILL (R213). -/
def execFill (f : Fld) (s : State) : Host.Outcome State Fault Refusal := issue (.fill f) s fun cx s =>
  let d := cx.f.d.toNat
  let later (s : State) : State := startLater s cx (.fill d cx.act cx.slot) [.v d]
  match fillRead s { cx.who with got := [] } cx.act cx.slot with
  | .bad m => .trap (cx.mtrap m)
  | .poison k s1 => .done (stopPoison (later s1) (lastId (later s1)) k)
  | .far hs s1 => .done (requestReads (later s1) cx.l.ctx.ns (lastId (later s1)) hs)
  | .ok hdr data s1 => .done (startOp s1 cx .reg (fillWrs d cx.act hdr data))

end Sys2Proof.Machine
end

