-- ==== Sys2Proof/Machine/Scalar.lean ====
section
/-! DEFINITION. Scalar integer arithmetic (R167 to R174) and the special registers (R142, R143, R175, R176). -/

namespace Sys2Proof.Machine

open Sys2Proof

/-- A scalar result of the instruction's type. -/
def sResult (s : State) (cx : Cx) (x : Nat) : State := addFix s cx (sWrite cx.ty cx.f.d.toNat x)
/-- A scalar result written as n32. -/
def sResult32 (s : State) (cx : Cx) (x : Nat) : State := addFix s cx (sWrite 1 cx.f.d.toNat x)

/-- sd := op(sa, b). -/
def sBin (op : Nat → Nat → Nat → Nat) (cx : Cx) (s : State) : Eff := .done (sResult s cx (op cx.ty cx.sa (cx.b 0)))
/-- sd := op(sa, k) with k the n32 value of b (R167). -/
def sShift (op : Nat → Nat → Nat → Nat) (cx : Cx) (s : State) : Eff := .done (sResult s cx (op cx.ty cx.sa (cx.b32 0)))
/-- A variable-latency sd := op(sa, b) (R169). -/
def sVar (op : Nat → Nat → Nat → Nat) (cx : Cx) (s : State) : Eff :=
  .done (startOp s cx .reg (sWrite cx.ty cx.f.d.toNat (op cx.ty cx.sa (cx.b 0))))

/-- SADD. -/
def execSadd (f : Fld) (s : State) : Host.Outcome State Fault Refusal := issue (.sadd f) s (sBin iAdd)
/-- SSUB. -/
def execSsub (f : Fld) (s : State) : Host.Outcome State Fault Refusal := issue (.ssub f) s (sBin iSub)
/-- SMIN. -/
def execSmin (f : Fld) (s : State) : Host.Outcome State Fault Refusal := issue (.smin f) s (sBin iMin)
/-- SMAX. -/
def execSmax (f : Fld) (s : State) : Host.Outcome State Fault Refusal := issue (.smax f) s (sBin iMax)
/-- SAND. -/
def execSand (f : Fld) (s : State) : Host.Outcome State Fault Refusal := issue (.sand f) s (sBin iAnd)
/-- SOR. -/
def execSor (f : Fld) (s : State) : Host.Outcome State Fault Refusal := issue (.sor f) s (sBin iOr)
/-- SXOR. -/
def execSxor (f : Fld) (s : State) : Host.Outcome State Fault Refusal := issue (.sxor f) s (sBin iXor)
/-- SNOT. -/
def execSnot (f : Fld) (s : State) : Host.Outcome State Fault Refusal := issue (.snot f) s fun cx s =>
  .done (sResult s cx (iNot cx.ty cx.sa))
/-- SSHL. -/
def execSshl (f : Fld) (s : State) : Host.Outcome State Fault Refusal := issue (.sshl f) s (sShift iShl)
/-- SSHR. -/
def execSshr (f : Fld) (s : State) : Host.Outcome State Fault Refusal := issue (.sshr f) s (sShift iShr)
/-- SCLZ, written as n32. -/
def execSclz (f : Fld) (s : State) : Host.Outcome State Fault Refusal := issue (.sclz f) s fun cx s =>
  .done (sResult32 s cx (iClz cx.ty cx.sa))
/-- SPOP, written as n32. -/
def execSpop (f : Fld) (s : State) : Host.Outcome State Fault Refusal := issue (.spop f) s fun cx s =>
  .done (sResult32 s cx (iPop cx.ty cx.sa))
/-- SMUL (R168). -/
def execSmul (f : Fld) (s : State) : Host.Outcome State Fault Refusal := issue (.smul f) s (sBin iMul)
/-- SMULH. -/
def execSmulh (f : Fld) (s : State) : Host.Outcome State Fault Refusal := issue (.smulh f) s (sBin iMulh)
/-- SMAD. -/
def execSmad (f : Fld) (s : State) : Host.Outcome State Fault Refusal := issue (.smad f) s fun cx s =>
  .done (sResult s cx (iMad cx.ty cx.sa (cx.b 0) (cx.c 0)))
/-- SDIV (R169). -/
def execSdiv (f : Fld) (s : State) : Host.Outcome State Fault Refusal := issue (.sdiv f) s (sVar iDiv)
/-- SREM. -/
def execSrem (f : Fld) (s : State) : Host.Outcome State Fault Refusal := issue (.srem f) s (sVar iRem)
/-- SCMP, written as n32 (R170). -/
def execScmp (f : Fld) (s : State) : Host.Outcome State Fault Refusal := issue (.scmp f) s fun cx s =>
  .done (sResult32 s cx (if iCmp cx.ty cx.f.mn.toNat cx.sa (cx.b 0) then 1 else 0))
/-- SSEL (R171). -/
def execSsel (f : Fld) (s : State) : Host.Outcome State Fault Refusal := issue (.ssel f) s fun cx s =>
  .done (sResult s cx (if cx.g.rs cx.f.a.toNat ≠ 0 then cx.b 0 else cx.c 0))
/-- SMOV (R172). -/
def execSmov (f : Fld) (s : State) : Host.Outcome State Fault Refusal := issue (.smov f) s fun cx s =>
  .done (addFix s cx [.s cx.f.d.toNat (cx.g.rs cx.f.a.toNat)])
/-- SLI (R173). -/
def execSli (f : Fld) (s : State) : Host.Outcome State Fault Refusal := issue (.sli f) s fun cx s =>
  .done (sResult s cx (cx.b 0))
/-- SBFE (R174). -/
def execSbfe (f : Fld) (s : State) : Host.Outcome State Fault Refusal := issue (.sbfe f) s (sShift iBfe)
/-- SBFI (R174). -/
def execSbfi (f : Fld) (s : State) : Host.Outcome State Fault Refusal := issue (.sbfi f) s fun cx s =>
  .done (sResult s cx (iBfi cx.ty cx.sa (cx.b32 0) (cx.c 0)))

/-! ### Special registers -/

/-- The value of a special register in a lane (R142, R143); on the spool processor the workgroup's values (R261). -/
def srValue (s : State) (cx : Cx) (n l : Nat) : Nat :=
  let b (x : Bool) : Nat := if x then 1 else 0
  let chk := if cx.onSpool then cx.l.chksb else cx.g.chksb
  let trap : Word × DWord := match cx.w.spool, cx.onSpool with
    | some p, true => (p.trapCause, p.trapAddr)
    | _, _ => (cx.g.trapCause, cx.g.trapAddr)
  match n with
  | 0x00 => l
  | 0x01 => l / 4
  | 0x02 => b (cx.g.helper.getLsbD l)
  | 0x08 => cx.g.grp
  | 0x09 => cx.w.wx
  | 0x0A => cx.w.wy
  | 0x0B => cx.w.wz
  | 0x0C => cx.w.ix
  | 0x0D => cx.l.gx
  | 0x0E => cx.l.gy
  | 0x0F => cx.l.gz
  | 0x10 => W
  | 0x11 => cx.core
  | 0x12 => dieOf cx.core
  | 0x13 => cx.l.ctx.slice
  | 0x14 => s.clock % 2 ^ 64
  | 0x15 => (cx.g.iter.getD 0xFFFFFFFF).toNat
  | 0x16 => cx.g.stage.toNat
  | 0x17 => b chk + 2 * b cx.l.det + 4 * b cx.l.ctx.ns
  | 0x18 => cx.g.fpstat.toNat
  | 0x19 => if cx.onSpool then cx.l.agemax else cx.g.agemax
  | 0x1A => trap.1.toNat
  | 0x1B => trap.2.toNat
  | 0x1C => cx.w.vwbase
  | 0x1D => cx.w.vwsize
  | 0x1E => cx.l.k.priv
  | 0x1F => cx.l.seed.toNat
  | 0x20 => cx.l.lid.toNat
  | 0x21 => cx.l.l
  | 0x22 => cx.w.ngrp
  | _ => 0

/-- GETSR, scalar form (R175). -/
def execGetsr (f : Fld) (s : State) : Host.Outcome State Fault Refusal := issue (.getsr f) s fun cx s =>
  .done (sResult s cx (srValue s cx cx.f.a.toNat 0))
/-- GETSR, vector form. -/
def execGetsrVector (f : Fld) (s : State) : Host.Outcome State Fault Refusal := issue (.getsrVector f) s fun cx s =>
  .done (addFix s cx (vWrite cx.ty cx.f.d.toNat cx.act (srValue s cx cx.f.a.toNat)))

/-- AGEMAX clamped to 1 to 4,094 (R39). -/
def clampAge (x : Nat) : Nat := max 1 (min x 4094)

/-- SETSR (R176): MODE.CHKSB, FPSTAT and AGEMAX; a write of any other register is ignored. -/
def execSetsr (f : Fld) (s : State) : Host.Outcome State Fault Refusal := issue (.setsr f) s fun cx s =>
  let x := cx.b32 0
  let e : Fix := { ready := s.clock + latOf cx, split := cx.k, wrs := [], age := if cx.f.a.toNat = 0x19 then some (clampAge x) else none }
  .done (s.modGroup cx.gk fun g =>
    let g1 := match cx.f.a.toNat with
      | 0x17 => { g with chksb := bit x 0 }
      | 0x18 => { g with fpstat := BitVec.ofNat 5 x }
      | _ => g
    { g1 with fixes := g1.fixes ++ [e] })

end Sys2Proof.Machine
end

