-- ==== Sys2Proof/Machine/Sync.lean ====
section
/-! DEFINITION. Barriers (R235 to R238), queue registers (R239 to R243), the mailbox of the spool processor (R263, R264),
and ordered atomics (R228, R229). -/

namespace Sys2Proof.Machine

open Sys2Proof

/-! ### Barriers -/

/-- The barrier that D names. -/
def Cx.bn (cx : Cx) : Nat := cx.f.d.toNat % 16
/-- The barrier-misuse trap for a count (R381). -/
def Cx.barTrap (cx : Cx) (n : Nat) : Trap := cx.trap 0x0008 (BitVec.ofNat 64 (cx.bn + n * 2 ^ 32))

/-- A barrier register with another expected count (R238). -/
def Bar.expect (b : Bar) (n : Nat) : Bar := barFlip b.arr { b with exp := n }

/-- Another expected count for a barrier of a workgroup: where it completes a phase, that phase's arrivals can be acquired (R62). -/
def State.expectAt (s : State) (wid n x : Nat) : State :=
  let s1 := s.modWg wid fun w => { w with bars := Tab.put w.bars n ((w.bar n).expect x) }
  let flips : Bool := match s.wg? wid, s1.wg? wid with
    | some w, some w' => (w'.bar n).arr != (w.bar n).arr
    | _, _ => false
  if flips then (s1.post (.bar wid n) (s1.gathered (.barNow wid n))).setChan (.barNow wid n) [] else s1

/-- BARI. -/
def execBari (f : Fld) (s : State) : Host.Outcome State Fault Refusal := issue (.bari f) s fun cx s =>
  let n := cx.b32 0
  if n = 0 ∨ 4095 < n then .trap (cx.barTrap n)
  else .done (s.expectAt cx.wid cx.bn n)

/-- BARA: a release at .wg, then one arrival. -/
def execBara (f : Fld) (s : State) : Host.Outcome State Fault Refusal := issue (.bara f) s fun cx s =>
  let n := cx.b32 0
  if n = 0 ∨ 4095 < n then .trap (cx.barTrap n)
  else .done (releaseBy (s.arriveAt cx.wid cx.bn n (s.relClk cx.me)) cx)

/-- The effect of a BARW: its return acquires what the arrivals of the completed phases have released (R62). -/
def barwEff (cx : Cx) (s : State) : Eff :=
  if waitMet s cx then .done (s.hear cx.me (.bar cx.wid cx.bn)) else .wait s

/-- BARW: a waiting instruction. -/
def execBarw (f : Fld) (s : State) : Host.Outcome State Fault Refusal := issue (.barw f) s fun cx s =>
  barwEff cx s

/-- Whether an instruction is a BARW. -/
def isBarw : Instr → Bool
  | .barw _ => true
  | _ => false

/-- The return of a BARW. -/
def execBarwReturn (ag : Agent) (s : State) : Host.Outcome State Fault Refusal :=
  resume "BARW_RETURN" ag s isBarw barwEff

/-- BART: the word of R235 as it stands now. -/
def execBart (f : Fld) (s : State) : Host.Outcome State Fault Refusal := issue (.bart f) s fun cx s =>
  .done (addFix s cx [.s cx.f.d.toNat (cx.w.bar (cx.f.a.toNat % 16)).word])

/-! ### q0 -/

/-- The predicate that a queue instruction writes. -/
def Cx.pd (cx : Cx) : Nat := cx.f.c.toNat % 8

/-- The key that stands for a row of a core's accumulator memory. -/
def accKey (core tile row : Nat) : Nat := mKey (148 + core) (16384 * tile + 256 * row)

/-- The row that the next pop takes: its key in the accumulator memory. -/
def Matrix.popKey (m : Matrix) : Nat := 64 * m.pub.headD 0 + m.nextRow

/-- The matrix unit after a pop: after row 63 the tile is free (R258). -/
def Matrix.popped (m : Matrix) : Matrix :=
  if m.nextRow = 63 then { m with pub := m.pub.tail, nextRow := 0 } else { m with nextRow := m.nextRow + 1 }

/-- A QPOP of q0 that takes its row (R240); it acquires what the publication of its tile released. -/
def popRow (s : State) (cx : Cx) : State :=
  let c := s.core cx.core
  let key := c.mx.popKey
  let row := Tab.get [] c.mx.acc key
  let ws : List Wr := [.v cx.f.d.toNat cx.act row, .p cx.pd cx.act (BitVec.allOnes 64)]
  let pasts := s.chan (.tile cx.core)
  let heard := s.learn cx.me (pasts.headD [])
  let s1 := (if c.mx.nextRow = 63 then heard.setChan (.tile cx.core) pasts.tail else heard).setCore cx.core { c with mx := c.mx.popped }
  if decide (key ∈ c.mx.bad) then
    let k := accKey cx.core (key / 64) (key % 64)
    let s2 := startOp s1 cx (.badRow k) ws
    stopPoison s2 (lastId s2) k
  else startOp s1 cx .reg ws

/-! ### q1 -/

/-- The records that a group holds end their hold and free their slots (R242). -/
def endHold (s : State) (cx : Cx) : State :=
  match s.group? cx.gk with
  | none => s
  | some g => (freeHeld s cx.lid g).modGroup cx.gk fun g => { g with held := [] }

/-- The writes of a pop that served some lanes with records (R241). -/
def popWrs (cx : Cx) (n rw : Nat) (served : List (Nat × List Word)) : List Wr :=
  let m := maskOf fun l => (Tab.find? served l).isSome
  (List.range n).map (fun k => (.v (cx.f.d.toNat + k) m (lanesOf fun l =>
    if k < rw then (Tab.get [] served l).getD k 0 else 0) : Wr)) ++ [.p cx.pd cx.act m]

/-- A pop of q1: the lanes that are served, ascending, each with the next record (R241, R242), whose LAUNCH it acquires (R62); none
where an earlier pop of the queue waits, `barred`. -/
def popTasks (s : State) (cx : Cx) (barred : Bool := false) : State :=
  let n := cx.b32 0
  match nodeOf s cx.l with
  | none => startOp s cx .reg (popWrs cx n 0 [])
  | some (gid, g, nn, x) =>
    let recs := if barred then [] else (servable s cx.l.det g nn x).take (popMask cx.actNH)
    let served := (lanesIn cx.actNH).zip (recs.map (·.words))
    let s1 := { s with graphs := Tab.modify s.graphs gid fun y =>
      { y with nodes := y.nodes.modify nn fun z => { z with queue := z.queue.drop recs.length } } }
    let s2 := recs.foldl (fun (s : State) r => s.learn cx.me r.clk) (s1.modGroup cx.gk fun gr => { gr with held := served })
    settleGraph (startOp s2 cx .reg (popWrs cx n x.rw served)) gid

/-- QPOP: a waiting instruction (R239 to R241). -/
def qpopEff (cx : Cx) (s : State) : Eff :=
  if cx.f.a = 0 then (if waitMet s cx then .done (popRow s cx) else .wait s)
  else
    let s1 := endHold s cx
    if waitMet s1 cx then .done (popTasks s1 cx) else .wait s1

/-- QPOP. -/
def execQpop (f : Fld) (s : State) : Host.Outcome State Fault Refusal := issue (.qpop f) s qpopEff

/-- QPOP.TRY never waits: without a row it writes pd := 0; of q1 it serves the records present. What stands in the queue while an
earlier QPOP of the group waits goes to that one (R242). -/
def execQpopTry (f : Fld) (s : State) : Host.Outcome State Fault Refusal := issue (.qpopTry f) s fun cx s =>
  if cx.f.a = 0 then
    if (s.core cx.core).mx.pub.isEmpty || earlierPop s cx true then .done (startOp s cx .reg [.p cx.pd cx.act 0]) else .done (popRow s cx)
  else .done (popTasks (endHold s cx) cx (earlierPop (endHold s cx) cx false))

/-- Whether an instruction is a QPOP that waits. -/
def isQpop : Instr → Bool
  | .qpop _ => true
  | _ => false

/-- A waiting QPOP is served (R240 to R242). -/
def execQpopServe (ag : Agent) (s : State) : Host.Outcome State Fault Refusal := resume "QPOP_SERVE" ag s isQpop qpopEff

/-- The record that a lane pushes back; the pop that receives it acquires the LAUNCH that wrote it, as the pushing one has. -/
def pushRec (cx : Cx) (past : Clk) (n rw l : Nat) (ws : List Word) : TaskRec :=
  { words := ws.zipIdx.map fun wk => if wk.2 < min n rw then cx.g.rv (cx.f.a.toNat + wk.2) l else wk.1, clk := past }

/-- QPUSH (R243): the records of the active lanes that hold one return to the head of the queue. -/
def execQpush (f : Fld) (s : State) : Host.Outcome State Fault Refusal := issue (.qpush f) s fun cx s =>
  match nodeOf s cx.l with
  | none => .done s
  | some (gid, _, nn, x) =>
    let mine := cx.g.held.filter fun e => cx.act.getLsbD e.1
    let recs := mine.map fun e => pushRec cx (s.agHb cx.me).clk (cx.b32 0) x.rw e.1 e.2
    let s1 := { s with graphs := Tab.modify s.graphs gid fun y =>
      { y with nodes := y.nodes.modify nn fun z => { z with queue := recs ++ z.queue } } }
    .done (s1.modGroup cx.gk fun g => { g with held := g.held.filter fun e => !cx.act.getLsbD e.1 })

/-! ### The mailbox -/

/-- SPREQ (R263): a release at .wg; the word is discarded where no spool processor runs. -/
def execSpreq (f : Fld) (s : State) : Host.Outcome State Fault Refusal := issue (.spreq f) s fun cx s =>
  if cx.w.spool.any (·.run) then
    .done ((releaseBy (s.push (.mail cx.wid) (s.relClk cx.me)) cx).modWg cx.wid fun w =>
      { w with mbox := w.mbox ++ [BitVec.ofNat 32 (cx.b32 0)] })
  else .done (releaseBy s cx)

/-- Take the oldest word of the mailbox, and acquire what its SPREQ released (R263, R264). -/
def takeMail (s : State) (cx : Cx) : State := (s.pull cx.me (.mail cx.wid)).modWg cx.wid fun w => { w with mbox := w.mbox.tail }

/-- The effect of SPRECV. -/
def sprecvEff (cx : Cx) (s : State) : Eff :=
  match cx.w.mbox with
  | [] => .wait s
  | x :: _ => .done (addFix (takeMail s cx) cx [.s cx.f.d.toNat x])

/-- SPRECV: a waiting instruction (R264). -/
def execSprecv (f : Fld) (s : State) : Host.Outcome State Fault Refusal := issue (.sprecv f) s sprecvEff

/-- SPRECV.TRY. -/
def execSprecvTry (f : Fld) (s : State) : Host.Outcome State Fault Refusal := issue (.sprecvTry f) s fun cx s =>
  let d := cx.f.d.toNat
  match cx.w.mbox with
  | [] => .done (addFix s cx [.s d 0, .s (d + 1) 0])
  | x :: _ => .done (addFix (takeMail s cx) cx [.s d x, .s (d + 1) 1])

/-- Whether an instruction is a SPRECV that waits. -/
def isSprecv : Instr → Bool
  | .sprecv _ => true
  | _ => false

/-- A waiting SPRECV receives a word. -/
def execSprecvReceive (ag : Agent) (s : State) : Host.Outcome State Fault Refusal :=
  resume "SPRECV_RECEIVE" ag s isSprecv sprecvEff

/-! ### Ordered atomics -/

/-- Whether every group below `upto` of workgroup `ix` of a launch has issued its ATOM.ord at a site or exited (R229). -/
def siteSettled (s : State) (lid : Nat) (l : Launch) (site ix upto : Nat) : Bool :=
  decide (ix ∈ l.done) ||
  match s.wgs.find? fun e => e.2.lnch == lid && e.2.ix == ix with
  | none => false
  | some (wid, w) =>
    (wgGroups s wid w).all (fun g => upto ≤ g.grp || g.exited || decide (site ∈ g.sites))

/-- The order of contributions: workgroup, then group (R229). -/
def Contrib.before (a b : Contrib) : Bool := a.wg < b.wg || (a.wg == b.wg && a.grp < b.grp)

/-- Put a contribution in its place. -/
def insertContrib (c : Contrib) : List Contrib → List Contrib
  | [] => [c]
  | x :: xs => if c.before x then c :: x :: xs else x :: insertContrib c xs

/-- The lanes of a contribution applied to a running total: the results by lane, the total, the flags. -/
def applyLanes (ty mn : Nat) : List (Nat × DWord) → Nat → List (Nat × Nat) × Nat × BitVec 5
  | [], acc => ([], acc, 0)
  | (l, b) :: xs, acc =>
    let r := atomOp mn ty acc b.toNat 0
    let (ys, acc', fl) := applyLanes ty mn xs r.1
    ((l, acc) :: ys, acc', r.2 ||| fl)

/-- The total after some contributions. -/
def applyAll (ty : Nat) (cs : List Contrib) (acc : Nat) : Nat :=
  cs.foldl (fun a c => (applyLanes ty c.opn c.lanes a).2.1) acc

/-- Whether every contribution before one is known (R229). -/
def contribKnown (s : State) (lid : Nat) (l : Launch) (site : Nat) (st : Site) (c : Contrib) : Bool :=
  (List.range (c.wg - st.next)).all (fun i => siteSettled s lid l site (st.next + i) 32) &&
  siteSettled s lid l site c.wg c.grp

/-- Change a site of a launch. -/
def modSite (s : State) (lid site : Nat) (f : Site → Site) : State :=
  s.modLaunch lid fun l => { l with sites := l.sites.modify site f }

/-- ATOM.ord (R228): the contribution takes its place; its result lands once those before it are known. -/
def execAtomOrd (f : Fld) (s : State) : Host.Outcome State Fault Refusal := issue (.atomOrd f) s fun cx s =>
  let site := cx.f.c.toNat / 64 % 8
  let scp := cx.f.c.toNat / 8 % 8
  let a := cx.g.rs2 cx.f.a.toNat
  let bad := cx.trap 0x000D (BitVec.ofNat 64 site)
  match cx.l.sites[site]? with
  | none => .trap bad
  | some st =>
    if !cx.l.det || st.addr != a || st.ty != cx.ty || decide (site ∈ cx.g.sites) then .trap bad
    else match resolveAll s cx.who .atomic true natural [(none, a, tyBits cx.ty / 8)] with
    | .error m => .trap (cx.mtrap m)
    | .ok (_, s1) =>
      let ret := bit cx.m 0
      let refs := if ret then vRefs cx.f.d.toNat (regsOf cx.ty) else []
      let s2 := startLater (afterStore s1 cx) cx (.atomOrd site cx.f.d.toNat ret false) refs
      let c : Contrib := { wg := cx.w.ix, grp := cx.g.grp, op := lastId s2, opn := cx.f.mn.toNat, ord := cx.ord, scp := scp
                           lanes := (lanesIn cx.actNH).map fun l => (l, BitVec.ofNat 64 (cx.b l)), place := cx.place
                           fence := (s1.agHb cx.me).fenceRel, clk := s1.relClk cx.me }
      let s3 := modSite s2 cx.lid site fun x => { x with waiting := insertContrib c x.waiting }
      .done (s3.modGroup cx.gk fun g => { g with sites := g.sites ++ [site] })

/-- The ORD of a passage write (R229). -/
def passOrd (cs : List Contrib) : Nat :=
  if cs.any (·.ord == 4) then 4 else if cs.any (·.ord == 3) then 3 else 1

/-- The scope of a passage write (R229). -/
def passScp (cs : List Contrib) : Nat := cs.foldl (fun m c => max m c.scp) 0

/-- What happens before a passage write: it counts as issued after the ATOM.ord of each contributing group (R229). -/
def passPast (cs : List Contrib) : Clk := cs.foldl (fun c x => c.join x.clk) []

/-- The releases that a passage write carries (R229, R61): its own, by each contributing group, those of fences before it, and as an
atomic those of the passage that it follows. -/
def passRels (prev : List Rel) (cs : List Contrib) : List Rel :=
  (if 3 ≤ passOrd cs then cs.map fun c => ⟨passScp cs, c.place, passPast cs, none⟩ else []) ++ cs.flatMap (·.fence) ++ prev

/-- The releases that the passage carries which a contribution reads, where the contributions `before` it have still to pass. -/
def siteRels (st : Site) (before : List Contrib) (wg : Nat) : List Rel :=
  (((before.filter (·.wg < wg)).map (·.wg)).eraseDups).foldl (fun rels k => passRels rels (before.filter (·.wg == k))) st.rels

/-- An acquiring contribution at .dev or wider synchronises with the passage that it reads (R229, R61). -/
def siteHear (s : State) (st : Site) (before : List Contrib) (c : Contrib) : State :=
  match s.op? c.op with
  | some o =>
    if o.acq && 3 ≤ c.scp then
      let w : Who := { ctx := {}, me := agentMe s o.ag, place := c.place, scp := c.scp }
      ((siteRels st before c.wg).filter (·.reaches w)).foldl (fun (s : State) r => s.learn w.me r.clk) (s.acquires w.me)
    else s
  | none => s

/-- Give the operation of a contribution its result; after this the operation completes like any other. -/
def giveResult (s0 : State) (st : Site) (c : Contrib) (acc : Nat) : State :=
  let r := applyLanes st.ty c.opn c.lanes acc
  let s := siteHear s0 st [] c
  s.modOp c.op fun o => match o.k with
    | .atomOrd _ d ret false => { o with k := .reg, wrs := if ret then loadWrs st.ty d (tyBits st.ty / 8) r.1 else [], flags := r.2.2 }
    | _ => { o with k := .reg, wrs := [], flags := 0 }

/-- The results of the contributions of one workgroup's passage. -/
def giveResults (s : State) (st : Site) : List Contrib → Nat → State × Nat
  | [], acc => (s, acc)
  | c :: cs, acc => giveResults (giveResult s st c acc) st cs (applyLanes st.ty c.opn c.lanes acc).2.1

/-- Record the trap entry of a fault in an access made for a running launch, then kill the launch (R438): kind 0 a scoreboard
write-back, 1 a passage write. The entry freezes no agent. -/
def launchFault (s : State) (lid : Nat) (m : MFault) (kind ix : Nat) : State :=
  match s.launch? lid with
  | none => s
  | some l =>
    let t : Trap := { cause := 0x0082, info := 0, addr := m.aux, aux := BitVec.ofNat 64 (m.cause % 256 + kind * 256), atIssue := true }
    let s1 := killLaunch s lid
    if (s.queue l.q).trLog = 0 then s1.logErr 4
    else { s1 with pend := s1.pend ++ [{ q := l.q, serial := 0, lnch := lid, lid := l.lid, trap := t, joined := []
                                         entry := entryWords 0 t l.lid ix 0 0 0 0 0 s.clock, written := false, at_ := s.clock }] }

/-- A grid is complete when every workgroup has retired and, in a deterministic launch, has passed every ordered-atomic site (R318, R45,
R229). -/
def gridComplete (l : Launch) : Bool := l.n ≤ l.done.length && (!l.det || l.sites.all fun x => l.n ≤ x.next)

/-- Complete a grid that has nothing left, its scoreboard written back; a fault there kills it (R305, R438). `ix`: the workgroup
whose retirement or passage is served. -/
def settleLaunch (s : State) (lid ix : Nat) : State :=
  match s.launch? lid with
  | none => s
  | some l =>
    let isTask := match l.node with
      | some (g, n) => (Tab.find? s.graphs g).any fun y => (y.nodes.getD n { task := false, body := [] }).task
      | none => false
    if l.killed || isTask || !gridComplete l then s
    else match boardOut s lid ix with
      | .error m => launchFault s lid m 0 ix
      | .ok s1 => finishLaunch s1 lid

/-- The site after the passage of its next workgroup with a total; the identity keeps the ORD and SCP of the passage before (R229). -/
def Site.passed (st : Site) (mine : List Contrib) (acc : Nat) : Site :=
  { st with
    acc := BitVec.ofNat 64 acc, next := st.next + 1, waiting := st.waiting.filter (·.wg != st.next)
    ord := if mine.isEmpty then st.ord else passOrd mine, scp := if mine.isEmpty then st.scp else passScp mine
    rels := passRels st.rels mine }

/-- Who writes X in a passage (R229): the passages of a site as an agent of their own, for the place and the race tags of the last
contributing group; the identity is no group's. -/
def passageWho (s : State) (lid site : Nat) (l : Launch) (st' : Site) (mine : List Contrib) : Who :=
  { ctx := l.ctx, histStart := l.histStart, op := some s.nextId, me := siteMe lid site, lnch := lid + 1, atom := true, scp := st'.scp
    rel := 3 ≤ st'.ord, ar := st'.ord == 4, place := (mine.getLast?.map (·.place)).getD {}
    party := ((mine.getLast?.bind fun c => s.op? c.op).map fun o => agentParty o.ag).getD 0 }

/-- Write X in a passage (R229): one atomic access, which carries the releases of the site. Races are looked for where a group has
contributed (R406, R407). -/
def passageWrite (s : State) (w : Who) (st' : Site) (mine : List Contrib) : Except MFault State :=
  let n := tyBits st'.ty / 8
  match resolveAll s w .store true (fun _ _ => n) [(none, st'.addr, n)] with
  | .error m => if m.cause = 0x4D ∧ mine.isEmpty then writePlain s w st'.addr n (bytesOfNat n st'.acc.toNat) else .error m
  | .ok (hs, s1) =>
    let hits := (hs.flatMap (·.2)).map fun h => { h with tracked := h.tracked && !mine.isEmpty }
    let s2 := writeHits { s1 with hb := (s1.setHb w.me { s1.agHb w.me with clk := (s1.agHb w.me).clk.join (passPast mine) }).hb } w true hits
      (bytesOfNat n st'.acc.toNat)
    let mark (r : Wrec) : Wrec := if s1.histLen ≤ r.seq then { r with rels := st'.rels } else r
    .ok ({ s2 with hist := s2.hist.map mark }.bump w.me)

/-- The passage of the next workgroup at a site of a deterministic launch (R229, R45): its contributions are applied in order and X is
written; their operations complete once a peer module that holds X has accepted it (R218). -/
def execOrderedPassage (lnch site : Nat) (s : State) : Host.Outcome State Fault Refusal :=
  match s.launch? lnch with
  | none => notNow "ORDERED_PASSAGE"
  | some l => match l.sites[site]? with
    | none => notNow "ORDERED_PASSAGE"
    | some st =>
      if !l.det || l.n ≤ st.next || l.killed || !siteSettled s lnch l site st.next 32 then notNow "ORDERED_PASSAGE"
      else
        let mine := st.waiting.filter (·.wg == st.next)
        let (s1, acc) := giveResults s st mine st.acc.toNat
        let st' := st.passed mine acc
        match passageWrite s1 (passageWho s1 lnch site l st' mine) st' mine with
        | .error m => .next (launchFault s lnch m 1 st.next)
        | .ok s2 =>
          let s3 := keepFar (s2.post (.ended lnch) (s2.relClk (siteMe lnch site))) (devOp lnch (.passage site st.next))
          let wait (o : Op) : Op :=
            if mine.any fun c => c.op == o.id then { o with waits := if s3.nextId = s2.nextId then none else some s2.nextId } else o
          .next (settleLaunch (modSite { s3 with ops := s3.ops.map wait } lnch site fun _ => st') lnch st.next)

end Sys2Proof.Machine
end

