-- ==== Sys2Proof/Machine/Matrix.lean ====
section
/-! DEFINITION. Operand-buffer reservations (R247 to R249), the matrix unit and its sequencer (R245, R246, R250 to R259), its
arithmetic (R89 to R91), and scale layout (R88, R250, R405). -/

namespace Sys2Proof.Machine

open Sys2Proof

/-! ### Reservations -/

/-- A word of a record. -/
def obWord (ws : List Word) (k : Nat) : Nat := (ws.getD k 0).toNat
/-- BASE. -/
def obBase (ws : List Word) : Nat := bits (obWord ws 0) 0 20
/-- SIZE. -/
def obSize (ws : List Word) : Nat := bits (obWord ws 1) 0 21
/-- KBM. -/
def obKbm (ws : List Word) : Nat := bits (obWord ws 2) 4 3
/-- The mantissa width m of a KB record. -/
def obM (ws : List Word) : Nat := obKbm ws + 1
/-- The block length L. -/
def obL (ws : List Word) : Nat := if bit (obWord ws 2) 7 then 32 else 16
/-- The bytes of a block, BB. -/
def obBB (ws : List Word) : Nat := obL ws * obM ws / 8
/-- SOFF in bytes. -/
def obSoff (ws : List Word) : Nat := 256 * bits (obWord ws 2) 8 12
/-- SK in bytes. -/
def obSk (ws : List Word) : Nat := 256 * bits (obWord ws 3) 0 12
/-- SR in bytes. -/
def obSr (ws : List Word) : Nat := 256 * bits (obWord ws 3) 12 12

/-- Whether the words of a record keep to R247. -/
def obOk (ws : List Word) : Bool :=
  let w := obWord ws
  bits (w 0) 20 12 == 0 && obBase ws % 256 == 0 && bits (w 1) 21 11 == 0 && obSize ws % 256 == 0 && 256 ≤ obSize ws &&
  obBase ws + obSize ws ≤ 2 ^ 20 && bits (w 2) 20 12 == 0 && bits (w 3) 24 8 == 0 &&
  (if obKbm ws = 0 then decide (bits (w 2) 0 4 ∈ [2, 3, 4, 7]) && bits (w 2) 7 25 == 0 && w 3 == 0
   else bits (w 2) 0 4 == 0 && obBase ws ≤ obSoff ws && obSoff ws < obBase ws + obSize ws)

/-- Whether two ranges overlap. -/
def overlap (b n b' n' : Nat) : Bool := b < b' + n' && b' < b + n

/-- The ranges that a workgroup holds: its records, and released ones that an MLOOP still reads (R249). -/
def Wg.heldRanges (w : Wg) : List (Nat × Nat) :=
  w.obr.map (fun r => (obBase r.2, obSize r.2)) ++ w.obHeld.map fun h => (h.1, h.2.1)

/-- The matrix-misuse trap. -/
def Cx.mxTrap (cx : Cx) : Trap := cx.trap 0x0009 0

/-- OBRES (R248). -/
def execObres (f : Fld) (s : State) : Host.Outcome State Fault Refusal := issue (.obres f) s fun cx s =>
  let ws := (List.range 4).map fun k => cx.g.rs (cx.f.a.toNat + k)
  let b := cx.b32 0
  if !obOk ws || 7 < b then .trap cx.mxTrap
  else
    let hits (w : Wg) : Bool := w.heldRanges.any fun r => overlap r.1 r.2 (obBase ws) (obSize ws)
    let others := s.wgs.filter fun e => e.1 != cx.wid && e.2.core == cx.core && !e.2.saved
    let status : Nat :=
      if (Tab.find? cx.w.obr b).isSome then 1
      else if hits cx.w then 2
      else if others.any (fun e => hits e.2) then 3
      else 0
    let s1 := if status = 0 then s.modWg cx.wid fun w => { w with obr := Tab.put w.obr b ws } else s
    .done (startOp s1 cx .reg (sWrite 1 cx.f.d.toNat status))

/-- The MLOOPs in a core's sequencer queue that have operand bytes still to read. -/
def readers (s : State) (core : Nat) : List Nat :=
  let m := (s.core core).mx
  m.queue.filter fun id => match s.op? id with
    | some o => (match o.k with
      | .mloop _ _ n _ _ _ _ => !(m.running == some id && n ≤ m.step)
      | _ => false)
    | none => false

/-- OBREL (R249). -/
def execObrel (f : Fld) (s : State) : Host.Outcome State Fault Refusal := issue (.obrel f) s fun cx s =>
  let b := cx.b32 0
  if 7 < b then .trap cx.mxTrap
  else match Tab.find? cx.w.obr b with
    | none => .done s
    | some ws =>
      let ids := readers s cx.core
      .done (s.modWg cx.wid fun w =>
        { w with obr := Tab.erase w.obr b
                 obHeld := if ids.isEmpty then w.obHeld else w.obHeld ++ [(obBase ws, obSize ws, ids)] })

/-! ### Operand formats -/

/-- The format of an operand: a plain type, or block float of width m. -/
inductive MFmt where
  | plain (ty : Nat)
  | kb (m : Nat)
  deriving DecidableEq, Repr

/-- The covering record of an operand on path 0x0C: the one that holds its first byte (R250). -/
def covering (w : Wg) (addr : DWord) : Option (List Word) :=
  let o := bits addr.toNat 0 56
  (w.obr.find? fun r => obBase r.2 ≤ o && o < obBase r.2 + obSize r.2).map (·.2)

/-- The format that a record gives. -/
def recFmt (ws : List Word) : MFmt := if obKbm ws = 0 then .plain (bits (obWord ws 2) 0 4) else .kb (obM ws)

/-- The format of an operand by its format field and covering record (R250). -/
def fmtFor (field : Nat) (rec_ : List Word) : MFmt := if rec_.isEmpty then .plain field else recFmt rec_

/-- The K-step of a pairing and whether it accumulates in i32; `none` for a pairing that R90 lacks. -/
def pairing (a b : MFmt) : Option (Nat × Bool) :=
  match a, b with
  | .kb _, .kb _ => some (32, false)
  | .plain x, .plain y =>
    if x = 7 ∧ y = 7 then some (32, true)
    else if x = 7 ∨ y = 7 then none
    else if x = 2 ∨ y = 2 then some (4, false)
    else some (16, false)
  | _, _ => none

/-- The bytes of a segment of κ elements (R251). -/
def segBytes (f : MFmt) (k : Nat) : Nat :=
  match f with
  | .kb m => 4 * m
  | .plain ty => k * (tyBits ty / 8)

/-- A word pair of an operand block as an address. -/
def blkAddr (blk : List Word) (k : Nat) : DWord := BitVec.ofNat 64 (obWord blk k + 2 ^ 32 * obWord blk (k + 1))
/-- A word of an operand block as a signed number. -/
def blkInt (blk : List Word) (k : Nat) : Int := toSigned 32 (obWord blk k)

/-- The address of row i of operand A (`off` 0) or B (`off` 4) at step s (R251). -/
def segAddr (blk : List Word) (off i s : Nat) : DWord :=
  blkAddr blk off + BitVec.ofInt 64 (blkInt blk (off + 2) * i + blkInt blk (off + 3) * s)

/-! ### MLOOP at issue -/

/-- The prospective head: what the queued commands leave (R253): `none` unopened, else whether it is i32. -/
def prospective (s : State) (core : Nat) : Option Bool :=
  let m := (s.core core).mx
  let now : Option Bool := if m.opened && m.head.isSome then some m.i32 else none
  m.queue.foldl (fun h id => match s.op? id with
    | none => none
    | some o => match o.k with
      | .mloop acc _ _ fa fb ra rb =>
        let t := (pairing (fmtFor fa ra) (fmtFor fb rb)).elim false (·.2)
        if acc && h.isSome then h else some t
      | .mpub => none
      | _ => h) now

/-- An operand's field and covering record, if they agree (R250). -/
def operandRec (w : Wg) (addr : DWord) (field : Nat) : Option (List Word) :=
  if pathOf addr = 12 then (if field = 15 then covering w addr else none)
  else if field ∈ [2, 3, 4, 7] then some [] else none

/-- Whether a KB operand's stride is a positive multiple of its block size (R250). -/
def strideOk (rec_ : List Word) (str : Int) : Bool := rec_.isEmpty || obKbm rec_ == 0 || (0 < str && str % (obBB rec_ : Int) == 0)

/-- The issue of MLOOP (R253). -/
def mloopEff (acc : Bool) (cx : Cx) (s : State) : Eff :=
  let blk := (List.range 8).map fun k => cx.g.rs (cx.f.a.toNat + k)
  let n := cx.b32 0
  let fa := cx.f.c.toNat % 16
  let fb := cx.f.c.toNat / 16 % 16
  match operandRec cx.w (blkAddr blk 0) fa, operandRec cx.w (blkAddr blk 4) fb with
  | some ra, some rb =>
    match pairing (fmtFor fa ra) (fmtFor fb rb) with
    | none => .trap cx.mxTrap
    | some (_, i32) =>
      if 65535 < n || !strideOk ra (blkInt blk 2) || !strideOk rb (blkInt blk 6) ||
          (acc && (match prospective s cx.core with
            | some t => t != i32
            | none => false)) then .trap cx.mxTrap
      else
        let bar := if bit cx.f.d.toNat 4 then some (cx.f.d.toNat % 16) else none
        let s1 := startOp s cx (.mloop acc blk n fa fb ra rb) [] 0 bar
        let c := s1.core cx.core
        .done (s1.setCore cx.core { c with mx := { c.mx with queue := c.mx.queue ++ [lastId s1] } })
  | _, _ => .trap cx.mxTrap

/-- MLOOP.new. -/
def execMloopNew (f : Fld) (s : State) : Host.Outcome State Fault Refusal := issue (.mloopNew f) s (mloopEff false)
/-- MLOOP.acc. -/
def execMloopAcc (f : Fld) (s : State) : Host.Outcome State Fault Refusal := issue (.mloopAcc f) s (mloopEff true)

/-- MPUB (R257, R42): it enters the sequencer queue; a release at .wg (R259). -/
def execMpub (f : Fld) (s : State) : Host.Outcome State Fault Refusal := issue (.mpub f) s fun cx s =>
  let s1 := startOp (releaseBy s cx) cx .mpub []
  let c := s1.core cx.core
  .done (s1.setCore cx.core { c with mx := { c.mx with queue := c.mx.queue ++ [lastId s1] } })

/-! ### The sequencer -/

/-- The head's rows at +0, or 0 (R253). -/
def Matrix.zeroHead (m : Matrix) (i32 : Bool) : Matrix :=
  match m.head with
  | none => m
  | some h => { m with acc := m.acc.filter (fun e => e.1 / 64 != h), opened := true, i32 := i32
                       bad := m.bad.filter fun k => k / 64 != h }

/-- Change the matrix unit of a core. -/
def State.modMx (s : State) (core : Nat) (f : Matrix → Matrix) : State :=
  let c := s.core core
  s.setCore core { c with mx := f c.mx }

/-- The token of an operation falls before the operation has completed. -/
def lowerTok (s : State) (o : Op) : State :=
  let s1 := match agentKey o.ag, o.tok with
    | some k, some n => (completeHb s o).modGroup k (·.tokDown n)
    | _, _ => s
  s1.modOp o.id fun x => { x with tok := none }

/-- The head joins the tail of the published queue, with all that its MPUB releases; the MPUB's token falls (R257, R259). -/
def publish (s : State) (core h : Nat) (m : Matrix) (o : Op) : State :=
  let s1 := s.modMx core fun _ => { m with pub := m.pub ++ [h], head := none, opened := false, busy := true }
  lowerTok (s1.push (.tile core) (s1.relClk (opMe o.id))) o

/-- The sequencer starts its next command (R246, R253, R257): an MLOOP opens the head where it must; an MPUB publishes it
and then waits for a free tile, outstanding until it has one (R45). -/
def execSequencerCommandStart (core : Nat) (s : State) : Host.Outcome State Fault Refusal :=
  let m := (s.core core).mx
  match m.busy, m.queue.head?, m.head with
  | false, some id, some h => match s.op? id with
    | none => notNow "SEQUENCER_COMMAND_START"
    | some o => match o.k with
      | .mloop acc _ _ fa fb ra rb =>
        let i32 := (pairing (fmtFor fa ra) (fmtFor fb rb)).elim false (·.2)
        let m1 := if acc && m.opened then m else m.zeroHead i32
        .next (s.modMx core fun _ => { m1 with busy := true, step := 0, row := 0 })
      | .mpub =>
        .next (publish s core h (if m.opened then m else m.zeroHead false) o)
      | _ => notNow "SEQUENCER_COMMAND_START"
  | _, _, _ => notNow "SEQUENCER_COMMAND_START"

/-- The lowest free tile: of several free tiles the manual names none. -/
def Matrix.freeTile (m : Matrix) : Option Nat :=
  (List.range 16).find? fun t => m.head != some t && !decide (t ∈ m.pub)

/-- A free tile becomes the unopened head, which ends the MPUB that waits for it (R257). -/
def execHeadTileTake (core : Nat) (s : State) : Host.Outcome State Fault Refusal :=
  let m := (s.core core).mx
  match m.head, m.freeTile, m.running.bind s.op? with
  | none, some t, some o =>
    .next (completeOp (s.modMx core fun m => { m with head := some t, opened := false, busy := false, queue := m.queue.tail }) o)
  | _, _, _ => notNow "HEAD_TILE_TAKE"

/-! ### Reading operands -/

/-- The scale byte's operand-buffer offset for a block whose first byte lies at offset x (R250). -/
def scaleAt (rec_ : List Word) (str x : Nat) : Nat :=
  let o := x - obBase rec_
  let row := o / str
  let bcol := o % str / obBB rec_
  obSoff rec_ + obSr rec_ * (row / 64) + obSk rec_ * (bcol / 4) + 4 * (row % 64) + ((bcol % 4) ^^^ (row % 4))

/-- Whether an operand-buffer offset lies in a record. -/
def inRec (rec_ : List Word) (x : Nat) : Bool := obBase rec_ ≤ x && x < obBase rec_ + obSize rec_

/-- The scale-layout fault of a segment or scale byte at an offset (R405). -/
def scaleFault (x : Nat) : MFault := { cause := 0x4B, aux := BitVec.ofNat 64 x, page := none }

/-- The offsets of the scale bytes of a KB segment at offset x. -/
def scaleOffs (rec_ : List Word) (str x : Nat) : List Nat :=
  (List.range (32 / obL rec_)).map fun i => scaleAt rec_ str (x + i * obBB rec_)

/-- The bytes of a segment on path 0x0C with its scale bytes, checked against the covering record alone (R255, R405). -/
def obHits (core : Nat) (rec_ : List Word) (str : Nat) (a : DWord) (n : Nat) : Except MFault (List Hit × List Hit) :=
  let x := bits a.toNat 0 56
  let k (x : Nat) : Hit := localHit 12 (148 + core) x
  if a.toNat % 4 ≠ 0 then .error { cause := 0x42, aux := a, page := none }
  else if !(List.range n).all (fun i => inRec rec_ (x + i)) then .error (scaleFault x)
  else if obKbm rec_ = 0 then .ok ((List.range n).map fun i => k (x + i), [])
  else if (x - obBase rec_) % str % obBB rec_ ≠ 0 then .error (scaleFault x)
  else match (scaleOffs rec_ str x).find? fun o => !inRec rec_ o with
    | some o => .error (scaleFault o)
    | none => .ok ((List.range n).map fun i => k (x + i), (scaleOffs rec_ str x).map k)

/-- The hits of a segment: its bytes and its scale bytes, and the state in which its pages have been touched. -/
def segHits (s : State) (w : Who) (core : Nat) (rec_ : List Word) (str : Nat) (a : DWord) (n : Nat) :
    Except MFault (List Hit × List Hit × State) :=
  if pathOf a = 12 ∧ !rec_.isEmpty then
    match obHits core rec_ str a n with
    | .error m => .error m
    | .ok (ks, sc) => .ok (ks, sc, s)
  else match worstOf s w [admitted s w [0, 1, 8, 9] .engRead (none, a, n) 4] with
    | some m => .error m
    | none => match resolveAll s w .engRead false (fun _ _ => 4) [(none, a, n)] with
      | .error m => .error m
      | .ok (hs, s1) => .ok (hs.flatMap (·.2), [], s1)

/-- The elements of a segment as values. -/
def segVals (f : MFmt) (rec_ : List Word) (k : Nat) (bs sc : List Byte) : List FV :=
  let x := natOfBytes bs
  match f with
  | .plain ty =>
    let n := tyBits ty
    (List.range k).map fun i =>
      let e := x / 2 ^ (n * i) % 2 ^ n
      if ty = 7 then .fin (toSigned 8 e < 0) (toSigned 8 e).natAbs 0 else unpack (fmtOf ty) e
  | .kb m => (List.range k).map fun i => kbVal m (sc.getD (i / obL rec_) 0).toNat x i

/-- Read one segment: its values. -/
def readSeg (s : State) (w : Who) (core : Nat) (f : MFmt) (rec_ : List Word) (str k : Nat) (a : DWord) :
    Except MFault (List FV × State) :=
  match segHits s w core rec_ str a (segBytes f k) with
  | .error m => .error m
  | .ok (hs, sc, s1) =>
    match anyPoison s1 (hs ++ sc) with
    | some key => .error { cause := 0x4E, aux := poisonAux key, page := none }
    | none =>
      let (bs, s2) := readHits s1 w false hs
      let (ss, s3) := readHits s2 w false sc
      .ok (segVals f rec_ k bs ss, s3)

/-- Read the segments of rows `i` on, `n` of them. -/
def readSegs (s : State) (w : Who) (core : Nat) (f : MFmt) (rec_ : List Word) (str k : Nat) (addr : Nat → DWord) (i : Nat) :
    Nat → Except MFault (List (List FV) × State)
  | 0 => .ok ([], s)
  | n + 1 => match readSeg s w core f rec_ str k (addr i) with
    | .error m => .error m
    | .ok (v, s1) => match readSegs s1 w core f rec_ str k addr (i + 1) n with
      | .error m => .error m
      | .ok (vs, s2) => .ok (v :: vs, s2)

/-! ### The K-step -/

/-- A finite value's parts. -/
def finOf : FV → Option (Bool × Nat × Int)
  | .fin n m e => some (n, m, e)
  | _ => none

/-- An exact sum of finite values, rounded once (R89): the accumulator first. -/
def sumStep (acc : Bool × Nat × Int) (ps : List (Bool × Nat × Int)) : FR :=
  let q := (ps.map (·.2.2)).foldl min acc.2.2
  let sum := (acc :: ps).foldl (fun a x => a + scaled x.1 x.2.1 x.2.2 q) 0
  if sum = 0 then
    (if acc.2.1 = 0 ∧ acc.1 ∧ ps.all (fun p => p.2.1 == 0 && p.1) then f32.sign else 0, 0)
  else roundInt f32 0 sum q

/-- Whether a value is an infinity. -/
def FV.isInf : FV → Bool
  | .inf _ => true
  | _ => false

/-- One K-step of a float accumulation (R89): a NaN operand, 0 × ∞ or infinities of both signs raise IV, whatever the
accumulator holds. -/
def kStep (acc : Nat) (as bs : List FV) : FR :=
  let a := unpack f32 acc
  let ps := (as.zip bs).map fun ab => (mulFV ab.1 ab.2).1
  let infs := (a :: ps).filter FV.isInf
  if ps.any (·.isNan) || (infs.any (·.neg) && infs.any (!·.neg)) then (f32.nan, fIV)
  else if a.isNan then (f32.nan, 0)
  else match infs with
    | i :: _ => (f32.signed i.neg f32.inf, 0)
    | [] => sumStep ((finOf a).getD (false, 0, 0)) (ps.filterMap finOf)

/-- One K-step of an i8 accumulation (R91). -/
def kStepI (acc : Nat) (as bs : List FV) : Nat :=
  let v (x : FV) : Int := match x with
    | .fin n m _ => if n then -(m : Int) else m
    | _ => 0
  ofInt 32 (tySat 0 ((as.zip bs).foldl (fun a ab => a + v ab.1 * v ab.2) (toSigned 32 acc)))

/-- A row of the head after a K-step, with its flags. -/
def stepRow (i32 : Bool) (row : Lanes) (as : List FV) (bss : List (List FV)) : Lanes × BitVec 5 :=
  let rs : List FR := bss.zipIdx.map fun bj =>
    let acc := (laneAt row bj.2).toNat
    if i32 then (kStepI acc as bj.1, 0) else kStep acc as bj.1
  (rs.map fun r => BitVec.ofNat 32 r.1, rs.foldl (fun f r => f ||| r.2) 0)

/-- What the running MLOOP is: its operands. -/
structure MRun where
  id : Nat
  core : Nat
  w : Who
  blk : List Word
  n : Nat
  fa : MFmt
  fb : MFmt
  ra : List Word
  rb : List Word
  k : Nat
  i32 : Bool

/-- Add flags to an operation. -/
def addFlags (s : State) (id : Nat) (fl : BitVec 5) : State := s.modOp id fun o => { o with flags := o.flags ||| fl }

/-- One row of one step: A's row is read and the head's row advances (R253). -/
def mRow (s : State) (r : MRun) (bss : List (List FV)) (st i : Nat) : Stepped :=
  match readSeg s r.w r.core r.fa r.ra (blkInt r.blk 2).toNat r.k (segAddr r.blk 0 i st) with
  | .error m => .stop s m
  | .ok (as, s1) =>
    let m := (s1.core r.core).mx
    let key := 64 * m.head.getD 0 + i
    let (row, fl) := stepRow r.i32 (Tab.get [] m.acc key) as bss
    let m1 : Matrix := { m with acc := Tab.put m.acc key row, step := if i = 63 then st + 1 else st, row := if i = 63 then 0 else i + 1 }
    .ok (addFlags (s1.modMx r.core fun _ => m1) r.id fl)

/-- Rows `i` on, `n` of them. -/
def mRows (s : State) (r : MRun) (bss : List (List FV)) (st i : Nat) : Nat → Stepped
  | 0 => .ok s
  | n + 1 => match mRow s r bss st i with
    | .stop s1 m => .stop s1 m
    | .ok s1 => mRows s1 r bss st (i + 1) n

/-- Steps `st` on, `n` of them, the first from row `i`. -/
def mSteps (s : State) (r : MRun) (st i : Nat) : Nat → Stepped
  | 0 => .ok s
  | n + 1 => match readSegs s r.w r.core r.fb r.rb (blkInt r.blk 6).toNat r.k (fun j => segAddr r.blk 4 j st) 0 64 with
    | .error m => .stop s m
    | .ok (bss, s1) => match mRows s1 r bss st i (64 - i) with
      | .stop s2 m => .stop s2 m
      | .ok s2 => mSteps s2 r (st + 1) 0 n

/-- The run of an MLOOP operation. -/
def mRun (s : State) (core : Nat) (o : Op) : Option MRun :=
  match o.k with
  | .mloop _ blk n fa fb ra rb =>
    match pairing (fmtFor fa ra) (fmtFor fb rb) with
    | some (k, i32) => some ⟨o.id, core, { engWho s o with pbase := none }, blk, n, fmtFor fa ra, fmtFor fb rb, ra, rb, k, i32⟩
    | none => none
  | _ => none

/-- The bytes of peer modules that an MLOOP has still to read. -/
def mFar (s : State) (r : MRun) : List Hit :=
  let m := (s.core r.core).mx
  let seg (f : MFmt) (rec_ : List Word) (str : Nat) (off i st : Nat) : List Hit :=
    match segHits s r.w r.core rec_ str (segAddr r.blk off i st) (segBytes f r.k) with
    | .ok (hs, _, _) => farHits [] hs
    | .error _ => []
  if s.peers.isEmpty then []
  else
    (List.range (r.n - m.step)).flatMap fun d => (List.range 64).flatMap fun i =>
      seg r.fa r.ra (blkInt r.blk 2).toNat 0 i (m.step + d) ++ seg r.fb r.rb (blkInt r.blk 6).toNat 4 i (m.step + d)

/-- The running MLOOP reads its operands and accumulates from MRP on, until the last operand byte is read or a fault stops
it at MRP (R253, R254, R404); then its read arrival is made (R255). -/
def execMloopReadArrival (core : Nat) (s : State) : Host.Outcome State Fault Refusal :=
  let m := (s.core core).mx
  match m.running with
  | none => notNow "MLOOP_READ_ARRIVAL"
  | some id => match s.op? id with
    | none => notNow "MLOOP_READ_ARRIVAL"
    | some o => match mRun s core o, o.fault with
      | some r, none =>
        if r.n ≤ m.step then notNow "MLOOP_READ_ARRIVAL"
        else withFar "MLOOP_READ_ARRIVAL" s o (opNs s o) (mFar s r) fun s =>
          match mSteps s r m.step m.row (r.n - m.step) with
          | .stop s1 e => .next (deferFault s1 id { opTrap o e.cause e.aux with walk := e.page.map fun p => (r.w.die, p) })
          | .ok s1 =>
            let s2 := match o.bar with
              | some b => s1.arriveAt o.wg b 1 (s1.relClk (opMe id))
              | none => s1
            .next ((dropReaders (s2.modOp id fun o => { o with bar := none }) [id]).release (partyOp id))
      | _, _ => notNow "MLOOP_READ_ARRIVAL"

/-- The running MLOOP completes: its flags merge and its token falls; with no step its read arrival is made now (R253). -/
def execMloopComplete (core : Nat) (s : State) : Host.Outcome State Fault Refusal :=
  let m := (s.core core).mx
  match m.running with
  | none => notNow "MLOOP_COMPLETE"
  | some id => match s.op? id with
    | none => notNow "MLOOP_COMPLETE"
    | some o => match o.k, o.fault with
      | .mloop _ _ n _ _ _ _, none =>
        if n ≤ m.step then
          let s1 := s.modMx core fun m => { m with busy := false, step := 0, row := 0, queue := m.queue.tail }
          .next (endEngine (dropReaders s1 [id]) o)
        else notNow "MLOOP_COMPLETE"
      | _, _ => notNow "MLOOP_COMPLETE"

end Sys2Proof.Machine
end

