-- ==== Sys2Proof/Machine/Geometry.lean ====
section
/-! DEFINITION. Nested quantised geometry: boxes, descent, instances, triangles and their exact tests (R95 to R115). A point or
an origin is an integer, its value in the frame's units times 2^24 (R106); a vertex is in sixteenths of a leaf cell (R101). -/

namespace Sys2Proof.Machine

open Sys2Proof

/-- A vector of the current frame. -/
structure V3 where
  x : Int
  y : Int
  z : Int
  deriving DecidableEq, Repr

/-- The component on axis a. -/
def V3.at (v : V3) (a : Nat) : Int := if a = 0 then v.x else if a = 1 then v.y else v.z
/-- A vector by its components. -/
def v3 (f : Nat → Int) : V3 := ⟨f 0, f 1, f 2⟩
/-- Difference. -/
def V3.sub (a b : V3) : V3 := v3 fun i => a.at i - b.at i
/-- Cross product. -/
def V3.cross (a b : V3) : V3 := ⟨a.y * b.z - a.z * b.y, a.z * b.x - a.x * b.z, a.x * b.y - a.y * b.x⟩
/-- Dot product. -/
def V3.dot (a b : V3) : Int := a.x * b.x + a.y * b.y + a.z * b.z
/-- The zero vector. -/
def V3.isZero (a : V3) : Bool := a.x == 0 && a.y == 0 && a.z == 0

/-! ### Rationals -/

/-- A rational with a denominator that is not negative; 1/0 stands for +∞ and -1/0 for −∞. -/
structure Q where
  n : Int
  d : Nat
  deriving DecidableEq, Repr

/-- Exact comparison by cross-multiplication (R107); two infinities go by their signs. -/
def Q.le (a b : Q) : Bool := if a.d = 0 && b.d = 0 then a.n ≤ b.n else a.n * b.d ≤ b.n * a.d
/-- Strictly less. -/
def Q.lt (a b : Q) : Bool := if a.d = 0 && b.d = 0 then a.n < b.n else a.n * b.d < b.n * a.d
/-- A quotient of integers, the divisor not zero. -/
def qdiv (n d : Int) : Q := if d < 0 then ⟨-n, d.natAbs⟩ else ⟨n, d.natAbs⟩
/-- An f32 as an exact rational; a NaN has none (R277). -/
def qOfF32 (x : Nat) : Option Q :=
  match unpack f32 x with
  | .nan _ => none
  | .inf n => some ⟨if n then -1 else 1, 0⟩
  | .fin n m e =>
    let v : Int := if n then -(m : Int) else m
    some (if 0 ≤ e then ⟨v * (2 ^ e.toNat : Nat), 1⟩ else ⟨v, 2 ^ (-e).toNat⟩)
/-- The rational divided by 2^σ: a frame's parameter as the ray's t (R105). -/
def Q.down (a : Q) (sig : Nat) : Q := ⟨a.n, a.d * 2 ^ sig⟩

/-- round(n/d, f32, RNE) of a rational with a positive denominator (R109, R279). -/
def f32OfQ (a : Q) : Nat :=
  if a.n = 0 then 0
  else if a.d = 0 then f32.signed (a.n < 0) f32.inf
  else
    let m := a.n.natAbs
    let k := f32.mb + 4 + Nat.log2 a.d
    (roundTo f32 0 (a.n < 0) (m * 2 ^ k / a.d) (-(k : Int)) (m * 2 ^ k % a.d != 0)).1

/-! ### Boxes (R96, R97, R107) -/

/-- A child entry's box and kind: the origin, K, KIND (R96). -/
structure Child where
  o : V3
  k : Nat
  kind : Nat
  deriving DecidableEq, Repr

/-- Take a child entry apart. -/
def childOf (e : Nat) : Child := ⟨⟨bits e 0 4, bits e 4 4, bits e 8 4⟩, bits e 12 2, bits e 14 2⟩
/-- Whether an entry's origin is a multiple of its size (R97). -/
def Child.aligned (c : Child) : Bool := (List.range 3).all fun a => c.o.at a % (2 ^ c.k : Nat) == 0

/-- An interval of parameters with ends that belong to it or not; a missing upper end is +∞. -/
structure Span where
  lo : Q
  loIn : Bool
  hi : Q
  hiIn : Bool
  deriving DecidableEq, Repr

/-- The part of a span at or above a bound. -/
def Span.above (s : Span) (q : Q) (isIn : Bool) : Span :=
  if s.lo.lt q then { s with lo := q, loIn := isIn }
  else if q.lt s.lo then s
  else { s with loIn := s.loIn && isIn }
/-- The part at or below a bound. -/
def Span.below (s : Span) (q : Q) (isIn : Bool) : Span :=
  if q.lt s.hi then { s with hi := q, hiIn := isIn }
  else if s.hi.lt q then s
  else { s with hiIn := s.hiIn && isIn }
/-- Whether a span holds a point. -/
def Span.nonempty (s : Span) : Bool := s.lo.lt s.hi || (s.lo.le s.hi && s.loIn && s.hiIn)

/-- 2^24. -/
def oneCell : Int := 2 ^ 24

/-- The part of a span in which the ray meets the box's extent on one axis (R107): parameters in t; `neg`: ANEG of the axis. -/
def axisMeet (o d lo hi : Int) (neg : Bool) (sig : Nat) (s : Span) : Option Span :=
  let l := lo * oneCell
  let h := hi * oneCell
  if d = 0 then
    if (if neg then l < o ∧ o ≤ h else l ≤ o ∧ o < h) then some s else none
  else
    let ql := (qdiv (l - o) (d * oneCell)).down sig
    let qh := (qdiv (h - o) (d * oneCell)).down sig
    some (if 0 < d then (s.above ql (!neg)).below qh neg else (s.above qh neg).below ql (!neg))

/-- The first point at which a ray enters a box within a closed interval of t, if it does (R107). An intersection whose lower end
is open has no least point: the manual does not say what stands for it in NEAR, the order of visits and the skip, and the model
takes its infimum (log 83, DESIGN CHOICE). -/
def boxEnter (o d : V3) (c : Child) (aneg sig : Nat) (lo hi : Q) : Option Q :=
  let axis (a : Nat) (s : Span) : Option Span :=
    axisMeet (o.at a) (d.at a) (c.o.at a) (c.o.at a + (2 ^ c.k : Nat)) (bit aneg a) sig s
  match axis 0 ⟨lo, true, hi, true⟩ with
  | none => none
  | some s0 => match axis 1 s0 with
    | none => none
    | some s1 => match axis 2 s1 with
      | none => none
      | some s2 => if s2.nonempty then some s2.lo else none

/-! ### Descent and instances (R104, R106, R111) -/

/-- Whether an origin fits 72 signed integer bits (R106). -/
def fits (o : V3) : Bool := (List.range 3).all fun a => -(2 ^ 95 : Int) ≤ o.at a && o.at a < (2 ^ 95 : Int)
/-- The origin in a child's frame. -/
def descend (o : V3) (c : Child) : V3 := v3 fun a => (o.at a - c.o.at a * oneCell) * (2 ^ (4 - c.k) : Nat)

/-- The input axis that output axis a of a permutation takes (R104). -/
def permAxis (p a : Nat) : Nat :=
  let row : List Nat := match (if p < 6 then p else Config.freePerm p % 6) with
    | 0 => [0, 1, 2]
    | 1 => [0, 2, 1]
    | 2 => [1, 0, 2]
    | 3 => [1, 2, 0]
    | 4 => [2, 0, 1]
    | _ => [2, 1, 0]
  row.getD a 0
/-- The permutation code with given axes. -/
def permCode (f : Nat → Nat) : Nat := ((List.range 6).find? fun p => (List.range 3).all fun a => permAxis p a == f a).getD 0
/-- Whether a permutation is odd. -/
def permOdd (p : Nat) : Bool := decide (p ∈ [1, 2, 5])
/-- neg(perm(v)) (R104). -/
def applyMap (p n : Nat) (v : V3) : V3 := v3 fun a => if bit n a then -v.at (permAxis p a) else v.at (permAxis p a)
/-- The bits set among three. -/
def ones3 (n : Nat) : Nat := n % 2 + n / 2 % 2 + n / 4 % 2
/-- Whether a signed permutation turns orientation (R104). -/
def mapTurns (p n : Nat) : Bool := permOdd p != decide (ones3 n % 2 = 1)
/-- A map composed after another (R284): the code and the negations. -/
def composeMap (ap an p n : Nat) : Nat × Nat :=
  (permCode fun a => permAxis ap (permAxis p a),
   (List.range 3).foldl (fun m a => if bit n a != bit an (permAxis p a) then m + 2 ^ a else m) 0)

/-- A placement record (the manual's Inst) (R103). -/
structure Inst where
  root : DWord
  id : Word
  neg : Nat
  perm : Nat
  e : Nat
  ofs : V3
  deriving DecidableEq, Repr

/-- Take a placement record apart; `none` for a malformed one (R422). -/
def instOf (bs : List Byte) : Option Inst :=
  let n (off len : Nat) : Nat := natOfBytes ((bs.drop off).take len)
  let w := n 12 4
  if 5 < bits w 3 3 ∨ bits w 11 21 ≠ 0 ∨ n 28 4 ≠ 0 ∨ n 0 8 % 32 ≠ 0 ∨ 1 < n 7 1 then none
  else some ⟨BitVec.ofNat 64 (n 0 8), BitVec.ofNat 32 (n 8 4), bits w 0 3, bits w 3 3, bits w 6 5,
    v3 fun a => toSigned 32 (n (16 + 4 * a) 4)⟩

/-- The origin in the referenced scene's root frame. -/
def Inst.enter (i : Inst) (o : V3) : V3 :=
  let q := applyMap i.perm i.neg o
  v3 fun a => q.at a * (2 ^ i.e : Nat) - i.ofs.at a * oneCell

/-! ### Headers and leaves (R98 to R102) -/

/-- CNT of a header. -/
def hdrCnt (h : Nat) : Nat := bits h 28 4
/-- Whether a header is well formed (R98, R422). -/
def hdrOk (h : Nat) : Bool := 1 ≤ hdrCnt h && hdrCnt h ≤ 12 && bits h 62 2 == 0
/-- The block pointer that a header names. -/
def hdrPtr (h : Nat) : Nat := if bit h 60 then bits h 32 28 else bits h 0 28
/-- The slot size of a kind (R99). -/
def slotOf (kind : Nat) : Nat := match kind with
  | 1 => 128
  | 3 => 0
  | _ => 32

/-- A triangle entry: vertices a, b, c, OPQ, CB (R102). -/
structure Tri where
  a : V3
  b : V3
  c : V3
  opq : Bool
  cb : Bool
  deriving DecidableEq, Repr

/-- A coordinate (R101). -/
def vtxByte (b : Nat) : Int := if b = 255 then 256 else b

/-- A leaf as read: OPQ, USER and its triangles; `none` for a malformed one (R100, R102, R422). The three parts are the
header, the vertices in use and the triangles in use. -/
def leafOfBytes (hdr vtx tri : List Byte) : Option (Bool × Word × List Tri) :=
  let w := natOfBytes (hdr.take 4)
  let nvm := bits w 0 4
  let nt := bits w 4 5
  let v (j : Nat) : V3 := v3 fun a => vtxByte ((vtx.getD (3 * j + a) 0).toNat)
  let t (j : Nat) : Nat := natOfBytes ((tri.drop (2 * j)).take 2)
  if bits w 10 22 ≠ 0 ∨ nt = 0 ∨ 24 < nt then none
  else if (List.range nt).any fun j => bits (t j) 14 2 != 0 || nvm < bits (t j) 0 4 || nvm < bits (t j) 4 4 || nvm < bits (t j) 8 4 then none
  else some (bit w 9, BitVec.ofNat 32 (natOfBytes ((hdr.drop 4).take 4)),
    (List.range nt).map fun j => ⟨v (bits (t j) 0 4), v (bits (t j) 4 4), v (bits (t j) 8 4), bit (t j) 12, bit (t j) 13⟩)

/-! ### Triangles (R108, R112) -/

/-- A vector of the current frame in root orientation (R111). -/
def toRoot (ap an : Nat) (v : V3) : V3 := v3 fun r =>
  (List.range 3).foldl (fun x a => if permAxis ap a = r then (if bit an a then -v.at a else v.at a) else x) 0

/-- The sign of the first component that is not zero. -/
def firstSign (v : V3) : Int := if v.x ≠ 0 then v.x.sign else if v.y ≠ 0 then v.y.sign else v.z.sign

/-- Whether the triangle with third vertex w owns a point on the edge (p, q) that the ray meets (R112). -/
def ownsEdge (d p q w : V3) (ap an : Nat) : Bool :=
  let n := d.cross (q.sub p)
  0 < firstSign (toRoot ap an n) * n.dot (w.sub p)

/-- A hit of a ray on a triangle: NUM with its sign, DEN, whether it is front-facing, and E(a,b), E(b,c), E(c,a) (R108, R279). -/
structure TriHit where
  num : Int
  den : Nat
  front : Bool
  eab : Int
  ebc : Int
  eca : Int
  deriving DecidableEq, Repr

/-- The test of a ray against a triangle (R108). `turn`: the orientation sign is −1. -/
def triTest (o d : V3) (t : Tri) (turn : Bool) (ap an : Nat) : Option TriHit :=
  let rel (v : V3) : V3 := v3 fun a => v.at a * 2 ^ 20 - o.at a
  let s : Int := if turn then -1 else 1
  let e (p q : V3) : Int := s * d.dot ((rel p).cross (rel q))
  let eab := e t.a t.b
  let ebc := e t.b t.c
  let eca := e t.c t.a
  let n := (t.b.sub t.a).cross (t.c.sub t.a)
  let nd := n.dot d
  let inside := (0 ≤ eab && 0 ≤ ebc && 0 ≤ eca) || (eab ≤ 0 && ebc ≤ 0 && eca ≤ 0)
  let some_ := eab != 0 || ebc != 0 || eca != 0
  let own := (eab != 0 || ownsEdge d t.a t.b t.c ap an) && (ebc != 0 || ownsEdge d t.b t.c t.a ap an) &&
    (eca != 0 || ownsEdge d t.c t.a t.b ap an)
  if inside && some_ && own && nd != 0 then
    let num := n.dot (rel t.a)
    some ⟨if nd < 0 then -num else num, nd.natAbs, 0 < eab || 0 < ebc || 0 < eca, eab, ebc, eca⟩
  else none

end Sys2Proof.Machine
end

