-- ==== Sys2Proof/Machine/Rays.lean ====
section
/-! DEFINITION. Rays: ray blocks and hit records (R277 to R281), software traversal (R282 to R286), hardware traversal
(R287 to R290), and the changing of a scene (R291, R292). -/

namespace Sys2Proof.Machine

open Sys2Proof

/-! ### Records in registers -/

/-- The number that `n` words from word k on of a record hold. -/
def recNum (ws : List Word) (k n : Nat) : Nat := natOfBytes (((ws.drop k).take n).flatMap bytesOfWord)
/-- A number as `n` words. -/
def numWords (n x : Nat) : List Word := (List.range n).map fun i => BitVec.ofNat 32 (x / 2 ^ (32 * i))
/-- Set one word of a record. -/
def setWord (ws : List Word) (k x : Nat) : List Word := ws.set k (BitVec.ofNat 32 x)
/-- Replace a field of a word. -/
def setBits (w i n x : Nat) : Nat := w % 2 ^ i + x % 2 ^ n * 2 ^ i + w / 2 ^ (i + n) * 2 ^ (i + n)

/-- A ray block (R278): `top` holds bits [31:28] of word 12. -/
structure Ray where
  o : V3
  d : V3
  sig : Nat
  nego : Bool
  leaf : Bool
  stat : Nat
  hv : Bool
  aperm : Nat
  aneg : Nat
  top : Nat
  instid : Word
  node : DWord
  sbase : DWord
  hdr : DWord
  deriving DecidableEq, Repr

/-- Take a ray block apart. -/
def rayOf (ws : List Word) : Ray :=
  let w := recNum ws 12 1
  { o := v3 fun a => toSigned 96 (recNum ws (3 * a) 3)
    d := v3 fun a => toSigned 32 (recNum ws (9 + a) 1)
    sig := bits w 0 16, nego := bit w 16, leaf := bit w 17, stat := bits w 18 3, hv := bit w 21
    aperm := bits w 22 3, aneg := bits w 25 3, top := bits w 28 4
    instid := ws.getD 13 0
    node := BitVec.ofNat 64 (recNum ws 14 2), sbase := BitVec.ofNat 64 (recNum ws 16 2), hdr := BitVec.ofNat 64 (recNum ws 18 2) }

/-- The 20 words of a ray block. -/
def Ray.words (r : Ray) : List Word :=
  let b (x : Bool) (i : Nat) : Nat := if x then 2 ^ i else 0
  ([0, 1, 2].flatMap fun a => numWords 3 (ofInt 96 (r.o.at a))) ++
  ([0, 1, 2].flatMap fun a => numWords 1 (ofInt 32 (r.d.at a))) ++
  numWords 1 (r.sig + b r.nego 16 + b r.leaf 17 + r.stat * 2 ^ 18 + b r.hv 21 + r.aperm * 2 ^ 22 + r.aneg * 2 ^ 25 + r.top * 2 ^ 28) ++
  [r.instid] ++ numWords 2 r.node.toNat ++ numWords 2 r.sbase.toNat ++ numWords 2 r.hdr.toNat

/-- Whether a root ray is bad (R277). -/
def badRay (ws : List Word) : Bool :=
  (match qOfF32 (recNum ws 9 1), qOfF32 (recNum ws 10 1) with
    | some lo, some hi => lo.lt ⟨0, 1⟩ || hi.lt lo
    | _, _ => true) ||
  [6, 7, 8].any fun k => recNum ws k 1 == 2 ^ 31

/-- The ray block that RCVT builds at the root of a scene (R282). -/
def rootRay (ws : List Word) (base : DWord) : Ray :=
  { o := v3 fun a => toSigned 64 (recNum ws (2 * a) 2)
    d := v3 fun a => toSigned 32 (recNum ws (6 + a) 1)
    sig := 0, nego := false, leaf := false, stat := if badRay ws then 5 else 0, hv := false, aperm := 0, aneg := 0, top := 0
    instid := 0, node := base, sbase := base, hdr := 0 }

/-- The hit record that RCVT builds (R282). -/
def rootHit (ws : List Word) : List Word :=
  [ws.getD 9 0, ws.getD 10 0, BitVec.ofNat 32 (if badRay ws then 5 * 2 ^ 8 else 0)] ++ List.replicate 13 0

/-- VALID of a hit record (R279). -/
def hitValid (h : List Word) : Bool := bit (recNum h 2 1) 0
/-- STAT of a hit record. -/
def hitStat (h : List Word) : Nat := bits (recNum h 2 1) 8 3
/-- Write a status into a STAT that is still 0 (R280). -/
def hitSetStat (h : List Word) (st : Nat) : List Word :=
  if hitStat h = 0 then setWord h 2 (setBits (recNum h 2 1) 8 3 st) else h
/-- t of a recorded hit. -/
def hitT (h : List Word) : Q := ⟨recNum h 3 4, recNum h 7 2 * 2 ^ bits (recNum h 9 1) 0 16⟩
/-- The bound that a hit record sets: t of the hit, or TF; `none` for a NaN. -/
def hitBound (h : List Word) : Option Q := if hitValid h then some (hitT h) else qOfF32 (recNum h 1 1)
/-- The tie key of a recorded hit (R281). -/
def hitKey (h : List Word) : List Nat := [recNum h 10 1, recNum h 11 2, bits (recNum h 2 1) 2 5]

/-- A quotient of edge values as f32, rounded once (R279). -/
def weight (e s : Int) : Nat := f32OfQ (qdiv e s)

/-- Offer a hit on triangle j of the leaf that a ray has reached (R281): the record, and whether it was accepted. -/
def offer (h : List Word) (r : Ray) (user : Word) (j : Nat) (x : TriHit) : List Word × Bool :=
  let t : Q := ⟨x.num, x.den * 2 ^ (r.sig + 24)⟩
  let key := [r.instid.toNat, r.node.toNat, j]
  let ok := (match qOfF32 (recNum h 0 1) with
      | some lo => lo.le t
      | none => false) &&
    (match hitBound h with
      | some b => t.lt b || (t.le b && (!hitValid h || keyLt key (hitKey h)))
      | none => false)
  if ok then
    let s := x.eab + x.ebc + x.eca
    ([h.getD 0 0] ++ numWords 1 (f32OfQ t) ++
      numWords 1 (1 + (if x.front then 2 else 0) + j * 4 + hitStat h * 2 ^ 8) ++
      numWords 4 x.num.natAbs ++ numWords 2 x.den ++ numWords 1 (r.sig + 24) ++ [r.instid] ++ numWords 2 r.node.toNat ++
      [user] ++ numWords 1 (weight x.eca s) ++ numWords 1 (weight x.eab s), true)
  else (h, false)

/-! ### Reading a scene -/

/-- What stops a traversal: a memory fault, or bytes of a peer module that have not arrived (R373). -/
inductive GStop where
  | fault (m : MFault)
  | far (hs : List Hit)
  deriving DecidableEq, Repr

/-- Who traverses: the engine, and who reads the headers, which are marked acquiring loads at .dev (R116). -/
structure GCtx where
  eng : Who
  grp : Who
  deriving Repr

/-- Read `n` bytes for a traversal or a pass. -/
def engRd (s : State) (w : Who) (k : AccK) (marked : Bool) (al : Nat) (a : DWord) (n : Nat) : Except GStop (List Byte × State) :=
  match resolveAll s w k marked (fun _ _ => al) [(none, a, n)] with
  | .error m => .error (.fault m)
  | .ok (hs, s1) =>
    let hits := hs.flatMap (·.2)
    match anyPoison s1 hits with
    | some key => .error (.fault { cause := 0x4E, aux := poisonAux key, page := none })
    | none => if (farHits w.got hits).isEmpty then .ok (readHits s1 w marked hits) else .error (.far (farHits w.got hits))

/-- Read `n` bytes at offset `off` of a record, which stands on path 0x00 or 0x01 and is aligned to 32 bytes (R302). -/
def geo (g : GCtx) (s : State) (hdr : Bool) (at_ : DWord) (off n : Nat) : Except GStop (List Byte × State) :=
  match badPath [0, 1] [at_] with
  | some m => .error (.fault m)
  | none =>
    if pathOf at_ ≤ 1 ∧ at_.toNat % 32 ≠ 0 then .error (.fault { cause := 0x42, aux := at_, page := none })
    else engRd s (if hdr then g.grp else g.eng) (if hdr then .load else .engRead) hdr 1 (at_ + BitVec.ofNat 64 off) n

/-- Read a header (R116). -/
def geoHdr (g : GCtx) (s : State) (node : DWord) : Except GStop (DWord × State) :=
  match geo g s true node 0 8 with
  | .error e => .error e
  | .ok (bs, s1) => .ok (BitVec.ofNat 64 (natOfBytes bs), s1)

/-- Read the first `n` child entries of a node. -/
def geoKids (g : GCtx) (s : State) (node : DWord) (n : Nat) : Except GStop (List Nat × State) :=
  match geo g s false node 8 (2 * n) with
  | .error e => .error e
  | .ok (bs, s1) => .ok ((List.range n).map fun i => natOfBytes ((bs.drop (2 * i)).take 2), s1)

/-- Read the parts of a leaf record that are in use (R100); `none` for a malformed one. -/
def geoLeaf (g : GCtx) (s : State) (node : DWord) : Except GStop (Option (Bool × Word × List Tri) × State) :=
  match geo g s false node 0 8 with
  | .error e => .error e
  | .ok (h, s1) =>
    let nv := bits (natOfBytes h) 0 4 + 1
    let nt := bits (natOfBytes h) 4 5
    if nt = 0 ∨ 24 < nt then .ok (none, s1)
    else match geo g s1 false node 8 (3 * nv) with
      | .error e => .error e
      | .ok (v, s2) => match geo g s2 false node 0x38 (2 * nt) with
        | .error e => .error e
        | .ok (t, s3) => .ok (leafOfBytes h v t, s3)

/-! ### The steps of a traversal -/

/-- A child entry that a ray enters: its first point and its index. -/
abbrev Entered := List (Q × Nat)

/-- The entered children among entries from index i on; `none` once an entry in use has an origin that is not aligned. -/
def enteredOf (r : Ray) (lo hi : Option Q) : List Nat → Nat → Option Entered
  | [], _ => some []
  | e :: es, i =>
    let c := childOf e
    if c.kind = 3 then enteredOf r lo hi es (i + 1)
    else if !c.aligned then none
    else match enteredOf r lo hi es (i + 1) with
      | none => none
      | some xs => match lo, hi with
        | some lo, some hi => match boxEnter r.o r.d c r.aneg r.sig lo hi with
          | some q => some ((q, i) :: xs)
          | none => some xs
        | _, _ => some xs

/-- BOXT (R283): the status, and the entered children. -/
def boxStep (g : GCtx) (s : State) (r : Ray) (h : List Word) : Except GStop (Nat × Entered × State) :=
  if r.stat ≠ 0 then .ok (r.stat, [], s)
  else if r.leaf ∨ !r.hv then .ok (4, [], s)
  else
    let n := hdrCnt r.hdr.toNat
    if n = 0 ∨ 12 < n then .ok (3, [], s)
    else match geoKids g s r.node n with
      | .error e => .error e
      | .ok (es, s1) => match enteredOf r (qOfF32 (recNum h 0 1)) (hitBound h) es 0 with
        | none => .ok (3, [], s1)
        | some xs => .ok (0, xs, s1)

/-- Insert by first point, the lower index first on a tie. -/
def insertEntered (x : Q × Nat) : Entered → Entered
  | [] => [x]
  | y :: ys => if x.1.lt y.1 || (x.1.le y.1 && x.2 < y.2) then x :: y :: ys else y :: insertEntered x ys
/-- The entered children in order of visit (R287). -/
def sortEntered (xs : Entered) : Entered := xs.foldr insertEntered []

/-- The result word of BOXT. -/
def boxWord (st : Nat) (xs : Entered) : Nat :=
  if st ≠ 0 then 15 * 2 ^ 12 + st * 2 ^ 16
  else xs.foldl (fun m x => m + 2 ^ x.2) 0 + (match sortEntered xs with
    | [] => 15
    | x :: _ => x.2) * 2 ^ 12

/-- A ray block with a status. -/
def Ray.fail (r : Ray) (st : Nat) : Ray := { r with stat := st }

/-- The last step of a descent into a node: its header is read (R284). -/
def enterNode (g : GCtx) (s : State) (inp out : Ray) : Except GStop (Ray × State) :=
  match geoHdr g s out.node with
  | .error e => .error e
  | .ok (h, s1) => .ok (if hdrOk h.toNat then { out with hdr := h, hv := true } else inp.fail 3, s1)

/-- The descent of a ray into child c, whose record stands at `at_` (R106, R284). -/
def descendStep (g : GCtx) (s : State) (r : Ray) (c : Child) (at_ : DWord) : Except GStop (Ray × State) :=
  let o := descend r.o c
  let sig := r.sig + 4 - c.k
  if !fits o ∨ 65511 < sig then .ok (r.fail 1, s)
  else match c.kind with
    | 0 => enterNode g s r { r with o := o, sig := sig, node := at_ }
    | 1 => .ok ({ r with o := o, sig := sig, node := at_, hdr := 0, hv := false, leaf := true }, s)
    | _ => match geo g s false at_ 0 32 with
      | .error e => .error e
      | .ok (bs, s1) => match instOf bs with
        | none => .ok (r.fail 3, s1)
        | some i =>
          let o2 := i.enter o
          let (ap, an) := composeMap r.aperm r.aneg i.perm i.neg
          if !fits o2 ∨ 65511 < sig + i.e then .ok (r.fail 1, s1)
          else enterNode g s1 r { r with
            o := o2, d := applyMap i.perm i.neg r.d, sig := sig + i.e, nego := r.nego != mapTurns i.perm i.neg
            aperm := ap, aneg := an, instid := i.id, sbase := i.root, node := i.root }

/-- FDIN (R284). -/
def fdinStep (g : GCtx) (s : State) (r : Ray) (b : Nat) : Except GStop (Ray × State) :=
  if r.stat ≠ 0 then .ok (r, s)
  else if b = 15 then (if r.leaf then .ok (r.fail 4, s) else enterNode g s r r)
  else if 11 < b ∨ r.leaf ∨ !r.hv ∨ hdrCnt r.hdr.toNat ≤ b then .ok (r.fail 4, s)
  else match geoKids g s r.node (b + 1) with
    | .error e => .error e
    | .ok (es, s1) =>
      let c := childOf (es.getD b 0)
      if c.kind = 3 then .ok (r.fail 4, s1)
      else if !c.aligned then .ok (r.fail 3, s1)
      else
        let ofs := ((es.take b).map fun e => slotOf (childOf e).kind).sum
        descendStep g s1 r c (r.sbase + BitVec.ofNat 64 (32 * hdrPtr r.hdr.toNat + ofs))

/-- The flags of a traversal: end at the first hit, skip what is not opaque, reject back faces; `opq`: a node on the path
is opaque (R287). -/
structure TFlags where
  first : Bool
  nopq : Bool
  cullb : Bool
  opq : Bool
  deriving DecidableEq, Repr

/-- Test the triangles of a leaf from index j on: the record, and whether the test ends at an accepted hit. -/
def triSteps (f : TFlags) (r : Ray) (leafOpq : Bool) (user : Word) : List Tri → Nat → List Word → List Word × Bool
  | [], _, h => (h, false)
  | t :: ts, j, h =>
    let (h1, got) :=
      if f.nopq && !(t.opq || leafOpq || f.opq) then (h, false)
      else match triTest r.o r.d t r.nego r.aperm r.aneg with
        | none => (h, false)
        | some x => if !x.front && (t.cb || f.cullb) then (h, false) else offer h r user j x
    if got && f.first then (h1, true) else triSteps f r leafOpq user ts (j + 1) h1

/-- TRIT (R285): the record, and whether the ray ends at an accepted hit. -/
def triStep (g : GCtx) (s : State) (f : TFlags) (r : Ray) (h : List Word) : Except GStop (List Word × Bool × State) :=
  if r.stat = 1 ∨ r.stat = 3 ∨ r.stat = 5 then .ok (hitSetStat h r.stat, false, s)
  else if r.stat ≠ 0 ∨ !r.leaf then .ok (hitSetStat h 4, false, s)
  else match geoLeaf g s r.node with
    | .error e => .error e
    | .ok (none, s1) => .ok (hitSetStat h 3, false, s1)
    | .ok (some (opq, user, ts), s1) =>
      let (h1, fin) := triSteps f r opq user ts 0 h
      .ok (h1, fin, s1)

/-! ### Hardware traversal (R287, R288) -/

/-- A ray under way: the state, the best hit, the base of the scene that holds its leaf, and what has ended the ray: a
status, an accepted first hit, or a stop. -/
structure Trace where
  s : State
  h : List Word
  base : DWord := 0
  status : Nat := 0
  fin : Bool := false
  stop : Option GStop := none
  deriving Repr

/-- Whether a ray has ended. -/
def Trace.ended (t : Trace) : Bool := t.fin || t.status != 0 || t.stop.isSome

/-- Visit a node or leaf that a ray has reached, with `pend` children pending elsewhere; `n` bounds the depth: every
descent raises σ (R423). -/
def visit (g : GCtx) (f : TFlags) : Nat → Ray → Bool → Nat → Trace → Trace
  | 0, _, _, _, t => { t with status := 1 }
  | n + 1, r, opq, pend, t =>
    if t.ended then t
    else if r.leaf then
      match triStep g t.s { f with opq := opq } r t.h with
      | .error e => { t with stop := some e }
      | .ok (h, fin, s1) =>
        { t with s := s1, h := h, base := if h == t.h then t.base else r.sbase, fin := fin, status := hitStat h }
    else match boxStep g t.s r t.h with
      | .error e => { t with stop := some e }
      | .ok (st, xs, s1) =>
        if st ≠ 0 then { t with s := s1, status := st }
        else if 64 < pend + xs.length then { t with s := s1, status := 2 }
        else
          let kids := (sortEntered xs).zipIdx
          kids.foldl (fun t k =>
            if t.ended || (hitValid t.h && (hitT t.h).lt k.1.1) then t
            else match fdinStep g t.s r k.1.2 with
              | .error e => { t with stop := some e }
              | .ok (r1, s2) =>
                if r1.stat ≠ 0 then { t with s := s2, status := r1.stat }
                else visit g f n r1 (opq || bit r.hdr.toNat 61) (pend + xs.length - k.2 - 1) { t with s := s2 })
            { t with s := s1 }

/-- Trace one root ray from a scene base (R287). -/
def traceRay (g : GCtx) (s : State) (ws : List Word) (base : DWord) (f : TFlags) : Trace :=
  let h := rootHit ws
  let r := rootRay ws base
  if r.stat ≠ 0 then { s := s, h := h, status := r.stat }
  else match fdinStep g s r 15 with
    | .error e => { s := s, h := h, stop := some e }
    | .ok (r1, s1) =>
      if r1.stat ≠ 0 then { s := s1, h := h, status := r1.stat }
      else visit g f 65513 r1 false 0 { s := s1, h := h }

/-- The record that a ray ends with: any status leaves no hit (R287). -/
def Trace.record (t : Trace) (ws : List Word) : List Word :=
  if t.status ≠ 0 then [ws.getD 9 0, ws.getD 10 0, BitVec.ofNat 32 (t.status * 2 ^ 8)] ++ List.replicate 13 0 else t.h

/-- Field C of RTRACE and TRIT. -/
def flagsOf (c : Nat) : TFlags := ⟨bit c 0, bit c 1, bit c 2, false⟩

/-! ### Issue -/

/-- Registers of a lane. -/
def Group.vWords (g : Group) (r n l : Nat) : List Word := (List.range n).map fun k => g.rv (r + k) l

/-- Records by lane as writes of consecutive registers. -/
def recWrs (d n : Nat) (xs : List (Nat × List Word)) : List Wr :=
  let m := maskOf fun l => (Tab.find? xs l).isSome
  (List.range n).map fun k => .v (d + k) m (lanesOf fun l => (Tab.get [] xs l).getD k 0)

/-- RCVT (R282). -/
def execRcvt (f : Fld) (s : State) : Host.Outcome State Fault Refusal := issue (.rcvt f) s fun cx s =>
  let ws (l : Nat) : List Word := cx.g.vWords cx.f.a.toNat 12 l
  let out (l : Nat) : List Word :=
    if cx.m = 0 then (rootRay (ws l) (cx.g.rs2 (cx.f.b.toNat - 256))).words else rootHit (ws l)
  .done (addFix s cx (recWrs cx.f.d.toNat (if cx.m = 0 then 20 else 16) ((lanesIn cx.act).map fun l => (l, out l))))

/-- Start a traversal (R289); with no active lane it completes at once without a read. -/
def startTrav (s : State) (cx : Cx) (k : OpK) (n : Nat) : Eff :=
  if cx.act = 0 then .done (completeNow (startOp s cx k []))
  else .done (startLater s cx k (vRefs cx.f.d.toNat n))

/-- BOXT (R283). -/
def execBoxt (f : Fld) (s : State) : Host.Outcome State Fault Refusal := issue (.boxt f) s fun cx s =>
  startTrav s cx (.trav 0x71 cx.f.d.toNat 0 ((lanesIn cx.act).map fun l =>
    (l, cx.g.vWords cx.f.a.toNat 20 l, cx.g.vWords cx.f.b.toNat 16 l))) 1

/-- TRIT (R285). -/
def execTrit (f : Fld) (s : State) : Host.Outcome State Fault Refusal := issue (.trit f) s fun cx s =>
  startTrav s cx (.trav 0x73 cx.f.d.toNat cx.f.c.toNat ((lanesIn cx.act).map fun l =>
    (l, cx.g.vWords cx.f.a.toNat 20 l, cx.g.vWords cx.f.b.toNat 16 l))) 16

/-- RTRACE (R287): the ray samples the slice's generation at issue (R118). -/
def execRtrace (f : Fld) (s : State) : Host.Outcome State Fault Refusal := issue (.rtrace f) s fun cx s =>
  startTrav s cx (.rtrace cx.f.d.toNat ((lanesIn cx.act).map fun l => (l, cx.g.vWords cx.f.a.toNat 12 l))
    (cx.g.rs2 (cx.f.b.toNat - 256)) cx.f.c.toNat (s.slice cx.l.ctx.slice).gen) 16

/-! ### Interpolation (R286) -/

/-- The exact sum of two values; a NaN where there is none, and whether that is invalid. -/
def exactAdd (mode : Nat) (a b : FV) : FV × Bool :=
  match a, b with
  | .nan s, y => (.nan false, s || y.snan)
  | x, .nan s => (.nan false, s || x.snan)
  | .inf x, .inf y => if x = y then (.inf x, false) else (.nan false, true)
  | .inf x, .fin .. => (.inf x, false)
  | .fin .., .inf y => (.inf y, false)
  | .fin n1 m1 e1, .fin n2 m2 e2 =>
    let q := min e1 e2
    let x := scaled n1 m1 e1 q + scaled n2 m2 e2 q
    if x = 0 then (.fin (if m1 = 0 ∧ m2 = 0 ∧ n1 = n2 then n1 else mode == 3) 0 q, false)
    else (.fin (x < 0) x.natAbs q, false)

/-- x_a + U·(x_b − x_a) + V·(x_c − x_a), exact and rounded once; a NaN operand gives the canonical NaN (R286). -/
def interpolate (mode u v a b c : Nat) : FR :=
  let x (n : Nat) : FV := unpack f32 n
  let nans := [x u, x v, x a, x b, x c].filter FV.isNan
  if !nans.isEmpty then qnan f32 (nans.any FV.snan)
  else
    let db := exactAdd mode (x b) (x a).negate
    let dc := exactAdd mode (x c) (x a).negate
    let pb := mulFV (x u) db.1
    let pc := mulFV (x v) dc.1
    let s1 := exactAdd mode (x a) pb.1
    let s2 := exactAdd mode s1.1 pc.1
    roundFV f32 mode s2.1 (db.2 || dc.2 || pb.2 || pc.2 || s1.2 || s2.2)

/-- RHIT (R286): a lane whose record has VALID = 0 keeps its register. -/
def execRhit (f : Fld) (s : State) : Host.Outcome State Fault Refusal := issue (.rhit f) s fun cx s =>
  let h (l : Nat) : List Word := cx.g.vWords cx.f.a.toNat 16 l
  let x (l k : Nat) : Nat := (cx.g.rv (cx.f.b.toNat + k) l).toNat
  let r (l : Nat) : FR := interpolate cx.m (recNum (h l) 14 1) (recNum (h l) 15 1) (x l 0) (x l 1) (x l 2)
  let m := maskOf fun l => cx.act.getLsbD l && hitValid (h l)
  let fl := (lanesIn (cx.actNH &&& m)).foldl (fun a l => a ||| (r l).2) 0
  .done (addFixF s cx (vWrite 2 cx.f.d.toNat m fun l => (r l).1) fl)

/-! ### Completion -/

/-- Who traverses: the headers are read with .acq at .dev (R116). -/
def gctxFor (w : Who) : GCtx := { eng := w, grp := { w with acq := true, scp := 3 } }

/-- The engine of a hardware traversal of a slice, which has sampled a generation at its issue (R118). -/
def Who.sampledAt (w : Who) (s : State) (o : Op) : Who :=
  { w with sampled := some (((s.launch? o.lnch).elim 0 (·.ctx.slice)) + 1, o.histAt) }

/-- Who traverses for an operation of a group: the header reads of an RTRACE count as the group's; those of an FDIN are marked accesses
of the split that issued it (R284). -/
def gctxOf (s : State) (o : Op) : GCtx := match o.k with
  | .rtrace .. =>
    let g := gctxFor ((opWho s o).sampledAt s o)
    { g with grp := { g.grp with party := agentParty o.ag } }
  | _ => { eng := opWho s o, grp := grpWho s o }

/-- The result of BOXT, FDIN or TRIT in a lane. -/
def travLane (g : GCtx) (s : State) (opc c : Nat) (blk second : List Word) : Except GStop (List Word × State) :=
  match opc with
  | 0x71 => match boxStep g s (rayOf blk) second with
    | .error e => .error e
    | .ok (st, xs, s1) => .ok (numWords 1 (boxWord st xs), s1)
  | 0x72 => match fdinStep g s (rayOf blk) (recNum second 0 1) with
    | .error e => .error e
    | .ok (r, s1) => .ok (r.words, s1)
  | _ => match triStep g s { flagsOf c with first := false } (rayOf blk) second with
    | .error e => .error e
    | .ok (h, _, s1) => .ok (h, s1)

/-- What several lanes come to: the records of the lanes that ended, those that a skip lands, the faults in lane order, and the
peer bytes that are missing. -/
structure LaneRun where
  s : State
  done : List (Nat × List Word) := []
  skip : List (Nat × List Word) := []
  faults : List MFault := []
  far : List Hit := []
  deriving Repr

/-- The check of R400 that finds a cause. -/
def checkOf (cause : Nat) : Nat :=
  if cause ∈ [0x40, 0x41, 0x43] then 1 else if cause = 0x42 then 2 else if cause ∈ [0x44, 0x45, 0x46] then 3 else cause

/-- Of several faults the one of the lowest check of R400, the first on equal. -/
def worstFault : List MFault → Option MFault
  | [] => none
  | m :: ms => match worstFault ms with
    | none => some m
    | some x => some (if checkOf x.cause < checkOf m.cause then x else m)

/-- Record a stop of lane l, whose partial record a skip lands. -/
def LaneRun.stopped (x : LaneRun) (l : Nat) (part : Option (List Word)) (e : GStop) : LaneRun :=
  let y := { x with skip := x.skip ++ (part.map fun p => (l, p)).toList }
  match e with
  | .fault m => { y with faults := y.faults ++ [m] }
  | .far hs => { y with far := y.far ++ hs }

/-- Record what a lane came to. -/
def LaneRun.ended (x : LaneRun) (l : Nat) (s : State) (ws : List Word) : LaneRun :=
  { x with s := s, done := x.done ++ [(l, ws)], skip := x.skip ++ [(l, ws)] }

/-- Every lane of a BOXT, FDIN or TRIT. -/
def travLanes (g : GCtx) (opc c : Nat) (lanes : List (Nat × List Word × List Word)) (s : State) : LaneRun :=
  lanes.foldl (fun (x : LaneRun) ln => match travLane g x.s opc c ln.2.1 ln.2.2 with
    | .error e => x.stopped ln.1 none e
    | .ok (ws, s1) => x.ended ln.1 s1 ws) { s := s }

/-- Every ray of an RTRACE. -/
def traceLanes (g : GCtx) (base : DWord) (flags : Nat) (rays : List (Nat × List Word)) (s : State) : LaneRun :=
  rays.foldl (fun (x : LaneRun) ln =>
    let t := traceRay g x.s ln.2 base (flagsOf flags)
    match t.stop with
    | some e => x.stopped ln.1 (some t.h) e
    | none => x.ended ln.1 t.s (t.record ln.2)) { s := s }

/-- Complete a traversal with what its lanes came to: its registers land, or it stops at a deferred fault once every lane has ended or
faults, or it asks peer modules for bytes (R289, R402, R404, R373). -/
def endTrav (name : String) (s : State) (o : Op) (d n : Nat) (x : LaneRun) : Host.Outcome State Fault Refusal :=
  if !x.far.isEmpty then withFar name s o (opNs s o) x.far fun s => .next s
  else match worstFault x.faults with
  | some m =>
    let t := { opTrap o m.cause m.aux with walk := m.page.map fun p => ((opWho s o).die, p) }
    .next (deferFault (s.modOp o.id fun y => { y with skip := recWrs d n x.skip }) o.id t)
  | none => .next (endEngine x.s { o with wrs := recWrs d n x.done })

/-- How many registers BOXT, FDIN or TRIT writes. -/
def travRegs (opc : Nat) : Nat := if opc = 0x71 then 1 else if opc = 0x72 then 20 else 16

/-- The completion of a BOXT, FDIN or TRIT; an FDIN whose reads were made at its issue has no lane left. -/
def travComplete (s : State) (o : Op) (opc d c : Nat) (lanes : List (Nat × List Word × List Word)) :
    Host.Outcome State Fault Refusal :=
  if lanes.isEmpty then .next (endEngine s o)
  else endTrav "VARIABLE_LATENCY_COMPLETE" s o d (travRegs opc) (travLanes (gctxOf s o) opc c lanes s)

/-- What a skip of a BOXT, FDIN or TRIT lands: the lanes that do not fault (R404). -/
def travSkip (s : State) (o : Op) (opc d c : Nat) (lanes : List (Nat × List Word × List Word)) : State :=
  if lanes.isEmpty then endEngine s o
  else
    let x := travLanes (gctxOf s o) opc c lanes s
    endEngine x.s { o with wrs := recWrs d (travRegs opc) x.skip }

/-- FDIN (R284): its header loads are acquiring accesses of the split in its program order (R60, R116), and are made, with the reads
that lead to them, as it issues; where one faults or has bytes of a peer module to wait for, all are made at its completion (log 11). -/
def execFdin (f : Fld) (s : State) : Host.Outcome State Fault Refusal := issue (.fdin f) s fun cx s =>
  let lanes := (lanesIn cx.act).map fun l => (l, cx.g.vWords cx.f.a.toNat 20 l, [BitVec.ofNat 32 (cx.b32 l)])
  let s1 := startHb s cx
  let x := travLanes { eng := cx.engWho s, grp := cx.who } 0x72 0 lanes (s1.newLoad cx.me)
  if cx.act = 0 || !x.faults.isEmpty || !x.far.isEmpty then startTrav s cx (.trav 0x72 cx.f.d.toNat 0 lanes) 20
  else .done (startOp x.s cx (.trav 0x72 cx.f.d.toNat 0 []) (recWrs cx.f.d.toNat 20 x.done))

/-- The completion of an RTRACE (R289). -/
def execRtraceComplete (id : Nat) (s : State) : Host.Outcome State Fault Refusal :=
  match s.op? id with
  | none => notNow "RTRACE_COMPLETE"
  | some o => match o.k, o.fault, o.done || opSaved s o with
    | .rtrace d rays base flags _, none, false => endTrav "RTRACE_COMPLETE" s o d 16 (traceLanes (gctxOf s o) base flags rays s)
    | _, _, _ => notNow "RTRACE_COMPLETE"

/-! ### Changing a scene -/

/-- NSWAP (R291): the header is stored with .rel at .dev and the generation rises, in one event. -/
def execNswap (f : Fld) (s : State) : Host.Outcome State Fault Refusal := issue (.nswap f) s fun cx s =>
  let a := cx.g.rs2 cx.f.a.toNat
  match badPath [0] [a] with
  | some m => .trap (cx.mtrap m)
  | none => match resolveAll s cx.who .store true (fun _ _ => 32) [(none, a, 8)] with
    | .error m => .trap (cx.mtrap m)
    | .ok (hs, s1) =>
      let s2 := writeLanes s1 (cx.whoOp s1) true hs fun _ => bytesOfNat 8 (cx.g.rs2 (cx.f.b.toNat - 256)).toNat
      let g := (s2.slice cx.l.ctx.slice).gen + 1
      let s3 := (spendFence (releaseBy s2 cx) cx.who).modSlice cx.l.ctx.slice fun x => { x with gen := g }
      .done (startOp s3 cx .reg [.s cx.f.d.toNat g])

/-- The effect of a GDRAIN: its return acquires the reads of every traversal of an earlier generation (R292). -/
def gdrainEff (cx : Cx) (s : State) : Eff :=
  let earlier (c : Chan) : Bool := match c with
    | .trav sl gen => sl == cx.l.ctx.slice && precedes (BitVec.ofNat 32 gen) (BitVec.ofNat 32 (cx.b32 0))
    | _ => false
  if waitMet s cx then .done (((s.hb.chans.map (·.1)).filter earlier).foldl (fun (s : State) c => s.hear cx.me c) s) else .wait s

/-- GDRAIN (R292, R119): a waiting instruction. -/
def execGdrain (f : Fld) (s : State) : Host.Outcome State Fault Refusal := issue (.gdrain f) s gdrainEff

/-- Whether an instruction is a GDRAIN. -/
def isGdrain : Instr → Bool
  | .gdrain _ => true
  | _ => false

/-- The return of a GDRAIN. -/
def execGdrainReturn (ag : Agent) (s : State) : Host.Outcome State Fault Refusal :=
  resume "GDRAIN_RETURN" ag s isGdrain gdrainEff

end Sys2Proof.Machine
end

