-- ==== Sys2Proof/Machine/Raster.lean ====
section
/-! DEFINITION. Raster passes (R293 to R300). Every access of a pass is made at its completion, die by die; on each die
the samples go in row order. -/

namespace Sys2Proof.Machine

open Sys2Proof

/-! ### View records (R293) -/

/-- A field of `n` bytes at a byte offset of a view record. -/
def viewField (ws : List Word) (off n : Nat) : Nat := natOfBytes (((ws.flatMap bytesOfWord).drop off).take n)
/-- WIDTH. -/
def viewWidth (ws : List Word) : Nat := viewField ws 0x44 2
/-- HEIGHT. -/
def viewHeight (ws : List Word) : Nat := viewField ws 0x46 2
/-- Samples per pixel, S of R298. -/
def viewSamples (ws : List Word) : Nat := if viewField ws 0x48 4 % 4 = 1 then 4 else 1
/-- A component of D0, DX or DY, at a byte offset. -/
def viewVec (ws : List Word) (off a : Nat) : Int := toSigned 32 (viewField ws (off + 4 * a) 4)
/-- d(x, y) on an axis (R294). -/
def viewDir (ws : List Word) (x y a : Nat) : Int := viewVec ws 0x20 a + x * viewVec ws 0x2C a + y * viewVec ws 0x38 a

/-- The offset of sample `i` within its pixel (R294). -/
def sampleOfs (ws : List Word) (i : Nat) : Nat × Nat :=
  if viewSamples ws = 1 then (2, 2) else (1 + i % 2 * 2, 1 + i / 2 * 2)
/-- The lattice position of sample `i` of pixel (px, py) (R294). -/
def samplePos (ws : List Word) (px py i : Nat) : Nat × Nat := (4 * px + (sampleOfs ws i).1, 4 * py + (sampleOfs ws i).2)

/-- Whether every sample's direction fits (R294): d is linear, so the corners of the sample lattice decide. -/
def viewDirsOk (ws : List Word) : Bool :=
  let lo := samplePos ws 0 0 0
  let hi := samplePos ws (viewWidth ws - 1) (viewHeight ws - 1) (viewSamples ws - 1)
  [lo.1, hi.1].all fun x => [lo.2, hi.2].all fun y => [0, 1, 2].all fun a => (viewDir ws x y a).natAbs < 2 ^ 31

/-- Whether a view record satisfies R293 and R294. -/
def viewOk (ws : List Word) : Bool :=
  let w := viewField ws 0x48 4
  1 ≤ viewWidth ws && 1 ≤ viewHeight ws && w % 4 < 2 && bits w 5 27 == 0 && viewWidth ws ≤ viewField ws 0x54 4 &&
  viewField ws 0x5F 1 == 0 && viewField ws 0x58 8 % 8 == 0 && viewField ws 0x67 1 == 0 && viewField ws 0x60 8 % 4 == 0 &&
  viewField ws 0x68 24 == 0 && viewDirsOk ws

/-- DRAWV (R295): the view record is read and the generation sampled at issue; every die of the view accepts the pass. -/
def execDrawv (f : Fld) (s : State) : Host.Outcome State Fault Refusal := issue (.drawv f) s fun cx s =>
  let a := cx.g.rs2 cx.f.a.toNat
  let gen := (s.slice cx.l.ctx.slice).gen
  let s1 := startLater s cx (.drawv a gen) [.s cx.f.d.toNat]
  .done { s1 with passes := s1.passes ++ [{ op := lastId s1, slice := cx.l.ctx.slice, view := [], gen := gen, dies := viewDies s cx.who a }] }

/-- Read a view record (R293). -/
def readView (s : State) (w : Who) (a : DWord) : Except GStop (List Word × State) :=
  match engRd s w .engRead false 128 a 128 with
  | .error e => .error e
  | .ok (bs, s1) => .ok ((List.range 32).map fun i => BitVec.ofNat 32 (natOfBytes ((bs.drop (4 * i)).take 4)), s1)

/-! ### Samples -/

/-- The root ray of a sample (R294). -/
def sampleRay (ws : List Word) (px py i : Nat) : List Word :=
  let p := samplePos ws px py i
  (ws.drop 2).take 6 ++ ([0, 1, 2].map fun a => BitVec.ofInt 32 (viewDir ws p.1 p.2 a)) ++ [ws.getD 19 0, ws.getD 20 0, 0]

/-- The visibility entry of a hit (R298): the leaf's offset from the base of the scene that holds it. -/
def visEntry (h : List Word) (base : DWord) : Nat :=
  bits (recNum h 2 1) 2 5 + bits (recNum h 2 1) 1 1 * 2 ^ 5 +
  bits ((BitVec.ofNat 64 (recNum h 11 2) - base).toNat / 32) 0 28 * 2 ^ 6 + recNum h 10 1 % 2 ^ 30 * 2 ^ 34

/-- Where the samples of a pass come to: what has been written, the status bits, and what stops it. -/
structure RasterRun where
  s : State
  status : Nat := 0
  pos : Nat
  stop : Option GStop := none
  deriving Repr

/-- Write bytes of a pass. -/
def passWrite (s : State) (w : Who) (a : DWord) (n x : Nat) : Except GStop State :=
  match resolveAll s w .engWrite false (fun _ _ => n) [(none, a, n)] with
  | .error m => .error (.fault m)
  | .ok (hs, s1) => .ok (writeLanes s1 w false hs fun _ => bytesOfNat n x)

/-- Read a stored depth. -/
def passRead (s : State) (w : Who) (a : DWord) : Except GStop (Nat × State) :=
  match engRd s w .engRead false 4 a 4 with
  | .error e => .error e
  | .ok (bs, s1) => .ok (natOfBytes bs, s1)

/-- Write an entry and a depth. -/
def passStore (s : State) (w : Who) (va da : DWord) (entry depth : Nat) : Except GStop State :=
  match passWrite s w va 8 entry with
  | .error e => .error e
  | .ok s1 => passWrite s1 w da 4 depth

/-- Write or compose one sample (R298, R299). -/
def composeSample (s : State) (w : Who) (ws : List Word) (px py i : Nat) (hit : Bool) (entry depth : Nat) : Except GStop State :=
  let ix := (py * viewField ws 0x54 4 + px) * viewSamples ws + i
  let va : DWord := BitVec.ofNat 64 (viewField ws 0x58 8 + 8 * ix)
  let da : DWord := BitVec.ofNat 64 (viewField ws 0x60 8 + 4 * ix)
  if bit (viewField ws 0x48 4) 4 then
    match passRead s w da with
    | .error e => .error e
    | .ok (old, s1) =>
      if hit && ltFV (unpack f32 depth) (unpack f32 old) then passStore s1 w va da entry depth else .ok s1
  else passStore s w va da entry depth

/-- One sample of a pass: its ray, its entry and depth, and the status bit it adds (R295). -/
def passSample (w : Who) (ws : List Word) (px py i : Nat) (r : RasterRun) : RasterRun :=
  if r.stop.isSome then r
  else
    let base : DWord := BitVec.ofNat 64 (viewField ws 0 8)
    let ray := sampleRay ws px py i
    let fl := viewField ws 0x48 4
    let t := traceRay (gctxFor w) r.s ray base ⟨false, bit fl 3, bit fl 2, false⟩
    match t.stop with
    | some e => { r with stop := some e }
    | none =>
      let h := t.record ray
      let hit := hitValid h
      let entry := if hit then visEntry h t.base else 2 ^ 64 - 1
      match composeSample t.s w ws px py i hit entry (if hit then recNum h 1 1 else f32.inf) with
      | .error e => { r with s := t.s, stop := some e }
      | .ok s1 => { s := s1, pos := r.pos + 1
                    status := if t.status = 1 ∨ t.status = 2 ∨ t.status = 3 then r.status ||| 2 ^ t.status else r.status }

/-- The samples of the tiles that a die owns, in row order, as (px, py, sample) (R296). -/
def dieSamples (ws : List Word) (die : Nat) : List (Nat × Nat × Nat) :=
  (List.range (viewHeight ws)).flatMap fun py =>
    ((List.range (viewWidth ws)).filter fun px => (px / 16 + py / 16) % 3 == die).flatMap fun px =>
      (List.range (viewSamples ws)).map fun i => (px, py, i)

/-- Who makes a die's accesses for a pass: its context is the slice's (R296); the generation is that of its issue (R118). -/
def passWho (s : State) (o : Op) (die : Nat) : Who := { (opWho s o).sampledAt s o with core := some (48 * die) }

/-- Change a pass. -/
def State.modPass (s : State) (id : Nat) (f : Pass → Pass) : State :=
  let f' (p : Pass) : Pass := if p.op = id then f p else p
  { s with passes := s.passes.map f' }

/-- A pass has nothing left to do: its status lands, its token and f7 fall (R300). -/
def endPass (s : State) (o : Op) (d : Nat) (status : Nat) : State :=
  endEngine { s with passes := s.passes.filter fun p => p.op != o.id } { o with wrs := [.s d (BitVec.ofNat 32 status)] }

/-- The register that receives a pass's status. -/
def Op.statusReg (o : Op) : Nat := match o.wrs with
  | .s d _ :: _ => d
  | _ => 0

/-- Whether a die has begun to serve a pass and not ended. -/
def Pass.begun (q : Pass) (die : Nat) : Bool := decide (die ∈ q.dies) && (Tab.find? q.pos die).isSome

/-- The die that serves a pass next: no earlier pass of the same group still waits there, or has its view to read, and no other pass
has been begun there (R297: a die applies what it has accepted in one order). -/
def passDie (s : State) (o : Op) (p : Pass) : Option Nat :=
  let mine := (s.ops.filter fun x => sameAgent x.ag o.ag).map (·.id)
  let earlier := (s.passes.takeWhile fun q => q.op != o.id).filter fun q => decide (q.op ∈ mine)
  p.dies.find? fun d => !(earlier.any fun q => q.view.isEmpty || decide (d ∈ q.dies)) &&
    !(s.passes.any fun q => q.op != p.op && q.slice == p.slice && q.begun d)

/-- A pass stops: at a deferred fault, or to ask for bytes of peer modules (R373, R402, R404). -/
def stopPass (s : State) (o : Op) (die : Nat) : GStop → State
  | .fault m => deferFault s o.id { opTrap o m.cause m.aux with walk := m.page.map fun a => (die, a) }
  | .far hs => requestReads s (opNs s o) o.id hs

/-- Serve a pass on one die; after the last it completes. It follows the group's earlier passes there (R297, R434). A stop leaves the
samples done as the die's checkpoint (R404). -/
def servePass (s0 : State) (o : Op) (p : Pass) (ws : List Word) (die : Nat) : State :=
  let s := s0.hear (opMe o.id) (.pass o.wg o.grp die)
  let pos := Tab.get 0 p.pos die
  let r := ((dieSamples ws die).drop pos).foldl (fun r x => passSample (passWho s o die) ws x.1 x.2.1 x.2.2 r)
    { s := s, status := p.status.toNat, pos := pos }
  match r.stop with
  | some e =>
    stopPass (r.s.modPass o.id fun q => { q with pos := Tab.put q.pos die r.pos, status := BitVec.ofNat 32 r.status }) o die e
  | none =>
    let rest := p.dies.filter (· != die)
    let s1 := r.s.post (.pass o.wg o.grp die) (r.s.relClk (opMe o.id))
    if rest.isEmpty then endPass s1 o o.statusReg r.status
    else (s1.bump (opMe o.id)).modPass o.id fun q => { q with dies := rest, status := BitVec.ofNat 32 r.status }

/-- The work of a pass: the view record is read first, through die 0, which the manual leaves open (log 36, DESIGN CHOICE); a broken one ends the pass with status 1 and nothing written; then die
after die serves it (R293, R295, R297, R300). -/
def execDrawvPassComplete (id : Nat) (s : State) : Host.Outcome State Fault Refusal :=
  match s.op? id, s.passes.find? fun p => p.op == id with
  | some o, some p => match o.k, o.fault, o.done || p.stopped || !o.tags.isEmpty with
    | .drawv a _, none, false =>
      if !p.view.isEmpty then match passDie s o p with
        | none => notNow "DRAWV_PASS_COMPLETE"
        | some die => .next (servePass s o p p.view die)
      else if 1 < pathOf a ∨ a.toNat % 128 ≠ 0 then .next (endPass s o o.statusReg 1)
      else match readView s (passWho s o 0) a with
        | .error e => .next (stopPass s o 0 e)
        | .ok (ws, s1) =>
          if viewOk ws then .next (s1.modPass id fun q => { q with view := ws, dies := diesOf (viewWidth ws) (viewHeight ws) })
          else .next (endPass s1 o o.statusReg 1)
    | _, _, _ => notNow "DRAWV_PASS_COMPLETE"
  | _, _ => notNow "DRAWV_PASS_COMPLETE"

end Sys2Proof.Machine
end

