-- ==== Sys2Proof/Machine/SpoolOps.lean ====
section
/-! DEFINITION. The spool processor's engines: bulk copies (R265 to R271) and collectives (R272 to R274, R424). -/

namespace Sys2Proof.Machine

open Sys2Proof

/-- The copy-misuse trap. -/
def Cx.cpTrap (cx : Cx) : Trap := cx.trap 0x000A 0

/-! ### TCOPY -/

/-- A TCOPY: fields C and D, and the command block. -/
structure TC where
  fc : Nat
  fd : Nat
  blk : List Word

/-- A word of the block. -/
def TC.word (t : TC) (k : Nat) : Nat := (t.blk.getD k 0).toNat
/-- nlev. -/
def TC.nlev (t : TC) : Nat := t.fd / 32 % 8 + 1
/-- E. -/
def TC.esz (t : TC) : Nat := 2 ^ (t.fc % 8)
/-- The mode: 0 .lin, 1 .pad, 2 .grp. -/
def TC.mode (t : TC) : Nat := t.fc / 8 % 4
/-- T(i); a level at or above nlev takes 1 (R266). -/
def TC.trip (t : TC) (i : Nat) : Nat := if i < t.nlev then bits (t.word (5 + 2 * i)) 0 12 + 1 else 1
/-- SS(i). -/
def TC.ss (t : TC) (i : Nat) : Int := if i < t.nlev then toSigned 32 (t.word (4 + 2 * i)) else 0
/-- DS(i). -/
def TC.ds (t : TC) (i : Nat) : Int := if i < t.nlev then toSigned 20 (bits (t.word (5 + 2 * i)) 12 20) else 0
/-- SRC and DST. -/
def TC.src (t : TC) : DWord := BitVec.ofNat 64 (t.word 0 + 2 ^ 32 * t.word 1)
/-- DST. -/
def TC.dst (t : TC) : DWord := BitVec.ofNat 64 (t.word 2 + 2 ^ 32 * t.word 3)
/-- BOUND of an axis. -/
def TC.bound (t : TC) (a : Nat) : Nat := bits (t.word (13 + 2 * a)) 16 16

/-- Whether the descriptors keep to R267 and R275. -/
def TC.ok (t : TC) : Bool :=
  match t.mode with
  | 1 => (List.range 2).all fun a =>
      let w := t.word (12 + 2 * a)
      t.bound a == 0 || (bits w 0 3 < t.nlev && bits w 3 3 < t.nlev && bits w 6 8 != 0 && bits w 14 8 != 0 && bits w 22 10 == 0)
  | 2 =>
    let w := t.word 15
    bits w 0 3 < t.nlev && bits w 3 16 != 0 && bits w 19 13 == 0
  | _ => true

/-- The number of elements. -/
def TC.count (t : TC) : Nat := (List.range 6).foldl (fun n i => n * t.trip i) 1
/-- The coordinates of element e in walk order. -/
def TC.coord (t : TC) (e i : Nat) : Nat := e / ((List.range i).foldl (fun n j => n * t.trip j) 1) % t.trip i
/-- The six coordinate counters of a position. -/
def TC.counters (t : TC) (e : Nat) : List Nat := (List.range 6).map (t.coord e)
/-- The position that the counters give. -/
def TC.pos (t : TC) (c : List Nat) : Nat :=
  (List.range 6).foldl (fun n i => n + c.getD i 0 * ((List.range i).foldl (fun n j => n * t.trip j) 1)) 0

/-- The source offset of an element (R268). -/
def TC.so (t : TC) (e : Nat) : Int :=
  let sum : Int := (List.range 6).foldl (fun (a : Int) i => a + t.coord e i * t.ss i) 0
  if t.mode = 2 then
    let l := bits (t.word 15) 0 3
    let gs := bits (t.word 15) 3 16
    let c := t.coord e l
    sum - c * t.ss l + (c / gs : Nat) * toSigned 32 (t.word 14) + (c % gs : Nat) * t.ss l
  else sum
/-- The destination offset. -/
def TC.do_ (t : TC) (e : Nat) : Int := t.esz * (List.range 6).foldl (fun (a : Int) i => a + t.coord e i * t.ds i) 0
/-- Whether an element lies inside every axis's bounds. -/
def TC.inside (t : TC) (e : Nat) : Bool :=
  t.mode != 1 || (List.range 2).all fun a =>
    let w := t.word (12 + 2 * a)
    let h : Int := (t.coord e (bits w 0 3) * bits w 6 8 + t.coord e (bits w 3 3) * bits w 14 8 : Nat) - toSigned 16 (bits (t.word (13 + 2 * a)) 0 16)
    t.bound a == 0 || (0 ≤ h && h < (t.bound a : Int))

/-- An address with an offset, on the path of its base. -/
def onPath (base : DWord) (off : Int) : DWord := base.extractLsb' 56 8 ++ (base + BitVec.ofInt 64 off).extractLsb' 0 56

/-- TCOPY (R265, R266). -/
def execTcopy (f : Fld) (s : State) : Host.Outcome State Fault Refusal := issue (.tcopy f) s fun cx s =>
  let t : TC := ⟨cx.f.c.toNat, cx.f.d.toNat, (List.range 16).map fun k => cx.g.rs (cx.f.a.toNat + k)⟩
  if !t.ok then .trap cx.cpTrap
  else
    let bar := if bit t.fd 4 then some (t.fd % 16) else none
    .done (startOp s cx (.tcopy t.fc t.fd t.blk [0, 0, 0, 0, 0, 0]) [] 0 bar)

/-- The source of an element, if it reads one, and its destination. -/
def TC.reqs (t : TC) (e : Nat) : List Req × Req :=
  (if t.inside e then [(none, onPath t.src (t.so e), t.esz)] else [], (none, onPath t.dst (t.do_ e), t.esz))

/-- The checks of one element's addresses (R400). -/
def tcChecks (s : State) (w : Who) (t : TC) (e : Nat) : List Check :=
  let al := min t.esz 16
  ((t.reqs e).1.flatMap fun r => [admitted s w [0, 1, 8, 9, 12] .engRead r al, raceCheck s w .engRead r al]) ++
  [admitted s w [0, 8, 9, 12] .engWrite (t.reqs e).2 al, raceCheck s w .engWrite (t.reqs e).2 al]

/-- Copy one element (R268, R269). -/
def tcElem (s : State) (w : Who) (t : TC) (e : Nat) : Stepped :=
  let al := min t.esz 16
  match worstOf s w (tcChecks s w t e) with
  | some m => .stop s m
  | none => match resolveAll s w .engRead false (fun _ _ => al) (t.reqs e).1 with
    | .error m => .stop s m
    | .ok (a, s1) => match resolveAll s1 w .engWrite false (fun _ _ => al) [(t.reqs e).2] with
      | .error m => .stop s m
      | .ok (d, s2) =>
        let (vals, s3) := readByteLanes s2 w false a
        let s4 := writeLanes s3 w false d fun _ => lcBytes vals 64 t.esz
        .ok (movePoison s s4 (((a.flatMap (·.2)).map (·.key)).zip ((d.flatMap (·.2)).map (·.key))))

/-- Elements `e` on, `n` of them. A stop keeps the counters of its element (R271). -/
def tcRun (s : State) (o : Op) (w : Who) (t : TC) (e : Nat) : Nat → Stepped
  | 0 => .ok s
  | n + 1 => match tcElem s w t e with
    | .ok s1 => tcRun s1 o w t (e + 1) n
    | .stop s1 m => .stop (s1.modOp o.id fun o => { o with k := .tcopy t.fc t.fd t.blk (t.counters e) }) m

/-- The bytes of peer modules that a TCOPY still reads. -/
def tcFar (s : State) (w : Who) (t : TC) (e n : Nat) : List Hit :=
  if s.peers.isEmpty then []
  else (List.range n).flatMap fun i => (t.reqs (e + i)).1.flatMap fun r =>
    match resolve s w .engRead none r.2.1 r.2.2 1 with
    | .ok (hs, _) => farHits [] (atVa r.2.1 hs)
    | .error _ => []

/-- The completion of a TCOPY: it is copied from its counters on, its arrival is made; or it stops at a deferred fault with
its counters kept (R270, R271, R404). A byte that the copy has written it may read as it was before (R269). -/
def execTcopyComplete (id : Nat) (s : State) : Host.Outcome State Fault Refusal :=
  match s.op? id with
  | none => notNow "TCOPY_COMPLETE"
  | some o => match o.k, o.fault, o.done || opSaved s o with
    | .tcopy fc fd blk c, none, false =>
      let t : TC := ⟨fc, fd, blk⟩
      let w := { opWho s o with copy := true }
      let e := t.pos c
      withFar "TCOPY_COMPLETE" s o (opNs s o) (tcFar s w t e (t.count - e)) fun s =>
        match tcRun s o w t e (t.count - e) with
        | .ok s1 => .next (endEngine s1 o)
        | .stop s1 m => .next (deferFault s1 id { opTrap o m.cause m.aux with walk := m.page.map fun p => (w.die, p) })
    | _, _, _ => notNow "TCOPY_COMPLETE"

/-! ### COLL -/

/-- A collective's trap 0x0080 (R414). -/
def mismatch (o : Op) (comm seq : Nat) : Trap := opTrap o 0x80 (BitVec.ofNat 64 (comm + seq * 2 ^ 32))

/-- Fail some members of a collective (R424). -/
def failMembers (s : State) (comm seq : Nat) (ms : List Member) : State :=
  ms.foldl (fun (s : State) m => match s.op? m.op with
    | some o => deferFault s o.id (mismatch o comm seq)
    | none => s) s

/-- Ranks of this module. -/
def localRanks (s : State) (table : List (Nat × Nat)) : List Nat :=
  (table.zipIdx.filter fun er => er.1.1 == s.moduleNo).map (·.2)

/-- The rank that a member of a slice takes. -/
def rankOf (s : State) (table : List (Nat × Nat)) (slice : Nat) : Option Nat :=
  (table.zipIdx.find? fun er => er.1.1 == s.moduleNo && er.1.2 == slice).map (·.2)

/-- Record a failed collective with the ranks that have been failed so far; after the last it is forgotten (R424). -/
def recordFailed (s : State) (c : Collective) (ranks : List Nat) : State :=
  let d := (c.done ++ ranks ++ c.keys.map (·.1)).eraseDups
  let rest := s.colls.filter fun x => !(x.comm == c.comm && x.seq == c.seq && x.failed)
  if (List.range c.table.length).all fun r => decide (r ∈ d) then { s with colls := rest }
  else { s with colls := rest ++ [{ c with failed := true, members := [], data := [], keys := [], bad := [], done := d }] }

/-- The open collective of a communicator and tag, or its failed record. -/
def findColl (s : State) (comm seq : Nat) (failed : Bool) : Option Collective :=
  s.colls.find? fun c => c.comm == comm && c.seq == seq && c.failed == failed

/-- Replace an open collective. -/
def setColl (s : State) (c : Collective) : State :=
  { s with colls := s.colls.map fun x => if x.comm == c.comm && x.seq == c.seq && !x.failed then c else x }

/-- An open collective fails at the members that have issued it, and at some that do so now (R424). -/
def breakColl (s : State) (c : Collective) (ms : List Member) (ranks : List Nat) : State :=
  let all_ := c.members ++ ms
  let s1 := failMembers { s with colls := s.colls.filter fun x => !(x.comm == c.comm && x.seq == c.seq && !x.failed) } c.comm c.seq all_
  recordFailed s1 c (all_.map (·.rank) ++ ranks)

/-- The size of the pieces in which a member's data leaves for another module. -/
def collPiece : Nat := 64

/-- What a flit of collective data holds (log 12, DESIGN CHOICE): the communicator, the rank, SEQ, the values that R424 compares
with a mark of a call, the place of the data, a bit for each poisoned byte, and the data. -/
def collFlit (comm rank seq : Nat) (key : List Nat) (call : Bool) (off poison : Nat) (bs : List Byte) : List Byte :=
  let k (i : Nat) : Nat := key.getD i 0
  bytesOfNat 2 comm ++ bytesOfNat 2 rank ++ bytesOfNat 4 seq ++
  bytesOfNat 2 (k 0 + 8 * k 1 + 32 * k 2 + if call then 2 ^ 15 else 0) ++ bytesOfNat 4 (k 3) ++ bytesOfNat 2 (k 4) ++
  bytesOfNat 8 off ++ bytesOfNat 8 poison ++ bs

/-- Send collective data of an operation to the other modules of a table. -/
def sendColl (s : State) (ns : Bool) (id : Nat) (table : List (Nat × Nat)) (payload : List Byte) : State :=
  (((table.map (·.1)).filter (· != s.moduleNo)).eraseDups).foldl (fun (s : State) m =>
    match portTo s m with
    | none => s
    | some p => sendFlit s p 4 m (if ns then 1 else 0) 0 (some ⟨0, id, 0, 0, 0, 0⟩) payload) s

/-- Send the data of a member in pieces. -/
def sendPieces (s : State) (ns : Bool) (id : Nat) (c : Collective) (rank : Nat) (bs : List Byte) (bad : List Nat) : State :=
  (List.range ((bs.length + collPiece - 1) / collPiece)).foldl (fun (s : State) i =>
    let poison := (List.range collPiece).foldl (fun n j => if decide (collPiece * i + j ∈ bad) then n + 2 ^ j else n) 0
    sendColl s ns id c.table (collFlit c.comm rank c.seq c.key false (collPiece * i) poison ((bs.drop (collPiece * i)).take collPiece))) s

/-- The port that was to reach another module of a communicator, where none does any more (R426). -/
def lostPort (s : State) (table : List (Nat × Nat)) : Option Nat :=
  (table.find? fun e => e.1 != s.moduleNo && (portTo s e.1).isNone).map fun e =>
    ((List.range 18).find? fun p => s.peers.getD p 256 == e.1).getD 0

/-- A collective is over once every member has completed, those of other modules too (R424). -/
def collOver (s : State) (c : Collective) : State :=
  if (List.range c.table.length).all fun r => decide (r ∈ c.done) then
    { s with colls := s.colls.filter fun x => !(x.comm == c.comm && x.seq == c.seq && !x.failed) }
  else setColl s c

/-- Join operation `o` to its collective (R424): it matches, it opens one, or it fails it; the other modules learn of the call. -/
def joinColl (s : State) (o : Op) (slice : Nat) (key : List Nat) (comm seq : Nat) : State :=
  match Tab.find? s.comms comm with
  | none => deferFault s o.id (mismatch o comm seq)
  | some table => match rankOf s table slice, lostPort s table with
    | none, _ => deferFault s o.id (mismatch o comm seq)
    | some _, some p => deferFault s o.id (opTrap o 0x81 (BitVec.ofNat 64 (comm + p * 65536)))
    | some r, none =>
      let s1 := sendColl s (opNs s o) o.id table (collFlit comm r seq key true 0 0 [])
      match findColl s comm seq true, findColl s comm seq false with
      | some c, x =>
        if !decide (r ∈ c.done) then recordFailed (deferFault s1 o.id (mismatch o comm seq)) c [r] else open_ s1 table r x
      | none, x => open_ s1 table r x
where
  open_ (s : State) (table : List (Nat × Nat)) (r : Nat) : Option Collective → State
    | none => { s with colls := s.colls ++ [{ comm := comm, seq := seq, table := table, key := key, members := [⟨o.id, r⟩] }] }
    | some c =>
      if c.key == key && !(c.members.any fun m => m.rank == r) && !decide (r ∈ c.done) then
        setColl s { c with members := c.members ++ [⟨o.id, r⟩] }
      else breakColl s c [⟨o.id, r⟩] []

/-- The call of a member of another module arrives (R424). -/
def callArrives (s : State) (comm rank seq : Nat) (key : List Nat) : State :=
  match Tab.find? s.comms comm with
  | none => s
  | some table =>
    match findColl s comm seq true, findColl s comm seq false with
    | some c, x => if !decide (rank ∈ c.done) then recordFailed s c [rank] else open_ table x
    | none, x => open_ table x
where
  open_ (table : List (Nat × Nat)) : Option Collective → State
    | none => { s with colls := s.colls ++ [{ comm := comm, seq := seq, table := table, key := key, keys := [(rank, key)] }] }
    | some c =>
      if c.key == key && (Tab.find? c.keys rank).isNone then setColl s { c with keys := Tab.put c.keys rank key }
      else breakColl s c [] [rank]

/-- A member of another module has completed (R424; log 12). -/
def doneArrives (s : State) (comm rank seq : Nat) : State :=
  match findColl s comm seq false with
  | none => s
  | some c => collOver s { c with done := (c.done ++ [rank]).eraseDups }

/-- COLL (R272). -/
def execColl (f : Fld) (s : State) : Host.Outcome State Fault Refusal := issue (.coll f) s fun cx s =>
  let r (k : Nat) : Word := cx.g.rs (cx.f.a.toNat + k)
  let src := cx.g.rs2 cx.f.a.toNat
  let dst := cx.g.rs2 (cx.f.a.toNat + 2)
  let count := (r 4).toNat
  let mn := cx.f.mn.toNat
  let red := cx.f.c.toNat % 4
  if count = 0 ∨ 2 ^ 31 ≤ count ∨ (2 ≤ mn ∧ red ≠ 0) ∨ pathOf src ≠ 0 ∨ pathOf dst ≠ 0 ∨ r 7 ≠ 0 then .trap cx.cpTrap
  else
    let comm := bits (r 5).toNat 0 16
    let root := bits (r 5).toNat 16 16
    let bar := if bit cx.f.d.toNat 4 then some (cx.f.d.toNat % 16) else none
    let s1 := startOp s cx (.coll mn red cx.ty src dst count comm root (r 6).toNat) [] 0 bar
    match s1.op? (lastId s1) with
    | none => .done s1
    | some o => .done (joinColl s1 o cx.l.ctx.slice [mn, red, cx.ty, count, root] comm (r 6).toNat)

/-- ⊕ of a collective (R273): no flags. -/
def collOp (red ty a b : Nat) : Nat :=
  if tyFloat ty then (match red with
    | 0 => (fAdd (fmtOf ty) 0 a b).1
    | 1 => (fMinMax (fmtOf ty) false a b).1
    | _ => (fMinMax (fmtOf ty) true a b).1)
  else match red with
    | 0 => iAdd ty a b
    | 1 => iMin ty a b
    | _ => iMax ty a b

/-- Element i of a rank's data. The manual gives no fate to a bcast whose ROOT is no rank: it completes, and its elements are free
(R273; log 98, DESIGN CHOICE). -/
def Collective.elem (c : Collective) (r i : Nat) : Nat :=
  let n := if c.key.getD 2 0 = 4 then 2 else 4
  if r < c.table.length then natOfBytes (((Tab.get [] c.data r).drop (n * i)).take n) else Config.freeNat i % 2 ^ (8 * n)

/-- The elements, by rank and place, that give element i of member r (R273). -/
def Collective.sources (c : Collective) (r i : Nat) : List (Nat × Nat) :=
  let g (i : Nat) : Nat := c.key.getD i 0
  let count := g 3
  match g 0 with
  | 0 => (List.range c.table.length).map fun q => (q, i)
  | 1 => (List.range c.table.length).map fun q => (q, r * count + i)
  | 2 => [(i / count, i % count)]
  | 3 => [(g 4, i)]
  | _ => [(i / count, r * count + i % count)]

/-- How many elements each member receives. -/
def Collective.outs (c : Collective) : Nat :=
  if c.key.getD 0 0 = 2 ∨ 4 ≤ c.key.getD 0 0 then c.table.length * c.key.getD 3 0 else c.key.getD 3 0

/-- The result elements of member r (R273). -/
def Collective.result (c : Collective) (r : Nat) : List Nat :=
  (List.range c.outs).map fun i => match (c.sources r i).map fun x => c.elem x.1 x.2 with
    | [] => 0
    | x :: xs => xs.foldl (collOp (c.key.getD 1 0) (c.key.getD 2 0)) x

/-- The bytes of member r's result that a poisoned byte gives (R412). -/
def Collective.badOut (c : Collective) (r : Nat) : List Nat :=
  let n := if c.key.getD 2 0 = 4 then 2 else 4
  if c.bad.isEmpty then []
  else (List.range c.outs).flatMap fun i =>
    if (c.sources r i).any fun x => c.bad.any fun b => b.1 == x.1 && b.2 / n == x.2 then (List.range n).map (n * i + ·) else []

/-- The collective that an operation belongs to. -/
def collOf (s : State) (id : Nat) : Option (Collective × Nat) :=
  s.colls.findSome? fun c =>
    if c.failed then none
    else match c.members.find? fun m => m.op == id with
      | some m => some (c, m.rank)
      | none => none

/-- A memory fault of an operation, deferred (R402, R403). -/
def stopAt (s : State) (o : Op) (m : MFault) : State :=
  deferFault s o.id { opTrap o m.cause m.aux with walk := m.page.map fun p => ((opWho s o).die, p) }

/-- The number under which what a collective orders stands: of its first member here. -/
def Collective.num (c : Collective) : Nat := (c.members.headD ⟨0, 0⟩).op

/-- Some keys as runs: the first and the length of each. -/
def keyRuns (ks : List Nat) : List (Nat × Nat) :=
  (runsOf (2 ^ 64) (ks.map fun k => (k, ()))).filterMap fun run => run.head?.map fun x => (x.1, run.length)

/-- The bytes that a member names as SRC and DST are those whose accesses its COLL orders (R274). -/
def nameBufs (s : State) (c : Collective) (ks : List Nat) : State :=
  { s with hb := { s.hb with bufs := s.hb.bufs ++ [(c.num, keyRuns ks)] } }

/-- The keys of a member's DST, as far as they translate. -/
def dstKeys (s : State) (w : Who) (dst : DWord) (n : Nat) : List Nat :=
  match resolveAll s w .engWrite true (fun _ _ => 1) [(none, dst, n)] with
  | .error _ => []
  | .ok (hs, _) => (hs.flatMap (·.2)).map (·.key)

/-- The bytes of DST of a member (R273). -/
def Collective.outSize (c : Collective) (r : Nat) : Nat := (c.result r).length * (if c.key.getD 2 0 = 4 then 2 else 4)

/-- Read a member's SRC into its collective and send it to the other modules (R274), or stop it at a deferred fault. Poisoned bytes
move on (R412). -/
def collRead (s : State) (c : Collective) (r : Nat) (o : Op) (src dst : DWord) : Host.Outcome State Fault Refusal :=
  match resolveAll s (opWho s o) .engRead false (fun _ _ => 1) [(none, src, c.need r)] with
  | .error m => .next (stopAt s o m)
  | .ok (xs, s1) =>
    let hs := xs.flatMap (·.2)
    withFar "COLL_COMPLETE" s1 o (opNs s o) hs fun s2 =>
      let (bs, s3) := readHits s2 (opWho s2 o) false hs
      let bad := (hs.zipIdx.filter fun x => s2.poisoned x.1.key).map (·.2)
      let c1 := { c with data := Tab.put c.data r bs, bad := c.bad ++ bad.map fun i => (r, i) }
      let s4 := nameBufs s3 c (hs.map (·.key) ++ dstKeys s3 (opWho s2 o) dst (c.outSize r))
      .next (sendPieces (setColl s4 c1) (opNs s o) o.id c1 r bs bad)

/-- What the other members of a collective here have done to the bytes that are named as SRC and DST happens before each of them
completes (R62, R274; log 82). -/
def collHears (s : State) (c : Collective) (id : Nat) : State :=
  c.members.foldl (fun (s : State) m => if m.op = id then s else s.learn (opMe id) ((s.relClk (opMe m.op)).only c.num)) s

/-- A member's result is written (R273, R274). -/
def collWrite (s : State) (c : Collective) (r : Nat) (o : Op) (dst : DWord) : State :=
  let n := if c.key.getD 2 0 = 4 then 2 else 4
  let bs := (c.result r).flatMap (bytesOfNat n)
  match resolveAll s (opWho s o) .engWrite false (fun _ _ => 1) [(none, dst, bs.length)] with
  | .error m => stopAt s o m
  | .ok (hs, s1) =>
    let s2 := writeLanes (collHears s1 c o.id) (opWho s o) false hs fun _ => bs
    let ks := (hs.flatMap (·.2)).map (·.key)
    let bad := ((c.badOut r).map fun i => unitOf (ks.getD i 0)).eraseDups
    let s3 := { s2 with poison := s2.poison ++ bad.filter fun u => !decide (u ∈ s2.poison) }
    let c1 := { c with done := c.done ++ [r] }
    let s4 := sendColl s3 (opNs s o) o.id c.table (collFlit c.comm r c.seq c.key true 0 0 [1])
    endEngine (collOver s4 c1) o

/-- The completion of a COLL (R274): its first occurrence for a member reads its SRC and sends it to the other modules; once every
rank's data is here DST is written, and once every peer has the data the arrival is made. -/
def execCollComplete (id : Nat) (s : State) : Host.Outcome State Fault Refusal :=
  match s.op? id, collOf s id with
  | some o, some (c, r) => match o.k, o.fault with
    | .coll _ _ _ src dst _ _ _ _, none =>
      if (Tab.find? c.data r).isNone then collRead s c r o src dst
      else if !c.full s.moduleNo || unackedOp s id then notNow "COLL_COMPLETE"
      else .next (collWrite s c r o dst)
    | _, _ => notNow "COLL_COMPLETE"
  | _, _ => notNow "COLL_COMPLETE"

end Sys2Proof.Machine
end

