-- ==== Sys2Proof/Machine/Sweeps.lean ====
section
/-! DEFINITION. Staged loops (R309 to R317) and device launch (R322 to R324). -/

namespace Sys2Proof.Machine

open Sys2Proof

/-! ### Staged loops -/

/-- The staged-loop-misuse trap (R381). -/
def Cx.stagedTrap (cx : Cx) : Trap := cx.trap 0x000B 0

/-- Whether an open loop admits a member with an identifier. -/
def SLoop.admits (o : SLoop) (id : Nat) : Bool := o.id == id && o.joined < o.mem
/-- Whether a member's trip count, window and member count agree with a loop's. -/
def SLoop.agrees (o : SLoop) (n : Word) (t m : Nat) : Bool := o.n == n && o.t == t && o.mem == m
/-- A loop with one more member. -/
def SLoop.join (o : SLoop) : SLoop := { o with joined := o.joined + 1 }

/-- The loop that a member enters (R311): the workgroup's open and pending loops after it, and its LP; `none`: misuse. -/
def enterLoop (op pd : Option SLoop) (id : Nat) (n : Word) (t m : Nat) : Option (Option SLoop × Option SLoop × Nat) :=
  let fresh : SLoop := { id := id, n := n, t := t, mem := m, joined := 1 }
  let pending : Option (Option SLoop × Option SLoop × Nat) := match pd with
    | none => some (op, some fresh, 2)
    | some p => if p.admits id && p.agrees n t m then some (op, some p.join, 2) else none
  match op with
  | none => some (some fresh, pd, 1)
  | some o => if o.admits id then (if o.agrees n t m then some (some o.join, pd, 1) else none) else pending

/-- SLBEGIN (R311). -/
def execSlbegin (f : Fld) (s : State) : Host.Outcome State Fault Refusal := issue (.slbegin f) s fun cx s =>
  let d := cx.f.d.toNat
  let m := if d / 8 = 0 then cx.w.ngrp else d / 8
  let t := cx.b32 0
  if cx.g.lp ≠ 0 ∨ cx.w.ngrp < m ∨ t = 0 ∨ 32 < t then .trap cx.stagedTrap
  else match enterLoop cx.w.loop cx.w.pendLoop (d % 8) (cx.g.rs cx.f.a.toNat) t m with
    | none => .trap cx.stagedTrap
    | some (op, pd, lp) =>
      .done ((s.modWg cx.wid fun w => { w with loop := op, pendLoop := pd }).modGroup cx.gk fun g => { g with lp := lp })

/-- SLEND (R315). -/
def execSlend (f : Fld) (s : State) : Host.Outcome State Fault Refusal := issue (.slend f) s fun cx s =>
  .done (leaveLoop s cx.ag cx.gk)

/-- A claim of iteration k goes on: its body may run once it has its entry and the window admits it (R312). -/
def slTake (s : State) (cx : Cx) (k : Nat) : Eff :=
  match s.wg? cx.wid with
  | none => .wait s
  | some w =>
    if (w.ent k).v && (w.ent k).it.toNat == k && w.windowOpen k then
      let s2 := s.modGroup cx.gk fun g => { g with hold := true, iter := some (BitVec.ofNat 32 k), stage := 0, claim := none }
      .done (startOp s2 cx .reg [.s cx.f.d.toNat (BitVec.ofNat 32 k)])
    else .wait s

/-- SLNEXT (R312): the held iteration is finished; once the loop is open the next index is claimed; the claim waits. -/
def slnextEff (cx : Cx) (s : State) : Eff :=
  if cx.g.lp = 0 then .trap cx.stagedTrap
  else
    let s1 := finishIter s cx.ag cx.gk
    match cx.w.loop, cx.g.lp with
    | some o, 1 => match cx.g.claim with
      | some k => slTake s1 cx k.toNat
      | none =>
        if o.n ≤ o.next then .done (startOp s1 cx .reg [.s cx.f.d.toNat 0xFFFFFFFF])
        else slTake (claimNext s1 cx.wid cx.gk cx.f) cx o.next.toNat
    | _, _ => .wait s1

/-- SLNEXT. -/
def execSlnext (f : Fld) (s : State) : Host.Outcome State Fault Refusal := issue (.slnext f) s slnextEff

/-- Whether an instruction is an SLNEXT. -/
def isSlnext : Instr → Bool
  | .slnext _ => true
  | _ => false

/-- A waiting SLNEXT goes on: it makes its claim when its loop has opened, and returns when its iteration may run. -/
def execSlnextWaitEnd (ag : Agent) (s : State) : Host.Outcome State Fault Refusal :=
  resume "SLNEXT_WAIT_END" ag s isSlnext slnextEff

/-- The entry of the iteration that a group holds. -/
def Cx.ent (cx : Cx) : SEnt := cx.w.ent (cx.g.iter.getD 0).toNat

/-- Move the held iteration's stage counter: a release at .wg (R313). -/
def setStage (s : State) (cx : Cx) (x : Nat) : State :=
  let i := (cx.g.iter.getD 0).toNat % 32
  let v := BitVec.ofNat 16 (min x 0xFFFE)
  ((releaseTo s cx.ag [stageChan s cx.wid cx.g.iter]).modWg cx.wid fun w =>
    { w with ents := Tab.put w.ents i { (Tab.get {} w.ents i) with stg := v } }).modGroup cx.gk fun g => { g with stage := v }

/-- STADV (R313). -/
def execStadv (f : Fld) (s : State) : Host.Outcome State Fault Refusal := issue (.stadv f) s fun cx s =>
  if !cx.g.hold then .trap cx.stagedTrap
  else .done (setStage s cx (cx.ent.stg.toNat + cx.b32 0))

/-- STJMP (R313). -/
def execStjmp (f : Fld) (s : State) : Host.Outcome State Fault Refusal := issue (.stjmp f) s fun cx s =>
  if !cx.g.hold ∨ cx.b32 0 < cx.ent.stg.toNat then .trap cx.stagedTrap
  else .done (setStage s cx (cx.b32 0))

/-- The effect of a WAITL: its return acquires what the stage writes and the finish of iteration i − 1 released (R314). -/
def waitlEff (cx : Cx) (s : State) : Eff :=
  if !cx.g.hold then .trap cx.stagedTrap
  else if waitMet s cx then
    .done (if cx.g.iter.getD 0 = 0 then s else s.hear cx.me (stageChan s cx.wid (cx.g.iter.map (· - 1))))
  else .wait s

/-- WAITL (R314): a waiting instruction. -/
def execWaitl (f : Fld) (s : State) : Host.Outcome State Fault Refusal := issue (.waitl f) s waitlEff

/-- Whether an instruction is a WAITL. -/
def isWaitl : Instr → Bool
  | .waitl _ => true
  | _ => false

/-- The return of a WAITL. -/
def execWaitlReturn (ag : Agent) (s : State) : Host.Outcome State Fault Refusal :=
  resume "WAITL_RETURN" ag s isWaitl waitlEff

/-! ### Device launch -/

/-- The work-graph trap (R381). -/
def Cx.graphTrap (cx : Cx) : Trap := cx.trap 0x000C (BitVec.ofNat 64 (cx.b32 0 % 256))

/-- The record that a lane launches, with its key (R323). -/
def launchRec (cx : Cx) (past : Clk) (node rw l : Nat) : TaskRec :=
  { words := (List.range rw).map fun k => cx.g.rv (cx.f.a.toNat + k) l
    key := if cx.l.det then [node, cx.w.ix, cx.g.grp, Tab.get 0 cx.g.launches (cx.b32 0), l] else []
    clk := past }

/-- Put records at the tail of a queue; in a deterministic launch each has the place of its key (R322, R323). -/
def enqueue (det : Bool) (q recs : List TaskRec) : List TaskRec :=
  if det then recs.foldl (fun q r => insertKey r q) q else q ++ recs

/-- Launch the records of some lanes: a release at .dev (R322). -/
def launchLanes (s : State) (cx : Cx) (gid node : Nat) (x : Node) (ls : List Nat) : State :=
  let recs := ls.map (launchRec cx (s.relClk cx.me) node x.rw)
  let b := cx.b32 0
  let add (z : Node) : Node := { z with queue := enqueue cx.l.det z.queue recs, used := z.used + recs.length }
  let s1 := { releaseBy s cx with graphs := Tab.modify s.graphs gid fun y => { y with nodes := y.nodes.modify b add } }
  s1.modGroup cx.gk fun g => { g with launches := Tab.put g.launches b (Tab.get 0 g.launches b + 1) }

/-- LAUNCH (R322): it waits on a full pool, and traps on one in a deterministic launch (R323). -/
def launchEff (cx : Cx) (s : State) : Eff :=
  match launchTarget s cx with
  | none => .trap cx.graphTrap
  | some (gid, n, x) =>
    let ls := lanesIn cx.actNH
    if ls.isEmpty then .done s
    else if ls.length ≤ x.cap - x.used then .done (launchLanes s cx gid n x ls)
    else if cx.l.det then .trap cx.graphTrap
    else .wait s

/-- LAUNCH (R322, R421). -/
def execLaunch (f : Fld) (s : State) : Host.Outcome State Fault Refusal := issue (.launch f) s launchEff

/-- Whether an instruction is a LAUNCH that waits. -/
def isLaunch : Instr → Bool
  | .launch _ => true
  | _ => false

/-- A LAUNCH that waited on a pool goes on: its slots have freed, or its target's queue has closed. -/
def execLaunchPoolWaitEnd (ag : Agent) (s : State) : Host.Outcome State Fault Refusal :=
  resume "LAUNCH_POOL_WAIT_END" ag s isLaunch launchEff

/-- LAUNCH.TRY (R322): it enqueues as far as the pool has slots. -/
def execLaunchTry (f : Fld) (s : State) : Host.Outcome State Fault Refusal := issue (.launchTry f) s fun cx s =>
  match launchTarget s cx with
  | none => .trap cx.graphTrap
  | some (gid, n, x) =>
    let ls := (lanesIn cx.actNH).take (x.cap - x.used)
    let s1 := if ls.isEmpty then s else launchLanes s cx gid n x ls
    .done (addFix s1 cx [.p (cx.f.d.toNat % 8) cx.act (maskOf fun l => decide (l ∈ ls))])

/-- The value that TSTAT reads (R324). -/
def tstatValue (x : Node) (item : Nat) : Nat :=
  let b (p : Bool) (i : Nat) : Nat := if p then 2 ^ i else 0
  match item with
  | 0 => x.cap - x.used
  | 1 => x.queue.length
  | _ => b x.closed 0 + b x.complete 1 + b x.poisoned 2

/-- TSTAT (R324). -/
def execTstat (f : Fld) (s : State) : Host.Outcome State Fault Refusal := issue (.tstat f) s fun cx s =>
  match nodeOf s cx.l with
  | none => .trap cx.graphTrap
  | some (_, g, _, _) => match g.nodes[cx.b32 0]? with
    | none => .trap cx.graphTrap
    | some x =>
      if !x.task then .trap cx.graphTrap
      else .done (addFix s cx [.s cx.f.d.toNat (BitVec.ofNat 32 (tstatValue x cx.m))])

end Sys2Proof.Machine
end

