-- ==== Sys2Proof/Machine/Engine.lean ====
section
/-! DEFINITION. The events of an agent and of its operations: the start of a clause (R125, R382), the end of a hold
(R25, R219), the completion of variable-latency operations (R137, R218), page walks (R401), deferred faults (R402). -/

namespace Sys2Proof.Machine

open Sys2Proof

/-! ### Clauses -/

/-- Where an agent's next header stands, and the first cycle in which it may start that clause. -/
def headerOf (s : State) : Agent → Option (DWord × Nat)
  | .none => none
  | .group c sl k => (s.group? (gKey c sl)).map fun g => ((g.splits.getD k {}).pc, (g.splits.getD k {}).notBefore)
  | .spool w => match s.wg? w with
    | none => none
    | some x => x.spool.map fun p => (p.pc, p.notBefore)

/-- Whether an agent may reach or start a clause: as for an issue, its pipe apart (R125, R331, R335, R390). -/
def mayStart (s : State) (ag : Agent) : Bool :=
  match ag with
  | .none => false
  | .group core slot k => match s.group? (gKey core slot) with
    | none => false
    | some g =>
      let sp := g.splits.getD k {}
      let c := s.core core
      sp.v && sp.st == 0 && !g.exited && !g.trapped && !(g.splits.any Split.within) && decide (slot ∈ c.active) &&
      !(c.swap.any fun x => x.1 == slot || x.2.1 == some slot) && !heldBack s g.wg core && hasTurn s ag
  | .spool w => match s.wg? w with
    | none => false
    | some x => match x.spool with
      | none => false
      | some p => p.run && !p.trapped && !p.cl.any (·.started) && !heldBack s w x.core && hasTurn s ag

/-- Give an agent the clause it stands in; its PC then holds an address on path 0x00 (R31). -/
def setClause (s : State) (ag : Agent) (c : Clause) : State :=
  match ag with
  | .none => s
  | .group core sl k => s.modGroup (gKey core sl) fun g => g.modSplit k fun x => { x with pc := addr56 (pc56 x.pc), cl := some c }
  | .spool w => s.modWg w fun x => { x with spool := x.spool.map fun p => { p with pc := addr56 (pc56 p.pc), cl := some c } }

/-- An agent reaches a header: the clause is fetched and checked, once (R382). -/
def reachHeader (s : State) (ag : Agent) (pc : DWord) : Host.Outcome State Fault Refusal :=
  match agentWg s ag with
  | none => notNow "CLAUSE_START"
  | some wid => match s.wg? wid with
    | none => notNow "CLAUSE_START"
    | some w => match s.launch? w.lnch with
      | none => notNow "CLAUSE_START"
      | some l =>
        match fetchClause s (whoFetch s ag w l) (kinfo l (isSpool ag)) pc with
        | .ok (c, s1) => .next (setClause (forgetFar s1 ag) ag c)
        | .error t =>
          if (farOp? s ag).any fun o => !o.tags.isEmpty || o.fault.isSome then notNow "CLAUSE_START"
          else if t.late then .next (deferFar s ag wid w.lnch l.ctx.ns t)
          else if t.far.isEmpty then .next (raise (forgetFar s ag) ag t)
          else .next (askFar s ag wid w.lnch l.ctx.ns t)

/-- CLAUSE_START (R125, R382): at a new header the clause check; then, once its conditions are met, the start. -/
def execClauseStart (ag : Agent) (s : State) : Host.Outcome State Fault Refusal :=
  if !mayStart s ag then notNow "CLAUSE_START"
  else match headerOf s ag, clauseOf s ag with
    | some (pc, _), none => reachHeader s ag pc
    | some (_, nb), some (c, _) =>
      if c.started || s.clock < nb || !headerReady s ag c then notNow "CLAUSE_START"
      else .next (setClause (startHears s ag c.hdr) ag { c with started := true, base := s.clock })
    | none, _ => notNow "CLAUSE_START"

/-- Whether the workgroup of an agent is stopped by a freeze or a halt (R390, R339). -/
def agentHeldBack (s : State) (ag : Agent) : Bool := match agentWg s ag with
  | none => true
  | some w => match s.wg? w with
    | none => true
    | some x => heldBack s w x.core

/-- Whether the next instruction of an agent would be held in place. -/
def nextHeld (s : State) (ag : Agent) (c : Clause) : Bool :=
  match headInstr c with
  | none => false
  | some i => match mkCx s ag i with
    | none => false
    | some (cx, s1) => held s1 cx && !trapsFirst s1 cx

/-- The end of a hold in place (R25, R137, R219): the instruction may issue; in a stopped workgroup the split stays before
it (R390, R339). -/
def execIssueHoldRelease (ag : Agent) (s : State) : Host.Outcome State Fault Refusal :=
  match clauseOf s ag with
  | some (c, 2) => if nextHeld s ag c || agentHeldBack s ag then notNow "ISSUE_HOLD_RELEASE" else .next (setBlock s ag 0)
  | _ => notNow "ISSUE_HOLD_RELEASE"

/-! ### Completions -/

/-- The writes of a byte made since a load of it was issued that its value may still come from: they do not happen after it (R63,
R67), no acquire would join more by them (R61), and no workgroup of its deterministic launch has made them (R337). -/
def lateWrites (s : State) (o : Op) (w : Who) (h : Hit) : List Wrec :=
  if o.settled || keyCode h.key == 3 then []
  else (s.writesOf h.key).filter fun r =>
    o.histAt ≤ r.seq && !decide (o.id ∈ r.after) && !(o.acq && r.rels.any (·.reaches w)) &&
    !(w.det && r.lnch == w.lnch && r.place.wg == w.place.wg)

/-- Whether a place in the order of writes gives a load no byte that happens after it. -/
def latePlace (s : State) (o : Op) (hs : List Hit) (n : Nat) : Bool :=
  hs.all fun h => (s.writeAt h.key n).all fun r => r.seq < o.histAt || !decide (o.id ∈ r.after)

/-- The bytes that a lane of a load lands: those read at its issue, or of writes made since (R63): a marked load takes its whole
location from one place, unless it races; a fence after it goes by that. -/
def lateLane (s : State) (o : Op) (w : Who) (marked : Bool) (hs : List (Hit × Byte)) : List Byte × State :=
  let late := hs.flatMap fun h => lateWrites s o w h.1
  if late.isEmpty then (hs.map (·.2), s)
  else if marked && late.all (·.marked) then
    let (n, s1) := pickInstant s (0 :: ((late.map fun r => r.seq + 1).eraseDups.filter (latePlace s o (hs.map (·.1)))))
    if n = 0 then (hs.map (·.2), s1)
    else
      let a := s1.agHb o.me
      let rels := relsOf s (hs.map fun h => (h.1, n))
      (hs.map fun h => s.byteAt h.1.key n, if a.readOp = o.id then s1.setHb o.me { a with readRel := rels } else s1)
  else hs.foldl (fun (acc : List Byte × State) h =>
    let (n, s1) := pickInstant acc.2 (0 :: (lateWrites s o w h.1).map fun r => r.seq + 1)
    (acc.1 ++ [if n = 0 then h.2 else s.byteAt h.1.key n], s1)) ([], s)

/-- The bytes that the lanes of a load land, those of peer modules as they have come, from which a marked one acquires only now. -/
def lateLanes (s : State) (o : Op) (w : Who) (marked : Bool) (plan : List (Nat × List (Hit × Byte))) : List (Nat × Nat) × State :=
  plan.foldl (fun (acc : List (Nat × Nat) × State) p =>
    let hs := p.2.map (·.1)
    let (bs, s1) := lateLane acc.2 o w marked p.2
    let data := withGot w hs bs
    (acc.1 ++ [(p.1, natOfBytes data)], if marked && isFar hs then s1.readFrom w (farRels s1 hs data) else s1)) ([], s)

/-- The first byte of a saved access to which its rights have gone since it was translated (R409). -/
def deniedNow (s : State) (o : Op) (w : Who) (hs : List Hit) : Option Trap :=
  hs.findSome? fun h => (h.denied s w).map fun c => opTrap o c h.va

/-- A load completes: its values were read at its issue, and may come from later writes; those of peer modules have arrived. One that
a poisoned byte stopped is checked and reads again (R409, R412, R373). -/
def loadComplete (s : State) (o : Op) (ty d n : Nat) (marked read : Bool) (plan : List (Nat × List (Hit × Byte))) :
    Host.Outcome State Fault Refusal :=
  let hits := plan.flatMap fun p => p.2.map (·.1)
  withFar "VARIABLE_LATENCY_COMPLETE" s o (opNs s o) hits fun s =>
    if read then
      let (vals, s1) := lateLanes s o (grpWho s o) marked plan
      .next (completeOp s1 { o with wrs := loadWrs ty d n vals })
    else match deniedNow s o (grpWho s o) hits, anyPoison s hits with
    | some t, _ => .next (deferFault s o.id t)
    | none, some key => .next (stopPoison s o.id key)
    | none, none =>
      let (vals, s1) := readLanes s (grpWho s o) marked (plan.map fun p => ((some p.1, 0, n), p.2.map (·.1)))
      .next (completeOp s1 { o with wrs := loadWrs ty d n vals })

/-- The old values of an ATOM, those of peer modules as they have answered, and the flags with those of the latter (R65). -/
def atomOlds (o : Op) (mn ty : Nat) (plan : List AtomLane) : List (Nat × Nat) × BitVec 5 :=
  let old (p : AtomLane) : Nat :=
    if isFar p.2.1 then natOfBytes ((List.range (tyBits ty / 8)).map fun i => Tab.get 0 o.got (atomSlot p.2.2.2.2 i)) else p.2.2.2.2
  (plan.map fun p => (p.1, old p), plan.foldl (fun f p =>
    if isFar p.2.1 then f ||| (atomOp mn ty (old p) p.2.2.1.toNat p.2.2.2.1.toNat).2 else f) o.flags)

/-- The atomics that peers have performed are remembered as the writes of this module that they are, with what they release and
carry on; an acquiring one acquires (R61, R65). -/
def atomFarHb (s : State) (o : Op) (w : Who) (mn ty : Nat) (plan : List AtomLane) (olds : List (Nat × Nat)) : State :=
  (plan.filter fun p => isFar p.2.1).foldl (fun (s : State) p =>
    let n := tyBits ty / 8
    let old := Tab.get 0 olds p.1
    let rels := farRels s p.2.1 (bytesOfNat n old)
    let s1 := s.readFrom w rels
    let new := bytesOfNat n (atomOp mn ty old p.2.2.1.toNat p.2.2.2.1.toNat).1
    let s2 := (p.2.1.zip new).foldl (fun (t : State) x =>
      t.putByte { wrecOf s1 w true x.1 with epoch := o.epoch, rels := o.rels ++ rels } x.2) s1
    { s2 with histLen := s2.histLen + 1 }) s

/-- An ATOM completes once its peers have answered, one that a fault kept from an answer after it is asked again (R404); one that a
poisoned byte stopped is checked and performed now (R409, R412, R373). -/
def atomComplete (s : State) (o : Op) (mn ty d : Nat) (ret sent : Bool) (plan : List AtomLane) : Host.Outcome State Fault Refusal :=
  if sent then
    if !o.tags.isEmpty then notNow "VARIABLE_LATENCY_COMPLETE"
    else if plan.any (unanswered o) then .next (askAtoms s o (opNs s o) mn ty d ret (unanswered o) plan)
    else
      let (olds, fl) := atomOlds o mn ty plan
      .next (completeOp (atomFarHb s o (grpWho s o) mn ty plan olds) { o with wrs := if ret then loadWrs ty d (tyBits ty / 8) olds else [], flags := fl })
  else match deniedNow s o (grpWho s o) (plan.flatMap (·.2.1)), anyPoison s (plan.flatMap (·.2.1)) with
  | some t, _ => .next (deferFault s o.id t)
  | none, some key => .next (stopPoison s o.id key)
  | none, none => .next (opFollows (atomGo s o (grpWho s o) mn ty d ret plan) o)

/-- A FILL that waited for its slot completes. -/
def fillComplete (s : State) (o : Op) (d : Nat) (act : Mask) (slot : DWord) : Host.Outcome State Fault Refusal :=
  match fillRead s (grpWho s o) act slot with
  | .ok hdr data s1 => .next (completeOp s1 { o with wrs := fillWrs d act hdr data })
  | .bad m => .next (stopAt s o m)
  | .poison key s1 => .next (stopPoison s1 o.id key)
  | .far hs s1 => withFar "VARIABLE_LATENCY_COMPLETE" s1 o (opNs s o) hs .next

/-- The result of an ATOM.ord, once the contributions before it are known (R229): it lands and its token falls; f6 falls
after the passage. -/
def ordLand (s : State) (o : Op) (site d : Nat) (ret : Bool) : Host.Outcome State Fault Refusal :=
  match s.launch? o.lnch with
  | none => notNow "VARIABLE_LATENCY_COMPLETE"
  | some l => match l.sites[site]? with
    | none => notNow "VARIABLE_LATENCY_COMPLETE"
    | some st => match st.waiting.find? fun c => c.op == o.id with
      | none => notNow "VARIABLE_LATENCY_COMPLETE"
      | some c =>
        if !contribKnown s o.lnch l site st c then notNow "VARIABLE_LATENCY_COMPLETE"
        else
          let before := st.waiting.takeWhile fun x => x.op != o.id
          let (res, _, fl) := applyLanes st.ty c.opn c.lanes (applyAll st.ty before st.acc.toNat)
          let ws := if ret then loadWrs st.ty d (tyBits st.ty / 8) res else []
          let s0 := siteHear s st before c
          let s1 := match agentKey o.ag with
            | none => s0
            | some key => s0.modGroup key fun g => { g.landWrs ws with fpstat := g.fpstat ||| fl }
          .next ((lowerTok s1 o).modOp o.id fun x => { x with k := .atomOrd site d ret true, wrs := [] })

/-- What the device has written for a launch or a command stands, as far as a peer module goes (R366); for a launch that has nothing
else left its end follows. -/
def devDone (s0 : State) (o : Op) (d : DevK) : State :=
  let s := { s0 with ops := s0.ops.filter fun x => x.id != o.id }
  match d with
  | .passage _ ix | .board ix => reap (settleLaunch s o.lnch ix) o.lnch
  | .mask c => s.cmdReady c
  | .completion _ _ | .read _ => s

/-- The completion of an outstanding variable-latency or counted operation (R137, R218, R219); an engine with a
completion event of its own is none of them. -/
def execVariableLatencyComplete (id : Nat) (s : State) : Host.Outcome State Fault Refusal :=
  let no : Host.Outcome State Fault Refusal := notNow "VARIABLE_LATENCY_COMPLETE"
  match s.op? id with
  | none => no
  | some o =>
    if o.done || o.fault.isSome || opSaved s o then no
    else match o.k with
      | .reg | .store => if unackedOp s id || o.waits.any (fun p => (s.op? p).isSome) then no else .next (completeOp s o)
      | .device d => if unackedOp s id then no else .next (devDone s o d)
      | .load ty d n marked read plan => loadComplete s o ty d n marked read plan
      | .atom mn ty d ret sent plan => atomComplete s o mn ty d ret sent plan
      | .fill d act slot => fillComplete s o d act slot
      | .tiop t => tiopComplete s o t
      | .trav opc d c lanes => travComplete s o opc d c lanes
      | .atomOrd site d ret false => ordLand s o site d ret
      | .badRow key => .next (stopPoison s id key)
      | .far | .atomOrd .. | .sys .. | .lcopy .. | .mloop .. | .mpub | .tcopy .. | .coll .. | .rtrace .. | .drawv .. => no

/-- The completion of a page walk (R57, R401): the die's TLB holds the page. -/
def execPageWalkComplete (die lnch : Nat) (va : DWord) (s : State) : Host.Outcome State Fault Refusal :=
  match s.launch? lnch with
  | none => notNow "PAGE_WALK_COMPLETE"
  | some l =>
    let page := bits va.toNat 16 40
    if 3 ≤ die || 1 < pathOf va || (tlbFind s die l.ctx.asid page).isSome then notNow "PAGE_WALK_COMPLETE"
    else match leafOf s die l.ctx (bits va.toNat 0 56) with
      | .error _ => notNow "PAGE_WALK_COMPLETE"
      | .ok (e, loc) => .next (touch s { ctx := l.ctx, core := some (48 * die) } false (page, e, loc))

end Sys2Proof.Machine
end

