-- ==== Sys2Proof/Machine/Tasks.lean ====
section
/-! DEFINITION. The task unit: what a workgroup needs of a core (R44, R245, R376), its start (R31, R142 to R144, R260),
dispatch (R303 to R307, R320, R327 to R329, R334), retirement (R45) and the scoreboard copies (R306). -/

namespace Sys2Proof.Machine

open Sys2Proof

/-! ### Room on a core (R44) -/

/-- The groups of a workgroup of a launch (R28). -/
def Launch.ngrp (l : Launch) : Nat := (l.l + 63) / 64

/-- The workgroups resident on a core, with their launches. -/
def residents (s : State) (core : Nat) : List (Nat × Wg × Launch) :=
  s.wgs.filterMap fun w =>
    if w.2.core = core ∧ !w.2.saved then (s.launch? w.2.lnch).map fun l => (w.1, w.2, l) else none

/-- The group slots of a core that are free for a launch; those of its saved workgroups stay theirs, whose per-lane and spill
regions go with the slot (R369). -/
def freeSlots (s : State) (lid core : Nat) : List Nat :=
  (List.range 48).filter fun sl => (s.group? (gKey core sl)).isNone &&
    !(s.wgs.any fun w => w.2.saved && w.2.lnch == lid && w.2.core == core && decide (sl ∈ w.2.slots))

/-- The lowest place for a vault window of some bytes (R44). -/
def windowFor (ws : List Wg) (size : Nat) : Option Nat :=
  ((List.range 129).map (65536 * ·)).find? fun b =>
    b + size ≤ 2 ^ 23 && ws.all fun w => w.vwsize == 0 || size == 0 || b + size ≤ w.vwbase || w.vwbase + w.vwsize ≤ b

/-- Whether a core has room for one more workgroup of a launch, its slots and its window apart (R44, R245, R376). -/
def coreHolds (s : State) (l : Launch) (core : Nat) : Bool :=
  let rs := residents s core
  let vregs := (rs.map fun r => r.2.2.ngrp * r.2.2.k.regs).sum
  let have_ (f : Launch → Bool) : Nat := (rs.filter fun r => f r.2.2).length
  vregs + l.ngrp * l.k.regs ≤ 6144 && rs.length < 24 && (!l.k.staged || have_ (·.k.staged) < 8) &&
  (l.k.spool == 0 || have_ (fun x => x.k.spool != 0) < 8) && (!l.k.matrix || have_ (·.k.matrix) == 0) &&
  (rs.isEmpty || (s.core core).ns == l.ctx.ns)

/-- What a core gives a workgroup of a launch: its group slots and its window, when everything fits (R44). Which free ones is not
architectural: the model takes the lowest (log 86, DESIGN CHOICE). -/
def roomFor (s : State) (lid : Nat) (l : Launch) (core : Nat) : Option (List Nat × Nat) :=
  let slots := (freeSlots s lid core).take l.ngrp
  if slots.length < l.ngrp || !coreHolds s l core then none
  else (windowFor ((residents s core).map fun r => r.2.1) l.k.vault).map fun b => (slots, b)

/-- Whether a workgroup of a launch fits an empty core (R44, R415). -/
def fitsEmpty (l : Launch) : Bool := l.ngrp ≤ 16 && l.ngrp * l.k.regs ≤ 6144 && l.k.vault ≤ 2 ^ 23

/-- Whether a core belongs to a launch's partition (R338). -/
def inPartition (s : State) (l : Launch) (core : Nat) : Bool :=
  let sl := s.slice l.ctx.slice
  sl.core0 ≤ core && core < sl.core0 + sl.cores && (core < sl.core0 + sl.bound) == l.gfx

/-- Whether a core takes workgroups of a launch: it is in the partition, neither marked nor halted (R338, R339). -/
def takes (s : State) (l : Launch) (core : Nat) : Bool :=
  inPartition s l core && (s.slice l.ctx.slice).marked != some core && !(s.core core).halted

/-! ### Which workgroup comes next -/

/-- The position of a workgroup of a grid (R29). -/
def Launch.posOf (l : Launch) (ix : Nat) : Nat × Nat × Nat := (ix % l.gx, ix / l.gx % l.gy, ix / (l.gx * l.gy))

/-- The predecessors of a workgroup that lie inside the grid (R304). -/
def Launch.preds (l : Launch) (ix : Nat) : List Nat :=
  let p := l.posOf ix
  l.k.deps.filterMap fun d =>
    let x : Int := p.1 + d.1
    let y : Int := p.2.1 + d.2.1
    let z : Int := p.2.2 + d.2.2
    if 0 ≤ x ∧ x < l.gx ∧ 0 ≤ y ∧ y < l.gy ∧ 0 ≤ z ∧ z < l.gz then
      some (x.toNat + l.gx * (y.toNat + l.gy * z.toNat)) else none

/-- The retirement bits of a die's copy (R306). -/
def Launch.copyOf (l : Launch) (die : Nat) : List Nat := if die = 0 then l.die0 else if die = 1 then l.die1 else l.die2

/-- Whether a workgroup is ready on a die's copy (R304, R306). -/
def Launch.ready (l : Launch) (die ix : Nat) : Bool := (l.preds ix).all fun p => decide (p ∈ l.copyOf die)

/-- The parts that a cut of [0, n) gives the cores that can take a workgroup (R328). -/
def cutRanges (n : Nat) (cores : List Nat) : Tab (Nat × Nat) :=
  cores.zipIdx.map fun ci => (ci.1, (n * ci.2 / cores.length, n * (ci.2 + 1) / cores.length))

/-- The length of a range. -/
def rangeLen (r : Nat × Nat) : Nat := r.2 - r.1

/-- The largest range of length 2 or more, the first on equal lengths. -/
def largest (rs : List (Nat × (Nat × Nat))) : Option (Nat × (Nat × Nat)) :=
  rs.foldl (fun best r => if rangeLen r.2 < 2 then best else match best with
    | none => some r
    | some b => if rangeLen b.2 < rangeLen r.2 then some r else best) none

/-- The range that a core whose own is empty splits: of its die, else of any other die (R329). -/
def rangeToSplit (rs : Tab (Nat × Nat)) (core : Nat) : Option (Nat × (Nat × Nat)) :=
  match largest (rs.filter fun r => dieOf r.1 == dieOf core) with
  | some r => some r
  | none => largest rs

/-- The next index of a plain grid for a core, and the ranges after it (R328, R329). -/
def takeIndex (rs : Tab (Nat × Nat)) (core : Nat) : Option (Nat × Tab (Nat × Nat)) :=
  let own := Tab.get (0, 0) rs core
  if own.1 < own.2 then some (own.1, Tab.put rs core (own.1 + 1, own.2))
  else match rangeToSplit rs core with
    | none => none
    | some (o, (a, e)) =>
      let mid := a + (e - a + 1) / 2
      some (mid, Tab.put (Tab.put rs o (a, mid)) core (mid + 1, e))

/-- Whether a launch runs as a task node: the node. -/
def taskNode (s : State) (l : Launch) : Option Node :=
  match nodeOf s l with
  | some (_, _, _, x) => if x.task then some x else none
  | none => none

/-- Whether workgroups of a sweep are held back by a pre-emption of its partition or slice (R308, R345). -/
def sweepHeld (s : State) (lid : Nat) : Bool :=
  s.saves.any fun sv => sv.2.kind != 0 && sv.2.recs.any fun r => (s.wgs.any fun w => w.1 == r.2 && w.2.lnch == lid && w.2.saved)

/-- The index that a core would take of a launch, and the launch after it: of a task node's crew the next number while its
queue holds records (R320); in WGINDEX order in a deterministic launch (R334); the lowest ready one of a sweep (R307); else from
the ranges, once they are cut (R328). -/
def nextIndex (s : State) (lid : Nat) (l : Launch) (core : Nat) : Option (Nat × Launch) :=
  let add (ix : Nat) (x : Launch) : Option (Nat × Launch) := some (ix, { x with disp := x.disp ++ [ix] })
  match taskNode s l with
  | some x =>
    let crew := (s.wgs.filter fun w => w.2.lnch == lid).length
    if !x.queue.isEmpty && crew < x.maxwg then add l.disp.length l else none
  | none =>
    if !l.k.deps.isEmpty then
      if sweepHeld s lid then none
      else if l.det then
        if l.disp.length < l.n && l.ready (dieOf core) l.disp.length then add l.disp.length l else none
      else match (List.range l.n).find? fun ix => !decide (ix ∈ l.disp) && l.ready (dieOf core) ix with
        | some ix => add ix l
        | none => none
    else if l.det then (if l.disp.length < l.n then add l.disp.length l else none)
    else match takeIndex l.ranges core with
    | some (ix, rs) => add ix { l with ranges := rs }
    | none => none

/-- Whether a launch is dispatched from ranges (R328). -/
def plainGrid (s : State) (l : Launch) : Bool := (taskNode s l).isNone && l.k.deps.isEmpty && !l.det

/-- Cut the grid of a launch among the cores that can take a workgroup of it now; with none it stays uncut (R328). -/
def cutGrid (s : State) (lid : Nat) : State :=
  match s.launch? lid with
  | none => s
  | some l =>
    let cores := (List.range 144).filter fun c => takes s l c && (roomFor s lid l c).isSome
    if l.cut || l.killed || !plainGrid s l || cores.isEmpty then s
    else s.modLaunch lid fun x => { x with cut := true, ranges := cutRanges x.n cores }

/-- The grids not yet cut are cut in the first cycle in which a core can take a workgroup (R328). -/
def cutGrids (s : State) : State := (s.launches.filter fun l => !l.2.cut).foldl (fun s l => cutGrid s l.1) s

/-! ### Who is offered a core (R327, R320) -/

/-- The depth of a task node: the longest path of task edges that reaches it (R318). -/
def depthOf (g : Graph) : Nat → Nat → Nat
  | 0, _ => 0
  | n + 1, x =>
    (g.edges.filter fun e => e.2.1 == x && e.2.2 == 2).foldl (fun d e =>
      max d (depthOf g n e.1 + 1)) 0

/-- The depth at which a launch stands in its graph; grid nodes and other launches stand at none. -/
def launchDepth (s : State) (l : Launch) : Nat := match nodeOf s l with
  | some (_, g, n, x) => if x.task then depthOf g g.nodes.length n + 1 else 0
  | none => 0

/-- Whether a launch has a workgroup that a core could take now, room apart: a grid not yet cut has. -/
def wants (s : State) (core : Nat) (x : Nat × Launch) : Bool :=
  !x.2.killed && takes s x.2 core && ((plainGrid s x.2 && !x.2.cut && 0 < x.2.n) || (nextIndex s x.1 x.2 core).isSome)

/-- The deepest task node of a launch's graph whose queue holds records, as a launch, whether or not it has started (R320). -/
def deepest (s : State) (l : Launch) : Option (Nat × Launch) :=
  match l.node with
  | none => none
  | some (gid, _) =>
    let running := s.launches.filter fun x => !x.2.killed && (x.2.node.any fun y => y.1 == gid)
    let waiting : List (Nat × Launch) := match Tab.find? s.graphs gid with
      | none => []
      | some g => (g.nodes.zipIdx.filter fun x => !x.1.started && !x.1.complete).map fun x =>
          (noLaunch, { q := g.q, lid := 0, ctx := g.ctx, k := x.1.k, l := x.1.l, node := some (gid, x.2) })
    ((running ++ waiting).filter fun x => (taskNode s x.2).any fun z => !z.queue.isEmpty).foldl (fun best x => match best with
        | none => some x
        | some b => if launchDepth s b.2 < launchDepth s x.2 then some x else some b) none

/-- Whether a shallower workgroup leaves the reserve of R320: after its dispatch some core still has room for one workgroup of
the deepest task node with records. -/
def leavesReserve (s s1 : State) (l : Launch) : Bool :=
  match deepest s l with
  | none => true
  | some (lid, d) => launchDepth s d ≤ launchDepth s l ||
    (List.range 144).any fun c => takes s1 d c && (roomFor s1 lid d c).isSome

/-- Whether candidate b is offered a core before a: by priority, then round-robin by queue, then deeper task nodes of one graph,
then the order in which they started (R327, R320). -/
def offeredBefore (s : State) (b a : Nat × Launch) : Bool :=
  let pb := (s.queue b.2.q).pri
  let pa := (s.queue a.2.q).pri
  let last := (s.queues.filter fun q => q.2.pri == pa).foldl (fun (m : Nat × Nat) q => if m.1 < q.2.lastTurn then (q.2.lastTurn, q.1) else m) (0, 63)
  let turn (q : Nat) : Nat := (q + 63 - last.2 % 64) % 64
  let sameGraph := b.2.node.isSome && (b.2.node.map (·.1)) == (a.2.node.map (·.1)) && 0 < launchDepth s b.2 && 0 < launchDepth s a.2
  pa < pb || (pa == pb && (turn b.2.q < turn a.2.q || (b.2.q == a.2.q &&
    (if sameGraph && launchDepth s b.2 != launchDepth s a.2 then launchDepth s a.2 < launchDepth s b.2 else b.2.order < a.2.order))))

/-! ### The start of a workgroup -/

/-- The launch mask of a group (R28). -/
def Launch.maskOf (l : Launch) (grp : Nat) : Mask := Sys2Proof.Machine.maskOf fun i => grp * 64 + i < l.l

/-- The per-lane region of a group's slot: A is P·W rounded up to 64 KiB (R369). -/
def Launch.pbaseOf (l : Launch) (core slot : Nat) : DWord :=
  l.priv + BitVec.ofNat 64 (gKey core slot * ((l.k.priv * W + 65535) / 65536 * 65536))

/-- The registers s0 to s3 at a start (R144). -/
def startRegs (l : Launch) : Tab Word :=
  [(0, l.param.extractLsb' 0 32), (1, l.param.extractLsb' 32 32), (2, l.k.data.extractLsb' 0 32), (3, l.k.data.extractLsb' 32 32)]

/-- A group at its start (R31, R142 to R144). -/
def newGroup (s : State) (l : Launch) (wid core slot grp : Nat) (helper : Mask) : Group :=
  { wg := wid, grp := grp, s := startRegs l, chksb := l.chksb, agemax := l.agemax
    splits := [{ v := true, pc := l.k.entry, mask := l.maskOf grp, notBefore := s.clock }, {}, {}, {}], joins := [{}, {}, {}]
    lmask := l.maskOf grp, helper := helper, pbase := l.pbaseOf core slot
    spillBase := l.spill + BitVec.ofNat 64 (gKey core slot * l.spsz), spillSize := l.spsz }

/-- Clear a core's vault: the world of its workgroups changes (R376, R48). No earlier contents can be read again. -/
def clearCore (s : State) (core : Nat) : State :=
  let keep (k : Nat) : Bool := keyCode k != 4 + core
  { s with mem := s.mem.filter fun e => keep e.1, poison := s.poison.filter keep, flaws := s.flaws.filter keep
           hist := s.hist.filter fun r => keep r.key, tags := s.tags.filter fun e => keep e.1 }

/-- The agents of a workgroup start after what its launch's start and the retirement of its predecessors released (R62). -/
def startWgHb (s : State) (lid : Nat) (l : Launch) (wid ix : Nat) : State :=
  let preds := if l.k.deps.isEmpty then [] else l.preds ix
  let clk := preds.foldl (fun (c : Clk) p => c.join (s.gathered (.ret lid p))) (s.gathered (.start lid))
  (spoolMe wid :: (List.range l.ngrp).map fun g => laneMe wid g 0).foldl (fun (s : State) me => s.setHb me { clk := clk }) s

/-- A workgroup becomes resident (R44, R45). -/
def place (s0 : State) (lid : Nat) (l : Launch) (core ix : Nat) (slots : List Nat) (base : Nat) (helpers : List Mask) : State :=
  let s := if (residents s0 core).isEmpty && (s0.core core).ns != l.ctx.ns then clearCore s0 core else s0
  let wid := s.nextId
  let p := if (taskNode s l).isSome then (0, 0, 0) else l.posOf ix
  let c := s.core core
  let w : Wg :=
    { lnch := lid, core := core, ix := ix, wx := p.1, wy := p.2.1, wz := p.2.2, ngrp := l.ngrp, slots := slots
      vwbase := base, vwsize := l.k.vault, resid := c.resid + 1
      spool := if l.k.spool = 0 then none else some { pc := l.k.spool, s := startRegs l, notBefore := s.clock } }
  let groups := slots.zipIdx.foldl (fun gs sg =>
    Tab.put gs (gKey core sg.1) (newGroup s l wid core sg.1 sg.2 (helpers.getD sg.2 0))) s.groups
  { startWgHb s lid l wid ix with
    nextId := wid + 1, groups := groups, wgs := Tab.put s.wgs wid w, launches := Tab.put s.launches lid l
    cores := Tab.put s.cores core { c with resid := c.resid + 1, ns := l.ctx.ns, mx := if l.k.matrix then {} else c.mx } }

/-! ### Shading launches (R301) -/

/-- The pixel that a lane of a group shades. -/
def shadePixel (x y grp l : Nat) : Nat × Nat := (16 * x + 2 * (l / 4 % 8) + l % 2, 16 * y + 4 * grp + 2 * (l / 32) + l / 2 % 2)

/-- Whether a pixel is covered: one of its samples is not empty. -/
def covered (s : State) (l : Launch) (px py : Nat) : Bool :=
  let ws := l.view
  px < viewWidth ws && py < viewHeight ws && (List.range (viewSamples ws)).any fun i =>
    let a : DWord := BitVec.ofNat 64 (viewField ws 0x58 8 + 8 * ((py * viewField ws 0x54 4 + px) * viewSamples ws + i))
    match readPlain s { ctx := l.ctx, histStart := l.histStart } .engRead a 8 8 with
    | .ok (bs, _) => natOfBytes bs != 2 ^ 64 - 1
    | .error _ => false

/-- The helper lanes of the groups of a shading workgroup (R301, R30). -/
def helpersOf (s : State) (l : Launch) (ix : Nat) : List Mask :=
  let p := l.posOf ix
  (List.range l.ngrp).map fun g => maskOf fun i => !(covered s l (shadePixel p.1 p.2.1 g i).1 (shadePixel p.1 p.2.1 g i).2)

/-! ### Dispatch and retirement -/

/-- A queue has had its turn (R327). -/
def tookTurn (s : State) (q : Nat) : State :=
  let top := s.queues.foldl (fun m x => max m x.2.lastTurn) 0
  s.setQueue q { s.queue q with lastTurn := top + 1 }

/-- The workgroup has retired: the launch, and a sweep's copy on the retiring core's die, know it (R45, R306). -/
def Launch.retire (l : Launch) (die ix : Nat) : Launch :=
  let m := { l with done := l.done ++ [ix] }
  if l.k.deps.isEmpty then m
  else if die = 0 then { m with die0 := m.die0 ++ [ix] }
  else if die = 1 then { m with die1 := m.die1 ++ [ix] }
  else { m with die2 := m.die2 ++ [ix] }

/-- Dispatch a workgroup of a launch to a core, or pass over a shading tile with no covered pixel, which counts as retired (R301). That
such a tile uses a turn of its queue (R327) the manual does not say (log 99, DESIGN CHOICE). -/
def dispatchTo (s : State) (lid core ix : Nat) (l : Launch) (slots : List Nat) (base : Nat) : State :=
  let hs := if l.shade then helpersOf s l ix else []
  let bare := l.shade && hs.all fun h => h == BitVec.allOnes 64
  let s1 := if bare then settleLaunch { s with launches := Tab.put s.launches lid (l.retire (dieOf core) ix) } lid ix
    else place s lid l core ix slots base hs
  let s2 := tookTurn s1 l.q
  match l.node with
  | some (g, _) => settleGraph s2 g
  | none => s2

/-- Whether another candidate keeps a core from a launch: one offered before that the core could take, the reserve apart, or one of a
higher priority that does not fit there (R320, R327). -/
def keepsCore (s : State) (l : Launch) (core : Nat) (x : Nat × Launch) : Bool :=
  match nextIndex s x.1 x.2 core, roomFor s x.1 x.2 core with
  | some (ix, x'), some (slots, base) => leavesReserve s (dispatchTo s x.1 core ix x' slots base) x.2
  | _, _ => (s.queue l.q).pri < (s.queue x.2.q).pri

/-- WORKGROUP_DISPATCH (R307, R327 to R329, R334): the launch is the first candidate with room that the core is offered. -/
def execWorkgroupDispatch (lnch core : Nat) (s0 : State) : Host.Outcome State Fault Refusal :=
  let s := cutGrids s0
  match s.launch? lnch with
  | none => notNow "WORKGROUP_DISPATCH"
  | some l =>
    if s.bootState ≠ 4 ∨ 144 ≤ core ∨ !wants s core (lnch, l) then notNow "WORKGROUP_DISPATCH"
    else match nextIndex s lnch l core, roomFor s lnch l core with
      | some (ix, l'), some (slots, base) =>
        let others := s.launches.filter fun x => x.1 != lnch && wants s core x && offeredBefore s x (lnch, l)
        let s1 := dispatchTo s lnch core ix l' slots base
        if others.any (keepsCore s l core) || !leavesReserve s s1 l then notNow "WORKGROUP_DISPATCH" else .next s1
      | _, _ => notNow "WORKGROUP_DISPATCH"

/-- WORKGROUP_RETIRE (R45): every group has exited and nothing it issued is outstanding. -/
def execWorkgroupRetire (wg : Nat) (s : State) : Host.Outcome State Fault Refusal :=
  match s.wg? wg with
  | none => notNow "WORKGROUP_RETIRE"
  | some w => match s.launch? w.lnch with
    | none => notNow "WORKGROUP_RETIRE"
    | some l =>
      let gs := w.slots.filterMap fun sl => s.group? (gKey w.core sl)
      if w.saved || l.killed || frozen s wg || wgBusy s wg || !gs.all (·.exited) then notNow "WORKGROUP_RETIRE"
      else
        let past := s.gathered (.exited wg)
        let s0 := (if l.k.deps.isEmpty then s else s.post (.ret w.lnch w.ix) past).post (.ended w.lnch) past
        let s1 := if l.k.matrix then resetMx s0 w.core else s0
        let s2 := (freeWg s1 wg).release (partySpool wg)
        let s3 := settleLaunch (s2.modLaunch w.lnch fun x => x.retire (dieOf w.core) w.ix) w.lnch w.ix
        match l.node with
        | some (g, _) => .next (settleGraph s3 g)
        | none => .next s3

/-- SCOREBOARD_BIT_RECEIVE (R306): a die's copy receives a retirement bit that another die has set. -/
def execScoreboardBitReceive (lnch die wgix : Nat) (s : State) : Host.Outcome State Fault Refusal :=
  match s.launch? lnch with
  | none => notNow "SCOREBOARD_BIT_RECEIVE"
  | some l =>
    if l.k.deps.isEmpty || 3 ≤ die || !decide (wgix ∈ l.done) || decide (wgix ∈ l.copyOf die) then notNow "SCOREBOARD_BIT_RECEIVE"
    else if die = 0 then .next (s.modLaunch lnch fun x => { x with die0 := x.die0 ++ [wgix] })
    else if die = 1 then .next (s.modLaunch lnch fun x => { x with die1 := x.die1 ++ [wgix] })
    else .next (s.modLaunch lnch fun x => { x with die2 := x.die2 ++ [wgix] })

end Sys2Proof.Machine
end

