-- ==== Sys2Proof/Machine/Queues.lean ====
section
/-! DEFINITION. Command queues: the registers with an effect of their own (R365, R410), the command at a queue's head
(R366 to R368), its refusal (R415), its completion write, and the commands NOP, WAITV, FRAME, INVAL, COMM, BRIDLE and
REGION (R368, R375, R376). -/

namespace Sys2Proof.Machine

open Sys2Proof

/-! ### The ring -/

/-- The slots of a queue that are written and not consumed. -/
def Queue.pendingSlots (x : Queue) : Nat := (x.tail - x.head).toNat

/-- The first byte of the i-th slot from the head on (R365). -/
def Queue.slotAt (x : Queue) (i : Nat) : Nat := x.base + 64 * ((x.head.toNat + i) % 2 ^ x.size)

/-- Bytes between the places of a first and a last one, where both are; `none` where the read fails (R410). -/
def readBetween (s : State) (first last : Option Nat) (n : Nat) : Option (List Byte) :=
  match first, last with
  | some k, some _ =>
    let ks := (List.range n).map (k + ·)
    if ks.any s.poisoned then none else some (ks.map s.byte)
  | _, _ => none

/-- The context descriptor of a queue (R367): 64 bytes of HBM. -/
def readContext (s : State) (x : Queue) : Option (List Byte) :=
  if x.ctx.toNat % 64 = 0 then readBetween s (ringKey 1 x.ctx.toNat) (ringKey 1 (x.ctx.toNat + 63)) 64 else none

/-- Read `n` slots of a queue from the head on, each under the rights of its context (R400, R410). -/
def readSlots (s : State) (q n : Nat) : Option (List Byte) :=
  let x := s.queue q
  (List.range n).foldl (fun acc i =>
    match acc, readBetween s (ringAt s q x.loc (x.slotAt i)) (ringAt s q x.loc (x.slotAt i + 63)) 64 with
    | some bs, some cs => some (bs ++ cs)
    | _, _ => none) (some [])

/-- The field of some bytes at an offset. -/
def fieldAt (bs : List Byte) (off len : Nat) : Nat := natOfBytes ((bs.drop off).take len)

/-- The context that a descriptor gives; `none` where it is malformed (R367). -/
def parseCtx (s : State) (bs : List Byte) : Option Ctx :=
  let a := fieldAt bs 0 8
  let b := fieldAt bs 8 8
  if 2 ≤ bits a 0 2 || bits a 2 11 != 0 || bits a 48 16 != 0 || bits b 20 44 != 0 || fieldAt bs 16 48 != 0 ||
      s.slices.length ≤ bits b 17 3 then none
  else some { root := bits a 13 35 * 2 ^ 13, ttier := bits a 0 2, asid := bits b 0 16, ns := bit b 16, slice := bits b 17 3 }

/-! ### The command at the head -/

/-- A command at the head of a queue: its slots, OP, bytes and context. -/
structure CmdIn where
  q : Nat
  n : Nat
  op : Nat
  bs : List Byte
  ctx : Ctx
  deriving DecidableEq, Repr

/-- A field of a command. -/
def CmdIn.f (c : CmdIn) (off len : Nat) : Nat := fieldAt c.bs off len

/-- What stands at the head of a queue: nothing that may start, a ring or descriptor that cannot be read, a command to refuse
before its body is looked at (its OP, its slots, the code), a command. -/
inductive Head where
  | nothing
  | broken
  | bad (op n code : Nat)
  | good (c : CmdIn)
  deriving DecidableEq, Repr

/-- Whether the module serves commands (R378, R427). -/
def serving (s : State) : Bool := s.bootState == 4 && !s.linkDown

/-- Whether a queue can consume a command: no WAITV and no waiting replay stands before it (R365, R368, R325). -/
def queueOpen (s : State) (q : Nat) : Bool :=
  let x := s.queue q
  x.en && x.pendingSlots != 0 &&
  !(s.cmds.any fun c => c.2.q == q && !c.2.ready && (match c.2.k with
    | .waitv _ _ => true
    | _ => false)) &&
  !(s.graphs.any fun g => g.2.q == q && g.2.waiting)

/-- The assigned OPs (R368). -/
def ops368 : List Nat := [0, 1, 2, 3, 4, 0x10, 0x11, 0x12, 0x13, 0x14, 0x15]

/-- The head of a queue, the precedence of queue 0 apart. -/
def headOf (s : State) (q : Nat) : Head :=
  let x := s.queue q
  if !serving s || 64 ≤ q || !queueOpen s q then .nothing
  else match readSlots s q 1 with
    | none => .broken
    | some h =>
      let w := fieldAt h 0 4
      let n := bits w 8 4 + 1
      let op := bits w 0 8
      if x.pendingSlots < n || (bit w 13 && !x.started.isEmpty) then .nothing
      else match readSlots s q n with
        | none => .broken
        | some bs =>
          if !decide (op ∈ ops368) then .bad op n 1
          else if (q == 0 && decide (op ∈ [1, 2, 4])) || (q != 0 && 0x10 ≤ op) then .bad op n 3
          else match readContext s x with
            | none => .broken
            | some cs => match parseCtx s cs with
              | none => .bad op n 2
              | some ctx =>
                if bits w 14 18 != 0 || fieldAt bs 4 4 != 0 || fieldAt bs 15 1 != 0 then .bad op n 2
                else .good ⟨q, n, op, bs, ctx⟩

/-- The head of a queue: queue 0 is served ahead of every other (R365). -/
def headCommand (s : State) (q : Nat) : Head :=
  if q = 0 then headOf s 0
  else match headOf s 0 with
    | .nothing => headOf s q
    | _ => .nothing

/-! ### Refusal, start and completion -/

/-- Consume slots of a queue. -/
def consume (s : State) (q n : Nat) : State :=
  s.setQueue q { s.queue q with head := (s.queue q).head + BitVec.ofNat 32 n }

/-! ### What a command reads of peer modules (R373) -/

/-- The operation by which a queue's next command, or a graph's next start, awaits what it reads of peer modules. -/
def devRead? (s : State) (n : Nat) : Option Op := s.ops.find? fun o => o.k == .device (.read n)

/-- What has been read for it is needed no more. -/
def forgetDev (s : State) (n : Nat) : State := { s with ops := s.ops.filter fun o => o.k != .device (.read n) }

/-- Ask the peers for what it reads. -/
def askDev (s : State) (n : Nat) (ns : Bool) (far : List Hit) : State :=
  match devRead? s n with
  | some o => requestReads s ns o.id far
  | none => requestReads { s with ops := s.ops ++ [{ devOp noLaunch (.read n) with id := s.nextId }], nextId := s.nextId + 1 } ns s.nextId far

/-- Whether answers of peer modules are awaited, and whether one has been refused or lost. -/
def devWaits (s : State) (n : Nat) : Bool := (devRead? s n).any fun o => !o.tags.isEmpty
/-- Whether a read of a peer module has failed. -/
def devFault (s : State) (n : Nat) : Option MFault :=
  ((devRead? s n).bind (·.fault)).map fun t => { cause := t.cause.toNat, aux := t.aux, page := none }

/-- A refusal: its code, and the fault behind code 9. -/
abbrev Refused := Nat × MFault

/-- The refusal of a malformed field, or with another code. -/
def refusal (code : Nat) : Refused := (code, { cause := 0, aux := 0, page := none })
/-- The refusal of a malformed field. -/
def malformed : Refused := refusal 2

/-- The refusal that an access's fault gives (R438). -/
def accessed {α : Type} : Except MFault α → Except Refused α
  | .ok x => .ok x
  | .error m => .error (9, m)

/-- Refuse the command of `n` slots at a queue's head (R415). -/
def rejectCmd (s : State) (q n code : Nat) : State := consume (queueErr (forgetDev s q) q (s.queue q).head.toNat code) q n

/-- A command is refused, or has bytes of peer modules to ask for first. -/
def refuse (s : State) (q n : Nat) (ns : Bool) (e : Refused) : State :=
  if e.2.far.isEmpty then rejectCmd s q n e.1 else askDev s q ns e.2.far

/-- Consume a command and start it; a SERIAL one follows what the earlier commands of its queue did (R366). -/
def startCmd (s0 : State) (c : CmdIn) (k : CmdK) (ready : Bool) : State :=
  let s := forgetDev (if bit (c.f 0 4) 13 then s0.post (.queue c.q) (s0.gathered (.fin c.q)) else s0) c.q
  let x := s.queue c.q
  let id := s.nextId
  let cmd : Cmd :=
    { slot := x.head.toNat, q := c.q, k := k, ctx := c.ctx, irq := bit (c.f 0 4) 12
      caddr := BitVec.ofNat 64 (c.f 8 8), cval := BitVec.ofNat 64 (c.f 16 8), ready := ready }
  let s1 := consume { s with nextId := id + 1, cmds := Tab.put s.cmds id cmd } c.q c.n
  s1.setQueue c.q { s1.queue c.q with started := x.started ++ [id] }

/-- Serve the command at a queue's head when its OP is `op`, once what it has asked peer modules for has come; a read that they have
refused is a faulting one (R438). -/
def serveCmd (name : String) (op q : Nat) (s : State) (body : CmdIn → State → State) : Host.Outcome State Fault Refusal :=
  match headCommand s q with
  | .bad o n code => if o = op then .next (rejectCmd s q n code) else notNow name
  | .good c =>
    if c.op ≠ op ∨ devWaits s q then notNow name
    else .next (if (devFault s q).isSome then rejectCmd s q c.n 9 else body c s)
  | _ => notNow name

/-- The accesses that the task unit makes on behalf of a command or start with number `n` (R438). -/
def whoCmd (s : State) (n : Nat) (ctx : Ctx) : Who :=
  { ctx := ctx, histStart := s.histLen, got := ((devRead? s n).map (·.got)).getD [], asks := true }

/-- Whether no access checked or translated earlier is still to be performed: a load that has not completed, whose value may
still come from a later write (R63), an atomic that waits, a store whose flits a peer module has not acknowledged, an instruction's or
the device's own (R376, R368). -/
def noLate (s : State) (sel : Launch → Bool) : Bool :=
  s.ops.all fun o => o.done || (match o.k with
    | .device (.read _) => true
    | .device _ => !unackedOp s o.id
    | .load .. | .atom .. => !(s.launch? o.lnch).any sel
    | _ => !(s.launch? o.lnch).any sel || (o.tags.isEmpty && !unackedOp s o.id))

/-- RSTD of a record of a context save area (R342). -/
def restored (s : State) (sv : Save) (off : Nat) : Bool := (s.byte (mKey sv.tier (sv.area + off + 7))).getLsbD 0

/-- Whether a command has no effect left but its completion write. -/
def cmdOver (s : State) (id : Nat) (c : Cmd) : Bool :=
  c.ready || (match c.k with
    | .region => noLate s fun _ => true
    | .resume _ _ => s.saves.any fun sv => sv.2.resuming == some id && sv.2.recs.all fun r => restored s sv.2 r.1
    | _ => false)

/-- The command is forgotten. -/
def dropCmd (s : State) (id : Nat) (c : Cmd) : State :=
  { s with cmds := Tab.erase s.cmds id }.setQueue c.q { s.queue c.q with started := (s.queue c.q).started.filter (· != id) }

/-! ### Registers -/

/-- A module that serves no commands rejects every one (R378, R427). -/
def rejectAll (s : State) (q : Nat) : Nat → State
  | 0 => s
  | fuel + 1 =>
    let x := s.queue q
    let n := match if s.bootState = 5 ∧ x.loc ≠ 0 then none else readSlots s q 1 with
      | some h => bits (fieldAt h 0 4) 8 4 + 1
      | none => 1
    if !x.en || x.pendingSlots < n || serving s || (s.bootState != 5 && !s.linkDown) then s
    else rejectAll (rejectCmd s q n 8) q fuel

/-- Reject what a queue holds when the module serves no commands. -/
def rejectPending (s : State) (q : Nat) : State := rejectAll s q (s.queue q).pendingSlots

/-- QTAIL_WRITE (R366, R410, R378): the queue's commands follow what the host has done through the aperture (log 87). -/
def execQtailWrite (q : Nat) (value : Word) (s : State) : Host.Outcome State Fault Refusal :=
  let x := s.queue q
  if 2 ^ x.size < (value - x.head).toNat then .next (queueErr s q x.head.toNat 5)
  else .next (rejectPending (((s.setQueue q { x with tail := value }).post (.queue q) (s.relClk hostMe)).released hostMe) q)

/-- QCTL_WRITE (R365). -/
def execQctlWrite (q : Nat) (value : Word) (s : State) : Host.Outcome State Fault Refusal :=
  let v := value.toNat
  .next (rejectPending (s.setQueue q { s.queue q with en := bit v 0, pri := bits v 1 2, irq := bit v 3 }) q)

/-- QSIZE_WRITE (R365): ignored while EN = 1; clamped to 6 to 16. -/
def execQsizeWrite (q : Nat) (value : Word) (s : State) : Host.Outcome State Fault Refusal :=
  let x := s.queue q
  if x.en then .next s else .next (s.setQueue q { x with size := max 6 (min 16 (value.toNat % 32)) })

/-! ### NOP and WAITV -/

/-- QUEUE_NOP (R368); the refusal of an unassigned OP (R368) and a failed ring read (R410) are served here too. -/
def execQueueNop (q : Nat) (s : State) : Host.Outcome State Fault Refusal :=
  match headCommand s q with
  | .nothing => notNow "QUEUE_NOP"
  | .broken => .next (ringFail s q (s.queue q).head.toNat)
  | .bad o n code => if o = 0 || code = 1 then .next (rejectCmd s q n code) else notNow "QUEUE_NOP"
  | .good c => if c.op = 0 then .next (startCmd s c .plain true) else notNow "QUEUE_NOP"

/-- The read of a WAITV is an .acq.sys: the later commands of its queue follow what the writes that it read have released (R368,
R61). -/
def waitvHears (s : State) (q : Nat) (c : Ctx) (addr : DWord) : State :=
  match resolve s (whoCmd s q c) .load none addr 8 8 with
  | .error _ => s
  | .ok (hs, _) =>
    let here := hs.flatMap fun h => relsAt s h.key s.histLen
    let rels := if isFar hs then farRels s hs (withGot (whoCmd s q c) hs (hs.map fun h => s.byte h.key)) else here
    (rels.filter fun r => inScope r.scp r.place {}).foldl (fun (s : State) r => s.post (.queue q) r.clk) s

/-- WAITV (R368): a read that faults refuses it with code 9 (R438). -/
def execWaitv (q : Nat) (s : State) : Host.Outcome State Fault Refusal := serveCmd "WAITV" 3 q s fun c s =>
  let addr : DWord := BitVec.ofNat 64 (c.f 0x18 8)
  match readNum s (whoCmd s q c.ctx) .load addr 8 with
  | .error m => refuse s q c.n c.ctx.ns (9, m)
  | .ok (x, s1) =>
    let s2 := if c.f 0x20 8 ≤ x then waitvHears s1 c.q c.ctx addr else s1
    startCmd s2 c (.waitv addr (BitVec.ofNat 64 (c.f 0x20 8))) (c.f 0x20 8 ≤ x)

/-- The WAITV that a queue stands at. -/
def waitingOn (s : State) (q : Nat) : Option (Nat × Cmd × DWord × DWord) :=
  s.cmds.findSome? fun c => match c.2.k with
    | .waitv a v => if c.2.q = q ∧ !c.2.ready then some (c.1, c.2, a, v) else none
    | _ => none

/-- WAITV_SATISFIED (R368): the value has reached VAL; a read that faults refuses the WAITV (R438). A peer module is asked for the
value, and again after an answer that does not reach VAL. -/
def execWaitvSatisfied (q : Nat) (s : State) : Host.Outcome State Fault Refusal :=
  match waitingOn s q with
  | none => notNow "WAITV_SATISFIED"
  | some (id, c, a, v) =>
    let drop (s : State) : State := queueErr (dropCmd (forgetDev s q) id c) q c.slot 9
    if devWaits s q then notNow "WAITV_SATISFIED"
    else if (devFault s q).isSome then .next (drop s)
    else match readNum s (whoCmd s q c.ctx) .load a 8 with
    | .error m => .next (if m.far.isEmpty then drop s else askDev s q c.ctx.ns m.far)
    | .ok (x, s1) =>
      if v.toNat ≤ x then .next (forgetDev ((waitvHears s1 q c.ctx a).cmdReady id) q)
      else if (devRead? s q).isSome then .next (forgetDev s q)
      else notNow "WAITV_SATISFIED"

/-! ### FRAME -/

/-- Whether the fields of a FRAME lie within their limits (R375). -/
def frameOk (c : CmdIn) : Bool :=
  let w := c.f 0x20 4
  let wd := c.f 0x24 2
  let ht := c.f 0x26 2
  1 ≤ bits w 0 4 && bits w 0 4 ≤ 8 && bits w 4 2 < 2 && bits w 16 16 == 0 && (bits w 4 2 == 0 || bits w 8 8 ≤ 51) &&
  0 < wd && wd ≤ 7680 && wd % 2 == 0 && 0 < ht && ht ≤ 4320 && ht % 2 == 0 && 8 ≤ c.f 0x30 4

/-- FRAME (R375, R438): the layer records are read, and the encoder starts. -/
def execFrame (q : Nat) (s : State) : Host.Outcome State Fault Refusal := serveCmd "FRAME" 4 q s fun c s =>
  if !frameOk c then rejectCmd s q c.n 2
  else match readPlain s (whoCmd s q c.ctx) .load (BitVec.ofNat 64 (c.f 0x18 8)) (32 * bits (c.f 0x20 4) 0 4) 1 with
    | .error m => refuse s q c.n c.ctx.ns (9, m)
    | .ok (bs, s1) =>
      if (List.range (bits (c.f 0x20 4) 0 4)).any fun i => 2 < fieldAt bs (32 * i + 12) 4 then rejectCmd s q c.n 2
      else
        let head := (List.range 4).map fun i => BitVec.ofNat 64 (c.f (0x18 + 8 * i) 8)
        let recs := (List.range (bs.length / 8)).map fun i => BitVec.ofNat 64 (fieldAt bs (8 * i) 8)
        startCmd s1 c (.frame (head ++ recs)) false

/-- The bytes of a frame's layers: the pitch times the source height of each; of one that cannot be read, none. -/
def layerBytes (s : State) (w : Who) (words : List DWord) : List Byte :=
  (List.range ((words.length - 4) / 4)).flatMap fun i =>
    let r (k : Nat) : Nat := (words.getD (4 + 4 * i + k) 0).toNat
    match readPlain s w .engRead (BitVec.ofNat 64 (r 0)) (bits (r 1) 0 32 * bits (r 2) 16 16) 1 with
    | .ok (bs, _) => bs
    | .error _ => []

/-- The bytes of peer modules that a frame's layers hold and that have not arrived. -/
def layersFar (s : State) (w : Who) (words : List DWord) : List Hit :=
  (List.range ((words.length - 4) / 4)).flatMap fun i =>
    let r (k : Nat) : Nat := (words.getD (4 + 4 * i + k) 0).toNat
    match readPlain s w .engRead (BitVec.ofNat 64 (r 0)) (bits (r 1) 0 32 * bits (r 2) 16 16) 1 with
    | .ok _ => []
    | .error m => m.far

/-- The number under which an encoder awaits peer modules. -/
def frameKey (id : Nat) : Nat := 65 + 2 * id

/-- FRAME_ENCODE_COMPLETE (R375): the stream's length at OUT and the stream after it; one too long leaves the length 0.
The stream itself is a free value; a write that faults is not made. -/
def execFrameEncodeComplete (id : Nat) (s : State) : Host.Outcome State Fault Refusal :=
  match Tab.find? s.cmds id with
  | none => notNow "FRAME_ENCODE_COMPLETE"
  | some c => match c.k with
    | .frame words =>
      if c.ready then notNow "FRAME_ENCODE_COMPLETE"
      else
        let x := s.slice c.ctx.slice
        let w : Who := { whoCmd s (frameKey id) c.ctx with ctx := { c.ctx with ns := x.veNs }, op := some s.nextId }
        let r : Who := { w with ctx := { c.ctx with ns := x.deNs } }
        if devWaits s (frameKey id) then notNow "FRAME_ENCODE_COMPLETE"
        else if (devFault s (frameKey id)).isNone && !(layersFar s r words).isEmpty then
          .next (askDev s (frameKey id) x.deNs (layersFar s r words))
        else
        let stream := Config.encode words (layerBytes s r words)
        let fits := stream.length ≤ bits (words.getD 3 0).toNat 0 32 - 8
        let out := if fits then bytesOfNat 8 stream.length ++ stream else bytesOfNat 8 0
        match writePlain s w (words.getD 2 0) 1 out with
        | .error _ => .next (forgetDev (s.cmdReady id) (frameKey id))
        | .ok s1 =>
          let s2 := keepFar s1 (devOp noLaunch (.mask id))
          .next (forgetDev (if s2.nextId = s1.nextId then s2.cmdReady id else s2) (frameKey id))
    | _ => notNow "FRAME_ENCODE_COMPLETE"

/-! ### INVAL, COMM, BRIDLE, REGION -/

/-- INVAL (R368). -/
def execInval (q : Nat) (s : State) : Host.Outcome State Fault Refusal := serveCmd "INVAL" 0x10 q s fun c s =>
  if c.f 0x1A 6 ≠ 0 then rejectCmd s q c.n 2
  else startCmd s c (.inval (c.f 0x18 2) (c.f 0x20 8) (c.f 0x28 8)) false

/-- Whether a held translation lies in the range of an INVAL. -/
def invalHits (asid base size : Nat) (e : Nat × Tlb) : Bool :=
  let lo := bits base 0 56
  e.2.asid == asid && (size == 0 || (lo < (e.2.page + 1) * 2 ^ 16 && e.2.page * 2 ^ 16 < lo + size))

/-- INVAL_COMPLETE (R368): no TLB holds an entry of the range, and the accesses through such entries are performed. -/
def execInvalComplete (id : Nat) (s : State) : Host.Outcome State Fault Refusal :=
  match Tab.find? s.cmds id with
  | none => notNow "INVAL_COMPLETE"
  | some c => match c.k with
    | .inval asid base size =>
      if c.ready || !noLate s (fun l => l.ctx.asid == asid) then notNow "INVAL_COMPLETE"
      else .next ({ s with tlbs := s.tlbs.filter fun e => !invalHits asid base size e }.cmdReady id)
    | _ => notNow "INVAL_COMPLETE"

/-- COMM (R368): the table is copied as the command is consumed. -/
def execComm (q : Nat) (s : State) : Host.Outcome State Fault Refusal := serveCmd "COMM" 0x13 q s fun c s =>
  let p := c.f 0x20 8
  if c.f 0x1A 6 ≠ 0 ∨ p = 0 ∨ 4096 < p then rejectCmd s q c.n 2
  else match readPlain s (whoCmd s q c.ctx) .load (BitVec.ofNat 64 (c.f 0x28 8)) (4 * p) 4 with
    | .error m => refuse s q c.n c.ctx.ns (9, m)
    | .ok (bs, s1) =>
      let ws := (List.range p).map fun r => fieldAt bs (4 * r) 4
      if ws.any fun w => bits w 11 21 != 0 then rejectCmd s q c.n 2
      else startCmd { s1 with comms := Tab.put s1.comms (c.f 0x18 2) (ws.map fun w => (bits w 0 8, bits w 8 3)) } c .plain true

/-- BRIDLE (R368, R338). -/
def execBridle (q : Nat) (s : State) : Host.Outcome State Fault Refusal := serveCmd "BRIDLE" 0x14 q s fun c s =>
  let sl := c.f 0x18 8
  let g := c.f 0x20 8
  let m := c.f 0x28 8
  let fix := c.f 0x30 8
  let b := c.f 0x38 8
  let cores := (s.slice sl).cores
  if s.slices.length ≤ sl ∨ cores < g + m ∨ 1 < fix ∨ (fix = 1 ∧ cores < b) then rejectCmd s q c.n 2
  else
    let s1 := s.modSlice sl fun x => { x with minG := g, minC := m, fix := fix == 1, target := b }
    startCmd (bridleSettle s1) c .plain true

/-- REGION (R376). -/
def execRegion (q : Nat) (s : State) : Host.Outcome State Fault Refusal := serveCmd "REGION" 0x15 q s fun c s =>
  let a := c.f 0x20 8
  let b := c.f 0x28 8
  if !s.regionRight || c.ctx.ns then rejectCmd s q c.n 4
  else if 64 ≤ c.f 0x18 8 ∨ bits a 4 12 ≠ 0 ∨ bits a 48 16 ≠ 0 ∨ bits b 0 16 ≠ 0 ∨ bits b 48 16 ≠ 0 ∨ bits a 2 2 = 3 then
    rejectCmd s q c.n 2
  else
    let e : Region := { v := bit a 0, sec := bit a 1, tier := bits a 2 2, base := bits a 16 32, limit := bits b 16 32 }
    startCmd { s with regionTab := Tab.put s.regionTab (c.f 0x18 8) e } c .region false

end Sys2Proof.Machine
end

