-- ==== Sys2Proof/Machine/Launches.lean ====
section
/-! DEFINITION. The start of launches (R369, R438) and of graph replays (R318 to R321, R325, R370). -/

namespace Sys2Proof.Machine

open Sys2Proof

/-! ### The kernel descriptor -/

/-- A dependence vector (R369). -/
def depOf (x : Nat) : Int × Int × Int := (toSigned 5 (bits x 0 5), toSigned 5 (bits x 5 5), toSigned 5 (bits x 10 5))

/-- Whether a dependence vector satisfies R303. -/
def depOk (d : Int × Int × Int) : Bool :=
  let within (x : Int) : Bool := -8 ≤ x && x ≤ 8
  within d.1 && within d.2.1 && within d.2.2 &&
  (d.2.2 < 0 || (d.2.2 == 0 && (d.2.1 < 0 || (d.2.1 == 0 && d.1 < 0))))

/-- The kernel that a descriptor gives; `none` where a field is outside its limits (R369, R303, R50, R44). -/
def parseKernel (bs : List Byte) : Option Kernel :=
  let f := fieldAt bs
  let raw := (List.range 4).map fun i => f (0x28 + 2 * i) 2
  let deps := (raw.filter fun x => bit x 15).map depOf
  let a := f 0x18 4
  let b := f 0x24 4
  let k : Kernel :=
    { entry := BitVec.ofNat 64 (f 0 8), data := BitVec.ofNat 64 (f 8 8), spool := BitVec.ofNat 64 (f 16 8)
      regs := bits a 0 9, vault := bits a 16 8 * 65536, priv := bits (f 0x1C 4) 0 17, roles := BitVec.ofNat 32 (f 0x20 4)
      staged := bit b 0, det := bit b 1, matrix := bit b 2, nsite := bits b 3 4, deps := deps }
  if raw.any (fun x => !bit x 15 && x != 0) || !deps.all depOk || k.regs < 8 || 256 < k.regs || k.regs % 8 != 0 ||
      2 ^ 23 < k.vault || k.priv % 16 != 0 || 65536 < k.priv || 8 < k.nsite then none
  else some k

/-- Read a kernel descriptor: the refusal code, or the kernel (R415, R438). -/
def readKernel (s : State) (q : Nat) (ctx : Ctx) (kdesc : DWord) : Except Refused (Kernel × State) :=
  if 1 < pathOf kdesc ∨ kdesc.toNat % 64 ≠ 0 then .error malformed
  else match readPlain s (whoCmd s q ctx) .load kdesc 64 64 with
    | .error m => .error (9, m)
    | .ok (bs, s1) => match parseKernel bs with
      | none => .error malformed
      | some k => .ok (k, s1)

/-! ### The body of a launch -/

/-- Whether the body of a launch keeps its limits, given its kernel (R369, R415). -/
def bodyOk (bs : List Byte) (k : Kernel) : Bool :=
  let f := fieldAt bs
  let w := f 0x3C 4
  let l := bits (f 0x2C 4) 16 11
  let orderTable := f 0x60 8
  (bit w 3 || (1 ≤ f 0x28 2 && 1 ≤ f 0x2A 2 && 1 ≤ f 0x2C 2 && 1 ≤ l && l ≤ 1024)) && f 0x50 4 % 384 == 0 &&
  (k.priv == 0 || f 0x40 8 % 65536 == 0) && !(k.det && !bit w 0) &&
  (k.deps.isEmpty || (f 0x58 8 != 0 && f 0x58 8 % 128 == 0 && f 0x5F 1 == 0)) &&
  (if k.nsite = 0 then orderTable == 0 else orderTable % 16 == 0 && f 0x67 1 == 0)

/-- The launch that a body gives (R369), its sites and the grid of a shading launch apart. -/
def bodyLaunch (s : State) (q : Nat) (ctx : Ctx) (bs : List Byte) (k : Kernel) : Launch :=
  let f := fieldAt bs
  let w := f 0x3C 4
  let age := bits w 16 12
  let shade := bit w 3
  { q := q, lid := BitVec.ofNat 32 (f 0x38 4), ctx := ctx, k := k, param := BitVec.ofNat 64 (f 0x20 8)
    gx := f 0x28 2, gy := f 0x2A 2, gz := f 0x2C 2, l := if shade then 256 else bits (f 0x2C 4) 16 11
    seed := BitVec.ofNat 64 (f 0x30 8), det := bit w 0, chksb := bit w 1, gfx := bit w 2 || shade, shade := shade
    agemax := if age = 0 then 1 else min age 4094, priv := BitVec.ofNat 64 (f 0x40 8), spill := BitVec.ofNat 64 (f 0x48 8)
    spsz := f 0x50 4, sboard := BitVec.ofNat 64 (f 0x58 8), histStart := s.histLen, order := s.nextId }

/-- Whether an empty core and the launch's partition have room for it (R415). -/
def roomSomewhere (s : State) (l : Launch) : Bool := fitsEmpty l && (List.range 144).any (inPartition s l)

/-- The number under which a launch's start awaits peer modules: its queue's, or its graph's. -/
def Launch.devKey (l : Launch) : Nat := match l.node with
  | some (g, _) => 64 + 2 * g
  | none => l.q

/-- The grid of a shading launch, from its view record (R301). -/
def openShade (s : State) (l : Launch) : Except Refused (Launch × State) :=
  if !l.shade then .ok (l, s)
  else match readNum s (whoCmd s l.devKey l.ctx) .load l.param 8 with
    | .error m => .error (9, m)
    | .ok (va, s1) => match readPlain s1 (whoCmd s1 l.devKey l.ctx) .load (BitVec.ofNat 64 va) 128 128 with
      | .error m => .error (9, m)
      | .ok (bs, s2) =>
        let ws := (List.range 32).map fun i => BitVec.ofNat 32 (fieldAt bs (4 * i) 4)
        if viewWidth ws = 0 ∨ viewHeight ws = 0 then .error malformed
        else .ok ({ l with view := ws, gx := (viewWidth ws + 15) / 16, gy := (viewHeight ws + 15) / 16, gz := 1 }, s2)

/-- The sites of a launch from its binding table on: address, type and starting value of each (R229, R369). -/
def openSites (s : State) (l : Launch) (tbl : DWord) : List Nat → Except Refused (List Site × State)
  | [] => .ok ([], s)
  | i :: is => match readPlain s (whoCmd s l.devKey l.ctx) .load (tbl + BitVec.ofNat 64 (16 * i)) 16 16 with
    | .error m => .error (9, m)
    | .ok (bs, s1) =>
      let a : DWord := BitVec.ofNat 64 (fieldAt bs 0 8)
      let ty := fieldAt bs 8 8
      if !decide (ty ∈ [0, 1, 2, 9, 10]) then .error malformed
      else match readNum s1 (whoCmd s1 l.devKey l.ctx) .load a (tyBits ty / 8) with
        | .error m => .error (9, m)
        | .ok (x, s2) => match openSites s2 l tbl is with
          | .error e => .error e
          | .ok (ss, s3) => .ok ({ addr := a, ty := ty, acc := BitVec.ofNat 64 x } :: ss, s3)

/-- The size of a scoreboard region: a whole number of 128 bytes (R305). -/
def Launch.boardSize (l : Launch) : Nat := ((l.n + 7) / 8 + 127) / 128 * 128

/-- The accesses made before a launch's work starts (R438): the view record, the site-binding table with the starting values,
the zeroing of the scoreboard. -/
def openLaunch (s : State) (l : Launch) (tbl : DWord) : Except Refused (Launch × State) :=
  match openShade s l with
  | .error e => .error e
  | .ok (l1, s1) => match openSites s1 l1 tbl (List.range l1.k.nsite) with
    | .error e => .error e
    | .ok (ss, s2) => match accessed (boardWrite s2 noLaunch l1 0 (List.replicate l1.boardSize 0)) with
      | .error e => .error e
      | .ok s3 => .ok ({ l1 with sites := ss }, s3)

/-- Start a launch under the next identifier. -/
def addLaunch (s : State) (l : Launch) : State :=
  { s with nextId := s.nextId + 1, launches := Tab.put s.launches s.nextId { l with order := s.nextId } }

/-- A launch starts after a past (R62), and its grid is cut if a core can take a workgroup of it now (R328). -/
def launchStarts (s : State) (lid : Nat) (past : Clk) : State := cutGrid (s.post (.start lid) past) lid

/-- LAUNCH_COMMAND (R369, R415, R438). -/
def execLaunchCommand (q : Nat) (s : State) : Host.Outcome State Fault Refusal := serveCmd "LAUNCH_COMMAND" 1 q s fun c s =>
  if c.n ≠ 2 then rejectCmd s q c.n 2
  else match readKernel s q c.ctx (BitVec.ofNat 64 (c.f 0x18 8)) with
    | .error e => refuse s q c.n c.ctx.ns e
    | .ok (k, s1) =>
      let l := bodyLaunch s1 q c.ctx c.bs k
      if !bodyOk c.bs k then rejectCmd s q c.n 2
      else if !roomSomewhere s l then rejectCmd s q c.n 7
      else match openLaunch s1 l (BitVec.ofNat 64 (c.f 0x60 8)) with
        | .error e => refuse s q c.n c.ctx.ns e
        | .ok (l1, s2) =>
          let s3 := startCmd s2 c (.launch (s2.nextId + 1)) false
          launchStarts (addLaunch s3 { l1 with cmd := some s2.nextId }) s3.nextId (s3.gathered (.queue q))

/-! ### Graph objects (R370) -/

/-- The number that free values of a task node are applied to: one entry gives one number in every run (R13). -/
def nodeCode (words : List Word) : Nat := natOfBytes (words.flatMap bytesOfWord)

/-- A node entry with its kernel and the host's records, or the refusal of it. -/
def readNode (s : State) (q : Nat) (ctx : Ctx) (bs : List Byte) : Except Refused (Node × State) :=
  let f := fieldAt bs
  let words := (List.range 32).map fun i => BitVec.ofNat 32 (f (4 * i) 4)
  let psize := f 0x70 4
  match readKernel s q ctx (BitVec.ofNat 64 (f 0x18 8)) with
  | .error e => .error e
  | .ok (k, s1) =>
    let x : Node := { task := bit (f 0 4) 0, body := words, param := BitVec.ofNat 64 (f 0x20 8), psize := psize, k := k }
    if psize % 4 ≠ 0 ∨ 4096 < psize then .error malformed
    else if !x.task then
      if f 0x68 8 ≠ 0 ∨ !bodyOk bs k then .error malformed
      else if !roomSomewhere s (bodyLaunch s 0 ctx bs k) then .error (refusal 7)
      else .ok (x, s1)
    else
      let y : Node := { x with rw := bits (f 0x28 4) 0 5, cap := f 0x2C 4, maxwg := f 0x30 2, l := 1 + Config.freeNat (nodeCode words) % 1024 }
      let count := f 0x40 8
      if y.rw = 0 ∨ 16 < y.rw ∨ y.cap < W ∨ y.maxwg = 0 ∨ y.cap < count then .error malformed
      else if !roomSomewhere s { q := 0, lid := 0, ctx := ctx, k := k, l := y.l } then .error (refusal 7)
      else if count = 0 then .ok (y, s1)
      else match readPlain s1 (whoCmd s1 q ctx) .load (BitVec.ofNat 64 (f 0x38 8)) (4 * y.rw * count) 4 with
        | .error m => .error (9, m)
        | .ok (rs, s2) =>
          let recs : List TaskRec := (List.range count).map fun r =>
            { words := (List.range y.rw).map fun i => BitVec.ofNat 32 (fieldAt rs (4 * (r * y.rw + i)) 4) }
          .ok ({ y with queue := recs, used := count }, s2)

/-- The node entries that follow one another. -/
def readNodes (s : State) (q : Nat) (ctx : Ctx) (bs : List Byte) : List Nat → Except Refused (List Node × State)
  | [] => .ok ([], s)
  | i :: is => match readNode s q ctx ((bs.drop (128 * i)).take 128) with
    | .error e => .error e
    | .ok (x, s1) => match readNodes s1 q ctx bs is with
      | .error e => .error e
      | .ok (xs, s2) => .ok (x :: xs, s2)

/-- Whether the task edges of a graph form no cycle: taking away again and again the nodes that no task edge enters leaves none. -/
def taskAcyclic (n : Nat) (edges : List (Nat × Nat × Nat)) : Bool :=
  let left := (List.range n).foldl (fun (xs : List Nat) _ =>
    xs.filter fun x => edges.any fun e => e.2.2 == 2 && e.2.1 == x && decide (e.1 ∈ xs)) (List.range n)
  left.isEmpty

/-- Whether a graph's edges keep R318 and R370. -/
def edgesOk (nodes : List Node) (edges : List (Nat × Nat × Nat)) : Bool :=
  let isTask (i : Nat) : Bool := (nodes[i]?).any (·.task)
  taskAcyclic nodes.length edges &&
  edges.all (fun e => e.1 < nodes.length && e.2.1 < nodes.length && e.2.2 != 3 &&
    (e.2.2 != 1 || (!isTask e.1 && !isTask e.2.1)) && (e.2.2 != 2 || isTask e.2.1)) &&
  nodes.zipIdx.all fun xi => xi.1.queue.isEmpty || !(edges.any fun e => e.2.1 == xi.2 && e.2.2 == 2)

/-- A patch item: node, word index, value (R370). -/
abbrev Patch := Nat × Nat × Nat

/-- The patch items; `none` where a zero field is not zero. -/
def parsePatches (bs : List Byte) (n : Nat) : Option (List Patch) :=
  let xs := (List.range n).map fun i => fieldAt bs (8 * i) 8
  if xs.any fun x => bits x 20 12 != 0 then none else some (xs.map fun x => (bits x 0 8, bits x 8 12, bits x 32 32))

/-- Where the pool holds the copy of a node's parameter block, in the replays that stand in place `place` of the object. -/
def copyAddr (pool : DWord) (place n : Nat) : DWord := pool + BitVec.ofNat 64 (4096 * (256 * place + n))

/-- The parameter blocks of the patched nodes are copied into the pool, with the items applied (R370). -/
def copyBlocks (s : State) (q : Nat) (ctx : Ctx) (pool : DWord) (place : Nat) (ps : List Patch) :
    List (Node × Nat) → Except Refused (List Node × State)
  | [] => .ok ([], s)
  | (x, i) :: xs =>
    let mine := ps.filter fun p => p.1 == i
    let here : Except Refused (Node × State) :=
      if mine.isEmpty then .ok (x, s)
      else match readPlain s (whoCmd s q ctx) .load x.param x.psize 4 with
        | .error m => .error (9, m)
        | .ok (bs, s1) =>
          let bs' := mine.foldl (fun (bs : List Byte) p => bs.take (4 * p.2.1) ++ bytesOfNat 4 p.2.2 ++ bs.drop (4 * p.2.1 + 4)) bs
          match writePlain s1 (whoCmd s1 q ctx) (copyAddr pool place i) 4 bs' with
          | .error m => .error (9, m)
          | .ok s2 => .ok ({ x with param := copyAddr pool place i }, s2)
    match here with
    | .error e => .error e
    | .ok (y, s3) => match copyBlocks s3 q ctx pool place ps xs with
      | .error e => .error e
      | .ok (ys, s4) => .ok (y :: ys, s4)

/-- The replays of one object that run or wait. -/
def replaysOf (s : State) (obj : DWord) (ctx : Ctx) : List (Nat × Graph) :=
  s.graphs.filter fun g => g.2.obj == obj && g.2.ctx == ctx

/-- The lowest place in the pool that no replay of the object uses. -/
def freePlace (s : State) (obj : DWord) (ctx : Ctx) : Nat :=
  let gs := replaysOf s obj ctx
  ((List.range (gs.length + 1)).find? fun i => !(gs.any fun g => g.2.copyAt == i)).getD 0

/-- A replay of a graph object as a GRAPH submits it, or the refusal's code (R370, R415, R438). -/
def readGraph (s : State) (c : CmdIn) : Except Refused (Graph × State) :=
  let obj : DWord := BitVec.ofNat 64 (c.f 0x18 8)
  let w := whoCmd s c.q c.ctx
  match readPlain s w .load obj 64 8 with
  | .error m => .error (9, m)
  | .ok (h, s1) =>
    let nn := bits (fieldAt h 0 4) 0 9
    let ne := bits (fieldAt h 0 4) 16 16
    if nn = 0 ∨ 256 < nn then .error malformed
    else match readPlain s1 w .load (BitVec.ofNat 64 (fieldAt h 8 8)) (128 * nn) 8 with
      | .error m => .error (9, m)
      | .ok (nb, s2) => match if ne = 0 then .ok ([], s2) else readPlain s2 w .load (BitVec.ofNat 64 (fieldAt h 16 8)) (4 * ne) 4 with
        | .error m => .error (9, m)
        | .ok (eb, s3) =>
          let edges := (List.range ne).map fun i => (fieldAt eb (4 * i) 1, fieldAt eb (4 * i + 1) 1, bits (fieldAt eb (4 * i + 2) 1) 0 2)
          let np := c.f 0x28 2
          match readNodes s3 c.q c.ctx nb (List.range nn) with
          | .error e => .error e
          | .ok (nodes, s4) =>
            if !edgesOk nodes edges then .error malformed
            else match if np = 0 then .ok ([], s4) else readPlain s4 w .load (BitVec.ofNat 64 (c.f 0x20 8)) (8 * np) 8 with
              | .error m => .error (9, m)
              | .ok (pb, s5) => match parsePatches pb np with
                | none => .error malformed
                | some ps =>
                  let place := freePlace s obj c.ctx
                  if ps.any fun p => !((nodes[p.1]?).any fun x => 4 * p.2.1 < x.psize) then .error malformed
                  else match copyBlocks s5 c.q c.ctx (BitVec.ofNat 64 (fieldAt h 24 8)) place ps nodes.zipIdx with
                    | .error e => .error e
                    | .ok (ns, s6) =>
                      .ok ({ obj := obj, q := c.q, ctx := c.ctx, nodes := ns, edges := edges, cmd := s6.nextId
                             waiting := !(replaysOf s obj c.ctx).isEmpty, order := s6.nextId + 1, copyAt := place }, s6)

/-- A replay starts, after what the object's replays before it did (R325): PMASK is cleared (R418), and the queues that no task
edge feeds close (R321). -/
def startReplay (s : State) (gid : Nat) (g : Graph) : State :=
  let s1 := s.post (.node gid 256) (s.gathered (.replay g.obj.toNat g.ctx.root))
  settleGraph (maskWrite { s1 with graphs := Tab.put s1.graphs gid { g with waiting := false } } g 0) gid

/-- GRAPH_COMMAND (R370): a replay is submitted; it starts at once, or waits for the object's earlier replays (R325). -/
def execGraphCommand (q : Nat) (s : State) : Host.Outcome State Fault Refusal := serveCmd "GRAPH_COMMAND" 2 q s fun c s =>
  match readGraph s c with
  | .error e => refuse s q c.n c.ctx.ns e
  | .ok (g, s1) =>
    let s2 := startCmd s1 c (.graph (s1.nextId + 1)) false
    let gid := s2.nextId
    let s3 := { s2.post (.node gid 256) (s2.gathered (.queue q)) with nextId := gid + 1, graphs := Tab.put s2.graphs gid g }
    if g.waiting then s3 else startReplay s3 gid g

/-- GRAPH_REPLAY_START (R325): the earlier replays of the object are over. -/
def execGraphReplayStart (graph : Nat) (s : State) : Host.Outcome State Fault Refusal :=
  match Tab.find? s.graphs graph with
  | none => notNow "GRAPH_REPLAY_START"
  | some g =>
    if !g.waiting || (replaysOf s g.obj g.ctx).any (fun x => x.2.order < g.order) then notNow "GRAPH_REPLAY_START"
    else .next (startReplay s graph g)

/-! ### The start of a node (R319) -/

/-- Whether a producer has dispatched its last workgroup. -/
def dispatchedAll (s : State) (x : Node) : Bool :=
  x.complete || (x.started && (x.lnch.any fun l => (s.launch? l).any fun y => y.n ≤ y.disp.length))

/-- Whether the edges into a node let it start. -/
def mayStartNode (s : State) (g : Graph) (n : Nat) : Bool :=
  g.edges.all fun e => e.2.1 != n || (match g.nodes[e.1]? with
    | none => false
    | some x => match e.2.2 with
      | 0 => x.complete
      | 1 => dispatchedAll s x
      | _ => true)

/-- The launch that a task node runs: what its entry does not give is free, and the same in every run (R13). -/
def taskLaunch (s : State) (g : Graph) (n : Nat) (x : Node) : Launch :=
  let c := 2048 * nodeCode x.body + 8 * n
  { q := g.q, lid := Config.freeWord c, ctx := g.ctx, k := x.k, param := x.param, l := x.l, seed := Config.freeDWord c
    det := x.k.det, chksb := Config.freeNat c % 2 == 1, agemax := 1 + Config.freeNat (c + 1) % 4094
    priv := BitVec.ofNat 64 (Config.freeNat (c + 2) % 2 ^ 40 * 65536), spill := Config.freeDWord (c + 1)
    spsz := Config.freeNat (c + 3) * 384, histStart := s.histLen, order := s.nextId }

/-- What happens before the start of a node: what its replay follows, and what the producers on its completion edges did (R318). -/
def nodeFollows (s : State) (gid : Nat) (g : Graph) (n : Nat) : Clk :=
  (g.edges.filter fun e => e.2.1 == n && e.2.2 == 0).foldl (fun (c : Clk) e => c.join (s.gathered (.node gid e.1)))
    (s.gathered (.node gid 256))

/-- A node has started as a launch. -/
def nodeStarted (s : State) (gid n lid : Nat) : State :=
  { s with graphs := Tab.modify s.graphs gid fun y =>
      { y with nodes := y.nodes.modify n fun z => { z with started := true, lnch := some lid } } }

/-- GRAPH_NODE_START (R319). A fault of the accesses made at a grid node's start kills its launch as R438 says of a running one. -/
def execGraphNodeStart (graph node : Nat) (s : State) : Host.Outcome State Fault Refusal :=
  match Tab.find? s.graphs graph with
  | none => notNow "GRAPH_NODE_START"
  | some g => match g.nodes[node]? with
    | none => notNow "GRAPH_NODE_START"
    | some x =>
      if g.waiting || x.started || x.complete || !mayStartNode s g node then notNow "GRAPH_NODE_START"
      else
        let past := nodeFollows s graph g node
        let begun (s1 : State) (l : Launch) : State :=
          nodeStarted (launchStarts (addLaunch s1 { l with node := some (graph, node) }) s1.nextId past) graph node s1.nextId
        if x.task then .next (settleGraph (begun s (taskLaunch s g node x)) graph)
        else
          let bs := x.body.flatMap bytesOfWord
          let l := { bodyLaunch s g.q g.ctx bs x.k with param := x.param, node := some (graph, node) }
          let fail (e : Refused) : State :=
            let s0 := forgetDev s l.devKey
            if e.1 = 9 then launchFault (begun s0 l) s0.nextId e.2 0 0 else killLaunch (begun s0 l) s0.nextId
          if devWaits s l.devKey then notNow "GRAPH_NODE_START"
          else match devFault s l.devKey with
          | some m => .next (fail (9, m))
          | none => match openLaunch s l (BitVec.ofNat 64 (fieldAt bs 0x60 8)) with
          | .ok (l1, s1) => .next (begun (forgetDev s1 l.devKey) l1)
          | .error e => .next (if e.2.far.isEmpty then fail e else askDev s l.devKey g.ctx.ns e.2.far)

end Sys2Proof.Machine
end

