-- ==== Sys2Proof/Machine/Ready.lean ====
section
/-! DEFINITION. Which splits are ready (R331), how a core ranks them (R332, R335), which of them has its turn to issue, what the
order within a cycle bars (R237, R316), and the ages (R39). -/

namespace Sys2Proof.Machine

open Sys2Proof

/-! ### Readiness -/

/-- What stands before an agent. -/
inductive Peek where
  /-- A clause, and the state in which the agent stands in it. -/
  | clause (s : State) (c : Clause)
  /-- A header that traps. -/
  | trap
  /-- Nothing that can be read now. -/
  | none

/-- The clause in which an agent stands, or the one that its next header starts (R331, R333). -/
def peek (s : State) (ag : Agent) : Peek :=
  match clauseOf s ag, headerOf s ag, agentWg s ag with
  | some (c, _), _, _ => .clause s c
  | none, some (pc, _), some wid => match s.wg? wid with
    | none => .none
    | some w => match s.launch? w.lnch with
      | none => .none
      | some l => match fetchClause s (whoFetch s ag w l) (kinfo l (isSpool ag)) pc with
        | .ok (c, s1) => .clause (setClause s1 ag c) c
        | .error t => if t.far.isEmpty then .trap else .none
  | none, _, _ => .none

/-- Whether what stands before an agent may go on in this cycle (R331): within a clause its stall count has elapsed and nothing holds
its next instruction; at a clause start the conditions of R125 are met, and a waiting instruction there has nothing to wait for. -/
def peekReady (s : State) (ag : Agent) : Bool :=
  match peek s ag with
  | .none => false
  | .trap => true
  | .clause s1 c =>
    if c.inside then c.issueAt ≤ s.clock && !nextHeld s1 ag c
    else (if c.started then c.issueAt ≤ s.clock else (headerOf s ag).all (fun h => h.2 ≤ s.clock)) && headerReady s ag c &&
      !atUnmetWait s1 ag c && ((clauseOf s ag).all (fun x => x.2 != 2) || !nextHeld s1 ag c)

/-- Whether a split is ready in a cycle, its group's place and the clauses of other splits apart (R331). -/
def splitReady (s : State) (core slot k : Nat) : Bool :=
  match s.group? (gKey core slot) with
  | none => false
  | some g =>
    let sp := g.splits.getD k {}
    sp.v && sp.st == 0 && !g.exited && !g.trapped && peekReady s (.group core slot k)

/-! ### Ranking -/

/-- An agent of a core as R332 and R335 rank it: `det`: it is of a deterministic workgroup, `wave` its logical wave index; `pipe`:
the pipe that its issue takes, 3 for none: the end of a wait, a trap at a header, a spool processor's issue. -/
structure Cand where
  ag : Agent
  slot : Nat := 0
  split : Nat := 0
  age : Nat := 0
  aged : Bool := false
  resid : Nat := 0
  grp : Nat := 16
  det : Bool := false
  wave : Nat := 0
  pipe : Nat := 3
  deriving DecidableEq, Repr

/-- Whether a is older than b (R330). -/
def Cand.older (a b : Cand) : Bool :=
  a.resid < b.resid || (a.resid == b.resid && (a.grp < b.grp || (a.grp == b.grp && a.split < b.split)))

/-- The class in which an agent ranks: aged splits, then the holders of turns, then the others. The manual does not place the
holders among the splits of other workgroups (R335; log 84, DESIGN CHOICE). -/
def Cand.cls (a : Cand) : Nat := if a.aged then 0 else if a.det then 1 else 2

/-- Whether a ranks before b (R332, R335). -/
def Cand.before (a b : Cand) : Bool :=
  a.cls < b.cls || (a.cls == b.cls && (match a.cls with
    | 0 => b.age < a.age || (a.age == b.age && a.older b)
    | 1 => a.wave < b.wave || (a.wave == b.wave && a.older b)
    | _ => a.older b))

/-- The groups resident on a core, by slot. -/
def coreGroups (s : State) (core : Nat) : List (Nat × Group) :=
  (s.groups.filter fun e => e.1 / 48 == core).map fun e => (e.1 % 48, e.2)

/-- The residency number of a group's workgroup. -/
def residOf (s : State) (g : Group) : Nat := ((s.wg? g.wg).map (·.resid)).getD 0

/-- Whether a workgroup's launch is deterministic. -/
def wgDet (s : State) (wid : Nat) : Bool := (s.wg? wid).any fun w => (s.launch? w.lnch).any (·.det)

/-- The logical wave index of group `grp` of a workgroup (R335). -/
def waveOf (s : State) (wid grp : Nat) : Nat := (s.wg? wid).elim 0 fun w => w.ix * w.ngrp + grp

/-- The pipe that the next issue of an agent takes. -/
def nextPipe (s : State) (ag : Agent) (block : Nat) : Nat :=
  match peek s ag with
  | .clause _ c => if block = 1 then 3 else pipeOf (opOf (c.rest.headD 0))
  | _ => 3

/-- The splits of a group that are ready, its place apart (R331); of a stopped workgroup only those within a clause (R390). -/
def readySplits (s : State) (core slot : Nat) (g : Group) : List Cand :=
  (List.range 4).filterMap fun k =>
    let sp := g.splits.getD k {}
    let ag := Agent.group core slot k
    if splitReady s core slot k && (sp.running || !heldBack s g.wg core) then
      some { ag := ag, slot := slot, split := k, age := sp.age, aged := g.agemax < sp.age && !wgDet s g.wg, resid := residOf s g
             grp := g.grp, det := wgDet s g.wg, wave := waveOf s g.wg g.grp, pipe := nextPipe s ag sp.block }
    else none

/-- The spool processors of a core's deterministic workgroups that are ready (R335). -/
def readySpools (s : State) (core : Nat) : List Cand :=
  s.wgs.filterMap fun w =>
    if w.2.core == core && !w.2.saved && wgDet s w.1 && w.2.spool.any (fun p => p.run && !p.trapped && p.issued ≤ s.clock) &&
        peekReady s (.spool w.1) then
      some { ag := .spool w.1, resid := w.2.resid, det := true, wave := waveOf s w.1 (w.2.ngrp - 1) }
    else none

/-- The first of some candidates in the ranking. -/
def firstRanked (cs : List Cand) : Option Cand :=
  cs.foldl (fun best c => match best with
    | none => some c
    | some b => if c.before b then some c else some b) none

/-! ### The order within a cycle (R237, R316) -/

/-- Whether an instruction of workgroup `wid` may not follow, in this cycle, something that has been settled: an arrival or a BARI
after a BARW that has returned, an arrival after a BARI, a stage event after a WAITL or SLNEXT that has returned (log 77). -/
def Seal.bars (wid : Nat) (i : Instr) : Seal → Bool
  | .barSet w n => w == wid && (match i with
    | .bara f => f.d.toNat % 16 == n
    | _ => false)
  | .barRead w n => w == wid && (match i with
    | .bara f | .bari f => f.d.toNat % 16 == n
    | _ => false)
  | .stageRead w => w == wid && (match i with
    | .slbegin _ | .slend _ | .slnext _ | .stadv _ | .stjmp _ | .exit _ => true
    | _ => false)

/-- Whether a group of a lower slot of an agent's workgroup stands at an SLNEXT that is to wait, which takes no issue slot, and so
claims before one of a higher slot in the cycle (R316). -/
def lowerClaims (s : State) (ag : Agent) : Bool :=
  match ag with
  | .group c sl _ => ((agentWg s ag).bind s.wg?).any fun w => w.slots.any fun lo => lo < sl && (List.range 4).any fun k =>
      match clauseOf s (.group c lo k) with
      | some (cl, 0) => cl.started && cl.issueAt ≤ s.clock && (match headInstr cl with
          | some (.slnext _) => atUnmetWait s (.group c lo k) cl && mayReturn s (.group c lo k)
          | _ => false)
      | _ => false
  | _ => false

/-- Whether what this cycle has settled bars an agent's next instruction, or a claim that comes before its own does. -/
def barred (s : State) (ag : Agent) : Bool :=
  match clauseOf s ag with
  | none => false
  | some (c, _) => match headInstr c, agentWg s ag with
    | some i, some wid => s.sealed.any (Seal.bars wid i) || (match i with
        | .slnext _ => lowerClaims s ag
        | _ => false)
    | _, _ => false

/-- Whether the barriers and stage tables that this cycle has settled are as they were. -/
def sealKept (s t : State) : Bool :=
  s.sealed.all fun x => match x with
    | .barSet w n | .barRead w n => (match s.wg? w, t.wg? w with
      | some a, some b => a.bar n == b.bar n
      | _, _ => true)
    | .stageRead w => (match s.wg? w, t.wg? w with
      | some a, some b => a.loop == b.loop && a.pendLoop == b.pendLoop && a.ents == b.ents
      | _, _ => true)

/-- What an instruction that an agent has executed settles for the cycle: a BARI that has not trapped, a wait that has returned. -/
def noteAct (s t : State) (ag : Agent) (i : Instr) : State :=
  match clauseOf s ag, agentWg s ag with
  | some (c, _), some wid =>
    let went := (clauseOf t ag).all fun x => x.1.idx != c.idx
    match went, i with
    | true, .bari f => { t with sealed := .barSet wid (f.d.toNat % 16) :: t.sealed }
    | true, .barw f => { t with sealed := .barRead wid (f.d.toNat % 16) :: t.sealed }
    | true, .waitl _ | true, .slnext _ => { t with sealed := .stageRead wid :: t.sealed }
    | _, _ => t
  | _, _ => t

/-! ### Turns to issue -/

/-- Whether a candidate stands where it may go on in this cycle. -/
def mayGo (s : State) (c : Cand) : Bool :=
  (match clauseOf s c.ag with
    | some (cl, _) => if cl.started then mayReturn s c.ag else mayStart s c.ag
    | none => mayStart s c.ag) &&
  (c.pipe == 3 || ((agentKey c.ag).bind s.group?).all fun g => g.issued ≤ s.clock) && !barred s c.ag

/-- What may go on in this cycle on a core. -/
def candsOf (s : State) (core : Nat) : List Cand :=
  ((coreGroups s core).flatMap (fun g => readySplits s core g.1 g.2) ++ readySpools s core).filter (mayGo s)

/-- Whether a candidate has a pipe to issue on. -/
def Cand.goes (s : State) (core : Nat) (c : Cand) : Bool := c.pipe == 3 || pipeFree s core c.pipe

/-- Whether an agent is the first in the ranking that can issue now on its core (R332). -/
def inTurn (s : State) (core : Nat) (ag : Agent) : Bool :=
  let cs := candsOf s core
  match cs.find? fun c => c.ag == ag with
  | none => false
  | some c => cs.all fun d => !d.before c || !d.goes s core

/-! ### Ages (R39) and timers (R35) -/

/-- Age the splits of a group that were ready and did not issue (R39), those of a group in a swap too, which the manual leaves open
(log 85, DESIGN CHOICE). -/
def ageGroup (s : State) (key : Nat) (g : Group) : Group :=
  { g with splits := g.splits.zipIdx.map fun xi =>
      let x := xi.1
      let issuedNow := g.issued == s.clock + 1 && g.issuedBy == xi.2
      if !issuedNow && splitReady s (key / 48) (key % 48) xi.2 then { x with age := min (x.age + 1) 4095 } else x }

/-- The ages of a group, where time passes for it. The manual says of TIMER that it stands still while the core is halted for
pre-emption, and of AGE nothing: the model lets AGE stand still too (R39; log 85, DESIGN CHOICE). -/
def ageAt (s : State) (e : Nat × Group) : Nat × Group := if stopped s e.1 e.2 then e else (e.1, ageGroup s e.1 e.2)

/-- Count the join timers of a group down (R35). -/
def Group.countDown (g : Group) : Group :=
  { g with splits := g.splits.map fun x => if x.v && x.st == 2 then { x with timer := x.timer - 1 } else x }

/-- The timers of a group, where time passes for it. -/
def countAt (s : State) (e : Nat × Group) : Nat × Group := if stopped s e.1 e.2 then e else (e.1, e.2.countDown)

/-- The timers that have run out in this cycle, after every arrival of the cycle (R35). -/
def expireAll (s : State) : State :=
  s.groups.foldl (fun (s : State) e =>
    if e.2.splits.any Split.expired then (expireHb s e.2 (expireAt s e).2).setGroup e.1 (expireAt s e).2 else s) s

end Sys2Proof.Machine
end

