-- ==== Sys2Proof/Machine/Bridle.lean ====
section
/-! DEFINITION. Swaps between the active and the pending groups of a core (R330, R333), and the bridle (R338). -/

namespace Sys2Proof.Machine

open Sys2Proof

/-! ### Group swaps -/

/-- The youngest of some groups. -/
def youngest (s : State) (gs : List (Nat × Group)) : Option Nat :=
  (gs.foldl (fun (best : Option (Nat × Group)) g => match best with
    | none => some g
    | some b => if residOf s b.2 < residOf s g.2 || (residOf s b.2 == residOf s g.2 && b.2.grp < g.2.grp) then some g else some b)
    none).map (·.1)

/-- The swap that a core may start: the incoming slot and the outgoing one, if any (R333). -/
def swapChoice (s : State) (core : Nat) : Option (Nat × Option Nat) :=
  let c := s.core core
  let gs := coreGroups s core
  let isActive (g : Nat × Group) : Bool := decide (g.1 ∈ c.active)
  let pending := (gs.filter fun g => !isActive g).flatMap fun g => readySplits s core g.1 g.2
  match firstRanked pending with
  | none => none
  | some inc =>
    let idle := (gs.filter isActive).filter fun g => !(g.2.splits.any Split.within)
    if c.active.length < 8 then some (inc.slot, none)
    else match youngest s (idle.filter fun g => (readySplits s core g.1 g.2).isEmpty) with
      | some o => some (inc.slot, some o)
      | none => if pending.any (·.aged) then (youngest s idle).map fun o => (inc.slot, some o) else none

/-- GROUP_SWAP_START (R333). -/
def execGroupSwapStart (core : Nat) (s : State) : Host.Outcome State Fault Refusal :=
  let c := s.core core
  if c.swap.isSome || c.halted then notNow "GROUP_SWAP_START"
  else match swapChoice s core with
    | none => notNow "GROUP_SWAP_START"
    | some (i, o) => .next (s.setCore core { c with swap := some (i, o, s.clock + 3) })

/-- GROUP_SWAP_END (R333): its 4 cycles have passed. -/
def execGroupSwapEnd (core : Nat) (s : State) : Host.Outcome State Fault Refusal :=
  let c := s.core core
  match c.swap with
  | none => notNow "GROUP_SWAP_END"
  | some (i, o, last) =>
    if s.clock ≤ last then notNow "GROUP_SWAP_END"
    else .next (s.setCore core { c with swap := none, active := (c.active.filter fun k => o != some k) ++ [i] })

/-! ### The bridle -/

/-- The number of workgroups of a launch that could be dispatched now but wait (R338). -/
def waitingWgs (s : State) (lid : Nat) (l : Launch) : Nat :=
  if l.killed then 0
  else match taskNode s l with
  | some x => if x.queue.isEmpty then 0 else x.maxwg - (s.wgs.filter fun w => w.2.lnch == lid).length
  | none =>
    if l.k.deps.isEmpty then l.n - l.disp.length
    else if sweepHeld s lid then 0
    else
      let isReady (ix : Nat) : Bool := [0, 1, 2].any fun d => l.ready d ix
      if l.det then (((List.range l.n).drop l.disp.length).takeWhile isReady).length
      else ((List.range l.n).filter fun ix => !decide (ix ∈ l.disp) && isReady ix).length

/-- The waiting workgroups of a partition of a slice. -/
def waitingOf (s : State) (slice : Nat) (gfx : Bool) : Nat :=
  ((s.launches.filter fun l => l.2.ctx.slice == slice && l.2.gfx == gfx).map fun l => waitingWgs s l.1 l.2).sum

/-- The core that the bridle marks (R338): the figure of one partition exceeds twice that of the other, which holds more cores
than its minimum. -/
def bridleMark (x : Slice) (wg wc : Nat) : Option Nat :=
  let g := x.bound
  let c := x.cores - x.bound
  if x.fix || x.marked.isSome then none
  else if 2 * wg * c < wc * g && x.minG < g then some (x.core0 + x.bound - 1)
  else if 2 * wc * g < wg * c && x.minC < c then some (x.core0 + x.bound)
  else none

/-- BRIDLE_EVALUATE (R338), every 25,000 cycles. -/
def execBridleEvaluate (slice : Nat) (s : State) : Host.Outcome State Fault Refusal :=
  match s.slices[slice]? with
  | none => notNow "BRIDLE_EVALUATE"
  | some x =>
    if s.clock < x.lastEval + 25000 then notNow "BRIDLE_EVALUATE"
    else
      let m := bridleMark x (waitingOf s slice true) (waitingOf s slice false)
      .next (bridleSettle (s.modSlice slice fun y => { y with lastEval := s.clock, marked := if m.isSome then m else y.marked }))

end Sys2Proof.Machine
end

