-- ==== Sys2Proof/Machine/Drogue.lean ====
section
/-! DEFINITION. The drogue: pre-emption (R339, R340, R308, R398), the context save area (R341 to R344), late completions
(R340) and resumption (R345). -/

namespace Sys2Proof.Machine

open Sys2Proof

/-! ### The request -/

/-- The cores of a target: KIND 0 a core, 1 a partition, 2 a slice; `none` where R368 rejects it. -/
def targetCores (s : State) (kind target : Nat) : Option (List Nat × Nat) :=
  let sl := s.slices[target % 8]?
  let within (x : Slice) (a n : Nat) : List Nat := (List.range n).map (x.core0 + a + ·)
  match kind with
  | 0 => if target < 144 then
      some ([target], ((List.range s.slices.length).find? fun n => (s.slice n).core0 ≤ target &&
        target < (s.slice n).core0 + (s.slice n).cores).getD 0) else none
  | 1 => match sl with
    | some x => if 16 ≤ target then none
        else some (if target / 8 = 1 then within x 0 x.bound else within x x.bound (x.cores - x.bound), target % 8)
    | none => none
  | 2 => match sl with
    | some x => if 8 ≤ target then none else some (within x 0 x.cores, target)
    | none => none
  | _ => none

/-- The restorations in progress halt, and their RESUME commands complete (R340). -/
def haltResumes (s : State) : State :=
  let s1 := s.saves.foldl (fun (s : State) sv => match sv.2.resuming with
    | some c => s.cmdReady c
    | none => s) s
  { s1 with saves := s1.saves.map fun (e : Nat × Save) => (e.1, { e.2 with resuming := none }) }

/-- Halt some cores (R339). -/
def haltCores (s : State) (cores : List Nat) (h : Bool) : State :=
  cores.foldl (fun (s : State) c => s.setCore c { s.core c with halted := h }) s

/-- The pre-emption of the same target that is in progress (R339). -/
def sameTarget (s : State) (kind target : Nat) : Option Nat :=
  (s.saves.find? fun sv => sv.2.halting && sv.2.kind == kind && sv.2.target == target).map (·.1)

/-- PREEMPT (R339, R368): the cores of the target halt; a second request for it merges with the first. -/
def execPreempt (q : Nat) (s : State) : Host.Outcome State Fault Refusal := serveCmd "PREEMPT" 0x11 q s fun c s =>
  let w := c.f 0x18 8
  let kind := bits w 0 2
  let tier := bits w 2 2
  let target := bits w 16 16
  if tier = 3 ∨ bits w 4 12 ≠ 0 ∨ bits w 32 32 ≠ 0 then rejectCmd s q c.n 2
  else match targetCores s kind target with
    | none => rejectCmd s q c.n 2
    | some (cores, slice) =>
      let area := c.f 0x20 8
      let size := c.f 0x28 8
      let s0 := haltResumes s
      let cmdId := s0.nextId
      match sameTarget s0 kind target with
      | some sv =>
        let s1 := startCmd s0 c (.preempt sv) false
        { s1 with saves := Tab.modify s1.saves sv fun x => { x with cmds := x.cmds ++ [(cmdId, tier, area, size)] } }
      | none =>
        let sv := cmdId + 1
        let s1 := startCmd s0 c (.preempt sv) false
        let x : Save := { cores := cores, kind := kind, target := target, tier := tier, area := area, size := size
                          cmds := [(cmdId, tier, area, size)], slice := slice }
        haltCores { s1 with nextId := sv + 1, saves := Tab.put s1.saves sv x } cores true

/-! ### The layout of the area -/

/-- Bytes of a given length with parts laid at offsets, zero elsewhere. -/
def layout (n : Nat) (parts : List (Nat × List Byte)) : List Byte :=
  parts.foldl (fun bs p => bs.take p.1 ++ p.2 ++ bs.drop (p.1 + p.2.length)) (List.replicate n 0)

/-- A little-endian number as a part. -/
def num (off n x : Nat) : Nat × List Byte := (off, bytesOfNat n x)
/-- 1 for true. -/
def b1 (p : Bool) : Nat := if p then 1 else 0
/-- An address with a valid bit 63. -/
def optAddr (a : Option (BitVec 56)) : Nat := match a with
  | some x => x.toNat + 2 ^ 63
  | none => 0
/-- Words as a part. -/
def wordsPart (off : Nat) (ws : List Word) : Nat × List Byte := (off, ws.flatMap bytesOfWord)

/-- The address at which a halted agent goes on: of its next instruction where it stands within a clause or before a held one, else
of its header (R25, R31). -/
def haltPc (pc : DWord) (cl : Option Clause) (block : Nat) : BitVec 56 := match cl with
  | some c => if c.started && (0 < c.idx || block == 2) then pc56 c.at_ else pc56 pc
  | none => pc56 pc

/-- A split in the layout of R343. -/
def splitPart (k : Nat) (x : Split) : List (Nat × List Byte) :=
  [num (32 * k) 8 x.mask.toNat, num (32 * k + 8) 8 ((haltPc x.pc x.cl x.block).toNat + b1 x.v * 2 ^ 63), num (32 * k + 16) 8 (optAddr x.j),
   num (32 * k + 24) 4 (x.je % 4 + x.st % 4 * 4 + x.age % 4096 * 16 + x.n * 65536), num (32 * k + 28) 2 x.timer]

/-- A join entry in the layout of R343. -/
def joinPart (e : Nat) (x : JoinEnt) : List (Nat × List Byte) :=
  let o := 0x80 + 40 * e
  [num o 8 (x.ja.toNat + b1 x.v * 2 ^ 63), num (o + 8) 8 x.jm.toNat, num (o + 16) 8 x.arr.toNat, num (o + 24) 8 (optAddr x.oj),
   num (o + 32) 8 (x.out % 4)]

/-- The TIOP of a group that is in progress. -/
def tiopOf (s : State) (ag : Agent) : Option (Op × Tiop) :=
  s.ops.findSome? fun o => match o.k with
    | .tiop t => if sameAgent o.ag ag && !o.done then some (o, t) else none
    | _ => none

/-- A TIOP in progress in the layout of R343. -/
def tiopPart (x : Option (Op × Tiop)) : List (Nat × List Byte) := match x with
  | none => []
  | some (o, t) =>
    [num 0x900 4 (1 + t.mode * 2 + t.ty * 8 + t.reg * 128 + t.n * 32768 + t.hnd * 2 ^ 21), num 0x904 4 (o.tok.getD 0),
     num 0x908 8 t.act.toNat, wordsPart 0xA00 ((List.range W).map (laneAt t.ofs))]

/-- A group block of R343. -/
def groupBlock (s : State) (l : Launch) (g : Group) (ag : Agent) : List Byte :=
  let mode := b1 g.chksb + b1 l.det * 2 + b1 l.ctx.ns * 4
  layout (4096 + 4 * W * l.k.regs)
    (g.splits.zipIdx.flatMap (fun xi => splitPart xi.2 xi.1) ++ g.joins.zipIdx.flatMap (fun xi => joinPart xi.2 xi.1) ++
     [num 0xF8 4 g.stack.length, num 0xFC 4 g.stks, (0x100, g.stack.flatMap StackEnt.bytes),
      wordsPart 0x400 ((List.range 128).map g.rs), (0x600, (List.range 7).flatMap fun i => bytesOfNat 8 (g.rp (i + 1)).toNat),
      (0x640, (List.range 16).flatMap fun n => bytesOfNat 1 (g.tok n)), (0x650, (List.range 8).flatMap fun n => bytesOfNat 1 (g.cnt n)),
      num 0x658 4 g.fpstat.toNat, num 0x65C 4 mode, num 0x660 4 g.agemax, num 0x664 4 (g.iter.getD 0xFFFFFFFF).toNat,
      num 0x668 4 (g.stage.toNat + g.lp % 4 * 65536 + b1 g.hold * 2 ^ 18), num 0x66C 4 (b1 g.exited),
      wordsPart 0x700 ((List.range W).map fun i => Tab.get 0 g.draw i),
      wordsPart 0x800 ((List.range 4).flatMap fun h => (List.range 16).map fun i => (Tab.get [] g.ti h).getD i 0),
      wordsPart 0x1000 ((List.range l.k.regs).flatMap fun k => (List.range W).map (g.rv k))] ++
     tiopPart (tiopOf s ag))

/-- The matrix part of a record: MRP, the tiles' states and the queued commands (R342, R254). -/
def matrixPart (s : State) (m : Matrix) : List (Nat × List Byte) :=
  let cmd (k id : Nat) : List (Nat × List Byte) := match s.op? id with
    | none => []
    | some o =>
      let o' := 0x410 + 48 * k
      let rest : List (Nat × List Byte) := match o.k with
        | .mloop _ blk n _ _ _ _ => [wordsPart (o' + 8) blk, num (o' + 40) 4 n]
        | _ => []
      num o' 4 o.par0.toNat :: num (o' + 4) 4 o.par1.toNat :: rest
  let loop := m.running.any fun id => (s.op? id).any fun o => match o.k with
    | .mloop .. => true
    | _ => false
  [num 0x400 4 (m.step + m.row * 65536 + b1 loop * 2 ^ 31),
   num 0x404 4 (m.head.getD 0 + b1 m.opened * 16 + b1 m.i32 * 32 + m.pub.length * 64 + m.nextRow * 2048 + m.queue.length * 2 ^ 17),
   num 0x408 8 (m.pub.zipIdx.foldl (fun x ti => x + ti.1 * 16 ^ ti.2) 0)] ++
  m.queue.zipIdx.flatMap fun ik => cmd ik.2 ik.1

/-- A staged loop's first word. -/
def loopWord (x : Option SLoop) : Nat := match x with
  | none => 0
  | some o => 1 + o.id * 2 + o.t * 16 + o.mem * 1024 + o.joined * 2 ^ 15 + o.ended * 2 ^ 20

/-- The staged-loop part of a record (R342, R309). -/
def loopPart (w : Wg) : List (Nat × List Byte) :=
  let pd := w.pendLoop.map fun o => { o with ended := 0 }
  [num 0x140 4 (loopWord w.loop), num 0x144 4 ((w.loop.map (·.n.toNat)).getD 0), num 0x148 4 ((w.loop.map (·.next.toNat)).getD 0),
   num 0x150 4 (loopWord pd), num 0x154 4 ((pd.map (·.n.toNat)).getD 0)] ++
  w.ents.map fun e => num (0x160 + 8 * e.1) 8 (e.2.it.toNat + e.2.stg.toNat * 2 ^ 32 + b1 e.2.v * 2 ^ 48)

/-- The spool part of a record (R342, R263). -/
def spoolPart (w : Wg) : List (Nat × List Byte) := match w.spool with
  | none => []
  | some p =>
    [wordsPart 0x260 ((List.range 64).map fun i => Tab.get 0 p.s i), num 0x360 8 ((haltPc p.pc p.cl p.block).toNat + b1 p.run * 2 ^ 63),
     num 0x368 4 w.mbox.length, wordsPart 0x380 w.mbox]

/-- The length of the implementation-owned contents of an engine record of KIND 2 or 3, and of a raster checkpoint: the model's own choice. -/
def privateLen : Nat := 64

/-- An engine record (R344); `none` where the operation has none. -/
def engineRecord (o : Op) (slice : Bool) : Option (List Byte) :=
  let ownBytes (kind : Nat) : List Byte :=
    bytesOfNat 4 (kind + privateLen * 256) ++ (List.range (privateLen - 4)).map fun i => Config.privateByte (o.id * privateLen + i)
  match o.k with
  | .tcopy _ _ blk c => some (layout 0x58 [num 0 4 (1 + 0x58 * 256), num 4 4 o.par0.toNat, num 8 4 o.par1.toNat, wordsPart 12 blk,
                                           (0x4C, c.flatMap fun x => bytesOfNat 2 x)])
  | .rtrace .. => some (ownBytes 2)
  | .drawv .. => if slice then some (ownBytes 3) else none
  | _ => none

/-- Whether an outstanding operation is one of the late completions of R340; a pass that its slice's pre-emption has
checkpointed is not. -/
def lateOp (s : State) (o : Op) : Bool := match o.k with
  | .sys .. | .coll .. | .reg => true
  | .drawv .. => !(s.passes.any fun p => p.op == o.id && p.stopped)
  | _ => false

/-- The outstanding operations of a workgroup. -/
def opsOfWg (s : State) (wid : Nat) : List Op := s.ops.filter fun o => o.wg == wid && !o.done

/-- The parts of a record after the group blocks: accumulators, held ranges, the window, the engine records. -/
structure Parts where
  acc : List Byte
  ob : List Byte
  vlt : List Byte
  eng : List (List Byte)

/-- What a workgroup's record holds apart from its groups. -/
def partsOf (s : State) (w : Wg) (wid : Nat) (mx : Option Matrix) (slice : Bool) : Parts :=
  { acc := match mx with
      | none => []
      | some m => (List.range (16 * 64)).flatMap fun r => (List.range 64).flatMap fun j => bytesOfWord (laneAt (Tab.get [] m.acc r) j)
    ob := w.heldRanges.flatMap fun r => (List.range r.2).map fun i => s.byte (mKey (148 + w.core) (r.1 + i))
    vlt := (List.range w.vwsize).map fun i => s.byte (mKey (4 + w.core) (w.vwbase + i))
    eng := (opsOfWg s wid).filterMap fun o => engineRecord o slice }

/-- The offset of the first part after the group blocks. -/
def blocksEnd (l : Launch) : Nat := 0x1000 + l.ngrp * (4096 + 4 * W * l.k.regs)

/-- The offsets of the four parts. -/
def partOffsets (l : Launch) (p : Parts) : Nat × Nat × Nat × Nat :=
  let a := blocksEnd l
  let o := a + p.acc.length
  let v := o + p.ob.length
  (a, o, v, v + p.vlt.length)

/-- The length of a record: a multiple of 4 KiB (R342). -/
def recordLen (l : Launch) (p : Parts) : Nat :=
  ((partOffsets l p).2.2.2 + (p.eng.map List.length).sum + 4095) / 4096 * 4096

/-- LREF of R342. -/
def lrefOf (l : Launch) : Nat := l.lid.toNat + l.q * 2 ^ 32 + (match l.node with
  | some (_, n) => n
  | none => 0x1FF) * 2 ^ 38

/-- A workgroup record (R342), from the groups saved and the parts. -/
def recordBytes (s : State) (wid : Nat) (w : Wg) (l : Launch) (gs : List (Group × Agent)) (mx : Option Matrix) (p : Parts) : List Byte :=
  let (oa, oo, ov, oe) := partOffsets l p
  let at_ (o : Nat) (bs : List Byte) : Nat := if bs.isEmpty then 0 else o
  let late := ((opsOfWg s wid).filter (lateOp s)).length
  let flags := w.ngrp + b1 w.spool.isSome * 32 + b1 mx.isSome * 64 + b1 l.k.staged * 128 + b1 l.det * 256 + late % 256 * 65536 + b1 w.dropped * 2 ^ 24
  layout (recordLen l p)
    ([num 0 4 (recordLen l p), num 4 4 flags, num 8 4 (w.core + l.ctx.slice * 256), num 0xC 4 w.ix,
      num 0x10 4 (w.wx + w.wy * 65536), num 0x14 4 w.wz, num 0x18 8 (lrefOf l), num 0x20 4 w.vwbase, num 0x24 4 w.vwsize,
      num 0x28 4 l.k.regs, num 0x30 8 (at_ oa p.acc), num 0x38 8 (at_ oo p.ob), num 0x40 8 (at_ ov p.vlt),
      num 0x48 8 (at_ oe p.eng.flatten), num 0x50 4 p.eng.length,
      wordsPart 0x80 ((List.range 16).map fun n => (w.bar n).word),
      wordsPart 0xC0 ((List.range 8).flatMap fun n => (List.range 4).map fun i => (Tab.get [] w.obr n).getD i 0),
      (oa, p.acc), (oo, p.ob), (ov, p.vlt), (oe, p.eng.flatten)] ++
     loopPart w ++ spoolPart w ++ (match mx with
       | some m => matrixPart s m
       | none => []) ++
     gs.zipIdx.map fun gi => (0x1000 + gi.2 * (4096 + 4 * W * l.k.regs), groupBlock s l gi.1.1 gi.1.2))

/-- The header of an area (R341). -/
def headerBytes (count : Nat) (done ovf rast : Bool) (used rastOfs : Nat) : List Byte :=
  layout 256 [num 0 2 count, num 4 4 (b1 done + b1 ovf * 2 + b1 rast * 4), num 8 8 used, num 0x10 8 rastOfs]

/-- Write bytes of an area, where its space has them. -/
def writeArea (s : State) (tier addr : Nat) (bs : List Byte) : State :=
  s.writeBytes (bs.zipIdx.filterMap fun bi =>
    if (tier = 0 ∧ 2 ^ 39 ≤ addr + bi.2) ∨ (tier = 1 ∧ 2 ^ 40 ≤ addr + bi.2) then none else some (mKey tier (addr + bi.2), bi.1))

/-- Whether an area lies within its space. -/
def areaFits (tier area size used : Nat) : Bool :=
  used ≤ size && (tier != 0 || area + used ≤ 2 ^ 39) && (tier != 1 || area + used ≤ 2 ^ 40)

/-! ### The save -/

/-- The workgroups that a pre-emption saves: those resident on its cores that are not frozen (R398). -/
def toSave (s : State) (sv : Save) : List (Nat × Wg) :=
  s.wgs.filter fun w => !w.2.saved && decide (w.2.core ∈ sv.cores) && !frozen s w.1 && !((s.launch? w.2.lnch).any (·.killed))

/-- Whether an operation may still be outstanding when its workgroup is saved (R339); what an agent has asked peers for is asked
again. -/
def outlastsHalt (s : State) (o : Op) : Bool := o.done || (o.fault.isNone && (lateOp s o && o.k != .reg || (match o.k with
  | .tiop _ | .mloop .. | .mpub | .tcopy .. | .rtrace .. | .drawv .. | .far => true
  | _ => false)))

/-- The groups of a resident workgroup with their agents. -/
def groupsOfWg (s : State) (w : Wg) : List (Nat × Group) :=
  w.slots.filterMap fun sl => (s.group? (gKey w.core sl)).map fun g => (sl, g)

/-- Whether a split has come to its halt: it is outside a clause, or before an instruction held in place (R339, R25). -/
def splitHalted (s : State) (w : Wg) (sl k : Nat) (x : Split) : Bool :=
  !x.within || (match x.cl with
    | some c => nextHeld s (.group w.core sl k) c
    | none => true)

/-- Whether a workgroup is one of a sweep. -/
def sweeps (s : State) (w : Wg) : Bool := (s.launch? w.lnch).any fun l => !l.k.deps.isEmpty

/-- Whether a workgroup has come to its halt, with everything complete that R339 lets complete; one whose groups have all exited
retires first, where it can, and in a sweep whatever it waits for (R308). -/
def wgHalted (s : State) (sv : Save) (wid : Nat) (w : Wg) : Bool :=
  let gs := groupsOfWg s w
  (gs.all fun g => g.2.splits.zipIdx.all fun xi => splitHalted s w g.1 xi.2 xi.1) &&
  (s.ops.filter fun o => o.wg == wid).all (outlastsHalt s) &&
  !(sv.kind != 0 && gs.all (·.2.exited) && (sweeps s w || !wgBusy s wid))

/-- Whether a pre-emption's cores are halted. -/
def saveReady (s : State) (sv : Save) : Bool :=
  sv.halting && (sv.cores.all fun c => (s.core c).swap.isNone) && (toSave s sv).all fun w => wgHalted s sv w.1 w.2

/-- The scoreboards of the sweeps of a slice are written back, and every die's copy then holds every bit (R308); a write-back serves
the workgroup that retired last (R438). -/
def backBoards (s : State) (sv : Save) : State :=
  if sv.kind = 0 then s
  else (s.launches.filter fun l => !l.2.k.deps.isEmpty && !l.2.killed && l.2.ctx.slice == sv.slice).foldl (fun (s : State) l =>
    match boardWrite s l.1 l.2 (l.2.done.getLast?.getD 0) l.2.boardBytes with
    | .error m => launchFault s l.1 m 0 (l.2.done.getLast?.getD 0)
    | .ok s1 => s1.modLaunch l.1 fun x => { x with die0 := x.done, die1 := x.done, die2 := x.done }) s

/-- The passes of a slice are checkpointed (R300). -/
def stopPasses (s : State) (slice : Nat) (stop : Bool) : State :=
  { s with passes := s.passes.map fun p => if p.slice = slice then { p with stopped := stop } else p }

/-- The agent under which the operations of a saved group stand. -/
def savedAgent (wid sl k : Nat) : Agent := .group (1000 + wid) sl k

/-- What published tiles carry goes with the matrix resource: `a` and `b` are its core, or 1000 plus the saved workgroup. -/
def moveTiles (s : State) (a b : Nat) : State := (s.setChan (.tile b) (s.chan (.tile a))).setChan (.tile a) []

/-- The key of a saved group in its save. -/
def savedKey (wid grp : Nat) : Nat := 64 * wid + grp

/-- A group as it is saved: its results have landed, and the counters of completed operations have fallen (R339). -/
def savedGroup (s : State) (g : Group) (ag : Agent) : Group :=
  let g1 := g.land (g.fixes.foldl (fun m e => max m e.ready) 0)
  (s.ops.filter fun o => o.done && sameAgent o.ag ag).foldl (fun (g : Group) o => match o.cnt with
    | some c => g.cntDown c
    | none => g) g1

/-- What the operations of a workgroup have done so far stands before it is saved: a TIOP's registers have landed (R210), what the
completed ones released is with their carriers, and what was asked of peers is forgotten. -/
def settleOps (s : State) (wid : Nat) : State :=
  let mine := s.ops.filter fun o => o.wg == wid
  let s1 := mine.foldl (fun (s : State) o => match o.k, agentKey o.ag with
    | .tiop _, some key => if o.done then s else landSoFar s o.id key
    | _, _ => s) s
  let over_ := mine.filter (·.done)
  let s2 := over_.foldl counterPast s1
  let isFar_ (o : Op) : Bool := match o.k with
    | .far => true
    | _ => false
  forgetOpHb { s2 with ops := s2.ops.filter fun o => !(o.wg == wid && isFar_ o) } (over_.map (·.id))

/-- Set a workgroup aside: its groups and matrix go to the save, its operations stand under the saved agents, and its core is
free of it. -/
def setAside (s0 : State) (svId : Nat) (wid off : Nat) (w : Wg) (l : Launch) : State :=
  let s1 := settleOps s0 wid
  let s := if l.k.matrix then moveTiles s1 w.core (1000 + wid) else s1
  let gs := groupsOfWg s w
  let c := s.core w.core
  let kept := gs.map fun g => (savedKey wid g.2.grp, savedGroup s g.2 (.group w.core g.1 0))
  let move (o : Op) : Op := if o.wg = wid then match o.ag with
      | .group _ sl k => { o with ag := savedAgent wid sl k }
      | _ => o
    else o
  { s with
    saves := Tab.modify s.saves svId fun x =>
      { x with saved := x.saved ++ kept, recs := x.recs ++ [(off, wid)], mxs := if l.k.matrix then x.mxs ++ [(wid, c.mx)] else x.mxs }
    wgs := Tab.modify s.wgs wid fun x => { x with saved := true }
    groups := s.groups.filter fun e => !(e.1 / 48 == w.core && decide (e.1 % 48 ∈ w.slots))
    ops := (s.ops.filter fun o => !(o.done && o.wg == wid)).map move
    cores := Tab.put s.cores w.core { c.without w.slots with mx := if l.k.matrix then {} else c.mx } }

/-- The saved groups of a workgroup with the agents of their operations, in GRPID order. -/
def savedGroups (sv : Save) (wid : Nat) (w : Wg) : List (Group × Agent) :=
  (List.range w.ngrp).filterMap fun g => (Tab.find? sv.saved (savedKey wid g)).map fun x => (x, savedAgent wid (w.slots.getD g 0) 0)

/-- Write the record of a saved workgroup. -/
def writeRecord (s : State) (svId wid off : Nat) (p : Parts) : State :=
  match Tab.find? s.saves svId, s.wg? wid with
  | some sv, some w => match s.launch? w.lnch with
    | none => s
    | some l => writeArea s sv.tier (sv.area + off) (recordBytes s wid w l (savedGroups sv wid w) (Tab.find? sv.mxs wid) p)
  | _, _ => s

/-- Save workgroups one after another, each record behind the one before it. -/
def saveAll (s : State) (svId : Nat) (slice : Bool) : List (Nat × Wg × Launch × Parts) → Nat → State
  | [], _ => s
  | (wid, w, l, p) :: xs, off =>
    saveAll (writeRecord (setAside s svId wid off w l) svId wid off p) svId slice xs (off + recordLen l p)

/-- The commands of a save complete. -/
def saveCmds (s : State) (sv : Save) : State := sv.cmds.foldl (fun (s : State) c => s.cmdReady c.1) s

/-- The areas of merged requests receive a header of their own (R339). -/
def mergedHeaders (s : State) (sv : Save) (ovf : Bool) : State :=
  (sv.cmds.drop 1).foldl (fun (s : State) c => writeArea s c.2.1 c.2.2.1 (headerBytes 0 (!ovf) ovf false 256 0)) s

/-- Release the cores of a save that no other save halts. -/
def releaseCores (s : State) (sv : Save) : State :=
  haltCores s (sv.cores.filter fun c => !(s.saves.any fun x => x.2.halting && decide (c ∈ x.2.cores))) false

/-- The records of a set of workgroups, with the parts of each. -/
def recordsOf (s : State) (sv : Save) : List (Nat × Wg × Launch × Parts) :=
  (toSave s sv).filterMap fun e => (s.launch? e.2.lnch).map fun l =>
    (e.1, e.2, l, partsOf s e.2 e.1 (if l.k.matrix then some (s.core e.2.core).mx else none) (sv.kind == 2))

/-! ### Resumption -/

/-- Whether late completions of a save's workgroups are still to be applied. -/
def latePending (s : State) (sv : Save) : Bool :=
  sv.recs.any fun r => (s.wg? r.2).any (·.saved) && (opsOfWg s r.2).any (lateOp s)

/-- Whether a PREEMPT that writes to an area is in progress. -/
def areaBusy (s : State) (tier area : Nat) : Bool :=
  s.saves.any fun sv => sv.2.halting && sv.2.cmds.any fun c => c.2.1 == tier && c.2.2.1 == area

/-- The last save that wrote records to an area. -/
def saveAt (s : State) (tier area : Nat) : Option (Nat × Save) :=
  (s.saves.filter fun sv => sv.2.done && sv.2.tier == tier && sv.2.area == area).getLast?

/-- A RESUME command goes on as far as it can (R345). -/
def goResume (s : State) (id : Nat) (c : Cmd) (tier area : Nat) : State :=
  let word (off : Nat) : Nat := s.readNat (mKey tier (area + off)) 4
  if areaBusy s tier area || (saveAt s tier area).any (fun x => latePending s x.2) then s
  else if word 4 % 4 ≠ 1 then queueErr (dropCmd s id c) c.q c.slot 2
  else match saveAt s tier area with
    | none => s.cmdReady id
    | some (k, sv) =>
      let s1 := if sv.kind = 2 then stopPasses s sv.slice false else s
      if word 0 % 65536 = 0 || sv.recs.all fun r => restored s sv r.1 then s1.cmdReady id
      else { s1 with saves := Tab.modify s1.saves k fun x => { x with resuming := some id } }

/-- Let every RESUME that waits go on. -/
def goResumes (s : State) : State :=
  s.cmds.foldl (fun (s : State) c => match c.2.k with
    | .resume t a => if c.2.ready || s.saves.any (fun x => x.2.resuming == some c.1) then s else goResume s c.1 c.2 t a
    | _ => s) s

/-- CONTEXT_SAVE (R339 to R341): once the halt is complete, the records and then the header are written; an area that is too
small receives OVF, and nothing is altered. -/
def execContextSave (save : Nat) (s : State) : Host.Outcome State Fault Refusal :=
  match Tab.find? s.saves save with
  | none => notNow "CONTEXT_SAVE"
  | some sv =>
    if !saveReady s sv then notNow "CONTEXT_SAVE"
    else
      let rast := sv.kind == 2 && s.passes.any fun p => p.slice == sv.slice
      let lastOf (xs : List (Nat × Wg × Launch × Parts)) : Nat := 0x1000 + (xs.map fun x => recordLen x.2.2.1 x.2.2.2).sum
      let usedBy (xs : List (Nat × Wg × Launch × Parts)) : Nat := if rast then lastOf xs + privateLen else if xs.isEmpty then 256 else lastOf xs
      let fin (s : State) (ok : Bool) : State :=
        let s' := { s with saves := Tab.modify s.saves save fun x => { x with halting := false, done := ok, ovf := !ok, histAt := s.histLen } }
        goResumes (releaseCores (saveCmds (mergedHeaders s' sv (!ok)) sv) sv)
      if !areaFits sv.tier sv.area sv.size (usedBy (recordsOf s sv)) then
        .next (fin (writeArea s sv.tier sv.area (headerBytes 0 false true false 256 0)) false)
      else
        let s1 := backBoards s sv
        let xs := recordsOf s1 sv
        let last := lastOf xs
        let s2 := saveAll (if rast then stopPasses s1 sv.slice true else s1) save (sv.kind == 2) xs 0x1000
        let s3 := if rast then writeArea s2 sv.tier (sv.area + last) ((List.range privateLen).map fun i => Config.privateByte i) else s2
        .next (fin (writeArea s3 sv.tier sv.area (headerBytes xs.length true false rast (usedBy xs) (if rast then last else 0))) true)

/-! ### Late completions -/

/-- The save that holds a workgroup, with the offset of its record. -/
def saveOf (s : State) (wid : Nat) : Option (Nat × Save × Nat) :=
  s.saves.findSome? fun sv => if sv.2.done then (sv.2.recs.find? fun r => r.2 == wid).map fun r => (sv.1, sv.2, r.1) else none

/-- A late completion as it is applied to a saved group: its writes, flags, token and counter. -/
def Group.applyLate (g : Group) (o : Op) : Group :=
  let g1 := g.landWrs o.wrs
  let g2 := { g1 with fpstat := g1.fpstat ||| o.flags }
  let g3 := match o.tok with
    | some n => g2.tokDown n
    | none => g2
  match o.cnt with
  | some n => g3.cntDown n
  | none => g3

/-- A saved workgroup of a killed launch is gone once its last late completion has been applied (R395). -/
def leaveDropped (s : State) (wid : Nat) : State :=
  match s.wg? wid with
  | none => s
  | some w => if w.dropped && !wgBusy s wid then reap (bridleSettle { s with wgs := Tab.erase s.wgs wid }) w.lnch else s

/-- LATE_COMPLETION_APPLY (R340): the image of a saved workgroup receives a late completion, and its LATE count falls. -/
def execLateCompletionApply (id : Nat) (s : State) : Host.Outcome State Fault Refusal :=
  match s.op? id with
  | none => notNow "LATE_COMPLETION_APPLY"
  | some o => match saveOf s o.wg, s.wg? o.wg with
    | some (k, sv, off), some w =>
      if o.k != .reg || !w.saved then notNow "LATE_COMPLETION_APPLY"
      else
        let grp := match o.ag with
          | .group _ sl _ => w.slots.findIdx? (· == sl)
          | _ => none
        let s1 := { s with
          ops := s.ops.filter fun x => x.id != id
          saves := match grp with
            | some g => Tab.modify s.saves k fun x => { x with saved := Tab.modify x.saved (savedKey o.wg g) (·.applyLate o) }
            | none => s.saves }
        let s2 := if grp.isNone then s1.modWg o.wg (·.spoolWrites o.wrs) else s1
        let s3 := match o.bar with
          | some b => s2.modWg o.wg (·.arrive b 1)
          | none => s2
        let area (o n : Nat) : List Byte := (List.range n).map fun i => s3.byte (mKey sv.tier (sv.area + off + o + i))
        match s3.launch? w.lnch with
        | none => .next s3
        | some l =>
          let p0 := partsOf s3 w o.wg (Tab.find? sv.mxs o.wg) (sv.kind == 2)
          let os := partOffsets l p0
          let p : Parts := { p0 with ob := area os.2.1 p0.ob.length, vlt := area os.2.2.1 p0.vlt.length }
          .next (leaveDropped (goResumes (writeRecord s3 k o.wg off p)) o.wg)
    | _, _ => notNow "LATE_COMPLETION_APPLY"

/-- RESUME (R345, R368): the command is consumed, and goes on as far as it can. -/
def execResume (q : Nat) (s : State) : Host.Outcome State Fault Refusal := serveCmd "RESUME" 0x12 q s fun c s =>
  let w := c.f 0x18 8
  if bits w 0 2 ≠ 0 ∨ bits w 2 2 = 3 ∨ bits w 4 60 ≠ 0 then rejectCmd s q c.n 2
  else goResumes (startCmd s c (.resume (bits w 2 2) (c.f 0x20 8)) false)

/-- Whether a core can give a saved workgroup its old place; a mark of the bridle keeps nothing saved away (R345, R338). -/
def canRestore (s : State) (w : Wg) (l : Launch) : Bool :=
  let rs := residents s w.core
  inPartition s l w.core && !(s.core w.core).halted && coreHolds s l w.core &&
  (w.slots.all fun sl => (s.group? (gKey w.core sl)).isNone) &&
  (rs.all fun r => r.2.1.vwsize == 0 || w.vwsize == 0 || !overlap w.vwbase w.vwsize r.2.1.vwbase r.2.1.vwsize) &&
  rs.all fun r => w.heldRanges.all fun a => r.2.1.heldRanges.all fun b => !overlap a.1 a.2 b.1 b.2

/-- A byte of an operand buffer or window returns to its place: one that nothing has written since the save is as its last write left
it; over another's write that last write stands again, with what it releases (R345). -/
def restoreByte (s : State) (sv : Save) (k : Nat) (b : Byte) : State :=
  match (s.writesOf k).find? fun r => r.seq < sv.histAt, (s.writesOf k).head? with
  | some r, some top =>
    if top.seq < sv.histAt ∧ s.byte k = b then s
    else { s.putByte { r with seq := s.histLen } b with histLen := s.histLen + 1 }
  | none, none => if s.byte k = b then s else s.setByte k b
  | _, _ => s.setByte k b

/-- The operand-buffer and window bytes of a record return to their places. -/
def restoreBytes (s : State) (sv : Save) (off : Nat) (w : Wg) : State :=
  let src (part i : Nat) : Byte := s.byte (mKey sv.tier (sv.area + off + part + i))
  let at_ (o : Nat) : Nat := s.readNat (mKey sv.tier (sv.area + off + o)) 8
  let obs := w.heldRanges.flatMap fun r => (List.range r.2).map fun i => mKey (148 + w.core) (r.1 + i)
  let vlt := (List.range w.vwsize).map fun i => mKey (4 + w.core) (w.vwbase + i)
  let kbs := (obs.zipIdx.map fun ki => (ki.1, src (at_ 0x38) ki.2)) ++ vlt.zipIdx.map fun ki => (ki.1, src (at_ 0x40) ki.2)
  (kbs.foldl (fun s kb => restoreByte s sv kb.1 kb.2) s).cleanse (kbs.map (·.1))

/-- A split as it resumes: within a clause it goes on, else its clause is fetched anew. -/
def Split.resumed (x : Split) : Split :=
  match x.cl with
  | some c => if c.inside || (c.started && x.block == 2) then x else { x with cl := none, block := 0 }
  | none => x

/-- The reader of little-endian fields of a record from a place on. -/
abbrev Fields := Nat → Nat → Nat

/-- A table in which the entries below `n` are the fields; what is as it was stays as it was. -/
def putFields {α : Type} [DecidableEq α] (d : α) (t : Tab α) (first n : Nat) (f : Nat → α) : Tab α :=
  (List.range n).foldl (fun t i => if Tab.get d t (first + i) = f (first + i) then t else Tab.put t (first + i) (f (first + i))) t

/-- An address of R343 with its valid bit. -/
def addrField (x : Nat) : Option (BitVec 56) := if bit x 63 then some (BitVec.ofNat 56 x) else none

/-- A split as a group block gives it; at another PC it stands before a header. -/
def splitFrom (rd : Fields) (k : Nat) (x : Split) : Split :=
  let p := rd (32 * k + 8) 8
  let w := rd (32 * k + 24) 4
  let y : Split :=
    { x with v := bit p 63, mask := BitVec.ofNat 64 (rd (32 * k) 8), j := addrField (rd (32 * k + 16) 8), je := bits w 0 2, st := bits w 2 2
             age := bits w 4 12, n := bits w 16 16, timer := rd (32 * k + 28) 2 }
  if haltPc x.pc x.cl x.block = BitVec.ofNat 56 p then y else { y with pc := addr56 (BitVec.ofNat 56 p), cl := none, block := 0 }

/-- A join entry as a group block gives it. -/
def joinFrom (rd : Fields) (e : Nat) : JoinEnt :=
  let o := 0x80 + 40 * e
  let a := rd o 8
  ⟨bit a 63, BitVec.ofNat 56 a, BitVec.ofNat 64 (rd (o + 8) 8), BitVec.ofNat 64 (rd (o + 16) 8), addrField (rd (o + 24) 8), bits (rd (o + 32) 8) 0 2⟩

/-- A saved group as the bytes of its block stand; what the block does not hold is as it was saved (R344, log 88). -/
def groupFrom (rd : Fields) (regs : Nat) (g : Group) : Group :=
  let word (o : Nat) : Word := BitVec.ofNat 32 (rd o 4)
  let lanesAt (r : Nat) : Lanes := (List.range W).map fun l => word (0x1000 + 4 * W * r + 4 * l)
  let fresh := (List.range regs).filter fun r => lanesAt r != (List.range W).map (g.rv r)
  let st := rd 0x668 4
  { g with
    splits := g.splits.zipIdx.map fun x => splitFrom rd x.2 x.1
    joins := (List.range 3).map (joinFrom rd)
    stack := (List.range (min 32 (rd 0xF8 4))).map fun i => stackEntOf (bytesOfNat 24 (rd (0x100 + 24 * i) 24))
    stks := rd 0xFC 4
    s := putFields 0 g.s 0 128 fun r => word (0x400 + 4 * r)
    p := putFields 0 g.p 1 7 fun r => BitVec.ofNat 64 (rd (0x600 + 8 * (r - 1)) 8)
    tk := putFields 0 g.tk 0 16 fun n => rd (0x640 + n) 1
    f := putFields 0 g.f 0 8 fun n => rd (0x650 + n) 1
    fpstat := BitVec.ofNat 5 (rd 0x658 4), chksb := bit (rd 0x65C 4) 0, agemax := rd 0x660 4
    iter := if rd 0x664 4 = 0xFFFFFFFF then none else some (word 0x664)
    stage := BitVec.ofNat 16 st, lp := bits st 16 2, hold := bit st 18, exited := bit (rd 0x66C 4) 0
    draw := putFields 0 g.draw 0 W fun l => word (0x700 + 4 * l)
    ti := (List.range 4).foldl (fun (t : Tab (List Word)) h =>
      let r := (List.range 16).map fun i => word (0x800 + 64 * h + 4 * i)
      if (List.range 16).map (fun i => (Tab.get [] t h).getD i 0) = r then t else Tab.put t h r) g.ti
    v := fresh.foldl (fun (v : Tab Lanes) r => Tab.put v r (lanesAt r)) g.v }

/-- A staged loop as the words of a record give it (R342). -/
def loopFrom (w n next : Nat) (x : Option SLoop) : Option SLoop :=
  if loopWord x = w ∧ (x.map (·.n.toNat)).getD 0 = n ∧ (x.map (·.next.toNat)).getD 0 = next then x
  else if bit w 0 then
    some { id := bits w 1 3, n := BitVec.ofNat 32 n, t := bits w 4 6, mem := bits w 10 5, joined := bits w 15 5, ended := bits w 20 5
           next := BitVec.ofNat 32 next }
  else none

/-- The reservations as a record gives them: one with SIZE 0 is free, another keeps to R247 within the ranges that the workgroup holds
(R342, R344). -/
def obrFrom (rd : Fields) (w : Wg) : Tab (List Word) :=
  (List.range 8).foldl (fun (t : Tab (List Word)) n =>
    let ws := (List.range 4).map fun i => BitVec.ofNat 32 (rd (0xC0 + 16 * n + 4 * i) 4)
    if ws = (List.range 4).map (fun i => (Tab.get [] w.obr n).getD i 0) then t
    else if obSize ws = 0 then Tab.erase t n
    else if obOk ws && w.heldRanges.any (fun r => r.1 ≤ obBase ws && obBase ws + obSize ws ≤ r.1 + r.2) then Tab.put t n ws
    else t) w.obr

/-- A saved workgroup as the bytes of its record stand: barriers, reservations, the stage table, and the spool's registers and mailbox;
its place and its ranges are its own whatever the bytes say (R344, log 88). -/
def wgFrom (rd : Fields) (w : Wg) : Wg :=
  let word (o : Nat) : Word := BitVec.ofNat 32 (rd o 4)
  let bar (n : Nat) : Bar := ⟨bit (rd (0x80 + 4 * n) 4) 0, bits (rd (0x80 + 4 * n) 4) 4 12, bits (rd (0x80 + 4 * n) 4) 16 12⟩
  let pd := w.pendLoop.map fun o => { o with ended := 0 }
  let pd' := loopFrom (rd 0x150 4) (rd 0x154 4) ((pd.map (·.next.toNat)).getD 0) pd
  { w with
    obr := obrFrom rd w
    loop := loopFrom (rd 0x140 4) (rd 0x144 4) (rd 0x148 4) w.loop
    pendLoop := if pd' = pd then w.pendLoop else pd'
    ents := putFields {} w.ents 0 32 fun e =>
      let x := rd (0x160 + 8 * e) 8
      { v := bit x 48, it := BitVec.ofNat 32 x, stg := BitVec.ofNat 16 (x / 2 ^ 32) }
    bars := (List.range 16).foldl (fun (t : Tab Bar) n => if (w.bar n).word = word (0x80 + 4 * n) then t else Tab.put t n (bar n)) w.bars
    mbox := if w.spool.isSome then (List.range (min 32 (rd 0x368 4))).map fun i => word (0x380 + 4 * i) else w.mbox
    spool := w.spool.map fun p =>
      let pc := rd 0x360 8
      let q := { p with s := putFields 0 p.s 0 64 (fun r => word (0x260 + 4 * r)), run := bit pc 63 }
      if haltPc p.pc p.cl p.block = BitVec.ofNat 56 pc then q else { q with pc := addr56 (BitVec.ofNat 56 pc), cl := none, block := 0 } }

/-- A saved matrix resource as the bytes of its record stand: the tiles and their states, MRP, and how many commands are queued. -/
def matrixFrom (rd : Fields) (m : Matrix) : Matrix :=
  let o := rd 0x30 8
  let row (r : Nat) : Lanes := (List.range 64).map fun j => BitVec.ofNat 32 (rd (o + 256 * r + 4 * j) 4)
  let fresh := (List.range 1024).filter fun r => row r != (List.range 64).map (laneAt (Tab.get [] m.acc r))
  let st := rd 0x404 4
  { m with
    acc := fresh.foldl (fun (t : Tab Lanes) r => Tab.put t r (row r)) m.acc
    step := bits (rd 0x400 4) 0 16, row := bits (rd 0x400 4) 16 15
    head := if bits st 0 4 = m.head.getD 0 then m.head else some (bits st 0 4)
    opened := bit st 4, i32 := bit st 5, nextRow := bits st 11 6
    pub := (List.range (min 16 (bits st 6 5))).map fun k => rd 0x408 8 / 16 ^ k % 16
    queue := m.queue.take (bits st 17 4) }

/-- The queued command that stands k-th in a record. -/
def seqFrom (rd : Fields) (k : Nat) (o : Op) : Op :=
  let word (i : Nat) : Word := BitVec.ofNat 32 (rd (0x410 + 48 * k + i) 4)
  let o1 := { o with par0 := word 0, par1 := word 4 }
  match o.k with
  | .mloop acc blk _ fa fb ra rb =>
    { o1 with k := .mloop acc ((List.range blk.length).map fun i => word (8 + 4 * i)) (word 40).toNat fa fb ra rb }
  | _ => o1

/-- A TIOP in progress as its group's block gives it. -/
def tiopFrom (rd : Fields) (o : Op) (t : Tiop) : Op :=
  let w := rd 0x900 4
  let ofs := (List.range W).map fun l => BitVec.ofNat 32 (rd (0xA00 + 4 * l) 4)
  { o with
    k := .tiop { t with
      mode := bits w 1 2, ty := bits w 3 4, reg := bits w 7 8, n := bits w 15 6, hnd := bits w 21 2, act := BitVec.ofNat 64 (rd 0x908 8)
      ofs := if ofs = (List.range W).map (laneAt t.ofs) then t.ofs else ofs }
    tok := if o.tok.getD 0 = bits (rd 0x904 1) 0 4 then o.tok else some (bits (rd 0x904 1) 0 4) }

/-- A TCOPY as its engine record gives it (R344). -/
def tcopyFrom (rd : Fields) (o : Op) (blk : List Word) (c : List Nat) : Op :=
  let p0 : Word := BitVec.ofNat 32 (rd 4 4)
  let p1 : Word := BitVec.ofNat 32 (rd 8 4)
  let f := rawFld p0 p1 0
  { o with par0 := p0, par1 := p1
           k := .tcopy f.c.toNat f.d.toNat ((List.range blk.length).map fun i => BitVec.ofNat 32 (rd (12 + 4 * i) 4))
             ((List.range c.length).map fun i => rd (0x4C + 2 * i) 2) }

/-- The operations with engine records that come before one in its record, and the place of its own. -/
def engineAt (s : State) (wid : Nat) (slice : Bool) (id : Nat) : Nat :=
  (((opsOfWg s wid).takeWhile fun o => o.id != id).filterMap fun o => (engineRecord o slice).map List.length).sum

/-- The outstanding operations of a workgroup as its record gives them: `blk` is where group g's block stands (R342 to R344). -/
def opsFrom (s : State) (sv : Save) (wid : Nat) (w : Wg) (rd : Fields) (blk : Nat → Nat) : List Op :=
  let mq := ((Tab.find? sv.mxs wid).map (·.queue)).getD []
  let grpOf (o : Op) : Option Nat := match o.ag with
    | .group _ sl _ => w.slots.findIdx? (· == sl)
    | _ => none
  s.ops.filterMap fun o =>
    if o.wg ≠ wid ∨ o.done then some o
    else match mq.findIdx? (· == o.id) with
      | some k => if k < bits (rd 0x404 4) 17 4 then some (seqFrom rd k o) else none
      | none => match o.k, grpOf o with
        | .tiop t, some g =>
          let rg (x n : Nat) := rd (blk g + x) n
          if bit (rg 0x900 4) 0 then some (tiopFrom rg o t) else none
        | .tcopy _ _ b c, _ =>
          let off := rd 0x48 8 + engineAt s wid (sv.kind == 2) o.id
          some (tcopyFrom (fun x n => rd (off + x) n) o b c)
        | _, _ => some o

/-- Put a saved workgroup back on its core. -/
def putBack (s : State) (k : Nat) (sv : Save) (wid off : Nat) (w : Wg) (l : Launch) : State :=
  let s0 := if (residents s w.core).isEmpty && (s.core w.core).ns != l.ctx.ns then clearCore s w.core else s
  let s1 := restoreBytes s0 sv off w
  let c := s1.core w.core
  let rd (o n : Nat) : Nat := s1.readNat (mKey sv.tier (sv.area + off + o)) n
  let back (o : Op) : Op := if o.wg = wid then match o.ag with
      | .group _ sl x => { o with ag := .group w.core sl x }
      | _ => o
    else o
  let blk (g : Nat) : Nat := 0x1000 + g * (4096 + 4 * W * l.k.regs)
  let groups := (List.range w.ngrp).foldl (fun (gs : Tab Group) g => match Tab.find? sv.saved (savedKey wid g) with
    | some x =>
      let y := groupFrom (fun o n => rd (blk g + o) n) l.k.regs x
      Tab.put gs (gKey w.core (w.slots.getD g 0)) { y with splits := y.splits.map Split.resumed, issued := 0 }
    | none => gs) s1.groups
  let flag := mKey sv.tier (sv.area + off + 7)
  let s2 := { s1 with
    groups := groups, ops := (opsFrom s1 sv wid w rd blk).map back
    wgs := Tab.put s1.wgs wid { wgFrom rd w with saved := false, resid := c.resid + 1 }
    cores := Tab.put s1.cores w.core
      { c with resid := c.resid + 1, ns := l.ctx.ns, mx := ((Tab.find? sv.mxs wid).map (matrixFrom rd)).getD c.mx }
    saves := Tab.modify s1.saves k fun x =>
      { x with saved := x.saved.filter (fun e => e.1 / 64 != wid), mxs := x.mxs.filter fun e => e.1 != wid } }
  let s3 := if l.k.matrix then moveTiles s2 (1000 + wid) w.core else s2
  s3.setByte flag (s3.byte flag ||| 1)

/-- WORKGROUP_RESTORE (R345): of one launch the workgroup of lowest WGINDEX that can return does so; after the last record the
RESUME command completes. -/
def execWorkgroupRestore (save record : Nat) (s : State) : Host.Outcome State Fault Refusal :=
  match Tab.find? s.saves save with
  | none => notNow "WORKGROUP_RESTORE"
  | some sv => match sv.resuming, sv.recs.find? fun r => r.1 == record with
    | some cmd, some (off, wid) => match s.wg? wid with
      | none => notNow "WORKGROUP_RESTORE"
      | some w => match s.launch? w.lnch with
        | none => notNow "WORKGROUP_RESTORE"
        | some l =>
          let lower := sv.recs.any fun r => !restored s sv r.1 && (s.wg? r.2).any fun x =>
            x.lnch == w.lnch && x.ix < w.ix && x.saved && canRestore s x l
          if restored s sv off || !w.saved || lower || !canRestore s w l then notNow "WORKGROUP_RESTORE"
          else
            let s1 := settleTurn (putBack s save sv wid off w l) wid
            if sv.recs.all fun r => restored s1 sv r.1 then
              .next ({ s1 with saves := Tab.modify s1.saves save fun x => { x with resuming := none } }.cmdReady cmd)
            else .next s1
    | _, _ => notNow "WORKGROUP_RESTORE"

/-! ### The completion of a command -/

/-- The completion write of a command is an st.rel.sys after its effects: those who read it acquire them (R366, R61). -/
def completionWrite (s : State) (c : Cmd) (past : Clk) : Except MFault State :=
  match writePlain s { whoCmd s c.q c.ctx with op := some s.nextId } c.caddr 8 (bytesOfNat 8 c.cval.toNat) with
  | .error m => .error m
  | .ok s1 => 
    let carries (r : Wrec) : Wrec := if r.seq < s.histLen then r else { r with rels := ⟨5, {}, past, none⟩ :: r.rels }
    .ok (keepFar { s1 with hist := s1.hist.map carries } (devOp noLaunch (.completion c.q c.slot)))

/-- The completion write of a command, then its queue's vector (R366); a write that fails is a ring failure (R410). What the
command did happens before the queue's later SERIAL commands. -/
def completeCmd (s0 : State) (id : Nat) (c : Cmd) : State :=
  let past := s0.gathered (.cmd id)
  let s := (s0.setChan (.cmd id) []).post (.fin c.q) past
  let s1 := dropCmd s id c
  let raised (s : State) : State := if c.irq && (s.queue c.q).irq then s.raiseVector c.q else s
  if c.caddr = 0 then raised s1
  else match completionWrite s1 c past with
    | .error _ => ringFail s1 c.q c.slot
    | .ok s2 => raised s2

/-- Whether a RESUME that waits may go on (R345). -/
def resumeWaitOver (s : State) (id tier area : Nat) : Bool :=
  !(s.saves.any fun x => x.2.resuming == some id) && !areaBusy s tier area &&
  !((saveAt s tier area).any fun x => latePending s x.2)

/-- COMMAND_COMPLETE (R366): after every effect of the command its completion is made; a RESUME whose wait a kill has ended
goes on first (R345, R395). -/
def execCommandComplete (id : Nat) (s : State) : Host.Outcome State Fault Refusal :=
  match Tab.find? s.cmds id with
  | none => notNow "COMMAND_COMPLETE"
  | some c =>
    if cmdOver s id c then .next (completeCmd s id c)
    else match c.k with
      | .resume tier area =>
        if resumeWaitOver s id tier area then .next (goResume s id c tier area) else notNow "COMMAND_COMPLETE"
      | _ => notNow "COMMAND_COMPLETE"

end Sys2Proof.Machine
end

