-- ==== Sys2Proof/Machine/Traps.lean ====
section
/-! DEFINITION. Acting on traps (R390 to R398): the raising of deferred faults (R402), skip, retry and kill (R394, R404,
R412), and the trap registers that the host writes (R392, R393, R410). -/

namespace Sys2Proof.Machine

open Sys2Proof

/-! ### Deferred faults -/

/-- Whether an agent may take a trap now: its group or spool processor has none pending (R390). -/
def mayTrap (s : State) : Agent → Bool
  | .none => false
  | .group c sl _ => (s.group? (gKey c sl)).any fun g => !g.trapped
  | .spool w => (s.wg? w).any fun x => x.spool.any fun p => !p.trapped

/-! ### Skip and retry of an operation (R404) -/

/-- A member leaves its collective as one that has completed (R424). -/
def leaveColl (s : State) (id : Nat) : State :=
  let leave (c : Collective) : Collective :=
    let mine := c.members.filter (·.op == id)
    { c with members := c.members.filter (·.op != id), done := c.done ++ mine.map (·.rank) }
  { s with colls := s.colls.map leave }

/-- A skip completes a stopped operation: what it has done stands, its token, counter and arrival are made (R404). -/
def skipOp (s : State) (o0 : Op) : State :=
  let o := { o0 with fault := none, raised := false }
  match o.k with
  | .mloop .. =>
    let s1 := match s.wg? o.wg with
      | none => s
      | some w => if (s.core w.core).mx.running == some o.id then
          s.modMx w.core fun m => { m with busy := false, step := 0, row := 0, queue := m.queue.tail }
        else s
    endEngine (dropReaders s1 [o.id]) o
  | .tiop t => match agentKey o.ag with
    | none => completeOp s { o with wrs := [] }
    | some key => completeOp (tiAdvance s t key) { o with wrs := [] }
  | .rtrace .. => endEngine s { o with wrs := o.skip }
  | .trav opc d c lanes => travSkip s o opc d c lanes
  | .drawv .. =>
    let st := ((s.passes.find? fun p => p.op == o.id).map (·.status)).getD 0
    endPass s o o.statusReg (st.toNat ||| 16)
  | .coll .. => endEngine (leaveColl s o.id) { o with wrs := [] }
  | .lcopy .. | .tcopy .. => endEngine s { o with wrs := [] }
  | .far => forgetFar s o.ag
  | .reg | .store | .load .. | .atom .. | .fill .. | .sys .. | .mpub | .atomOrd .. | .badRow .. | .device _ =>
    completeOp s { o with wrs := [], flags := 0 }

/-- A write of the device itself to a peer module has been refused or lost: one made for a running launch kills it (R438); a
completion write has failed (R410); another is not made. -/
def devFails (s0 : State) (o : Op) (d : DevK) (t : Trap) : State :=
  let s := { s0 with ops := s0.ops.filter fun x => x.id != o.id }
  let m : MFault := { cause := t.cause.toNat, aux := t.aux, page := none }
  match d with
  | .passage _ ix => launchFault s o.lnch m 1 ix
  | .board ix => if (s.launch? o.lnch).any (·.killed) then reap s o.lnch else launchFault s o.lnch m 0 ix
  | .mask c => s.cmdReady c
  | .completion q slot => ringFail s q slot
  | .read _ => s0

/-- The raising of a deferred fault at the group's instruction boundary; an exited agent's is raised at once (R402). In a
killed launch the operation is completed as a skip completes it (R395). -/
def execEngineFault (id : Nat) (s : State) : Host.Outcome State Fault Refusal :=
  match s.op? id with
  | none => notNow "ENGINE_FAULT"
  | some o => match o.fault with
    | none => notNow "ENGINE_FAULT"
    | some t =>
      if o.raised || o.done then notNow "ENGINE_FAULT"
      else match o.k with
      | .device (.read _) => notNow "ENGINE_FAULT"
      | .device d => .next (devFails s o d t)
      | _ =>
      if (s.launch? o.lnch).any (·.killed) then .next (skipOp s o)
      else if opSaved s o || !mayTrap s o.ag then notNow "ENGINE_FAULT"
      else .next (raise (s.modOp id fun x => { x with raised := true }) o.ag t)

/-- A retry lets an operation go on from its checkpoint; what a peer module has refused or a port has lost is written again; a failed
COLL is issued anew (R404, R424). -/
def retryOp (s : State) (o : Op) : State :=
  let again := (o.fault.map (·.far)).getD []
  let s0 := s.modOp o.id fun x => { x with fault := none, raised := false }
  let s1 := sendWrites s0 (opWho s0 o) (again.map fun h => (h, s0.byte h.key))
  match o.k, o.fault.map (·.cause) with
  | .coll mn red ty _ _ count comm root seq, some c =>
    if c = 0x80 ∨ c = 0x81 then
      match s1.launch? o.lnch, s1.op? o.id with
      | some l, some o1 => joinColl s1 o1 l.ctx.slice [mn, red, ty, count, root] comm seq
      | _, _ => s1
    else s1
  | _, _ => s1

/-! ### Skip of an instruction or of a clause (R394) -/

/-- The header after a clause whose check failed; `none` when the header itself cannot be fetched. -/
def headerAfter (s : State) (ag : Agent) (pc : DWord) : Option DWord :=
  match agentWg s ag with
  | none => none
  | some wid => match s.wg? wid with
    | none => none
    | some w => match s.launch? w.lnch with
      | none => none
      | some l => match readPlain s (whoFetch s ag w l) .fetch pc 8 4 with
        | .error _ => none
        | .ok (bs, _) => some (nextHeader pc (BitVec.ofNat 64 (natOfBytes bs)))

/-- Move an agent, which stands outside a clause, to a header. -/
def moveTo (s : State) (ag : Agent) (pc : DWord) : State :=
  match ag with
  | .none => s
  | .group c sl k => s.modGroup (gKey c sl) fun g => g.modSplit k fun x =>
      { x with pc := addr56 (pc56 pc), cl := none, age := 0, block := 0, again := 0, notBefore := s.clock }
  | .spool w => s.modWg w fun x => { x with spool := x.spool.map fun p =>
      { p with pc := addr56 (pc56 pc), cl := none, block := 0, notBefore := s.clock } }

/-- What an action on a trap leaves with an agent: that its instruction was passed over (1), or that it waits for its register (2). -/
def setAgain (s : State) (ag : Agent) (n : Nat) : State :=
  match ag with
  | .none => s
  | .group c sl k => s.modGroup (gKey c sl) fun g => g.modSplit k fun x => { x with again := n }
  | .spool w => s.modWg w fun x => { x with spool := x.spool.map fun p => { p with again := n } }

/-- Pass over the instruction at which an agent stands: its clause goes on, S counting from the end of the freeze (R394). -/
def passOver (s : State) (ag : Agent) : State :=
  match clauseOf s ag with
  | none => match headerOf s ag with
    | none => s
    | some (pc, _) => match headerAfter s ag pc with
      | none => s
      | some pc' => moveTo s ag pc'
  | some (c, _) =>
    let n := ((c.rest.headD 0).toNat % 4) + 1
    match c.next n s.clock with
    | some c' => setAgain (setBlock (setClause s ag c') ag 0) ag 1
    | none => match headerOf s ag with
      | none => s
      | some (pc, _) => moveTo s ag (nextHeader pc c.hdr)

/-- The stopped operation that an agent's trap was raised for. -/
def raisedOp (s : State) (ag : Agent) : Option Op :=
  s.ops.find? fun o => sameAgent o.ag ag && o.raised && o.fault.isSome

/-- A skip for one agent of an entry. -/
def skipAgent (_ : Trap) (s : State) (ag : Agent) : State :=
  match raisedOp s ag with
  | some o => if o.k = .far then passOver (forgetFar s ag) ag else skipOp s o
  | none => passOver s ag

/-- A retry for one agent of an entry: an issue trap's instruction is issued afresh, a clause checked afresh; one that the stall-count
check stopped waits for its register. -/
def retryAgent (t : Trap) (s : State) (ag : Agent) : State :=
  match raisedOp s ag with
  | some o => retryOp s o
  | none => setAgain (setBlock s ag 0) ag (if t.cause = 3 then 2 else 0)

/-- A clause that goes on behind a passed-over instruction counts S from now. -/
def Clause.restart (c : Clause) (again clock : Nat) : Clause := if again = 1 then { c with base := clock } else c

/-- A group or spool processor that leaves a freeze. -/
def Group.thaw (g : Group) (clock : Nat) : Group :=
  { g with trapped := false
           splits := g.splits.map fun x => { x with cl := x.cl.map (·.restart x.again clock), again := if x.again = 1 then 0 else x.again } }
/-- A spool processor that leaves a freeze. -/
def Spool.thaw (p : Spool) (clock : Nat) : Spool :=
  { p with trapped := false, cl := p.cl.map (·.restart p.again clock), again := if p.again = 1 then 0 else p.again }

/-- A workgroup that no pending entry concerns leaves the freeze (R394). -/
def unfreeze (s : State) (ag : Agent) : State :=
  match agentWg s ag with
  | none => s
  | some wid =>
    if frozen s wid then s
    else match s.wg? wid with
      | none => s
      | some w =>
        let s1 := w.slots.foldl (fun (s : State) sl => s.modGroup (gKey w.core sl) (·.thaw s.clock)) s
        settleTurn (s1.modWg wid fun x => { x with spool := x.spool.map (·.thaw s.clock) }) wid

/-- The pending entry of a queue with a serial. -/
def pendOf (s : State) (q : Nat) (serial : Word) : Option Pend := s.pend.find? fun p => p.q == q && p.written && p.serial == serial

/-- Act on every access that an entry stands for (R394, R403); a register error is a kill (R412). A serial that is not
pending has no effect. -/
def actOn (s : State) (q : Nat) (serial : Word) (act : Trap → State → Agent → State) : State :=
  match pendOf s q serial with
  | none => s
  | some p =>
    if p.trap.cause = 0x4F then killLaunch s p.lnch
    else
      let s1 := { s with pend := s.pend.filter fun x => !(x.q == q && x.written && x.serial == serial) }
      let s2 := p.joined.foldl (act p.trap) s1
      p.joined.foldl unfreeze s2

/-- TRACT skip (R394). -/
def execTractSkip (q : Nat) (serial : Word) (s : State) : Host.Outcome State Fault Refusal := .next (actOn s q serial skipAgent)

/-- TRACT retry (R394). -/
def execTractRetry (q : Nat) (serial : Word) (s : State) : Host.Outcome State Fault Refusal := .next (actOn s q serial retryAgent)

/-- TRACT kill (R394, R395). -/
def execTractKill (q : Nat) (serial : Word) (s : State) : Host.Outcome State Fault Refusal :=
  match pendOf s q serial with
  | none => .next s
  | some p => .next (killLaunch s p.lnch)

/-- TRKILL (R397): every running launch of the queue with the LID. -/
def execTrkill (q : Nat) (lid : Word) (s : State) : Host.Outcome State Fault Refusal :=
  let mine := (s.launches.filter fun l => l.2.q == q && l.2.lid == lid).map (·.1)
  .next (mine.foldl killLaunch s)

/-! ### Trap registers -/

/-- A write of TRHEAD frees places of the ring; entries that wait are written as the cycle ends (R393). -/
def execTrheadWrite (q : Nat) (value : Word) (s : State) : Host.Outcome State Fault Refusal :=
  .next (s.setQueue q { s.queue q with trHead := value })

/-- A write of TRBASE, ignored while EN = 1 (R392); an entry whose write had failed is tried again as the cycle ends (R410). -/
def execTrbaseWrite (q : Nat) (value : DWord) (s : State) : Host.Outcome State Fault Refusal :=
  let x := s.queue q
  let again (p : Pend) : Pend := if p.q = q then { p with failed := false } else p
  if x.en then .next s
  else .next { s.setQueue q { x with trLoc := bits value.toNat 0 2, trBase := bits value.toNat 12 52 * 4096 } with pend := s.pend.map again }

end Sys2Proof.Machine
end

