-- ==== Sys2Proof/Machine/Boot.lean ====
section
/-! DEFINITION. The start of the module, ballast mode and the flash (R377, R378, R429, R430), the registers that the host
reads and writes (R363, R365, R392, R413, R428), the aperture (R362), power and heat (R22, R379). -/

namespace Sys2Proof.Machine

open Sys2Proof

/-! ### Start-up -/

/-- The sizes of a layout's slices (R374): cores, HBM and second tier in GiB, the engine number. -/
def layoutRows (layout : Nat) : List (Nat × Nat × Nat × Nat) :=
  match layout with
  | 2 => [(72, 288, 576, 0), (72, 224, 448, 4)]
  | 3 => [(48, 192, 384, 0), (48, 192, 384, 2), (48, 128, 256, 4)]
  | 6 => [(24, 96, 192, 0), (24, 96, 192, 1), (24, 96, 192, 2), (24, 96, 192, 3), (24, 64, 128, 4), (24, 64, 128, 5)]
  | _ => [(144, 512, 1024, 0)]

/-- The slices of a configuration record: their ranges follow one another from 0 (R374). -/
def buildSlices (r : ConfigRecord) : List Slice :=
  ((layoutRows r.layout).foldl (fun (a : List Slice × Nat × Nat × Nat) x =>
    let i := a.1.length
    let b := min (r.bound.getD i 0) x.1
    let sl : Slice :=
      { core0 := a.2.1, cores := x.1, hbm0 := a.2.2.1, hbm := x.2.1, tier0 := a.2.2.2, tier := x.2.2.1, de := x.2.2.2, ve := x.2.2.2
        ns := r.sliceNS.getD i false, deNs := r.deNS.getD i false, veNs := r.veNS.getD i false, bound := b, minG := r.minG.getD i 0, minC := r.minC.getD i 0, fix := r.fixB.getD i false
        target := b }
    (a.1 ++ [sl], a.2.1 + x.1, a.2.2.1 + x.2.1, a.2.2.2 + x.2.2.1)) ([], 0, 0, 0)).1

/-! ### The interleave of HBM (R374, R17) -/

/-- The die that an HBM stack attaches to (R17). -/
def stackDie (stack : Nat) : Nat := stack / 3

/-- The channels of a slice in order: stack and channel. -/
def sliceChannels (layout i : Nat) : List (Nat × Nat) :=
  let part (hs : List Nat) (c n : Nat) : List (Nat × Nat) := hs.flatMap fun h => (List.range n).map fun j => (h, c + j)
  let stacksOf (die : Nat) : List Nat := (List.range 8).filter fun h => stackDie h == die
  match layout with
  | 2 => if i = 0 then part [0, 1, 2] 0 32 ++ part [3, 4, 5] 0 16 else part [3, 4, 5] 16 16 ++ part [6, 7] 0 32
  | 3 => part (stacksOf i) 0 32
  | 6 => part (stacksOf (i / 2)) (16 * (i % 2)) 16
  | _ => part (List.range 8) 0 32

/-- The slice whose HBM holds a physical address. -/
def sliceOfHbm (s : State) (pa : Nat) : Option Nat :=
  (List.range s.slices.length).find? fun i => (s.slice i).hbm0 * 2 ^ 30 ≤ pa && pa < ((s.slice i).hbm0 + (s.slice i).hbm) * 2 ^ 30

/-- Where a byte of HBM lies: stack, channel and offset within the channel. -/
def hbmPlace (s : State) (pa : Nat) : Option (Nat × Nat × Nat) :=
  match sliceOfHbm s pa with
  | none => none
  | some i =>
    let cs := sliceChannels s.layout i
    let off := pa - (s.slice i).hbm0 * 2 ^ 30
    (cs[off / 4096 % cs.length]?).map fun c => (c.1, c.2, 4096 * (off / 4096 / cs.length) + off % 4096)

/-- The home die of a byte of global memory (R52, R374): of its stack; CD2 for the second tier; CD0 for the host. -/
def homeDie (s : State) (key : Nat) : Option Nat :=
  match keyCode key with
  | 0 => (hbmPlace s (keyOff key)).map fun p => stackDie p.1
  | 1 => some 2
  | 2 => some 0
  | _ => none

/-- The flash contents (R430). -/
def flashBytes (s : State) : List (Nat × Byte) := (s.mem.filter fun e => keyCode e.1 == 292).map fun e => (keyOff e.1, e.2)

/-- What a reset leaves: DRAM, host memory and flash, the start counter, what sensors read; all else is at its reset value. -/
def cleared (s : State) : State :=
  let keep (k : Nat) : Bool := keyCode k < 4 || keyCode k == 292
  { State.reset with
    cur := s.cur, agenda := s.agenda, freeCtr := s.freeCtr, hostData := s.hostData
    clockLow := s.clockLow, mem := s.mem.filter fun e => keep e.1, poison := s.poison.filter keep, flaws := s.flaws.filter keep
    failCnt := s.failCnt, bootReason := s.bootReason, skipCheck := s.skipCheck, flashBusy := s.flashBusy, temp := s.temp, pwr := s.pwr }

/-- Step 1 of a start (R377): with three failed starts, ballast mode, unless the check is skipped (R378, R429); else the boot ROM
runs, and FAILCNT is raised. -/
def bootFrom (s : State) : State :=
  if s.failCnt = 3 ∧ !s.skipCheck then { s with bootState := 5 }
  else { s with failCnt := min 3 (s.failCnt + 1), skipCheck := false, bootState := 1 }

/-- A start (R377): one that begins from ballast mode skips the check of FAILCNT (R378). -/
def startModule (s : State) : State := bootFrom (cleared { s with skipCheck := s.bootState == 5 })

/-- A start fails (R377): its reason is stored, and the module restarts at step 1. -/
def failStart (s : State) (reason : BitVec 8) : State := bootFrom (cleared { s with bootReason := reason, skipCheck := false })

/-- Steps 2 and 3 of a start (R377): the ROM verifies the firmware image, the firmware the configuration record; reasons 1 to 3 are
of the image (R378). Then training begins. -/
def bootAdvance (s : State) : State :=
  match s.bootState, Config.bootCheck (flashBytes s) with
  | 1, .fails r => if r.toNat ≤ 3 then failStart s r else { s with bootState := 2 }
  | 1, .passes _ => { s with bootState := 2 }
  | 2, .fails r => failStart s r
  | 2, .passes _ => { s with bootState := 3 }
  | _, _ => s

/-- 30 s in cycles of 2.5 GHz; a lowered clock counts fewer (R22). -/
def startLimit : Nat := 75000000000

/-- In each cycle the ROM or the firmware may come to its end; how long either runs is free (log 57). A
start that has not reached STATE 4 in time has failed (R377). -/
def bootTick (s : State) : State :=
  if s.bootState ∈ [1, 2, 3] ∧ !s.clockLow ∧ startLimit ≤ s.clock then failStart s 0x0B
  else if s.bootState = 1 ∨ s.bootState = 2 then
    if Config.freeNat s.freeCtr % 2 = 1 then bootAdvance s.free.2 else s.free.2
  else s

/-- MODULE_RESET (R377). -/
def execModuleReset (s : State) : Host.Outcome State Fault Refusal := .next (startModule s)

/-- RESTART (R363, R377, R378): only the value 0x5254 restarts the module. -/
def execRestart (value : BitVec 16) (s : State) : Host.Outcome State Fault Refusal :=
  if value = 0x5254 then .next (startModule s) else .next s

/-- START_TIMEOUT (R377): 30 s after its reset a start has not reached STATE 4. -/
def execStartTimeout (s : State) : Host.Outcome State Fault Refusal :=
  if s.bootState ∈ [1, 2, 3] ∧ (s.clockLow ∨ startLimit ≤ s.clock) then .next (failStart s 0x0B) else notNow "START_TIMEOUT"

/-- Steps 4 and 5 of a start: the record's settings hold, and commands are served (R377). -/
def trained (s : State) (r : ConfigRecord) : State :=
  let ports : Tab Port := ((List.range 18).filter fun p => r.ports.getLsbD p).map fun p => (p, { st := 1, ns := r.portNS.getLsbD p })
  { s with
    bootState := 4, failCnt := 0, layout := r.layout, slices := buildSlices r, ports := ports, peers := r.peers
    moduleNo := r.moduleNo, regionTab := r.regions.zipIdx.map fun e => (e.2, e.1), regionRight := r.regionRight }

/-- TRAINING_COMPLETE (R377): reason 0 is success; 0x07 to 0x0A name what failed to train. -/
def execTrainingComplete (reason : BitVec 8) (s : State) : Host.Outcome State Fault Refusal :=
  if s.bootState ≠ 3 ∨ (!s.clockLow ∧ startLimit ≤ s.clock) then notNow "TRAINING_COMPLETE"
  else if reason = 0 then match Config.bootCheck (flashBytes s) with
    | .passes r => .next (trained s r)
    | .fails _ => notNow "TRAINING_COMPLETE"
  else if 7 ≤ reason.toNat ∧ reason.toNat ≤ 10 then .next (failStart s reason)
  else notNow "TRAINING_COMPLETE"

/-! ### Power and heat -/

/-- THERMAL_TRIP (R379, R429): the module stops; the stop is a failed start with reason 0x0C. -/
def execThermalTrip (s : State) : Host.Outcome State Fault Refusal :=
  .next (cleared { s with bootReason := 0x0C, skipCheck := false, temp := if s.temp.toNat < 110 then 110 else s.temp })

/-- POWER_LIMIT (R22, R379): the clock of all dies is lowered, or restored; no other state changes. -/
def execPowerLimit (reached : Bool) (s : State) : Host.Outcome State Fault Refusal := .next { s with clockLow := reached }

/-! ### Flash -/

/-- FLASHCTL_WRITE (R363): WE can be set in states 4 and 5 only. -/
def execFlashctlWrite (value : Word) (s : State) : Host.Outcome State Fault Refusal :=
  .next { s with flashWe := value.getLsbD 0 && (s.bootState == 4 || s.bootState == 5) }

/-- The size of the flash window (R362). -/
def flashSize : Nat := 2 ^ 24

/-- FLASH_WINDOW_WRITE (R430): while WE = 1 a word of the window starts to be programmed; else the write is dropped. -/
def execFlashWindowWrite (off : Nat) (value : Word) (s : State) : Host.Outcome State Fault Refusal :=
  if s.flashWe && off % 4 == 0 && off < flashSize then .next { s with flashBusy := s.flashBusy ++ [(off, value)] } else .next s

/-- FLASH_WRITE_COMPLETE (R430): a read of the word now returns the written value. -/
def execFlashWriteComplete (off : Nat) (s : State) : Host.Outcome State Fault Refusal :=
  match s.flashBusy.find? fun e => e.1 == off with
  | none => notNow "FLASH_WRITE_COMPLETE"
  | some e => .next ({ s with flashBusy := s.flashBusy.erase e }.writeNat (mKey 292 off) 4 e.2.toNat)

/-! ### Registers -/

/-- IRQSTAT_WRITE (R363): W1C. -/
def execIrqstatWrite (value : DWord) (s : State) : Host.Outcome State Fault Refusal := .next { s with irqStat := s.irqStat &&& ~~~value }

/-- ERRLOG_WRITE (R363): W1C. -/
def execErrlogWrite (value : Word) (s : State) : Host.Outcome State Fault Refusal := .next { s with errLog := s.errLog &&& ~~~value }

/-- UESTAT_WRITE (R413): W1C in bits 0 and 1. -/
def execUestatWrite (value : Word) (s : State) : Host.Outcome State Fault Refusal :=
  .next { s with ueStat := s.ueStat &&& ~~~(value &&& 3) }

/-- PORTSTAT and DLSTAT (R428): the state, the retrainings, the resends. -/
def linkStat (st retrain replay : Nat) : DWord := BitVec.ofNat 64 (st % 4 + min retrain 255 * 256 + min replay 65535 * 65536)

/-- The state that an outcome leaves, or the one before it. -/
def after (s : State) : Host.Outcome State Fault Refusal → State
  | .next t => t
  | _ => s

/-- The effect of a write to a register (R6, R363, R365, R392, R372, R413): a read-only register ignores it, and so do QBASE, QCTX and
TRSIZE of an enabled queue. Registers and fields that a read clears ignore it too, which the manual leaves open (log 69). -/
def writeReg (s : State) (reg : HostReg) (value : DWord) : State :=
  let v := value.toNat
  let w : Word := value.extractLsb' 0 32
  match reg with
  | .apbase => { s with apBase := bits v 36 12 * 2 ^ 36, apTier := bits v 48 2 }
  | .cethr => { s with ceThr := w }
  | .qbase q => if (s.queue q).en then s else s.setQueue q { s.queue q with loc := bits v 0 2, base := bits v 12 52 * 4096 }
  | .qctx q => if (s.queue q).en then s else s.setQueue q { s.queue q with ctx := value }
  | .trsize q => if (s.queue q).en then s else s.setQueue q { s.queue q with trSize := bits v 0 4 }
  | .trctl q => s.setQueue q { s.queue q with trIrq := bit v 0 }
  | .loghead q => s.setQueue q { s.queue q with logHead := w }
  | .restart => after s (execRestart (value.extractLsb' 0 16) s)
  | .irqstat => after s (execIrqstatWrite value s)
  | .errlog => after s (execErrlogWrite w s)
  | .uestat => after s (execUestatWrite w s)
  | .flashctl => after s (execFlashctlWrite w s)
  | .qsize q => after s (execQsizeWrite q w s)
  | .qctl q => after s (execQctlWrite q w s)
  | .qtail q => after s (execQtailWrite q w s)
  | .trbase q => after s (execTrbaseWrite q value s)
  | .trhead q => after s (execTrheadWrite q w s)
  | .tract q => match bits v 32 2 with
    | 1 => after s (execTractSkip q w s)
    | 2 => after s (execTractRetry q w s)
    | 3 => after s (execTractKill q w s)
    | _ => s
  | .trkill q => after s (execTrkill q w s)
  | .flash off => after s (execFlashWindowWrite off w s)
  | .id | .bootstat | .failcnt | .capptr | .temp | .pwr | .cecnt | .ueaddr | .portstat _ | .dlstat _ | .qhead _ | .qerr _ | .trtail _
  | .trpend _ | .logtail _ | .cap _ => s

/-- REGISTER_WRITE (R6). -/
def execRegisterWrite (reg : HostReg) (value : DWord) (s : State) : Host.Outcome State Fault Refusal := .next (writeReg s reg value)

/-! ### The capability list (R364) -/

/-- The words of a capability record's body, by ID (R364); `none` where the manual gives no value. VIDEO's width, height and rate take a
word each, which the manual leaves open (log 69). -/
def capBody (s : State) (id : Nat) : List (Option Nat) :=
  match id with
  | 1 => [some (1 + 64 * 256)]
  | 2 => [some s.layout, some s.slices.length] ++ s.slices.flatMap fun x =>
      [x.core0, x.cores, x.hbm0, x.hbm, x.tier0, x.tier, x.de, x.ve].map some
  | 3 => [some s.moduleNo, some (((List.range 18).filter fun p => (s.port p).st != 0).map (2 ^ ·)).sum] ++
      (List.range 18).map fun p => if (s.port p).st = 0 then none else s.peers[p]?
  | 4 => [some 0xFF, some 1024]
  | 5 => [some 3, some 7680, some 4320, some 60]
  | 6 => [some 0x800000, some 0x400000, some 0x10000]
  | _ => []

/-- The records from an offset of MW0 on, each with its header, 8-byte aligned: what words hold, by offset. -/
def capChain (s : State) : List Nat → Nat → List (Nat × Option Nat)
  | [], _ => []
  | id :: ids, off =>
    let len := 16 + 4 * (capBody s id).length
    let next := (off + len + 7) / 8 * 8
    let words := [some (id + 65536), some (if ids.isEmpty then 0 else next), some len, some 0] ++ capBody s id
    words.zipIdx.map (fun w => (off + 4 * w.2, w.1)) ++ capChain s ids next

/-- The capability list, from CAPPTR on. -/
def capList (s : State) : List (Nat × Option Nat) := capChain s [1, 2, 3, 4, 5, 6] 0x1000

/-! ### Reads of registers -/

/-- What a read of a register returns (R363 to R365, R372, R392, R396, R413, R428): of a write-only one zero (R6). A word of the
capability list that the manual gives no value is free, and so is one of the flash window that is being programmed (R430). -/
def readReg (s : State) (reg : HostReg) : DWord :=
  let n (x : Nat) : DWord := BitVec.ofNat 64 x
  match reg with
  | .apbase => n (s.apBase + s.apTier * 2 ^ 48)
  | .cethr => s.ceThr.setWidth 64
  | .qbase q => n ((s.queue q).loc + (s.queue q).base)
  | .qctx q => (s.queue q).ctx
  | .trsize q => n (s.queue q).trSize
  | .trctl q => n (b1 (s.queue q).trIrq)
  | .loghead q => (s.queue q).logHead.setWidth 64
  | .id => n (0x0940 + Config.step.toNat * 65536)
  | .bootstat => n (s.bootState + s.bootReason.toNat * 256)
  | .failcnt => n s.failCnt
  | .capptr => 0x1000
  | .temp => s.temp.setWidth 64
  | .pwr => s.pwr.setWidth 64
  | .cecnt => s.ceCnt.setWidth 64
  | .ueaddr => s.ueAddr
  | .portstat p => linkStat (s.port p).st (s.port p).retrain (s.port p).replay
  | .dlstat k => linkStat (s.dlink k).st (s.dlink k).retrain (s.dlink k).replay
  | .qhead q => (s.queue q).head.setWidth 64
  | .trtail q => (s.queue q).trTail.setWidth 64
  | .trpend q => n ((s.pend.filter fun p => p.q == q && p.written).length % 65536)
  | .logtail q => (s.queue q).logTail.setWidth 64
  | .irqstat => s.irqStat
  | .errlog => s.errLog.setWidth 64
  | .uestat => s.ueStat.setWidth 64
  | .flashctl => n (b1 s.flashWe)
  | .qsize q => n (s.queue q).size
  | .qctl q => n (b1 (s.queue q).en + 2 * (s.queue q).pri + 8 * b1 (s.queue q).irq)
  | .qtail q => (s.queue q).tail.setWidth 64
  | .qerr q => (s.queue q).err.setWidth 64
  | .trbase q => n ((s.queue q).trLoc + (s.queue q).trBase)
  | .trhead q => (s.queue q).trHead.setWidth 64
  | .restart | .tract _ | .trkill _ => 0
  | .cap off => match (capList s).find? fun w => w.1 == off with
    | some (_, some x) => n x
    | some (_, none) => (Config.freeWord (s.freeCtr + off)).setWidth 64
    | none => 0
  | .flash off =>
    if s.flashBusy.any fun e => e.1 == off then (Config.freeWord (s.freeCtr + off)).setWidth 64
    else if off < flashSize then n (s.readNat (mKey 292 (off / 4 * 4)) 4) else 0

/-- What a read leaves: the fields of a read-clear register are zero (R6). -/
def readClears (s : State) (reg : HostReg) : State :=
  match reg with
  | .cecnt => { s with ceCnt := 0 }
  | .qerr q => s.setQueue q { s.queue q with err := 0 }
  | .portstat p => s.setPort p { s.port p with retrain := 0, replay := 0 }
  | .dlstat k => s.setDlink k { s.dlink k with retrain := 0, replay := 0 }
  | _ => s

/-- The host reads a register. -/
def hostRead (s : State) (reg : HostReg) : State := { readClears s reg with hostData := readReg s reg }

/-- CECNT_READ (R413): the read clears it. -/
def execCecntRead (s : State) : Host.Outcome State Fault Refusal := .next (hostRead s .cecnt)

/-- QERR_READ (R365): the read clears it (R6). -/
def execQerrRead (q : Nat) (s : State) : Host.Outcome State Fault Refusal := .next (hostRead s (.qerr q))

/-- PORTSTAT_READ (R428): the read clears the counts. -/
def execPortstatRead (port : Nat) (s : State) : Host.Outcome State Fault Refusal :=
  if 18 ≤ port then notNow "PORTSTAT_READ" else .next (hostRead s (.portstat port))

/-- DLSTAT_READ (R428): the read clears the counts. -/
def execDlstatRead (link : Nat) (s : State) : Host.Outcome State Fault Refusal :=
  if 3 ≤ link then notNow "DLSTAT_READ" else .next (hostRead s (.dlstat link))

/-! ### The aperture (R362) -/

/-- The bytes of an aperture access: the key of each, and whether it lies in a secure region. -/
def apertureKeys (s : State) (off size : Nat) : List (Nat × Bool) :=
  (List.range size).map fun i => (mKey s.apTier (s.apBase + off + i), secureAt s s.apTier (s.apBase + off + i))

/-- Whether an aperture access reaches memory that can answer it; what else a read returns is open. -/
def apertureOpen (s : State) (off size : Nat) : Bool :=
  s.bootState == 4 && (List.range size).all fun i => !beyond s.apTier (s.apBase + off + i)

/-- APERTURE_ACCESS (R362, R363, R378): a non-secure access of up to 8 bytes; TIER 2 or 3, and ballast mode, read zero and drop
writes; a secure byte reads zero, is not written, and sets ERRLOG.SECAP. A read that the manual gives no value for is free. -/
def execApertureAccess (write : Bool) (off size : Nat) (value : DWord) (s : State) : Host.Outcome State Fault Refusal :=
  let free (s : State) : State := { s.free.2 with hostData := Config.freeDWord s.freeCtr }
  if 2 ^ 36 < off + size ∨ 8 < size then notNow "APERTURE_ACCESS"
  else if 2 ≤ s.apTier ∨ s.bootState = 5 then .next (if write then s else { s with hostData := 0 })
  else if !apertureOpen s off size then .next (if write then s else free s)
  else
    let ks := apertureKeys s off size
    let s1 := if ks.any (·.2) then s.logErr 0 else s
    if write then .next (extWrite s1 (hostWho s1) ((ks.zip (bytesOfNat size value.toNat)).filterMap fun x => if x.1.2 then none else some (x.1.1, x.2)))
    else if ks.any fun k => !k.2 && s.poisoned k.1 then .next (free s1)
    else
      let open_ := (ks.filter fun k => !k.2).map (·.1)
      let (bs, s2) := extRead s1 (hostWho s1) open_
      .next { s2 with hostData := BitVec.ofNat 64 (natOfBytes (ks.map fun k => if k.2 then 0 else Tab.get 0 (open_.zip bs) k.1)) }

end Sys2Proof.Machine
end

