-- ==== Sys2Proof/Machine/CrossLane.lean ====
section
/-! DEFINITION. Cross-lane movement (R200, R203, R204), reductions and scans (R92, R93, R201, R202), RAND (R94, R205). -/

namespace Sys2Proof.Machine

open Sys2Proof

/-- Operand A of any lane, active or not; outside the launch mask it is zero (R181, R28). -/
def Cx.vaAt (cx : Cx) (l : Nat) : Nat := cx.g.vVal cx.ty cx.f.a.toNat l

/-- SHFL (R200). -/
def execShfl (f : Fld) (s : State) : Host.Outcome State Fault Refusal := issue (.shfl f) s fun cx s =>
  let off (l : Nat) : Nat := if cx.m = 1 then W / 2 ^ cx.b32 l else cx.b32 l
  .done (vResult s cx fun l => cx.vaAt (shflSrc cx.f.mn.toNat (off l) l))

/-- QSWZ (R203). -/
def execQswz (f : Fld) (s : State) : Host.Outcome State Fault Refusal := issue (.qswz f) s fun cx s =>
  .done (vResult s cx fun l => cx.vaAt (l / 4 * 4 + bits (cx.b32 l) (2 * (l % 4)) 2))
/-- QBC (R203). -/
def execQbc (f : Fld) (s : State) : Host.Outcome State Fault Refusal := issue (.qbc f) s fun cx s =>
  .done (vResult s cx fun l => cx.vaAt (l / 4 * 4 + cx.b32 l % 4))
/-- VREADL; without an active lane it has no effect (R180, R204). -/
def execVreadl (f : Fld) (s : State) : Host.Outcome State Fault Refusal := issue (.vreadl f) s fun cx s =>
  .done (if cx.act = 0 then s else addFix s cx (sWrite cx.ty cx.f.d.toNat (cx.vaAt (cx.b32 0 % W))))
/-- VWRITEL (R204). -/
def execVwritel (f : Fld) (s : State) : Host.Outcome State Fault Refusal := issue (.vwritel f) s fun cx s =>
  let l := cx.c32 0 % W
  .done (addFix s cx (vWrite cx.ty cx.f.d.toNat (cx.act &&& (1#64 <<< l)) fun _ => cx.b 0))

/-! ### Reductions and scans -/

/-- One combination of R201: the operator 0 add, 1 min, 2 max, 3 and, 4 or, 5 xor. -/
def combine (ty op mode a b : Nat) : FR :=
  if tyFloat ty then
    match op with
    | 0 => fAdd (fmtOf ty) mode a b
    | 1 => fMinMax (fmtOf ty) false a b
    | _ => fMinMax (fmtOf ty) true a b
  else match op with
    | 0 => (iAdd ty a b, 0)
    | 1 => (iMin ty a b, 0)
    | 2 => (iMax ty a b, 0)
    | 3 => (iAnd ty a b, 0)
    | 4 => (iOr ty a b, 0)
    | _ => (iXor ty a b, 0)

/-- The identity of an operator (R92). -/
def identity (ty op mode : Nat) : Nat :=
  if tyFloat ty then
    let f := fmtOf ty
    match op with
    | 0 => if mode = 3 then 0 else f.sign
    | 1 => f.inf
    | _ => f.sign + f.inf
  else match op with
    | 1 => ofInt (tyBits ty) (tyMax ty)
    | 2 => ofInt (tyBits ty) (tyMin ty)
    | 3 => 2 ^ tyBits ty - 1
    | _ => 0

/-- The operands of the lanes, the identity in those that do not contribute (R92, R30). -/
def redInput (cx : Cx) (op : Nat) : List Nat :=
  (List.range W).map fun l => if cx.actNH.getLsbD l then cx.va l else identity cx.ty op cx.m

/-- Combine lane i with lane i + h for i < h, h halving `n` times (R92). Every combination gives its flags, also one at a lane that
is not active: R80 names active lanes only, R92 each combination (log 89, DESIGN CHOICE). -/
def redTree (comb : Nat → Nat → FR) : Nat → List Nat → BitVec 5 → FR
  | 0, xs, fl => (xs.headD 0, fl)
  | n + 1, xs, fl =>
    let h := 2 ^ n
    let ys := (xs.take h).zipWith comb (xs.drop h)
    redTree comb n (ys.map (·.1)) (ys.foldl (fun a y => a ||| y.2) fl)

/-- VRED (R201). -/
def execVred (f : Fld) (s : State) : Host.Outcome State Fault Refusal := issue (.vred f) s fun cx s =>
  let op := cx.f.mn.toNat
  let r := redTree (combine cx.ty op cx.m) 6 (redInput cx op) 0
  .done (startOp s cx .reg (vWrite cx.ty cx.f.d.toNat cx.act fun _ => r.1) r.2)

/-- Combine lane i − d with lane i, all reads before the writes, d doubling from `d` for `n` steps (R93). Every combination gives
its flags, also one at a lane that is not active, as in R92 (log 90, DESIGN CHOICE). -/
def scanTree (comb : Nat → Nat → FR) : Nat → Nat → List Nat → BitVec 5 → List Nat × BitVec 5
  | 0, _, ys, fl => (ys, fl)
  | n + 1, d, ys, fl =>
    let zs := ys.zipWith comb (ys.drop d)
    scanTree comb n (2 * d) (ys.take d ++ zs.map (·.1)) (zs.foldl (fun a z => a ||| z.2) fl)

/-- VSCAN, inclusive or exclusive (R202). -/
def execVscan (f : Fld) (s : State) : Host.Outcome State Fault Refusal := issue (.vscan f) s fun cx s =>
  let op := cx.f.mn.toNat % 8
  let (ys, fl) := scanTree (combine cx.ty op cx.m) 6 1 (redInput cx op) 0
  let out := if bit cx.f.mn.toNat 3 then identity cx.ty op cx.m :: ys else ys
  .done (startOp s cx .reg (vWrite cx.ty cx.f.d.toNat cx.act fun l => out.getD l 0) fl)

/-! ### RAND -/

/-- The quarter round of R94. -/
def quarter (a b c d : Word) : Word × Word × Word × Word :=
  let a := a + b
  let d := (d ^^^ a).rotateLeft 16
  let c := c + d
  let b := (b ^^^ c).rotateLeft 12
  let a := a + b
  let d := (d ^^^ a).rotateLeft 8
  let c := c + d
  let b := (b ^^^ c).rotateLeft 7
  (a, b, c, d)

/-- `n` double rounds. -/
def doubleRounds : Nat → Word × Word × Word × Word → Word × Word × Word × Word
  | 0, x => x
  | n + 1, (a, b, c, d) =>
    let (a, b, c, d) := quarter a b c d
    let (b, c, d, a) := quarter b c d a
    doubleRounds n (a, b, c, d)

/-- The random value of a seed, a launch identifier, a global lane index and a draw count (R94). -/
def randValue (seed : DWord) (lid g draw : Word) : Word :=
  let (a, _, c, _) := doubleRounds 6 (seed.extractLsb' 0 32, seed.extractLsb' 32 32 ^^^ lid, g, draw)
  a ^^^ c

/-- RAND (R205): each active lane draws, and its draw counter advances. -/
def execRand (f : Fld) (s : State) : Host.Outcome State Fault Refusal := issue (.rand f) s fun cx s =>
  let glob (l : Nat) : Word := BitVec.ofNat 32 (cx.w.ix * 16 * W + cx.g.grp * W + l)
  let draw (l : Nat) : Word := Tab.get 0 cx.g.draw l
  let s1 := addFix s cx [.v cx.f.d.toNat cx.act (lanesOf fun l => randValue cx.l.seed cx.l.lid (glob l) (draw l))]
  .done (s1.modGroup cx.gk fun g => { g with
    draw := (lanesIn cx.act).foldl (fun t l => Tab.put t l (draw l + 1)) g.draw })

end Sys2Proof.Machine
end

