-- ==== Sys2Proof/Machine/Fabric.lean ====
section
/-! DEFINITION. Fabric ports and die links (R373, R425 to R428), collectives between modules (R424), soft errors and the
scrubber (R411 to R413). -/

namespace Sys2Proof.Machine

open Sys2Proof

/-! ### Flits -/

/-- A field of a flit's header. -/
def flitBits (flit : List Byte) (i n : Nat) : Nat := bits (fieldAt flit 0 8) i n
/-- SEQ. -/
def flitSeq (flit : List Byte) : Nat := flitBits flit 20 16
/-- The payload. -/
def flitData (flit : List Byte) : List Byte := (flit.drop 8).take (flitBits flit 36 7)
/-- Whether the CRC of a flit is good, and its payload no longer than a flit holds (R373). -/
def flitGood (flit : List Byte) : Bool :=
  (crc64 (flit.take 120)).toNat == fieldAt flit 120 8 && flitBits flit 36 7 ≤ 112

/-- Send an acknowledge flit: it names the last flit received in order, and may ask for a resend (R425). It is not kept. -/
def sendAck (s : State) (p : Nat) (resend : Bool) : State :=
  let x := s.port p
  let flit := mkFlit 5 s.moduleNo (s.peers.getD p 0) ((x.recvSeq + 65535) % 65536) 0 0 [if resend then 1 else 0]
  s.setPort p { x with out := x.out ++ [flit] }

/-- Receive a flit of a type on a port: one with a bad CRC or not the next expected is discarded, and a resend is asked for;
else it is served and acknowledged (R425): a refusal reaches its issuer before the acknowledgement of what is refused. -/
def receive (name : String) (type p : Nat) (flit : List Byte) (s : State) (serve : State → State) :
    Host.Outcome State Fault Refusal :=
  let x := s.port p
  if 18 ≤ p ∨ x.st ≠ 1 ∨ flit.length ≠ 128 ∨ flitBits flit 0 4 ≠ type then notNow name
  else if !flitGood flit || flitSeq flit != x.recvSeq then .next (sendAck s p true)
  else
    let s1 := s.setPort p { x with recvSeq := (x.recvSeq + 1) % 65536 }
    .next (sendAck (if flitBits flit 12 8 = s.moduleNo then serve s1 else s1) p false)

/-- Whether a peer's request to some bytes of HBM is admitted: within the space, and not a request of a non-secure agent, or on a
non-secure port, to a secure region (R373, R376). -/
def admitsPeer (s : State) (p : Nat) (flit : List Byte) (off n : Nat) : Bool :=
  off + n ≤ 2 ^ 39 && !((flitBits flit 43 1 == 1 || (s.port p).ns) && (List.range n).any fun i => secureAt s 0 (off + i))

/-- The answer to a peer's request; without a payload it is a refusal (log 12). -/
def answer (s : State) (p : Nat) (flit bs : List Byte) : State :=
  sendFlit s p 3 (flitBits flit 4 8) (flitBits flit 43 1) (flitBits flit 44 20) none bs

/-- FABRIC_WRITE (R373): a peer's write is checked against the region table and performed, or refused. -/
def execFabricWrite (port : Nat) (flit : List Byte) (s : State) : Host.Outcome State Fault Refusal :=
  receive "FABRIC_WRITE" 1 port flit s fun s =>
    let off := fieldAt (flitData flit) 0 8
    let data := (flitData flit).drop 8
    if admitsPeer s port flit off data.length then
      extWrite s (peerWho s (flitBits flit 4 8)) (data.zipIdx.map fun bi => (mKey 0 (off + bi.2), bi.1))
    else answer s port flit []

/-- The bytes that answer a peer's read: those of a poisoned unit are free. -/
def peerBytes (s : State) (w : Who) (off n : Nat) : List Byte × State :=
  let (bs, s1) := extRead s w ((List.range n).map fun i => mKey 0 (off + i))
  (bs.zipIdx.map fun x => if s.poisoned (mKey 0 (off + x.2)) then (Config.freeWord (s1.freeCtr + x.2)).extractLsb' 0 8 else x.1,
    { s1 with freeCtr := s1.freeCtr + n })

/-- Perform a peer's atomic, as its request says (log 15): the old value is the answer. -/
def peerAtomic (s : State) (w : Who) (off n : Nat) (old : List Byte) (req : List Byte) : State :=
  let r := atomOp (fieldAt req 0 1) (fieldAt req 1 1) (natOfBytes old) (fieldAt req 2 8) (fieldAt req 10 8)
  extWrite s w ((bytesOfNat n r.1).zipIdx.map fun bi => (mKey 0 (off + bi.2), bi.1))

/-- FABRIC_READ_REQUEST (R373): a peer's read, or its atomic (R65), is checked, performed and answered. -/
def execFabricReadRequest (port : Nat) (flit : List Byte) (s : State) : Host.Outcome State Fault Refusal :=
  receive "FABRIC_READ_REQUEST" 2 port flit s fun s =>
    let off := fieldAt (flitData flit) 0 8
    let n := min 112 (fieldAt (flitData flit) 8 2)
    let req := (flitData flit).drop 10
    let w : Who := { peerWho s (flitBits flit 4 8) with atom := !req.isEmpty }
    if admitsPeer s port flit off n then
      let (old, s1) := peerBytes s w off n
      answer (if req.isEmpty then s1 else peerAtomic s1 w off n old req) port flit old
    else answer s port flit []

/-- A deferred fault of an operation that is still outstanding and has none (R402); of what an agent has asked for outside a clause it
is a trap of the clause check (R401). -/
def strike (s : State) (id cause : Nat) (aux : DWord) : State :=
  match s.op? id with
  | none => s
  | some o =>
    let t := opTrap o cause aux
    if o.done || o.fault.isSome then s
    else deferFault s id (if o.k = .far then { t with atIssue := (clauseOf s o.ag).isSome } else t)

/-- A request of an operation has failed: a read is awaited no more, and may be asked again; the bytes of a write are remembered for
a retry (R404). -/
def failReq (s : State) (r : FarReq) (write : Bool) (cause : Nat) : State :=
  let hits : List Hit := if write then (List.range r.n).map fun i => { key := r.key + i, va := r.va + BitVec.ofNat 64 i } else []
  let s1 := strike (s.modOp r.op fun o => { o with tags := o.tags.filter (· != r.tag) }) r.op cause r.va
  s1.modOp r.op fun o => { o with fault := o.fault.map fun t => { t with far := t.far ++ hits } }

/-- The request with a tag that some port waits for, or that is not acknowledged, with its port. -/
def requestOf (s : State) (tag : Nat) (own : Port → List FarReq) : Option (Nat × FarReq) :=
  s.ports.findSome? fun p => ((own p.2).find? fun r => r.tag == tag && keyCode r.key == 3).map fun r => (p.1, r)

/-- Where the bytes that answer a request are kept. -/
def answerSlot (s : State) (r : FarReq) : Nat := match s.op? r.op with
  | none => r.key
  | some o => match o.k with
    | .atom .. => atomSlot r.tag 0
    | _ => r.key

/-- The data of a read arrive, or its refusal, which is the secure-world fault at the address of the access (R373, R56, R399). -/
def readArrives (s : State) (tag : Nat) (data : List Byte) : State :=
  match requestOf s tag (·.waiting) with
  | some (p, r) =>
    let x := s.port p
    let s1 := s.setPort p { x with waiting := x.waiting.filter fun w => w.tag != tag }
    if data.isEmpty then failReq s1 r false 0x49
    else
      let bytes := ((List.range r.n).zip data).map fun b => (answerSlot s1 r + b.1, b.2)
      s1.modOp r.op fun o =>
        { o with tags := o.tags.filter (· != tag), got := bytes.foldl (fun (g : Tab Byte) b => Tab.put g b.1 b.2) o.got }
  | none =>
    if data.isEmpty then match requestOf s tag (·.kept) with
      | some (_, r) => failReq s r true 0x49
      | none => s
    else s

/-- FABRIC_READ_DATA (R373). -/
def execFabricReadData (port : Nat) (flit : List Byte) (s : State) : Host.Outcome State Fault Refusal :=
  receive "FABRIC_READ_DATA" 3 port flit s fun s => readArrives s (flitBits flit 44 20) (flitData flit)

/-- Lay bytes at an offset of some bytes. -/
def overlay (bs : List Byte) (off : Nat) (data : List Byte) : List Byte :=
  bs.take off ++ List.replicate (off - bs.length) 0 ++ data ++ bs.drop (off + data.length)

/-- A piece of another module's data for a collective, with a bit for each poisoned byte (R274, R412). -/
def dataArrives (s : State) (comm rank seq : Nat) (key : List Nat) (off poison : Nat) (data : List Byte) : State :=
  match findColl s comm seq false with
  | none => s
  | some c =>
    if c.key != key || (Tab.find? c.keys rank).isNone then s
    else
      let bad := ((List.range data.length).filter (bit poison)).map fun j => (rank, off + j)
      setColl s { c with data := Tab.put c.data rank (overlay (Tab.get [] c.data rank) off data), bad := c.bad ++ bad }

/-- FABRIC_COLLECTIVE_DATA (R373, R274, R424): another member's call, a piece of its data, or its completion (log 12). -/
def execFabricCollectiveData (port : Nat) (flit : List Byte) (s : State) : Host.Outcome State Fault Refusal :=
  receive "FABRIC_COLLECTIVE_DATA" 4 port flit s fun s =>
    let d := flitData flit
    let f := fieldAt d
    let key := [bits (f 8 2) 0 3, bits (f 8 2) 3 2, bits (f 8 2) 5 10, f 10 4, f 14 2]
    if bit (f 8 2) 15 then
      if (d.drop 32).isEmpty then callArrives s (f 0 2) (f 2 2) (f 4 4) key else doneArrives s (f 0 2) (f 2 2) (f 4 4)
    else dataArrives s (f 0 2) (f 2 2) (f 4 4) key (f 16 8) (f 24 8) (d.drop 32)

/-! ### Acknowledgement, replay, retraining -/

/-- The flits kept that an acknowledgement of `seq` leaves: those after it. -/
def afterAck (seq : Nat) : List (List Byte) → Option (List (List Byte))
  | [] => none
  | f :: fs => if flitSeq f = seq then some fs else afterAck seq fs

/-- A port begins to retrain (R425). -/
def Port.startRetrain (x : Port) : Port :=
  { x with st := 2, retrain := min 255 (x.retrain + 1), resent := x.resent.map fun _ => 0 }

/-- Resend every flit kept in SEQ order; after 16 resends of one flit the port retrains (R425). -/
def Port.resend (x : Port) : Port :=
  let n := min x.sent x.unacked.length
  if n = 0 then x
  else
    let y := { x with out := x.out ++ x.unacked.take n, replay := min 65535 (x.replay + n)
                      resent := (x.resent.take n).map (· + 1) ++ x.resent.drop n }
    if y.resent.any (16 ≤ ·) then y.startRetrain else y

/-- What an acknowledgement does to a port. -/
def Port.acked (x : Port) (seq clock : Nat) (again : Bool) : Port :=
  let y := match afterAck seq x.unacked with
    | none => x
    | some rest =>
      let gone := (x.unacked.take (x.unacked.length - rest.length)).map flitSeq
      Port.transmit { x with unacked := rest, sent := x.sent - gone.length, resent := x.resent.drop gone.length, lastAck := clock
                             kept := x.kept.filter fun r => !decide (r.seq ∈ gone) }
  if again then { y with lastAck := clock }.resend else y

/-- FABRIC_ACKNOWLEDGE (R425). -/
def execFabricAcknowledge (port : Nat) (flit : List Byte) (s : State) : Host.Outcome State Fault Refusal :=
  let x := s.port port
  if 18 ≤ port ∨ x.st ≠ 1 ∨ flit.length ≠ 128 ∨ flitBits flit 0 4 ≠ 5 then notNow "FABRIC_ACKNOWLEDGE"
  else if !flitGood flit then .next (sendAck s port true)
  else .next (s.setPort port (x.acked (flitSeq flit) s.clock (fieldAt (flitData flit) 0 1 % 2 == 1)))

/-- A die link resends: how many flits it keeps is private to the implementation, and free (R427, R428). -/
def linkResend (s : State) (k : Nat) : State :=
  let x := s.dlink k
  s.free.2.setDlink k { x with replay := min 65535 (x.replay + 1 + Config.freeNat s.freeCtr) }

/-- REPLAY_TIMEOUT (R425): 4 µs, that is 10,000 cycles at 2.5 GHz, have passed without an acknowledgement. Number 18 + k names die
link k, whose flits stand in no state (R427; log 95, DESIGN CHOICE). -/
def execReplayTimeout (port : Nat) (s : State) : Host.Outcome State Fault Refusal :=
  let x := s.port port
  if 18 ≤ port then (if port < 21 ∧ (s.dlink (port - 18)).st = 1 then .next (linkResend s (port - 18)) else notNow "REPLAY_TIMEOUT")
  else if x.st ≠ 1 ∨ x.sent = 0 ∨ x.unacked.isEmpty ∨ (!s.clockLow ∧ s.clock < x.lastAck + 10000) then notNow "REPLAY_TIMEOUT"
  else .next (s.setPort port { x with lastAck := s.clock }.resend)

/-- A die link retrains (R427, R428). -/
def DLink.startRetrain (x : DLink) : DLink := { x with st := 2, retrain := min 255 (x.retrain + 1) }

/-- LANE_LOCK_LOSS (R425): the port retrains, or die link k under number 18 + k (R427; log 95). -/
def execLaneLockLoss (port : Nat) (s : State) : Host.Outcome State Fault Refusal :=
  let x := s.port port
  if 18 ≤ port then (if port < 21 ∧ (s.dlink (port - 18)).st = 1 then .next (s.setDlink (port - 18) (s.dlink (port - 18)).startRetrain)
    else notNow "LANE_LOCK_LOSS")
  else if x.st ≠ 1 then notNow "LANE_LOCK_LOSS" else .next (s.setPort port x.startRetrain)

/-- Send a flit that a failed port has not sent on another port that reaches its module, or fault its issuer (R426); `waits`: a tag
names a read. -/
def reroute (s : State) (waits : Nat → Bool) (req : Option FarReq) (flit : List Byte) : State :=
  match portTo s (flitBits flit 12 8) with
  | some p => sendFlit s p (flitBits flit 0 4) (flitBits flit 12 8) (flitBits flit 43 1) (flitBits flit 44 20) req (flitData flit)
  | none => match req with
    | none => s
    | some r => failReq s r (!(waits r.tag)) 0x81

/-- The members of this module of a collective that uses a failed port fail (R426, R424). -/
def failColl (s : State) (port : Nat) (c : Collective) : State :=
  let s1 := c.members.foldl (fun (s : State) m => strike s m.op 0x81 (BitVec.ofNat 64 (c.comm + port * 65536))) s
  recordFailed { s1 with colls := s1.colls.filter fun x => !(x.comm == c.comm && x.seq == c.seq && !x.failed) } c (c.members.map (·.rank))

/-- A port goes down (R426): the members of the collectives that use it, and the issuers of the requests sent on it, take cause
0x0081; its unsent requests leave elsewhere. -/
def portDown (s : State) (port : Nat) : State :=
  let x := s.port port
  let uses (c : Collective) : Bool := !c.failed && c.table.any fun e => e.1 != s.moduleNo && portTo s e.1 == some port
  let s0 := (s.colls.filter uses).foldl (fun s c => failColl s port c) s
  let s1 := (s0.setPort port { x with st := 3, unacked := [], sent := 0, resent := [], kept := [], waiting := [] }).logErr 10
  let late := x.unacked.drop x.sent
  let waits (tag : Nat) : Bool := x.waiting.any fun w => w.tag == tag
  let seqs := late.map flitSeq
  let ofSeq (f : List Byte) : Option FarReq := x.kept.find? fun r => r.seq == flitSeq f
  let s2 := late.foldl (fun (s : State) f => reroute s waits (ofSeq f) f) s1
  let (moved, lost) := (x.kept ++ x.waiting.filter fun w => !(x.kept.any fun r => r.tag == w.tag)).partition fun r =>
    decide (r.seq ∈ seqs) && x.kept.any fun k => k.tag == r.tag && k.seq == r.seq
  let s3 := (x.waiting.filter fun w => moved.any fun r => r.tag == w.tag && r.op == w.op).foldl (fun (s : State) w =>
    match portTo s (peerOf w.key) with
    | some p => s.setPort p { s.port p with waiting := (s.port p).waiting ++ [w] }
    | none => s) s2
  lost.foldl (fun (s : State) r => failReq s r (!(waits r.tag)) 0x81) s3

/-- PORT_RETRAIN_COMPLETE (R425, R426): traffic goes on, or the port retrains again; after three failures in a row it is down. -/
def execPortRetrainComplete (port : Nat) (ok : Bool) (s : State) : Host.Outcome State Fault Refusal :=
  let x := s.port port
  if x.st ≠ 2 then notNow "PORT_RETRAIN_COMPLETE"
  else if ok then .next (s.setPort port (Port.transmit { x with st := 1, fails := 0, lastAck := s.clock }))
  else if 3 ≤ x.fails + 1 then .next (portDown s port)
  else .next (s.setPort port { x.startRetrain with fails := x.fails + 1 })

/-- DIE_LINK_RETRAIN_COMPLETE (R427): traffic goes on, or the link retrains again; the third failure in a row kills every running
launch and ends the service of commands. A retraining whose beginning no event has told of has begun by then (log 95). -/
def execDieLinkRetrainComplete (link : Nat) (ok : Bool) (s : State) : Host.Outcome State Fault Refusal :=
  let x := s.dlink link
  if 3 ≤ link ∨ x.st = 3 ∨ x.st = 0 then notNow "DIE_LINK_RETRAIN_COMPLETE"
  else
    let y := if x.st = 1 then x.startRetrain else x
    if ok then .next (s.setDlink link { y with st := 1, fails := 0 })
    else if x.fails + 1 < 3 then .next (s.setDlink link { y.startRetrain with fails := x.fails + 1 })
    else
      let s1 := ({ s.setDlink link { y with st := 3, fails := 3 } with linkDown := true }).logErr 9
      let s2 := (s1.launches.map (·.1)).foldl killLaunch s1
      .next ((s2.queues.map (·.1)).foldl rejectPending s2)

/-! ### Soft errors -/

/-- What UEADDR names for a 64-bit word of L2: the L2 of its home die (R413). -/
def l2Place (s : State) (k : Nat) : DWord := BitVec.ofNat 64 ((homeDie s k).getD 0 * 2 ^ 46 + 2 * 2 ^ 48)

/-- SCRUB_PATROL (R411, R413): the scrubber corrects what it finds in a unit or a word of L2; poison it finds is logged. -/
def execScrubPatrol (loc : Nat) (s : State) : Host.Outcome State Fault Refusal :=
  let s1 := correctAt s loc
  .next (if loc / 8 * 8 ∈ s.l2poison then s1.foundUe (l2Place s loc) true
    else if s.poisoned loc then s1.foundUe (poisonAux (unitOf loc)) true else s1)

/-- A unit is poisoned (R411). -/
def poisonUnit (s : State) (k : Nat) : State :=
  if s.poisoned k then s else { s with poison := s.poison ++ [unitOf k], flaws := s.flaws.filter (· != unitOf k) }.foundUe (poisonAux (unitOf k)) false

/-- A 64-bit word of L2 is poisoned, in the L2 of its home die (R411, R413). -/
def poisonWord (s : State) (k : Nat) : State :=
  if s.poisoned k then s
  else { s with l2poison := s.l2poison ++ [k / 8 * 8], l2flaws := s.l2flaws.filter (· != k / 8 * 8) }.foundUe (l2Place s k) false

/-- A unit holds a correctable error. -/
def flawUnit (s : State) (k : Nat) : State :=
  if s.poisoned k || decide (unitOf k ∈ s.flaws) then s else { s with flaws := s.flaws ++ [unitOf k] }

/-- A 64-bit word of L2 holds a correctable error. -/
def flawWord (s : State) (k : Nat) : State :=
  if s.poisoned k || decide (k / 8 * 8 ∈ s.l2flaws) then s else { s with l2flaws := s.l2flaws ++ [k / 8 * 8] }

/-- Whether a launch has work on a die. -/
def worksOn (s : State) (die : Nat) (l : Nat) : Bool :=
  (s.wgs.any fun w => w.2.lnch == l && !w.2.saved && dieOf w.2.core == die) ||
  s.ops.any fun o => o.lnch == l && s.passes.any fun p => p.op == o.id && decide (die ∈ p.dies)

/-- A dirty line of L2 is lost: which one of HBM, the second tier or the host, and which older values its bytes then hold, is free
(R411). -/
def loseLine (s : State) : State :=
  let n := s.freeCtr
  let code := Config.freeNat n % 3
  let line := mKey code (Config.freeNat (n + 1) % tierBytes code / 128 * 128)
  let old (i : Nat) : Byte :=
    let ps := placesOf s (line + i) fun _ => true
    s.byteAt (line + i) (ps.getD (Config.freeNat (n + 2 + i) % ps.length) 0)
  { s with freeCtr := n + 130 }.writeBytes ((List.range 128).map fun i => (line + i, old i))

/-- Place an error in a register of a group. -/
def regError (s : State) (core slot r lane : Nat) : State :=
  s.modGroup (gKey core slot) fun g => { g with regErr := g.regErr ++ [(r, lane)] }

/-- Place a correctable error there: the next read corrects it. -/
def regFault (s : State) (core slot r lane : Nat) : State :=
  s.modGroup (gKey core slot) fun g => { g with regFlaw := g.regFlaw ++ [(r, lane)] }

/-- An error in a register of a spool processor. -/
def spoolError (s : State) (wg r : Nat) (worse : Bool) : State :=
  s.modWg wg fun w => { w with spool := w.spool.map fun p =>
    if worse then { p with regErr := p.regErr ++ [r] } else { p with regFlaw := p.regFlaw ++ [r] } }

/-- SOFT_ERROR (R411): what it leaves, by the array that it strikes. -/
def execSoftError (err : SoftErr) (s : State) : Host.Outcome State Fault Refusal :=
  match err with
  | .l1 _ => .next s
  | .tlb die =>
    let mine := s.tlbs.filter fun e => e.1 == die
    match mine[Config.freeNat s.freeCtr % mine.length]? with
    | none => .next s
    | some e => .next { s.free.2 with tlbs := s.tlbs.filter fun x => x != e }
  | .l2tag die dirty worse =>
    if !worse then .next s.corrected
    else if !dirty then .next s
    else
      let s1 := (s.foundUe (BitVec.ofNat 64 (die * 2 ^ 46 + 2 * 2 ^ 48)) false).logErr 11
      let mine := (s1.launches.map (·.1)).filter (worksOn s1 die)
      .next (loseLine (mine.foldl killLaunch s1))
  | .reg core slot r lane worse => .next (if worse then regError s core slot r.toNat lane else regFault s core slot r.toNat lane)
  | .spoolReg wg r worse => .next (spoolError s wg r worse)
  | .sramWord key worse =>
    .next (if keyCode key < 4 then (if worse then poisonWord s key else flawWord s key)
      else if worse then poisonUnit s key else flawUnit s key)
  | .accWord core tile row worse =>
    .next (if worse then (s.modMx core fun m => { m with bad := m.bad ++ [64 * tile + row] }).foundUe (corePlace core) false else s.corrected)
  | .dramUnit key worse => .next (if worse then poisonUnit s key else flawUnit s key)

end Sys2Proof.Machine
end

