-- ==== Sys2Proof/Machine/Float.lean ====
section
/-! DEFINITION. Floating-point instructions (R189 to R193) and conversions (R194 to R197). -/

namespace Sys2Proof.Machine

open Sys2Proof

/-- A fixed-latency float result of a type, with the flags of the lanes that raise them (R80). -/
def fResult (s : State) (cx : Cx) (ty : Nat) (f : Nat → FR) : State :=
  addFixF s cx (vWrite ty cx.f.d.toNat cx.act fun l => (f l).1) (cx.flags fun l => (f l).2)
/-- A variable-latency float result. -/
def fVarResult (s : State) (cx : Cx) (f : Nat → FR) : State :=
  startOp s cx .reg (vWrite cx.ty cx.f.d.toNat cx.act fun l => (f l).1) (cx.flags fun l => (f l).2)

/-- vd := op(va, b). -/
def fBin (op : Fmt → Nat → Nat → Nat → FR) (cx : Cx) (s : State) : Eff :=
  .done (fResult s cx cx.ty fun l => floatOp cx.ty (fun f a b _ => op f cx.m a b) (cx.va l) (cx.b l) 0)
/-- A variable-latency vd := op(va). -/
def fUnVar (op : Fmt → Nat → Nat → FR) (cx : Cx) (s : State) : Eff :=
  .done (fVarResult s cx fun l => op (fmtOf cx.ty) cx.m (cx.va l))

/-- FADD (R189). -/
def execFadd (f : Fld) (s : State) : Host.Outcome State Fault Refusal := issue (.fadd f) s (fBin fAdd)
/-- FSUB. -/
def execFsub (f : Fld) (s : State) : Host.Outcome State Fault Refusal := issue (.fsub f) s (fBin fSub)
/-- FMUL. -/
def execFmul (f : Fld) (s : State) : Host.Outcome State Fault Refusal := issue (.fmul f) s (fBin fMul)
/-- FMIN. -/
def execFmin (f : Fld) (s : State) : Host.Outcome State Fault Refusal := issue (.fmin f) s
  (fBin fun t _ a b => fMinMax t false a b)
/-- FMAX. -/
def execFmax (f : Fld) (s : State) : Host.Outcome State Fault Refusal := issue (.fmax f) s
  (fBin fun t _ a b => fMinMax t true a b)
/-- FLDEXP: k is b read as i32, the same for both halves of a packed pair. -/
def execFldexp (f : Fld) (s : State) : Host.Outcome State Fault Refusal := issue (.fldexp f) s fun cx s =>
  .done (fResult s cx cx.ty fun l =>
    floatOp cx.ty (fun t a _ _ => fLdexp t cx.m a (toSigned 32 (cx.opd cx.f.b.toNat 0 l))) (cx.va l) 0 0)
/-- FFMA (R190). -/
def execFfma (f : Fld) (s : State) : Host.Outcome State Fault Refusal := issue (.ffma f) s fun cx s =>
  .done (fResult s cx cx.ty fun l => floatOp cx.ty (fun t a b c => fFma t cx.m a b c) (cx.va l) (cx.b l) (cx.c l))
/-- FCMP (R191). -/
def execFcmp (f : Fld) (s : State) : Host.Outcome State Fault Refusal := issue (.fcmp f) s fun cx s =>
  let r (l : Nat) : Bool × BitVec 5 := fCmp (fmtOf cx.ty) cx.f.mn.toNat (cx.va l) (cx.b l)
  .done (addFixF s cx [.p (cx.f.d.toNat % 8) cx.act (maskOf fun l => (r l).1)] (cx.flags fun l => (r l).2))
/-- FRCP (R192). -/
def execFrcp (f : Fld) (s : State) : Host.Outcome State Fault Refusal := issue (.frcp f) s (fUnVar fRcp)
/-- FRSQ. -/
def execFrsq (f : Fld) (s : State) : Host.Outcome State Fault Refusal := issue (.frsq f) s (fUnVar fRsq)
/-- FSQRT. -/
def execFsqrt (f : Fld) (s : State) : Host.Outcome State Fault Refusal := issue (.fsqrt f) s (fUnVar fSqrt)
/-- FDIV. -/
def execFdiv (f : Fld) (s : State) : Host.Outcome State Fault Refusal := issue (.fdiv f) s fun cx s =>
  .done (fVarResult s cx fun l => fDiv (fmtOf cx.ty) cx.m (cx.va l) (cx.b l))
/-- FEXP2 (R82). -/
def execFexp2 (f : Fld) (s : State) : Host.Outcome State Fault Refusal := issue (.fexp2 f) s (fUnVar fun t _ a => fExp2 t a)
/-- FLOG2. -/
def execFlog2 (f : Fld) (s : State) : Host.Outcome State Fault Refusal := issue (.flog2 f) s (fUnVar fun t _ a => fLog2 t a)
/-- FSIN. -/
def execFsin (f : Fld) (s : State) : Host.Outcome State Fault Refusal := issue (.fsin f) s
  (fUnVar fun t _ a => fTrig t 6 a false)
/-- FCOS. -/
def execFcos (f : Fld) (s : State) : Host.Outcome State Fault Refusal := issue (.fcos f) s
  (fUnVar fun t _ a => fTrig t 7 a true)
/-- FRND (R193). -/
def execFrnd (f : Fld) (s : State) : Host.Outcome State Fault Refusal := issue (.frnd f) s fun cx s =>
  .done (fResult s cx cx.ty fun l => floatOp cx.ty (fun t a _ _ => fRnd t cx.m a) (cx.va l) 0 0)
/-- FCLASS. -/
def execFclass (f : Fld) (s : State) : Host.Outcome State Fault Refusal := issue (.fclass f) s fun cx s =>
  .done (vResultAs s cx 1 fun l => fClass (fmtOf cx.ty) (cx.va l))

/-! ### Conversions -/

/-- One conversion (R84, R194): destination and source types, rounding mode, pattern. -/
def convert (td ts mode x : Nat) : FR :=
  match tyFloat td, tyFloat ts with
  | true, true => cvtFF (fmtOf ts) (fmtOf td) mode x
  | true, false => cvtIF (fmtOf td) mode (tyVal ts x)
  | false, true => cvtFI (fmtOf ts) td mode x
  | false, false => (cvtII td (tyVal ts x), 0)

/-- CVT (R194). -/
def execCvt (f : Fld) (s : State) : Host.Outcome State Fault Refusal := issue (.cvt f) s fun cx s =>
  let ts := cx.f.c.toNat % 16
  .done (fResult s cx cx.ty fun l => convert cx.ty ts cx.m (cx.g.vVal ts cx.f.a.toNat l))

/-- CVTKB: L values in consecutive registers become one block (R86, R195). Where B lies inside the range of D the manual does not say
which of the two remains: the model writes E last (log 97, DESIGN CHOICE). -/
def execCvtkb (f : Fld) (s : State) : Host.Outcome State Fault Refusal := issue (.cvtkb f) s fun cx s =>
  let c := cx.f.c.toNat
  let bm := c % 8 + 2
  let block (l : Nat) : Nat × Nat × BitVec 5 := kbPack bm cx.m
    ((List.range (kbLen c)).map fun j => unpack (fmtOf cx.ty) (cx.g.vVal cx.ty (cx.f.a.toNat + j) l))
  let ws := (List.range (kbRegs c)).map fun i =>
    Wr.v (cx.f.d.toNat + i) cx.act (lanesOf fun l => BitVec.ofNat 32 ((block l).2.1 / 2 ^ (32 * i)))
  .done (startOp s cx .reg (ws ++ [Wr.v cx.f.b.toNat cx.act (lanesOf fun l => BitVec.ofNat 32 (block l).1)])
    (cx.flags fun l => (block l).2.2))

/-- UNPKB: the elements of a block as f32 (R87, R196). -/
def execUnpkb (f : Fld) (s : State) : Host.Outcome State Fault Refusal := issue (.unpkb f) s fun cx s =>
  let c := cx.f.c.toNat
  let bm := c % 8 + 2
  let packed (l : Nat) : Nat :=
    (List.range (kbRegs c)).foldl (fun x i => x + (cx.g.rv (cx.f.a.toNat + i) l).toNat * 2 ^ (32 * i)) 0
  .done (startOp s cx .reg ((List.range (kbLen c)).map fun j => Wr.v (cx.f.d.toNat + j) cx.act
    (lanesOf fun l => BitVec.ofNat 32 (kbUnpack bm ((cx.g.rv cx.f.b.toNat l).toNat % 256) (packed l) j))))

/-- PACK2 (R197). -/
def execPack2 (f : Fld) (s : State) : Host.Outcome State Fault Refusal := issue (.pack2 f) s fun cx s =>
  .done (fResult s cx 1 fun l =>
    let lo := cvtFF f32 (fmtOf cx.ty) cx.m (cx.g.rv cx.f.a.toNat l).toNat
    let hi := cvtFF f32 (fmtOf cx.ty) cx.m (cx.opd cx.f.b.toNat 2 l)
    (lo.1 + 2 ^ 16 * hi.1, lo.2 ||| hi.2))

/-- UNPK2 (R197). -/
def execUnpk2 (f : Fld) (s : State) : Host.Outcome State Fault Refusal := issue (.unpk2 f) s fun cx s =>
  let half (k l : Nat) : FR := cvtFF (fmtOf cx.ty) f32 0 ((cx.g.rv cx.f.a.toNat l).toNat / 2 ^ (16 * k) % 2 ^ 16)
  .done (addFixF s cx (vWrite32 cx.f.d.toNat cx.act (fun l => (half 0 l).1) ++
      vWrite32 (cx.f.d.toNat + 1) cx.act fun l => (half 1 l).1)
    (cx.flags fun l => (half 0 l).2 ||| (half 1 l).2))

end Sys2Proof.Machine
end

