-- ==== Sys2Proof/Machine/Dispatch.lean ====
section
/-! DEFINITION. What each instruction and event does: one arm for each constructor. -/

namespace Sys2Proof.Machine

open Sys2Proof

def exec (i : Instr) (s : State) : Host.Outcome State Fault Refusal :=
  match i with
  | .nop f => Sys2Proof.Machine.execNop f s
  | .yield f => Sys2Proof.Machine.execYield f s
  | .exit f => Sys2Proof.Machine.execExit f s
  | .ret f => Sys2Proof.Machine.execRet f s
  | .join f => Sys2Proof.Machine.execJoin f s
  | .joinT f => Sys2Proof.Machine.execJoinT f s
  | .joinTimerExpiry ag => Sys2Proof.Machine.execJoinTimerExpiry ag s
  | .trap f => Sys2Proof.Machine.execTrap f s
  | .sys f => Sys2Proof.Machine.execSys f s
  | .sysComplete id => Sys2Proof.Machine.execSysComplete id s
  | .sysServiceNone id => Sys2Proof.Machine.execSysServiceNone id s
  | .sysServiceLog id => Sys2Proof.Machine.execSysServiceLog id s
  | .sysServiceRaiseVector id => Sys2Proof.Machine.execSysServiceRaiseVector id s
  | .sysServiceHostWrite id => Sys2Proof.Machine.execSysServiceHostWrite id s
  | .bra f => Sys2Proof.Machine.execBra f s
  | .brpAll f => Sys2Proof.Machine.execBrpAll f s
  | .brpAny f => Sys2Proof.Machine.execBrpAny f s
  | .brpNone f => Sys2Proof.Machine.execBrpNone f s
  | .brv f => Sys2Proof.Machine.execBrv f s
  | .brx f => Sys2Proof.Machine.execBrx f s
  | .call f => Sys2Proof.Machine.execCall f s
  | .callx f => Sys2Proof.Machine.execCallx f s
  | .sadd f => Sys2Proof.Machine.execSadd f s
  | .ssub f => Sys2Proof.Machine.execSsub f s
  | .smin f => Sys2Proof.Machine.execSmin f s
  | .smax f => Sys2Proof.Machine.execSmax f s
  | .sand f => Sys2Proof.Machine.execSand f s
  | .sor f => Sys2Proof.Machine.execSor f s
  | .sxor f => Sys2Proof.Machine.execSxor f s
  | .snot f => Sys2Proof.Machine.execSnot f s
  | .sshl f => Sys2Proof.Machine.execSshl f s
  | .sshr f => Sys2Proof.Machine.execSshr f s
  | .sclz f => Sys2Proof.Machine.execSclz f s
  | .spop f => Sys2Proof.Machine.execSpop f s
  | .smul f => Sys2Proof.Machine.execSmul f s
  | .smulh f => Sys2Proof.Machine.execSmulh f s
  | .smad f => Sys2Proof.Machine.execSmad f s
  | .sdiv f => Sys2Proof.Machine.execSdiv f s
  | .srem f => Sys2Proof.Machine.execSrem f s
  | .scmp f => Sys2Proof.Machine.execScmp f s
  | .ssel f => Sys2Proof.Machine.execSsel f s
  | .smov f => Sys2Proof.Machine.execSmov f s
  | .sli f => Sys2Proof.Machine.execSli f s
  | .sbfe f => Sys2Proof.Machine.execSbfe f s
  | .sbfi f => Sys2Proof.Machine.execSbfi f s
  | .getsr f => Sys2Proof.Machine.execGetsr f s
  | .getsrVector f => Sys2Proof.Machine.execGetsrVector f s
  | .setsr f => Sys2Proof.Machine.execSetsr f s
  | .vadd f => Sys2Proof.Machine.execVadd f s
  | .vsub f => Sys2Proof.Machine.execVsub f s
  | .vmin f => Sys2Proof.Machine.execVmin f s
  | .vmax f => Sys2Proof.Machine.execVmax f s
  | .vand f => Sys2Proof.Machine.execVand f s
  | .vor f => Sys2Proof.Machine.execVor f s
  | .vxor f => Sys2Proof.Machine.execVxor f s
  | .vnot f => Sys2Proof.Machine.execVnot f s
  | .vshl f => Sys2Proof.Machine.execVshl f s
  | .vshr f => Sys2Proof.Machine.execVshr f s
  | .vabs f => Sys2Proof.Machine.execVabs f s
  | .vclz f => Sys2Proof.Machine.execVclz f s
  | .vpop f => Sys2Proof.Machine.execVpop f s
  | .vbrev f => Sys2Proof.Machine.execVbrev f s
  | .vmul f => Sys2Proof.Machine.execVmul f s
  | .vmulh f => Sys2Proof.Machine.execVmulh f s
  | .vmad f => Sys2Proof.Machine.execVmad f s
  | .vdiv f => Sys2Proof.Machine.execVdiv f s
  | .vrem f => Sys2Proof.Machine.execVrem f s
  | .vcmp f => Sys2Proof.Machine.execVcmp f s
  | .vsel f => Sys2Proof.Machine.execVsel f s
  | .vmov f => Sys2Proof.Machine.execVmov f s
  | .vli f => Sys2Proof.Machine.execVli f s
  | .vbfe f => Sys2Proof.Machine.execVbfe f s
  | .vbfi f => Sys2Proof.Machine.execVbfi f s
  | .vbrevFld f => Sys2Proof.Machine.execVbrevFld f s
  | .fadd f => Sys2Proof.Machine.execFadd f s
  | .fsub f => Sys2Proof.Machine.execFsub f s
  | .fmul f => Sys2Proof.Machine.execFmul f s
  | .fmin f => Sys2Proof.Machine.execFmin f s
  | .fmax f => Sys2Proof.Machine.execFmax f s
  | .fldexp f => Sys2Proof.Machine.execFldexp f s
  | .ffma f => Sys2Proof.Machine.execFfma f s
  | .fcmp f => Sys2Proof.Machine.execFcmp f s
  | .frcp f => Sys2Proof.Machine.execFrcp f s
  | .frsq f => Sys2Proof.Machine.execFrsq f s
  | .fsqrt f => Sys2Proof.Machine.execFsqrt f s
  | .fdiv f => Sys2Proof.Machine.execFdiv f s
  | .fexp2 f => Sys2Proof.Machine.execFexp2 f s
  | .flog2 f => Sys2Proof.Machine.execFlog2 f s
  | .fsin f => Sys2Proof.Machine.execFsin f s
  | .fcos f => Sys2Proof.Machine.execFcos f s
  | .frnd f => Sys2Proof.Machine.execFrnd f s
  | .fclass f => Sys2Proof.Machine.execFclass f s
  | .cvt f => Sys2Proof.Machine.execCvt f s
  | .cvtkb f => Sys2Proof.Machine.execCvtkb f s
  | .unpkb f => Sys2Proof.Machine.execUnpkb f s
  | .pack2 f => Sys2Proof.Machine.execPack2 f s
  | .unpk2 f => Sys2Proof.Machine.execUnpk2 f s
  | .pand f => Sys2Proof.Machine.execPand f s
  | .por f => Sys2Proof.Machine.execPor f s
  | .pxor f => Sys2Proof.Machine.execPxor f s
  | .pnot f => Sys2Proof.Machine.execPnot f s
  | .voteAll f => Sys2Proof.Machine.execVoteAll f s
  | .voteAny f => Sys2Proof.Machine.execVoteAny f s
  | .voteBallot f => Sys2Proof.Machine.execVoteBallot f s
  | .shfl f => Sys2Proof.Machine.execShfl f s
  | .vred f => Sys2Proof.Machine.execVred f s
  | .vscan f => Sys2Proof.Machine.execVscan f s
  | .qswz f => Sys2Proof.Machine.execQswz f s
  | .qbc f => Sys2Proof.Machine.execQbc f s
  | .vreadl f => Sys2Proof.Machine.execVreadl f s
  | .vwritel f => Sys2Proof.Machine.execVwritel f s
  | .rand f => Sys2Proof.Machine.execRand f s
  | .tiset f => Sys2Proof.Machine.execTiset f s
  | .tiopLd f => Sys2Proof.Machine.execTiopLd f s
  | .tiopSt f => Sys2Proof.Machine.execTiopSt f s
  | .tiopAdv f => Sys2Proof.Machine.execTiopAdv f s
  | .tiget f => Sys2Proof.Machine.execTiget f s
  | .spill f => Sys2Proof.Machine.execSpill f s
  | .fill f => Sys2Proof.Machine.execFill f s
  | .ld f => Sys2Proof.Machine.execLd f s
  | .st f => Sys2Proof.Machine.execSt f s
  | .lds f => Sys2Proof.Machine.execLds f s
  | .sts f => Sys2Proof.Machine.execSts f s
  | .atom f => Sys2Proof.Machine.execAtom f s
  | .atomOrd f => Sys2Proof.Machine.execAtomOrd f s
  | .orderedPassage lnch site => Sys2Proof.Machine.execOrderedPassage lnch site s
  | .lcopy f => Sys2Proof.Machine.execLcopy f s
  | .lcopyComplete id => Sys2Proof.Machine.execLcopyComplete id s
  | .waitf f => Sys2Proof.Machine.execWaitf f s
  | .waitfReturn ag => Sys2Proof.Machine.execWaitfReturn ag s
  | .fence f => Sys2Proof.Machine.execFence f s
  | .promote f => Sys2Proof.Machine.execPromote f s
  | .bari f => Sys2Proof.Machine.execBari f s
  | .bara f => Sys2Proof.Machine.execBara f s
  | .barw f => Sys2Proof.Machine.execBarw f s
  | .barwReturn ag => Sys2Proof.Machine.execBarwReturn ag s
  | .bart f => Sys2Proof.Machine.execBart f s
  | .qpop f => Sys2Proof.Machine.execQpop f s
  | .qpopTry f => Sys2Proof.Machine.execQpopTry f s
  | .qpopServe ag => Sys2Proof.Machine.execQpopServe ag s
  | .qpush f => Sys2Proof.Machine.execQpush f s
  | .obres f => Sys2Proof.Machine.execObres f s
  | .obrel f => Sys2Proof.Machine.execObrel f s
  | .mloopNew f => Sys2Proof.Machine.execMloopNew f s
  | .mloopAcc f => Sys2Proof.Machine.execMloopAcc f s
  | .sequencerCommandStart core => Sys2Proof.Machine.execSequencerCommandStart core s
  | .mloopReadArrival core => Sys2Proof.Machine.execMloopReadArrival core s
  | .mloopComplete core => Sys2Proof.Machine.execMloopComplete core s
  | .mpub f => Sys2Proof.Machine.execMpub f s
  | .headTileTake core => Sys2Proof.Machine.execHeadTileTake core s
  | .spreq f => Sys2Proof.Machine.execSpreq f s
  | .sprecv f => Sys2Proof.Machine.execSprecv f s
  | .sprecvTry f => Sys2Proof.Machine.execSprecvTry f s
  | .sprecvReceive ag => Sys2Proof.Machine.execSprecvReceive ag s
  | .tcopy f => Sys2Proof.Machine.execTcopy f s
  | .tcopyComplete id => Sys2Proof.Machine.execTcopyComplete id s
  | .coll f => Sys2Proof.Machine.execColl f s
  | .collComplete id => Sys2Proof.Machine.execCollComplete id s
  | .rcvt f => Sys2Proof.Machine.execRcvt f s
  | .boxt f => Sys2Proof.Machine.execBoxt f s
  | .fdin f => Sys2Proof.Machine.execFdin f s
  | .trit f => Sys2Proof.Machine.execTrit f s
  | .rhit f => Sys2Proof.Machine.execRhit f s
  | .rtrace f => Sys2Proof.Machine.execRtrace f s
  | .rtraceComplete id => Sys2Proof.Machine.execRtraceComplete id s
  | .nswap f => Sys2Proof.Machine.execNswap f s
  | .gdrain f => Sys2Proof.Machine.execGdrain f s
  | .gdrainReturn ag => Sys2Proof.Machine.execGdrainReturn ag s
  | .drawv f => Sys2Proof.Machine.execDrawv f s
  | .drawvPassComplete id => Sys2Proof.Machine.execDrawvPassComplete id s
  | .slbegin f => Sys2Proof.Machine.execSlbegin f s
  | .slend f => Sys2Proof.Machine.execSlend f s
  | .slnext f => Sys2Proof.Machine.execSlnext f s
  | .slnextWaitEnd ag => Sys2Proof.Machine.execSlnextWaitEnd ag s
  | .stadv f => Sys2Proof.Machine.execStadv f s
  | .stjmp f => Sys2Proof.Machine.execStjmp f s
  | .waitl f => Sys2Proof.Machine.execWaitl f s
  | .waitlReturn ag => Sys2Proof.Machine.execWaitlReturn ag s
  | .launch f => Sys2Proof.Machine.execLaunch f s
  | .launchTry f => Sys2Proof.Machine.execLaunchTry f s
  | .launchPoolWaitEnd ag => Sys2Proof.Machine.execLaunchPoolWaitEnd ag s
  | .tstat f => Sys2Proof.Machine.execTstat f s
  | .clauseStart ag => Sys2Proof.Machine.execClauseStart ag s
  | .issueHoldRelease ag => Sys2Proof.Machine.execIssueHoldRelease ag s
  | .variableLatencyComplete id => Sys2Proof.Machine.execVariableLatencyComplete id s
  | .pageWalkComplete die lnch va => Sys2Proof.Machine.execPageWalkComplete die lnch va s
  | .engineFault id => Sys2Proof.Machine.execEngineFault id s
  | .tractSkip q serial => Sys2Proof.Machine.execTractSkip q serial s
  | .tractRetry q serial => Sys2Proof.Machine.execTractRetry q serial s
  | .tractKill q serial => Sys2Proof.Machine.execTractKill q serial s
  | .trkill q lid => Sys2Proof.Machine.execTrkill q lid s
  | .trheadWrite q value => Sys2Proof.Machine.execTrheadWrite q value s
  | .trbaseWrite q value => Sys2Proof.Machine.execTrbaseWrite q value s
  | .workgroupDispatch lnch core => Sys2Proof.Machine.execWorkgroupDispatch lnch core s
  | .workgroupRetire wg => Sys2Proof.Machine.execWorkgroupRetire wg s
  | .scoreboardBitReceive lnch die wgix => Sys2Proof.Machine.execScoreboardBitReceive lnch die wgix s
  | .graphNodeStart graph node => Sys2Proof.Machine.execGraphNodeStart graph node s
  | .graphReplayStart graph => Sys2Proof.Machine.execGraphReplayStart graph s
  | .groupSwapStart core => Sys2Proof.Machine.execGroupSwapStart core s
  | .groupSwapEnd core => Sys2Proof.Machine.execGroupSwapEnd core s
  | .bridleEvaluate slice => Sys2Proof.Machine.execBridleEvaluate slice s
  | .contextSave save => Sys2Proof.Machine.execContextSave save s
  | .lateCompletionApply id => Sys2Proof.Machine.execLateCompletionApply id s
  | .workgroupRestore save record => Sys2Proof.Machine.execWorkgroupRestore save record s
  | .qtailWrite q value => Sys2Proof.Machine.execQtailWrite q value s
  | .qctlWrite q value => Sys2Proof.Machine.execQctlWrite q value s
  | .qsizeWrite q value => Sys2Proof.Machine.execQsizeWrite q value s
  | .qerrRead q => Sys2Proof.Machine.execQerrRead q s
  | .queueNop q => Sys2Proof.Machine.execQueueNop q s
  | .launchCommand q => Sys2Proof.Machine.execLaunchCommand q s
  | .graphCommand q => Sys2Proof.Machine.execGraphCommand q s
  | .waitv q => Sys2Proof.Machine.execWaitv q s
  | .waitvSatisfied q => Sys2Proof.Machine.execWaitvSatisfied q s
  | .frame q => Sys2Proof.Machine.execFrame q s
  | .frameEncodeComplete id => Sys2Proof.Machine.execFrameEncodeComplete id s
  | .inval q => Sys2Proof.Machine.execInval q s
  | .invalComplete id => Sys2Proof.Machine.execInvalComplete id s
  | .preempt q => Sys2Proof.Machine.execPreempt q s
  | .resume q => Sys2Proof.Machine.execResume q s
  | .comm q => Sys2Proof.Machine.execComm q s
  | .bridle q => Sys2Proof.Machine.execBridle q s
  | .region q => Sys2Proof.Machine.execRegion q s
  | .commandComplete id => Sys2Proof.Machine.execCommandComplete id s
  | .restart value => Sys2Proof.Machine.execRestart value s
  | .irqstatWrite value => Sys2Proof.Machine.execIrqstatWrite value s
  | .errlogWrite value => Sys2Proof.Machine.execErrlogWrite value s
  | .flashctlWrite value => Sys2Proof.Machine.execFlashctlWrite value s
  | .flashWindowWrite off value => Sys2Proof.Machine.execFlashWindowWrite off value s
  | .apertureAccess write off size value => Sys2Proof.Machine.execApertureAccess write off size value s
  | .cecntRead => Sys2Proof.Machine.execCecntRead s
  | .uestatWrite value => Sys2Proof.Machine.execUestatWrite value s
  | .portstatRead port => Sys2Proof.Machine.execPortstatRead port s
  | .dlstatRead link => Sys2Proof.Machine.execDlstatRead link s
  | .registerWrite reg value => Sys2Proof.Machine.execRegisterWrite reg value s
  | .moduleReset => Sys2Proof.Machine.execModuleReset s
  | .startTimeout => Sys2Proof.Machine.execStartTimeout s
  | .thermalTrip => Sys2Proof.Machine.execThermalTrip s
  | .powerLimit reached => Sys2Proof.Machine.execPowerLimit reached s
  | .fabricWrite port flit => Sys2Proof.Machine.execFabricWrite port flit s
  | .fabricReadRequest port flit => Sys2Proof.Machine.execFabricReadRequest port flit s
  | .fabricReadData port flit => Sys2Proof.Machine.execFabricReadData port flit s
  | .fabricCollectiveData port flit => Sys2Proof.Machine.execFabricCollectiveData port flit s
  | .fabricAcknowledge port flit => Sys2Proof.Machine.execFabricAcknowledge port flit s
  | .replayTimeout port => Sys2Proof.Machine.execReplayTimeout port s
  | .laneLockLoss port => Sys2Proof.Machine.execLaneLockLoss port s
  | .portRetrainComplete port ok => Sys2Proof.Machine.execPortRetrainComplete port ok s
  | .dieLinkRetrainComplete link ok => Sys2Proof.Machine.execDieLinkRetrainComplete link ok s
  | .scrubPatrol loc => Sys2Proof.Machine.execScrubPatrol loc s
  | .softError err => Sys2Proof.Machine.execSoftError err s
  | .trainingComplete reason => Sys2Proof.Machine.execTrainingComplete reason s
  | .flashWriteComplete off => Sys2Proof.Machine.execFlashWriteComplete off s

end Sys2Proof.Machine
end

