-- ==== Sys2Proof/Machine/Sched.lean ====
section
/-! DEFINITION. Which act comes next: the agenda's, or the device's own choice (R331, R332); and how a single
instruction is laid before a resident group. -/

namespace Sys2Proof.Machine

open Sys2Proof

/-! ### Cycles -/

/-- Whether a swap of a core has still to start, or to end, in this cycle (R333). -/
def swapDue (s : State) (core : Nat) : Bool :=
  let c := s.core core
  match c.swap with
  | some (_, _, last) => last < s.clock
  | none => !c.halted && (swapChoice s core).isSome

/-- Whether everything that must happen in this cycle has happened: no candidate of any core can go on, and no swap has still to start
or to end (R332, R333, R40). -/
def tickOk (s : State) : Bool :=
  ((s.groups.map fun e => e.1 / 48).eraseDups).all fun core => !swapDue s core && (candsOf s core).all fun c => !c.goes s core

/-- A cycle passes: the ready splits that did not issue age, timers that have run out take effect and the others count, the traps of
the cycle are recorded, killed launches go on to their end, staged loops close and open (R316), grids are cut, a start goes on, and turns pass (R35, R39, R328, R335,
R377, R390, R393, R395). -/
def tick (s : State) : State :=
  let s1 := expireAll { s with groups := s.groups.map (ageAt s) }
  let s2 := flushAll { s1 with groups := s1.groups.map (countAt s1), sealed := [] }
  let s3 := s2.launches.foldl (fun (s : State) l => reap s l.1) s2
  let s4 := bootTick (cutGrids (closeLoops s3))
  let s5 := { s4 with clock := s4.clock + 1 }
  s5.wgs.foldl (fun (s : State) (w : Nat × Wg) => settleTurn s w.1) s5

/-! ### Acts -/

/-- Whether an agent has its turn to issue an instruction of an opcode: a group's split, and the spool processor of a deterministic
workgroup, in the ranking (R332, R335). -/
def hasSlot (s : State) (ag : Agent) (op : Nat) : Bool :=
  canRun s ag op && (match ag with
    | .none => false
    | .group core _ _ => inTurn s core ag
    | .spool w => !wgDet s w || (s.wg? w).any fun x => inTurn s x.core ag)

/-- The instruction that an agent may issue in this cycle: one that neither waits nor is held takes an issue slot. -/
def mayIssue (s : State) (ag : Agent) : Option Instr :=
  match clauseOf s ag with
  | some (cl, 0) => match headInstr cl with
    | none => none
    | some i => match enc i with
      | none => none
      | some (_, r) =>
        if cl.started && cl.issueAt ≤ s.clock && !barred s ag && (cl.inside || headerReady s ag cl) &&
            (if atUnmetWait s ag cl || nextHeld s ag cl then mayReturn s ag else hasSlot s ag r.op.toNat) then some i else none
  | _ => none

/-- What an act comes to that may not undo what its cycle has settled (R237, R316). -/
def ordered (s : State) (note : State → State) : Host.Outcome State Fault Refusal → Host.Outcome State Fault Refusal
  | .next t => if sealKept s t then .next (note t) else .fault (.notEnabled "CYCLE_ORDER")
  | x => x

/-- An agent issues an instruction. -/
def issueNow (s : State) (ag : Agent) (i : Instr) : Host.Outcome State Fault Refusal :=
  ordered s (fun t => noteAct s t ag i) (exec i { s with cur := ag })

/-- Let cycles pass until an instruction may issue, at most `n`, and issue it. -/
def issueWithin (ag : Agent) : Nat → State → Host.Outcome State Fault Refusal
  | 0, s => match mayIssue s ag with
    | some i => issueNow s ag i
    | none => .fault (.notEnabled "ISSUE")
  | n + 1, s => match mayIssue s ag with
    | some i => issueNow s ag i
    | none => if tickOk s then issueWithin ag n (tick s) else .fault (.notEnabled "ISSUE")

/-- The most cycles a stall count and one issue of the group before it can hold an instruction back. -/
def maxStall : Nat := 10

/-- What the return of a wait settles for the cycle. -/
def noteEvent (s : State) (e : Instr) (t : State) : State :=
  match e with
  | .barwReturn ag | .waitlReturn ag | .slnextWaitEnd ag => match (clauseOf s ag).bind fun c => headInstr c.1 with
    | some i => noteAct s t ag i
    | none => t
  | _ => t

/-- Perform one act. A cycle passes once nothing more can issue in it (R332). -/
def runAct (s : State) : Act → Host.Outcome State Fault Refusal
  | .tick => if tickOk s then .next (tick s) else .fault (.notEnabled "TICK")
  | .issue c sl k => issueWithin (.group c sl k) maxStall s
  | .spool w => issueWithin (.spool w) maxStall s
  | .event i => match enc i with
    | none => ordered s (noteEvent s i) (exec i s)
    | some _ => .fault (.notEnabled "EVENT")

/-- The first act of a list that is possible now. -/
def firstAct (s : State) : List Act → Host.Outcome State Fault Refusal
  | [] => .next (tick s)
  | a :: as => match runAct s a with
    | .next t => .next t
    | _ => firstAct s as

/-! ### The device's own choice -/

/-- Candidates in the ranking of R332. -/
def ranked : List Cand → List Cand → List Cand
  | done, [] => done
  | done, c :: cs => ranked (done.takeWhile (fun d => d.before c) ++ c :: done.dropWhile (fun d => d.before c)) cs

/-- The act by which an agent issues. -/
def issueAct : Agent → Option Act
  | .none => none
  | .group c sl k => some (.issue c sl k)
  | .spool w => some (.spool w)

/-- The agents of a core that may issue now, in the ranking of R332. -/
def issueActs (s : State) (core : Nat) : List Act := (ranked [] (candsOf s core)).filterMap fun c => issueAct c.ag

/-- The splits of a core that reach a wait that is not met, or an instruction whose issue is held in place (R124, R25). -/
def holdActs (s : State) (core : Nat) : List Act :=
  (coreGroups s core).flatMap fun g => (List.range 4).filterMap fun k =>
    let ag := Agent.group core g.1 k
    match clauseOf s ag with
    | some (c, 0) => if (atUnmetWait s ag c || nextHeld s ag c) && (mayIssue s ag).isSome then some (.issue core g.1 k) else none
    | _ => none

/-- The agents of a workgroup's groups and its spool processor. -/
def agentsOf (w : Nat × Wg) : List Agent :=
  if w.2.saved then [] else (w.2.slots.flatMap fun sl => (List.range 4).map fun k => Agent.group w.2.core sl k) ++ [.spool w.1]

/-- The events that end an agent's wait. -/
def agentActs (ag : Agent) : List Act :=
  [Instr.waitfReturn ag, .barwReturn ag, .qpopServe ag, .sprecvReceive ag, .gdrainReturn ag, .slnextWaitEnd ag, .waitlReturn ag,
   .launchPoolWaitEnd ag, .joinTimerExpiry ag].map .event
/-- The events by which an agent comes to stand where it may issue. -/
def startActs (ag : Agent) : List Act := [Instr.issueHoldRelease ag, .clauseStart ag].map .event

/-- The events that complete an operation, once its latency has passed. -/
def opActs (s : State) (o : Op) : List Act :=
  if s.clock < o.due then []
  else [Instr.sysServiceNone o.id, .sysServiceLog o.id, .sysServiceRaiseVector o.id, .sysServiceHostWrite o.id, .sysComplete o.id,
    .lcopyComplete o.id, .tcopyComplete o.id, .collComplete o.id, .rtraceComplete o.id, .drawvPassComplete o.id,
    .variableLatencyComplete o.id, .lateCompletionApply o.id, .engineFault o.id].map .event

/-- The events of a core. -/
def coreActs (core : Nat) : List Act :=
  [Instr.groupSwapEnd core, .sequencerCommandStart core, .headTileTake core, .mloopReadArrival core, .mloopComplete core,
   .groupSwapStart core].map .event

/-- The events of a launch: passages, the receipt of retirement bits, dispatch. -/
def launchActs (l : Nat × Launch) : List Act :=
  ((List.range l.2.sites.length).map fun i => .event (.orderedPassage l.1 i)) ++
  ((if l.2.k.deps.isEmpty then [] else [0, 1, 2]).flatMap fun d => l.2.done.map fun ix => .event (.scoreboardBitReceive l.1 d ix)) ++
  (List.range 144).map fun c => .event (.workgroupDispatch l.1 c)

/-- The commands that a queue may hold at its head. -/
def queueActs (q : Nat) : List Act :=
  [Instr.queueNop q, .launchCommand q, .graphCommand q, .waitvSatisfied q, .waitv q, .frame q, .inval q, .preempt q, .resume q, .comm q,
   .bridle q, .region q].map .event

/-- The events of a started command, of a graph, of a save, of a slice. -/
def unitActs (s : State) : List Act :=
  (s.cmds.flatMap fun c => [Instr.commandComplete c.1, .invalComplete c.1, .frameEncodeComplete c.1].map .event) ++
  (s.graphs.flatMap fun g => .event (.graphReplayStart g.1) ::
    (List.range g.2.nodes.length).map fun n => .event (.graphNodeStart g.1 n)) ++
  (s.saves.flatMap fun sv => .event (.contextSave sv.1) :: sv.2.recs.map fun r => .event (.workgroupRestore sv.1 r.1)) ++
  ((List.range s.slices.length).map fun n => .event (.bridleEvaluate n)) ++
  s.ports.map fun p => .event (.replayTimeout p.1)

/-- The acts that the device may choose among when the agenda is empty, in the order in which it tries them (log 2): what arrives in
a cycle comes before what is evaluated in it (R237, R316). -/
def choices (s : State) : List Act :=
  let agents := (s.wgs.filter fun w => !w.2.saved).flatMap agentsOf
  s.ops.flatMap (opActs s) ++ s.cores.flatMap (fun c => coreActs c.1) ++ agents.flatMap startActs ++
  agents.filterMap (fun ag => if isSpool ag && (mayIssue s ag).isSome then issueAct ag else none) ++
  s.cores.flatMap (fun c => issueActs s c.1) ++ s.cores.flatMap (fun c => holdActs s c.1) ++ agents.flatMap agentActs ++
  s.wgs.map (fun w => .event (.workgroupRetire w.1)) ++ unitActs s ++ s.launches.flatMap launchActs ++
  s.queues.flatMap fun q => queueActs q.1

/-- One step: the agenda's next act, or the device's own choice. -/
def stepOnce (s : State) : Host.Outcome State Fault Refusal :=
  match s.agenda with
  | a :: rest => runAct { s with agenda := rest } a
  | [] => firstAct s (choices s)

/-! ### Laying one instruction before a resident agent -/

/-- A clause that holds one instruction, started. -/
def oneClause (ps : List Word) (clock : Nat) : Clause :=
  { hdr := BitVec.ofNat 64 (16 * (ps.length - 1)), at_ := 8, idx := 0, rest := ps, started := true, base := clock, y := false }

/-- The parcels of the first instruction of some bytes. -/
def firstParcels (bs : List Byte) : List Word :=
  match takeWord bs with
  | none => []
  | some (p0, r) =>
    match takeRest (min (lenOf p0) 2) r with
    | none => [p0]
    | some (p1, p2, _) => (p0 :: [p1, p2]).take (lenOf p0 + 1)

/-- A state in which a converged group in slot 0 of core 0, or for a spool-only opcode its spool processor, stands before
the instruction of a table word, in an instruction buffer that holds it alone. -/
def placeWord (s : State) (nbits w : Nat) : State :=
  let ps := firstParcels (tableBytes nbits w)
  let cl := oneClause ps s.clock
  let onSp := decide (opOf (ps.headD 0) ∈ [0x68, 0x69, 0x6A])
  let sp : Split := if onSp then {} else { v := true, mask := BitVec.allOnes 64, cl := some cl }
  let g : Group := { wg := 0, grp := 0, splits := [sp, {}, {}, {}], joins := [{}, {}, {}], lmask := BitVec.allOnes 64 }
  let p : Spool := { cl := if onSp then some cl else none }
  { s with
    launches := Tab.put s.launches 0 { q := 0, lid := 0, k := { regs := 256, staged := true, nsite := 8 } }
    wgs := Tab.put s.wgs 0 { lnch := 0, core := 0, ix := 0, slots := [0], spool := some p }
    groups := Tab.put s.groups (gKey 0 0) g
    cores := Tab.put s.cores 0 { s.core 0 with active := [0] }
    agenda := [if onSp then .spool 0 else .issue 0 0 0] }

end Sys2Proof.Machine
end

