-- ==== Sys2Proof/Safety.lean ====
section
/-! DEFINITION. What counts as a safe run, and the words in which the statements speak: when nothing stops an issue,
what a completed issue leaves, what an event answers. -/

namespace Sys2Proof

open Sys2Proof.Machine

/-- `n` steps from a state all answer a next state. -/
def Safe : Nat → State → Prop
  | 0, _ => True
  | n + 1, s => ∃ t, step s = .next t ∧ Safe n t

namespace Machine

/-- Whether nothing stops an issue before its own effect: CHKSB finds no error (R385), the role admits the instruction
(R386), deterministic mode allows it (R336), nothing holds it in place (R25), and no register it reads holds an
uncorrectable error (R412). -/
def unstopped (s1 : State) (cx : Cx) : Bool :=
  (stallTrap s1 cx).isNone && roleAdmits cx && !detForbids cx && !held s1 cx && (regErrTrap s1 cx).isNone

/-- The context of the issue of `i` by the agent that `cur` names, and the state it sees (results readable now have landed),
when that agent stands within a clause and nothing stops the issue. -/
def issuable (i : Instr) (s : State) : Option (Cx × State) :=
  match mkCx s s.cur i with
  | none => none
  | some (cx, s1) => if unstopped s1 cx then some (cx, s1) else none

/-- The context and state in which a waiting instruction, at which an agent stands, returns: its wait is over, the agent may run,
what its clause header names holds, and nothing holds it; what was released to the header's tokens and counters is acquired (R125,
R331). -/
def returnable (ag : Agent) (mine : Instr → Bool) (s : State) : Option (Cx × State) :=
  match clauseOf s ag with
  | some (cl, 1) => match headInstr cl with
    | none => none
    | some i => match mkCx s ag i with
      | none => none
      | some (cx, s0) =>
        let s1 := startHears s0 ag cl.hdr
        if mine i && mayReturn s0 ag && headerReady s0 ag cl && waitMet s1 cx && !held s1 cx && (regErrTrap s1 cx).isNone then
          some (cx, s1) else none
  | _ => none

/-- After an effect that leaves the agent in its clause stream: its clause has moved past the instruction, and the bytes of peer
modules that it had asked for are no longer kept. -/
def completed (s2 : State) (cx : Cx) : State := afterIssue (advance (forgetFar s2 cx.ag) cx) cx
/-- After an effect that has moved the agent: its clause has ended. -/
def moved (s2 : State) (cx : Cx) : State := afterIssue (leave (forgetFar s2 cx.ag) cx) cx
/-- After the issue of an instruction whose wait is not over: the agent stands at it. -/
def waiting (s2 : State) (cx : Cx) : State := afterIssue (setBlock s2 cx.ag 1) cx
/-- After an instruction whose own effect is a trap. -/
def trappedAt (s1 : State) (cx : Cx) (t : Trap) : State := raise (forgetFar s1 cx.ag) cx.ag t
/-- After the return of a waiting instruction, which takes no issue slot (R316). -/
def returned (s1 s2 : State) (cx : Cx) : State := keepIssued s1 cx.ag (completed s2 cx)

/-- What an instruction does wherever nothing stops its issue and `P` holds: it completes with the effect `E`. -/
def Does (i : Instr) (P : Cx → State → Prop) (E : Cx → State → State) : Prop :=
  ∀ s cx s1, issuable i s = some (cx, s1) → P cx s1 → exec i s = .next (completed (E cx s1) cx)
/-- The same of an instruction that moves its agent. -/
def Moves (i : Instr) (P : Cx → State → Prop) (E : Cx → State → State) : Prop :=
  ∀ s cx s1, issuable i s = some (cx, s1) → P cx s1 → exec i s = .next (moved (E cx s1) cx)
/-- The same of an instruction that waits. -/
def Waits (i : Instr) (P : Cx → State → Prop) (E : Cx → State → State) : Prop :=
  ∀ s cx s1, issuable i s = some (cx, s1) → P cx s1 → exec i s = .next (waiting (E cx s1) cx)
/-- The same of an instruction that traps. -/
def Traps (i : Instr) (P : Cx → State → Prop) (T : Cx → State → Trap) : Prop :=
  ∀ s cx s1, issuable i s = some (cx, s1) → P cx s1 → exec i s = .next (trappedAt s1 cx (T cx s1))

/-- No condition. -/
def always (_ : Cx) (_ : State) : Prop := True

/-- A fixed-latency result (R136): readable `n` cycles after its issue; a spool processor's at once, since its next
instruction waits for it (R262). -/
def fixAfter (n : Nat) (s : State) (cx : Cx) (ws : List Wr) : State :=
  match cx.ag with
  | .spool w => s.modWg w (·.spoolWrites ws)
  | _ => s.modGroup cx.gk fun g => { g with fixes := g.fixes ++ [{ ready := s.clock + n, split := cx.k, wrs := ws }] }

/-- An instruction with a scalar result of its type, of latency `n`: the number `v`, narrowed (R73). -/
def GivesS (n : Nat) (i : Instr) (v : Cx → Int) : Prop :=
  Does i always fun cx s => fixAfter n s cx (sWrite cx.ty cx.f.d.toNat (ofInt (tyBits cx.ty) (v cx)))
/-- The same with an n32 result. -/
def GivesS32 (n : Nat) (i : Instr) (v : Cx → Nat) : Prop :=
  Does i always fun cx s => fixAfter n s cx (sWrite 1 cx.f.d.toNat (v cx))
/-- The same of a vector instruction: in every active lane the number that `v` gives there. -/
def GivesV (n : Nat) (i : Instr) (v : Cx → Nat → Int) : Prop :=
  Does i always fun cx s => fixAfter n s cx (vWrite cx.ty cx.f.d.toNat cx.act fun l => ofInt (tyBits cx.ty) (v cx l))
/-- The same with an n32 result. -/
def GivesV32 (n : Nat) (i : Instr) (v : Cx → Nat → Nat) : Prop :=
  Does i always fun cx s => fixAfter n s cx (vWrite 1 cx.f.d.toNat cx.act (v cx))
/-- An instruction with a predicate result in the active lanes. -/
def GivesP (n : Nat) (i : Instr) (v : Cx → Nat → Bool) : Prop :=
  Does i always fun cx s => fixAfter n s cx [.p (cx.f.d.toNat % 8) cx.act (maskOf (v cx))]
/-- A scalar result whose bit `j` is `b j`. -/
def BitsS (n : Nat) (i : Instr) (b : Cx → Nat → Bool) : Prop :=
  Does i always fun cx s => fixAfter n s cx (sWrite cx.ty cx.f.d.toNat (natOfBits (tyBits cx.ty) (b cx)))
/-- A vector result whose bit `j` in lane `l` is `b l j`. -/
def BitsV (n : Nat) (i : Instr) (b : Cx → Nat → Nat → Bool) : Prop :=
  Does i always fun cx s => fixAfter n s cx (vWrite cx.ty cx.f.d.toNat cx.act fun l => natOfBits (tyBits cx.ty) (b cx l))

/-- Source A of a scalar instruction as a number, signed or unsigned by the type. -/
def Cx.numA (cx : Cx) : Int := tyVal cx.ty cx.sa
/-- Operand B as a number of the type. -/
def Cx.numB (cx : Cx) (l : Nat) : Int := tyVal cx.ty (cx.b l)
/-- Operand C as a number of the type. -/
def Cx.numC (cx : Cx) (l : Nat) : Int := tyVal cx.ty (cx.c l)
/-- Source A of a vector instruction as a number, in a lane. -/
def Cx.numV (cx : Cx) (l : Nat) : Int := tyVal cx.ty (cx.va l)
/-- The zero bits above the highest 1 among the `n` bits of a pattern. -/
def leadingZeros (n x : Nat) : Nat := ((List.range n).reverse.takeWhile fun j => !bit x j).length
/-- The 1 bits among the `n` bits of a pattern. -/
def onesIn (n x : Nat) : Nat := ((List.range n).map fun j => if bit x j then 1 else 0).sum
/-- The condition of a comparison (R170). -/
def relates (cond : Nat) (x y : Int) : Bool :=
  [decide (x = y), decide (x ≠ y), decide (x < y), decide (x ≤ y), decide (x > y), decide (x ≥ y)].getD cond (decide (x ≥ y))

/-- Bit `j` of a field extracted by a descriptor from `n` bits (R174): the field's bit, above it the sign or 0. -/
def bfeBit (signed : Bool) (n x desc j : Nat) : Bool :=
  let o := desc % 256
  let v := min (desc / 256 % 256) n
  let src (i : Nat) : Bool := decide (o + i < n) && bit x (o + i)
  if j < v then src j else decide (0 < v) && signed && src (v - 1)
/-- Bit `j` of `x` with a field of `c` inserted (R174). -/
def bfiBit (x desc c j : Nat) : Bool :=
  let o := desc % 256
  if o ≤ j ∧ j < o + desc / 256 % 256 then bit c (j - o) else bit x j
/-- Bit `j` of `x` with a field reversed (R188): bit o + i takes bit o + w − 1 − i. -/
def brevBit (n x desc j : Nat) : Bool :=
  let o := desc % 256
  let w := min (desc / 256 % 256) (n - o)
  if o ≤ j ∧ j < o + w then bit x (2 * o + w - 1 - j) else bit x j
/-- The quotient of R169. -/
def quotient (ty : Nat) (x y : Int) : Int :=
  if y = 0 then (if !tySigned ty then -1 else if 0 ≤ x then tyMax ty else tyMin ty) else Int.tdiv x y
/-- The remainder of R169. -/
def remainder (x y : Int) : Int := if y = 0 then x else x - y * Int.tdiv x y

/-! ### Floating point -/

/-- The latency of the float instructions of R189, R190 and R193. -/
def floatLat (cx : Cx) : Nat := if cx.ty = 11 then 8 else 4

/-- A fixed-latency float instruction with a result of type `ty`: in every active lane the value `r` gives there; the
flags of the active lanes that are no helper lanes merge into FPSTAT (R80). -/
def GivesF (n : Cx → Nat) (i : Instr) (ty : Cx → Nat) (r : Cx → Nat → FR) : Prop :=
  Does i always fun cx s => mergeFlags (fixAfter (n cx) s cx (vWrite (ty cx) cx.f.d.toNat cx.act fun l => (r cx l).1))
    cx.gk (cx.flags fun l => (r cx l).2)
/-- A variable-latency float instruction: its operation starts, with the values and flags that `r` gives. -/
def StartsF (i : Instr) (r : Cx → Nat → FR) : Prop :=
  Does i always fun cx s => startOp s cx .reg (vWrite cx.ty cx.f.d.toNat cx.act fun l => (r cx l).1)
    (cx.flags fun l => (r cx l).2)

/-- The exact value of a finite encoding (R74). -/
def fval (f : Fmt) (x : Nat) : Rat := match unpack f x with
  | .fin n m e => (if n then -1 else 1) * m * 2 ^ e
  | _ => 0
/-- Whether an encoding is finite. -/
def isFinite (f : Fmt) (x : Nat) : Prop := ∃ n m e, unpack f x = .fin n m e
/-- `r` is the exact value `v` rounded once in a mode (R76): as near as any finite value, ties to the even encoding (RNE), or
the last finite value on the way towards zero (RZ), the least not below (RU), the greatest not above (RD). -/
def RoundsTo (f : Fmt) (mode : Nat) (v : Rat) (r : Nat) : Prop :=
  match mode with
  | 0 => ∀ y, isFinite f y → |fval f r - v| ≤ |fval f y - v| ∧
      (|fval f r - v| = |fval f y - v| → fval f y ≠ fval f r → r % 2 = 0)
  | 1 => |fval f r| ≤ |v| ∧ 0 ≤ fval f r * v ∧ ∀ y, isFinite f y → 0 ≤ fval f y * v → |fval f y| ≤ |v| → |fval f y| ≤ |fval f r|
  | 2 => v ≤ fval f r ∧ ∀ y, isFinite f y → v ≤ fval f y → fval f r ≤ fval f y
  | _ => fval f r ≤ v ∧ ∀ y, isFinite f y → fval f y ≤ v → fval f y ≤ fval f r
/-- Whether the exact value `v`, rounded in a mode as if the exponent range were unbounded, exceeds the largest finite value in
magnitude (R77). -/
def Overflows (f : Fmt) (mode : Nat) (v : Rat) : Prop :=
  let big : Rat := fval f f.maxFin
  let next : Rat := 2 ^ (f.bias + 1)
  match mode with
  | 0 => (big + next) / 2 ≤ |v|
  | 1 => next ≤ |v|
  | 2 => big < v ∨ v ≤ -next
  | _ => v < -big ∨ next ≤ v
/-- What an overflowing result is delivered as (R77): an infinity, or the largest finite value of its sign. -/
def overflowTo (f : Fmt) (mode : Nat) (v : Rat) : Nat :=
  let pos : Nat := if mode = 0 ∨ mode = 2 then f.inf else f.maxFin
  let neg : Nat := 2 ^ (f.eb + f.mb) + if mode = 0 ∨ mode = 3 then f.inf else f.maxFin
  if 0 < v then pos else neg
/-- A result with its flags is the exact value `v`, not zero, rounded once: beyond the format's range it is what R77 delivers, with OF
and IX; within it is finite and `v` rounded, without OF, and IX says whether it is inexact (R76, R79). -/
def CorrectFR (f : Fmt) (mode : Nat) (v : Rat) (r : FR) : Prop :=
  (Overflows f mode v → r.1 = overflowTo f mode v ∧ r.2 &&& fOF ≠ 0 ∧ r.2 &&& fIX ≠ 0) ∧
  (¬ Overflows f mode v → isFinite f r.1 ∧ RoundsTo f mode v r.1 ∧ r.2 &&& fOF = 0 ∧ (r.2 &&& fIX ≠ 0 ↔ fval f r.1 ≠ v))

/-! ### Control flow -/

/-- The issuing agent at an address: its split's PC, or the spool processor's (R31, R260). -/
def atAddr (s : State) (cx : Cx) (a : DWord) : State :=
  match cx.ag with
  | .none => s
  | .group _ _ k => s.modGroup cx.gk fun g => { g with splits := g.splits.modify k fun x => { x with pc := a % 2 ^ 56 } }
  | .spool w => s.modWg w fun x => { x with spool := x.spool.map fun p => { p with pc := a % 2 ^ 56 } }
/-- H + 4 · offset, the offset a signed word (R140). -/
def target (cx : Cx) (ofs : Word) : DWord := cx.H + 4 * ofs.signExtend 64
/-- Whether an address may be fetched from (R56, R126). -/
def fetchable (a : Cx → DWord) (cx : Cx) (s : State) : Prop := targetOk s cx (a cx) = none
/-- The number of lanes of the split that are no helper lanes, and of those in which predicate A holds (R156). -/
def lanesWith (cx : Cx) : Nat × Nat :=
  (((List.range 64).filter fun l => cx.sp.mask.getLsbD l && !cx.g.helper.getLsbD l).length,
   ((List.range 64).filter fun l => cx.sp.mask.getLsbD l && !cx.g.helper.getLsbD l &&
      (cx.g.rp (cx.f.a.toNat % 8)).getLsbD l).length)
/-- The lanes of the split that take a BRV (R157). -/
def takers (cx : Cx) : Mask :=
  maskOf fun l => cx.sp.mask.getLsbD l && ((cx.g.rp (cx.f.a.toNat % 8)).getLsbD l ^^ bit cx.f.a.toNat 3)
/-- Both sides of a BRV at lanes the tables have room for: the split keeps the takers, the lowest free split gets the others,
and the lowest free join entry records the join (R32). -/
def diverged (g : Group) (cx : Cx) (k' e nb : Nat) (t : Mask) (tgt jb : DWord) : Group :=
  let sp := g.splits.getD cx.k {}
  { g with
    splits := (g.splits.set cx.k { sp with pc := tgt % 2 ^ 56, mask := t, j := some (jb.setWidth 56), je := e, age := 0, st := 0 }).set k'
      { v := true, pc := cx.next % 2 ^ 56, mask := cx.sp.mask &&& ~~~t, j := some (jb.setWidth 56), je := e, notBefore := nb }
    joins := g.joins.set e { v := true, ja := jb.setWidth 56, jm := sp.mask, arr := 0, oj := sp.j, out := sp.je } }

/-! ### Memory -/

/-- The requests of an instruction: one for each lane that accesses memory, or one that is no lane's (R214, R223). -/
def requests (_ : Cx) (m : Option Mask) (a : Nat → DWord) (n : Nat) : List Req := match m with
  | some m => (lanesIn m).map fun l => (some l, a l, n)
  | none => [(none, a 0, n)]
/-- The address of a lane of LD, ST and ATOM: the pair that A names, an s pair where `uniform`, plus an offset (R215). -/
def baseAddr (cx : Cx) (uniform : Bool) (ofs : Word) (l : Nat) : DWord :=
  (if uniform then cx.g.rs (cx.f.a.toNat + 1) ++ cx.g.rs cx.f.a.toNat
   else cx.g.rv (cx.f.a.toNat + 1) l ++ cx.g.rv cx.f.a.toNat l) + ofs.signExtend 64
/-- The offset that B gives in a lane. -/
def offsetB (cx : Cx) (l : Nat) : Word := BitVec.ofNat 32 (cx.opd cx.f.b.toNat 0 l)
/-- Every byte an access resolves to (R400 checks 1 to 5). -/
def allHits (hs : List (Req × List Hit)) : List Hit := hs.flatMap (·.2)
/-- What a load of resolved bytes, `n` in a lane, starts: the values are read now, a marked one as its agent's newest load, and its
operation will write them; while it is outstanding it may still give way to later ones (R63, log 4). -/
def loadStarted (s : State) (cx : Cx) (marked : Bool) (n : Nat) (hs : List (Req × List Hit)) : State :=
  let r := readByteLanes (if marked then s.newLoad cx.me else s) cx.who marked hs
  startOp r.2 cx (.load cx.ty cx.f.d.toNat n marked true (planOf hs r.1)) (loadWrs cx.ty cx.f.d.toNat n (r.1.map fun v => (v.1, natOfBytes v.2)))
/-- The registers that a load of some requests will write. -/
def loadRefs (cx : Cx) (n : Nat) (hs : List (Req × List Hit)) : List Ref :=
  (loadWrs cx.ty cx.f.d.toNat n (hs.map fun x => (laneOf x.1, 0))).map Wr.ref
/-- A load that a poisoned byte stops at a deferred fault (R402, R412). -/
def loadPoisoned (s : State) (cx : Cx) (marked : Bool) (n : Nat) (hs : List (Req × List Hit)) (key : Nat) : State :=
  let t := startLater s cx (.load cx.ty cx.f.d.toNat n marked false (planOf hs [])) (loadRefs cx n hs)
  stopPoison t (lastId t) key
/-- A load with bytes of peer modules: its operation asks for them (R373). -/
def loadAsking (s : State) (cx : Cx) (marked : Bool) (n : Nat) (hs : List (Req × List Hit)) : State :=
  let r := readByteLanes (if marked then s.newLoad cx.me else s) cx.who marked hs
  let t := startLater r.2 cx (.load cx.ty cx.f.d.toNat n marked true (planOf hs r.1)) (loadRefs cx n hs)
  requestReads t cx.l.ctx.ns (lastId t) (allHits hs)
/-- An access whose bytes are sound (R412) and in this module (R373). -/
def soundHere (s : State) (hs : List (Req × List Hit)) : Prop :=
  (∀ h ∈ allHits hs, s.poisoned h.key = false) ∧ ∀ h ∈ allHits hs, keyCode h.key ≠ 3
/-- What a load instruction does whose requests resolve, in the state that `prep` makes of the one then: its values are read; or a
poisoned byte stops it; or it asks peer modules. -/
def Loads (i : Instr) (P : Cx → Prop) (marked : Cx → Bool) (al : Cx → DWord → Nat → Nat) (n : Cx → Nat) (rs : Cx → List Req)
    (prep : Cx → List (Req × List Hit) → State → State) : Prop :=
  ∀ s cx s1 hs s2, issuable i s = some (cx, s1) → P cx → resolveAll s1 cx.who .load (marked cx) (al cx) (rs cx) = .ok (hs, s2) →
    let t := prep cx hs s2
    (soundHere t hs → exec i s = .next (completed (loadStarted t cx (marked cx) (n cx) hs) cx)) ∧
    (∀ key, anyPoison t (allHits hs) = some key → exec i s = .next (completed (loadPoisoned t cx (marked cx) (n cx) hs key) cx)) ∧
    ((∀ h ∈ allHits hs, t.poisoned h.key = false) → (∃ h ∈ allHits hs, keyCode h.key = 3) →
      exec i s = .next (completed (loadAsking t cx (marked cx) (n cx) hs) cx))
/-- The bytes of the page-table entries that an access marks as used: AC and DY (R55, R57). -/
def markBytes (s : State) (w : Who) (k : AccK) (al : DWord → Nat → Nat) (rs : List Req) : List Nat :=
  rs.flatMap fun r => match resolve s w k r.1 r.2.1 r.2.2 (al r.2.1 r.2.2) with
    | .ok x => x.2.map (·.2.2 + 1)
    | .error _ => []
/-- A releasing event of the issuing agent (R61, R62, R406): its race region and its epoch end, and what it orders before itself goes to
the carriers named. -/
def releases (cs : List Chan) (cx : Cx) (s : State) : State := releaseTo s cx.ag cs
/-- After the accesses of an instruction, marked or not: where ORD releases, a releasing event; a marked access spends the release of a
fence before it (R59, R61). -/
def afterAccess (marked : Bool) (cx : Cx) (s : State) : State :=
  let t := if cx.f.c.toNat % 8 = 3 ∨ cx.f.c.toNat % 8 = 4 then releases [] cx s else s
  if marked then spendFence t cx.who else t

/-- What a part of an engine's work leaves, done or stopped. -/
def Stepped.state : Stepped → State
  | .ok s => s
  | .stop s _ => s

/-! ### Frames -/

/-- Everything of a state but the groups, the workgroups and what the issue of a memory access or a started operation may
move is as in another state. -/
def sameMachine (s t : State) : Prop :=
  { t with
    groups := s.groups, wgs := s.wgs, ops := s.ops, nextId := s.nextId, mem := s.mem, hist := s.hist, histLen := s.histLen
    tlbs := s.tlbs, tags := s.tags, regions := s.regions, freeCtr := s.freeCtr, poison := s.poison, flaws := s.flaws
    l2flaws := s.l2flaws, ceCnt := s.ceCnt, errLog := s.errLog, ports := s.ports, hb := s.hb, l2poison := s.l2poison } = s
/-- The registers, flags, special and trap registers of a group, and all else but its clause stream, the results on their
way, tokens and counters, are as in another. -/
def sameRegisters (g h : Group) : Prop :=
  { h with
    splits := g.splits, fixes := g.fixes, tk := g.tk, f := g.f, issued := g.issued, issuedBy := g.issuedBy, pipe := g.pipe } = g
/-- The splits of a group but split `k` are as before, and of split `k` all but its clause stream and its age is. -/
def sameSplits (k : Nat) (xs ys : List Split) : Prop :=
  ys.length = xs.length ∧ (∀ j, j ≠ k → ys[j]? = xs[j]?) ∧
  ∀ x y, xs[k]? = some x → ys[k]? = some y →
    { y with pc := x.pc, cl := x.cl, age := x.age, block := x.block, since := x.since, again := x.again, notBefore := x.notBefore } = x
/-- What an issue leaves alone wherever it is made: every other group and workgroup, and of its own workgroup all but the
turn and, for a spool processor's issue, that processor. -/
def sameOthers (cx : Cx) (s t : State) : Prop :=
  (∀ k, k ≠ cx.gk ∨ cx.onSpool = true → t.group? k = s.group? k) ∧ (∀ w, w ≠ cx.wid → t.wg? w = s.wg? w) ∧
  ∀ w, s.wg? cx.wid = some w → ∃ w', t.wg? cx.wid = some w' ∧
    { w' with turn := w.turn, spool := w.spool } = w ∧ (cx.onSpool = false → w'.spool = w.spool)

/-- The registers that a result of a type takes from `d` on: one, or two for a 64-bit type (R72). -/
def sPlace (ty d : Nat) : List Ref := if tyBits ty = 64 then [.s d, .s (d + 1)] else [.s d]
/-- The same of v registers. -/
def vPlace (ty d : Nat) : List Ref := if tyBits ty = 64 then [.v d, .v (d + 1)] else [.v d]

/-- The instructions of fixed latency whose result of their type goes to s registers. -/
def scalarForms (f : Fld) : List Instr :=
  [.sadd f, .ssub f, .smin f, .smax f, .sand f, .sor f, .sxor f, .snot f, .sshl f, .sshr f, .smul f, .smulh f, .smad f, .ssel f, .sli f,
   .sbfe f, .sbfi f, .getsr f, .vreadl f]
/-- The same of v registers. -/
def vectorForms (f : Fld) : List Instr :=
  [.vadd f, .vsub f, .vmin f, .vmax f, .vabs f, .vmul f, .vmulh f, .vmad f, .vand f, .vor f, .vxor f, .vnot f, .vshl f, .vshr f, .vbrev f,
   .vsel f, .vli f, .vbfe f, .vbfi f, .vbrevFld f, .getsrVector f, .vwritel f, .fadd f, .fsub f, .fmul f, .fmin f, .fmax f, .fldexp f,
   .ffma f, .frnd f, .cvt f, .shfl f, .qswz f, .qbc f]
/-- Those with a predicate result. -/
def predicateForms (f : Fld) : List Instr :=
  [.vcmp f, .fcmp f, .pand f, .por f, .pxor f, .pnot f, .voteAll f, .voteAny f]

/-- The instructions of fixed latency that write registers only, each with the registers that D names. -/
def registerForms (f : Fld) : List (Instr × List Ref) :=
  let d := f.d.toNat
  let on (rs : List Ref) (i : Instr) : Instr × List Ref := (i, rs)
  [(scalarForms f).map (on (sPlace f.ty.toNat d)), (vectorForms f).map (on (vPlace f.ty.toNat d)),
   (predicateForms f).map (on [.p (d % 8)]), [Instr.sclz f, .spop f, .scmp f, .smov f].map (on [.s d]),
   [Instr.vclz f, .vpop f, .vmov f, .fclass f, .pack2 f, .rand f, .rhit f].map (on [.v d]),
   [(.voteBallot f, [.s d, .s (d + 1)]), (.unpk2 f, [.v d, .v (d + 1)]), (.rcvt f, (List.range 20).map fun j => .v (d + j))]].flatten

/-- The float instructions among them, which may raise flags. -/
def floatForms (f : Fld) : List Instr :=
  [.fadd f, .fsub f, .fmul f, .fmin f, .fmax f, .fldexp f, .ffma f, .frnd f, .fcmp f, .cvt f, .pack2 f, .unpk2 f, .rhit f]

/-! ### Roles (R41) -/

/-- The vector, predicate, cross-lane, iterator and spill instructions. -/
def roleVector (f : Fld) : List Instr :=
  [.vadd f, .vsub f, .vmin f, .vmax f, .vand f, .vor f, .vxor f, .vnot f, .vshl f, .vshr f, .vabs f, .vclz f, .vpop f, .vbrev f,
   .vmul f, .vmulh f, .vmad f, .vdiv f, .vrem f, .vcmp f, .vsel f, .vmov f, .vli f, .vbfe f, .vbfi f, .vbrevFld f, .fadd f,
   .fsub f, .fmul f, .fmin f, .fmax f, .fldexp f, .ffma f, .fcmp f, .frcp f, .frsq f, .fsqrt f, .fdiv f, .fexp2 f, .flog2 f,
   .fsin f, .fcos f, .frnd f, .fclass f, .cvt f, .cvtkb f, .unpkb f, .pack2 f, .unpk2 f, .pand f, .por f, .pxor f, .pnot f,
   .voteAll f, .voteAny f, .voteBallot f, .shfl f, .vred f, .vscan f, .qswz f, .qbc f, .vreadl f, .vwritel f, .rand f, .tiset f,
   .tiopLd f, .tiopSt f, .tiopAdv f, .tiget f, .spill f, .fill f]
/-- QPUSH, the staged-loop instructions, LAUNCH and TSTAT. -/
def roleShared (f : Fld) : List Instr :=
  [.qpush f, .slbegin f, .slend f, .slnext f, .stadv f, .stjmp f, .waitl f, .launch f, .launchTry f, .tstat f]
/-- Loads, stores, atomics and PROMOTE. -/
def roleMemory (f : Fld) : List Instr :=
  [.ld f, .st f, .lds f, .sts f, .atom f, .atomOrd f, .promote f]
/-- LCOPY and the operand-buffer reservations. -/
def roleFeed (f : Fld) : List Instr :=
  [.lcopy f, .obres f, .obrel f]
/-- MLOOP and MPUB. -/
def roleMatrix (f : Fld) : List Instr :=
  [.mloopNew f, .mloopAcc f, .mpub f]
/-- Ray and raster instructions. -/
def roleRay (f : Fld) : List Instr :=
  [.rcvt f, .boxt f, .fdin f, .trit f, .rtrace f, .rhit f, .drawv f, .nswap f, .gdrain f]
/-- What every role admits. -/
def roleFree (f : Fld) : List Instr :=
  [.nop f, .yield f, .exit f, .ret f, .join f, .joinT f, .trap f, .sys f, .bra f, .brpAll f, .brpAny f, .brpNone f, .brv f,
   .brx f, .call f, .callx f, .sadd f, .ssub f, .smin f, .smax f, .sand f, .sor f, .sxor f, .snot f, .sshl f, .sshr f, .sclz f,
   .spop f, .smul f, .smulh f, .smad f, .sdiv f, .srem f, .scmp f, .ssel f, .smov f, .sli f, .sbfe f, .sbfi f, .getsr f,
   .getsrVector f, .setsr f, .waitf f, .fence f, .bari f, .bara f, .barw f, .bart f, .spreq f]

end Machine

end Sys2Proof
end

