-- ==== Sys2Proof/Certificates/Slice0/Obligations.lean ====
section
/-! DEFINITION. The statements for the provers. -/

open Sys2Proof Sys2Proof.Machine

/-! ### Integer instructions -/

/-- R167, R168: SADD, SSUB, SMIN, SMAX, SMUL, SMULH and SMAD complete, with the exact result narrowed to the type and
their latencies of 2 and 4 cycles.
R167, R170 to R174: the scalar logic, shift, count, comparison, selection, move and bit-field instructions complete,
bit by bit as the tables say. -/
def Obligations.ScalarIntegerResults : Prop := ∀ f : Fld,
  (GivesS 2 (.sadd f) (fun cx => cx.numA + cx.numB 0) ∧
   GivesS 2 (.ssub f) (fun cx => cx.numA - cx.numB 0) ∧
   GivesS 2 (.smin f) (fun cx => min cx.numA (cx.numB 0)) ∧
   GivesS 2 (.smax f) (fun cx => max cx.numA (cx.numB 0)) ∧
   GivesS 4 (.smul f) (fun cx => cx.numA * cx.numB 0) ∧
   GivesS 4 (.smulh f) (fun cx => Int.fdiv (cx.numA * cx.numB 0) (2 ^ tyBits cx.ty)) ∧
   GivesS 4 (.smad f) (fun cx => cx.numA * cx.numB 0 + cx.numC 0)) ∧
  (BitsS 2 (.sand f) (fun cx j => bit cx.sa j && bit (cx.b 0) j) ∧
   BitsS 2 (.sor f) (fun cx j => bit cx.sa j || bit (cx.b 0) j) ∧
   BitsS 2 (.sxor f) (fun cx j => bit cx.sa j ^^ bit (cx.b 0) j) ∧
   BitsS 2 (.snot f) (fun cx j => !bit cx.sa j) ∧
   BitsS 2 (.sshl f) (fun cx j => decide (cx.b32 0 ≤ j) && bit cx.sa (j - cx.b32 0)) ∧
   GivesS 2 (.sshr f) (fun cx => Int.fdiv cx.numA (2 ^ cx.b32 0)) ∧
   GivesS32 2 (.sclz f) (fun cx => leadingZeros (tyBits cx.ty) cx.sa) ∧
   GivesS32 2 (.spop f) (fun cx => onesIn (tyBits cx.ty) cx.sa) ∧
   GivesS32 2 (.scmp f) (fun cx => if relates cx.f.mn.toNat cx.numA (cx.numB 0) then 1 else 0) ∧
   BitsS 2 (.ssel f) (fun cx j => if cx.g.rs cx.f.a.toNat = 0 then bit (cx.c 0) j else bit (cx.b 0) j) ∧
   Does (.smov f) always (fun cx s => fixAfter 2 s cx [.s cx.f.d.toNat (cx.g.rs cx.f.a.toNat)]) ∧
   BitsS 2 (.sli f) (fun cx j => bit (cx.b 0) j) ∧
   BitsS 2 (.sbfe f) (fun cx j => bfeBit (tySigned cx.ty) (tyBits cx.ty) cx.sa (cx.b32 0) j) ∧
   BitsS 2 (.sbfi f) (fun cx j => bfiBit cx.sa (cx.b32 0) (cx.c 0) j))

/-- R169, R184: SDIV, SREM, VDIV and VREM complete on every operand, zero divisors included: the operation starts,
and what it will write is the quotient towards zero or the remainder, with the corners of R169. -/
def Obligations.DivisionResults : Prop := ∀ f : Fld,
  Does (.sdiv f) always (fun cx s => startOp s cx .reg
    (sWrite cx.ty cx.f.d.toNat (ofInt (tyBits cx.ty) (quotient cx.ty cx.numA (cx.numB 0))))) ∧
  Does (.srem f) always (fun cx s => startOp s cx .reg
    (sWrite cx.ty cx.f.d.toNat (ofInt (tyBits cx.ty) (remainder cx.numA (cx.numB 0))))) ∧
  Does (.vdiv f) always (fun cx s => startOp s cx .reg
    (vWrite cx.ty cx.f.d.toNat cx.act fun l => ofInt (tyBits cx.ty) (quotient cx.ty (cx.numV l) (cx.numB l)))) ∧
  Does (.vrem f) always (fun cx s => startOp s cx .reg
    (vWrite cx.ty cx.f.d.toNat cx.act fun l => ofInt (tyBits cx.ty) (remainder (cx.numV l) (cx.numB l))))

/-- R182, R183: the vector integer arithmetic completes, in every active lane with the exact result narrowed, or saturated
where M = 1 of VADD and VSUB.
R182, R185 to R188: the vector logic, shift, count, comparison, selection, move and bit-field instructions complete,
bit by bit in every active lane; VCMP writes its predicate. -/
def Obligations.VectorIntegerResults : Prop := ∀ f : Fld,
  ((f.m ≠ 1 → GivesV 4 (.vadd f) (fun cx l => cx.numV l + cx.numB l)) ∧
   (f.m = 1 → GivesV 4 (.vadd f) (fun cx l => max (tyMin cx.ty) (min (tyMax cx.ty) (cx.numV l + cx.numB l)))) ∧
   (f.m ≠ 1 → GivesV 4 (.vsub f) (fun cx l => cx.numV l - cx.numB l)) ∧
   (f.m = 1 → GivesV 4 (.vsub f) (fun cx l => max (tyMin cx.ty) (min (tyMax cx.ty) (cx.numV l - cx.numB l)))) ∧
   GivesV 4 (.vmin f) (fun cx l => min (cx.numV l) (cx.numB l)) ∧
   GivesV 4 (.vmax f) (fun cx l => max (cx.numV l) (cx.numB l)) ∧
   GivesV 4 (.vabs f) (fun cx l => |cx.numV l|) ∧
   GivesV 6 (.vmul f) (fun cx l => cx.numV l * cx.numB l) ∧
   GivesV 6 (.vmulh f) (fun cx l => Int.fdiv (cx.numV l * cx.numB l) (2 ^ tyBits cx.ty)) ∧
   GivesV 6 (.vmad f) (fun cx l => cx.numV l * cx.numB l + cx.numC l)) ∧
  (BitsV 4 (.vand f) (fun cx l j => bit (cx.va l) j && bit (cx.b l) j) ∧
   BitsV 4 (.vor f) (fun cx l j => bit (cx.va l) j || bit (cx.b l) j) ∧
   BitsV 4 (.vxor f) (fun cx l j => bit (cx.va l) j ^^ bit (cx.b l) j) ∧
   BitsV 4 (.vnot f) (fun cx l j => !bit (cx.va l) j) ∧
   BitsV 4 (.vshl f) (fun cx l j => decide (cx.b32 l ≤ j) && bit (cx.va l) (j - cx.b32 l)) ∧
   GivesV 4 (.vshr f) (fun cx l => Int.fdiv (cx.numV l) (2 ^ cx.b32 l)) ∧
   GivesV32 4 (.vclz f) (fun cx l => leadingZeros (tyBits cx.ty) (cx.va l)) ∧
   GivesV32 4 (.vpop f) (fun cx l => onesIn (tyBits cx.ty) (cx.va l)) ∧
   BitsV 4 (.vbrev f) (fun cx l j => bit (cx.va l) (tyBits cx.ty - 1 - j)) ∧
   GivesP 4 (.vcmp f) (fun cx l => relates cx.f.mn.toNat (cx.numV l) (cx.numB l)) ∧
   BitsV 4 (.vsel f) (fun cx l j => if (cx.g.rp (cx.f.a.toNat % 8)).getLsbD l then bit (cx.b l) j else bit (cx.c l) j) ∧
   Does (.vmov f) always (fun cx s => fixAfter 2 s cx [.v cx.f.d.toNat cx.act (lanesOf fun l => cx.g.rv cx.f.a.toNat l)]) ∧
   BitsV 2 (.vli f) (fun cx l j => bit (cx.b l) j) ∧
   BitsV 4 (.vbfe f) (fun cx l j => bfeBit (tySigned cx.ty) (tyBits cx.ty) (cx.va l) (cx.b32 l) j) ∧
   BitsV 4 (.vbfi f) (fun cx l j => bfiBit (cx.va l) (cx.b32 l) (cx.c l) j) ∧
   BitsV 4 (.vbrevFld f) (fun cx l j => brevBit (tyBits cx.ty) (cx.va l) (cx.b32 l) j))

/-! ### Floating point, conversions, predicates, cross-lane movement -/

/-- R189, R190, R191, R193: the fixed-latency float instructions complete on every operand, with the value and the flags of
R76 to R84 in each element; FCMP writes its predicate. -/
def Obligations.FloatFixedResults : Prop := ∀ f : Fld,
  GivesF floatLat (.fadd f) (·.ty) (fun cx l => floatOp cx.ty (fun t a b _ => fAdd t cx.m a b) (cx.va l) (cx.b l) 0) ∧
  GivesF floatLat (.fsub f) (·.ty) (fun cx l => floatOp cx.ty (fun t a b _ => fSub t cx.m a b) (cx.va l) (cx.b l) 0) ∧
  GivesF floatLat (.fmul f) (·.ty) (fun cx l => floatOp cx.ty (fun t a b _ => fMul t cx.m a b) (cx.va l) (cx.b l) 0) ∧
  GivesF floatLat (.fmin f) (·.ty) (fun cx l => floatOp cx.ty (fun t a b _ => fMinMax t false a b) (cx.va l) (cx.b l) 0) ∧
  GivesF floatLat (.fmax f) (·.ty) (fun cx l => floatOp cx.ty (fun t a b _ => fMinMax t true a b) (cx.va l) (cx.b l) 0) ∧
  GivesF floatLat (.fldexp f) (·.ty) (fun cx l =>
    floatOp cx.ty (fun t a _ _ => fLdexp t cx.m a (toSigned 32 (cx.opd cx.f.b.toNat 0 l))) (cx.va l) 0 0) ∧
  GivesF floatLat (.ffma f) (·.ty) (fun cx l =>
    floatOp cx.ty (fun t a b c => fFma t cx.m a b c) (cx.va l) (cx.b l) (cx.c l)) ∧
  GivesF floatLat (.frnd f) (·.ty) (fun cx l => floatOp cx.ty (fun t a _ _ => fRnd t cx.m a) (cx.va l) 0 0) ∧
  Does (.fclass f) always (fun cx s => fixAfter (floatLat cx) s cx
    (vWrite 1 cx.f.d.toNat cx.act fun l => fClass (fmtOf cx.ty) (cx.va l))) ∧
  Does (.fcmp f) always (fun cx s => mergeFlags (fixAfter 4 s cx [.p (cx.f.d.toNat % 8) cx.act
      (maskOf fun l => (fCmp (fmtOf cx.ty) cx.f.mn.toNat (cx.va l) (cx.b l)).1)]) cx.gk
    (cx.flags fun l => (fCmp (fmtOf cx.ty) cx.f.mn.toNat (cx.va l) (cx.b l)).2))

/-- R192: FRCP, FRSQ, FSQRT, FDIV, FEXP2, FLOG2, FSIN and FCOS complete on every operand: the operation starts, and what it will
write is the function's value in every active lane. Which of the two neighbours FEXP2, FLOG2, FSIN and FCOS deliver is free (log
3, log 65). -/
def Obligations.FloatFunctionResults : Prop := ∀ f : Fld,
  StartsF (.frcp f) (fun cx l => fRcp (fmtOf cx.ty) cx.m (cx.va l)) ∧
  StartsF (.frsq f) (fun cx l => fRsq (fmtOf cx.ty) cx.m (cx.va l)) ∧
  StartsF (.fsqrt f) (fun cx l => fSqrt (fmtOf cx.ty) cx.m (cx.va l)) ∧
  StartsF (.fdiv f) (fun cx l => fDiv (fmtOf cx.ty) cx.m (cx.va l) (cx.b l)) ∧
  StartsF (.fexp2 f) (fun cx l => fExp2 (fmtOf cx.ty) (cx.va l)) ∧
  StartsF (.flog2 f) (fun cx l => fLog2 (fmtOf cx.ty) (cx.va l)) ∧
  StartsF (.fsin f) (fun cx l => fTrig (fmtOf cx.ty) 6 (cx.va l) false) ∧
  StartsF (.fcos f) (fun cx l => fTrig (fmtOf cx.ty) 7 (cx.va l) true)

/-- R76, R77, R79, R81: in every format and mode the sum, difference, product, fused product-sum and quotient of finite operands,
where the exact value is not zero, are that value rounded once, finite wherever it rounds within the format's range, with IX where that
is inexact; beyond the range they are the infinity or the largest finite value that the mode delivers, with OF and IX. -/
def Obligations.FloatCorrectlyRounded : Prop :=
  ∀ f ∈ [f16, bf16, f32, f64], ∀ mode < 4, ∀ a b c : Nat, isFinite f a → isFinite f b → isFinite f c →
    (fval f a + fval f b ≠ 0 → CorrectFR f mode (fval f a + fval f b) (fAdd f mode a b)) ∧
    (fval f a - fval f b ≠ 0 → CorrectFR f mode (fval f a - fval f b) (fSub f mode a b)) ∧
    (fval f a * fval f b ≠ 0 → CorrectFR f mode (fval f a * fval f b) (fMul f mode a b)) ∧
    (fval f a * fval f b + fval f c ≠ 0 → CorrectFR f mode (fval f a * fval f b + fval f c) (fFma f mode a b c)) ∧
    (fval f a ≠ 0 → fval f b ≠ 0 → CorrectFR f mode (fval f a / fval f b) (fDiv f mode a b))

/-- R194 to R197: CVT, PACK2 and UNPK2 complete with the converted values and their flags; CVTKB and UNPKB start an
operation that will write the block, or its elements. -/
def Obligations.ConversionResults : Prop := ∀ f : Fld,
  GivesF (fun _ => 4) (.cvt f) (·.ty) (fun cx l =>
    let ts := cx.f.c.toNat % 16
    let x := cx.g.vVal ts cx.f.a.toNat l
    if tyFloat cx.ty then
      (if tyFloat ts then cvtFF (fmtOf ts) (fmtOf cx.ty) cx.m x else cvtIF (fmtOf cx.ty) cx.m (tyVal ts x))
    else if tyFloat ts then cvtFI (fmtOf ts) cx.ty cx.m x
    else (cvtII cx.ty (tyVal ts x), 0)) ∧
  GivesF (fun _ => 4) (.pack2 f) (fun _ => 1) (fun cx l =>
    let lo := cvtFF f32 (fmtOf cx.ty) cx.m (cx.g.rv cx.f.a.toNat l).toNat
    let hi := cvtFF f32 (fmtOf cx.ty) cx.m (cx.opd cx.f.b.toNat 2 l)
    (lo.1 + 65536 * hi.1, lo.2 ||| hi.2)) ∧
  Does (.unpk2 f) always (fun cx s =>
    let lo (l : Nat) : FR := cvtFF (fmtOf cx.ty) f32 0 ((cx.g.rv cx.f.a.toNat l).toNat % 65536)
    let hi (l : Nat) : FR := cvtFF (fmtOf cx.ty) f32 0 ((cx.g.rv cx.f.a.toNat l).toNat / 65536)
    mergeFlags (fixAfter 4 s cx (vWrite 1 cx.f.d.toNat cx.act (fun l => (lo l).1) ++
      vWrite 1 (cx.f.d.toNat + 1) cx.act (fun l => (hi l).1))) cx.gk (cx.flags fun l => (lo l).2 ||| (hi l).2)) ∧
  Does (.cvtkb f) always (fun cx s =>
    let c := cx.f.c.toNat
    let blk (l : Nat) : Nat × Nat × BitVec 5 := kbPack (c % 8 + 2) cx.m
      ((List.range (kbLen c)).map fun j => unpack (fmtOf cx.ty) (cx.g.vVal cx.ty (cx.f.a.toNat + j) l))
    startOp s cx .reg
      ((List.range (kbRegs c)).map (fun i =>
          Wr.v (cx.f.d.toNat + i) cx.act (lanesOf fun l => BitVec.ofNat 32 ((blk l).2.1 / 2 ^ (32 * i)))) ++
        [Wr.v cx.f.b.toNat cx.act (lanesOf fun l => BitVec.ofNat 32 (blk l).1)])
      (cx.flags fun l => (blk l).2.2)) ∧
  Does (.unpkb f) always (fun cx s =>
    let c := cx.f.c.toNat
    startOp s cx .reg ((List.range (kbLen c)).map fun j => Wr.v (cx.f.d.toNat + j) cx.act
      (lanesOf fun l => BitVec.ofNat 32 (kbUnpack (c % 8 + 2) ((cx.g.rv cx.f.b.toNat l).toNat % 256)
        ((List.range (kbRegs c)).foldl (fun x i => x + (cx.g.rv (cx.f.a.toNat + i) l).toNat * 2 ^ (32 * i)) 0) j))))

/-- R198, R199: PAND, POR, PXOR and PNOT combine predicates lane by lane, each source inverted by its bit of M, in the
active lanes; VOTE gathers them over the active lanes that are no helper lanes, and VOTE.ballot writes nothing without
an active lane.
R200, R203, R204: SHFL, QSWZ, QBC, VREADL and VWRITEL complete with the value of the lane that their tables name; SHFL
reads its own lane where that is out of range; VREADL writes nothing without an active lane. -/
def Obligations.PredicateAndLaneResults : Prop := ∀ f : Fld,
  (let pa (cx : Cx) (l : Nat) : Bool := (cx.g.rp (cx.f.a.toNat % 8)).getLsbD l ^^ bit cx.m 0
   let pb (cx : Cx) (l : Nat) : Bool := (cx.g.rp (cx.f.b.toNat % 8)).getLsbD l ^^ bit cx.m 1
   let vote (cx : Cx) (l : Nat) : Bool := cx.actNH.getLsbD l && (cx.g.rp (cx.f.a.toNat % 8)).getLsbD l
   GivesP 2 (.pand f) (fun cx l => pa cx l && pb cx l) ∧
   GivesP 2 (.por f) (fun cx l => pa cx l || pb cx l) ∧
   GivesP 2 (.pxor f) (fun cx l => pa cx l ^^ pb cx l) ∧
   GivesP 2 (.pnot f) (fun cx l => !pa cx l) ∧
   GivesP 4 (.voteAll f) (fun cx _ => (List.range 64).all fun l => !cx.actNH.getLsbD l || vote cx l) ∧
   GivesP 4 (.voteAny f) (fun cx _ => (List.range 64).any fun l => vote cx l) ∧
   Does (.voteBallot f) (fun cx _ => cx.act ≠ 0) (fun cx s => fixAfter 4 s cx
     (sWrite 10 cx.f.d.toNat (natOfBits 64 (vote cx)))) ∧
   Does (.voteBallot f) (fun cx _ => cx.act = 0) (fun _ s => s)) ∧
  (GivesV 6 (.shfl f) (fun cx l =>
     let k := if cx.m = 1 then 64 / 2 ^ cx.b32 l else cx.b32 l
     let src : Int := [(l : Int) - k, (l : Int) + k, ((l ^^^ k : Nat) : Int), (k : Int)].getD cx.f.mn.toNat k
     tyVal cx.ty (cx.va (if 0 ≤ src ∧ src < 64 then src.toNat else l))) ∧
   GivesV 6 (.qswz f) (fun cx l => tyVal cx.ty (cx.va (4 * (l / 4) + cx.b32 l / 4 ^ (l % 4) % 4))) ∧
   GivesV 6 (.qbc f) (fun cx l => tyVal cx.ty (cx.va (4 * (l / 4) + cx.b32 l % 4))) ∧
   Does (.vreadl f) (fun cx _ => cx.act ≠ 0) (fun cx s => fixAfter 6 s cx
     (sWrite cx.ty cx.f.d.toNat (cx.va (cx.b32 0 % 64)))) ∧
   Does (.vreadl f) (fun cx _ => cx.act = 0) (fun _ s => s) ∧
   Does (.vwritel f) always (fun cx s => fixAfter 6 s cx
     (vWrite cx.ty cx.f.d.toNat (cx.act &&& (1#64 <<< (cx.c32 0 % 64))) fun _ => cx.b 0)))

/-- R92, R93, R201, R202, R205: VRED and VSCAN start an operation with the tree's value over the lanes that contribute, the
identity standing for the others; RAND gives each active lane its draw and advances that lane's counter. -/
def Obligations.ReductionAndRandomResults : Prop := ∀ f : Fld,
  let ins (cx : Cx) (op : Nat) : List Nat :=
    (List.range 64).map fun l => if cx.actNH.getLsbD l then cx.va l else identity cx.ty op cx.m
  Does (.vred f) always (fun cx s =>
    let op := cx.f.mn.toNat
    let r := redTree (combine cx.ty op cx.m) 6 (ins cx op) 0
    startOp s cx .reg (vWrite cx.ty cx.f.d.toNat cx.act fun _ => r.1) r.2) ∧
  Does (.vscan f) always (fun cx s =>
    let op := cx.f.mn.toNat % 8
    let r := scanTree (combine cx.ty op cx.m) 6 1 (ins cx op) 0
    startOp s cx .reg (vWrite cx.ty cx.f.d.toNat cx.act fun l =>
      if cx.f.mn.toNat < 8 then r.1.getD l 0 else if l = 0 then identity cx.ty op cx.m else r.1.getD (l - 1) 0) r.2) ∧
  Does (.rand f) always (fun cx s =>
    let draw (l : Nat) : Word := Tab.get 0 cx.g.draw l
    let lane (l : Nat) : Word := BitVec.ofNat 32 (1024 * cx.w.ix + 64 * cx.g.grp + l)
    (fixAfter 6 s cx [.v cx.f.d.toNat cx.act (lanesOf fun l => randValue cx.l.seed cx.l.lid (lane l) (draw l))]).modGroup
      cx.gk fun g => { g with draw := (lanesIn cx.act).foldl (fun t l => Tab.put t l (draw l + 1)) g.draw })

/-! ### Control flow and special registers -/

/-- R164, R163, R261: NOP and YIELD complete; a split's YIELD sets Y for its clause, a spool processor's does nothing.
R165: TRAP raises cause 0x0010 with the low 16 bits of its operand as INFO, at the address of the instruction. -/
def Obligations.NopYieldTrapResults : Prop := ∀ f : Fld,
  (Does (.nop f) always (fun _ s => s) ∧
   Does (.yield f) (fun cx _ => cx.onSpool = true) (fun _ s => s) ∧
   Does (.yield f) (fun cx _ => cx.onSpool = false) (fun cx s => s.modGroup cx.gk fun g =>
     { g with splits := g.splits.modify cx.k fun x => { x with cl := x.cl.map fun c => { c with y := true } } })) ∧
  (Traps (.trap f) always (fun cx _ =>
     { cause := 0x0010, info := BitVec.ofNat 16 (cx.b32 0), addr := cx.cl.at_, aux := 0, atIssue := true }))

/-- R155, R160, R126: BRA, CALL and RET move the agent to their target, CALL with the address of the next header as an n64
result of latency 2, when the target may be fetched from; else they raise the fault of that fetch.
R156: BRP.all, BRP.any and BRP.none branch when their predicate holds in all, some or none of the split's lanes that are no
helper lanes, or raise the fault of that fetch, and otherwise the clause stream goes on. -/
def Obligations.JumpAndBranchResults : Prop := ∀ f : Fld,
  (let bra (cx : Cx) : DWord := target cx cx.f.lit
   let ret (cx : Cx) : DWord := cx.g.rs2 cx.f.a.toNat
   Moves (.bra f) (fetchable bra) (fun cx s => atAddr s cx (bra cx)) ∧
   Moves (.ret f) (fetchable ret) (fun cx s => atAddr s cx (ret cx)) ∧
   (∀ s cx s1, issuable (.call f) s = some (cx, s1) →
     let s2 := fixAfter 2 s1 cx (sWrite 10 cx.f.d.toNat cx.next.toNat)
     targetOk s2 cx (bra cx) = none → exec (.call f) s = .next (moved (atAddr s2 cx (bra cx)) cx)) ∧
   (∀ s cx s1 x, issuable (.bra f) s = some (cx, s1) → targetOk s1 cx (bra cx) = some x →
     exec (.bra f) s = .next (trappedAt s1 cx x)) ∧
   (∀ s cx s1 x, issuable (.ret f) s = some (cx, s1) → targetOk s1 cx (ret cx) = some x →
     exec (.ret f) s = .next (trappedAt s1 cx x)) ∧
   (∀ s cx s1 x, issuable (.call f) s = some (cx, s1) →
     targetOk (fixAfter 2 s1 cx (sWrite 10 cx.f.d.toNat cx.next.toNat)) cx (bra cx) = some x →
     exec (.call f) s = .next (trappedAt s1 cx x))) ∧
  (let tgt (cx : Cx) : DWord := target cx cx.f.lit
   Moves (.brpAll f) (fun cx s => (lanesWith cx).2 = (lanesWith cx).1 ∧ fetchable tgt cx s) (fun cx s => atAddr s cx (tgt cx)) ∧
   Does (.brpAll f) (fun cx _ => (lanesWith cx).2 ≠ (lanesWith cx).1) (fun _ s => s) ∧
   Moves (.brpAny f) (fun cx s => (lanesWith cx).2 ≠ 0 ∧ fetchable tgt cx s) (fun cx s => atAddr s cx (tgt cx)) ∧
   Does (.brpAny f) (fun cx _ => (lanesWith cx).2 = 0) (fun _ s => s) ∧
   Moves (.brpNone f) (fun cx s => (lanesWith cx).2 = 0 ∧ fetchable tgt cx s) (fun cx s => atAddr s cx (tgt cx)) ∧
   Does (.brpNone f) (fun cx _ => (lanesWith cx).2 ≠ 0) (fun _ s => s) ∧
   (∀ s cx s1 x, issuable (.brpAll f) s = some (cx, s1) → (lanesWith cx).2 = (lanesWith cx).1 → targetOk s1 cx (tgt cx) = some x →
     exec (.brpAll f) s = .next (trappedAt s1 cx x)) ∧
   (∀ s cx s1 x, issuable (.brpAny f) s = some (cx, s1) → (lanesWith cx).2 ≠ 0 → targetOk s1 cx (tgt cx) = some x →
     exec (.brpAny f) s = .next (trappedAt s1 cx x)) ∧
   (∀ s cx s1 x, issuable (.brpNone f) s = some (cx, s1) → (lanesWith cx).2 = 0 → targetOk s1 cx (tgt cx) = some x →
     exec (.brpNone f) s = .next (trappedAt s1 cx x)))

/-- R32, R60, R157: a BRV that no lane takes falls through, one that all lanes take moves the split, and one that divides its lanes
while a split and a join entry are free leaves the takers at the target and the others at the next header, joined later; the new
split follows all that the old one has done. Where none is free, or the split is already divided on the stack, two entries are pushed
there, the join and the others' path, and the split goes on with the takers. A push for which neither the chip nor the spill area has
room raises cause 0x000F, and a target that may not be fetched from the fault of that fetch.
R32, R36, R38, R158, R159, R160: a BRX, and a CALLX after writing the next header's address, whose table reads, whose header is
sound, whose indices are all below its count and whose targets may be fetched from branches each lane to its target; a header that is
not sound, and the lowest lane's index that is not below the count, raise cause 0x0006. -/
def Obligations.DivergenceResults : Prop :=
  (∀ f : Fld,
   let tgt (cx : Cx) : DWord := target cx ((cx.f.lit.setWidth 16).signExtend 32)
   let jb (cx : Cx) : DWord := target cx (((cx.f.lit >>> 16).setWidth 16).signExtend 32)
   Does (.brv f) (fun cx _ => takers cx = 0) (fun _ s => s) ∧
   Moves (.brv f) (fun cx s => takers cx ≠ 0 ∧ takers cx = cx.sp.mask ∧ fetchable tgt cx s)
     (fun cx s => atAddr s cx (tgt cx)) ∧
   (∀ s cx s1 g k' e, issuable (.brv f) s = some (cx, s1) → takers cx ≠ 0 → takers cx ≠ cx.sp.mask → fetchable tgt cx s1 →
     s1.group? cx.gk = some g → firstIdx (fun x => !x.v) g.splits = some k' →
     firstIdx (fun (x : JoinEnt) => !x.v) g.joins = some e → (g.splits.getD cx.k {}).n = 0 →
     (g.splits.getD cx.k {}).mask = cx.sp.mask →
     exec (.brv f) s = .next (moved (splitHb (s1.setGroup cx.gk
       (diverged g cx k' e (nextClauseAt s1 g cx.k false) (takers cx) (tgt cx) (jb cx))) g cx.k k') cx)) ∧
   (∀ s cx s1 x, issuable (.brv f) s = some (cx, s1) → takers cx ≠ 0 → targetOk s1 cx (tgt cx) = some x →
     exec (.brv f) s = .next (trappedAt s1 cx x)) ∧
   (∀ s cx s1 g, issuable (.brv f) s = some (cx, s1) → takers cx ≠ 0 → takers cx ≠ cx.sp.mask → fetchable tgt cx s1 →
     s1.group? cx.gk = some g → (g.splits.getD cx.k {}).mask = cx.sp.mask →
     (∀ x ∈ g.splits, x.v = true) ∨ (∀ x ∈ g.joins, x.v = true) ∨ (g.splits.getD cx.k {}).n ≠ 0 →
     (∀ s2 s3, pushEnt s1 cx ⟨(jb cx).setWidth 56, cx.sp.mask, (g.splits.getD cx.k {}).j, cx.k⟩ = .ok s2 →
       pushEnt s2 cx ⟨cx.next.setWidth 56, cx.sp.mask &&& ~~~takers cx, some ((jb cx).setWidth 56), cx.k⟩ = .ok s3 →
       exec (.brv f) s = .next (moved (s3.modGroup cx.gk fun y => { y with splits := y.splits.modify cx.k fun x =>
         { x with pc := tgt cx % 2 ^ 56, mask := takers cx, j := some ((jb cx).setWidth 56), n := x.n + 2 } }) cx)) ∧
     (31 ≤ g.stack.length → g.spillSize < 24 * (g.stks + 16) →
       exec (.brv f) s = .next (trappedAt s1 cx (cx.trap 0x000F (BitVec.ofNat 64 (g.spillSize / 24 * 2 ^ 32)))))) ∧
   (∀ (s : State) (cx : Cx) (x : StackEnt) g, s.group? cx.gk = some g → g.stack.length < 32 →
     pushEnt s cx x = .ok (s.setGroup cx.gk { g with stack := g.stack ++ [x] }))) ∧
  (∀ (f : Fld) s cx s1 hb s2,
   let h := natOfBytes hb
   let aux (x : Nat) : DWord := BitVec.ofNat 64 (x + h % 2 ^ 16 * 2 ^ 32)
   let sound : Prop := 1 ≤ h % 2 ^ 16 ∧ h % 2 ^ 16 ≤ 4096 ∧ h / 2 ^ 16 % 2 ^ 16 = 0
   ∀ e ∈ [(Instr.brx f, s1), (.callx f, fixAfter 2 s1 cx (sWrite 10 cx.f.d.toNat cx.next.toNat))],
   issuable e.1 s = some (cx, s1) → readPlain e.2 cx.who .table (cx.g.rs2 cx.f.a.toNat) 8 8 = .ok (hb, s2) →
   (¬ sound → exec e.1 s = .next (trappedAt s1 cx (cx.trap 0x0006 (aux 0xFFFFFFFF)))) ∧
   (∀ l ∈ lanesIn cx.sp.mask, sound → h % 2 ^ 16 ≤ cx.b32 l → (∀ k ∈ lanesIn cx.sp.mask, k < l → cx.b32 k < h % 2 ^ 16) →
     exec e.1 s = .next (trappedAt s1 cx (cx.trap 0x0006 (aux (cx.b32 l % 2 ^ 32)))))) ∧
  (∀ (f : Fld) s cx s1 hb s2 ts s3 s4,
   let tab : DWord := cx.g.rs2 cx.f.a.toNat
   let h := natOfBytes hb
   let jb := pc56 (tab + 4 * (BitVec.ofNat 32 (h / 2 ^ 32)).signExtend 64)
   (issuable (.brx f) s = some (cx, s1) → readPlain s1 cx.who .table tab 8 8 = .ok (hb, s2) →
     1 ≤ h % 2 ^ 16 → h % 2 ^ 16 ≤ 4096 → h / 2 ^ 16 % 2 ^ 16 = 0 → (∀ l ∈ lanesIn cx.sp.mask, cx.b32 l < h % 2 ^ 16) →
     tableTargets s2 cx tab (byIndex cx) = .ok (ts, s3) → separateAll s3 cx jb cx.k ts = .ok s4 →
     exec (.brx f) s = .next (moved s4 cx)) ∧
   (issuable (.callx f) s = some (cx, s1) →
     readPlain (fixAfter 2 s1 cx (sWrite 10 cx.f.d.toNat cx.next.toNat)) cx.who .table tab 8 8 = .ok (hb, s2) →
     1 ≤ h % 2 ^ 16 → h % 2 ^ 16 ≤ 4096 → h / 2 ^ 16 % 2 ^ 16 = 0 → (∀ l ∈ lanesIn cx.sp.mask, cx.b32 l < h % 2 ^ 16) →
     tableTargets s2 cx tab (byIndex cx) = .ok (ts, s3) → separateAll s3 cx jb cx.k ts = .ok s4 →
     exec (.callx f) s = .next (moved s4 cx)))

/-- R33, R34, R35, R62, R161: a JOIN or JOIN.T outside its split's join address, or of a split that has none open, completes; one at the
join address of a join entry makes the split arrive there, JOIN.T with its timer unless the launch is deterministic; the arrival is a
release, and when the arrivals complete the entry its lanes fuse, the fused split acquiring them. A pop releases likewise. A run-out
timer takes its split out of the entry, once no arrival of the same cycle can come before. -/
def Obligations.JoinResults : Prop := ∀ f : Fld,
  let away (cx : Cx) : Prop := cx.sp.j ≠ some (cx.H.setWidth 56) ∨ (cx.sp.n = 0 ∧ 3 ≤ cx.sp.je)
  let here (cx : Cx) : Prop := cx.sp.j = some (cx.H.setWidth 56) ∧ cx.sp.n = 0 ∧ cx.sp.je < 3
  Does (.join f) (fun cx _ => away cx) (fun _ s => s) ∧
  Moves (.join f) (fun cx _ => here cx) (fun cx s => (joinHb s cx.gk cx.g cx.k).modGroup cx.gk fun g => g.arriveJoin cx.k none) ∧
  Does (.joinT f) (fun cx _ => away cx) (fun _ s => s) ∧
  Moves (.joinT f) (fun cx _ => here cx) (fun cx s => (joinHb s cx.gk cx.g cx.k).modGroup cx.gk fun g =>
    g.arriveJoin cx.k (if cx.l.det then none else some (min (cx.b32 0) 65535))) ∧
  (∀ s cx s1 e s2, issuable (.join f) s = some (cx, s1) → cx.sp.j = some (cx.H.setWidth 56) → 0 < cx.sp.n →
    popEnt s1 cx cx.k = .ok (some e, s2) →
    exec (.join f) s = .next (moved ((releases [] cx s2).modGroup cx.gk fun g => { g with splits := g.splits.modify cx.k fun x =>
      { x with pc := e.pc.setWidth 64, mask := e.mask, j := e.j, n := x.n - 1 } }) cx)) ∧
  (∀ s c sl k g, s.group? (48 * c + sl) = some g → (g.splits.getD k {}).v = true → (g.splits.getD k {}).st = 2 →
    (g.splits.getD k {}).timer = 0 → frozen s g.wg = false → (s.core c).halted = false → sl < 48 →
    s.clock < g.issued ∨ (∀ x ∈ g.splits, x.v = true → x.st ≠ 0) →
    exec (.joinTimerExpiry (.group c sl k)) s = .next ((expireHb s g g.expire).setGroup (48 * c + sl) g.expire))

/-- R162, R37, R242, R315, R260: a converged group's EXIT leaves its staged loop, frees its held records and ends the group, which releases
to the retirement of its workgroup; a diverged one raises cause 0x0005; a spool processor's EXIT stops it. A group is converged with one split in use whose MASK is the launch
mask, N = 0, no join entry in use and an empty stack. -/
def Obligations.ExitResults : Prop := ∀ f : Fld,
  Moves (.exit f) (fun cx _ => cx.onSpool = true) (fun cx s => (releases [.exited cx.wid] cx s).modWg cx.wid fun w =>
    { w with spool := w.spool.map fun p => { p with run := false } }) ∧
  Moves (.exit f) (fun cx _ => cx.onSpool = false ∧ cx.g.converged cx.k = true) (fun cx s =>
    releases [.exited cx.wid] cx (((freeHeld (leaveLoop s cx.ag cx.gk) cx.lid cx.g).modGroup cx.gk fun g => { g with held := [] }).modGroup
      cx.gk fun g => { g with exited := true })) ∧
  Traps (.exit f) (fun cx _ => cx.onSpool = false ∧ cx.g.converged cx.k = false) (fun cx _ => cx.trap 0x0005 (exitAux cx.g)) ∧
  (∀ (g : Group) k, g.converged k = true ↔ (g.splits.filter (·.v)).length = 1 ∧ (g.splits.getD k {}).mask = g.lmask ∧
    (g.splits.getD k {}).n = 0 ∧ (∀ e ∈ g.joins, e.v = false) ∧ g.stack = [] ∧ g.stks = 0)

/-- R166, R371: SYS releases and starts its request; a service of 4 or more has status 0xFFFF_FFFF. A delivered status lands in the
destination register and the operation completes.
R371, R372: a pending request of service 0 gets status 0; of services 1, 2 and 3, whose argument block reads, does its service:
a log record is appended, the queue's vector is raised, 8 bytes are written to the host bus. That one on another path gets status 2, the
layout of service 1's block and its cut at 4,096 bytes are the model's reading (log 66). -/
def Obligations.SystemCallResults : Prop :=
  (∀ f : Fld,
   Does (.sys f) always (fun cx s =>
     startOp (releases [] cx s) cx (.sys (cx.b32 0) (cx.g.rs2 cx.f.a.toNat) (if 4 ≤ cx.b32 0 then some 0xFFFFFFFF else none))
       [.s cx.f.d.toNat 0]) ∧
   (∀ s id o v a st d x, s.op? id = some o → o.k = .sys v a (some st) → o.wrs = [.s d x] →
     exec (.sysComplete id) s = .next (completeOp s { o with wrs := [.s d st] }))) ∧
  (∀ s id o a,
   s.op? id = some o →
   let asker (t : State) : Who := { opWho t o with asks := true }
   (o.k = .sys 0 a none → exec (.sysServiceNone id) s = .next (sysStatus s o 0)) ∧
   (pathOf a ≠ 0 → o.k = .sys 1 a none → exec (.sysServiceLog id) s = .next (sysStatus s o 2)) ∧
   (pathOf a ≠ 0 → o.k = .sys 2 a none → exec (.sysServiceRaiseVector id) s = .next (sysStatus s o 2)) ∧
   (pathOf a ≠ 0 → o.k = .sys 3 a none → exec (.sysServiceHostWrite id) s = .next (sysStatus s o 2)) ∧
   (∀ bs s1, pathOf a = 0 → o.k = .sys 2 a none → readPlain s (asker s) .load a 4 1 = .ok (bs, s1) →
     exec (.sysServiceRaiseVector id) s = .next (sysStatus (s1.raiseVector (opQueue s1 o).1) o 0)) ∧
   (∀ bs s1, pathOf a = 0 → o.k = .sys 3 a none → readPlain s (asker s) .load a 16 1 = .ok (bs, s1) →
     exec (.sysServiceHostWrite id) s = .next (sysStatus ((s1.writeNat (mKey 2 (natOfBytes (bs.take 8))) 8
       (natOfBytes ((bs.drop 8).take 8))).raiseVector (opQueue s1 o).1) o 0)) ∧
   (∀ bs s1 data s2, pathOf a = 0 → o.k = .sys 1 a none → readPlain s (asker s) .load a 12 1 = .ok (bs, s1) →
     natOfBytes (bs.take 8) < 2 ^ 56 → 0 < natOfBytes ((bs.drop 8).take 4) →
     readPlain s1 (asker s1) .load (BitVec.ofNat 64 (natOfBytes (bs.take 8))) (min (natOfBytes ((bs.drop 8).take 4)) 4096) 1 =
       .ok (data, s2) →
     exec (.sysServiceLog id) s = .next (appendLog s2 o data)))

/-- R142, R143, R175, R261: GETSR reads the special register that A names, in its scalar form once and in its vector form in every
active lane, with latency 2; an n32 read takes the low 32 bits.
R176, R142: SETSR sets CHKSB from bit 0, FPSTAT from bits 4 to 0, and with its latency of 2 AGEMAX clamped to 1 to 4,094; a write of
any other register has no effect. -/
def Obligations.SpecialRegisterResults : Prop := ∀ f : Fld,
  (let flag (b : Bool) (n : Nat) : Nat := if b then n else 0
   let sr (s : State) (cx : Cx) (l : Nat) : List (Nat × Nat) :=
     [(0x00, l), (0x01, l / 4), (0x02, flag (cx.g.helper.getLsbD l) 1), (0x08, cx.g.grp), (0x09, cx.w.wx), (0x0A, cx.w.wy),
      (0x0B, cx.w.wz), (0x0C, cx.w.ix), (0x0D, cx.l.gx), (0x0E, cx.l.gy), (0x0F, cx.l.gz), (0x10, 64), (0x11, cx.w.core),
      (0x12, cx.w.core / 48), (0x13, cx.l.ctx.slice), (0x14, s.clock % 2 ^ 64), (0x15, (cx.g.iter.getD 0xFFFFFFFF).toNat),
      (0x16, cx.g.stage.toNat),
      (0x17, flag (if cx.onSpool then cx.l.chksb else cx.g.chksb) 1 + flag cx.l.det 2 + flag cx.l.ctx.ns 4),
      (0x18, cx.g.fpstat.toNat), (0x19, if cx.onSpool then cx.l.agemax else cx.g.agemax), (0x1C, cx.w.vwbase),
      (0x1D, cx.w.vwsize), (0x1E, cx.l.k.priv), (0x1F, cx.l.seed.toNat), (0x20, cx.l.lid.toNat), (0x21, cx.l.l),
      (0x22, cx.w.ngrp)] ++
     (if cx.onSpool then [] else [(0x1A, cx.g.trapCause.toNat), (0x1B, cx.g.trapAddr.toNat)])
   (∀ n s cx s1 x, issuable (.getsr f) s = some (cx, s1) → cx.f.a.toNat = n → (n, x) ∈ sr s1 cx 0 →
     exec (.getsr f) s = .next (completed (fixAfter 2 s1 cx (sWrite cx.ty cx.f.d.toNat x)) cx)) ∧
   (∀ n s cx s1 (x : Nat → Nat), issuable (.getsrVector f) s = some (cx, s1) → cx.f.a.toNat = n →
     (∀ l, (n, x l) ∈ sr s1 cx l) →
     exec (.getsrVector f) s = .next (completed (fixAfter 2 s1 cx (vWrite cx.ty cx.f.d.toNat cx.act x)) cx)) ∧
   (∀ s cx s1 p, issuable (.getsr f) s = some (cx, s1) → cx.onSpool = true → cx.w.spool = some p → cx.f.a.toNat = 0x1A →
     exec (.getsr f) s = .next (completed (fixAfter 2 s1 cx (sWrite cx.ty cx.f.d.toNat p.trapCause.toNat)) cx)) ∧
   (∀ s cx s1 p, issuable (.getsr f) s = some (cx, s1) → cx.onSpool = true → cx.w.spool = some p → cx.f.a.toNat = 0x1B →
     exec (.getsr f) s = .next (completed (fixAfter 2 s1 cx (sWrite cx.ty cx.f.d.toNat p.trapAddr.toNat)) cx))) ∧
  (let on (age : Option Nat) (h : Group → Group) (cx : Cx) (s : State) : State := s.modGroup cx.gk fun g =>
     { h g with fixes := g.fixes ++ [{ ready := s.clock + 2, split := cx.k, wrs := [], age := age }] }
   Does (.setsr f) (fun cx _ => cx.f.a.toNat = 0x17) (fun cx => on none (fun g => { g with chksb := decide (cx.b32 0 % 2 = 1) }) cx) ∧
   Does (.setsr f) (fun cx _ => cx.f.a.toNat = 0x18) (fun cx => on none (fun g => { g with fpstat := BitVec.ofNat 5 (cx.b32 0 % 32) }) cx) ∧
   Does (.setsr f) (fun cx _ => cx.f.a.toNat = 0x19) (fun cx => on (some (max 1 (min 4094 (cx.b32 0)))) id cx) ∧
   Does (.setsr f) (fun cx _ => cx.f.a.toNat ∉ [0x17, 0x18, 0x19]) (fun cx => on none id cx) ∧
   (∀ (e : Fix) (g : Group) x, e.age = some x → (e.land g).agemax = x))

/-! ### Memory -/

/-- R215, R217, R220, R223, R234: LD, LDS and PROMOTE, whose bytes resolve, are sound and lie in this module, start an operation
that will write the values read, lane by lane; LD without an active lane completes at once. A poisoned byte stops the operation, and
bytes of peer modules are asked for. PROMOTE widens the scope of the latest .wg release on its word; on another assigned path than 0x00 it
raises cause 0x0041. R215, R217, R221, R223: ST and STS, whose bytes resolve, write the values of D at the addresses that A and B give,
in the active lanes that are no helper lanes, and complete; with a releasing ORD the agent releases. Which of the values that the order
admits a load returns is free, and its values and those of a store are read and written at issue (log 3, log 4, log 11, log 16). -/
def Obligations.LoadStoreResults : Prop := ∀ f : Fld,
  (let size (cx : Cx) : Nat := if f.mn.toNat / 2 % 2 = 1 then 16 else tyBits cx.ty / 8
   let marked (cx : Cx) : Bool := decide (cx.f.c.toNat % 8 ≠ 0)
   let same (_ : Cx) (_ : List (Req × List Hit)) (s : State) : State := s
   (∀ s cx s1, issuable (.ld f) s = some (cx, s1) → cx.act = 0 →
     exec (.ld f) s = .next (completed (completeNow (startOp s1 cx .reg [])) cx)) ∧
   Loads (.ld f) (fun cx => cx.act ≠ 0) marked (fun cx => alignFor (marked cx)) size
     (fun cx => requests cx (some cx.act) (fun l => baseAddr cx (decide (f.mn.toNat % 2 = 1)) (offsetB cx l) l) (size cx)) same ∧
   Loads (.lds f) (fun _ => True) marked (fun cx => alignFor (marked cx)) size
     (fun cx => requests cx none (fun l => baseAddr cx true (offsetB cx l) l) (size cx)) same ∧
   Loads (.promote f) (fun cx => pathOf (baseAddr cx true (offsetB cx 0) 0) = 0) (fun _ => true) (fun _ => natural)
     (fun cx => tyBits cx.ty / 8) (fun cx => requests cx none (fun l => baseAddr cx true (offsetB cx l) l) (tyBits cx.ty / 8))
     (fun cx hs s => widenRels s cx.who (((allHits hs).map (·.key)).headD 0)) ∧
   Traps (.promote f) (fun cx _ => pathOf (baseAddr cx true (offsetB cx 0) 0) ∈ [1, 8, 9, 12, 14])
     (fun cx _ => cx.trap 0x0041 (baseAddr cx true (offsetB cx 0) 0))) ∧
  (let size (cx : Cx) : Nat := if f.mn.toNat / 2 % 2 = 1 then 16 else tyBits cx.ty / 8
   let marked (cx : Cx) : Bool := decide (cx.f.c.toNat % 8 ≠ 0)
   (∀ s cx s1 hs s2, issuable (.st f) s = some (cx, s1) →
     resolveAll s1 cx.who .store (marked cx) (alignFor (marked cx))
       (requests cx (some cx.actNH) (fun l => baseAddr cx (decide (f.mn.toNat % 2 = 1)) (offsetB cx l) l) (size cx)) = .ok (hs, s2) →
     exec (.st f) s = .next (completed (startOp
       (afterAccess (marked cx) cx (writeLanes s2 (cx.whoOp s2) (marked cx) hs (cx.stBytes false))) cx .store []) cx)) ∧
   (∀ s cx s1 hs s2, issuable (.sts f) s = some (cx, s1) →
     resolveAll s1 cx.who .store (marked cx) (alignFor (marked cx))
       (requests cx none (fun l => baseAddr cx true (offsetB cx l) l) (size cx)) = .ok (hs, s2) →
     exec (.sts f) s = .next (completed (startOp
       (afterAccess (marked cx) cx (writeLanes s2 (cx.whoOp s2) (marked cx) hs fun _ => cx.stBytes true 0)) cx .store []) cx)))

/-- R399, R400, R401: an LD, LDS, ST, STS or ATOM whose accesses do not resolve raises the memory fault of the lowest check at
its lowest lane, and nothing is read or written. -/
def Obligations.MemoryFaultsRaise : Prop := ∀ (f : Fld) s cx s1 m,
  let size : Nat := if f.mn.toNat / 2 % 2 = 1 then 16 else tyBits cx.ty / 8
  let marked : Bool := decide (cx.f.c.toNat % 8 ≠ 0)
  let a (u : Bool) (l : Nat) : DWord := baseAddr cx u (offsetB cx l) l
  let flt : Trap :=
    { cause := BitVec.ofNat 16 m.cause, info := infoOf cx.r.op.toNat cx.cl.idx 0, addr := cx.cl.at_, aux := m.aux, atIssue := true
      walk := m.page.map fun p => (cx.w.core / 48, p) }
  (issuable (.ld f) s = some (cx, s1) → cx.act ≠ 0 →
    resolveAll s1 cx.who .load marked (alignFor marked) (requests cx (some cx.act) (a (decide (f.mn.toNat % 2 = 1))) size) = .error m →
    exec (.ld f) s = .next (trappedAt s1 cx flt)) ∧
  (issuable (.lds f) s = some (cx, s1) →
    resolveAll s1 cx.who .load marked (alignFor marked) (requests cx none (a true) size) = .error m →
    exec (.lds f) s = .next (trappedAt s1 cx flt)) ∧
  (issuable (.st f) s = some (cx, s1) →
    resolveAll s1 cx.who .store marked (alignFor marked) (requests cx (some cx.actNH) (a (decide (f.mn.toNat % 2 = 1))) size) = .error m →
    exec (.st f) s = .next (trappedAt s1 cx flt)) ∧
  (issuable (.sts f) s = some (cx, s1) →
    resolveAll s1 cx.who .store marked (alignFor marked) (requests cx none (a true) size) = .error m →
    exec (.sts f) s = .next (trappedAt s1 cx flt)) ∧
  (issuable (.atom f) s = some (cx, s1) →
    resolveAll s1 cx.who .atomic true natural
      (requests cx (some cx.actNH) (baseAddr cx (bit cx.m 1) 0) (tyBits cx.ty / 8)) = .error m →
    exec (.atom f) s = .next (trappedAt s1 cx flt))

/-- R225 to R229: ATOM performs its lanes in ascending order and starts an operation that will write the old values where M asks for
them; ATOM.ord takes its place in its site's sequence with what its group has done, or raises cause 0x000D where its site, address, type or launch does not
fit; the next workgroup's passage at a site of a deterministic launch applies its contributions in order and writes the total, with
what they release, and their operations wait until a peer module that holds X has accepted it. That ATOM's lanes are performed at issue, and
when a result of ATOM.ord lands, are the model's readings (log 11, log 27). -/
def Obligations.AtomicResults : Prop := ∀ f : Fld,
  (∀ s cx s1 hs s2, issuable (.atom f) s = some (cx, s1) →
    resolveAll s1 cx.who .atomic true natural
      (requests cx (some cx.actNH) (baseAddr cx (bit cx.m 1) 0) (tyBits cx.ty / 8)) = .ok (hs, s2) →
    soundHere s2 hs →
    let r := atomLanes (s2.newLoad cx.me) (cx.whoOp (s2.newLoad cx.me)) cx.f.mn.toNat cx.ty
      (hs.map fun x => (laneOf x.1, x.2, (cx.atomOpd (laneOf x.1)).1, (cx.atomOpd (laneOf x.1)).2))
    exec (.atom f) s = .next (completed (startOp (afterAccess true cx r.2.2) cx .reg
      (if bit cx.m 0 then loadWrs cx.ty cx.f.d.toNat (tyBits cx.ty / 8) r.1 else []) r.2.1) cx)) ∧
  (∀ s cx s1 st hs s2, issuable (.atomOrd f) s = some (cx, s1) →
    let site := cx.f.c.toNat / 64 % 8
    cx.l.sites[site]? = some st → cx.l.det = true → st.addr = cx.g.rs2 cx.f.a.toNat → st.ty = cx.ty → site ∉ cx.g.sites →
    resolveAll s1 cx.who .atomic true natural [(none, st.addr, tyBits cx.ty / 8)] = .ok (hs, s2) →
    let s3 := startLater (afterAccess true cx s2) cx (.atomOrd site cx.f.d.toNat (bit cx.m 0) false)
      (if bit cx.m 0 then vRefs cx.f.d.toNat (regsOf cx.ty) else [])
    let mine : Contrib := { wg := cx.w.ix, grp := cx.g.grp, op := s3.nextId - 1, opn := cx.f.mn.toNat, ord := cx.f.c.toNat % 8
                            scp := cx.f.c.toNat / 8 % 8, lanes := (lanesIn cx.actNH).map fun l => (l, BitVec.ofNat 64 (cx.b l))
                            place := cx.place, fence := (s2.agHb cx.me).fenceRel, clk := s2.relClk cx.me }
    exec (.atomOrd f) s = .next (completed ((modSite s3 cx.lid site fun x =>
      { x with waiting := insertContrib mine x.waiting }).modGroup cx.gk fun g => { g with sites := g.sites ++ [site] }) cx)) ∧
  (∀ s cx s1, issuable (.atomOrd f) s = some (cx, s1) →
    let site := cx.f.c.toNat / 64 % 8
    (∀ st, cx.l.sites[site]? = some st → cx.l.det = false ∨ st.addr ≠ cx.g.rs2 cx.f.a.toNat ∨ st.ty ≠ cx.ty ∨ site ∈ cx.g.sites) →
    exec (.atomOrd f) s = .next (trappedAt s1 cx (cx.trap 0x000D (BitVec.ofNat 64 site)))) ∧
  (∀ s lid site l st s2, s.launch? lid = some l → l.sites[site]? = some st → l.det = true → st.next < l.gx * l.gy * l.gz →
    l.killed = false → siteSettled s lid l site st.next 32 = true →
    let mine := st.waiting.filter (·.wg == st.next)
    mine ≠ [] →
    let r := giveResults s st mine st.acc.toNat
    let st' : Site :=
      { st with acc := BitVec.ofNat 64 r.2, next := st.next + 1, waiting := st.waiting.filter (·.wg != st.next), ord := passOrd mine
                scp := mine.foldl (fun m c => max m c.scp) 0, rels := passRels st.rels mine }
    passageWrite r.1 (passageWho r.1 lid site l st' mine) st' mine = .ok s2 →
    let s3 := keepFar (s2.post (.ended lid) (s2.relClk (siteMe lid site))) (devOp lid (.passage site st.next))
    let wait (o : Op) : Op :=
      if mine.any fun c => c.op == o.id then { o with waits := if s3.nextId = s2.nextId then none else some s2.nextId } else o
    exec (.orderedPassage lid site) s = .next (settleLaunch (modSite { s3 with ops := s3.ops.map wait } lid site fun _ => st') lid st.next))

/-- R70, R230, R231: LCOPY, whose lanes resolve, starts one copy operation, which follows what its issuer has done; when it completes
every lane's bytes move, zeros behind the valid ones, and its counter falls. R61, R62, R69, R232, R233: WAITF completes when its
counter is at or below its operand held at 255, and acquires what the completions released to it; else it waits and returns once it
is; FENCE completes, acquires and releases as its ORD says, an .ar one taking its place in the order of R64, and orders the paths of its
split; LCOPY without an active lane completes at once. That the copy is made whole at its completion, its second check, its party and the
place of an .ar fence are the model's readings (log 11, log 18, log 19, log 37, log 91). -/
def Obligations.LaneCopyAndFenceResults : Prop := ∀ f : Fld,
  ((∀ s cx s1 a b s2, issuable (.lcopy f) s = some (cx, s1) →
     let lanes := (lanesIn cx.actNH).map fun l =>
       (l, baseAddr cx (bit cx.f.mn.toNat 0) 0 l, cx.lcDst l, min (cx.b32 l) (4 * 2 ^ (cx.f.c.toNat % 8)), 4 * 2 ^ (cx.f.c.toNat % 8))
     lcResolve (startHb s1 cx) (cx.engWho s1) lanes = .ok (a, b, s2) →
     (lanes ≠ [] → exec (.lcopy f) s = .next (completed (startOp s2 cx (.lcopy lanes) []) cx)) ∧
     (lanes = [] → exec (.lcopy f) s = .next (completed (completeNow (startOp s2 cx (.lcopy []) [])) cx))) ∧
   (∀ s id o lanes a b s1, s.op? id = some o → o.k = .lcopy lanes → o.fault = none → o.done = false →
     lcResolve s (engWho s o) lanes = .ok (a, b, s1) → (∀ h ∈ allHits a, keyCode h.key ≠ 3) →
     let s2 := (lcMove s1 (engWho s o) a b).release (partyOp o.id)
     unackedOp s2 id = false → exec (.lcopyComplete id) s = .next (completeOp s2 o)) ∧
   (∀ s id o lanes m, s.op? id = some o → o.k = .lcopy lanes → o.fault = none → o.done = false →
     lcResolve s (engWho s o) lanes = .error m →
     ∃ t : Trap, t.cause = BitVec.ofNat 16 m.cause ∧ t.aux = m.aux ∧ t.addr = o.pc ∧
       exec (.lcopyComplete id) s = .next (deferFault s id t))) ∧
  (let met (cx : Cx) : Prop := cx.g.cnt (cx.f.d.toNat % 8) ≤ min (cx.b32 0) 255
   let hears (cx : Cx) (s : State) : State := s.hear cx.me (.cnt cx.wid cx.g.grp (cx.f.d.toNat % 8))
   let acquired (cx : Cx) (s : State) : State := if cx.f.c.toNat % 8 = 2 ∨ cx.f.c.toNat % 8 = 4 then fenceAcq s cx.who else s
   Does (.waitf f) (fun cx _ => met cx) hears ∧
   Waits (.waitf f) (fun cx _ => ¬ met cx) (fun _ s => s) ∧
   (∀ s ag cx s1, returnable ag isWaitf s = some (cx, s1) → exec (.waitfReturn ag) s = .next (returned s1 (hears cx s1) cx)) ∧
   Does (.fence f) (fun cx _ => cx.f.c.toNat % 8 = 2) (fun cx s => fencePaths (acquired cx s) cx.me) ∧
   Does (.fence f) (fun cx _ => cx.f.c.toNat % 8 = 3) (fun cx s => fencePaths (fenceRel s cx) cx.me) ∧
   Does (.fence f) (fun cx _ => cx.f.c.toNat % 8 = 4)
     (fun cx s => fencePaths (fenceRel (fenceOrder (acquired cx s) cx.who) cx) cx.me))

/-- R211, R212, R213: SPILL, whose slot resolves, writes the register's slot in its least format and completes; FILL, whose slot
resolves, is sound, lies in this module and has a format up to 3, starts an operation that will write the slot's values; an
unassigned format raises cause 0x004C. That the slot is written and read at issue, and when FMT is checked, are the model's readings (log
11, log 21). -/
def Obligations.SpillFillResults : Prop := ∀ f : Fld,
  let slot (cx : Cx) : DWord := cx.g.rs2 (cx.f.b.toNat - 256) + BitVec.ofNat 64 (cx.c32 0)
  (∀ s cx s1 hs s2, issuable (.spill f) s = some (cx, s1) →
    let bs := spillBytes cx.g.lmask (cx.g.rv cx.f.a.toNat)
    slotResolve s1 cx.who .store (slot cx) 0 bs.length = .ok (hs, s2) →
    exec (.spill f) s = .next (completed (startOp (writeLanes s2 (cx.whoOp s2) false hs fun _ => bs) cx .store []) cx)) ∧
  (∀ s cx s1 m, issuable (.spill f) s = some (cx, s1) →
    slotResolve s1 cx.who .store (slot cx) 0 (spillBytes cx.g.lmask (cx.g.rv cx.f.a.toNat)).length = .error m →
    exec (.spill f) s = .next (trappedAt s1 cx (cx.mtrap m))) ∧
  (∀ s cx s1 hdr data s2, issuable (.fill f) s = some (cx, s1) →
    fillRead s1 { cx.who with got := [] } cx.act (slot cx) = .ok hdr data s2 →
    exec (.fill f) s = .next (completed (startOp s2 cx .reg
      (vWrite 1 cx.f.d.toNat cx.act (fillLane hdr data))) cx)) ∧
  (∀ s cx s1 m, issuable (.fill f) s = some (cx, s1) →
    fillRead s1 { cx.who with got := [] } cx.act (slot cx) = .bad m →
    exec (.fill f) s = .next (trappedAt s1 cx (cx.mtrap m))) ∧
  (∀ s cx s1 hs s2, issuable (.fill f) s = some (cx, s1) → slotResolve s1 { cx.who with got := [] } .load (slot cx) 0 16 = .ok (hs, s2) →
    soundHere s2 hs → 3 < natOfBytes ((readHits s2 { cx.who with got := [] } false (allHits hs)).1.take 4) % 256 →
    exec (.fill f) s = .next (trappedAt s1 cx (cx.trap 0x004C (slot cx))))

/-- R211, R212, R213: what SPILL writes is what FILL reads: for every launch mask and register, the slot's format is at most 3 and
each lane of the launch mask reads back its value. -/
def Obligations.SpilledRegisterFillsBack : Prop := ∀ (lm : Mask) (v : Nat → Word), lm ≠ 0 → ∀ l < 64, lm.getLsbD l = true →
  natOfBytes ((spillBytes lm v).take 4) ≤ 3 ∧
  fillLane ((spillBytes lm v).take 16) ((spillBytes lm v).drop 16) l = (v l).toNat

/-- R60, R180, R207 to R210: TISET gives the handle the record of 16 s registers with its position, a result of latency 4, and raises
cause 0x0007 where counters lie outside their extents; TIGET reads a word or the element numbers of the lanes; a TIOP with a fitting
count starts one operation whose accesses are made as it issues, the bytes of peer modules being asked for; it completes with the
position moved on. A TIOP whose count or registers do not fit raises cause 0x0007; without an active lane it completes at once. That the
accesses are made at issue, the deferred faults of TIOP, that role D admits it on every path, and a TISET that is still on its way are the
model's readings (log 11, log 20, log 62, log 94). -/
def Obligations.TensorIteratorResults : Prop := ∀ f : Fld,
  let rec16 (cx : Cx) : List Word := (List.range 16).map fun k => cx.g.rs (cx.f.a.toNat + k)
  Does (.tiset f) (fun cx _ => cx.act ≠ 0 ∧ tiOk (rec16 cx) = true) (fun cx s => s.modGroup cx.gk fun g =>
    { g with fixes := g.fixes ++ [{ ready := s.clock + 4, split := cx.k, wrs := []
                                    ti := some (cx.f.d.toNat % 4, tiSet (rec16 cx) (tiPos (rec16 cx)) 0) }] }) ∧
  Does (.tiset f) (fun cx _ => cx.act = 0) (fun _ s => s) ∧
  Traps (.tiset f) (fun cx _ => cx.act ≠ 0 ∧ tiOk (rec16 cx) = false)
    (fun cx _ => cx.trap 0x0007 (BitVec.ofNat 64 (cx.f.d.toNat % 4))) ∧
  Does (.tiget f) always (fun cx s => addFix s cx (vWrite cx.ty cx.f.d.toNat cx.act fun l =>
    let r := Tab.get [] cx.g.ti (cx.f.a.toNat % 4)
    if bit cx.m 0 then (r.getD (cx.b32 0 % 16) 0).toNat else (tiPos r + l) % 2 ^ 32)) ∧
  (∀ e ∈ [(0, Instr.tiopLd f), (1, .tiopSt f), (2, .tiopAdv f)], ∀ s cx s1, issuable e.2 s = some (cx, s1) →
    let n := cx.b32 0
    let d := cx.f.d.toNat
    let last := d + n * regsOf cx.ty
    let offset := cx.f.c.toNat
    let fits : Prop := 1 ≤ n ∧ n ≤ 32 ∧ (e.1 = 2 ∨ last ≤ cx.l.k.regs) ∧ ¬ (e.1 = 0 ∧ offset < 256 ∧ d ≤ offset ∧ offset < last)
    let x : Tiop :=
      { mode := e.1, ty := cx.ty, reg := d, n := n, hnd := cx.f.a.toNat % 4, act := if e.1 = 1 then cx.actNH else cx.act
        ofs := lanesOf fun l => if cx.f.c = 384 then 0 else BitVec.ofNat 32 (cx.c32 l)
        data := if e.1 = 1 then (List.range (n * regsOf cx.ty)).map fun k => lanesOf fun l => cx.g.rv (d + k) l else [] }
    let s2 := startLater (s1.modGroup cx.gk (·.dropTiset x.hnd)) cx (.tiop x) (if e.1 = 0 then vRefs d (n * regsOf cx.ty) else [])
    (cx.role = 3 → roleAdmits cx = true) ∧
    (cx.act = 0 → exec e.2 s = .next (completed (completeNow (startOp s1 cx .reg [])) cx)) ∧
    (cx.act ≠ 0 → ¬ fits → exec e.2 s = .next (trappedAt s1 cx (cx.trap 0x0007 (BitVec.ofNat 64 (cx.f.a.toNat % 4))))) ∧
    (∀ o s3, cx.act ≠ 0 → fits → s2.op? s1.nextId = some o → tiRun s2 o x cx.gk = .ok s3 →
      exec e.2 s = .next (completed (tiAsk (opFollows s3 o) o.id cx.l.ctx.ns) cx)) ∧
    (∀ o s3 m, cx.act ≠ 0 → fits → s2.op? s1.nextId = some o → tiRun s2 o x cx.gk = .stop s3 m →
      exec e.2 s = .next (completed (opFollows s3 o) cx))) ∧
  (∀ s id o x key s1 o1, s.op? id = some o → o.done = false → o.fault = none → opSaved s o = false → o.k = .tiop x →
    agentKey o.ag = some key → unackedOp s o.id = false → farHits o.got x.farHits = [] → tiRun s o x key = .ok s1 →
    s1.op? o.id = some o1 → farHits o1.got (o1.tiopNow x).farHits = [] → unackedOp (opFollows s1 o) o1.id = false →
    let s2 := tiAdvance (opFollows s1 o) (o1.tiopNow x) key
    exec (.variableLatencyComplete id) s = .next (completeOp s2 { o1 with wrs := o1.wrs ++ (o1.tiopNow x).landPlan (grpWho (opFollows s1 o) o1) }))

/-! ### Barriers, queues, mailbox -/

/-- R62, R235 to R238: BARI sets the expected count and BARA makes its arrivals, each flipping the phase once for every whole expected
count, when the count lies in 1 to 4,095, and else raise cause 0x0008; BARA releases to the barrier; BARW completes when the phase
differs from bit 0 of its operand, acquires the arrivals, and else waits and returns once it does; BART reads the word of the register.
R263, R264: SPREQ releases and appends its word to the mailbox of a running spool processor, else discards it; SPRECV takes the oldest
word and acquires, or waits and receives one later; SPRECV.TRY takes one with the flag 1, or writes 0 and 0. Arrivals made one after
another are the model's reading (log 24). -/
def Obligations.BarrierAndMailboxResults : Prop := ∀ f : Fld,
  (let good (n : Nat) : Prop := 1 ≤ n ∧ n ≤ 4095
   let bar (w : Wg) (n : Nat) : Bar := Tab.get { exp := w.ngrp } w.bars n
   let settle (b : Bar) : Bar := { ph := b.ph ^^ decide (b.arr / b.exp % 2 = 1), arr := b.arr % b.exp, exp := b.exp }
   let bn (cx : Cx) : Nat := cx.f.d.toNat % 16
   let misuse (cx : Cx) : Trap := cx.trap 0x0008 (BitVec.ofNat 64 (bn cx + cx.b32 0 * 2 ^ 32))
   let hears (cx : Cx) (s : State) : State := s.hear cx.me (.bar cx.wid (bn cx))
   Does (.bari f) (fun cx _ => good (cx.b32 0)) (fun cx s => s.expectAt cx.wid (bn cx) (cx.b32 0)) ∧
   (∀ (s : State) w n x, 1 ≤ x → (s.expectAt w n x).wg? w = (s.wg? w).map fun y =>
     { y with bars := Tab.put y.bars n (settle { bar y n with exp := x }) }) ∧
   Traps (.bari f) (fun cx _ => ¬ good (cx.b32 0)) (fun cx _ => misuse cx) ∧
   Does (.bara f) (fun cx _ => good (cx.b32 0)) (fun cx s =>
     releases [] cx (s.arriveAt cx.wid (bn cx) (cx.b32 0) (s.relClk cx.me))) ∧
   (∀ (s : State) w n c past, (∀ y, s.wg? w = some y → 0 < (bar y n).exp) → (s.arriveAt w n c past).wg? w = (s.wg? w).map fun y =>
     { y with bars := Tab.put y.bars n (settle { bar y n with arr := (bar y n).arr + c }) }) ∧
   Traps (.bara f) (fun cx _ => ¬ good (cx.b32 0)) (fun cx _ => misuse cx) ∧
   Does (.barw f) (fun cx _ => (bar cx.w (bn cx)).ph ≠ decide (cx.b32 0 % 2 = 1)) hears ∧
   Waits (.barw f) (fun cx _ => (bar cx.w (bn cx)).ph = decide (cx.b32 0 % 2 = 1)) (fun _ s => s) ∧
   (∀ s ag cx s1, returnable ag isBarw s = some (cx, s1) → exec (.barwReturn ag) s = .next (returned s1 (hears cx s1) cx)) ∧
   Does (.bart f) always (fun cx s => addFix s cx [.s cx.f.d.toNat (bar cx.w (cx.f.a.toNat % 16)).word])) ∧
  (let take (cx : Cx) (s : State) : State :=
     (s.pull cx.me (.mail cx.wid)).modWg cx.wid fun w => { w with mbox := w.mbox.tail }
   Does (.spreq f) (fun cx _ => ∃ p, cx.w.spool = some p ∧ p.run = true) (fun cx s =>
     (releases [] cx (s.push (.mail cx.wid) (s.relClk cx.me))).modWg cx.wid fun w =>
       { w with mbox := w.mbox ++ [BitVec.ofNat 32 (cx.b32 0)] }) ∧
   Does (.spreq f) (fun cx _ => ∀ p, cx.w.spool = some p → p.run = false) (releases []) ∧
   (∀ s cx s1 x xs, issuable (.sprecv f) s = some (cx, s1) → cx.w.mbox = x :: xs →
     exec (.sprecv f) s = .next (completed (addFix (take cx s1) cx [.s cx.f.d.toNat x]) cx)) ∧
   Waits (.sprecv f) (fun cx _ => cx.w.mbox = []) (fun _ s => s) ∧
   (∀ s ag cx s1 x xs, returnable ag isSprecv s = some (cx, s1) → cx.w.mbox = x :: xs →
     exec (.sprecvReceive ag) s = .next (returned s1 (addFix (take cx s1) cx [.s cx.f.d.toNat x]) cx)) ∧
   (∀ s cx s1 x xs, issuable (.sprecvTry f) s = some (cx, s1) → cx.w.mbox = x :: xs →
     exec (.sprecvTry f) s = .next (completed (addFix (take cx s1) cx [.s cx.f.d.toNat x, .s (cx.f.d.toNat + 1) 1]) cx)) ∧
   Does (.sprecvTry f) (fun cx _ => cx.w.mbox = []) (fun cx s => addFix s cx [.s cx.f.d.toNat 0, .s (cx.f.d.toNat + 1) 0]))

/-- R239 to R242, R258: a QPOP or QPOP.TRY of q0 with a published tile takes its next row, which the operation it starts will write
to the active lanes with their predicate, and acquires; without one, or after an earlier pop, QPOP waits and QPOP.TRY clears the
predicate; a waiting QPOP is served once a row is there. A row that is poisoned stops the operation instead. R239, R241, R242, R243, R323: a QPOP of q1 ends the
hold of earlier records, and with records for all its lanes, or the queue closed and nothing more to come, serves the lanes that
are no helper lanes in ascending order; else it waits. QPOP.TRY serves what is there, where no earlier pop waits for it; a waiting QPOP is served once its
condition holds. QPUSH returns the active lanes' records to the head of the queue. A QPOP of q1 outside a task node and the end
of a hold are the model's readings (log 23, log 28). -/
def Obligations.QueuePopResults : Prop := ∀ f : Fld,
  (let mx (cx : Cx) (s : State) : Matrix := (s.core cx.w.core).mx
   let key (m : Matrix) : Nat := 64 * m.pub.headD 0 + m.nextRow
   let sound (cx : Cx) (s : State) : Prop := (mx cx s).pub ≠ [] ∧ key (mx cx s) ∉ (mx cx s).bad
   let first (cx : Cx) (s : State) : Prop := earlierPop s cx true = false
   let popAs (k : OpK) (cx : Cx) (s : State) : State :=
     let c := s.core cx.w.core
     let pasts := s.chan (.tile cx.w.core)
     let t := s.learn cx.me (pasts.headD [])
     startOp ((if c.mx.nextRow = 63 then t.setChan (.tile cx.w.core) pasts.tail else t).setCore cx.w.core { c with mx := c.mx.popped }) cx k
       [.v cx.f.d.toNat cx.act (Tab.get [] c.mx.acc (key c.mx)), .p (cx.f.c.toNat % 8) cx.act (BitVec.allOnes 64)]
   let pop := popAs .reg
   let row (cx : Cx) (s : State) : Nat := accKey cx.w.core (key (mx cx s) / 64) (key (mx cx s) % 64)
   let popBad (cx : Cx) (s : State) : State :=
     let t := popAs (.badRow (row cx s)) cx s
     stopPoison t (t.nextId - 1) (row cx s)
   let poisoned (cx : Cx) (s : State) : Prop := (mx cx s).pub ≠ [] ∧ key (mx cx s) ∈ (mx cx s).bad
   Does (.qpop f) (fun cx s => cx.f.a = 0 ∧ sound cx s ∧ first cx s) pop ∧
   Does (.qpopTry f) (fun cx s => cx.f.a = 0 ∧ sound cx s ∧ first cx s) pop ∧
   Does (.qpop f) (fun cx s => cx.f.a = 0 ∧ poisoned cx s ∧ first cx s) popBad ∧
   Does (.qpopTry f) (fun cx s => cx.f.a = 0 ∧ poisoned cx s ∧ first cx s) popBad ∧
   Waits (.qpop f) (fun cx s => cx.f.a = 0 ∧ ((mx cx s).pub = [] ∨ ¬ first cx s)) (fun _ s => s) ∧
   Does (.qpopTry f) (fun cx s => cx.f.a = 0 ∧ ((mx cx s).pub = [] ∨ ¬ first cx s))
     (fun cx s => startOp s cx .reg [.p (cx.f.c.toNat % 8) cx.act 0]) ∧
   (∀ s ag cx s1, returnable ag isQpop s = some (cx, s1) → cx.f.a = 0 → cx.i = .qpop f → sound cx s1 →
     exec (.qpopServe ag) s = .next (returned s1 (pop cx s1) cx))) ∧
  (Does (.qpop f) (fun cx s => cx.f.a ≠ 0 ∧ waitMet (endHold s cx) cx = true) (fun cx s => popTasks (endHold s cx) cx) ∧
   Waits (.qpop f) (fun cx s => cx.f.a ≠ 0 ∧ waitMet (endHold s cx) cx = false) (fun cx s => endHold s cx) ∧
   Does (.qpopTry f) (fun cx _ => cx.f.a ≠ 0) (fun cx s => popTasks (endHold s cx) cx (earlierPop (endHold s cx) cx false)) ∧
   (∀ s ag cx s1, returnable ag isQpop s = some (cx, s1) → cx.f.a ≠ 0 → waitMet (endHold s1 cx) cx = true →
     exec (.qpopServe ag) s = .next (returned s1 (popTasks (endHold s1 cx) cx) cx)) ∧
   (∀ s cx s1 gid g n x, issuable (.qpush f) s = some (cx, s1) → nodeOf s1 cx.l = some (gid, g, n, x) →
     let mine := cx.g.held.filter fun e => cx.act.getLsbD e.1
     exec (.qpush f) s = .next (completed (({ s1 with graphs := Tab.modify s1.graphs gid fun y =>
         { y with nodes := y.nodes.modify n fun z =>
             { z with queue := mine.map (fun e => pushRec cx (s1.agHb cx.me).clk (cx.b32 0) x.rw e.1 e.2) ++ z.queue } } } : State).modGroup cx.gk
       fun g => { g with held := g.held.filter fun e => !cx.act.getLsbD e.1 }) cx)) ∧
   (∀ s cx s1, issuable (.qpush f) s = some (cx, s1) → nodeOf s1 cx.l = none → exec (.qpush f) s = .next (completed s1 cx)))

/-! ### Matrix unit, copies, collectives -/

/-- R247, R248, R249: OBRES answers 0 and holds the record, or 1 to 3 where the handle is taken or the range overlaps one of this or
another workgroup of the core; OBREL gives the record up, its range held on while an MLOOP reads it; a bad record or handle
raises cause 0x0009.
R250, R253, R257, R259: MLOOP.new and MLOOP.acc, whose operands have a covering record or a format, pair under R90, keep to their
strides and fit the head's type, enter the core's sequencer queue, as MPUB does, which is a release; otherwise MLOOP raises cause
0x0009. -/
def Obligations.MatrixUnitIssueResults : Prop := ∀ f : Fld,
  (let rec4 (cx : Cx) : List Word := (List.range 4).map fun k => cx.g.rs (cx.f.a.toNat + k)
   let base (cx : Cx) : Nat := (cx.g.rs cx.f.a.toNat).toNat % 2 ^ 20
   let size (cx : Cx) : Nat := (cx.g.rs (cx.f.a.toNat + 1)).toNat % 2 ^ 21
   let meets (cx : Cx) (w : Wg) : Prop := ∃ r ∈ w.heldRanges, r.1 < base cx + size cx ∧ base cx < r.1 + r.2
   let other (cx : Cx) (s : State) : Prop :=
     ∃ e ∈ s.wgs, e.1 ≠ cx.wid ∧ e.2.core = cx.w.core ∧ e.2.saved = false ∧ meets cx e.2
   let good (cx : Cx) : Prop := obOk (rec4 cx) = true ∧ cx.b32 0 ≤ 7
   let answer (n : Nat) (cx : Cx) (s : State) : State := startOp s cx .reg (sWrite 1 cx.f.d.toNat n)
   Does (.obres f) (fun cx _ => good cx ∧ (Tab.find? cx.w.obr (cx.b32 0)).isSome) (answer 1) ∧
   Does (.obres f) (fun cx _ => good cx ∧ Tab.find? cx.w.obr (cx.b32 0) = none ∧ meets cx cx.w) (answer 2) ∧
   Does (.obres f) (fun cx s => good cx ∧ Tab.find? cx.w.obr (cx.b32 0) = none ∧ ¬ meets cx cx.w ∧ other cx s) (answer 3) ∧
   Does (.obres f) (fun cx s => good cx ∧ Tab.find? cx.w.obr (cx.b32 0) = none ∧ ¬ meets cx cx.w ∧ ¬ other cx s)
     (fun cx s => answer 0 cx (s.modWg cx.wid fun w => { w with obr := Tab.put w.obr (cx.b32 0) (rec4 cx) })) ∧
   Traps (.obres f) (fun cx _ => ¬ good cx) (fun cx _ => cx.trap 0x0009 0) ∧
   Traps (.obrel f) (fun cx _ => 7 < cx.b32 0) (fun cx _ => cx.trap 0x0009 0) ∧
   Does (.obrel f) (fun cx _ => cx.b32 0 ≤ 7 ∧ Tab.find? cx.w.obr (cx.b32 0) = none) (fun _ s => s) ∧
   (∀ s cx s1 ws, issuable (.obrel f) s = some (cx, s1) → cx.b32 0 ≤ 7 → Tab.find? cx.w.obr (cx.b32 0) = some ws →
     exec (.obrel f) s = .next (completed (s1.modWg cx.wid fun w => { w with
       obr := Tab.erase w.obr (cx.b32 0)
       obHeld := if readers s1 cx.w.core = [] then w.obHeld
         else w.obHeld ++ [(obBase ws, obSize ws, readers s1 cx.w.core)] }) cx))) ∧
  (let blk (cx : Cx) : List Word := (List.range 8).map fun k => cx.g.rs (cx.f.a.toNat + k)
   let fa (cx : Cx) : Nat := cx.f.c.toNat % 16
   let fb (cx : Cx) : Nat := cx.f.c.toNat / 16 % 16
   let enqueue (cx : Cx) (s : State) (k : OpK) (bar : Option Nat) : State :=
     let s1 := startOp s cx k [] 0 bar
     let c := s1.core cx.w.core
     s1.setCore cx.w.core { c with mx := { c.mx with queue := c.mx.queue ++ [s1.nextId - 1] } }
   let bar (cx : Cx) : Option Nat := if bit cx.f.d.toNat 4 then some (cx.f.d.toNat % 16) else none
   let ok (cx : Cx) (ra rb : List Word) (kp : Nat × Bool) : Prop :=
     operandRec cx.w (blkAddr (blk cx) 0) (fa cx) = some ra ∧ operandRec cx.w (blkAddr (blk cx) 4) (fb cx) = some rb ∧
     pairing (fmtFor (fa cx) ra) (fmtFor (fb cx) rb) = some kp ∧ cx.b32 0 ≤ 65535 ∧
     strideOk ra (blkInt (blk cx) 2) = true ∧ strideOk rb (blkInt (blk cx) 6) = true
   (∀ s cx s1 ra rb kp, issuable (.mloopNew f) s = some (cx, s1) → ok cx ra rb kp → exec (.mloopNew f) s =
     .next (completed (enqueue cx s1 (.mloop false (blk cx) (cx.b32 0) (fa cx) (fb cx) ra rb) (bar cx)) cx)) ∧
   (∀ s cx s1 ra rb kp, issuable (.mloopAcc f) s = some (cx, s1) → ok cx ra rb kp →
     (∀ t, prospective s1 cx.w.core = some t → t = kp.2) → exec (.mloopAcc f) s =
     .next (completed (enqueue cx s1 (.mloop true (blk cx) (cx.b32 0) (fa cx) (fb cx) ra rb) (bar cx)) cx)) ∧
   Traps (.mloopNew f) (fun cx _ => ∀ ra rb kp, ¬ ok cx ra rb kp) (fun cx _ => cx.trap 0x0009 0) ∧
   Traps (.mloopAcc f) (fun cx s => ∀ ra rb kp, ¬ (ok cx ra rb kp ∧ ∀ t, prospective s cx.w.core = some t → t = kp.2))
     (fun cx _ => cx.trap 0x0009 0) ∧
   Does (.mpub f) always (fun cx s => enqueue cx (releases [] cx s) .mpub none))

/-- R246, R253 to R258: an idle sequencer starts the command at its queue's head while the head position holds a tile: an MLOOP,
which zeroes the tile where it opens it, an MPUB, which publishes the tile, its token falling, and completes once a free tile has
become the head; the running MLOOP's operands are read and accumulated from where they stand, its read arrival made, and after its
last step it completes once its writes to peer modules are accepted. The lowest free tile and the reads at each step are the model's choices (log 11, log 26). -/
def Obligations.SequencerResults : Prop := ∀ (s : State) core id o,
  let c := s.core core
  let m := c.mx
  s.op? id = some o →
  (∀ h, m.busy = false → m.queue.head? = some id → m.head = some h → o.k = .mpub →
    let m1 := if m.opened then m else m.zeroHead false
    let t := publish s core h m1 o
    exec (.sequencerCommandStart core) s = .next t ∧
    (t.core core).mx = { m1 with pub := m1.pub ++ [h], head := none, opened := false, busy := true } ∧
    (∀ c sl k n g, o.ag = .group c sl k → o.tok = some n → s.group? (gKey c sl) = some g →
      t.group? (gKey c sl) = some { g with tk := Tab.put g.tk n (Tab.get 0 g.tk n - 1) })) ∧
  (∀ h acc blk n fa fb ra rb, m.busy = false → m.queue.head? = some id → m.head = some h → o.k = .mloop acc blk n fa fb ra rb →
    acc = true → m.opened = true →
    exec (.sequencerCommandStart core) s = .next (s.setCore core { c with mx := { m with busy := true, step := 0, row := 0 } })) ∧
  (∀ h acc blk n fa fb ra rb k i32, m.busy = false → m.queue.head? = some id → m.head = some h → o.k = .mloop acc blk n fa fb ra rb →
    acc = false ∨ m.opened = false → pairing (fmtFor fa ra) (fmtFor fb rb) = some (k, i32) →
    exec (.sequencerCommandStart core) s = .next (s.setCore core { c with mx :=
      { m with acc := m.acc.filter (fun e => e.1 / 64 != h), bad := m.bad.filter (fun k => k / 64 != h), opened := true, i32 := i32
               busy := true, step := 0, row := 0 } })) ∧
  (∀ t, m.head = none → m.busy = true → m.queue.head? = some id →
    (List.range 16).find? (fun t => m.head != some t && !decide (t ∈ m.pub)) = some t →
    exec (.headTileTake core) s = .next (completeOp (s.setCore core { c with mx :=
      { m with head := some t, opened := false, busy := false, queue := m.queue.tail } }) o)) ∧
  (∀ r s1, m.busy = true → m.queue.head? = some id → o.fault = none → mRun s core o = some r → m.step < r.n → s.peers = [] →
    mSteps s r m.step m.row (r.n - m.step) = .ok s1 →
    let s2 := match o.bar with
      | some b => s1.arriveAt o.wg b 1 (s1.relClk (opMe id))
      | none => s1
    exec (.mloopReadArrival core) s = .next ((dropReaders (s2.modOp id fun o => { o with bar := none }) [id]).release (partyOp id))) ∧
  (∀ acc blk n fa fb ra rb, m.busy = true → m.queue.head? = some id → o.fault = none → o.k = .mloop acc blk n fa fb ra rb →
    n ≤ m.step → unackedOp s id = false →
    exec (.mloopComplete core) s = .next (completeOp ((dropReaders (s.setCore core { c with mx :=
      { m with busy := false, step := 0, row := 0, queue := m.queue.tail } }) [id]).release (partyOp id)) o))

/-- R265 to R271: a TCOPY whose descriptors are sound starts one copy, else raises cause 0x000A; the copy completes once its
elements are copied from its counters on, or stops at a deferred fault. R272 to R274, R412, R424: a COLL with a count of 1 to
2³¹ − 1, addresses on path 0x00 and a zero last word joins the collective of its communicator and sequence number, else raises
cause 0x000A; the first completion of a member reads its SRC and sends it on; once every member's data is there, and the peers
have what was sent, its next one writes its result to DST, after what the members here have done to the bytes they name, and says so to
the peers. The accesses made at completion, what the peers are told, the misuse of COLL and that order are the model's readings (log
11, log 12, log 22, log 82). -/
def Obligations.BulkTransferResults : Prop := ∀ f : Fld,
  (let t (cx : Cx) : TC := ⟨cx.f.c.toNat, cx.f.d.toNat, (List.range 16).map fun k => cx.g.rs (cx.f.a.toNat + k)⟩
   Does (.tcopy f) (fun cx _ => (t cx).ok = true) (fun cx s => startOp s cx
     (.tcopy (t cx).fc (t cx).fd (t cx).blk [0, 0, 0, 0, 0, 0]) [] 0
     (if bit cx.f.d.toNat 4 then some (cx.f.d.toNat % 16) else none)) ∧
   Traps (.tcopy f) (fun cx _ => (t cx).ok = false) (fun cx _ => cx.trap 0x000A 0) ∧
   (∀ s id o fc fd blk c s1, s.op? id = some o → o.k = .tcopy fc fd blk c → o.fault = none → o.done = false →
     opSaved s o = false → s.peers = [] →
     let t : TC := ⟨fc, fd, blk⟩
     tcRun s o { opWho s o with copy := true } t (t.pos c) (t.count - t.pos c) = .ok s1 → unackedOp s1 id = false →
     exec (.tcopyComplete id) s = .next (completeOp (s1.release (partyOp o.id)) o)) ∧
   (∀ s id o fc fd blk c s1 m, s.op? id = some o → o.k = .tcopy fc fd blk c → o.fault = none → o.done = false →
     opSaved s o = false → s.peers = [] →
     let t : TC := ⟨fc, fd, blk⟩
     tcRun s o { opWho s o with copy := true } t (t.pos c) (t.count - t.pos c) = .stop s1 m →
     ∃ x : Trap, x.cause = BitVec.ofNat 16 m.cause ∧ x.aux = m.aux ∧ x.addr = o.pc ∧
       exec (.tcopyComplete id) s = .next (deferFault s1 id x))) ∧
  (let r (cx : Cx) (k : Nat) : Word := cx.g.rs (cx.f.a.toNat + k)
   let src (cx : Cx) : DWord := r cx 1 ++ r cx 0
   let dst (cx : Cx) : DWord := r cx 3 ++ r cx 2
   let ok (cx : Cx) : Prop := 1 ≤ (r cx 4).toNat ∧ (r cx 4).toNat < 2 ^ 31 ∧ (cx.f.mn.toNat < 2 ∨ cx.f.c.toNat % 4 = 0) ∧
     pathOf (src cx) = 0 ∧ pathOf (dst cx) = 0 ∧ r cx 7 = 0
   (∀ s cx s1, issuable (.coll f) s = some (cx, s1) → ok cx →
     let comm := (r cx 5).toNat % 65536
     let root := (r cx 5).toNat / 65536
     let k : OpK := .coll cx.f.mn.toNat (cx.f.c.toNat % 4) cx.ty (src cx) (dst cx) (r cx 4).toNat comm root (r cx 6).toNat
     let s2 := startOp s1 cx k [] 0 (if bit cx.f.d.toNat 4 then some (cx.f.d.toNat % 16) else none)
     ∀ o, s2.op? (s2.nextId - 1) = some o → exec (.coll f) s = .next (completed (joinColl s2 o cx.l.ctx.slice
       [cx.f.mn.toNat, cx.f.c.toNat % 4, cx.ty, (r cx 4).toNat, root] comm (r cx 6).toNat) cx)) ∧
   Traps (.coll f) (fun cx _ => ¬ ok cx) (fun cx _ => cx.trap 0x000A 0) ∧
   (∀ s id o c rank mn red ty a d count comm root sq xs s2, s.op? id = some o → collOf s id = some (c, rank) →
     o.k = .coll mn red ty a d count comm root sq → o.fault = none → Tab.find? c.data rank = none →
     resolveAll s (opWho s o) .engRead false (fun _ _ => 1) [(none, a, c.need rank)] = .ok (xs, s2) →
     farHits o.got (allHits xs) = [] →
     let read := readHits s2 (opWho s2 o) false (allHits xs)
     let bad := ((allHits xs).zipIdx.filter fun x => s2.poisoned x.1.key).map (·.2)
     let named := nameBufs read.2 c ((allHits xs).map (·.key) ++ dstKeys read.2 (opWho s2 o) d (c.outSize rank))
     exec (.collComplete id) s = .next (sendPieces (setColl named
       { c with data := Tab.put c.data rank read.1, bad := c.bad ++ bad.map fun i => (rank, i) }) (opNs s o) o.id
       { c with data := Tab.put c.data rank read.1, bad := c.bad ++ bad.map fun i => (rank, i) } rank read.1 bad)) ∧
   (∀ s id o c rank mn red ty a d count comm root sq hs s3, s.op? id = some o → collOf s id = some (c, rank) →
     o.k = .coll mn red ty a d count comm root sq → o.fault = none → (Tab.find? c.data rank).isSome = true →
     c.full s.moduleNo = true → unackedOp s id = false → c.bad = [] →
     let bs := (c.result rank).flatMap (bytesOfNat (if c.key.getD 2 0 = 4 then 2 else 4))
     resolveAll s (opWho s o) .engWrite false (fun _ _ => 1) [(none, d, bs.length)] = .ok (hs, s3) →
     let s4 := writeLanes (collHears s3 c o.id) (opWho s o) false hs fun _ => bs
     let s5 := sendColl s4 (opNs s o) id c.table (collFlit c.comm rank c.seq c.key true 0 0 [1])
     let c2 : Collective := { c with done := c.done ++ [rank] }
     let last : Prop := ∀ q < c.table.length, q ∈ c2.done
     unackedOp s5 id = false →
     (last → exec (.collComplete id) s = .next (completeOp (({ s5 with
       colls := s5.colls.filter fun x => !(x.comm == c.comm && x.seq == c.seq && !x.failed) } : State).release (partyOp id)) o)) ∧
     (¬ last → exec (.collComplete id) s = .next (completeOp ((setColl s5 c2).release (partyOp id)) o))))

/-! ### Rays and raster passes -/

/-- R282 to R287, R289: RCVT and RHIT complete with their records and values; BOXT, FDIN, TRIT and RTRACE start an operation that
traverses for every active lane with the registers read at issue, whose destination is undefined until it lands; FDIN makes its reads
as it issues where all of them succeed here; without an active lane they complete at once. RHIT leaves a lane without a valid record.
R289, R402, R404: the traversal of an outstanding BOXT, FDIN or TRIT, and of an RTRACE, completes when every lane's reads succeed in this
module, each lane's record landing; where reads fail it stops at the deferred fault of the lowest check; a completed RTRACE can be waited
for by GDRAIN. When the reads are made, deferred faults and the one that is reported are the model's readings (log 11, log 29 to log 32,
log 34). -/
def Obligations.RayTraversalResults : Prop :=
  (∀ f : Fld,
   let ws (cx : Cx) (r n l : Nat) : List Word := (List.range n).map fun k => cx.g.rv (r + k) l
   let each (cx : Cx) {α : Type} (v : Nat → α) : List (Nat × α) := (lanesIn cx.act).map fun l => (l, v l)
   let nothing (cx : Cx) (s : State) (k : OpK) : State := completeNow (startOp s cx k [])
   let start (cx : Cx) (s : State) (k : OpK) (n : Nat) : State :=
     startLater s cx k (vRefs cx.f.d.toNat n)
   let pair (cx : Cx) (opc c n : Nat) : OpK := .trav opc cx.f.d.toNat c (each cx fun l =>
     (ws cx cx.f.a.toNat 20 l, if n = 0 then [BitVec.ofNat 32 (cx.b32 l)] else ws cx cx.f.b.toNat n l))
   let trace (cx : Cx) (s : State) : OpK := .rtrace cx.f.d.toNat (each cx (ws cx cx.f.a.toNat 12))
     (cx.g.rs2 (cx.f.b.toNat - 256)) cx.f.c.toNat (s.slice cx.l.ctx.slice).gen
   Does (.rcvt f) (fun cx _ => cx.m = 0) (fun cx s => fixAfter 4 s cx (recWrs cx.f.d.toNat 20
     (each cx fun l => (rootRay (ws cx cx.f.a.toNat 12 l) (cx.g.rs2 (cx.f.b.toNat - 256))).words))) ∧
   Does (.rcvt f) (fun cx _ => cx.m ≠ 0) (fun cx s => fixAfter 4 s cx (recWrs cx.f.d.toNat 16
     (each cx fun l => rootHit (ws cx cx.f.a.toNat 12 l)))) ∧
   Does (.boxt f) (fun cx _ => cx.act = 0) (fun cx s => nothing cx s (pair cx 0x71 0 16)) ∧
   Does (.boxt f) (fun cx _ => cx.act ≠ 0) (fun cx s => start cx s (pair cx 0x71 0 16) 1) ∧
   Does (.fdin f) (fun cx _ => cx.act = 0) (fun cx s => nothing cx s (pair cx 0x72 0 0)) ∧
   (let found (cx : Cx) (s : State) : LaneRun := travLanes { eng := cx.engWho s, grp := cx.who } 0x72 0
       (each cx fun l => (ws cx cx.f.a.toNat 20 l, [BitVec.ofNat 32 (cx.b32 l)])) ((startHb s cx).newLoad cx.me)
    Does (.fdin f) (fun cx s => cx.act ≠ 0 ∧ (found cx s).faults = [] ∧ (found cx s).far = [])
      (fun cx s => startOp (found cx s).s cx (.trav 0x72 cx.f.d.toNat 0 []) (recWrs cx.f.d.toNat 20 (found cx s).done)) ∧
    Does (.fdin f) (fun cx s => cx.act ≠ 0 ∧ ¬ ((found cx s).faults = [] ∧ (found cx s).far = []))
      (fun cx s => start cx s (pair cx 0x72 0 0) 20)) ∧
   Does (.trit f) (fun cx _ => cx.act = 0) (fun cx s => nothing cx s (pair cx 0x73 cx.f.c.toNat 16)) ∧
   Does (.trit f) (fun cx _ => cx.act ≠ 0) (fun cx s => start cx s (pair cx 0x73 cx.f.c.toNat 16) 16) ∧
   Does (.rtrace f) (fun cx _ => cx.act = 0) (fun cx s => nothing cx s (trace cx s)) ∧
   Does (.rtrace f) (fun cx _ => cx.act ≠ 0) (fun cx s => start cx s (trace cx s) 16) ∧
   Does (.rhit f) always (fun cx s =>
     let h (l k : Nat) : Nat := (cx.g.rv (cx.f.a.toNat + k) l).toNat
     let x (l k : Nat) : Nat := (cx.g.rv (cx.f.b.toNat + k) l).toNat
     let r (l : Nat) : FR := interpolate cx.m (h l 14) (h l 15) (x l 0) (x l 1) (x l 2)
     let m : Mask := maskOf fun l => cx.act.getLsbD l && bit (h l 2) 0
     mergeFlags (fixAfter 4 s cx (vWrite 2 cx.f.d.toNat m fun l => (r l).1)) cx.gk
       ((lanesIn (cx.actNH &&& m)).foldl (fun a l => a ||| (r l).2) 0))) ∧
  (∀ (s : State) id o,
   s.op? id = some o → o.done = false → o.fault = none → opSaved s o = false →
   (∀ opc d c lanes, o.k = .trav opc d c lanes →
     let r := travLanes (gctxOf s o) opc c lanes s
     let n : Nat := if opc = 0x71 then 1 else if opc = 0x72 then 20 else 16
     (lanes = [] → unackedOp s id = false →
       exec (.variableLatencyComplete id) s = .next (completeOp (s.release (partyOp o.id)) o)) ∧
     (lanes ≠ [] → r.faults = [] → r.far = [] → unackedOp r.s id = false → exec (.variableLatencyComplete id) s =
       .next (completeOp (r.s.release (partyOp o.id)) { o with wrs := recWrs d n r.done })) ∧
     (∀ m, lanes ≠ [] → r.far = [] → worstFault r.faults = some m → ∃ t : Trap, t.cause = BitVec.ofNat 16 m.cause ∧ t.aux = m.aux ∧ t.addr = o.pc ∧
       exec (.variableLatencyComplete id) s =
         .next (deferFault (s.modOp o.id fun y => { y with skip := recWrs d n r.skip }) o.id t))) ∧
   (∀ d rays base fl gen, o.k = .rtrace d rays base fl gen →
     let r := traceLanes (gctxOf s o) base fl rays s
     let s1 := r.s.release (partyOp o.id)
     (r.faults = [] → r.far = [] → unackedOp r.s id = false → exec (.rtraceComplete id) s =
       .next (completeOp (s1.post (.trav ((s1.launch? o.lnch).elim 0 (·.ctx.slice)) gen.toNat) (s1.relClk (opMe o.id)))
         { o with wrs := recWrs d 16 r.done })) ∧
     (∀ m, r.far = [] → worstFault r.faults = some m → ∃ t : Trap, t.cause = BitVec.ofNat 16 m.cause ∧ t.aux = m.aux ∧ t.addr = o.pc ∧
       exec (.rtraceComplete id) s =
         .next (deferFault (s.modOp o.id fun y => { y with skip := recWrs d 16 r.skip }) o.id t))))

/-- R291, R292, R118, R59: NSWAP whose 8 bytes resolve on path 0x00 stores the new header, releases, raises the slice's generation
by one and returns it; GDRAIN waits while a traversal or pass of its slice whose sample precedes its operand runs, and then
returns, after all that those have read. R293, R295 to R300, R404: DRAWV starts a pass with the slice's generation; the pass
reads its view record first, and ends with status 1 where that is broken, misaligned or on another path; then it serves its
dies, each after the group's earlier passes there, and after the last its status lands; a fault stops it with the samples done kept.
When NSWAP's store is performed, that peer modules are asked for bytes first, and when and through which die the view record is read and
the order of dies are the model's choices (log 11, log 16, log 36). -/
def Obligations.SceneAndRasterResults : Prop := ∀ f : Fld,
  (let before (cx : Cx) (gen : Word) : Bool :=
     decide (1 ≤ (BitVec.ofNat 32 (cx.b32 0) - gen).toNat) && decide ((BitVec.ofNat 32 (cx.b32 0) - gen).toNat < 2 ^ 31)
   let over_ (cx : Cx) (s : State) : Prop := ∀ o ∈ s.ops, o.done = false →
     (∃ l, s.launch? o.lnch = some l ∧ l.ctx.slice = cx.l.ctx.slice) → ∀ gen,
     ((∃ d rays base fl, o.k = .rtrace d rays base fl gen) ∨ ∃ a, o.k = .drawv a gen) → before cx gen = false
   let heard (cx : Cx) (s : State) : State := ((s.hb.chans.map (·.1)).filter fun c => match c with
     | .trav sl gen => sl == cx.l.ctx.slice && before cx (BitVec.ofNat 32 gen)
     | _ => false).foldl (fun (s : State) c => s.hear cx.me c) s
   (∀ s cx s1 hs s2, issuable (.nswap f) s = some (cx, s1) →
     let a := cx.g.rs2 cx.f.a.toNat
     pathOf a = 0 → resolveAll s1 cx.who .store true (fun _ _ => 32) [(none, a, 8)] = .ok (hs, s2) →
     let s3 := writeLanes s2 (cx.whoOp s2) true hs fun _ => bytesOfNat 8 (cx.g.rs2 (cx.f.b.toNat - 256)).toNat
     let g := (s3.slice cx.l.ctx.slice).gen + 1
     exec (.nswap f) s = .next (completed (startOp ((spendFence (releases [] cx s3) cx.who).modSlice cx.l.ctx.slice
       fun x => { x with gen := g }) cx .reg [.s cx.f.d.toNat g]) cx)) ∧
   (∀ s cx s1, issuable (.nswap f) s = some (cx, s1) → pathOf (cx.g.rs2 cx.f.a.toNat) ∈ [1, 8, 9, 12, 14] →
     ∃ x : Trap, x.cause = 0x41 ∧ x.addr = cx.cl.at_ ∧ x.aux = cx.g.rs2 cx.f.a.toNat ∧
       exec (.nswap f) s = .next (trappedAt s1 cx x)) ∧
   Does (.gdrain f) over_ heard ∧
   Waits (.gdrain f) (fun cx s => ¬ over_ cx s) (fun _ s => s) ∧
   (∀ s ag cx s1, returnable ag isGdrain s = some (cx, s1) → cx.i = .gdrain f →
     exec (.gdrainReturn ag) s = .next (returned s1 (heard cx s1) cx))) ∧
  (Does (.drawv f) always (fun cx s =>
     let a := cx.g.rs2 cx.f.a.toNat
     let gen := (s.slice cx.l.ctx.slice).gen
     let s1 := startLater s cx (.drawv a gen) [.s cx.f.d.toNat]
     { s1 with passes := s1.passes ++ [{ op := s1.nextId - 1, slice := cx.l.ctx.slice, view := [], gen := gen, dies := viewDies s cx.who a }] }) ∧
   (∀ s id o p a gen, s.op? id = some o → s.passes.find? (fun p => p.op == id) = some p → o.k = .drawv a gen → o.fault = none →
     o.done = false → o.tags = [] → p.stopped = false →
     let sound : Prop := pathOf a ≤ 1 ∧ a.toNat % 128 = 0
     (p.view = [] → ¬ sound → exec (.drawvPassComplete id) s = .next (endPass s o o.statusReg 1)) ∧
     (∀ ws s1, p.view = [] → sound → readView s (passWho s o 0) a = .ok (ws, s1) → viewOk ws = false →
       exec (.drawvPassComplete id) s = .next (endPass s1 o o.statusReg 1)) ∧
     (∀ ws s1, p.view = [] → sound → readView s (passWho s o 0) a = .ok (ws, s1) → viewOk ws = true →
       exec (.drawvPassComplete id) s = .next (s1.modPass id fun q =>
         { q with view := ws, dies := diesOf (viewWidth ws) (viewHeight ws) })) ∧
     (∀ m, p.view = [] → sound → readView s (passWho s o 0) a = .error (.fault m) →
       ∃ x : Trap, x.cause = BitVec.ofNat 16 m.cause ∧ x.aux = m.aux ∧ x.addr = o.pc ∧
         exec (.drawvPassComplete id) s = .next (deferFault s id x)) ∧
     (∀ hs, p.view = [] → sound → readView s (passWho s o 0) a = .error (.far hs) →
       exec (.drawvPassComplete id) s = .next (requestReads s (opNs s o) id hs)) ∧
     (∀ die, p.view ≠ [] → passDie s o p = some die →
       let sh := s.hear (opMe o.id) (.pass o.wg o.grp die)
       let pos := Tab.get 0 p.pos die
       let r := ((dieSamples p.view die).drop pos).foldl (fun r x => passSample (passWho sh o die) p.view x.1 x.2.1 x.2.2 r)
         { s := sh, status := p.status.toNat, pos := pos }
       let kept := r.s.modPass o.id fun q => { q with pos := Tab.put q.pos die r.pos, status := BitVec.ofNat 32 r.status }
       let served := r.s.post (.pass o.wg o.grp die) (r.s.relClk (opMe o.id))
       (r.stop = none → (∀ d ∈ p.dies, d = die) →
         exec (.drawvPassComplete id) s = .next (endPass served o o.statusReg r.status)) ∧
       (r.stop = none → (∃ d ∈ p.dies, d ≠ die) → exec (.drawvPassComplete id) s = .next ((served.bump (opMe o.id)).modPass o.id fun q =>
         { q with dies := p.dies.filter (· != die), status := BitVec.ofNat 32 r.status })) ∧
       (∀ m, r.stop = some (.fault m) → ∃ x : Trap, x.cause = BitVec.ofNat 16 m.cause ∧ x.aux = m.aux ∧ x.addr = o.pc ∧
         exec (.drawvPassComplete id) s = .next (deferFault kept o.id x)) ∧
       (∀ hs, r.stop = some (.far hs) → exec (.drawvPassComplete id) s = .next (requestReads kept (opNs kept o) o.id hs))) ∧
     (∀ t st, unackedOp t id = false →
       let t1 := ({ t with passes := t.passes.filter fun p => p.op != o.id } : State).release (partyOp o.id)
       let past := t1.relClk (opMe o.id)
       endPass t o o.statusReg st = completeOp ((t1.post (.trav ((t1.launch? o.lnch).elim 0 (·.ctx.slice)) gen.toNat) past).post
         (.ended o.lnch) past) { o with wrs := [.s o.statusReg (BitVec.ofNat 32 st)] })))

/-! ### Staged loops and device launch -/

/-- R311, R315: SLBEGIN opens a loop, joins the open one of its identifier, or starts or joins the pending one, and else raises cause
0x000B before any effect; SLEND of a group in no loop has no effect, and of another leaves its loop. -/
def Obligations.StagedLoopMembership : Prop := ∀ f : Fld,
  let m (cx : Cx) : Nat := if cx.f.d.toNat / 8 = 0 then cx.w.ngrp else cx.f.d.toNat / 8
  let t (cx : Cx) : Nat := cx.b32 0
  let n (cx : Cx) : Word := cx.g.rs cx.f.a.toNat
  let ident (cx : Cx) : Nat := cx.f.d.toNat % 8
  let valid (cx : Cx) : Prop := cx.g.lp = 0 ∧ m cx ≤ cx.w.ngrp ∧ 1 ≤ t cx ∧ t cx ≤ 32
  let same (cx : Cx) (o : SLoop) : Prop := o.n = n cx ∧ o.t = t cx ∧ o.mem = m cx
  let room (cx : Cx) (o : SLoop) : Prop := o.id = ident cx ∧ o.joined < o.mem
  let fresh (cx : Cx) : SLoop := { id := ident cx, n := n cx, t := t cx, mem := m cx, joined := 1, ended := 0, next := 0 }
  let enter (op pd : Option SLoop) (lp : Nat) (cx : Cx) (s : State) : State :=
    (s.modWg cx.wid fun w => { w with loop := op, pendLoop := pd }).modGroup cx.gk fun g => { g with lp := lp }
  Does (.slbegin f) (fun cx _ => valid cx ∧ cx.w.loop = none) (fun cx => enter (some (fresh cx)) cx.w.pendLoop 1 cx) ∧
  (∀ s cx s1 o, issuable (.slbegin f) s = some (cx, s1) → valid cx → cx.w.loop = some o →
    (room cx o → same cx o → exec (.slbegin f) s =
      .next (completed (enter (some { o with joined := o.joined + 1 }) cx.w.pendLoop 1 cx s1) cx)) ∧
    (room cx o → ¬ same cx o → exec (.slbegin f) s = .next (trappedAt s1 cx (cx.trap 0x000B 0))) ∧
    (¬ room cx o → cx.w.pendLoop = none → exec (.slbegin f) s =
      .next (completed (enter (some o) (some (fresh cx)) 2 cx s1) cx)) ∧
    (∀ p, ¬ room cx o → cx.w.pendLoop = some p → room cx p → same cx p → exec (.slbegin f) s =
      .next (completed (enter (some o) (some { p with joined := p.joined + 1 }) 2 cx s1) cx)) ∧
    (∀ p, ¬ room cx o → cx.w.pendLoop = some p → ¬ (room cx p ∧ same cx p) → exec (.slbegin f) s =
      .next (trappedAt s1 cx (cx.trap 0x000B 0)))) ∧
  Traps (.slbegin f) (fun cx _ => ¬ valid cx) (fun cx _ => cx.trap 0x000B 0) ∧
  Does (.slend f) (fun cx s => ∃ g, s.group? cx.gk = some g ∧ g.lp = 0) (fun _ s => s) ∧
  Does (.slend f) (fun cx s => ∃ g, s.group? cx.gk = some g ∧ g.lp ≠ 0) (fun cx s => leaveLoop s cx.ag cx.gk)

/-- R309, R312: SLNEXT finishes the held iteration, a release; in an open loop it then claims the next index and takes its entry
where that is free, and returns the index once it has its entry and the window admits it, or 0xFFFF_FFFF where none is left; else
it waits, and goes on later; in no loop it raises cause 0x000B. R313, R314: STADV and STJMP of a held iteration release and move
its stage counter on, at most to 0xFFFE; WAITL completes once the predecessor is finished or stands at the stage, or for iteration
0, acquiring what the predecessor released, and else waits and returns later; without a held iteration, and where STJMP would go
back, they raise cause 0x000B. When SLNEXT claims and writes its entry is the model's reading (log 39), so the clauses on it state what
the model does. -/
def Obligations.StagedLoopAdvance : Prop := ∀ f : Fld,
  (let free (w : Wg) (k : Nat) : Bool := decide (k < 32) || w.finished (k - 32)
   let take (cx : Cx) (k : Word) (s : State) : State := match s.wg? cx.wid with
     | some w => if free w k.toNat then s.modWg cx.wid fun w => { w with ents := Tab.put w.ents (k.toNat % 32) ⟨true, k, 0⟩ } else s
     | none => s
   let claim (cx : Cx) (o : SLoop) (s : State) : State := take cx o.next
     (((finishIter s cx.ag cx.gk).modWg cx.wid fun w => { w with loop := some { o with next := o.next + 1 } }).modGroup cx.gk fun g =>
       { g with claim := some o.next, claimReg := cx.f.d.toNat, claimTok := cx.f.tk.toNat })
   let ready (w : Wg) (k : Word) : Prop := (Tab.get {} w.ents (k.toNat % 32)).v = true ∧ (Tab.get {} w.ents (k.toNat % 32)).it = k ∧
     ∃ o, w.loop = some o ∧ (k.toNat < o.t ∨ w.finished (k.toNat - o.t) = true)
   let give (cx : Cx) (k : Word) (s : State) : State := startOp (s.modGroup cx.gk fun g =>
       { g with hold := true, iter := some k, stage := 0, claim := none }) cx .reg [.s cx.f.d.toNat k]
   let none_ (cx : Cx) (s : State) : State := startOp (finishIter s cx.ag cx.gk) cx .reg [.s cx.f.d.toNat 0xFFFFFFFF]
   Traps (.slnext f) (fun cx _ => cx.g.lp = 0) (fun cx _ => cx.trap 0x000B 0) ∧
   Waits (.slnext f) (fun cx _ => cx.g.lp = 2) (fun cx s => finishIter s cx.ag cx.gk) ∧
   (∀ s cx s1 o, issuable (.slnext f) s = some (cx, s1) → cx.g.lp = 1 → cx.w.loop = some o → cx.g.claim = none →
     (o.n ≤ o.next → exec (.slnext f) s = .next (completed (none_ cx s1) cx)) ∧
     (∀ w, o.next < o.n → (claim cx o s1).wg? cx.wid = some w → ready w o.next →
       exec (.slnext f) s = .next (completed (give cx o.next (claim cx o s1)) cx)) ∧
     (∀ w, o.next < o.n → (claim cx o s1).wg? cx.wid = some w → ¬ ready w o.next →
       exec (.slnext f) s = .next (waiting (claim cx o s1) cx))) ∧
   (∀ s ag cx s1 o, returnable ag isSlnext s = some (cx, s1) → cx.i = .slnext f → cx.g.lp = 1 → cx.w.loop = some o →
     (∀ k w, cx.g.claim = some k → (finishIter s1 cx.ag cx.gk).wg? cx.wid = some w → ready w k →
       exec (.slnextWaitEnd ag) s = .next (returned s1 (give cx k (finishIter s1 cx.ag cx.gk)) cx)) ∧
     (cx.g.claim = none → o.n ≤ o.next → exec (.slnextWaitEnd ag) s = .next (returned s1 (none_ cx s1) cx)))) ∧
  (let i (cx : Cx) : Nat := (cx.g.iter.getD 0).toNat
   let at_ (cx : Cx) : Nat := (Tab.get {} cx.w.ents (i cx % 32)).stg.toNat
   let move (x : Nat) (cx : Cx) (s : State) : State :=
     let v := BitVec.ofNat 16 (min x 0xFFFE)
     ((releases [stageChan s cx.wid cx.g.iter] cx s).modWg cx.wid fun w =>
       { w with ents := Tab.put w.ents (i cx % 32) { (Tab.get {} w.ents (i cx % 32)) with stg := v } }).modGroup
       cx.gk fun g => { g with stage := v }
   let passed (cx : Cx) : Prop := cx.g.iter = none ∨ i cx = 0 ∨ cx.w.finished (i cx - 1) = true ∨
     min (cx.b32 0) 0xFFFF ≤ cx.w.stageOf (i cx - 1)
   let heard (cx : Cx) (s : State) : State :=
     if cx.g.iter.getD 0 = 0 then s else s.hear cx.me (stageChan s cx.wid (cx.g.iter.map (· - 1)))
   Does (.stadv f) (fun cx _ => cx.g.hold = true) (fun cx s => move (at_ cx + cx.b32 0) cx s) ∧
   Traps (.stadv f) (fun cx _ => cx.g.hold = false) (fun cx _ => cx.trap 0x000B 0) ∧
   Does (.stjmp f) (fun cx _ => cx.g.hold = true ∧ at_ cx ≤ cx.b32 0) (fun cx s => move (cx.b32 0) cx s) ∧
   Traps (.stjmp f) (fun cx _ => cx.g.hold = false ∨ cx.b32 0 < at_ cx) (fun cx _ => cx.trap 0x000B 0) ∧
   Does (.waitl f) (fun cx _ => cx.g.hold = true ∧ passed cx) heard ∧
   Waits (.waitl f) (fun cx _ => cx.g.hold = true ∧ ¬ passed cx) (fun _ s => s) ∧
   Traps (.waitl f) (fun cx _ => cx.g.hold = false) (fun cx _ => cx.trap 0x000B 0) ∧
   (∀ s ag cx s1, returnable ag isWaitl s = some (cx, s1) → cx.i = .waitl f → cx.g.hold = true →
     exec (.waitlReturn ag) s = .next (returned s1 (heard cx s1) cx)))

/-- R322, R323, R324, R62: LAUNCH enqueues one record for each active lane that is no helper lane, in lane order, when the target's
pool has room for all, and releases to those records; without room it waits, or in a deterministic launch raises cause 0x000C;
LAUNCH.TRY enqueues as far as there is room and says which; TSTAT reads a task node's slots, records or state; a bad target raises
cause 0x000C. -/
def Obligations.DeviceLaunchResults : Prop := ∀ f : Fld,
  let b (cx : Cx) : Nat := cx.b32 0
  let misuse (cx : Cx) : Trap := cx.trap 0x000C (BitVec.ofNat 64 (b cx % 256))
  let recs (cx : Cx) (past : Clk) (n : Nat) (x : Node) (ls : List Nat) : List TaskRec := ls.map fun l =>
    { words := (List.range x.rw).map fun k => cx.g.rv (cx.f.a.toNat + k) l
      key := if cx.l.det then [n, cx.w.ix, cx.g.grp, Tab.get 0 cx.g.launches (b cx), l] else []
      clk := past }
  let put (gid n : Nat) (x : Node) (ls : List Nat) (cx : Cx) (s : State) : State :=
    let s1 := releases [] cx s
    let rs := recs cx (s.relClk cx.me) n x ls
    ({ s1 with graphs := Tab.modify s.graphs gid fun y => { y with nodes := y.nodes.modify (b cx) fun z =>
        { z with queue := if cx.l.det then rs.foldl (fun q r => insertKey r q) z.queue else z.queue ++ rs
                 used := z.used + ls.length } } } : State).modGroup cx.gk fun g =>
      { g with launches := Tab.put g.launches (b cx) (Tab.get 0 g.launches (b cx) + 1) }
  (∀ s cx s1 gid n x, issuable (.launch f) s = some (cx, s1) → launchTarget s1 cx = some (gid, n, x) →
    let ls := lanesIn cx.actNH
    (ls = [] → exec (.launch f) s = .next (completed s1 cx)) ∧
    (ls ≠ [] → ls.length ≤ x.cap - x.used → exec (.launch f) s = .next (completed (put gid n x ls cx s1) cx)) ∧
    (x.cap - x.used < ls.length → cx.l.det = false → exec (.launch f) s = .next (waiting s1 cx)) ∧
    (x.cap - x.used < ls.length → cx.l.det = true → exec (.launch f) s = .next (trappedAt s1 cx (misuse cx)))) ∧
  Traps (.launch f) (fun cx s => launchTarget s cx = none) (fun cx _ => misuse cx) ∧
  (∀ s ag cx s1 gid n x, returnable ag isLaunch s = some (cx, s1) → cx.i = .launch f → launchTarget s1 cx = some (gid, n, x) →
    lanesIn cx.actNH ≠ [] → (lanesIn cx.actNH).length ≤ x.cap - x.used →
    exec (.launchPoolWaitEnd ag) s = .next (returned s1 (put gid n x (lanesIn cx.actNH) cx s1) cx)) ∧
  (∀ s cx s1 gid n x, issuable (.launchTry f) s = some (cx, s1) → launchTarget s1 cx = some (gid, n, x) →
    let ls := (lanesIn cx.actNH).take (x.cap - x.used)
    exec (.launchTry f) s = .next (completed (fixAfter 2 (if ls = [] then s1 else put gid n x ls cx s1) cx
      [.p (cx.f.d.toNat % 8) cx.act (maskOf fun l => decide (l ∈ ls))]) cx)) ∧
  Traps (.launchTry f) (fun cx s => launchTarget s cx = none) (fun cx _ => misuse cx) ∧
  (∀ s cx s1 gid g n y x, issuable (.tstat f) s = some (cx, s1) → nodeOf s1 cx.l = some (gid, g, n, y) → g.nodes[b cx]? = some x →
    (x.task = true →
      let st (p : Bool) (i : Nat) : Nat := if p then 2 ^ i else 0
      exec (.tstat f) s = .next (completed (fixAfter 2 s1 cx [.s cx.f.d.toNat (BitVec.ofNat 32 (match cx.m with
        | 0 => x.cap - x.used
        | 1 => x.queue.length
        | _ => st x.closed 0 + st x.complete 1 + st x.poisoned 2))]) cx)) ∧
    (x.task = false → exec (.tstat f) s = .next (trappedAt s1 cx (misuse cx))))

/-! ### Clauses, operations, traps -/

/-- R125, R382, R25, R219, R136, R62, R401: at a header an agent that may run fetches and checks its clause, asking peer modules for
bytes of it first (log 16), or raises what the check finds, the poison of a byte as a deferred fault; the clause starts once its cycle has
come and its tokens and counters allow, acquiring what was released to those; a held instruction whose hold is over may issue.
R121, R127, R382: a clause that passes its check holds the parcels that stand in memory behind its header, as many as PCNT says,
its first instruction 8 bytes after the header. -/
def Obligations.ClauseResults : Prop :=
  (∀ (s : State) (ag : Agent),
   (∀ pc nb wid w l, mayStart s ag = true → headerOf s ag = some (pc, nb) → clauseOf s ag = none → agentWg s ag = some wid →
     s.wg? wid = some w → s.launch? w.lnch = some l →
     (∀ c s1, fetchClause s (whoFetch s ag w l) (kinfo l (isSpool ag)) pc = .ok (c, s1) →
       exec (.clauseStart ag) s = .next (setClause (forgetFar s1 ag) ag c)) ∧
     (∀ t, fetchClause s (whoFetch s ag w l) (kinfo l (isSpool ag)) pc = .error t →
       (∀ o, farOp? s ag = some o → o.tags = [] ∧ o.fault = none) →
       (t.late = false → t.far = [] → exec (.clauseStart ag) s = .next (raise (forgetFar s ag) ag t)) ∧
       (t.late = false → t.far ≠ [] → exec (.clauseStart ag) s = .next (askFar s ag wid w.lnch l.ctx.ns t)) ∧
       (t.late = true → exec (.clauseStart ag) s = .next (deferFar s ag wid w.lnch l.ctx.ns t)))) ∧
   (∀ pc nb c b, mayStart s ag = true → headerOf s ag = some (pc, nb) → clauseOf s ag = some (c, b) → c.started = false → nb ≤ s.clock →
     headerReady s ag c = true →
     exec (.clauseStart ag) s = .next (setClause (startHears s ag c.hdr) ag { c with started := true, base := s.clock })) ∧
   (∀ c, clauseOf s ag = some (c, 2) → nextHeld s ag c = false → agentHeldBack s ag = false →
     exec (.issueHoldRelease ag) s = .next (setBlock s ag 0))) ∧
  (∀ (s s1 : State) (w : Who) (k : KInfo) (pc : DWord) (c : Clause),
   fetchClause s w k pc = .ok (c, s1) →
   ∃ hb s2 bs, readPlain s w .fetch pc 8 4 = .ok (hb, s2) ∧ c.hdr = BitVec.ofNat 64 (natOfBytes hb) ∧
     readPlain s2 w .fetch (pc + 8) (4 * (bits c.hdr.toNat 4 5 + 1)) 4 = .ok (bs, s1) ∧ c.at_ = pc + 8 ∧ c.idx = 0 ∧
     c.rest = (List.range (bits c.hdr.toNat 4 5 + 1)).map fun i => BitVec.ofNat 32 (natOfBytes ((bs.drop (4 * i)).take 4)))

/-- R137, R80, R218, R219, R236, R62, R401, R402: an outstanding operation whose values are known completes: its registers land, its
flags merge, its token falls, its arrival is made, and its counter falls in issue order, what it releases going with them. A page walk that finds a leaf fills the
die's TLB and marks the entry as used. A deferred fault is raised at its agent, once; in a killed launch its operation ends; one of the
device's own writes kills what it was made for (log 17). Completions at any time and walks at the access are the model's (log 10, log 70). -/
def Obligations.OperationEvents : Prop :=
  (∀ s id o, s.op? id = some o → o.done = false → o.fault = none → opSaved s o = false → o.k = .reg ∨ o.k = .store →
    unackedOp s id = false → (∀ p, o.waits = some p → s.op? p = none) →
     exec (.variableLatencyComplete id) s = .next (completeOp s o)) ∧
  (∀ s o c sl k x, o.ag = .group c sl k → s.group? (gKey c sl) = some x → opSaved s o = false →
    let past := s.relClk (opMe o.id)
    let s0 := match o.tok with
      | some n => if o.byEngine = true then s.post (.tok x.wg x.grp n) past
          else (s.post (.tok x.wg x.grp n) past).release (partyGroup (gKey c sl))
      | none => s
    let land (g : Group) : Group := if g.exited then g else { g.writes o.wrs with fixes := g.fixes.map fun e => e.under o.wrs }
    let low (g : Group) : Group := match o.tok with
      | some n => { g with tk := Tab.put g.tk n (Tab.get 0 g.tk n - 1) }
      | none => g
    let s1 := s0.modGroup (gKey c sl) fun g => low { land g with fpstat := (land g).fpstat ||| o.flags }
    let s2 := match o.bar with
      | some b => s1.arriveAt o.wg b 1 (s1.relClk (opMe o.id))
      | none => s1
    completeOp s o = reap (lowerCounters (s2.modOp o.id fun x => { x with done := true })) o.lnch) ∧
  (∀ s die lnch va l e loc, s.launch? lnch = some l → die < 3 → pathOf va ≤ 1 →
    tlbFind s die l.ctx.asid (bits va.toNat 16 40) = none → leafOf s die l.ctx (bits va.toNat 0 56) = .ok (e, loc) →
    exec (.pageWalkComplete die lnch va) s =
      .next (touch s { ctx := l.ctx, core := some (48 * die) } false (bits va.toNat 16 40, e, loc))) ∧
  (∀ s id o t d, s.op? id = some o → o.fault = some t → o.raised = false → o.done = false → o.k = .device d →
    (∀ x, d ≠ .read x) → exec (.engineFault id) s = .next (devFails s o d t)) ∧
  (∀ s id o t, s.op? id = some o → o.fault = some t → o.raised = false → o.done = false → opSaved s o = false → (∀ d, o.k ≠ .device d) →
    ((∀ l, s.launch? o.lnch = some l → l.killed = false) → mayTrap s o.ag = true → exec (.engineFault id) s =
      .next (raise (s.modOp id fun x => { x with raised := true }) o.ag t)) ∧
    (∀ l, s.launch? o.lnch = some l → l.killed = true → exec (.engineFault id) s = .next (skipOp s o)))

/-- R380, R390, R391, R393, R403: a trap of a split of a live launch writes cause and INFO to TRAPCAUSE and the address to TRAPADDR; a
shared fault joins the entry it shares; without a ring the launch is killed; else an entry of its own is recorded, which freezes the
workgroup, among the entries of its cycle and workgroup in ascending group slot. As the cycle ends, an entry that finds a place is
written at the ring's tail with the next serial, the tail rises and the vector is raised where TRCTL asks for it; one that finds the
ring full waits, and sets TRFULL in the cycle in which it was recorded. -/
def Obligations.TrapEntry : Prop :=
  (∀ (s : State) c sl k g w l (t : Trap),
   s.group? (gKey c sl) = some g → s.wg? g.wg = some w → s.launch? w.lnch = some l → l.killed = false →
   let ag := Agent.group c sl k
   let s1 := s.modGroup (gKey c sl) fun g => { g with trapCause := t.info ++ t.cause, trapAddr := t.addr, trapped := true }
   let p : Pend :=
     { q := l.q, serial := 0, lnch := w.lnch, lid := l.lid, trap := t, joined := [ag]
       entry := entryWords 0 t l.lid w.ix w.core sl g.grp k (g.splits.getD k {}).mask s.clock
       written := false, at_ := s.clock, wg := g.wg, slot := if g.grp = 16 then 64 else sl }
   (∀ i, joinable s1 w.lnch t = some i →
     raise s ag t = { s1 with pend := s1.pend.modify i fun x => { x with joined := x.joined ++ [ag] } }) ∧
   (joinable s1 w.lnch t = none → (s.queue l.q).trLog = 0 → raise s ag t = killLaunch (s1.logErr 4) w.lnch) ∧
   (joinable s1 w.lnch t = none → (s.queue l.q).trLog ≠ 0 →
     raise s ag t = { s1 with pend := insertPend p s.pend } ∧ frozen (raise s ag t) g.wg = true)) ∧
  (∀ (p : Pend) (xs ys : List Pend),
   let before (x : Pend) : Prop := x.at_ = p.at_ ∧ x.wg = p.wg ∧ x.q = p.q ∧ p.slot < x.slot ∧ x.written = false
   (∀ x ∈ xs, ¬ before x) → insertPend p xs = xs ++ [p] ∧ (∀ x, before x → insertPend p (xs ++ x :: ys) = xs ++ p :: x :: ys)) ∧
  (∀ (s : State) p rest, s.pend = p :: rest → p.written = false → p.failed = false → p.joined ≠ [] →
   (∀ x ∈ rest, x.q ≠ p.q ∨ x.written = true) →
   let x := s.queue p.q
   x.trLog ≠ 0 →
   (∀ key, x.trFull = false → ringAt s p.q x.trLoc (x.trBase + x.trTail.toNat % 2 ^ x.trLog * 64) = some key →
     let s1 := s.writeBytes (((x.serial :: p.entry.tail).flatMap bytesOfWord).zipIdx.map fun bi => (key + bi.2, bi.1))
     let s2 := s1.setQueue p.q { x with trTail := x.trTail + 1, serial := if x.serial + 1 = 0 then 1 else x.serial + 1 }
     flushTraps s p.q =
       { (if x.trIrq = true then s2.raiseVector p.q else s2) with pend := { p with serial := x.serial, written := true } :: rest }) ∧
   (x.trFull = true → flushTraps s p.q = if p.at_ = s.clock then s.logErr 2 else s))

/-- R392, R394, R395, R397, R410, R412: TRACT acts on every access of the pending entry with its serial: skip and retry take
the entry away and let its agents go on, kill and a register error kill the launch; another serial has no effect. TRKILL kills
every running launch of the queue with its LID. TRHEAD and, while EN = 0, TRBASE take their value, which lets an entry whose write had
failed be tried again. A serial that does not pend having no effect is the model's reading (log 38). -/
def Obligations.TrapActions : Prop := ∀ (s : State) (q : Nat) (serial : Word),
  let acted (act : Trap → State → Agent → State) (p : Pend) : State :=
    p.joined.foldl unfreeze (p.joined.foldl (act p.trap)
      { s with pend := s.pend.filter fun x => !(x.q == q && x.written && x.serial == serial) })
  ((∀ p ∈ s.pend, ¬ (p.q = q ∧ p.written = true ∧ p.serial = serial)) → exec (.tractSkip q serial) s = .next s ∧
    exec (.tractRetry q serial) s = .next s ∧ exec (.tractKill q serial) s = .next s) ∧
  (∀ p, pendOf s q serial = some p → exec (.tractKill q serial) s = .next (killLaunch s p.lnch) ∧
    (p.trap.cause ≠ 0x4F → exec (.tractSkip q serial) s = .next (acted skipAgent p) ∧
      exec (.tractRetry q serial) s = .next (acted retryAgent p)) ∧
    (p.trap.cause = 0x4F → exec (.tractSkip q serial) s = .next (killLaunch s p.lnch) ∧
      exec (.tractRetry q serial) s = .next (killLaunch s p.lnch))) ∧
  (∀ lid, exec (.trkill q lid) s = .next ((((s.launches.filter fun l => l.2.q == q && l.2.lid == lid).map (·.1))).foldl killLaunch s)) ∧
  (∀ v, exec (.trheadWrite q v) s = .next (s.setQueue q { s.queue q with trHead := v })) ∧
  (∀ v, (s.queue q).en = true → exec (.trbaseWrite q v) s = .next s) ∧
  (∀ v, (s.queue q).en = false → exec (.trbaseWrite q v) s = .next { s.setQueue q
    { s.queue q with trLoc := v.toNat % 4, trBase := v.toNat / 4096 * 4096 } with
    pend := s.pend.map fun p => if p.q = q then { p with failed := false } else p })

/-! ### The task unit, graphs, swaps, the bridle -/

/-- R44, R45, R62, R304, R306, R307, R320, R327 to R329, R334: a workgroup of a launch that a core takes and has room for is dispatched
when no launch offered the core before it keeps it: one that the core could take, the reserve apart, or one of a higher priority that
does not fit, the grids that a core can take being cut first; one whose groups have exited with nothing outstanding retires; a die's copy receives a retirement bit of a sweep. R318,
R319, R321, R325, R418, R438: a waiting replay starts once every earlier replay of its object is over, with PMASK cleared; a node
whose edges allow it starts as a launch, a grid node after the accesses that its start makes, peer modules being asked for their bytes
first, and killed by a fault of one. The open parameters of a task node, the moment of completion and the reads of the task unit are the
model's (log 16, log 40, log 43, log 45, log 99). -/
def Obligations.TaskAndGraphEvents : Prop :=
  (∀ (s : State) (lid : Nat) (l : Launch) core ix l1 slots base,
   let c := cutGrids s
   c.launch? lid = some l → c.bootState = 4 → core < 144 → wants c core (lid, l) = true → nextIndex c lid l core = some (ix, l1) →
     roomFor c lid l core = some (slots, base) →
     (∀ x ∈ c.launches, x.1 ≠ lid → wants c core x = true → offeredBefore c x (lid, l) = true →
       (∀ jx y sl b, nextIndex c x.1 x.2 core = some (jx, y) → roomFor c x.1 x.2 core = some (sl, b) →
         leavesReserve c (dispatchTo c x.1 core jx y sl b) x.2 = false) ∧
       (nextIndex c x.1 x.2 core = none ∨ roomFor c x.1 x.2 core = none → ¬ (c.queue l.q).pri < (c.queue x.2.q).pri)) →
     leavesReserve c (dispatchTo c lid core ix l1 slots base) l = true →
     exec (.workgroupDispatch lid core) s = .next (dispatchTo c lid core ix l1 slots base)) ∧
  (∀ (s : State) (lid : Nat) (l : Launch), s.launch? lid = some l →
   (∀ wg w, s.wg? wg = some w → w.lnch = lid → w.saved = false → l.killed = false → frozen s wg = false →
     (∀ o ∈ s.ops, o.wg ≠ wg) → (∀ sl ∈ w.slots, ∀ g, s.group? (gKey w.core sl) = some g → g.exited = true) → l.node = none →
     let past := s.gathered (.exited wg)
     let s0 := (if l.k.deps = [] then s else s.post (.ret lid w.ix) past).post (.ended lid) past
     let s1 := if l.k.matrix = true then (s0.setCore w.core { s0.core w.core with mx := {} }).setChan (.tile w.core) [] else s0
     exec (.workgroupRetire wg) s = .next (settleLaunch (((freeWg s1 wg).release (partySpool wg)).modLaunch lid
       fun x => x.retire (w.core / 48) w.ix) lid w.ix)) ∧
   (∀ die ix, l.k.deps ≠ [] → ix ∈ l.done → die < 3 → ix ∉ l.copyOf die → exec (.scoreboardBitReceive lid die ix) s =
     .next (s.modLaunch lid fun x => { x with
       die0 := if die = 0 then x.die0 ++ [ix] else x.die0, die1 := if die = 1 then x.die1 ++ [ix] else x.die1
       die2 := if die = 2 then x.die2 ++ [ix] else x.die2 }))) ∧
  (∀ (s : State) gid g, Tab.find? s.graphs gid = some g →
   (g.waiting = true → (∀ x ∈ s.graphs, x.2.obj = g.obj → x.2.ctx = g.ctx → ¬ x.2.order < g.order) →
     let s1 := s.post (.node gid 256) (s.gathered (.replay g.obj.toNat g.ctx.root))
     exec (.graphReplayStart gid) s =
       .next (settleGraph (maskWrite { s1 with graphs := Tab.put s1.graphs gid { g with waiting := false } } g 0) gid)) ∧
   (∀ n x, g.nodes[n]? = some x → g.waiting = false → x.started = false → x.complete = false → mayStartNode s g n = true →
     let begun (s1 : State) (l : Launch) : State := nodeStarted
       (launchStarts (addLaunch s1 { l with node := some (gid, n) }) s1.nextId (nodeFollows s gid g n)) gid n s1.nextId
     let l0 : Launch := { bodyLaunch s g.q g.ctx (x.body.flatMap bytesOfWord) x.k with param := x.param, node := some (gid, n) }
     let table : DWord := BitVec.ofNat 64 (fieldAt (x.body.flatMap bytesOfWord) 0x60 8)
     let failed (m : MFault) : State := launchFault (begun (forgetDev s l0.devKey) l0) (forgetDev s l0.devKey).nextId m 0 0
     (x.task = true → ∃ l : Launch, l.k = x.k ∧ l.param = x.param ∧ l.l = x.l ∧ l.q = g.q ∧ l.ctx = g.ctx ∧
       exec (.graphNodeStart gid n) s = .next (settleGraph (begun s l) gid)) ∧
     (x.task = false → devWaits s l0.devKey = false →
       (∀ m, devFault s l0.devKey = some m → exec (.graphNodeStart gid n) s = .next (failed m)) ∧
       (devFault s l0.devKey = none →
         (∀ l1 s1, openLaunch s l0 table = .ok (l1, s1) → exec (.graphNodeStart gid n) s = .next (begun (forgetDev s1 l0.devKey) l1)) ∧
         (∀ m, openLaunch s l0 table = .error (9, m) → m.far = [] → exec (.graphNodeStart gid n) s = .next (failed m)) ∧
         (∀ e, openLaunch s l0 table = .error e → e.2.far ≠ [] →
           exec (.graphNodeStart gid n) s = .next (askDev s l0.devKey g.ctx.ns e.2.far))))))

/-- R330, R333, R338: a core with a choice starts a swap of 4 cycles, after which the incoming group is in its active set and the
outgoing one is not; the bridle of a slice evaluates every 25,000 cycles, marks a core by its rule, and moves the boundary past
a marked core that holds no workgroup. The waiting count of a task node is the model's reading (log 56). -/
def Obligations.SwapAndBridleEvents : Prop := ∀ (s : State),
  (∀ core i o, (s.core core).swap = none → (s.core core).halted = false → swapChoice s core = some (i, o) →
    exec (.groupSwapStart core) s = .next (s.setCore core { s.core core with swap := some (i, o, s.clock + 3) })) ∧
  (∀ core i o last, (s.core core).swap = some (i, o, last) → last < s.clock →
    exec (.groupSwapEnd core) s = .next (s.setCore core { s.core core with
      swap := none, active := ((s.core core).active.filter fun k => decide (o ≠ some k)) ++ [i] })) ∧
  (∀ n x, s.slices[n]? = some x → x.lastEval + 25000 ≤ s.clock →
    let wg := waitingOf s n true
    let wc := waitingOf s n false
    let c := x.cores - x.bound
    let m : Option Nat := if x.fix = true ∨ x.marked ≠ none then none
      else if 2 * wg * c < wc * x.bound ∧ x.minG < x.bound then some (x.core0 + x.bound - 1)
      else if 2 * wc * x.bound < wg * c ∧ x.minC < c then some (x.core0 + x.bound)
      else none
    exec (.bridleEvaluate n) s = .next (bridleSettle (s.modSlice n fun y =>
      { y with lastEval := s.clock, marked := if m.isSome then m else y.marked })))

/-- R300, R308, R339 to R345: a save whose cores have come to their halt writes back the scoreboards, its records, the private records of
the passes of a slice that is preempted, and its header, or OVF alone where the area is too small, and releases its cores; a late
completion is applied to the image of its workgroup, whose record is written again, its operand buffer and vault from the area as it
stands, LATE falling by the completion that has gone; a workgroup that can return to its place does so, the lowest WGINDEX of a launch first, and the last one ends the RESUME command. How a saved workgroup is
kept, the private records and the waits of RESUME are the model's choices (log 52 to log 55). -/
def Obligations.ContextSaveEvents : Prop := ∀ (s : State),
  (∀ k sv, Tab.find? s.saves k = some sv → saveReady s sv = true →
    let raster : Bool := sv.kind == 2 && s.passes.any fun p => p.slice == sv.slice
    let last (xs : List (Nat × Wg × Launch × Parts)) : Nat := 0x1000 + (xs.map fun x => recordLen x.2.2.1 x.2.2.2).sum
    let used (xs : List (Nat × Wg × Launch × Parts)) : Nat :=
      if raster = true then last xs + privateLen else if xs = [] then 256 else last xs
    let ends (ok : Bool) (t : State) : State :=
      let t1 : State := { t with saves := Tab.modify t.saves k fun x => { x with halting := false, done := ok, ovf := !ok, histAt := t.histLen } }
      goResumes (releaseCores (saveCmds (mergedHeaders t1 sv (!ok)) sv) sv)
    let s1 := backBoards s sv
    let xs := recordsOf s1 sv
    let s2 := saveAll (if raster = true then stopPasses s1 sv.slice true else s1) k (decide (sv.kind = 2)) xs 0x1000
    let s3 := if raster = true then writeArea s2 sv.tier (sv.area + last xs) ((List.range privateLen).map Config.privateByte) else s2
    (areaFits sv.tier sv.area sv.size (used (recordsOf s sv)) = true → exec (.contextSave k) s = .next (ends true (writeArea
      s3 sv.tier sv.area (headerBytes xs.length true false raster (used xs) (if raster = true then last xs else 0))))) ∧
    (areaFits sv.tier sv.area sv.size (used (recordsOf s sv)) = false → exec (.contextSave k) s =
      .next (ends false (writeArea s sv.tier sv.area (headerBytes 0 false true false 256 0))))) ∧
  (∀ id o k sv off w l, s.op? id = some o → saveOf s o.wg = some (k, sv, off) → s.wg? o.wg = some w → o.k = .reg → w.saved = true →
    s.launch? w.lnch = some l →
    let image (t0 : State) : State :=
      let t := match o.bar with
        | some b => t0.modWg o.wg (·.arrive b 1)
        | none => t0
      let p := partsOf t w o.wg (Tab.find? sv.mxs o.wg) (decide (sv.kind = 2))
      let at_ := partOffsets l p
      let area (x n : Nat) : List Byte := (List.range n).map fun i => t.byte (mKey sv.tier (sv.area + off + x + i))
      leaveDropped (goResumes (writeRecord t k o.wg off { p with ob := area at_.2.1 p.ob.length, vlt := area at_.2.2.1 p.vlt.length })) o.wg
    let gone := s.ops.filter fun x => x.id != id
    (∀ c sl x g, o.ag = .group c sl x → w.slots.findIdx? (· == sl) = some g → exec (.lateCompletionApply id) s = .next (image { s with
      ops := gone, saves := Tab.modify s.saves k fun x => { x with saved := Tab.modify x.saved (64 * o.wg + g) (·.applyLate o) } })) ∧
    (∀ h, o.ag = .spool h →
      exec (.lateCompletionApply id) s = .next (image ({ s with ops := gone }.modWg o.wg (·.spoolWrites o.wrs))))) ∧
  (∀ k sv cmd off wid w l, Tab.find? s.saves k = some sv → sv.resuming = some cmd →
    (sv.recs.find? fun r => r.1 == off) = some (off, wid) → s.wg? wid = some w → s.launch? w.lnch = some l → w.saved = true →
    restored s sv off = false → canRestore s w l = true →
    (∀ r ∈ sv.recs, restored s sv r.1 = false → ∀ y, s.wg? r.2 = some y → y.lnch = w.lnch → y.ix < w.ix → y.saved = true →
      canRestore s y l = false) →
    let s1 := settleTurn (putBack s k sv wid off w l) wid
    ((∃ r ∈ sv.recs, restored s1 sv r.1 = false) → exec (.workgroupRestore k off) s = .next s1) ∧
    ((∀ r ∈ sv.recs, restored s1 sv r.1 = true) → exec (.workgroupRestore k off) s = .next
      ({ s1 with saves := Tab.modify s1.saves k fun x => { x with resuming := none } }.cmdReady cmd)))

/-! ### Queues and commands -/

/-- R6, R365, R366, R410: QTAIL takes its value, or records code 5 where that claims more slots than the queue has; QCTL takes its
fields; QSIZE and a queue's base are ignored while EN = 1; QERR answers its value and clears. A module that serves commands
rejects nothing at these writes. The slot that QERR names, and that what a queue does follows what the host has done and read through
the aperture before its QTAIL write, are the model's readings (log 50, log 87). -/
def Obligations.QueueRegisterResults : Prop := ∀ (s : State) (q : Nat),
  let x := s.queue q
  (serving s = true → ∀ v : Word, (v - x.head).toNat ≤ 2 ^ x.size →
    exec (.qtailWrite q v) s = .next (((s.setQueue q { x with tail := v }).post (.queue q) (s.relClk hostMe)).released hostMe)) ∧
  (∀ v : Word, 2 ^ x.size < (v - x.head).toNat → exec (.qtailWrite q v) s =
    .next ((s.setQueue q { x with err := BitVec.ofNat 24 (x.head.toNat % 65536 + 5 * 65536) }).logErr 1)) ∧
  (serving s = true → ∀ v : Word, exec (.qctlWrite q v) s =
    .next (s.setQueue q { x with en := v.getLsbD 0, pri := v.toNat / 2 % 4, irq := v.getLsbD 3 })) ∧
  (∀ v : Word, x.en = false → exec (.qsizeWrite q v) s = .next (s.setQueue q { x with size := max 6 (min 16 (v.toNat % 32)) })) ∧
  (∀ v : Word, x.en = true → exec (.qsizeWrite q v) s = .next s ∧ exec (.registerWrite (.qbase q) (v.setWidth 64)) s = .next s ∧
    exec (.registerWrite (.qctx q) (v.setWidth 64)) s = .next s) ∧
  exec (.qerrRead q) s = .next { s.setQueue q { x with err := 0 } with hostData := x.err.setWidth 64 }

/-- R366, R368, R410, R415, R438: a NOP at the head of a queue is consumed with its completion due; a WAITV is too when its value
has been reached, and else waits until it is; an unassigned OP is refused with code 1, a broken ring clears EN; a command with
no effect left makes its completion write, which releases what the command did, and raises its queue's vector where both ask for it; a
read that faults refuses a WAITV with code 9. Which event serves a refusal, how peer modules are asked for a value and that a completion
awaits their acknowledgement are the model's choices (log 16, log 17, log 50). -/
def Obligations.CommandLifeResults : Prop := ∀ (s : State) (q : Nat),
  (∀ c, headCommand s q = .good c → c.op = 0 → exec (.queueNop q) s = .next (startCmd s c .plain true)) ∧
  (headCommand s q = .broken → exec (.queueNop q) s = .next (ringFail s q (s.queue q).head.toNat)) ∧
  (∀ op n, headCommand s q = .bad op n 1 → exec (.queueNop q) s = .next (rejectCmd s q n 1)) ∧
  (∀ c, headCommand s q = .good c → c.op = 3 → devWaits s q = false → devFault s q = none →
    let a : DWord := BitVec.ofNat 64 (c.f 0x18 8)
    let v : DWord := BitVec.ofNat 64 (c.f 0x20 8)
    (∀ x s1, readNum s (whoCmd s q c.ctx) .load a 8 = .ok (x, s1) →
      (c.f 0x20 8 ≤ x → exec (.waitv q) s = .next (startCmd (waitvHears s1 c.q c.ctx a) c (.waitv a v) true)) ∧
      (x < c.f 0x20 8 → exec (.waitv q) s = .next (startCmd s1 c (.waitv a v) false))) ∧
    (∀ m, readNum s (whoCmd s q c.ctx) .load a 8 = .error m →
      exec (.waitv q) s = .next (if m.far = [] then rejectCmd s q c.n 9 else askDev s q c.ctx.ns m.far))) ∧
  (∀ id c a v, waitingOn s q = some (id, c, a, v) → devWaits s q = false → devFault s q = none →
    (∀ x s1, readNum s (whoCmd s q c.ctx) .load a 8 = .ok (x, s1) → v.toNat ≤ x →
      exec (.waitvSatisfied q) s = .next (forgetDev ((waitvHears s1 q c.ctx a).cmdReady id) q)) ∧
    (∀ m, readNum s (whoCmd s q c.ctx) .load a 8 = .error m → exec (.waitvSatisfied q) s =
      .next (if m.far = [] then queueErr (dropCmd (forgetDev s q) id c) q c.slot 9 else askDev s q c.ctx.ns m.far))) ∧
  (∀ id c, Tab.find? s.cmds id = some c → c.ready = true →
    let past := s.gathered (.cmd id)
    let s1 := dropCmd ((s.setChan (.cmd id) []).post (.fin c.q) past) id c
    let who : Who := { whoCmd s1 c.q c.ctx with op := some s1.nextId }
    let tell (t : State) : State := if c.irq = true ∧ (t.queue c.q).irq = true then t.raiseVector c.q else t
    (c.caddr = 0 → exec (.commandComplete id) s = .next (tell s1)) ∧
    (∀ s2, c.caddr ≠ 0 → writePlain s1 who c.caddr 8 (bytesOfNat 8 c.cval.toNat) = .ok s2 →
      exec (.commandComplete id) s = .next (tell (keepFar { s2 with
        hist := s2.hist.map fun r => if r.seq < s1.histLen then r else { r with rels := ⟨5, {}, past, none⟩ :: r.rels } }
        (devOp noLaunch (.completion c.q c.slot))))) ∧
    (∀ m, c.caddr ≠ 0 → writePlain s1 who c.caddr 8 (bytesOfNat 8 c.cval.toNat) = .error m →
      exec (.commandComplete id) s = .next (ringFail s1 c.q c.slot)))

/-- R369, R370, R415, R438: a LAUNCH at the head of a queue, whose descriptor reads, whose fields keep their limits, which has room
somewhere and whose start accesses succeed, becomes a launch with the body's values; one that fails a check is refused with that
check's code: 2 for a wrong length, a descriptor or a body out of its limits, 7 for want of room, that of the access for one that fails,
and nothing else happens; peer modules are asked for their bytes first. A GRAPH becomes a replay, which starts or waits. The order of the
checks and the reads of peer modules are the model's readings (log 16, log 48, log 49, log 41, log 42). -/
def Obligations.LaunchCommandResults : Prop := ∀ (s : State) (q : Nat) (c : CmdIn), headCommand s q = .good c →
  devWaits s q = false → devFault s q = none →
  let kernel := readKernel s q c.ctx (BitVec.ofNat 64 (c.f 0x18 8))
  let table : DWord := BitVec.ofNat 64 (c.f 0x60 8)
  let refused (e : Refused) : State := if e.2.far = [] then rejectCmd s q c.n e.1 else askDev s q c.ctx.ns e.2.far
  (c.op = 1 → c.n ≠ 2 → exec (.launchCommand q) s = .next (rejectCmd s q c.n 2)) ∧
  (∀ e, c.op = 1 → c.n = 2 → kernel = .error e → exec (.launchCommand q) s = .next (refused e)) ∧
  (∀ k s1, c.op = 1 → c.n = 2 → kernel = .ok (k, s1) →
    (bodyOk c.bs k = false → exec (.launchCommand q) s = .next (rejectCmd s q c.n 2)) ∧
    (bodyOk c.bs k = true → roomSomewhere s (bodyLaunch s1 q c.ctx c.bs k) = false →
      exec (.launchCommand q) s = .next (rejectCmd s q c.n 7)) ∧
    (bodyOk c.bs k = true → roomSomewhere s (bodyLaunch s1 q c.ctx c.bs k) = true →
      (∀ l1 s2, openLaunch s1 (bodyLaunch s1 q c.ctx c.bs k) table = .ok (l1, s2) →
        let s3 := startCmd s2 c (.launch (s2.nextId + 1)) false
        exec (.launchCommand q) s =
          .next (launchStarts (addLaunch s3 { l1 with cmd := some s2.nextId }) s3.nextId (s3.gathered (.queue q)))) ∧
      (∀ e, openLaunch s1 (bodyLaunch s1 q c.ctx c.bs k) table = .error e → exec (.launchCommand q) s = .next (refused e)))) ∧
  (∀ g s1, c.op = 2 → readGraph s c = .ok (g, s1) →
    let s2 := startCmd s1 c (.graph (s1.nextId + 1)) false
    let s3 : State := { s2.post (.node s2.nextId 256) (s2.gathered (.queue q)) with
      nextId := s2.nextId + 1, graphs := Tab.put s2.graphs s2.nextId g }
    (g.waiting = true → exec (.graphCommand q) s = .next s3) ∧
    (g.waiting = false → exec (.graphCommand q) s = .next (startReplay s3 s2.nextId g))) ∧
  (∀ e, c.op = 2 → readGraph s c = .error e → exec (.graphCommand q) s = .next (refused e))

/-- R338, R368, R376: INVAL, COMM, BRIDLE and REGION at the head of a queue, with sound fields, complete their issue with the effect the
tables give: each answers a next state in which it is consumed and started; a REGION without the right is refused with code 4. An INVAL
completes once no late access of its ASID is left, and the translations of its range are gone. The place of each item and the
corners are the model's readings (log 47, log 51). -/
def Obligations.SystemCommandResults : Prop := ∀ (s : State) (q : Nat),
  (∀ c, headCommand s q = .good c → devWaits s q = false → devFault s q = none →
    (c.op = 0x10 → c.f 0x1A 6 = 0 → exec (.inval q) s = .next (startCmd s c (.inval (c.f 0x18 2) (c.f 0x20 8) (c.f 0x28 8)) false)) ∧
    (∀ bs s1, c.op = 0x13 → c.f 0x1A 6 = 0 → 1 ≤ c.f 0x20 8 → c.f 0x20 8 ≤ 4096 →
      readPlain s (whoCmd s q c.ctx) .load (BitVec.ofNat 64 (c.f 0x28 8)) (4 * c.f 0x20 8) 4 = .ok (bs, s1) →
      let ws := (List.range (c.f 0x20 8)).map fun r => fieldAt bs (4 * r) 4
      (∀ w ∈ ws, w / 2 ^ 11 % 2 ^ 21 = 0) → exec (.comm q) s = .next (startCmd
        { s1 with comms := Tab.put s1.comms (c.f 0x18 2) (ws.map fun w => (w % 256, w / 256 % 8)) } c .plain true)) ∧
    (c.op = 0x14 → c.f 0x18 8 < s.slices.length → c.f 0x20 8 + c.f 0x28 8 ≤ (s.slice (c.f 0x18 8)).cores → c.f 0x30 8 ≤ 1 →
      (c.f 0x30 8 = 1 → c.f 0x38 8 ≤ (s.slice (c.f 0x18 8)).cores) → exec (.bridle q) s =
      .next (startCmd (bridleSettle (s.modSlice (c.f 0x18 8) fun x =>
        { x with minG := c.f 0x20 8, minC := c.f 0x28 8, fix := decide (c.f 0x30 8 = 1), target := c.f 0x38 8 })) c .plain true)) ∧
    (c.op = 0x15 → (s.regionRight = false ∨ c.ctx.ns = true) → exec (.region q) s = .next (rejectCmd s q c.n 4)) ∧
    (c.op = 0x15 → s.regionRight = true → c.ctx.ns = false → c.f 0x18 8 < 64 →
      c.f 0x20 8 / 16 % 2 ^ 12 = 0 → c.f 0x20 8 < 2 ^ 48 → c.f 0x28 8 % 2 ^ 16 = 0 → c.f 0x28 8 < 2 ^ 48 → c.f 0x20 8 / 4 % 4 ≠ 3 →
      let e : Region := { v := decide (c.f 0x20 8 % 2 = 1), sec := decide (c.f 0x20 8 / 2 % 2 = 1), tier := c.f 0x20 8 / 4 % 4
                          base := c.f 0x20 8 / 2 ^ 16, limit := c.f 0x28 8 / 2 ^ 16 }
      exec (.region q) s = .next (startCmd { s with regionTab := Tab.put s.regionTab (c.f 0x18 8) e } c .region false))) ∧
  (∀ id c asid base size, Tab.find? s.cmds id = some c → c.k = .inval asid base size → c.ready = false →
    noLate s (fun l => l.ctx.asid == asid) = true → exec (.invalComplete id) s =
      .next (({ s with tlbs := s.tlbs.filter fun e => !invalHits asid base size e } : State).cmdReady id))

/-- R339, R345, R375, R376: FRAME, PREEMPT and RESUME at the head of a queue, with sound fields, complete their issue: a FRAME starts with
its layer records read; a PREEMPT halts its target's cores, or joins the one that does; a RESUME goes on as far as it can. The
encoder reads the layers in the display engine's world, peer modules being asked for their bytes first, and ends with the stream at OUT,
the length 0 alone where OUT is too small, nothing where OUT cannot be written; what it writes to a peer module is acknowledged first. The
stream and the corners are the model's (log 16, log 17, log 47, log 51, log 54). -/
def Obligations.FrameAndPreemptResults : Prop := ∀ (s : State),
  (∀ q c, headCommand s q = .good c → devWaits s q = false → devFault s q = none →
    (∀ bs s1, c.op = 4 → frameOk c = true →
      readPlain s (whoCmd s q c.ctx) .load (BitVec.ofNat 64 (c.f 0x18 8)) (32 * (c.f 0x20 4 % 16)) 1 = .ok (bs, s1) →
      (∀ i < c.f 0x20 4 % 16, fieldAt bs (32 * i + 12) 4 ≤ 2) →
      exec (.frame q) s = .next (startCmd s1 c (.frame
        (((List.range 4).map fun i => BitVec.ofNat 64 (c.f (0x18 + 8 * i) 8)) ++
          (List.range (bs.length / 8)).map fun i => BitVec.ofNat 64 (fieldAt bs (8 * i) 8))) false)) ∧
    (c.op = 0x11 → c.f 0x18 8 / 4 % 4 ≠ 3 → c.f 0x18 8 / 16 % 2 ^ 12 = 0 → c.f 0x18 8 / 2 ^ 32 = 0 →
      ∀ cores slice, targetCores s (c.f 0x18 8 % 4) (c.f 0x18 8 / 65536 % 65536) = some (cores, slice) →
      ∃ t : State, exec (.preempt q) s = .next t ∧
        (∀ sv, sameTarget (haltResumes s) (c.f 0x18 8 % 4) (c.f 0x18 8 / 65536 % 65536) = some sv → t.cores = s.cores ∧
          ∀ x, Tab.find? (haltResumes s).saves sv = some x → ∃ y, Tab.find? t.saves sv = some y ∧
            y.cmds = x.cmds ++ [(s.nextId, c.f 0x18 8 / 4 % 4, c.f 0x20 8, c.f 0x28 8)]) ∧
        (sameTarget (haltResumes s) (c.f 0x18 8 % 4) (c.f 0x18 8 / 65536 % 65536) = none → (∀ k ∈ cores, (t.core k).halted = true) ∧
          ∃ y, Tab.find? t.saves (s.nextId + 1) = some y ∧ y.halting = true ∧ y.cores = cores ∧
            y.cmds = [(s.nextId, c.f 0x18 8 / 4 % 4, c.f 0x20 8, c.f 0x28 8)])) ∧
    (c.op = 0x12 → c.f 0x18 8 % 4 = 0 → c.f 0x18 8 / 4 % 4 ≠ 3 → c.f 0x18 8 / 16 = 0 →
      exec (.resume q) s = .next (goResumes (startCmd s c (.resume (c.f 0x18 8 / 4) (c.f 0x20 8)) false)))) ∧
  (∀ id c words, Tab.find? s.cmds id = some c → c.k = .frame words → c.ready = false →
    let world (ns : Bool) : Who := { whoCmd s (frameKey id) c.ctx with ctx := { c.ctx with ns := ns }, op := some s.nextId }
    let de := world (s.slice c.ctx.slice).deNs
    let stream := Config.encode words (layerBytes s de words)
    let out := if stream.length ≤ (words.getD 3 0).toNat % 2 ^ 32 - 8 then bytesOfNat 8 stream.length ++ stream else bytesOfNat 8 0
    let ends (t : State) : State := forgetDev t (frameKey id)
    devWaits s (frameKey id) = false →
    (devFault s (frameKey id) = none → layersFar s de words ≠ [] → exec (.frameEncodeComplete id) s =
      .next (askDev s (frameKey id) (s.slice c.ctx.slice).deNs (layersFar s de words))) ∧
    (layersFar s de words = [] ∨ devFault s (frameKey id) ≠ none →
      (∀ s1, writePlain s (world (s.slice c.ctx.slice).veNs) (words.getD 2 0) 1 out = .ok s1 →
        (unackedOp s1 s1.nextId = false → exec (.frameEncodeComplete id) s = .next (ends (s1.cmdReady id))) ∧
        (unackedOp s1 s1.nextId = true → exec (.frameEncodeComplete id) s = .next (ends (keepFar s1 (devOp noLaunch (.mask id)))))) ∧
      (∀ m, writePlain s (world (s.slice c.ctx.slice).veNs) (words.getD 2 0) 1 out = .error m →
        exec (.frameEncodeComplete id) s = .next (ends (s.cmdReady id)))))

/-! ### The module: start, registers, flash, links, errors -/

/-- R377, R378, R429: a reset of the module raises FAILCNT and starts the boot ROM, or after three failed starts leads to ballast mode,
unless it was in that mode; ROM and firmware come to their ends one after the other, and a check that fails is a failed start with its
reason, as is a start whose time runs out, which no cycle passes over, or whose training fails; a successful training takes the record's settings and serves
commands; only 0x5254 restarts; a thermal trip stops the module with reason 0x0C. How long ROM and firmware run, and what a thermal
stop leaves, are the model's choices (log 57). -/
def Obligations.StartResults : Prop := ∀ (s : State),
  (∃ t : State, exec .moduleReset s = .next t ∧ t.queues = [] ∧ t.launches = [] ∧ t.wgs = [] ∧ t.groups = [] ∧ t.ops = [] ∧
    t.pend = [] ∧ t.clock = 0 ∧ t.irqStat = 0 ∧ t.errLog = 0 ∧
    (s.failCnt = 3 → s.bootState ≠ 5 → t.bootState = 5 ∧ t.failCnt = 3) ∧
    (s.failCnt ≠ 3 ∨ s.bootState = 5 → t.bootState = 1 ∧ t.failCnt = min 3 (s.failCnt + 1))) ∧
  exec (.restart 0x5254) s = exec .moduleReset s ∧
  (∀ v : BitVec 16, v ≠ 0x5254 → exec (.restart v) s = .next s) ∧
  let inTime : Prop := s.clockLow = true ∨ s.clock < 75000000000
  (inTime → s.bootState = 1 ∨ s.bootState = 2 → bootTick s = s.free.2 ∨ bootTick s = bootAdvance s.free.2) ∧
  (inTime → s.bootState ≠ 1 → s.bootState ≠ 2 → bootTick s = s) ∧
  (s.clockLow = false → 75000000000 ≤ s.clock →
    (s.bootState = 1 ∨ s.bootState = 2 ∨ s.bootState = 3 → bootTick s = failStart s 0x0B) ∧
    (s.bootState ≠ 1 → s.bootState ≠ 2 → s.bootState ≠ 3 → bootTick s = s)) ∧
  (∀ r : BitVec 8, Config.bootCheck (flashBytes s) = .fails r →
    (s.bootState = 1 → r.toNat ≤ 3 → bootAdvance s = failStart s r) ∧
    (s.bootState = 1 → 3 < r.toNat → bootAdvance s = { s with bootState := 2 }) ∧
    (s.bootState = 2 → bootAdvance s = failStart s r)) ∧
  (∀ r : ConfigRecord, Config.bootCheck (flashBytes s) = .passes r →
    s.bootState = 1 ∨ s.bootState = 2 → bootAdvance s = { s with bootState := s.bootState + 1 }) ∧
  (s.bootState = 1 ∨ s.bootState = 2 ∨ s.bootState = 3 → s.clockLow = true ∨ 75000000000 ≤ s.clock →
    exec .startTimeout s = .next (failStart s 0x0B)) ∧
  (∀ r : ConfigRecord, s.bootState = 3 → inTime → Config.bootCheck (flashBytes s) = .passes r →
    exec (.trainingComplete 0) s = .next (trained s r) ∧ (trained s r).bootState = 4 ∧ (trained s r).failCnt = 0 ∧
      (trained s r).slices = buildSlices r ∧ (trained s r).moduleNo = r.moduleNo ∧ (trained s r).regionRight = r.regionRight) ∧
  (∀ r : BitVec 8, s.bootState = 3 → inTime → 7 ≤ r.toNat → r.toNat ≤ 10 → exec (.trainingComplete r) s = .next (failStart s r)) ∧
  (∃ t : State, exec .thermalTrip s = .next t ∧ t.bootState = 0 ∧ t.bootReason = 0x0C ∧ 110 ≤ t.temp.toNat ∧ t.launches = [])

/-- R6, R22, R362, R363, R378, R392, R413, R428, R430: the registers with an effect of their own do what their table says: W1C clears the
bits written as 1, CECNT, PORTSTAT and DLSTAT answer and clear; a read gives a W1C or RW register's value, zero for a write-only one; a
plain register holds what is written to it, a queue's ring and context while EN = 0 alone, and TRSIZE means a ring of 2 to 12 places or
none; flash words are programmed while WE = 1, which can be set in states 4 and 5, and a read of the window returns them once done; an
aperture access of the first two tiers reads and writes their bytes as an access of the host, secure ones apart. The order of poison and
secure bytes in an aperture access, that a write to CECNT is ignored, and that the host's accesses acquire and release are the model's
(log 58, log 69, log 72). -/
def Obligations.HostRegisterResults : Prop := ∀ (s : State),
  (∀ v, exec (.irqstatWrite v) s = .next { s with irqStat := s.irqStat &&& ~~~v }) ∧
  (∀ v, exec (.errlogWrite v) s = .next { s with errLog := s.errLog &&& ~~~v }) ∧
  (∀ v, exec (.uestatWrite v) s = .next { s with ueStat := s.ueStat &&& ~~~(v &&& 3) }) ∧
  exec .cecntRead s = .next { s with hostData := s.ceCnt.setWidth 64, ceCnt := 0 } ∧
  (∀ p < 18, exec (.portstatRead p) s = .next { (s.setPort p { s.port p with retrain := 0, replay := 0 }) with
    hostData := linkStat (s.port p).st (s.port p).retrain (s.port p).replay }) ∧
  (∀ k < 3, exec (.dlstatRead k) s = .next { s.setDlink k { s.dlink k with retrain := 0, replay := 0 } with
    hostData := linkStat (s.dlink k).st (s.dlink k).retrain (s.dlink k).replay }) ∧
  (∀ q, (∀ r ∈ [HostReg.restart, .tract q, .trkill q], readReg s r = 0) ∧ readReg s .irqstat = s.irqStat ∧
    readReg s .errlog = s.errLog.setWidth 64 ∧ readReg s .uestat = s.ueStat.setWidth 64 ∧
    readReg s (.qtail q) = (s.queue q).tail.setWidth 64 ∧ readReg s (.trhead q) = (s.queue q).trHead.setWidth 64 ∧
    readReg s (.qsize q) = BitVec.ofNat 64 (s.queue q).size) ∧
  (∀ v, exec (.registerWrite .apbase v) s = .next { s with apBase := v.toNat / 2 ^ 36 % 2 ^ 12 * 2 ^ 36, apTier := v.toNat / 2 ^ 48 % 4 }) ∧
  (∀ v : DWord, exec (.registerWrite .cethr v) s = .next { s with ceThr := v.setWidth 32 }) ∧
  (∀ (q : Nat) (v : DWord), let x := s.queue q
    exec (.registerWrite (.trctl q) v) s = .next (s.setQueue q { x with trIrq := v.getLsbD 0 }) ∧
    exec (.registerWrite (.loghead q) v) s = .next (s.setQueue q { x with logHead := v.setWidth 32 }) ∧
    (x.en = false →
      exec (.registerWrite (.qbase q) v) s = .next (s.setQueue q { x with loc := v.toNat % 4, base := v.toNat / 2 ^ 12 * 2 ^ 12 }) ∧
      exec (.registerWrite (.qctx q) v) s = .next (s.setQueue q { x with ctx := v }) ∧
      exec (.registerWrite (.trsize q) v) s = .next (s.setQueue q { x with trSize := v.toNat % 16 })) ∧
    (x.en = true → exec (.registerWrite (.trsize q) v) s = .next s) ∧
    x.trLog = (if 2 ≤ x.trSize ∧ x.trSize ≤ 12 then x.trSize else 0) ∧
    readReg s (.trctl q) = (if x.trIrq = true then 1 else 0) ∧ readReg s (.loghead q) = x.logHead.setWidth 64 ∧
    readReg s (.qbase q) = BitVec.ofNat 64 (x.loc + x.base) ∧ readReg s (.qctx q) = x.ctx ∧
    readReg s (.trsize q) = BitVec.ofNat 64 x.trSize) ∧ readReg s .cethr = s.ceThr.setWidth 64 ∧
  (∀ r v, r ∈ [HostReg.id, .bootstat, .failcnt, .capptr, .temp, .pwr, .cecnt, .ueaddr] → exec (.registerWrite r v) s = .next s) ∧
  (∀ b, exec (.powerLimit b) s = .next { s with clockLow := b }) ∧
  (∀ v, exec (.flashctlWrite v) s = .next { s with flashWe := v.getLsbD 0 && decide (s.bootState = 4 ∨ s.bootState = 5) }) ∧
  (∀ off v, s.flashWe = true → off % 4 = 0 → off < 2 ^ 24 →
    exec (.flashWindowWrite off v) s = .next { s with flashBusy := s.flashBusy ++ [(off, v)] }) ∧
  (∀ off v, s.flashWe = false → exec (.flashWindowWrite off v) s = .next s) ∧
  (∀ off e, (s.flashBusy.find? fun e => e.1 == off) = some e → exec (.flashWriteComplete off) s =
    .next (({ s with flashBusy := s.flashBusy.erase e } : State).writeNat (mKey 292 off) 4 e.2.toNat)) ∧
  (∀ off, off < 2 ^ 24 → (∀ e ∈ s.flashBusy, e.1 ≠ off) → readReg s (.flash off) =
    BitVec.ofNat 64 (s.readNat (mKey 292 (off / 4 * 4)) 4)) ∧
  (∀ off n v, off + n ≤ 2 ^ 36 → n ≤ 8 → 2 ≤ s.apTier ∨ s.bootState = 5 →
    exec (.apertureAccess true off n v) s = .next s ∧ exec (.apertureAccess false off n v) s = .next { s with hostData := 0 }) ∧
  (∀ off n v, off + n ≤ 2 ^ 36 → n ≤ 8 → s.apTier < 2 → s.bootState = 4 → apertureOpen s off n = true →
    let ks := apertureKeys s off n
    let s1 := if ∃ k ∈ ks, k.2 = true then s.logErr 0 else s
    let open_ := (ks.filter fun k => !k.2).map (·.1)
    let got := extRead s1 (hostWho s1) open_
    exec (.apertureAccess true off n v) s = .next (extWrite s1 (hostWho s1) ((ks.zip (bytesOfNat n v.toNat)).filterMap fun x =>
      if x.1.2 then none else some (x.1.1, x.2))) ∧
    ((∀ k ∈ ks, k.2 = false → s.poisoned k.1 = false) → exec (.apertureAccess false off n v) s = .next { got.2 with
      hostData := BitVec.ofNat 64 (natOfBytes (ks.map fun k => if k.2 then 0 else Tab.get 0 (open_.zip got.1) k.1)) }) ∧
    ((∃ k ∈ ks, k.2 = false ∧ s.poisoned k.1 = true) → exec (.apertureAccess false off n v) s = .next { s1.free.2 with
      hostData := Config.freeDWord s1.freeCtr }))

/-- R373, R424 to R427: a port serves a flit that is whole, next in order and addressed to this module, and acknowledges it; another
is dropped and a resend asked for. An acknowledgement frees the flits up to it; a timeout resends; a lost lane and a failed
retraining retrain, which starts the count of resends anew; the third failure in a row takes a port down, or for a die link ends the
service of commands. The layout of payloads, acknowledgements that are not kept, an atomic performed where its bytes are, a peer as one
agent, and the events and free count of a die link are the model's choices (log 12, log 15, log 60, log 61, log 72, log 95). -/
def Obligations.FabricResults : Prop := ∀ (s : State) (p : Nat) (flit : List Byte),
  let x := s.port p
  let fits (type : Nat) : Prop := p < 18 ∧ x.st = 1 ∧ flit.length = 128 ∧ flitBits flit 0 4 = type
  let next : Prop := flitGood flit = true ∧ flitSeq flit = x.recvSeq
  let s1 := s.setPort p { x with recvSeq := (x.recvSeq + 1) % 65536 }
  let acks (t : State) : Host.Outcome State Fault Refusal := .next (sendAck t p false)
  let mine : Prop := flitBits flit 12 8 = s.moduleNo
  let d := flitData flit
  let off := fieldAt d 0 8
  let tells (t : State) (bs : List Byte) : State := sendFlit t p 3 (flitBits flit 4 8) (flitBits flit 43 1) (flitBits flit 44 20) none bs
  let again (y : Port) : Port := { y with st := 2, retrain := min 255 (y.retrain + 1), resent := y.resent.map fun _ => 0 }
  (∀ i ∈ [(1, Instr.fabricWrite p flit), (2, .fabricReadRequest p flit), (3, .fabricReadData p flit), (4, .fabricCollectiveData p flit)],
    (fits i.1 → ¬ next → exec i.2 s = .next (sendAck s p true)) ∧ (fits i.1 → next → ¬ mine → exec i.2 s = acks s1)) ∧
  (fits 1 → next → mine →
    (admitsPeer s1 p flit off (d.length - 8) = true → exec (.fabricWrite p flit) s =
      acks (extWrite s1 (peerWho s1 (flitBits flit 4 8)) ((d.drop 8).zipIdx.map fun bi => (mKey 0 (off + bi.2), bi.1)))) ∧
    (admitsPeer s1 p flit off (d.length - 8) = false → exec (.fabricWrite p flit) s = acks (tells s1 []))) ∧
  (fits 2 → next → mine →
    let n := min 112 (fieldAt d 8 2)
    let req := d.drop 10
    let w : Who := { peerWho s1 (flitBits flit 4 8) with atom := decide (req ≠ []) }
    let old := (peerBytes s1 w off n).1
    let s2 := (peerBytes s1 w off n).2
    let new := (atomOp (fieldAt req 0 1) (fieldAt req 1 1) (natOfBytes old) (fieldAt req 2 8) (fieldAt req 10 8)).1
    (admitsPeer s1 p flit off n = true → req = [] → exec (.fabricReadRequest p flit) s = acks (tells s2 old)) ∧
    (admitsPeer s1 p flit off n = true → req ≠ [] → exec (.fabricReadRequest p flit) s =
      acks (tells (extWrite s2 w ((bytesOfNat n new).zipIdx.map fun bi => (mKey 0 (off + bi.2), bi.1))) old)) ∧
    (admitsPeer s1 p flit off n = false → exec (.fabricReadRequest p flit) s = acks (tells s1 []))) ∧
  (fits 3 → next → mine → exec (.fabricReadData p flit) s = acks (readArrives s1 (flitBits flit 44 20) d)) ∧
  (fits 4 → next → mine →
    let h := fieldAt d 8 2
    let key := [h % 8, h / 8 % 4, h / 32 % 2 ^ 10, fieldAt d 10 4, fieldAt d 14 2]
    (h / 2 ^ 15 % 2 = 1 → d.drop 32 = [] → exec (.fabricCollectiveData p flit) s =
      acks (callArrives s1 (fieldAt d 0 2) (fieldAt d 2 2) (fieldAt d 4 4) key)) ∧
    (h / 2 ^ 15 % 2 = 1 → d.drop 32 ≠ [] → exec (.fabricCollectiveData p flit) s =
      acks (doneArrives s1 (fieldAt d 0 2) (fieldAt d 2 2) (fieldAt d 4 4))) ∧
    (h / 2 ^ 15 % 2 = 0 → exec (.fabricCollectiveData p flit) s =
      acks (dataArrives s1 (fieldAt d 0 2) (fieldAt d 2 2) (fieldAt d 4 4) key (fieldAt d 16 8) (fieldAt d 24 8) (d.drop 32)))) ∧
  (fits 5 → flitGood flit = true → exec (.fabricAcknowledge p flit) s =
    .next (s.setPort p (x.acked (flitSeq flit) s.clock (decide (fieldAt d 0 1 % 2 = 1))))) ∧
  (fits 5 → flitGood flit = false → exec (.fabricAcknowledge p flit) s = .next (sendAck s p true)) ∧
  (x.st = 1 → x.sent ≠ 0 → x.unacked ≠ [] → (s.clockLow = true ∨ x.lastAck + 10000 ≤ s.clock) →
    exec (.replayTimeout p) s = .next (s.setPort p (Port.resend { x with lastAck := s.clock }))) ∧
  (x.st = 1 → exec (.laneLockLoss p) s = .next (s.setPort p (again x))) ∧
  (x.st = 2 → exec (.portRetrainComplete p true) s =
    .next (s.setPort p (Port.transmit { x with st := 1, fails := 0, lastAck := s.clock }))) ∧
  (x.st = 2 → x.fails < 2 → exec (.portRetrainComplete p false) s = .next (s.setPort p { again x with fails := x.fails + 1 })) ∧
  (x.st = 2 → 2 ≤ x.fails → exec (.portRetrainComplete p false) s = .next (portDown s p)) ∧
  (∀ k < 3,
    let y := s.dlink k
    let begun : DLink := { y with st := 2, retrain := min 255 (y.retrain + 1) }
    let z := if y.st = 1 then begun else y
    (y.st = 1 → exec (.laneLockLoss (18 + k)) s = .next (s.setDlink k begun) ∧
      exec (.replayTimeout (18 + k)) s = .next (s.free.2.setDlink k
        { y with replay := min 65535 (y.replay + 1 + Config.freeNat s.freeCtr) })) ∧
    (y.st = 1 ∨ y.st = 2 →
      exec (.dieLinkRetrainComplete k true) s = .next (s.setDlink k { z with st := 1, fails := 0 }) ∧
      (y.fails < 2 → exec (.dieLinkRetrainComplete k false) s =
        .next (s.setDlink k { z with st := 2, retrain := min 255 (z.retrain + 1), fails := y.fails + 1 })) ∧
      (2 ≤ y.fails → ∃ t : State, exec (.dieLinkRetrainComplete k false) s = .next t ∧ t.linkDown = true)))

/-- R411, R412, R413: a correctable error of a word or unit waits for a read or the scrubber, which corrects and counts it; an
uncorrectable one poisons the unit, in L2 the 64-bit word, and is recorded; poison that the scrubber finds is recorded; one in a register
marks it, to be corrected or trapped on at its read; one in an accumulator row marks the row; an error of an L1 line leaves no trace, nor
one of a clean L2 tag, while a correctable one there is counted. What an L1 error leaves, the unit sizes and the place recorded for a word
of L2 are the model's reading (log 59). -/
def Obligations.SoftErrorResults : Prop := ∀ (s : State) (k : Nat),
  let poisons : State := { s with poison := s.poison ++ [unitOf k], flaws := s.flaws.filter (· != unitOf k) }
  let word := k / 8 * 8
  let l2 : DWord := BitVec.ofNat 64 ((homeDie s k).getD 0 * 2 ^ 46 + 2 * 2 ^ 48)
  (s.poisoned k = false → unitOf k ∉ s.flaws →
    exec (.softError (.dramUnit k false)) s = .next { s with flaws := s.flaws ++ [unitOf k] } ∧
    (4 ≤ keyCode k → exec (.softError (.sramWord k false)) s = .next { s with flaws := s.flaws ++ [unitOf k] }) ∧
    (word ∉ s.l2flaws → exec (.scrubPatrol k) s = .next s)) ∧
  (s.poisoned k = false → keyCode k < 4 → word ∉ s.l2flaws →
    exec (.softError (.sramWord k false)) s = .next { s with l2flaws := s.l2flaws ++ [word] }) ∧
  (s.poisoned k = false → exec (.softError (.dramUnit k true)) s = .next (poisons.foundUe (poisonAux (unitOf k)) false)) ∧
  (s.poisoned k = false → 4 ≤ keyCode k → exec (.softError (.sramWord k true)) s = .next (poisons.foundUe (poisonAux (unitOf k)) false)) ∧
  (s.poisoned k = false → keyCode k < 4 → exec (.softError (.sramWord k true)) s =
    .next (({ s with l2poison := s.l2poison ++ [word], l2flaws := s.l2flaws.filter (· != word) } : State).foundUe l2 false)) ∧
  (s.poisoned k = false → s.ceThr = 0 → s.ceCnt ≠ 0xFFFFFFFF →
    (unitOf k ∈ s.flaws → word ∉ s.l2flaws → exec (.scrubPatrol k) s =
      .next { s with flaws := s.flaws.filter (· != unitOf k), ceCnt := s.ceCnt + 1 }) ∧
    (unitOf k ∉ s.flaws → word ∈ s.l2flaws → exec (.scrubPatrol k) s =
      .next { s with l2flaws := s.l2flaws.filter (· != word), ceCnt := s.ceCnt + 1 })) ∧
  (unitOf k ∉ s.flaws → word ∉ s.l2flaws →
    (word ∈ s.l2poison → exec (.scrubPatrol k) s = .next (s.foundUe l2 true)) ∧
    (word ∉ s.l2poison → s.poisoned k = true → exec (.scrubPatrol k) s = .next (s.foundUe (poisonAux (unitOf k)) true))) ∧
  (∀ core slot (r : BitVec 9) lane,
    exec (.softError (.reg core slot r lane true)) s = .next (s.modGroup (gKey core slot) fun g =>
      { g with regErr := g.regErr ++ [(r.toNat, lane)] }) ∧
    exec (.softError (.reg core slot r lane false)) s = .next (s.modGroup (gKey core slot) fun g =>
      { g with regFlaw := g.regFlaw ++ [(r.toNat, lane)] })) ∧
  (∀ core tile row, exec (.softError (.accWord core tile row true)) s = .next ((s.modMx core fun m =>
    { m with bad := m.bad ++ [64 * tile + row] }).foundUe (corePlace core) false) ∧
    exec (.softError (.accWord core tile row false)) s = .next s.corrected) ∧
  (∀ core, exec (.softError (.l1 core)) s = .next s) ∧
  (∀ die dirty, exec (.softError (.l2tag die dirty false)) s = .next s.corrected ∧
    exec (.softError (.l2tag die false true)) s = .next s)

/-! ### The machine as a whole -/

/-- R125, R127 to R129, R237, R316, R331, R332: a step at which the agenda names an agent runs the instruction that its clause holds there, once
its stall count has passed, at a waiting instruction what its header names holds, and it has its turn; while it has not, cycles in which nothing more can issue pass first. A step at which it
names an event performs it, one at which it names a cycle lets a cycle pass. What a step does is what its instruction does, unless it
would undo what the cycle has settled; a record of what it settles is all that is added. An instruction laid where the step fetches is the
one the decoder reads. The agenda and the cycles that pass are the model's form of the interleaving, as is the record (log 2, log 77). -/
def Obligations.StepRunsDecodedInstruction : Prop :=
  (∀ (s : State) ag cl p0 ps i, clauseOf s ag = some (cl, 0) → cl.started = true → cl.rest = p0 :: ps →
    decodeParcels {} p0 (ps.getD 0 0) (ps.getD 1 0) = .ok i → cl.issueAt ≤ s.clock → barred s ag = false →
    cl.inside = true ∨ headerReady s ag cl = true →
    (atUnmetWait s ag cl = true ∨ nextHeld s ag cl = true → mayReturn s ag = true) →
    (atUnmetWait s ag cl = false → nextHeld s ag cl = false → hasSlot s ag (opOf p0) = true) → mayIssue s ag = some i) ∧
  (∀ (s : State) a ag rest i, s.agenda = a :: rest → issueAct ag = some a →
    let s0 : State := { s with agenda := rest }
    (mayIssue s0 ag = some i → step s = issueNow s0 ag i) ∧
    (mayIssue s0 ag = none → tickOk s0 = true → mayIssue (tick s0) ag = some i → step s = issueNow (tick s0) ag i)) ∧
  (∀ (s : State) ag i t, exec i { s with cur := ag } = .next t →
    (sealKept s t = true → issueNow s ag i = .next (noteAct s t ag i) ∧ { noteAct s t ag i with sealed := t.sealed } = t) ∧
    (sealKept s t = false → issueNow s ag i = .fault (.notEnabled "CYCLE_ORDER"))) ∧
  (∀ (s : State) i rest t, s.agenda = .event i :: rest → enc i = none →
    let s0 : State := { s with agenda := rest }
    exec i s0 = .next t → sealKept s0 t = true → step s = .next (noteEvent s0 i t) ∧ { noteEvent s0 i t with sealed := t.sealed } = t) ∧
  (∀ (s : State) rest, s.agenda = .tick :: rest → tickOk { s with agenda := rest } = true →
    step s = .next (tick { s with agenda := rest })) ∧
  (∀ nbits w i, decodeTableWord nbits w = some i → ∃ n ag, n ≤ 7 ∧ ag ≠ .none ∧
    let s : State := State.reset.withFetchWord nbits w
    step s = issueNow (Nat.iterate tick n { s with agenda := [] }) ag i)

/-- R127 to R131, R145, R146: words written out from the encoding tables decode to the instructions they stand for. -/
def Obligations.DecodesSpecWords : Prop :=
  decode ([0x00, 0x00, 0x00, 0x00].map (BitVec.ofNat 8)) = .ok (.nop {}, []) ∧
  decode ([0x40, 0x00, 0x00, 0x00].map (BitVec.ofNat 8)) = .ok (.exit {}, []) ∧
  decode ([0xA1, 0x00, 0x00, 0x00, 0x09, 0x01, 0x40, 0x00].map (BitVec.ofNat 8)) = .ok (.trap { b := 0x109, ty := 1 }, []) ∧
  decode ([0x21, 0x0F, 0x01, 0x0A, 0x84, 0x01, 0x40, 0x00].map (BitVec.ofNat 8)) =
    .ok (.slbegin { d := 1, a := 10, b := 0x184, ty := 1 }, []) ∧
  decode ([0xE2, 0x02, 0x08, 0x06, 0xFF, 0x01, 0x40, 0x00, 0x04, 0x05, 0x00, 0x00].map (BitVec.ofNat 8)) =
    .ok (.sbfe { d := 8, a := 6, b := 0x1FF, ty := 1, lit := 0x504 }, []) ∧
  decode ([0x22, 0x01, 0x00, 0x02, 0x00, 0x00, 0x00, 0x00, 0x10, 0x00, 0x20, 0x00].map (BitVec.ofNat 8)) =
    .ok (.brv { a := 2, lit := 0x200010 }, []) ∧
  decode ([0x82, 0x00, 0x00, 0x00, 0xFF, 0x01, 0x44, 0x00, 0xC8, 0x00, 0x00, 0x00].map (BitVec.ofNat 8)) =
    .ok (.joinT { b := 0x1FF, mn := 1, ty := 1, lit := 200 }, []) ∧
  decode ([0x03, 0x00, 0x00, 0x00].map (BitVec.ofNat 8)) = .error (.reason 0)

/-- R127 to R131: decoding the bytes of any well-formed instruction, whatever follows them, gives the instruction back with
every field, and the bytes that follow. -/
def Obligations.DecodeEncodeRoundTrip : Prop := ∀ (i : Instr) (rest : List Byte), i.wellFormed = true → (enc i).isSome = true →
  decode (encodeBytes i ++ rest) = .ok (i, rest)

/-- The memory of the model keeps its one canonical form in every step (the model's own form: a sorted table that lists no byte
at its unwritten value, log 5). -/
def Obligations.MemoryStaysCanonical : Prop := ∀ s t : State, Memory.wf s.mem = true → step s = .next t → Memory.wf t.mem = true

/-- R3, R46: a number written to consecutive bytes reads back, least significant byte first, and other bytes stay. That the memory has one
canonical form, which a write keeps and in which two memories that read alike at every byte are equal, is the model's choice (log 5). -/
def Obligations.MemoryReadsBack : Prop := ∀ (s : State) (k n x : Nat),
  (s.writeNat k n x).readNat k n = x % 256 ^ n ∧
  (∀ j, (s.writeNat k n x).byte j = if k ≤ j ∧ j < k + n then BitVec.ofNat 8 (x / 256 ^ (j - k)) else s.byte j) ∧
  (Memory.wf s.mem = true → Memory.wf (s.writeNat k n x).mem = true) ∧
  (∀ m m' : Tab Byte, Memory.wf m = true → Memory.wf m' = true → (∀ j, Tab.get unwritten m j = Tab.get unwritten m' j) → m = m')

/-- R363, R365, R377, R392, R413, R428: after a reset the module is in state 0 and serves nothing: no queue, launch, workgroup, group,
operation or pass exists, its error records are clear, a queue holds the values that its registers reset to, and the memory is in its
canonical form, whose contents (all zero) are the model's choice (log 5), as is FAILCNT, which is read from flash (log 6). -/
def Obligations.ResetState : Prop :=
  let r := State.reset
  r.bootState = 0 ∧ r.failCnt = 0 ∧ r.irqStat = 0 ∧ r.errLog = 0 ∧ r.ceCnt = 0 ∧ r.ceThr = 0 ∧ r.ueStat = 0 ∧ r.apBase = 0 ∧ r.apTier = 0 ∧
  r.flashWe = false ∧ r.clock = 0 ∧ r.launches = [] ∧ r.wgs = [] ∧ r.groups = [] ∧ r.ops = [] ∧ r.pend = [] ∧ r.passes = [] ∧
  (∀ q, (r.queue q).size = 6 ∧ (r.queue q).en = false ∧ (r.queue q).head = 0 ∧ (r.queue q).tail = 0 ∧ (r.queue q).err = 0 ∧
    (r.queue q).trHead = 0 ∧ (r.queue q).trTail = 0 ∧ (r.queue q).serial = 1) ∧
  (∀ p, (r.port p).st = 0 ∧ (r.port p).retrain = 0 ∧ (r.port p).replay = 0) ∧ Memory.wf r.mem = true

/-- R136, R384, R385, R386, R25, R43, R336, R411: at an issue the results readable by then have landed and nothing else has changed; then
come, in this order, the stall-count trap, the role-violation trap, the deterministic-mode trap, a hold in place, and the instruction's
effect, which always gives a next state. The stall-count trap is raised exactly under CHKSB = 1, as the instructions before it have left
that bit, where the instruction reads a register, its guard among them, that holds a result of the same split not yet readable or has a
write of the same split outstanding; one that is retried waits for its register instead (R394). Correctable errors in the registers read
are corrected. The wait of a retried instruction (log 64), the fault of an instruction without an agent before it (log 68), and a check
that goes by the registers named, also where no lane is active (log 79), are the model's readings. -/
def Obligations.IssueChecksInOrder : Prop := ∀ (i : Instr) (s : State), (enc i).isSome = true →
  (mkCx s s.cur i = none → exec i s = .fault .noAgent) ∧
  ∀ cx s1, mkCx s s.cur i = some (cx, s1) →
    ({ s1 with groups := s.groups, wgs := s.wgs, freeCtr := s.freeCtr, ceCnt := s.ceCnt, errLog := s.errLog } = s ∧
      (∀ k, k ≠ cx.gk ∨ cx.onSpool = true → s1.group? k = s.group? k) ∧
      (cx.onSpool = false → s1.wgs = s.wgs ∧ ∀ g, s.group? cx.gk = some g → cx.g.chksb = g.chksb ∧
        ∃ h, s1.group? cx.gk = some h ∧ { h with regFlaw := (g.land s.clock).regFlaw } = g.land s.clock) ∧
      (∀ w x, s.wg? w = some x → ∃ y, s1.wg? w = some y ∧ { y with spool := x.spool } = x ∧
        ∀ p, x.spool = some p → ∃ q, y.spool = some q ∧ { q with regFlaw := p.regFlaw } = p)) ∧
    (∀ t, stallTrap s1 cx = some t → exec i s = .next (raise s1 cx.ag t)) ∧
    (stallTrap s1 cx = none → roleAdmits cx = false →
      exec i s = .next (raise s1 cx.ag (cx.trap 0x0004 (BitVec.ofNat 64 cx.role)))) ∧
    (stallTrap s1 cx = none → roleAdmits cx = true → detForbids cx = true → exec i s = .next (raise s1 cx.ag (cx.trap 0x000E 0))) ∧
    (stallTrap s1 cx = none → roleAdmits cx = true → detForbids cx = false → held s1 cx = true →
      exec i s = .next (setBlock s1 cx.ag 2)) ∧
    (∃ t, exec i s = .next t) ∧
    ((∃ t : Trap, t.cause = 3 ∧ t.addr = cx.cl.at_ ∧ stallTrap s1 cx = some t) ↔ cx.sp.again ≠ 2 ∧ cx.g.chksb = true ∧ ∃ r ∈ srcRefs s1 cx,
      (∃ e ∈ cx.g.fixes, e.split = cx.k ∧ s.clock < e.ready ∧ ∃ w ∈ e.wrs, w.ref = r) ∨
      ∃ o ∈ opsOf s1 cx.ag, o.split = cx.k ∧ r ∈ o.refs) ∧
    (cx.g.chksb = false → stallTrap s1 cx = none) ∧
    (cx.sp.again = 2 → (lateReg s1 cx).isSome = true → stallTrap s1 cx = none ∧ held s1 cx = true) ∧
    (∀ r ∈ readRefs i, r ∈ srcRefs s1 cx) ∧
    (cx.f.g ≠ 0 → cx.r.op ≠ 0 → cx.r.guarded = true → Ref.p cx.f.g.toNat ∈ readRefs i)

/-- R41, R43, R224, R386: an instruction that the role of its group forbids raises the role-violation trap before any effect, loads, stores,
atomics and PROMOTE of a drain group on path 0x0C among them; what the table of R41 gives a role, role G and the spool processor is
admitted, loads, stores, every form of ATOM and PROMOTE on the other paths among them, TIOP there too. -/
def Obligations.RoleViolationTraps : Prop := ∀ f : Fld,
  let onBuffer (i : Instr) (cx : Cx) : Prop :=
    let a (u : Bool) (l : Nat) : DWord := baseAddr cx u (offsetB cx l) l
    (i = .ld f ∧ ∃ l, cx.act.getLsbD l = true ∧ pathOf (a (decide (f.mn.toNat % 2 = 1)) l) = 0x0C) ∨
    (i = .st f ∧ ∃ l, cx.actNH.getLsbD l = true ∧ pathOf (a (decide (f.mn.toNat % 2 = 1)) l) = 0x0C) ∨
    ((i = .lds f ∨ i = .sts f ∨ i = .promote f) ∧ pathOf (a true 0) = 0x0C) ∨
    (i = .atom f ∧ ∃ l, cx.actNH.getLsbD l = true ∧ pathOf (baseAddr cx (decide (cx.m / 2 = 1)) 0 l) = 0x0C) ∨
    (i = .atomOrd f ∧ pathOf (baseAddr cx true 0 0) = 0x0C)
  let iteratorOnBuffer (i : Instr) (cx : Cx) : Prop := (i = .tiopLd f ∨ i = .tiopSt f ∨ i = .tiopAdv f) ∧
    ((Tab.get [] cx.g.ti (cx.f.a.toNat % 4)).getD 1 0).toNat / 2 ^ 24 = 0x0C
  let refused (r : Nat) (i : Instr) : Prop := ∀ s cx s1, mkCx s s.cur i = some (cx, s1) → cx.onSpool = false → cx.role = r →
    stallTrap s1 cx = none → exec i s = .next (raise s1 cx.ag (cx.trap 0x0004 (BitVec.ofNat 64 r)))
  let admitted (P : Cx → Prop) (i : Instr) : Prop := ∀ s cx s1, mkCx s s.cur i = some (cx, s1) →
    (cx.onSpool = true ∨ cx.role = 0 ∨ P cx → roleAdmits cx = true)
  (∀ i ∈ roleMatrix f ++ roleRay f, refused 1 i) ∧
  (∀ i ∈ roleVector f ++ roleShared f ++ roleMemory f ++ roleFeed f ++ roleRay f, refused 2 i) ∧
  (∀ i ∈ roleFeed f ++ roleMatrix f ++ roleRay f, refused 3 i) ∧
  (∀ i ∈ [Instr.qpop f, .qpopTry f], (f.a = 0 → refused 1 i ∧ refused 2 i) ∧ (f.a ≠ 0 → refused 2 i)) ∧
  (∀ i s cx s1, mkCx s s.cur i = some (cx, s1) → cx.onSpool = false → cx.role = 3 → onBuffer i cx → stallTrap s1 cx = none →
    exec i s = .next (raise s1 cx.ag (cx.trap 0x0004 3))) ∧
  (∀ i ∈ roleFree f, admitted (fun _ => True) i) ∧
  (∀ i ∈ roleVector f ++ roleShared f, admitted (fun cx => cx.role = 1 ∨ (cx.role = 3 ∧ ¬ iteratorOnBuffer i cx)) i) ∧
  (∀ i ∈ roleMemory f, admitted (fun cx => cx.role = 1 ∨ (cx.role = 3 ∧ ¬ onBuffer i cx)) i) ∧
  (∀ i ∈ roleFeed f, admitted (fun cx => cx.role = 1) i) ∧
  (∀ i ∈ roleMatrix f, admitted (fun cx => cx.role = 2) i) ∧
  (∀ i ∈ roleRay f, admitted (fun _ => False) i) ∧
  (∀ i ∈ [Instr.qpop f, .qpopTry f], admitted (fun cx => (f.a = 0 ∧ cx.role = 3) ∨ (f.a ≠ 0 ∧ cx.role ≠ 2)) i)

/-- R72, R80, R132, R136, R153: an instruction of fixed latency that writes registers changes nothing else: memory, other groups and
workgroups, its group's other registers, special registers, trap registers, tokens and counters stay; its result is on its way to the
registers that D names; only float instructions merge flags, and only RAND moves draw counters. A spool processor's result is in
its registers at once; it runs no float instruction and no RAND (R261). -/
def Obligations.RegisterInstructionFrame : Prop := ∀ (f : Fld), ∀ e ∈ registerForms f, ∀ s cx s1 t,
  issuable e.1 s = some (cx, s1) → (cx.onSpool = true → e.1 ∉ floatForms f ∧ e.1 ≠ .rand f) → exec e.1 s = .next t →
  { t with groups := s1.groups, wgs := s1.wgs } = forgetFar s1 cx.ag ∧ (∀ k, t.byte k = s1.byte k) ∧ sameOthers cx s1 t ∧
  (cx.onSpool = false → ∀ g, s1.group? cx.gk = some g → ∃ h added, t.group? cx.gk = some h ∧ h.fixes = g.fixes ++ added ∧
    (∀ x ∈ added, x.split = cx.k ∧ ∀ w ∈ x.wrs, w.ref ∈ e.2) ∧ h.tk = g.tk ∧ h.f = g.f ∧ sameSplits cx.k g.splits h.splits ∧
    sameRegisters g { h with
      fpstat := if e.1 ∈ floatForms f then g.fpstat else h.fpstat, draw := if e.1 = .rand f then g.draw else h.draw } ∧
    h.fpstat ||| g.fpstat = h.fpstat) ∧
  (cx.onSpool = true → ∀ w p w' p', s1.wg? cx.wid = some w → w.spool = some p → t.wg? cx.wid = some w' → w'.spool = some p' →
    (∀ r, Ref.s r ∉ e.2 → Tab.get 0 p'.s r = Tab.get 0 p.s r) ∧
    { p' with
      s := p.s, regErr := p.regErr, regFlaw := p.regFlaw, pc := p.pc, cl := p.cl, block := p.block, notBefore := p.notBefore
      issued := p.issued } = p)

/-- R140, R155, R156, R162 to R164, R176, R231, R233, R236, R263, R309 to R315: a control, barrier, counter or staged-loop instruction
either raises its trap or leaves every byte of memory as it is, and every group's registers, predicates, iterators and trap registers, its
FPSTAT, and the s registers of every spool processor; SETSR alone may write FPSTAT, CHKSB and AGEMAX. -/
def Obligations.ControlInstructionFrame : Prop := ∀ (f : Fld),
  ∀ i ∈ [Instr.nop f, .yield f, .exit f, .bra f, .ret f, .brpAll f, .brpAny f, .brpNone f, .setsr f, .waitf f, .fence f, .bari f, .bara f,
    .barw f, .spreq f, .slbegin f, .slend f, .slnext f, .stadv f, .stjmp f, .waitl f],
  ∀ s cx s1 t, issuable i s = some (cx, s1) → exec i s = .next t →
  (∃ x, t = trappedAt s1 cx x) ∨
  ({ t with
      groups := s1.groups, wgs := s1.wgs, ops := s1.ops, nextId := s1.nextId, regions := s1.regions, graphs := s1.graphs
      freeCtr := s1.freeCtr, hb := s1.hb } = s1 ∧
   (∀ k, t.byte k = s1.byte k) ∧
   (∀ k g, s1.group? k = some g → ∃ h, t.group? k = some h ∧ h.s = g.s ∧ h.v = g.v ∧ h.p = g.p ∧ h.ti = g.ti ∧ h.draw = g.draw ∧
     h.trapCause = g.trapCause ∧ h.trapAddr = g.trapAddr ∧ h.stack = g.stack ∧
     (i ≠ .setsr f → h.fpstat = g.fpstat ∧ h.chksb = g.chksb ∧ h.agemax = g.agemax)) ∧
   (∀ w x p, s1.wg? w = some x → x.spool = some p → ∃ y q, t.wg? w = some y ∧ y.spool = some q ∧ q.s = p.s ∧
     q.trapCause = p.trapCause ∧ q.trapAddr = p.trapAddr))

/-- R53, R55, R57, R215, R217, R220, R221, R223, R226, R234: LD, LDS and PROMOTE leave every byte of memory as it is, and ST, STS and ATOM every
byte but those that their requests resolve to, the accessed and dirty marks of the page-table entries used apart; no register has
changed when the instruction has issued, and other groups, workgroups and the rest of the machine are as before. -/
def Obligations.MemoryInstructionFrame : Prop := ∀ (f : Fld) s cx s1 t hs s2,
  let size : Nat := if f.mn.toNat / 2 % 2 = 1 then 16 else tyBits cx.ty / 8
  let marked : Bool := decide (cx.f.c.toNat % 8 ≠ 0)
  let a (u : Bool) (l : Nat) : DWord := baseAddr cx u (offsetB cx l) l
  let frame (i : Instr) (k : AccK) (m : Bool) (al : DWord → Nat → Nat) (rs : List Req) : Prop :=
    issuable i s = some (cx, s1) → resolveAll s1 cx.who k m al rs = .ok (hs, s2) → exec i s = .next t →
    (∀ key, key ∉ markBytes s1 cx.who k al rs → (k.writes = true → key ∉ (allHits hs).map (·.key)) → t.byte key = s1.byte key) ∧
    sameMachine s1 t ∧ sameOthers cx s1 t ∧
    (cx.onSpool = false → ∀ g, s1.group? cx.gk = some g → ∃ h, t.group? cx.gk = some h ∧ h.fixes = g.fixes ∧ sameRegisters g h ∧
      sameSplits cx.k g.splits h.splits)
  (cx.act ≠ 0 → frame (.ld f) .load marked (alignFor marked) (requests cx (some cx.act) (a (decide (f.mn.toNat % 2 = 1))) size)) ∧
  frame (.lds f) .load marked (alignFor marked) (requests cx none (a true) size) ∧
  (pathOf (a true 0) = 0 → frame (.promote f) .load true natural (requests cx none (a true) (tyBits cx.ty / 8))) ∧
  frame (.st f) .store marked (alignFor marked) (requests cx (some cx.actNH) (a (decide (f.mn.toNat % 2 = 1))) size) ∧
  frame (.sts f) .store marked (alignFor marked) (requests cx none (a true) size) ∧
  frame (.atom f) .atomic true natural (requests cx (some cx.actNH) (baseAddr cx (bit cx.m 1) 0) (tyBits cx.ty / 8))
end

