-- ==== Sys2Proof/Laws/Decode.lean ====
section
/-! SUPPORT. The parcels of an instruction: the bytes of a parcel read back, and its fields stand where R127 and R128 put
them. -/

namespace Sys2Proof

open Sys2Proof.Machine

/-- A concatenation as a number. -/
theorem append_toNat {m n : Nat} (x : BitVec m) (y : BitVec n) : (x ++ y).toNat = x.toNat * 2 ^ n + y.toNat := by
  rw [BitVec.toNat_append, ← Nat.shiftLeft_add_eq_or_of_lt y.isLt, Nat.shiftLeft_eq]

theorem fld_toNat (w : Word) (i n : Nat) : (Word.fld w i n).toNat = w.toNat / 2 ^ i % 2 ^ n := by
  rw [Word.fld, BitVec.extractLsb'_toNat, Nat.shiftRight_eq_div_pow]

/-- The bytes of a parcel give the parcel back. -/
theorem takeWord_bytesOfWord (w : Word) (bs : List Byte) : takeWord (bytesOfWord w ++ bs) = some (w, bs) := by
  simp only [bytesOfWord, List.cons_append, List.nil_append, takeWord, Option.some.injEq, Prod.mk.injEq, and_true]
  apply BitVec.eq_of_toNat_eq
  simp only [wordOfBytes, append_toNat, BitVec.extractLsb'_toNat, Nat.shiftRight_eq_div_pow]
  have := w.isLt
  omega

theorem parcel0_toNat (f : Fld) (op : BitVec 7) (l : BitVec 2) : (parcel0 f op l).toNat =
    f.a.toNat * 2 ^ 24 + f.d.toNat * 2 ^ 16 + f.gn.toNat * 2 ^ 15 + f.g.toNat * 2 ^ 12 + op.toNat * 2 ^ 5 + f.s.toNat * 4 + l.toNat := by
  simp only [parcel0, append_toNat]
  omega

theorem parcel1_toNat (f : Fld) : (parcel1 f).toNat =
    f.m.toNat * 2 ^ 30 + f.tk.toNat * 2 ^ 26 + f.ty.toNat * 2 ^ 22 + f.mn.toNat * 2 ^ 18 + f.c.toNat * 2 ^ 9 + f.b.toNat := by
  simp only [parcel1, append_toNat]
  omega

@[simp] theorem lenOf_parcel0 (f : Fld) (op : BitVec 7) (l : BitVec 2) : lenOf (parcel0 f op l) = l.toNat := by
  have := l.isLt
  rw [lenOf, fld_toNat, parcel0_toNat]
  omega

@[simp] theorem opOf_parcel0 (f : Fld) (op : BitVec 7) (l : BitVec 2) : opOf (parcel0 f op l) = op.toNat := by
  have := l.isLt
  have := op.isLt
  have := f.s.isLt
  rw [opOf, fld_toNat, parcel0_toNat]
  omega

theorem fields0 (f : Fld) (op : BitVec 7) (l : BitVec 2) : Word.fld (parcel0 f op l) 2 3 = f.s ∧
    Word.fld (parcel0 f op l) 12 3 = f.g ∧ Word.fld (parcel0 f op l) 15 1 = f.gn ∧ Word.fld (parcel0 f op l) 16 8 = f.d ∧
    Word.fld (parcel0 f op l) 24 8 = f.a := by
  have h1 := l.isLt
  have h2 := op.isLt
  have h3 := f.s.isLt
  have h4 := f.g.isLt
  have h5 := f.gn.isLt
  have h6 := f.d.isLt
  have h7 := f.a.isLt
  refine ⟨?_, ?_, ?_, ?_, ?_⟩ <;>
  · apply BitVec.eq_of_toNat_eq
    rw [fld_toNat, parcel0_toNat]
    omega

theorem fields1 (f : Fld) : Word.fld (parcel1 f) 0 9 = f.b ∧ Word.fld (parcel1 f) 9 9 = f.c ∧ Word.fld (parcel1 f) 18 4 = f.mn ∧
    Word.fld (parcel1 f) 22 4 = f.ty ∧ Word.fld (parcel1 f) 26 4 = f.tk ∧ Word.fld (parcel1 f) 30 2 = f.m := by
  have h1 := f.b.isLt
  have h2 := f.c.isLt
  have h3 := f.mn.isLt
  have h4 := f.ty.isLt
  have h5 := f.tk.isLt
  have h6 := f.m.isLt
  refine ⟨?_, ?_, ?_, ?_, ?_, ?_⟩ <;>
  · apply BitVec.eq_of_toNat_eq
    rw [fld_toNat, parcel1_toNat]
    omega

/-- The fields of two parcels and a literal are read back as they were written. -/
theorem rawFld_parcels (f : Fld) (op : BitVec 7) (l : BitVec 2) (p2 : Word) :
    rawFld (parcel0 f op l) (parcel1 f) p2 = { f with lit := p2 } := by
  obtain ⟨h1, h2, h3, h4, h5⟩ := fields0 f op l
  obtain ⟨k1, k2, k3, k4, k5, k6⟩ := fields1 f
  simp only [rawFld, h1, h2, h3, h4, h5, k1, k2, k3, k4, k5, k6]

/-- A one-parcel form carries no field of the second parcel. -/
theorem rawFld_parcel0 (f : Fld) (op : BitVec 7) (l : BitVec 2) :
    rawFld (parcel0 f op l) 0 0 = { f with b := 0, c := 0, mn := 0, ty := 0, tk := 0, m := 0, lit := 0 } := by
  obtain ⟨h1, h2, h3, h4, h5⟩ := fields0 f op l
  simp only [rawFld, h1, h2, h3, h4, h5]
  rfl

end Sys2Proof
end

