-- ==== Sys2Proof/Laws/Tab.lean ====
section
/-! SUPPORT. The laws of sorted tables: what a look-up finds after an insertion, a removal or a change, and that each
operation keeps the canonical form. -/

namespace Sys2Proof.Machine

open Sys2Proof

variable {α : Type}

@[simp] theorem Tab.find?_put_self (t : Tab α) (j : Nat) (y : α) : Tab.find? (Tab.put t j y) j = some y := by
  induction t with
  | nil => simp [Tab.put, Tab.find?]
  | cons e t ih =>
    obtain ⟨k, x⟩ := e
    unfold Tab.put
    split
    · simp [Tab.find?]
    · split
      · simp [Tab.find?]
      · rename_i h1 h2
        simp only [Tab.find?]
        rw [if_neg (fun h => h2 h.symm), ih]

theorem Tab.find?_put_of_ne (t : Tab α) {j k : Nat} (y : α) (h : k ≠ j) : Tab.find? (Tab.put t j y) k = Tab.find? t k := by
  induction t with
  | nil => simp [Tab.put, Tab.find?, Ne.symm h]
  | cons e t ih =>
    obtain ⟨a, x⟩ := e
    unfold Tab.put
    split
    · simp [Tab.find?, Ne.symm h]
    · split
      · rename_i h1 h2
        subst h2
        simp [Tab.find?, Ne.symm h]
      · simp [Tab.find?, ih]

@[simp] theorem Tab.find?_erase_self (t : Tab α) (j : Nat) : Tab.find? (Tab.erase t j) j = none := by
  induction t with
  | nil => rfl
  | cons e t ih =>
    obtain ⟨a, x⟩ := e
    unfold Tab.erase at ih ⊢
    rw [List.filter_cons]
    split
    · rename_i h
      simp only [bne_iff_ne] at h
      rw [Tab.find?, if_neg h, ih]
    · exact ih

theorem Tab.find?_erase_of_ne (t : Tab α) {j k : Nat} (h : k ≠ j) : Tab.find? (Tab.erase t j) k = Tab.find? t k := by
  induction t with
  | nil => rfl
  | cons e t ih =>
    obtain ⟨a, x⟩ := e
    unfold Tab.erase at ih ⊢
    rw [List.filter_cons]
    split
    · rw [Tab.find?, ih, Tab.find?]
    · rename_i ha
      have : a = j := by simpa using ha
      rw [ih, Tab.find?, if_neg (by omega)]

@[simp] theorem Tab.find?_modify_self (t : Tab α) (j : Nat) (f : α → α) :
    Tab.find? (Tab.modify t j f) j = (Tab.find? t j).map f := by
  induction t with
  | nil => rfl
  | cons e t ih =>
    obtain ⟨a, x⟩ := e
    unfold Tab.modify at ih ⊢
    by_cases h : a = j <;> simp_all [Tab.find?]

theorem Tab.find?_modify_of_ne (t : Tab α) {j k : Nat} (f : α → α) (h : k ≠ j) :
    Tab.find? (Tab.modify t j f) k = Tab.find? t k := by
  induction t with
  | nil => rfl
  | cons e t ih =>
    obtain ⟨a, x⟩ := e
    unfold Tab.modify at ih ⊢
    by_cases ha : a = j
    · subst ha
      simp_all [Tab.find?, Ne.symm h]
    · simp_all [Tab.find?]

@[simp] theorem Tab.get_put_self (d : α) (t : Tab α) (j : Nat) (y : α) : Tab.get d (Tab.put t j y) j = y := by
  simp [Tab.get]

theorem Tab.get_put_of_ne (d : α) (t : Tab α) {j k : Nat} (y : α) (h : k ≠ j) : Tab.get d (Tab.put t j y) k = Tab.get d t k := by
  simp [Tab.get, Tab.find?_put_of_ne t y h]

@[simp] theorem Tab.get_set_self [DecidableEq α] (d : α) (t : Tab α) (j : Nat) (y : α) : Tab.get d (Tab.set d t j y) j = y := by
  unfold Tab.set
  split
  · rename_i h
    simp [Tab.get, h]
  · simp [Tab.get]

theorem Tab.get_set_of_ne [DecidableEq α] (d : α) (t : Tab α) {j k : Nat} (y : α) (h : k ≠ j) :
    Tab.get d (Tab.set d t j y) k = Tab.get d t k := by
  unfold Tab.set Tab.get
  split
  · rw [Tab.find?_erase_of_ne t h]
  · rw [Tab.find?_put_of_ne t y h]

/-- The keys of a table after an insertion lie above a bound below which none lay. -/
theorem Tab.all_put (t : Tab α) (j b : Nat) (y : α) (hb : b < j) (h : t.all (fun e => decide (b < e.1)) = true) :
    (Tab.put t j y).all (fun e => decide (b < e.1)) = true := by
  induction t with
  | nil => simpa [Tab.put] using hb
  | cons e t ih =>
    obtain ⟨k, x⟩ := e
    simp only [List.all_cons, Bool.and_eq_true, decide_eq_true_eq] at h
    unfold Tab.put
    split
    · simp [hb, h.1]
      simpa using h.2
    · split
      · simp only [List.all_cons, Bool.and_eq_true, decide_eq_true_eq]
        exact ⟨hb, h.2⟩
      · simp only [List.all_cons, Bool.and_eq_true, decide_eq_true_eq]
        exact ⟨h.1, ih h.2⟩

theorem Tab.sorted_put (t : Tab α) (j : Nat) (y : α) (h : Tab.sorted t = true) : Tab.sorted (Tab.put t j y) = true := by
  induction t with
  | nil => simp [Tab.put, Tab.sorted]
  | cons e t ih =>
    obtain ⟨k, x⟩ := e
    simp only [Tab.sorted, Bool.and_eq_true] at h
    unfold Tab.put
    split
    · rename_i hj
      simp only [Tab.sorted, List.all_cons, Bool.and_eq_true, decide_eq_true_eq]
      refine ⟨⟨hj, ?_⟩, h.1, h.2⟩
      rw [List.all_eq_true] at h ⊢
      intro e he
      have := h.1 e he
      simp only [decide_eq_true_eq] at this ⊢
      omega
    · split
      · rename_i _ hj
        subst hj
        simp only [Tab.sorted, Bool.and_eq_true]
        exact h
      · rename_i h1 h2
        simp only [Tab.sorted, Bool.and_eq_true]
        exact ⟨Tab.all_put t j k y (by omega) h.1, ih h.2⟩

/-- Leaving entries out of a sorted table leaves it sorted. -/
theorem Tab.sorted_filter (p : Nat × α → Bool) (t : Tab α) (h : Tab.sorted t = true) : Tab.sorted (t.filter p) = true := by
  induction t with
  | nil => rfl
  | cons e t ih =>
    obtain ⟨k, x⟩ := e
    simp only [Tab.sorted, Bool.and_eq_true] at h
    rw [List.filter_cons]
    split
    · simp only [Tab.sorted, Bool.and_eq_true]
      refine ⟨?_, ih h.2⟩
      rw [List.all_eq_true] at h ⊢
      intro e he
      exact h.1 e (List.mem_of_mem_filter he)
    · exact ih h.2

theorem Tab.wf_filter [DecidableEq α] (d : α) (p : Nat × α → Bool) (t : Tab α) (h : Tab.wf d t = true) :
    Tab.wf d (t.filter p) = true := by
  simp only [Tab.wf, Bool.and_eq_true] at h ⊢
  refine ⟨Tab.sorted_filter p t h.1, ?_⟩
  rw [List.all_eq_true] at h ⊢
  intro e he
  exact h.2 e (List.mem_of_mem_filter he)

/-- A property of every listed value holds after an insertion of a value that has it. -/
theorem Tab.all_snd_put (q : α → Bool) (t : Tab α) (j : Nat) (y : α) (hy : q y = true) (h : t.all (fun e => q e.2) = true) :
    (Tab.put t j y).all (fun e => q e.2) = true := by
  induction t with
  | nil => simpa [Tab.put] using hy
  | cons e t ih =>
    obtain ⟨k, x⟩ := e
    simp only [List.all_cons, Bool.and_eq_true] at h
    unfold Tab.put
    split
    · simp only [List.all_cons, Bool.and_eq_true]
      exact ⟨hy, h⟩
    · split
      · simp only [List.all_cons, Bool.and_eq_true]
        exact ⟨hy, h.2⟩
      · simp only [List.all_cons, Bool.and_eq_true]
        exact ⟨h.1, ih h.2⟩

/-- Setting a key keeps the canonical form. -/
theorem Tab.wf_set [DecidableEq α] (d : α) (t : Tab α) (j : Nat) (y : α) (h : Tab.wf d t = true) :
    Tab.wf d (Tab.set d t j y) = true := by
  unfold Tab.set
  split
  · exact Tab.wf_filter d _ t h
  · rename_i hy
    simp only [Tab.wf, Bool.and_eq_true] at h ⊢
    exact ⟨Tab.sorted_put t j y h.1, Tab.all_snd_put (fun v => decide (v ≠ d)) t j y (by simpa using hy) h.2⟩

end Sys2Proof.Machine
end

