-- ==== Sys2Proof/Laws/State.lean ====
section
/-! SUPPORT. What each update of the state leaves in each field, and what an accessor reads after it. -/

namespace Sys2Proof.Machine

open Sys2Proof

/-! ### setCore -/

@[simp] theorem State.setCore_cur (s : State) (c : Nat) (x : CoreSt) : (s.setCore c x).cur = s.cur := rfl
@[simp] theorem State.setCore_agenda (s : State) (c : Nat) (x : CoreSt) : (s.setCore c x).agenda = s.agenda := rfl
@[simp] theorem State.setCore_sealed (s : State) (c : Nat) (x : CoreSt) : (s.setCore c x).sealed = s.sealed := rfl
@[simp] theorem State.setCore_freeCtr (s : State) (c : Nat) (x : CoreSt) : (s.setCore c x).freeCtr = s.freeCtr := rfl
@[simp] theorem State.setCore_hist (s : State) (c : Nat) (x : CoreSt) : (s.setCore c x).hist = s.hist := rfl
@[simp] theorem State.setCore_histLen (s : State) (c : Nat) (x : CoreSt) : (s.setCore c x).histLen = s.histLen := rfl
@[simp] theorem State.setCore_hb (s : State) (c : Nat) (x : CoreSt) : (s.setCore c x).hb = s.hb := rfl
@[simp] theorem State.setCore_hostData (s : State) (c : Nat) (x : CoreSt) : (s.setCore c x).hostData = s.hostData := rfl
@[simp] theorem State.setCore_clock (s : State) (c : Nat) (x : CoreSt) : (s.setCore c x).clock = s.clock := rfl
@[simp] theorem State.setCore_clockLow (s : State) (c : Nat) (x : CoreSt) : (s.setCore c x).clockLow = s.clockLow := rfl
@[simp] theorem State.setCore_mem (s : State) (c : Nat) (x : CoreSt) : (s.setCore c x).mem = s.mem := rfl
@[simp] theorem State.setCore_poison (s : State) (c : Nat) (x : CoreSt) : (s.setCore c x).poison = s.poison := rfl
@[simp] theorem State.setCore_l2poison (s : State) (c : Nat) (x : CoreSt) : (s.setCore c x).l2poison = s.l2poison := rfl
@[simp] theorem State.setCore_flaws (s : State) (c : Nat) (x : CoreSt) : (s.setCore c x).flaws = s.flaws := rfl
@[simp] theorem State.setCore_l2flaws (s : State) (c : Nat) (x : CoreSt) : (s.setCore c x).l2flaws = s.l2flaws := rfl
@[simp] theorem State.setCore_tlbs (s : State) (c : Nat) (x : CoreSt) : (s.setCore c x).tlbs = s.tlbs := rfl
@[simp] theorem State.setCore_tags (s : State) (c : Nat) (x : CoreSt) : (s.setCore c x).tags = s.tags := rfl
@[simp] theorem State.setCore_regions (s : State) (c : Nat) (x : CoreSt) : (s.setCore c x).regions = s.regions := rfl
@[simp] theorem State.setCore_cores (s : State) (c : Nat) (x : CoreSt) : (s.setCore c x).cores = Tab.put s.cores c x := rfl
@[simp] theorem State.setCore_groups (s : State) (c : Nat) (x : CoreSt) : (s.setCore c x).groups = s.groups := rfl
@[simp] theorem State.setCore_wgs (s : State) (c : Nat) (x : CoreSt) : (s.setCore c x).wgs = s.wgs := rfl
@[simp] theorem State.setCore_launches (s : State) (c : Nat) (x : CoreSt) : (s.setCore c x).launches = s.launches := rfl
@[simp] theorem State.setCore_ops (s : State) (c : Nat) (x : CoreSt) : (s.setCore c x).ops = s.ops := rfl
@[simp] theorem State.setCore_nextId (s : State) (c : Nat) (x : CoreSt) : (s.setCore c x).nextId = s.nextId := rfl
@[simp] theorem State.setCore_pend (s : State) (c : Nat) (x : CoreSt) : (s.setCore c x).pend = s.pend := rfl
@[simp] theorem State.setCore_queues (s : State) (c : Nat) (x : CoreSt) : (s.setCore c x).queues = s.queues := rfl
@[simp] theorem State.setCore_cmds (s : State) (c : Nat) (x : CoreSt) : (s.setCore c x).cmds = s.cmds := rfl
@[simp] theorem State.setCore_graphs (s : State) (c : Nat) (x : CoreSt) : (s.setCore c x).graphs = s.graphs := rfl
@[simp] theorem State.setCore_comms (s : State) (c : Nat) (x : CoreSt) : (s.setCore c x).comms = s.comms := rfl
@[simp] theorem State.setCore_colls (s : State) (c : Nat) (x : CoreSt) : (s.setCore c x).colls = s.colls := rfl
@[simp] theorem State.setCore_passes (s : State) (c : Nat) (x : CoreSt) : (s.setCore c x).passes = s.passes := rfl
@[simp] theorem State.setCore_saves (s : State) (c : Nat) (x : CoreSt) : (s.setCore c x).saves = s.saves := rfl
@[simp] theorem State.setCore_slices (s : State) (c : Nat) (x : CoreSt) : (s.setCore c x).slices = s.slices := rfl
@[simp] theorem State.setCore_regionTab (s : State) (c : Nat) (x : CoreSt) : (s.setCore c x).regionTab = s.regionTab := rfl
@[simp] theorem State.setCore_regionRight (s : State) (c : Nat) (x : CoreSt) : (s.setCore c x).regionRight = s.regionRight := rfl
@[simp] theorem State.setCore_ports (s : State) (c : Nat) (x : CoreSt) : (s.setCore c x).ports = s.ports := rfl
@[simp] theorem State.setCore_dlinks (s : State) (c : Nat) (x : CoreSt) : (s.setCore c x).dlinks = s.dlinks := rfl
@[simp] theorem State.setCore_peers (s : State) (c : Nat) (x : CoreSt) : (s.setCore c x).peers = s.peers := rfl
@[simp] theorem State.setCore_moduleNo (s : State) (c : Nat) (x : CoreSt) : (s.setCore c x).moduleNo = s.moduleNo := rfl
@[simp] theorem State.setCore_layout (s : State) (c : Nat) (x : CoreSt) : (s.setCore c x).layout = s.layout := rfl
@[simp] theorem State.setCore_bootState (s : State) (c : Nat) (x : CoreSt) : (s.setCore c x).bootState = s.bootState := rfl
@[simp] theorem State.setCore_bootReason (s : State) (c : Nat) (x : CoreSt) : (s.setCore c x).bootReason = s.bootReason := rfl
@[simp] theorem State.setCore_failCnt (s : State) (c : Nat) (x : CoreSt) : (s.setCore c x).failCnt = s.failCnt := rfl
@[simp] theorem State.setCore_skipCheck (s : State) (c : Nat) (x : CoreSt) : (s.setCore c x).skipCheck = s.skipCheck := rfl
@[simp] theorem State.setCore_apBase (s : State) (c : Nat) (x : CoreSt) : (s.setCore c x).apBase = s.apBase := rfl
@[simp] theorem State.setCore_apTier (s : State) (c : Nat) (x : CoreSt) : (s.setCore c x).apTier = s.apTier := rfl
@[simp] theorem State.setCore_irqStat (s : State) (c : Nat) (x : CoreSt) : (s.setCore c x).irqStat = s.irqStat := rfl
@[simp] theorem State.setCore_errLog (s : State) (c : Nat) (x : CoreSt) : (s.setCore c x).errLog = s.errLog := rfl
@[simp] theorem State.setCore_flashWe (s : State) (c : Nat) (x : CoreSt) : (s.setCore c x).flashWe = s.flashWe := rfl
@[simp] theorem State.setCore_flashBusy (s : State) (c : Nat) (x : CoreSt) : (s.setCore c x).flashBusy = s.flashBusy := rfl
@[simp] theorem State.setCore_temp (s : State) (c : Nat) (x : CoreSt) : (s.setCore c x).temp = s.temp := rfl
@[simp] theorem State.setCore_pwr (s : State) (c : Nat) (x : CoreSt) : (s.setCore c x).pwr = s.pwr := rfl
@[simp] theorem State.setCore_ceCnt (s : State) (c : Nat) (x : CoreSt) : (s.setCore c x).ceCnt = s.ceCnt := rfl
@[simp] theorem State.setCore_ceThr (s : State) (c : Nat) (x : CoreSt) : (s.setCore c x).ceThr = s.ceThr := rfl
@[simp] theorem State.setCore_ueAddr (s : State) (c : Nat) (x : CoreSt) : (s.setCore c x).ueAddr = s.ueAddr := rfl
@[simp] theorem State.setCore_ueStat (s : State) (c : Nat) (x : CoreSt) : (s.setCore c x).ueStat = s.ueStat := rfl
@[simp] theorem State.setCore_linkDown (s : State) (c : Nat) (x : CoreSt) : (s.setCore c x).linkDown = s.linkDown := rfl
@[simp] theorem State.setCore_byte (s : State) (c : Nat) (x : CoreSt) (j : Nat) : (s.setCore c x).byte j = s.byte j := rfl
@[simp] theorem State.setCore_poisoned (s : State) (c : Nat) (x : CoreSt) (j : Nat) : (s.setCore c x).poisoned j = s.poisoned j := rfl
@[simp] theorem State.setCore_queue (s : State) (c : Nat) (x : CoreSt) (j : Nat) : (s.setCore c x).queue j = s.queue j := rfl
@[simp] theorem State.setCore_port (s : State) (c : Nat) (x : CoreSt) (j : Nat) : (s.setCore c x).port j = s.port j := rfl
@[simp] theorem State.setCore_dlink (s : State) (c : Nat) (x : CoreSt) (j : Nat) : (s.setCore c x).dlink j = s.dlink j := rfl
@[simp] theorem State.setCore_groupOf (s : State) (c : Nat) (x : CoreSt) (j : Nat) : (s.setCore c x).group? j = s.group? j := rfl
@[simp] theorem State.setCore_wgOf (s : State) (c : Nat) (x : CoreSt) (j : Nat) : (s.setCore c x).wg? j = s.wg? j := rfl
@[simp] theorem State.setCore_launchOf (s : State) (c : Nat) (x : CoreSt) (j : Nat) : (s.setCore c x).launch? j = s.launch? j := rfl
@[simp] theorem State.setCore_slice (s : State) (c : Nat) (x : CoreSt) (j : Nat) : (s.setCore c x).slice j = s.slice j := rfl
@[simp] theorem State.setCore_region (s : State) (c : Nat) (x : CoreSt) (j : Nat) : (s.setCore c x).region j = s.region j := rfl
@[simp] theorem State.setCore_opOf (s : State) (c : Nat) (x : CoreSt) (j : Nat) : (s.setCore c x).op? j = s.op? j := rfl

/-! ### setQueue -/

@[simp] theorem State.setQueue_cur (s : State) (q : Nat) (x : Queue) : (s.setQueue q x).cur = s.cur := rfl
@[simp] theorem State.setQueue_agenda (s : State) (q : Nat) (x : Queue) : (s.setQueue q x).agenda = s.agenda := rfl
@[simp] theorem State.setQueue_sealed (s : State) (q : Nat) (x : Queue) : (s.setQueue q x).sealed = s.sealed := rfl
@[simp] theorem State.setQueue_freeCtr (s : State) (q : Nat) (x : Queue) : (s.setQueue q x).freeCtr = s.freeCtr := rfl
@[simp] theorem State.setQueue_hist (s : State) (q : Nat) (x : Queue) : (s.setQueue q x).hist = s.hist := rfl
@[simp] theorem State.setQueue_histLen (s : State) (q : Nat) (x : Queue) : (s.setQueue q x).histLen = s.histLen := rfl
@[simp] theorem State.setQueue_hb (s : State) (q : Nat) (x : Queue) : (s.setQueue q x).hb = s.hb := rfl
@[simp] theorem State.setQueue_hostData (s : State) (q : Nat) (x : Queue) : (s.setQueue q x).hostData = s.hostData := rfl
@[simp] theorem State.setQueue_clock (s : State) (q : Nat) (x : Queue) : (s.setQueue q x).clock = s.clock := rfl
@[simp] theorem State.setQueue_clockLow (s : State) (q : Nat) (x : Queue) : (s.setQueue q x).clockLow = s.clockLow := rfl
@[simp] theorem State.setQueue_mem (s : State) (q : Nat) (x : Queue) : (s.setQueue q x).mem = s.mem := rfl
@[simp] theorem State.setQueue_poison (s : State) (q : Nat) (x : Queue) : (s.setQueue q x).poison = s.poison := rfl
@[simp] theorem State.setQueue_l2poison (s : State) (q : Nat) (x : Queue) : (s.setQueue q x).l2poison = s.l2poison := rfl
@[simp] theorem State.setQueue_flaws (s : State) (q : Nat) (x : Queue) : (s.setQueue q x).flaws = s.flaws := rfl
@[simp] theorem State.setQueue_l2flaws (s : State) (q : Nat) (x : Queue) : (s.setQueue q x).l2flaws = s.l2flaws := rfl
@[simp] theorem State.setQueue_tlbs (s : State) (q : Nat) (x : Queue) : (s.setQueue q x).tlbs = s.tlbs := rfl
@[simp] theorem State.setQueue_tags (s : State) (q : Nat) (x : Queue) : (s.setQueue q x).tags = s.tags := rfl
@[simp] theorem State.setQueue_regions (s : State) (q : Nat) (x : Queue) : (s.setQueue q x).regions = s.regions := rfl
@[simp] theorem State.setQueue_cores (s : State) (q : Nat) (x : Queue) : (s.setQueue q x).cores = s.cores := rfl
@[simp] theorem State.setQueue_groups (s : State) (q : Nat) (x : Queue) : (s.setQueue q x).groups = s.groups := rfl
@[simp] theorem State.setQueue_wgs (s : State) (q : Nat) (x : Queue) : (s.setQueue q x).wgs = s.wgs := rfl
@[simp] theorem State.setQueue_launches (s : State) (q : Nat) (x : Queue) : (s.setQueue q x).launches = s.launches := rfl
@[simp] theorem State.setQueue_ops (s : State) (q : Nat) (x : Queue) : (s.setQueue q x).ops = s.ops := rfl
@[simp] theorem State.setQueue_nextId (s : State) (q : Nat) (x : Queue) : (s.setQueue q x).nextId = s.nextId := rfl
@[simp] theorem State.setQueue_pend (s : State) (q : Nat) (x : Queue) : (s.setQueue q x).pend = s.pend := rfl
@[simp] theorem State.setQueue_queues (s : State) (q : Nat) (x : Queue) : (s.setQueue q x).queues = Tab.put s.queues q x := rfl
@[simp] theorem State.setQueue_cmds (s : State) (q : Nat) (x : Queue) : (s.setQueue q x).cmds = s.cmds := rfl
@[simp] theorem State.setQueue_graphs (s : State) (q : Nat) (x : Queue) : (s.setQueue q x).graphs = s.graphs := rfl
@[simp] theorem State.setQueue_comms (s : State) (q : Nat) (x : Queue) : (s.setQueue q x).comms = s.comms := rfl
@[simp] theorem State.setQueue_colls (s : State) (q : Nat) (x : Queue) : (s.setQueue q x).colls = s.colls := rfl
@[simp] theorem State.setQueue_passes (s : State) (q : Nat) (x : Queue) : (s.setQueue q x).passes = s.passes := rfl
@[simp] theorem State.setQueue_saves (s : State) (q : Nat) (x : Queue) : (s.setQueue q x).saves = s.saves := rfl
@[simp] theorem State.setQueue_slices (s : State) (q : Nat) (x : Queue) : (s.setQueue q x).slices = s.slices := rfl
@[simp] theorem State.setQueue_regionTab (s : State) (q : Nat) (x : Queue) : (s.setQueue q x).regionTab = s.regionTab := rfl
@[simp] theorem State.setQueue_regionRight (s : State) (q : Nat) (x : Queue) : (s.setQueue q x).regionRight = s.regionRight := rfl
@[simp] theorem State.setQueue_ports (s : State) (q : Nat) (x : Queue) : (s.setQueue q x).ports = s.ports := rfl
@[simp] theorem State.setQueue_dlinks (s : State) (q : Nat) (x : Queue) : (s.setQueue q x).dlinks = s.dlinks := rfl
@[simp] theorem State.setQueue_peers (s : State) (q : Nat) (x : Queue) : (s.setQueue q x).peers = s.peers := rfl
@[simp] theorem State.setQueue_moduleNo (s : State) (q : Nat) (x : Queue) : (s.setQueue q x).moduleNo = s.moduleNo := rfl
@[simp] theorem State.setQueue_layout (s : State) (q : Nat) (x : Queue) : (s.setQueue q x).layout = s.layout := rfl
@[simp] theorem State.setQueue_bootState (s : State) (q : Nat) (x : Queue) : (s.setQueue q x).bootState = s.bootState := rfl
@[simp] theorem State.setQueue_bootReason (s : State) (q : Nat) (x : Queue) : (s.setQueue q x).bootReason = s.bootReason := rfl
@[simp] theorem State.setQueue_failCnt (s : State) (q : Nat) (x : Queue) : (s.setQueue q x).failCnt = s.failCnt := rfl
@[simp] theorem State.setQueue_skipCheck (s : State) (q : Nat) (x : Queue) : (s.setQueue q x).skipCheck = s.skipCheck := rfl
@[simp] theorem State.setQueue_apBase (s : State) (q : Nat) (x : Queue) : (s.setQueue q x).apBase = s.apBase := rfl
@[simp] theorem State.setQueue_apTier (s : State) (q : Nat) (x : Queue) : (s.setQueue q x).apTier = s.apTier := rfl
@[simp] theorem State.setQueue_irqStat (s : State) (q : Nat) (x : Queue) : (s.setQueue q x).irqStat = s.irqStat := rfl
@[simp] theorem State.setQueue_errLog (s : State) (q : Nat) (x : Queue) : (s.setQueue q x).errLog = s.errLog := rfl
@[simp] theorem State.setQueue_flashWe (s : State) (q : Nat) (x : Queue) : (s.setQueue q x).flashWe = s.flashWe := rfl
@[simp] theorem State.setQueue_flashBusy (s : State) (q : Nat) (x : Queue) : (s.setQueue q x).flashBusy = s.flashBusy := rfl
@[simp] theorem State.setQueue_temp (s : State) (q : Nat) (x : Queue) : (s.setQueue q x).temp = s.temp := rfl
@[simp] theorem State.setQueue_pwr (s : State) (q : Nat) (x : Queue) : (s.setQueue q x).pwr = s.pwr := rfl
@[simp] theorem State.setQueue_ceCnt (s : State) (q : Nat) (x : Queue) : (s.setQueue q x).ceCnt = s.ceCnt := rfl
@[simp] theorem State.setQueue_ceThr (s : State) (q : Nat) (x : Queue) : (s.setQueue q x).ceThr = s.ceThr := rfl
@[simp] theorem State.setQueue_ueAddr (s : State) (q : Nat) (x : Queue) : (s.setQueue q x).ueAddr = s.ueAddr := rfl
@[simp] theorem State.setQueue_ueStat (s : State) (q : Nat) (x : Queue) : (s.setQueue q x).ueStat = s.ueStat := rfl
@[simp] theorem State.setQueue_linkDown (s : State) (q : Nat) (x : Queue) : (s.setQueue q x).linkDown = s.linkDown := rfl
@[simp] theorem State.setQueue_byte (s : State) (q : Nat) (x : Queue) (j : Nat) : (s.setQueue q x).byte j = s.byte j := rfl
@[simp] theorem State.setQueue_poisoned (s : State) (q : Nat) (x : Queue) (j : Nat) : (s.setQueue q x).poisoned j = s.poisoned j := rfl
@[simp] theorem State.setQueue_core (s : State) (q : Nat) (x : Queue) (j : Nat) : (s.setQueue q x).core j = s.core j := rfl
@[simp] theorem State.setQueue_port (s : State) (q : Nat) (x : Queue) (j : Nat) : (s.setQueue q x).port j = s.port j := rfl
@[simp] theorem State.setQueue_dlink (s : State) (q : Nat) (x : Queue) (j : Nat) : (s.setQueue q x).dlink j = s.dlink j := rfl
@[simp] theorem State.setQueue_groupOf (s : State) (q : Nat) (x : Queue) (j : Nat) : (s.setQueue q x).group? j = s.group? j := rfl
@[simp] theorem State.setQueue_wgOf (s : State) (q : Nat) (x : Queue) (j : Nat) : (s.setQueue q x).wg? j = s.wg? j := rfl
@[simp] theorem State.setQueue_launchOf (s : State) (q : Nat) (x : Queue) (j : Nat) : (s.setQueue q x).launch? j = s.launch? j := rfl
@[simp] theorem State.setQueue_slice (s : State) (q : Nat) (x : Queue) (j : Nat) : (s.setQueue q x).slice j = s.slice j := rfl
@[simp] theorem State.setQueue_region (s : State) (q : Nat) (x : Queue) (j : Nat) : (s.setQueue q x).region j = s.region j := rfl
@[simp] theorem State.setQueue_opOf (s : State) (q : Nat) (x : Queue) (j : Nat) : (s.setQueue q x).op? j = s.op? j := rfl

/-! ### setPort -/

@[simp] theorem State.setPort_cur (s : State) (p : Nat) (x : Port) : (s.setPort p x).cur = s.cur := rfl
@[simp] theorem State.setPort_agenda (s : State) (p : Nat) (x : Port) : (s.setPort p x).agenda = s.agenda := rfl
@[simp] theorem State.setPort_sealed (s : State) (p : Nat) (x : Port) : (s.setPort p x).sealed = s.sealed := rfl
@[simp] theorem State.setPort_freeCtr (s : State) (p : Nat) (x : Port) : (s.setPort p x).freeCtr = s.freeCtr := rfl
@[simp] theorem State.setPort_hist (s : State) (p : Nat) (x : Port) : (s.setPort p x).hist = s.hist := rfl
@[simp] theorem State.setPort_histLen (s : State) (p : Nat) (x : Port) : (s.setPort p x).histLen = s.histLen := rfl
@[simp] theorem State.setPort_hb (s : State) (p : Nat) (x : Port) : (s.setPort p x).hb = s.hb := rfl
@[simp] theorem State.setPort_hostData (s : State) (p : Nat) (x : Port) : (s.setPort p x).hostData = s.hostData := rfl
@[simp] theorem State.setPort_clock (s : State) (p : Nat) (x : Port) : (s.setPort p x).clock = s.clock := rfl
@[simp] theorem State.setPort_clockLow (s : State) (p : Nat) (x : Port) : (s.setPort p x).clockLow = s.clockLow := rfl
@[simp] theorem State.setPort_mem (s : State) (p : Nat) (x : Port) : (s.setPort p x).mem = s.mem := rfl
@[simp] theorem State.setPort_poison (s : State) (p : Nat) (x : Port) : (s.setPort p x).poison = s.poison := rfl
@[simp] theorem State.setPort_l2poison (s : State) (p : Nat) (x : Port) : (s.setPort p x).l2poison = s.l2poison := rfl
@[simp] theorem State.setPort_flaws (s : State) (p : Nat) (x : Port) : (s.setPort p x).flaws = s.flaws := rfl
@[simp] theorem State.setPort_l2flaws (s : State) (p : Nat) (x : Port) : (s.setPort p x).l2flaws = s.l2flaws := rfl
@[simp] theorem State.setPort_tlbs (s : State) (p : Nat) (x : Port) : (s.setPort p x).tlbs = s.tlbs := rfl
@[simp] theorem State.setPort_tags (s : State) (p : Nat) (x : Port) : (s.setPort p x).tags = s.tags := rfl
@[simp] theorem State.setPort_regions (s : State) (p : Nat) (x : Port) : (s.setPort p x).regions = s.regions := rfl
@[simp] theorem State.setPort_cores (s : State) (p : Nat) (x : Port) : (s.setPort p x).cores = s.cores := rfl
@[simp] theorem State.setPort_groups (s : State) (p : Nat) (x : Port) : (s.setPort p x).groups = s.groups := rfl
@[simp] theorem State.setPort_wgs (s : State) (p : Nat) (x : Port) : (s.setPort p x).wgs = s.wgs := rfl
@[simp] theorem State.setPort_launches (s : State) (p : Nat) (x : Port) : (s.setPort p x).launches = s.launches := rfl
@[simp] theorem State.setPort_ops (s : State) (p : Nat) (x : Port) : (s.setPort p x).ops = s.ops := rfl
@[simp] theorem State.setPort_nextId (s : State) (p : Nat) (x : Port) : (s.setPort p x).nextId = s.nextId := rfl
@[simp] theorem State.setPort_pend (s : State) (p : Nat) (x : Port) : (s.setPort p x).pend = s.pend := rfl
@[simp] theorem State.setPort_queues (s : State) (p : Nat) (x : Port) : (s.setPort p x).queues = s.queues := rfl
@[simp] theorem State.setPort_cmds (s : State) (p : Nat) (x : Port) : (s.setPort p x).cmds = s.cmds := rfl
@[simp] theorem State.setPort_graphs (s : State) (p : Nat) (x : Port) : (s.setPort p x).graphs = s.graphs := rfl
@[simp] theorem State.setPort_comms (s : State) (p : Nat) (x : Port) : (s.setPort p x).comms = s.comms := rfl
@[simp] theorem State.setPort_colls (s : State) (p : Nat) (x : Port) : (s.setPort p x).colls = s.colls := rfl
@[simp] theorem State.setPort_passes (s : State) (p : Nat) (x : Port) : (s.setPort p x).passes = s.passes := rfl
@[simp] theorem State.setPort_saves (s : State) (p : Nat) (x : Port) : (s.setPort p x).saves = s.saves := rfl
@[simp] theorem State.setPort_slices (s : State) (p : Nat) (x : Port) : (s.setPort p x).slices = s.slices := rfl
@[simp] theorem State.setPort_regionTab (s : State) (p : Nat) (x : Port) : (s.setPort p x).regionTab = s.regionTab := rfl
@[simp] theorem State.setPort_regionRight (s : State) (p : Nat) (x : Port) : (s.setPort p x).regionRight = s.regionRight := rfl
@[simp] theorem State.setPort_ports (s : State) (p : Nat) (x : Port) : (s.setPort p x).ports = Tab.put s.ports p x := rfl
@[simp] theorem State.setPort_dlinks (s : State) (p : Nat) (x : Port) : (s.setPort p x).dlinks = s.dlinks := rfl
@[simp] theorem State.setPort_peers (s : State) (p : Nat) (x : Port) : (s.setPort p x).peers = s.peers := rfl
@[simp] theorem State.setPort_moduleNo (s : State) (p : Nat) (x : Port) : (s.setPort p x).moduleNo = s.moduleNo := rfl
@[simp] theorem State.setPort_layout (s : State) (p : Nat) (x : Port) : (s.setPort p x).layout = s.layout := rfl
@[simp] theorem State.setPort_bootState (s : State) (p : Nat) (x : Port) : (s.setPort p x).bootState = s.bootState := rfl
@[simp] theorem State.setPort_bootReason (s : State) (p : Nat) (x : Port) : (s.setPort p x).bootReason = s.bootReason := rfl
@[simp] theorem State.setPort_failCnt (s : State) (p : Nat) (x : Port) : (s.setPort p x).failCnt = s.failCnt := rfl
@[simp] theorem State.setPort_skipCheck (s : State) (p : Nat) (x : Port) : (s.setPort p x).skipCheck = s.skipCheck := rfl
@[simp] theorem State.setPort_apBase (s : State) (p : Nat) (x : Port) : (s.setPort p x).apBase = s.apBase := rfl
@[simp] theorem State.setPort_apTier (s : State) (p : Nat) (x : Port) : (s.setPort p x).apTier = s.apTier := rfl
@[simp] theorem State.setPort_irqStat (s : State) (p : Nat) (x : Port) : (s.setPort p x).irqStat = s.irqStat := rfl
@[simp] theorem State.setPort_errLog (s : State) (p : Nat) (x : Port) : (s.setPort p x).errLog = s.errLog := rfl
@[simp] theorem State.setPort_flashWe (s : State) (p : Nat) (x : Port) : (s.setPort p x).flashWe = s.flashWe := rfl
@[simp] theorem State.setPort_flashBusy (s : State) (p : Nat) (x : Port) : (s.setPort p x).flashBusy = s.flashBusy := rfl
@[simp] theorem State.setPort_temp (s : State) (p : Nat) (x : Port) : (s.setPort p x).temp = s.temp := rfl
@[simp] theorem State.setPort_pwr (s : State) (p : Nat) (x : Port) : (s.setPort p x).pwr = s.pwr := rfl
@[simp] theorem State.setPort_ceCnt (s : State) (p : Nat) (x : Port) : (s.setPort p x).ceCnt = s.ceCnt := rfl
@[simp] theorem State.setPort_ceThr (s : State) (p : Nat) (x : Port) : (s.setPort p x).ceThr = s.ceThr := rfl
@[simp] theorem State.setPort_ueAddr (s : State) (p : Nat) (x : Port) : (s.setPort p x).ueAddr = s.ueAddr := rfl
@[simp] theorem State.setPort_ueStat (s : State) (p : Nat) (x : Port) : (s.setPort p x).ueStat = s.ueStat := rfl
@[simp] theorem State.setPort_linkDown (s : State) (p : Nat) (x : Port) : (s.setPort p x).linkDown = s.linkDown := rfl
@[simp] theorem State.setPort_byte (s : State) (p : Nat) (x : Port) (j : Nat) : (s.setPort p x).byte j = s.byte j := rfl
@[simp] theorem State.setPort_poisoned (s : State) (p : Nat) (x : Port) (j : Nat) : (s.setPort p x).poisoned j = s.poisoned j := rfl
@[simp] theorem State.setPort_core (s : State) (p : Nat) (x : Port) (j : Nat) : (s.setPort p x).core j = s.core j := rfl
@[simp] theorem State.setPort_queue (s : State) (p : Nat) (x : Port) (j : Nat) : (s.setPort p x).queue j = s.queue j := rfl
@[simp] theorem State.setPort_dlink (s : State) (p : Nat) (x : Port) (j : Nat) : (s.setPort p x).dlink j = s.dlink j := rfl
@[simp] theorem State.setPort_groupOf (s : State) (p : Nat) (x : Port) (j : Nat) : (s.setPort p x).group? j = s.group? j := rfl
@[simp] theorem State.setPort_wgOf (s : State) (p : Nat) (x : Port) (j : Nat) : (s.setPort p x).wg? j = s.wg? j := rfl
@[simp] theorem State.setPort_launchOf (s : State) (p : Nat) (x : Port) (j : Nat) : (s.setPort p x).launch? j = s.launch? j := rfl
@[simp] theorem State.setPort_slice (s : State) (p : Nat) (x : Port) (j : Nat) : (s.setPort p x).slice j = s.slice j := rfl
@[simp] theorem State.setPort_region (s : State) (p : Nat) (x : Port) (j : Nat) : (s.setPort p x).region j = s.region j := rfl
@[simp] theorem State.setPort_opOf (s : State) (p : Nat) (x : Port) (j : Nat) : (s.setPort p x).op? j = s.op? j := rfl

/-! ### setDlink -/

@[simp] theorem State.setDlink_cur (s : State) (k : Nat) (x : DLink) : (s.setDlink k x).cur = s.cur := rfl
@[simp] theorem State.setDlink_agenda (s : State) (k : Nat) (x : DLink) : (s.setDlink k x).agenda = s.agenda := rfl
@[simp] theorem State.setDlink_sealed (s : State) (k : Nat) (x : DLink) : (s.setDlink k x).sealed = s.sealed := rfl
@[simp] theorem State.setDlink_freeCtr (s : State) (k : Nat) (x : DLink) : (s.setDlink k x).freeCtr = s.freeCtr := rfl
@[simp] theorem State.setDlink_hist (s : State) (k : Nat) (x : DLink) : (s.setDlink k x).hist = s.hist := rfl
@[simp] theorem State.setDlink_histLen (s : State) (k : Nat) (x : DLink) : (s.setDlink k x).histLen = s.histLen := rfl
@[simp] theorem State.setDlink_hb (s : State) (k : Nat) (x : DLink) : (s.setDlink k x).hb = s.hb := rfl
@[simp] theorem State.setDlink_hostData (s : State) (k : Nat) (x : DLink) : (s.setDlink k x).hostData = s.hostData := rfl
@[simp] theorem State.setDlink_clock (s : State) (k : Nat) (x : DLink) : (s.setDlink k x).clock = s.clock := rfl
@[simp] theorem State.setDlink_clockLow (s : State) (k : Nat) (x : DLink) : (s.setDlink k x).clockLow = s.clockLow := rfl
@[simp] theorem State.setDlink_mem (s : State) (k : Nat) (x : DLink) : (s.setDlink k x).mem = s.mem := rfl
@[simp] theorem State.setDlink_poison (s : State) (k : Nat) (x : DLink) : (s.setDlink k x).poison = s.poison := rfl
@[simp] theorem State.setDlink_l2poison (s : State) (k : Nat) (x : DLink) : (s.setDlink k x).l2poison = s.l2poison := rfl
@[simp] theorem State.setDlink_flaws (s : State) (k : Nat) (x : DLink) : (s.setDlink k x).flaws = s.flaws := rfl
@[simp] theorem State.setDlink_l2flaws (s : State) (k : Nat) (x : DLink) : (s.setDlink k x).l2flaws = s.l2flaws := rfl
@[simp] theorem State.setDlink_tlbs (s : State) (k : Nat) (x : DLink) : (s.setDlink k x).tlbs = s.tlbs := rfl
@[simp] theorem State.setDlink_tags (s : State) (k : Nat) (x : DLink) : (s.setDlink k x).tags = s.tags := rfl
@[simp] theorem State.setDlink_regions (s : State) (k : Nat) (x : DLink) : (s.setDlink k x).regions = s.regions := rfl
@[simp] theorem State.setDlink_cores (s : State) (k : Nat) (x : DLink) : (s.setDlink k x).cores = s.cores := rfl
@[simp] theorem State.setDlink_groups (s : State) (k : Nat) (x : DLink) : (s.setDlink k x).groups = s.groups := rfl
@[simp] theorem State.setDlink_wgs (s : State) (k : Nat) (x : DLink) : (s.setDlink k x).wgs = s.wgs := rfl
@[simp] theorem State.setDlink_launches (s : State) (k : Nat) (x : DLink) : (s.setDlink k x).launches = s.launches := rfl
@[simp] theorem State.setDlink_ops (s : State) (k : Nat) (x : DLink) : (s.setDlink k x).ops = s.ops := rfl
@[simp] theorem State.setDlink_nextId (s : State) (k : Nat) (x : DLink) : (s.setDlink k x).nextId = s.nextId := rfl
@[simp] theorem State.setDlink_pend (s : State) (k : Nat) (x : DLink) : (s.setDlink k x).pend = s.pend := rfl
@[simp] theorem State.setDlink_queues (s : State) (k : Nat) (x : DLink) : (s.setDlink k x).queues = s.queues := rfl
@[simp] theorem State.setDlink_cmds (s : State) (k : Nat) (x : DLink) : (s.setDlink k x).cmds = s.cmds := rfl
@[simp] theorem State.setDlink_graphs (s : State) (k : Nat) (x : DLink) : (s.setDlink k x).graphs = s.graphs := rfl
@[simp] theorem State.setDlink_comms (s : State) (k : Nat) (x : DLink) : (s.setDlink k x).comms = s.comms := rfl
@[simp] theorem State.setDlink_colls (s : State) (k : Nat) (x : DLink) : (s.setDlink k x).colls = s.colls := rfl
@[simp] theorem State.setDlink_passes (s : State) (k : Nat) (x : DLink) : (s.setDlink k x).passes = s.passes := rfl
@[simp] theorem State.setDlink_saves (s : State) (k : Nat) (x : DLink) : (s.setDlink k x).saves = s.saves := rfl
@[simp] theorem State.setDlink_slices (s : State) (k : Nat) (x : DLink) : (s.setDlink k x).slices = s.slices := rfl
@[simp] theorem State.setDlink_regionTab (s : State) (k : Nat) (x : DLink) : (s.setDlink k x).regionTab = s.regionTab := rfl
@[simp] theorem State.setDlink_regionRight (s : State) (k : Nat) (x : DLink) : (s.setDlink k x).regionRight = s.regionRight := rfl
@[simp] theorem State.setDlink_ports (s : State) (k : Nat) (x : DLink) : (s.setDlink k x).ports = s.ports := rfl
@[simp] theorem State.setDlink_dlinks (s : State) (k : Nat) (x : DLink) : (s.setDlink k x).dlinks = Tab.put s.dlinks k x := rfl
@[simp] theorem State.setDlink_peers (s : State) (k : Nat) (x : DLink) : (s.setDlink k x).peers = s.peers := rfl
@[simp] theorem State.setDlink_moduleNo (s : State) (k : Nat) (x : DLink) : (s.setDlink k x).moduleNo = s.moduleNo := rfl
@[simp] theorem State.setDlink_layout (s : State) (k : Nat) (x : DLink) : (s.setDlink k x).layout = s.layout := rfl
@[simp] theorem State.setDlink_bootState (s : State) (k : Nat) (x : DLink) : (s.setDlink k x).bootState = s.bootState := rfl
@[simp] theorem State.setDlink_bootReason (s : State) (k : Nat) (x : DLink) : (s.setDlink k x).bootReason = s.bootReason := rfl
@[simp] theorem State.setDlink_failCnt (s : State) (k : Nat) (x : DLink) : (s.setDlink k x).failCnt = s.failCnt := rfl
@[simp] theorem State.setDlink_skipCheck (s : State) (k : Nat) (x : DLink) : (s.setDlink k x).skipCheck = s.skipCheck := rfl
@[simp] theorem State.setDlink_apBase (s : State) (k : Nat) (x : DLink) : (s.setDlink k x).apBase = s.apBase := rfl
@[simp] theorem State.setDlink_apTier (s : State) (k : Nat) (x : DLink) : (s.setDlink k x).apTier = s.apTier := rfl
@[simp] theorem State.setDlink_irqStat (s : State) (k : Nat) (x : DLink) : (s.setDlink k x).irqStat = s.irqStat := rfl
@[simp] theorem State.setDlink_errLog (s : State) (k : Nat) (x : DLink) : (s.setDlink k x).errLog = s.errLog := rfl
@[simp] theorem State.setDlink_flashWe (s : State) (k : Nat) (x : DLink) : (s.setDlink k x).flashWe = s.flashWe := rfl
@[simp] theorem State.setDlink_flashBusy (s : State) (k : Nat) (x : DLink) : (s.setDlink k x).flashBusy = s.flashBusy := rfl
@[simp] theorem State.setDlink_temp (s : State) (k : Nat) (x : DLink) : (s.setDlink k x).temp = s.temp := rfl
@[simp] theorem State.setDlink_pwr (s : State) (k : Nat) (x : DLink) : (s.setDlink k x).pwr = s.pwr := rfl
@[simp] theorem State.setDlink_ceCnt (s : State) (k : Nat) (x : DLink) : (s.setDlink k x).ceCnt = s.ceCnt := rfl
@[simp] theorem State.setDlink_ceThr (s : State) (k : Nat) (x : DLink) : (s.setDlink k x).ceThr = s.ceThr := rfl
@[simp] theorem State.setDlink_ueAddr (s : State) (k : Nat) (x : DLink) : (s.setDlink k x).ueAddr = s.ueAddr := rfl
@[simp] theorem State.setDlink_ueStat (s : State) (k : Nat) (x : DLink) : (s.setDlink k x).ueStat = s.ueStat := rfl
@[simp] theorem State.setDlink_linkDown (s : State) (k : Nat) (x : DLink) : (s.setDlink k x).linkDown = s.linkDown := rfl
@[simp] theorem State.setDlink_byte (s : State) (k : Nat) (x : DLink) (j : Nat) : (s.setDlink k x).byte j = s.byte j := rfl
@[simp] theorem State.setDlink_poisoned (s : State) (k : Nat) (x : DLink) (j : Nat) : (s.setDlink k x).poisoned j = s.poisoned j := rfl
@[simp] theorem State.setDlink_core (s : State) (k : Nat) (x : DLink) (j : Nat) : (s.setDlink k x).core j = s.core j := rfl
@[simp] theorem State.setDlink_queue (s : State) (k : Nat) (x : DLink) (j : Nat) : (s.setDlink k x).queue j = s.queue j := rfl
@[simp] theorem State.setDlink_port (s : State) (k : Nat) (x : DLink) (j : Nat) : (s.setDlink k x).port j = s.port j := rfl
@[simp] theorem State.setDlink_groupOf (s : State) (k : Nat) (x : DLink) (j : Nat) : (s.setDlink k x).group? j = s.group? j := rfl
@[simp] theorem State.setDlink_wgOf (s : State) (k : Nat) (x : DLink) (j : Nat) : (s.setDlink k x).wg? j = s.wg? j := rfl
@[simp] theorem State.setDlink_launchOf (s : State) (k : Nat) (x : DLink) (j : Nat) : (s.setDlink k x).launch? j = s.launch? j := rfl
@[simp] theorem State.setDlink_slice (s : State) (k : Nat) (x : DLink) (j : Nat) : (s.setDlink k x).slice j = s.slice j := rfl
@[simp] theorem State.setDlink_region (s : State) (k : Nat) (x : DLink) (j : Nat) : (s.setDlink k x).region j = s.region j := rfl
@[simp] theorem State.setDlink_opOf (s : State) (k : Nat) (x : DLink) (j : Nat) : (s.setDlink k x).op? j = s.op? j := rfl

/-! ### setGroup -/

@[simp] theorem State.setGroup_cur (s : State) (k : Nat) (x : Group) : (s.setGroup k x).cur = s.cur := rfl
@[simp] theorem State.setGroup_agenda (s : State) (k : Nat) (x : Group) : (s.setGroup k x).agenda = s.agenda := rfl
@[simp] theorem State.setGroup_sealed (s : State) (k : Nat) (x : Group) : (s.setGroup k x).sealed = s.sealed := rfl
@[simp] theorem State.setGroup_freeCtr (s : State) (k : Nat) (x : Group) : (s.setGroup k x).freeCtr = s.freeCtr := rfl
@[simp] theorem State.setGroup_hist (s : State) (k : Nat) (x : Group) : (s.setGroup k x).hist = s.hist := rfl
@[simp] theorem State.setGroup_histLen (s : State) (k : Nat) (x : Group) : (s.setGroup k x).histLen = s.histLen := rfl
@[simp] theorem State.setGroup_hb (s : State) (k : Nat) (x : Group) : (s.setGroup k x).hb = s.hb := rfl
@[simp] theorem State.setGroup_hostData (s : State) (k : Nat) (x : Group) : (s.setGroup k x).hostData = s.hostData := rfl
@[simp] theorem State.setGroup_clock (s : State) (k : Nat) (x : Group) : (s.setGroup k x).clock = s.clock := rfl
@[simp] theorem State.setGroup_clockLow (s : State) (k : Nat) (x : Group) : (s.setGroup k x).clockLow = s.clockLow := rfl
@[simp] theorem State.setGroup_mem (s : State) (k : Nat) (x : Group) : (s.setGroup k x).mem = s.mem := rfl
@[simp] theorem State.setGroup_poison (s : State) (k : Nat) (x : Group) : (s.setGroup k x).poison = s.poison := rfl
@[simp] theorem State.setGroup_l2poison (s : State) (k : Nat) (x : Group) : (s.setGroup k x).l2poison = s.l2poison := rfl
@[simp] theorem State.setGroup_flaws (s : State) (k : Nat) (x : Group) : (s.setGroup k x).flaws = s.flaws := rfl
@[simp] theorem State.setGroup_l2flaws (s : State) (k : Nat) (x : Group) : (s.setGroup k x).l2flaws = s.l2flaws := rfl
@[simp] theorem State.setGroup_tlbs (s : State) (k : Nat) (x : Group) : (s.setGroup k x).tlbs = s.tlbs := rfl
@[simp] theorem State.setGroup_tags (s : State) (k : Nat) (x : Group) : (s.setGroup k x).tags = s.tags := rfl
@[simp] theorem State.setGroup_regions (s : State) (k : Nat) (x : Group) : (s.setGroup k x).regions = s.regions := rfl
@[simp] theorem State.setGroup_cores (s : State) (k : Nat) (x : Group) : (s.setGroup k x).cores = s.cores := rfl
@[simp] theorem State.setGroup_groups (s : State) (k : Nat) (x : Group) : (s.setGroup k x).groups = Tab.put s.groups k x := rfl
@[simp] theorem State.setGroup_wgs (s : State) (k : Nat) (x : Group) : (s.setGroup k x).wgs = s.wgs := rfl
@[simp] theorem State.setGroup_launches (s : State) (k : Nat) (x : Group) : (s.setGroup k x).launches = s.launches := rfl
@[simp] theorem State.setGroup_ops (s : State) (k : Nat) (x : Group) : (s.setGroup k x).ops = s.ops := rfl
@[simp] theorem State.setGroup_nextId (s : State) (k : Nat) (x : Group) : (s.setGroup k x).nextId = s.nextId := rfl
@[simp] theorem State.setGroup_pend (s : State) (k : Nat) (x : Group) : (s.setGroup k x).pend = s.pend := rfl
@[simp] theorem State.setGroup_queues (s : State) (k : Nat) (x : Group) : (s.setGroup k x).queues = s.queues := rfl
@[simp] theorem State.setGroup_cmds (s : State) (k : Nat) (x : Group) : (s.setGroup k x).cmds = s.cmds := rfl
@[simp] theorem State.setGroup_graphs (s : State) (k : Nat) (x : Group) : (s.setGroup k x).graphs = s.graphs := rfl
@[simp] theorem State.setGroup_comms (s : State) (k : Nat) (x : Group) : (s.setGroup k x).comms = s.comms := rfl
@[simp] theorem State.setGroup_colls (s : State) (k : Nat) (x : Group) : (s.setGroup k x).colls = s.colls := rfl
@[simp] theorem State.setGroup_passes (s : State) (k : Nat) (x : Group) : (s.setGroup k x).passes = s.passes := rfl
@[simp] theorem State.setGroup_saves (s : State) (k : Nat) (x : Group) : (s.setGroup k x).saves = s.saves := rfl
@[simp] theorem State.setGroup_slices (s : State) (k : Nat) (x : Group) : (s.setGroup k x).slices = s.slices := rfl
@[simp] theorem State.setGroup_regionTab (s : State) (k : Nat) (x : Group) : (s.setGroup k x).regionTab = s.regionTab := rfl
@[simp] theorem State.setGroup_regionRight (s : State) (k : Nat) (x : Group) : (s.setGroup k x).regionRight = s.regionRight := rfl
@[simp] theorem State.setGroup_ports (s : State) (k : Nat) (x : Group) : (s.setGroup k x).ports = s.ports := rfl
@[simp] theorem State.setGroup_dlinks (s : State) (k : Nat) (x : Group) : (s.setGroup k x).dlinks = s.dlinks := rfl
@[simp] theorem State.setGroup_peers (s : State) (k : Nat) (x : Group) : (s.setGroup k x).peers = s.peers := rfl
@[simp] theorem State.setGroup_moduleNo (s : State) (k : Nat) (x : Group) : (s.setGroup k x).moduleNo = s.moduleNo := rfl
@[simp] theorem State.setGroup_layout (s : State) (k : Nat) (x : Group) : (s.setGroup k x).layout = s.layout := rfl
@[simp] theorem State.setGroup_bootState (s : State) (k : Nat) (x : Group) : (s.setGroup k x).bootState = s.bootState := rfl
@[simp] theorem State.setGroup_bootReason (s : State) (k : Nat) (x : Group) : (s.setGroup k x).bootReason = s.bootReason := rfl
@[simp] theorem State.setGroup_failCnt (s : State) (k : Nat) (x : Group) : (s.setGroup k x).failCnt = s.failCnt := rfl
@[simp] theorem State.setGroup_skipCheck (s : State) (k : Nat) (x : Group) : (s.setGroup k x).skipCheck = s.skipCheck := rfl
@[simp] theorem State.setGroup_apBase (s : State) (k : Nat) (x : Group) : (s.setGroup k x).apBase = s.apBase := rfl
@[simp] theorem State.setGroup_apTier (s : State) (k : Nat) (x : Group) : (s.setGroup k x).apTier = s.apTier := rfl
@[simp] theorem State.setGroup_irqStat (s : State) (k : Nat) (x : Group) : (s.setGroup k x).irqStat = s.irqStat := rfl
@[simp] theorem State.setGroup_errLog (s : State) (k : Nat) (x : Group) : (s.setGroup k x).errLog = s.errLog := rfl
@[simp] theorem State.setGroup_flashWe (s : State) (k : Nat) (x : Group) : (s.setGroup k x).flashWe = s.flashWe := rfl
@[simp] theorem State.setGroup_flashBusy (s : State) (k : Nat) (x : Group) : (s.setGroup k x).flashBusy = s.flashBusy := rfl
@[simp] theorem State.setGroup_temp (s : State) (k : Nat) (x : Group) : (s.setGroup k x).temp = s.temp := rfl
@[simp] theorem State.setGroup_pwr (s : State) (k : Nat) (x : Group) : (s.setGroup k x).pwr = s.pwr := rfl
@[simp] theorem State.setGroup_ceCnt (s : State) (k : Nat) (x : Group) : (s.setGroup k x).ceCnt = s.ceCnt := rfl
@[simp] theorem State.setGroup_ceThr (s : State) (k : Nat) (x : Group) : (s.setGroup k x).ceThr = s.ceThr := rfl
@[simp] theorem State.setGroup_ueAddr (s : State) (k : Nat) (x : Group) : (s.setGroup k x).ueAddr = s.ueAddr := rfl
@[simp] theorem State.setGroup_ueStat (s : State) (k : Nat) (x : Group) : (s.setGroup k x).ueStat = s.ueStat := rfl
@[simp] theorem State.setGroup_linkDown (s : State) (k : Nat) (x : Group) : (s.setGroup k x).linkDown = s.linkDown := rfl
@[simp] theorem State.setGroup_byte (s : State) (k : Nat) (x : Group) (j : Nat) : (s.setGroup k x).byte j = s.byte j := rfl
@[simp] theorem State.setGroup_poisoned (s : State) (k : Nat) (x : Group) (j : Nat) : (s.setGroup k x).poisoned j = s.poisoned j := rfl
@[simp] theorem State.setGroup_core (s : State) (k : Nat) (x : Group) (j : Nat) : (s.setGroup k x).core j = s.core j := rfl
@[simp] theorem State.setGroup_queue (s : State) (k : Nat) (x : Group) (j : Nat) : (s.setGroup k x).queue j = s.queue j := rfl
@[simp] theorem State.setGroup_port (s : State) (k : Nat) (x : Group) (j : Nat) : (s.setGroup k x).port j = s.port j := rfl
@[simp] theorem State.setGroup_dlink (s : State) (k : Nat) (x : Group) (j : Nat) : (s.setGroup k x).dlink j = s.dlink j := rfl
@[simp] theorem State.setGroup_wgOf (s : State) (k : Nat) (x : Group) (j : Nat) : (s.setGroup k x).wg? j = s.wg? j := rfl
@[simp] theorem State.setGroup_launchOf (s : State) (k : Nat) (x : Group) (j : Nat) : (s.setGroup k x).launch? j = s.launch? j := rfl
@[simp] theorem State.setGroup_slice (s : State) (k : Nat) (x : Group) (j : Nat) : (s.setGroup k x).slice j = s.slice j := rfl
@[simp] theorem State.setGroup_region (s : State) (k : Nat) (x : Group) (j : Nat) : (s.setGroup k x).region j = s.region j := rfl
@[simp] theorem State.setGroup_opOf (s : State) (k : Nat) (x : Group) (j : Nat) : (s.setGroup k x).op? j = s.op? j := rfl

/-! ### modGroup -/

@[simp] theorem State.modGroup_cur (s : State) (k : Nat) (f : Group → Group) : (s.modGroup k f).cur = s.cur := rfl
@[simp] theorem State.modGroup_agenda (s : State) (k : Nat) (f : Group → Group) : (s.modGroup k f).agenda = s.agenda := rfl
@[simp] theorem State.modGroup_sealed (s : State) (k : Nat) (f : Group → Group) : (s.modGroup k f).sealed = s.sealed := rfl
@[simp] theorem State.modGroup_freeCtr (s : State) (k : Nat) (f : Group → Group) : (s.modGroup k f).freeCtr = s.freeCtr := rfl
@[simp] theorem State.modGroup_hist (s : State) (k : Nat) (f : Group → Group) : (s.modGroup k f).hist = s.hist := rfl
@[simp] theorem State.modGroup_histLen (s : State) (k : Nat) (f : Group → Group) : (s.modGroup k f).histLen = s.histLen := rfl
@[simp] theorem State.modGroup_hb (s : State) (k : Nat) (f : Group → Group) : (s.modGroup k f).hb = s.hb := rfl
@[simp] theorem State.modGroup_hostData (s : State) (k : Nat) (f : Group → Group) : (s.modGroup k f).hostData = s.hostData := rfl
@[simp] theorem State.modGroup_clock (s : State) (k : Nat) (f : Group → Group) : (s.modGroup k f).clock = s.clock := rfl
@[simp] theorem State.modGroup_clockLow (s : State) (k : Nat) (f : Group → Group) : (s.modGroup k f).clockLow = s.clockLow := rfl
@[simp] theorem State.modGroup_mem (s : State) (k : Nat) (f : Group → Group) : (s.modGroup k f).mem = s.mem := rfl
@[simp] theorem State.modGroup_poison (s : State) (k : Nat) (f : Group → Group) : (s.modGroup k f).poison = s.poison := rfl
@[simp] theorem State.modGroup_l2poison (s : State) (k : Nat) (f : Group → Group) : (s.modGroup k f).l2poison = s.l2poison := rfl
@[simp] theorem State.modGroup_flaws (s : State) (k : Nat) (f : Group → Group) : (s.modGroup k f).flaws = s.flaws := rfl
@[simp] theorem State.modGroup_l2flaws (s : State) (k : Nat) (f : Group → Group) : (s.modGroup k f).l2flaws = s.l2flaws := rfl
@[simp] theorem State.modGroup_tlbs (s : State) (k : Nat) (f : Group → Group) : (s.modGroup k f).tlbs = s.tlbs := rfl
@[simp] theorem State.modGroup_tags (s : State) (k : Nat) (f : Group → Group) : (s.modGroup k f).tags = s.tags := rfl
@[simp] theorem State.modGroup_regions (s : State) (k : Nat) (f : Group → Group) : (s.modGroup k f).regions = s.regions := rfl
@[simp] theorem State.modGroup_cores (s : State) (k : Nat) (f : Group → Group) : (s.modGroup k f).cores = s.cores := rfl
@[simp] theorem State.modGroup_groups (s : State) (k : Nat) (f : Group → Group) : (s.modGroup k f).groups = Tab.modify s.groups k f := rfl
@[simp] theorem State.modGroup_wgs (s : State) (k : Nat) (f : Group → Group) : (s.modGroup k f).wgs = s.wgs := rfl
@[simp] theorem State.modGroup_launches (s : State) (k : Nat) (f : Group → Group) : (s.modGroup k f).launches = s.launches := rfl
@[simp] theorem State.modGroup_ops (s : State) (k : Nat) (f : Group → Group) : (s.modGroup k f).ops = s.ops := rfl
@[simp] theorem State.modGroup_nextId (s : State) (k : Nat) (f : Group → Group) : (s.modGroup k f).nextId = s.nextId := rfl
@[simp] theorem State.modGroup_pend (s : State) (k : Nat) (f : Group → Group) : (s.modGroup k f).pend = s.pend := rfl
@[simp] theorem State.modGroup_queues (s : State) (k : Nat) (f : Group → Group) : (s.modGroup k f).queues = s.queues := rfl
@[simp] theorem State.modGroup_cmds (s : State) (k : Nat) (f : Group → Group) : (s.modGroup k f).cmds = s.cmds := rfl
@[simp] theorem State.modGroup_graphs (s : State) (k : Nat) (f : Group → Group) : (s.modGroup k f).graphs = s.graphs := rfl
@[simp] theorem State.modGroup_comms (s : State) (k : Nat) (f : Group → Group) : (s.modGroup k f).comms = s.comms := rfl
@[simp] theorem State.modGroup_colls (s : State) (k : Nat) (f : Group → Group) : (s.modGroup k f).colls = s.colls := rfl
@[simp] theorem State.modGroup_passes (s : State) (k : Nat) (f : Group → Group) : (s.modGroup k f).passes = s.passes := rfl
@[simp] theorem State.modGroup_saves (s : State) (k : Nat) (f : Group → Group) : (s.modGroup k f).saves = s.saves := rfl
@[simp] theorem State.modGroup_slices (s : State) (k : Nat) (f : Group → Group) : (s.modGroup k f).slices = s.slices := rfl
@[simp] theorem State.modGroup_regionTab (s : State) (k : Nat) (f : Group → Group) : (s.modGroup k f).regionTab = s.regionTab := rfl
@[simp] theorem State.modGroup_regionRight (s : State) (k : Nat) (f : Group → Group) : (s.modGroup k f).regionRight = s.regionRight := rfl
@[simp] theorem State.modGroup_ports (s : State) (k : Nat) (f : Group → Group) : (s.modGroup k f).ports = s.ports := rfl
@[simp] theorem State.modGroup_dlinks (s : State) (k : Nat) (f : Group → Group) : (s.modGroup k f).dlinks = s.dlinks := rfl
@[simp] theorem State.modGroup_peers (s : State) (k : Nat) (f : Group → Group) : (s.modGroup k f).peers = s.peers := rfl
@[simp] theorem State.modGroup_moduleNo (s : State) (k : Nat) (f : Group → Group) : (s.modGroup k f).moduleNo = s.moduleNo := rfl
@[simp] theorem State.modGroup_layout (s : State) (k : Nat) (f : Group → Group) : (s.modGroup k f).layout = s.layout := rfl
@[simp] theorem State.modGroup_bootState (s : State) (k : Nat) (f : Group → Group) : (s.modGroup k f).bootState = s.bootState := rfl
@[simp] theorem State.modGroup_bootReason (s : State) (k : Nat) (f : Group → Group) : (s.modGroup k f).bootReason = s.bootReason := rfl
@[simp] theorem State.modGroup_failCnt (s : State) (k : Nat) (f : Group → Group) : (s.modGroup k f).failCnt = s.failCnt := rfl
@[simp] theorem State.modGroup_skipCheck (s : State) (k : Nat) (f : Group → Group) : (s.modGroup k f).skipCheck = s.skipCheck := rfl
@[simp] theorem State.modGroup_apBase (s : State) (k : Nat) (f : Group → Group) : (s.modGroup k f).apBase = s.apBase := rfl
@[simp] theorem State.modGroup_apTier (s : State) (k : Nat) (f : Group → Group) : (s.modGroup k f).apTier = s.apTier := rfl
@[simp] theorem State.modGroup_irqStat (s : State) (k : Nat) (f : Group → Group) : (s.modGroup k f).irqStat = s.irqStat := rfl
@[simp] theorem State.modGroup_errLog (s : State) (k : Nat) (f : Group → Group) : (s.modGroup k f).errLog = s.errLog := rfl
@[simp] theorem State.modGroup_flashWe (s : State) (k : Nat) (f : Group → Group) : (s.modGroup k f).flashWe = s.flashWe := rfl
@[simp] theorem State.modGroup_flashBusy (s : State) (k : Nat) (f : Group → Group) : (s.modGroup k f).flashBusy = s.flashBusy := rfl
@[simp] theorem State.modGroup_temp (s : State) (k : Nat) (f : Group → Group) : (s.modGroup k f).temp = s.temp := rfl
@[simp] theorem State.modGroup_pwr (s : State) (k : Nat) (f : Group → Group) : (s.modGroup k f).pwr = s.pwr := rfl
@[simp] theorem State.modGroup_ceCnt (s : State) (k : Nat) (f : Group → Group) : (s.modGroup k f).ceCnt = s.ceCnt := rfl
@[simp] theorem State.modGroup_ceThr (s : State) (k : Nat) (f : Group → Group) : (s.modGroup k f).ceThr = s.ceThr := rfl
@[simp] theorem State.modGroup_ueAddr (s : State) (k : Nat) (f : Group → Group) : (s.modGroup k f).ueAddr = s.ueAddr := rfl
@[simp] theorem State.modGroup_ueStat (s : State) (k : Nat) (f : Group → Group) : (s.modGroup k f).ueStat = s.ueStat := rfl
@[simp] theorem State.modGroup_linkDown (s : State) (k : Nat) (f : Group → Group) : (s.modGroup k f).linkDown = s.linkDown := rfl
@[simp] theorem State.modGroup_byte (s : State) (k : Nat) (f : Group → Group) (j : Nat) : (s.modGroup k f).byte j = s.byte j := rfl
@[simp] theorem State.modGroup_poisoned (s : State) (k : Nat) (f : Group → Group) (j : Nat) : (s.modGroup k f).poisoned j = s.poisoned j := rfl
@[simp] theorem State.modGroup_core (s : State) (k : Nat) (f : Group → Group) (j : Nat) : (s.modGroup k f).core j = s.core j := rfl
@[simp] theorem State.modGroup_queue (s : State) (k : Nat) (f : Group → Group) (j : Nat) : (s.modGroup k f).queue j = s.queue j := rfl
@[simp] theorem State.modGroup_port (s : State) (k : Nat) (f : Group → Group) (j : Nat) : (s.modGroup k f).port j = s.port j := rfl
@[simp] theorem State.modGroup_dlink (s : State) (k : Nat) (f : Group → Group) (j : Nat) : (s.modGroup k f).dlink j = s.dlink j := rfl
@[simp] theorem State.modGroup_wgOf (s : State) (k : Nat) (f : Group → Group) (j : Nat) : (s.modGroup k f).wg? j = s.wg? j := rfl
@[simp] theorem State.modGroup_launchOf (s : State) (k : Nat) (f : Group → Group) (j : Nat) : (s.modGroup k f).launch? j = s.launch? j := rfl
@[simp] theorem State.modGroup_slice (s : State) (k : Nat) (f : Group → Group) (j : Nat) : (s.modGroup k f).slice j = s.slice j := rfl
@[simp] theorem State.modGroup_region (s : State) (k : Nat) (f : Group → Group) (j : Nat) : (s.modGroup k f).region j = s.region j := rfl
@[simp] theorem State.modGroup_opOf (s : State) (k : Nat) (f : Group → Group) (j : Nat) : (s.modGroup k f).op? j = s.op? j := rfl

/-! ### modWg -/

@[simp] theorem State.modWg_cur (s : State) (w : Nat) (f : Wg → Wg) : (s.modWg w f).cur = s.cur := rfl
@[simp] theorem State.modWg_agenda (s : State) (w : Nat) (f : Wg → Wg) : (s.modWg w f).agenda = s.agenda := rfl
@[simp] theorem State.modWg_sealed (s : State) (w : Nat) (f : Wg → Wg) : (s.modWg w f).sealed = s.sealed := rfl
@[simp] theorem State.modWg_freeCtr (s : State) (w : Nat) (f : Wg → Wg) : (s.modWg w f).freeCtr = s.freeCtr := rfl
@[simp] theorem State.modWg_hist (s : State) (w : Nat) (f : Wg → Wg) : (s.modWg w f).hist = s.hist := rfl
@[simp] theorem State.modWg_histLen (s : State) (w : Nat) (f : Wg → Wg) : (s.modWg w f).histLen = s.histLen := rfl
@[simp] theorem State.modWg_hb (s : State) (w : Nat) (f : Wg → Wg) : (s.modWg w f).hb = s.hb := rfl
@[simp] theorem State.modWg_hostData (s : State) (w : Nat) (f : Wg → Wg) : (s.modWg w f).hostData = s.hostData := rfl
@[simp] theorem State.modWg_clock (s : State) (w : Nat) (f : Wg → Wg) : (s.modWg w f).clock = s.clock := rfl
@[simp] theorem State.modWg_clockLow (s : State) (w : Nat) (f : Wg → Wg) : (s.modWg w f).clockLow = s.clockLow := rfl
@[simp] theorem State.modWg_mem (s : State) (w : Nat) (f : Wg → Wg) : (s.modWg w f).mem = s.mem := rfl
@[simp] theorem State.modWg_poison (s : State) (w : Nat) (f : Wg → Wg) : (s.modWg w f).poison = s.poison := rfl
@[simp] theorem State.modWg_l2poison (s : State) (w : Nat) (f : Wg → Wg) : (s.modWg w f).l2poison = s.l2poison := rfl
@[simp] theorem State.modWg_flaws (s : State) (w : Nat) (f : Wg → Wg) : (s.modWg w f).flaws = s.flaws := rfl
@[simp] theorem State.modWg_l2flaws (s : State) (w : Nat) (f : Wg → Wg) : (s.modWg w f).l2flaws = s.l2flaws := rfl
@[simp] theorem State.modWg_tlbs (s : State) (w : Nat) (f : Wg → Wg) : (s.modWg w f).tlbs = s.tlbs := rfl
@[simp] theorem State.modWg_tags (s : State) (w : Nat) (f : Wg → Wg) : (s.modWg w f).tags = s.tags := rfl
@[simp] theorem State.modWg_regions (s : State) (w : Nat) (f : Wg → Wg) : (s.modWg w f).regions = s.regions := rfl
@[simp] theorem State.modWg_cores (s : State) (w : Nat) (f : Wg → Wg) : (s.modWg w f).cores = s.cores := rfl
@[simp] theorem State.modWg_groups (s : State) (w : Nat) (f : Wg → Wg) : (s.modWg w f).groups = s.groups := rfl
@[simp] theorem State.modWg_wgs (s : State) (w : Nat) (f : Wg → Wg) : (s.modWg w f).wgs = Tab.modify s.wgs w f := rfl
@[simp] theorem State.modWg_launches (s : State) (w : Nat) (f : Wg → Wg) : (s.modWg w f).launches = s.launches := rfl
@[simp] theorem State.modWg_ops (s : State) (w : Nat) (f : Wg → Wg) : (s.modWg w f).ops = s.ops := rfl
@[simp] theorem State.modWg_nextId (s : State) (w : Nat) (f : Wg → Wg) : (s.modWg w f).nextId = s.nextId := rfl
@[simp] theorem State.modWg_pend (s : State) (w : Nat) (f : Wg → Wg) : (s.modWg w f).pend = s.pend := rfl
@[simp] theorem State.modWg_queues (s : State) (w : Nat) (f : Wg → Wg) : (s.modWg w f).queues = s.queues := rfl
@[simp] theorem State.modWg_cmds (s : State) (w : Nat) (f : Wg → Wg) : (s.modWg w f).cmds = s.cmds := rfl
@[simp] theorem State.modWg_graphs (s : State) (w : Nat) (f : Wg → Wg) : (s.modWg w f).graphs = s.graphs := rfl
@[simp] theorem State.modWg_comms (s : State) (w : Nat) (f : Wg → Wg) : (s.modWg w f).comms = s.comms := rfl
@[simp] theorem State.modWg_colls (s : State) (w : Nat) (f : Wg → Wg) : (s.modWg w f).colls = s.colls := rfl
@[simp] theorem State.modWg_passes (s : State) (w : Nat) (f : Wg → Wg) : (s.modWg w f).passes = s.passes := rfl
@[simp] theorem State.modWg_saves (s : State) (w : Nat) (f : Wg → Wg) : (s.modWg w f).saves = s.saves := rfl
@[simp] theorem State.modWg_slices (s : State) (w : Nat) (f : Wg → Wg) : (s.modWg w f).slices = s.slices := rfl
@[simp] theorem State.modWg_regionTab (s : State) (w : Nat) (f : Wg → Wg) : (s.modWg w f).regionTab = s.regionTab := rfl
@[simp] theorem State.modWg_regionRight (s : State) (w : Nat) (f : Wg → Wg) : (s.modWg w f).regionRight = s.regionRight := rfl
@[simp] theorem State.modWg_ports (s : State) (w : Nat) (f : Wg → Wg) : (s.modWg w f).ports = s.ports := rfl
@[simp] theorem State.modWg_dlinks (s : State) (w : Nat) (f : Wg → Wg) : (s.modWg w f).dlinks = s.dlinks := rfl
@[simp] theorem State.modWg_peers (s : State) (w : Nat) (f : Wg → Wg) : (s.modWg w f).peers = s.peers := rfl
@[simp] theorem State.modWg_moduleNo (s : State) (w : Nat) (f : Wg → Wg) : (s.modWg w f).moduleNo = s.moduleNo := rfl
@[simp] theorem State.modWg_layout (s : State) (w : Nat) (f : Wg → Wg) : (s.modWg w f).layout = s.layout := rfl
@[simp] theorem State.modWg_bootState (s : State) (w : Nat) (f : Wg → Wg) : (s.modWg w f).bootState = s.bootState := rfl
@[simp] theorem State.modWg_bootReason (s : State) (w : Nat) (f : Wg → Wg) : (s.modWg w f).bootReason = s.bootReason := rfl
@[simp] theorem State.modWg_failCnt (s : State) (w : Nat) (f : Wg → Wg) : (s.modWg w f).failCnt = s.failCnt := rfl
@[simp] theorem State.modWg_skipCheck (s : State) (w : Nat) (f : Wg → Wg) : (s.modWg w f).skipCheck = s.skipCheck := rfl
@[simp] theorem State.modWg_apBase (s : State) (w : Nat) (f : Wg → Wg) : (s.modWg w f).apBase = s.apBase := rfl
@[simp] theorem State.modWg_apTier (s : State) (w : Nat) (f : Wg → Wg) : (s.modWg w f).apTier = s.apTier := rfl
@[simp] theorem State.modWg_irqStat (s : State) (w : Nat) (f : Wg → Wg) : (s.modWg w f).irqStat = s.irqStat := rfl
@[simp] theorem State.modWg_errLog (s : State) (w : Nat) (f : Wg → Wg) : (s.modWg w f).errLog = s.errLog := rfl
@[simp] theorem State.modWg_flashWe (s : State) (w : Nat) (f : Wg → Wg) : (s.modWg w f).flashWe = s.flashWe := rfl
@[simp] theorem State.modWg_flashBusy (s : State) (w : Nat) (f : Wg → Wg) : (s.modWg w f).flashBusy = s.flashBusy := rfl
@[simp] theorem State.modWg_temp (s : State) (w : Nat) (f : Wg → Wg) : (s.modWg w f).temp = s.temp := rfl
@[simp] theorem State.modWg_pwr (s : State) (w : Nat) (f : Wg → Wg) : (s.modWg w f).pwr = s.pwr := rfl
@[simp] theorem State.modWg_ceCnt (s : State) (w : Nat) (f : Wg → Wg) : (s.modWg w f).ceCnt = s.ceCnt := rfl
@[simp] theorem State.modWg_ceThr (s : State) (w : Nat) (f : Wg → Wg) : (s.modWg w f).ceThr = s.ceThr := rfl
@[simp] theorem State.modWg_ueAddr (s : State) (w : Nat) (f : Wg → Wg) : (s.modWg w f).ueAddr = s.ueAddr := rfl
@[simp] theorem State.modWg_ueStat (s : State) (w : Nat) (f : Wg → Wg) : (s.modWg w f).ueStat = s.ueStat := rfl
@[simp] theorem State.modWg_linkDown (s : State) (w : Nat) (f : Wg → Wg) : (s.modWg w f).linkDown = s.linkDown := rfl
@[simp] theorem State.modWg_byte (s : State) (w : Nat) (f : Wg → Wg) (j : Nat) : (s.modWg w f).byte j = s.byte j := rfl
@[simp] theorem State.modWg_poisoned (s : State) (w : Nat) (f : Wg → Wg) (j : Nat) : (s.modWg w f).poisoned j = s.poisoned j := rfl
@[simp] theorem State.modWg_core (s : State) (w : Nat) (f : Wg → Wg) (j : Nat) : (s.modWg w f).core j = s.core j := rfl
@[simp] theorem State.modWg_queue (s : State) (w : Nat) (f : Wg → Wg) (j : Nat) : (s.modWg w f).queue j = s.queue j := rfl
@[simp] theorem State.modWg_port (s : State) (w : Nat) (f : Wg → Wg) (j : Nat) : (s.modWg w f).port j = s.port j := rfl
@[simp] theorem State.modWg_dlink (s : State) (w : Nat) (f : Wg → Wg) (j : Nat) : (s.modWg w f).dlink j = s.dlink j := rfl
@[simp] theorem State.modWg_groupOf (s : State) (w : Nat) (f : Wg → Wg) (j : Nat) : (s.modWg w f).group? j = s.group? j := rfl
@[simp] theorem State.modWg_launchOf (s : State) (w : Nat) (f : Wg → Wg) (j : Nat) : (s.modWg w f).launch? j = s.launch? j := rfl
@[simp] theorem State.modWg_slice (s : State) (w : Nat) (f : Wg → Wg) (j : Nat) : (s.modWg w f).slice j = s.slice j := rfl
@[simp] theorem State.modWg_region (s : State) (w : Nat) (f : Wg → Wg) (j : Nat) : (s.modWg w f).region j = s.region j := rfl
@[simp] theorem State.modWg_opOf (s : State) (w : Nat) (f : Wg → Wg) (j : Nat) : (s.modWg w f).op? j = s.op? j := rfl

/-! ### modLaunch -/

@[simp] theorem State.modLaunch_cur (s : State) (l : Nat) (f : Launch → Launch) : (s.modLaunch l f).cur = s.cur := rfl
@[simp] theorem State.modLaunch_agenda (s : State) (l : Nat) (f : Launch → Launch) : (s.modLaunch l f).agenda = s.agenda := rfl
@[simp] theorem State.modLaunch_sealed (s : State) (l : Nat) (f : Launch → Launch) : (s.modLaunch l f).sealed = s.sealed := rfl
@[simp] theorem State.modLaunch_freeCtr (s : State) (l : Nat) (f : Launch → Launch) : (s.modLaunch l f).freeCtr = s.freeCtr := rfl
@[simp] theorem State.modLaunch_hist (s : State) (l : Nat) (f : Launch → Launch) : (s.modLaunch l f).hist = s.hist := rfl
@[simp] theorem State.modLaunch_histLen (s : State) (l : Nat) (f : Launch → Launch) : (s.modLaunch l f).histLen = s.histLen := rfl
@[simp] theorem State.modLaunch_hb (s : State) (l : Nat) (f : Launch → Launch) : (s.modLaunch l f).hb = s.hb := rfl
@[simp] theorem State.modLaunch_hostData (s : State) (l : Nat) (f : Launch → Launch) : (s.modLaunch l f).hostData = s.hostData := rfl
@[simp] theorem State.modLaunch_clock (s : State) (l : Nat) (f : Launch → Launch) : (s.modLaunch l f).clock = s.clock := rfl
@[simp] theorem State.modLaunch_clockLow (s : State) (l : Nat) (f : Launch → Launch) : (s.modLaunch l f).clockLow = s.clockLow := rfl
@[simp] theorem State.modLaunch_mem (s : State) (l : Nat) (f : Launch → Launch) : (s.modLaunch l f).mem = s.mem := rfl
@[simp] theorem State.modLaunch_poison (s : State) (l : Nat) (f : Launch → Launch) : (s.modLaunch l f).poison = s.poison := rfl
@[simp] theorem State.modLaunch_l2poison (s : State) (l : Nat) (f : Launch → Launch) : (s.modLaunch l f).l2poison = s.l2poison := rfl
@[simp] theorem State.modLaunch_flaws (s : State) (l : Nat) (f : Launch → Launch) : (s.modLaunch l f).flaws = s.flaws := rfl
@[simp] theorem State.modLaunch_l2flaws (s : State) (l : Nat) (f : Launch → Launch) : (s.modLaunch l f).l2flaws = s.l2flaws := rfl
@[simp] theorem State.modLaunch_tlbs (s : State) (l : Nat) (f : Launch → Launch) : (s.modLaunch l f).tlbs = s.tlbs := rfl
@[simp] theorem State.modLaunch_tags (s : State) (l : Nat) (f : Launch → Launch) : (s.modLaunch l f).tags = s.tags := rfl
@[simp] theorem State.modLaunch_regions (s : State) (l : Nat) (f : Launch → Launch) : (s.modLaunch l f).regions = s.regions := rfl
@[simp] theorem State.modLaunch_cores (s : State) (l : Nat) (f : Launch → Launch) : (s.modLaunch l f).cores = s.cores := rfl
@[simp] theorem State.modLaunch_groups (s : State) (l : Nat) (f : Launch → Launch) : (s.modLaunch l f).groups = s.groups := rfl
@[simp] theorem State.modLaunch_wgs (s : State) (l : Nat) (f : Launch → Launch) : (s.modLaunch l f).wgs = s.wgs := rfl
@[simp] theorem State.modLaunch_launches (s : State) (l : Nat) (f : Launch → Launch) : (s.modLaunch l f).launches = Tab.modify s.launches l f := rfl
@[simp] theorem State.modLaunch_ops (s : State) (l : Nat) (f : Launch → Launch) : (s.modLaunch l f).ops = s.ops := rfl
@[simp] theorem State.modLaunch_nextId (s : State) (l : Nat) (f : Launch → Launch) : (s.modLaunch l f).nextId = s.nextId := rfl
@[simp] theorem State.modLaunch_pend (s : State) (l : Nat) (f : Launch → Launch) : (s.modLaunch l f).pend = s.pend := rfl
@[simp] theorem State.modLaunch_queues (s : State) (l : Nat) (f : Launch → Launch) : (s.modLaunch l f).queues = s.queues := rfl
@[simp] theorem State.modLaunch_cmds (s : State) (l : Nat) (f : Launch → Launch) : (s.modLaunch l f).cmds = s.cmds := rfl
@[simp] theorem State.modLaunch_graphs (s : State) (l : Nat) (f : Launch → Launch) : (s.modLaunch l f).graphs = s.graphs := rfl
@[simp] theorem State.modLaunch_comms (s : State) (l : Nat) (f : Launch → Launch) : (s.modLaunch l f).comms = s.comms := rfl
@[simp] theorem State.modLaunch_colls (s : State) (l : Nat) (f : Launch → Launch) : (s.modLaunch l f).colls = s.colls := rfl
@[simp] theorem State.modLaunch_passes (s : State) (l : Nat) (f : Launch → Launch) : (s.modLaunch l f).passes = s.passes := rfl
@[simp] theorem State.modLaunch_saves (s : State) (l : Nat) (f : Launch → Launch) : (s.modLaunch l f).saves = s.saves := rfl
@[simp] theorem State.modLaunch_slices (s : State) (l : Nat) (f : Launch → Launch) : (s.modLaunch l f).slices = s.slices := rfl
@[simp] theorem State.modLaunch_regionTab (s : State) (l : Nat) (f : Launch → Launch) : (s.modLaunch l f).regionTab = s.regionTab := rfl
@[simp] theorem State.modLaunch_regionRight (s : State) (l : Nat) (f : Launch → Launch) : (s.modLaunch l f).regionRight = s.regionRight := rfl
@[simp] theorem State.modLaunch_ports (s : State) (l : Nat) (f : Launch → Launch) : (s.modLaunch l f).ports = s.ports := rfl
@[simp] theorem State.modLaunch_dlinks (s : State) (l : Nat) (f : Launch → Launch) : (s.modLaunch l f).dlinks = s.dlinks := rfl
@[simp] theorem State.modLaunch_peers (s : State) (l : Nat) (f : Launch → Launch) : (s.modLaunch l f).peers = s.peers := rfl
@[simp] theorem State.modLaunch_moduleNo (s : State) (l : Nat) (f : Launch → Launch) : (s.modLaunch l f).moduleNo = s.moduleNo := rfl
@[simp] theorem State.modLaunch_layout (s : State) (l : Nat) (f : Launch → Launch) : (s.modLaunch l f).layout = s.layout := rfl
@[simp] theorem State.modLaunch_bootState (s : State) (l : Nat) (f : Launch → Launch) : (s.modLaunch l f).bootState = s.bootState := rfl
@[simp] theorem State.modLaunch_bootReason (s : State) (l : Nat) (f : Launch → Launch) : (s.modLaunch l f).bootReason = s.bootReason := rfl
@[simp] theorem State.modLaunch_failCnt (s : State) (l : Nat) (f : Launch → Launch) : (s.modLaunch l f).failCnt = s.failCnt := rfl
@[simp] theorem State.modLaunch_skipCheck (s : State) (l : Nat) (f : Launch → Launch) : (s.modLaunch l f).skipCheck = s.skipCheck := rfl
@[simp] theorem State.modLaunch_apBase (s : State) (l : Nat) (f : Launch → Launch) : (s.modLaunch l f).apBase = s.apBase := rfl
@[simp] theorem State.modLaunch_apTier (s : State) (l : Nat) (f : Launch → Launch) : (s.modLaunch l f).apTier = s.apTier := rfl
@[simp] theorem State.modLaunch_irqStat (s : State) (l : Nat) (f : Launch → Launch) : (s.modLaunch l f).irqStat = s.irqStat := rfl
@[simp] theorem State.modLaunch_errLog (s : State) (l : Nat) (f : Launch → Launch) : (s.modLaunch l f).errLog = s.errLog := rfl
@[simp] theorem State.modLaunch_flashWe (s : State) (l : Nat) (f : Launch → Launch) : (s.modLaunch l f).flashWe = s.flashWe := rfl
@[simp] theorem State.modLaunch_flashBusy (s : State) (l : Nat) (f : Launch → Launch) : (s.modLaunch l f).flashBusy = s.flashBusy := rfl
@[simp] theorem State.modLaunch_temp (s : State) (l : Nat) (f : Launch → Launch) : (s.modLaunch l f).temp = s.temp := rfl
@[simp] theorem State.modLaunch_pwr (s : State) (l : Nat) (f : Launch → Launch) : (s.modLaunch l f).pwr = s.pwr := rfl
@[simp] theorem State.modLaunch_ceCnt (s : State) (l : Nat) (f : Launch → Launch) : (s.modLaunch l f).ceCnt = s.ceCnt := rfl
@[simp] theorem State.modLaunch_ceThr (s : State) (l : Nat) (f : Launch → Launch) : (s.modLaunch l f).ceThr = s.ceThr := rfl
@[simp] theorem State.modLaunch_ueAddr (s : State) (l : Nat) (f : Launch → Launch) : (s.modLaunch l f).ueAddr = s.ueAddr := rfl
@[simp] theorem State.modLaunch_ueStat (s : State) (l : Nat) (f : Launch → Launch) : (s.modLaunch l f).ueStat = s.ueStat := rfl
@[simp] theorem State.modLaunch_linkDown (s : State) (l : Nat) (f : Launch → Launch) : (s.modLaunch l f).linkDown = s.linkDown := rfl
@[simp] theorem State.modLaunch_byte (s : State) (l : Nat) (f : Launch → Launch) (j : Nat) : (s.modLaunch l f).byte j = s.byte j := rfl
@[simp] theorem State.modLaunch_poisoned (s : State) (l : Nat) (f : Launch → Launch) (j : Nat) : (s.modLaunch l f).poisoned j = s.poisoned j := rfl
@[simp] theorem State.modLaunch_core (s : State) (l : Nat) (f : Launch → Launch) (j : Nat) : (s.modLaunch l f).core j = s.core j := rfl
@[simp] theorem State.modLaunch_queue (s : State) (l : Nat) (f : Launch → Launch) (j : Nat) : (s.modLaunch l f).queue j = s.queue j := rfl
@[simp] theorem State.modLaunch_port (s : State) (l : Nat) (f : Launch → Launch) (j : Nat) : (s.modLaunch l f).port j = s.port j := rfl
@[simp] theorem State.modLaunch_dlink (s : State) (l : Nat) (f : Launch → Launch) (j : Nat) : (s.modLaunch l f).dlink j = s.dlink j := rfl
@[simp] theorem State.modLaunch_groupOf (s : State) (l : Nat) (f : Launch → Launch) (j : Nat) : (s.modLaunch l f).group? j = s.group? j := rfl
@[simp] theorem State.modLaunch_wgOf (s : State) (l : Nat) (f : Launch → Launch) (j : Nat) : (s.modLaunch l f).wg? j = s.wg? j := rfl
@[simp] theorem State.modLaunch_slice (s : State) (l : Nat) (f : Launch → Launch) (j : Nat) : (s.modLaunch l f).slice j = s.slice j := rfl
@[simp] theorem State.modLaunch_region (s : State) (l : Nat) (f : Launch → Launch) (j : Nat) : (s.modLaunch l f).region j = s.region j := rfl
@[simp] theorem State.modLaunch_opOf (s : State) (l : Nat) (f : Launch → Launch) (j : Nat) : (s.modLaunch l f).op? j = s.op? j := rfl

/-! ### modSlice -/

@[simp] theorem State.modSlice_cur (s : State) (n : Nat) (f : Slice → Slice) : (s.modSlice n f).cur = s.cur := rfl
@[simp] theorem State.modSlice_agenda (s : State) (n : Nat) (f : Slice → Slice) : (s.modSlice n f).agenda = s.agenda := rfl
@[simp] theorem State.modSlice_sealed (s : State) (n : Nat) (f : Slice → Slice) : (s.modSlice n f).sealed = s.sealed := rfl
@[simp] theorem State.modSlice_freeCtr (s : State) (n : Nat) (f : Slice → Slice) : (s.modSlice n f).freeCtr = s.freeCtr := rfl
@[simp] theorem State.modSlice_hist (s : State) (n : Nat) (f : Slice → Slice) : (s.modSlice n f).hist = s.hist := rfl
@[simp] theorem State.modSlice_histLen (s : State) (n : Nat) (f : Slice → Slice) : (s.modSlice n f).histLen = s.histLen := rfl
@[simp] theorem State.modSlice_hb (s : State) (n : Nat) (f : Slice → Slice) : (s.modSlice n f).hb = s.hb := rfl
@[simp] theorem State.modSlice_hostData (s : State) (n : Nat) (f : Slice → Slice) : (s.modSlice n f).hostData = s.hostData := rfl
@[simp] theorem State.modSlice_clock (s : State) (n : Nat) (f : Slice → Slice) : (s.modSlice n f).clock = s.clock := rfl
@[simp] theorem State.modSlice_clockLow (s : State) (n : Nat) (f : Slice → Slice) : (s.modSlice n f).clockLow = s.clockLow := rfl
@[simp] theorem State.modSlice_mem (s : State) (n : Nat) (f : Slice → Slice) : (s.modSlice n f).mem = s.mem := rfl
@[simp] theorem State.modSlice_poison (s : State) (n : Nat) (f : Slice → Slice) : (s.modSlice n f).poison = s.poison := rfl
@[simp] theorem State.modSlice_l2poison (s : State) (n : Nat) (f : Slice → Slice) : (s.modSlice n f).l2poison = s.l2poison := rfl
@[simp] theorem State.modSlice_flaws (s : State) (n : Nat) (f : Slice → Slice) : (s.modSlice n f).flaws = s.flaws := rfl
@[simp] theorem State.modSlice_l2flaws (s : State) (n : Nat) (f : Slice → Slice) : (s.modSlice n f).l2flaws = s.l2flaws := rfl
@[simp] theorem State.modSlice_tlbs (s : State) (n : Nat) (f : Slice → Slice) : (s.modSlice n f).tlbs = s.tlbs := rfl
@[simp] theorem State.modSlice_tags (s : State) (n : Nat) (f : Slice → Slice) : (s.modSlice n f).tags = s.tags := rfl
@[simp] theorem State.modSlice_regions (s : State) (n : Nat) (f : Slice → Slice) : (s.modSlice n f).regions = s.regions := rfl
@[simp] theorem State.modSlice_cores (s : State) (n : Nat) (f : Slice → Slice) : (s.modSlice n f).cores = s.cores := rfl
@[simp] theorem State.modSlice_groups (s : State) (n : Nat) (f : Slice → Slice) : (s.modSlice n f).groups = s.groups := rfl
@[simp] theorem State.modSlice_wgs (s : State) (n : Nat) (f : Slice → Slice) : (s.modSlice n f).wgs = s.wgs := rfl
@[simp] theorem State.modSlice_launches (s : State) (n : Nat) (f : Slice → Slice) : (s.modSlice n f).launches = s.launches := rfl
@[simp] theorem State.modSlice_ops (s : State) (n : Nat) (f : Slice → Slice) : (s.modSlice n f).ops = s.ops := rfl
@[simp] theorem State.modSlice_nextId (s : State) (n : Nat) (f : Slice → Slice) : (s.modSlice n f).nextId = s.nextId := rfl
@[simp] theorem State.modSlice_pend (s : State) (n : Nat) (f : Slice → Slice) : (s.modSlice n f).pend = s.pend := rfl
@[simp] theorem State.modSlice_queues (s : State) (n : Nat) (f : Slice → Slice) : (s.modSlice n f).queues = s.queues := rfl
@[simp] theorem State.modSlice_cmds (s : State) (n : Nat) (f : Slice → Slice) : (s.modSlice n f).cmds = s.cmds := rfl
@[simp] theorem State.modSlice_graphs (s : State) (n : Nat) (f : Slice → Slice) : (s.modSlice n f).graphs = s.graphs := rfl
@[simp] theorem State.modSlice_comms (s : State) (n : Nat) (f : Slice → Slice) : (s.modSlice n f).comms = s.comms := rfl
@[simp] theorem State.modSlice_colls (s : State) (n : Nat) (f : Slice → Slice) : (s.modSlice n f).colls = s.colls := rfl
@[simp] theorem State.modSlice_passes (s : State) (n : Nat) (f : Slice → Slice) : (s.modSlice n f).passes = s.passes := rfl
@[simp] theorem State.modSlice_saves (s : State) (n : Nat) (f : Slice → Slice) : (s.modSlice n f).saves = s.saves := rfl
@[simp] theorem State.modSlice_slices (s : State) (n : Nat) (f : Slice → Slice) : (s.modSlice n f).slices = s.slices.modify n f := rfl
@[simp] theorem State.modSlice_regionTab (s : State) (n : Nat) (f : Slice → Slice) : (s.modSlice n f).regionTab = s.regionTab := rfl
@[simp] theorem State.modSlice_regionRight (s : State) (n : Nat) (f : Slice → Slice) : (s.modSlice n f).regionRight = s.regionRight := rfl
@[simp] theorem State.modSlice_ports (s : State) (n : Nat) (f : Slice → Slice) : (s.modSlice n f).ports = s.ports := rfl
@[simp] theorem State.modSlice_dlinks (s : State) (n : Nat) (f : Slice → Slice) : (s.modSlice n f).dlinks = s.dlinks := rfl
@[simp] theorem State.modSlice_peers (s : State) (n : Nat) (f : Slice → Slice) : (s.modSlice n f).peers = s.peers := rfl
@[simp] theorem State.modSlice_moduleNo (s : State) (n : Nat) (f : Slice → Slice) : (s.modSlice n f).moduleNo = s.moduleNo := rfl
@[simp] theorem State.modSlice_layout (s : State) (n : Nat) (f : Slice → Slice) : (s.modSlice n f).layout = s.layout := rfl
@[simp] theorem State.modSlice_bootState (s : State) (n : Nat) (f : Slice → Slice) : (s.modSlice n f).bootState = s.bootState := rfl
@[simp] theorem State.modSlice_bootReason (s : State) (n : Nat) (f : Slice → Slice) : (s.modSlice n f).bootReason = s.bootReason := rfl
@[simp] theorem State.modSlice_failCnt (s : State) (n : Nat) (f : Slice → Slice) : (s.modSlice n f).failCnt = s.failCnt := rfl
@[simp] theorem State.modSlice_skipCheck (s : State) (n : Nat) (f : Slice → Slice) : (s.modSlice n f).skipCheck = s.skipCheck := rfl
@[simp] theorem State.modSlice_apBase (s : State) (n : Nat) (f : Slice → Slice) : (s.modSlice n f).apBase = s.apBase := rfl
@[simp] theorem State.modSlice_apTier (s : State) (n : Nat) (f : Slice → Slice) : (s.modSlice n f).apTier = s.apTier := rfl
@[simp] theorem State.modSlice_irqStat (s : State) (n : Nat) (f : Slice → Slice) : (s.modSlice n f).irqStat = s.irqStat := rfl
@[simp] theorem State.modSlice_errLog (s : State) (n : Nat) (f : Slice → Slice) : (s.modSlice n f).errLog = s.errLog := rfl
@[simp] theorem State.modSlice_flashWe (s : State) (n : Nat) (f : Slice → Slice) : (s.modSlice n f).flashWe = s.flashWe := rfl
@[simp] theorem State.modSlice_flashBusy (s : State) (n : Nat) (f : Slice → Slice) : (s.modSlice n f).flashBusy = s.flashBusy := rfl
@[simp] theorem State.modSlice_temp (s : State) (n : Nat) (f : Slice → Slice) : (s.modSlice n f).temp = s.temp := rfl
@[simp] theorem State.modSlice_pwr (s : State) (n : Nat) (f : Slice → Slice) : (s.modSlice n f).pwr = s.pwr := rfl
@[simp] theorem State.modSlice_ceCnt (s : State) (n : Nat) (f : Slice → Slice) : (s.modSlice n f).ceCnt = s.ceCnt := rfl
@[simp] theorem State.modSlice_ceThr (s : State) (n : Nat) (f : Slice → Slice) : (s.modSlice n f).ceThr = s.ceThr := rfl
@[simp] theorem State.modSlice_ueAddr (s : State) (n : Nat) (f : Slice → Slice) : (s.modSlice n f).ueAddr = s.ueAddr := rfl
@[simp] theorem State.modSlice_ueStat (s : State) (n : Nat) (f : Slice → Slice) : (s.modSlice n f).ueStat = s.ueStat := rfl
@[simp] theorem State.modSlice_linkDown (s : State) (n : Nat) (f : Slice → Slice) : (s.modSlice n f).linkDown = s.linkDown := rfl
@[simp] theorem State.modSlice_byte (s : State) (n : Nat) (f : Slice → Slice) (j : Nat) : (s.modSlice n f).byte j = s.byte j := rfl
@[simp] theorem State.modSlice_poisoned (s : State) (n : Nat) (f : Slice → Slice) (j : Nat) : (s.modSlice n f).poisoned j = s.poisoned j := rfl
@[simp] theorem State.modSlice_core (s : State) (n : Nat) (f : Slice → Slice) (j : Nat) : (s.modSlice n f).core j = s.core j := rfl
@[simp] theorem State.modSlice_queue (s : State) (n : Nat) (f : Slice → Slice) (j : Nat) : (s.modSlice n f).queue j = s.queue j := rfl
@[simp] theorem State.modSlice_port (s : State) (n : Nat) (f : Slice → Slice) (j : Nat) : (s.modSlice n f).port j = s.port j := rfl
@[simp] theorem State.modSlice_dlink (s : State) (n : Nat) (f : Slice → Slice) (j : Nat) : (s.modSlice n f).dlink j = s.dlink j := rfl
@[simp] theorem State.modSlice_groupOf (s : State) (n : Nat) (f : Slice → Slice) (j : Nat) : (s.modSlice n f).group? j = s.group? j := rfl
@[simp] theorem State.modSlice_wgOf (s : State) (n : Nat) (f : Slice → Slice) (j : Nat) : (s.modSlice n f).wg? j = s.wg? j := rfl
@[simp] theorem State.modSlice_launchOf (s : State) (n : Nat) (f : Slice → Slice) (j : Nat) : (s.modSlice n f).launch? j = s.launch? j := rfl
@[simp] theorem State.modSlice_region (s : State) (n : Nat) (f : Slice → Slice) (j : Nat) : (s.modSlice n f).region j = s.region j := rfl
@[simp] theorem State.modSlice_opOf (s : State) (n : Nat) (f : Slice → Slice) (j : Nat) : (s.modSlice n f).op? j = s.op? j := rfl

/-! ### modOp -/

@[simp] theorem State.modOp_cur (s : State) (id : Nat) (f : Op → Op) : (s.modOp id f).cur = s.cur := rfl
@[simp] theorem State.modOp_agenda (s : State) (id : Nat) (f : Op → Op) : (s.modOp id f).agenda = s.agenda := rfl
@[simp] theorem State.modOp_sealed (s : State) (id : Nat) (f : Op → Op) : (s.modOp id f).sealed = s.sealed := rfl
@[simp] theorem State.modOp_freeCtr (s : State) (id : Nat) (f : Op → Op) : (s.modOp id f).freeCtr = s.freeCtr := rfl
@[simp] theorem State.modOp_hist (s : State) (id : Nat) (f : Op → Op) : (s.modOp id f).hist = s.hist := rfl
@[simp] theorem State.modOp_histLen (s : State) (id : Nat) (f : Op → Op) : (s.modOp id f).histLen = s.histLen := rfl
@[simp] theorem State.modOp_hb (s : State) (id : Nat) (f : Op → Op) : (s.modOp id f).hb = s.hb := rfl
@[simp] theorem State.modOp_hostData (s : State) (id : Nat) (f : Op → Op) : (s.modOp id f).hostData = s.hostData := rfl
@[simp] theorem State.modOp_clock (s : State) (id : Nat) (f : Op → Op) : (s.modOp id f).clock = s.clock := rfl
@[simp] theorem State.modOp_clockLow (s : State) (id : Nat) (f : Op → Op) : (s.modOp id f).clockLow = s.clockLow := rfl
@[simp] theorem State.modOp_mem (s : State) (id : Nat) (f : Op → Op) : (s.modOp id f).mem = s.mem := rfl
@[simp] theorem State.modOp_poison (s : State) (id : Nat) (f : Op → Op) : (s.modOp id f).poison = s.poison := rfl
@[simp] theorem State.modOp_l2poison (s : State) (id : Nat) (f : Op → Op) : (s.modOp id f).l2poison = s.l2poison := rfl
@[simp] theorem State.modOp_flaws (s : State) (id : Nat) (f : Op → Op) : (s.modOp id f).flaws = s.flaws := rfl
@[simp] theorem State.modOp_l2flaws (s : State) (id : Nat) (f : Op → Op) : (s.modOp id f).l2flaws = s.l2flaws := rfl
@[simp] theorem State.modOp_tlbs (s : State) (id : Nat) (f : Op → Op) : (s.modOp id f).tlbs = s.tlbs := rfl
@[simp] theorem State.modOp_tags (s : State) (id : Nat) (f : Op → Op) : (s.modOp id f).tags = s.tags := rfl
@[simp] theorem State.modOp_regions (s : State) (id : Nat) (f : Op → Op) : (s.modOp id f).regions = s.regions := rfl
@[simp] theorem State.modOp_cores (s : State) (id : Nat) (f : Op → Op) : (s.modOp id f).cores = s.cores := rfl
@[simp] theorem State.modOp_groups (s : State) (id : Nat) (f : Op → Op) : (s.modOp id f).groups = s.groups := rfl
@[simp] theorem State.modOp_wgs (s : State) (id : Nat) (f : Op → Op) : (s.modOp id f).wgs = s.wgs := rfl
@[simp] theorem State.modOp_launches (s : State) (id : Nat) (f : Op → Op) : (s.modOp id f).launches = s.launches := rfl
@[simp] theorem State.modOp_ops (s : State) (id : Nat) (f : Op → Op) : (s.modOp id f).ops = s.ops.map fun o => if o.id = id then f o else o := rfl
@[simp] theorem State.modOp_nextId (s : State) (id : Nat) (f : Op → Op) : (s.modOp id f).nextId = s.nextId := rfl
@[simp] theorem State.modOp_pend (s : State) (id : Nat) (f : Op → Op) : (s.modOp id f).pend = s.pend := rfl
@[simp] theorem State.modOp_queues (s : State) (id : Nat) (f : Op → Op) : (s.modOp id f).queues = s.queues := rfl
@[simp] theorem State.modOp_cmds (s : State) (id : Nat) (f : Op → Op) : (s.modOp id f).cmds = s.cmds := rfl
@[simp] theorem State.modOp_graphs (s : State) (id : Nat) (f : Op → Op) : (s.modOp id f).graphs = s.graphs := rfl
@[simp] theorem State.modOp_comms (s : State) (id : Nat) (f : Op → Op) : (s.modOp id f).comms = s.comms := rfl
@[simp] theorem State.modOp_colls (s : State) (id : Nat) (f : Op → Op) : (s.modOp id f).colls = s.colls := rfl
@[simp] theorem State.modOp_passes (s : State) (id : Nat) (f : Op → Op) : (s.modOp id f).passes = s.passes := rfl
@[simp] theorem State.modOp_saves (s : State) (id : Nat) (f : Op → Op) : (s.modOp id f).saves = s.saves := rfl
@[simp] theorem State.modOp_slices (s : State) (id : Nat) (f : Op → Op) : (s.modOp id f).slices = s.slices := rfl
@[simp] theorem State.modOp_regionTab (s : State) (id : Nat) (f : Op → Op) : (s.modOp id f).regionTab = s.regionTab := rfl
@[simp] theorem State.modOp_regionRight (s : State) (id : Nat) (f : Op → Op) : (s.modOp id f).regionRight = s.regionRight := rfl
@[simp] theorem State.modOp_ports (s : State) (id : Nat) (f : Op → Op) : (s.modOp id f).ports = s.ports := rfl
@[simp] theorem State.modOp_dlinks (s : State) (id : Nat) (f : Op → Op) : (s.modOp id f).dlinks = s.dlinks := rfl
@[simp] theorem State.modOp_peers (s : State) (id : Nat) (f : Op → Op) : (s.modOp id f).peers = s.peers := rfl
@[simp] theorem State.modOp_moduleNo (s : State) (id : Nat) (f : Op → Op) : (s.modOp id f).moduleNo = s.moduleNo := rfl
@[simp] theorem State.modOp_layout (s : State) (id : Nat) (f : Op → Op) : (s.modOp id f).layout = s.layout := rfl
@[simp] theorem State.modOp_bootState (s : State) (id : Nat) (f : Op → Op) : (s.modOp id f).bootState = s.bootState := rfl
@[simp] theorem State.modOp_bootReason (s : State) (id : Nat) (f : Op → Op) : (s.modOp id f).bootReason = s.bootReason := rfl
@[simp] theorem State.modOp_failCnt (s : State) (id : Nat) (f : Op → Op) : (s.modOp id f).failCnt = s.failCnt := rfl
@[simp] theorem State.modOp_skipCheck (s : State) (id : Nat) (f : Op → Op) : (s.modOp id f).skipCheck = s.skipCheck := rfl
@[simp] theorem State.modOp_apBase (s : State) (id : Nat) (f : Op → Op) : (s.modOp id f).apBase = s.apBase := rfl
@[simp] theorem State.modOp_apTier (s : State) (id : Nat) (f : Op → Op) : (s.modOp id f).apTier = s.apTier := rfl
@[simp] theorem State.modOp_irqStat (s : State) (id : Nat) (f : Op → Op) : (s.modOp id f).irqStat = s.irqStat := rfl
@[simp] theorem State.modOp_errLog (s : State) (id : Nat) (f : Op → Op) : (s.modOp id f).errLog = s.errLog := rfl
@[simp] theorem State.modOp_flashWe (s : State) (id : Nat) (f : Op → Op) : (s.modOp id f).flashWe = s.flashWe := rfl
@[simp] theorem State.modOp_flashBusy (s : State) (id : Nat) (f : Op → Op) : (s.modOp id f).flashBusy = s.flashBusy := rfl
@[simp] theorem State.modOp_temp (s : State) (id : Nat) (f : Op → Op) : (s.modOp id f).temp = s.temp := rfl
@[simp] theorem State.modOp_pwr (s : State) (id : Nat) (f : Op → Op) : (s.modOp id f).pwr = s.pwr := rfl
@[simp] theorem State.modOp_ceCnt (s : State) (id : Nat) (f : Op → Op) : (s.modOp id f).ceCnt = s.ceCnt := rfl
@[simp] theorem State.modOp_ceThr (s : State) (id : Nat) (f : Op → Op) : (s.modOp id f).ceThr = s.ceThr := rfl
@[simp] theorem State.modOp_ueAddr (s : State) (id : Nat) (f : Op → Op) : (s.modOp id f).ueAddr = s.ueAddr := rfl
@[simp] theorem State.modOp_ueStat (s : State) (id : Nat) (f : Op → Op) : (s.modOp id f).ueStat = s.ueStat := rfl
@[simp] theorem State.modOp_linkDown (s : State) (id : Nat) (f : Op → Op) : (s.modOp id f).linkDown = s.linkDown := rfl
@[simp] theorem State.modOp_byte (s : State) (id : Nat) (f : Op → Op) (j : Nat) : (s.modOp id f).byte j = s.byte j := rfl
@[simp] theorem State.modOp_poisoned (s : State) (id : Nat) (f : Op → Op) (j : Nat) : (s.modOp id f).poisoned j = s.poisoned j := rfl
@[simp] theorem State.modOp_core (s : State) (id : Nat) (f : Op → Op) (j : Nat) : (s.modOp id f).core j = s.core j := rfl
@[simp] theorem State.modOp_queue (s : State) (id : Nat) (f : Op → Op) (j : Nat) : (s.modOp id f).queue j = s.queue j := rfl
@[simp] theorem State.modOp_port (s : State) (id : Nat) (f : Op → Op) (j : Nat) : (s.modOp id f).port j = s.port j := rfl
@[simp] theorem State.modOp_dlink (s : State) (id : Nat) (f : Op → Op) (j : Nat) : (s.modOp id f).dlink j = s.dlink j := rfl
@[simp] theorem State.modOp_groupOf (s : State) (id : Nat) (f : Op → Op) (j : Nat) : (s.modOp id f).group? j = s.group? j := rfl
@[simp] theorem State.modOp_wgOf (s : State) (id : Nat) (f : Op → Op) (j : Nat) : (s.modOp id f).wg? j = s.wg? j := rfl
@[simp] theorem State.modOp_launchOf (s : State) (id : Nat) (f : Op → Op) (j : Nat) : (s.modOp id f).launch? j = s.launch? j := rfl
@[simp] theorem State.modOp_slice (s : State) (id : Nat) (f : Op → Op) (j : Nat) : (s.modOp id f).slice j = s.slice j := rfl
@[simp] theorem State.modOp_region (s : State) (id : Nat) (f : Op → Op) (j : Nat) : (s.modOp id f).region j = s.region j := rfl

/-! ### setByte -/

@[simp] theorem State.setByte_cur (s : State) (k : Nat) (b : Byte) : (s.setByte k b).cur = s.cur := rfl
@[simp] theorem State.setByte_agenda (s : State) (k : Nat) (b : Byte) : (s.setByte k b).agenda = s.agenda := rfl
@[simp] theorem State.setByte_sealed (s : State) (k : Nat) (b : Byte) : (s.setByte k b).sealed = s.sealed := rfl
@[simp] theorem State.setByte_freeCtr (s : State) (k : Nat) (b : Byte) : (s.setByte k b).freeCtr = s.freeCtr := rfl
@[simp] theorem State.setByte_hist (s : State) (k : Nat) (b : Byte) : (s.setByte k b).hist = { key := k, seq := s.histLen, old := s.byte k } :: s.hist := rfl
@[simp] theorem State.setByte_histLen (s : State) (k : Nat) (b : Byte) : (s.setByte k b).histLen = s.histLen + 1 := rfl
@[simp] theorem State.setByte_hb (s : State) (k : Nat) (b : Byte) : (s.setByte k b).hb = s.hb := rfl
@[simp] theorem State.setByte_hostData (s : State) (k : Nat) (b : Byte) : (s.setByte k b).hostData = s.hostData := rfl
@[simp] theorem State.setByte_clock (s : State) (k : Nat) (b : Byte) : (s.setByte k b).clock = s.clock := rfl
@[simp] theorem State.setByte_clockLow (s : State) (k : Nat) (b : Byte) : (s.setByte k b).clockLow = s.clockLow := rfl
@[simp] theorem State.setByte_mem (s : State) (k : Nat) (b : Byte) : (s.setByte k b).mem = Tab.set unwritten s.mem k b := rfl
@[simp] theorem State.setByte_poison (s : State) (k : Nat) (b : Byte) : (s.setByte k b).poison = s.poison := rfl
@[simp] theorem State.setByte_l2poison (s : State) (k : Nat) (b : Byte) : (s.setByte k b).l2poison = s.l2poison := rfl
@[simp] theorem State.setByte_flaws (s : State) (k : Nat) (b : Byte) : (s.setByte k b).flaws = s.flaws := rfl
@[simp] theorem State.setByte_l2flaws (s : State) (k : Nat) (b : Byte) : (s.setByte k b).l2flaws = s.l2flaws := rfl
@[simp] theorem State.setByte_tlbs (s : State) (k : Nat) (b : Byte) : (s.setByte k b).tlbs = s.tlbs := rfl
@[simp] theorem State.setByte_tags (s : State) (k : Nat) (b : Byte) : (s.setByte k b).tags = s.tags := rfl
@[simp] theorem State.setByte_regions (s : State) (k : Nat) (b : Byte) : (s.setByte k b).regions = s.regions := rfl
@[simp] theorem State.setByte_cores (s : State) (k : Nat) (b : Byte) : (s.setByte k b).cores = s.cores := rfl
@[simp] theorem State.setByte_groups (s : State) (k : Nat) (b : Byte) : (s.setByte k b).groups = s.groups := rfl
@[simp] theorem State.setByte_wgs (s : State) (k : Nat) (b : Byte) : (s.setByte k b).wgs = s.wgs := rfl
@[simp] theorem State.setByte_launches (s : State) (k : Nat) (b : Byte) : (s.setByte k b).launches = s.launches := rfl
@[simp] theorem State.setByte_ops (s : State) (k : Nat) (b : Byte) : (s.setByte k b).ops = s.ops := rfl
@[simp] theorem State.setByte_nextId (s : State) (k : Nat) (b : Byte) : (s.setByte k b).nextId = s.nextId := rfl
@[simp] theorem State.setByte_pend (s : State) (k : Nat) (b : Byte) : (s.setByte k b).pend = s.pend := rfl
@[simp] theorem State.setByte_queues (s : State) (k : Nat) (b : Byte) : (s.setByte k b).queues = s.queues := rfl
@[simp] theorem State.setByte_cmds (s : State) (k : Nat) (b : Byte) : (s.setByte k b).cmds = s.cmds := rfl
@[simp] theorem State.setByte_graphs (s : State) (k : Nat) (b : Byte) : (s.setByte k b).graphs = s.graphs := rfl
@[simp] theorem State.setByte_comms (s : State) (k : Nat) (b : Byte) : (s.setByte k b).comms = s.comms := rfl
@[simp] theorem State.setByte_colls (s : State) (k : Nat) (b : Byte) : (s.setByte k b).colls = s.colls := rfl
@[simp] theorem State.setByte_passes (s : State) (k : Nat) (b : Byte) : (s.setByte k b).passes = s.passes := rfl
@[simp] theorem State.setByte_saves (s : State) (k : Nat) (b : Byte) : (s.setByte k b).saves = s.saves := rfl
@[simp] theorem State.setByte_slices (s : State) (k : Nat) (b : Byte) : (s.setByte k b).slices = s.slices := rfl
@[simp] theorem State.setByte_regionTab (s : State) (k : Nat) (b : Byte) : (s.setByte k b).regionTab = s.regionTab := rfl
@[simp] theorem State.setByte_regionRight (s : State) (k : Nat) (b : Byte) : (s.setByte k b).regionRight = s.regionRight := rfl
@[simp] theorem State.setByte_ports (s : State) (k : Nat) (b : Byte) : (s.setByte k b).ports = s.ports := rfl
@[simp] theorem State.setByte_dlinks (s : State) (k : Nat) (b : Byte) : (s.setByte k b).dlinks = s.dlinks := rfl
@[simp] theorem State.setByte_peers (s : State) (k : Nat) (b : Byte) : (s.setByte k b).peers = s.peers := rfl
@[simp] theorem State.setByte_moduleNo (s : State) (k : Nat) (b : Byte) : (s.setByte k b).moduleNo = s.moduleNo := rfl
@[simp] theorem State.setByte_layout (s : State) (k : Nat) (b : Byte) : (s.setByte k b).layout = s.layout := rfl
@[simp] theorem State.setByte_bootState (s : State) (k : Nat) (b : Byte) : (s.setByte k b).bootState = s.bootState := rfl
@[simp] theorem State.setByte_bootReason (s : State) (k : Nat) (b : Byte) : (s.setByte k b).bootReason = s.bootReason := rfl
@[simp] theorem State.setByte_failCnt (s : State) (k : Nat) (b : Byte) : (s.setByte k b).failCnt = s.failCnt := rfl
@[simp] theorem State.setByte_skipCheck (s : State) (k : Nat) (b : Byte) : (s.setByte k b).skipCheck = s.skipCheck := rfl
@[simp] theorem State.setByte_apBase (s : State) (k : Nat) (b : Byte) : (s.setByte k b).apBase = s.apBase := rfl
@[simp] theorem State.setByte_apTier (s : State) (k : Nat) (b : Byte) : (s.setByte k b).apTier = s.apTier := rfl
@[simp] theorem State.setByte_irqStat (s : State) (k : Nat) (b : Byte) : (s.setByte k b).irqStat = s.irqStat := rfl
@[simp] theorem State.setByte_errLog (s : State) (k : Nat) (b : Byte) : (s.setByte k b).errLog = s.errLog := rfl
@[simp] theorem State.setByte_flashWe (s : State) (k : Nat) (b : Byte) : (s.setByte k b).flashWe = s.flashWe := rfl
@[simp] theorem State.setByte_flashBusy (s : State) (k : Nat) (b : Byte) : (s.setByte k b).flashBusy = s.flashBusy := rfl
@[simp] theorem State.setByte_temp (s : State) (k : Nat) (b : Byte) : (s.setByte k b).temp = s.temp := rfl
@[simp] theorem State.setByte_pwr (s : State) (k : Nat) (b : Byte) : (s.setByte k b).pwr = s.pwr := rfl
@[simp] theorem State.setByte_ceCnt (s : State) (k : Nat) (b : Byte) : (s.setByte k b).ceCnt = s.ceCnt := rfl
@[simp] theorem State.setByte_ceThr (s : State) (k : Nat) (b : Byte) : (s.setByte k b).ceThr = s.ceThr := rfl
@[simp] theorem State.setByte_ueAddr (s : State) (k : Nat) (b : Byte) : (s.setByte k b).ueAddr = s.ueAddr := rfl
@[simp] theorem State.setByte_ueStat (s : State) (k : Nat) (b : Byte) : (s.setByte k b).ueStat = s.ueStat := rfl
@[simp] theorem State.setByte_linkDown (s : State) (k : Nat) (b : Byte) : (s.setByte k b).linkDown = s.linkDown := rfl
@[simp] theorem State.setByte_poisoned (s : State) (k : Nat) (b : Byte) (j : Nat) : (s.setByte k b).poisoned j = s.poisoned j := rfl
@[simp] theorem State.setByte_core (s : State) (k : Nat) (b : Byte) (j : Nat) : (s.setByte k b).core j = s.core j := rfl
@[simp] theorem State.setByte_queue (s : State) (k : Nat) (b : Byte) (j : Nat) : (s.setByte k b).queue j = s.queue j := rfl
@[simp] theorem State.setByte_port (s : State) (k : Nat) (b : Byte) (j : Nat) : (s.setByte k b).port j = s.port j := rfl
@[simp] theorem State.setByte_dlink (s : State) (k : Nat) (b : Byte) (j : Nat) : (s.setByte k b).dlink j = s.dlink j := rfl
@[simp] theorem State.setByte_groupOf (s : State) (k : Nat) (b : Byte) (j : Nat) : (s.setByte k b).group? j = s.group? j := rfl
@[simp] theorem State.setByte_wgOf (s : State) (k : Nat) (b : Byte) (j : Nat) : (s.setByte k b).wg? j = s.wg? j := rfl
@[simp] theorem State.setByte_launchOf (s : State) (k : Nat) (b : Byte) (j : Nat) : (s.setByte k b).launch? j = s.launch? j := rfl
@[simp] theorem State.setByte_slice (s : State) (k : Nat) (b : Byte) (j : Nat) : (s.setByte k b).slice j = s.slice j := rfl
@[simp] theorem State.setByte_region (s : State) (k : Nat) (b : Byte) (j : Nat) : (s.setByte k b).region j = s.region j := rfl
@[simp] theorem State.setByte_opOf (s : State) (k : Nat) (b : Byte) (j : Nat) : (s.setByte k b).op? j = s.op? j := rfl

/-! ### release -/

@[simp] theorem State.release_cur (s : State) (p : Nat) : (s.release p).cur = s.cur := rfl
@[simp] theorem State.release_agenda (s : State) (p : Nat) : (s.release p).agenda = s.agenda := rfl
@[simp] theorem State.release_sealed (s : State) (p : Nat) : (s.release p).sealed = s.sealed := rfl
@[simp] theorem State.release_freeCtr (s : State) (p : Nat) : (s.release p).freeCtr = s.freeCtr := rfl
@[simp] theorem State.release_hist (s : State) (p : Nat) : (s.release p).hist = s.hist := rfl
@[simp] theorem State.release_histLen (s : State) (p : Nat) : (s.release p).histLen = s.histLen := rfl
@[simp] theorem State.release_hb (s : State) (p : Nat) : (s.release p).hb = s.hb := rfl
@[simp] theorem State.release_hostData (s : State) (p : Nat) : (s.release p).hostData = s.hostData := rfl
@[simp] theorem State.release_clock (s : State) (p : Nat) : (s.release p).clock = s.clock := rfl
@[simp] theorem State.release_clockLow (s : State) (p : Nat) : (s.release p).clockLow = s.clockLow := rfl
@[simp] theorem State.release_mem (s : State) (p : Nat) : (s.release p).mem = s.mem := rfl
@[simp] theorem State.release_poison (s : State) (p : Nat) : (s.release p).poison = s.poison := rfl
@[simp] theorem State.release_l2poison (s : State) (p : Nat) : (s.release p).l2poison = s.l2poison := rfl
@[simp] theorem State.release_flaws (s : State) (p : Nat) : (s.release p).flaws = s.flaws := rfl
@[simp] theorem State.release_l2flaws (s : State) (p : Nat) : (s.release p).l2flaws = s.l2flaws := rfl
@[simp] theorem State.release_tlbs (s : State) (p : Nat) : (s.release p).tlbs = s.tlbs := rfl
@[simp] theorem State.release_tags (s : State) (p : Nat) : (s.release p).tags = s.tags := rfl
@[simp] theorem State.release_regions (s : State) (p : Nat) : (s.release p).regions = Tab.put s.regions p (s.region p + 1) := rfl
@[simp] theorem State.release_cores (s : State) (p : Nat) : (s.release p).cores = s.cores := rfl
@[simp] theorem State.release_groups (s : State) (p : Nat) : (s.release p).groups = s.groups := rfl
@[simp] theorem State.release_wgs (s : State) (p : Nat) : (s.release p).wgs = s.wgs := rfl
@[simp] theorem State.release_launches (s : State) (p : Nat) : (s.release p).launches = s.launches := rfl
@[simp] theorem State.release_ops (s : State) (p : Nat) : (s.release p).ops = s.ops := rfl
@[simp] theorem State.release_nextId (s : State) (p : Nat) : (s.release p).nextId = s.nextId := rfl
@[simp] theorem State.release_pend (s : State) (p : Nat) : (s.release p).pend = s.pend := rfl
@[simp] theorem State.release_queues (s : State) (p : Nat) : (s.release p).queues = s.queues := rfl
@[simp] theorem State.release_cmds (s : State) (p : Nat) : (s.release p).cmds = s.cmds := rfl
@[simp] theorem State.release_graphs (s : State) (p : Nat) : (s.release p).graphs = s.graphs := rfl
@[simp] theorem State.release_comms (s : State) (p : Nat) : (s.release p).comms = s.comms := rfl
@[simp] theorem State.release_colls (s : State) (p : Nat) : (s.release p).colls = s.colls := rfl
@[simp] theorem State.release_passes (s : State) (p : Nat) : (s.release p).passes = s.passes := rfl
@[simp] theorem State.release_saves (s : State) (p : Nat) : (s.release p).saves = s.saves := rfl
@[simp] theorem State.release_slices (s : State) (p : Nat) : (s.release p).slices = s.slices := rfl
@[simp] theorem State.release_regionTab (s : State) (p : Nat) : (s.release p).regionTab = s.regionTab := rfl
@[simp] theorem State.release_regionRight (s : State) (p : Nat) : (s.release p).regionRight = s.regionRight := rfl
@[simp] theorem State.release_ports (s : State) (p : Nat) : (s.release p).ports = s.ports := rfl
@[simp] theorem State.release_dlinks (s : State) (p : Nat) : (s.release p).dlinks = s.dlinks := rfl
@[simp] theorem State.release_peers (s : State) (p : Nat) : (s.release p).peers = s.peers := rfl
@[simp] theorem State.release_moduleNo (s : State) (p : Nat) : (s.release p).moduleNo = s.moduleNo := rfl
@[simp] theorem State.release_layout (s : State) (p : Nat) : (s.release p).layout = s.layout := rfl
@[simp] theorem State.release_bootState (s : State) (p : Nat) : (s.release p).bootState = s.bootState := rfl
@[simp] theorem State.release_bootReason (s : State) (p : Nat) : (s.release p).bootReason = s.bootReason := rfl
@[simp] theorem State.release_failCnt (s : State) (p : Nat) : (s.release p).failCnt = s.failCnt := rfl
@[simp] theorem State.release_skipCheck (s : State) (p : Nat) : (s.release p).skipCheck = s.skipCheck := rfl
@[simp] theorem State.release_apBase (s : State) (p : Nat) : (s.release p).apBase = s.apBase := rfl
@[simp] theorem State.release_apTier (s : State) (p : Nat) : (s.release p).apTier = s.apTier := rfl
@[simp] theorem State.release_irqStat (s : State) (p : Nat) : (s.release p).irqStat = s.irqStat := rfl
@[simp] theorem State.release_errLog (s : State) (p : Nat) : (s.release p).errLog = s.errLog := rfl
@[simp] theorem State.release_flashWe (s : State) (p : Nat) : (s.release p).flashWe = s.flashWe := rfl
@[simp] theorem State.release_flashBusy (s : State) (p : Nat) : (s.release p).flashBusy = s.flashBusy := rfl
@[simp] theorem State.release_temp (s : State) (p : Nat) : (s.release p).temp = s.temp := rfl
@[simp] theorem State.release_pwr (s : State) (p : Nat) : (s.release p).pwr = s.pwr := rfl
@[simp] theorem State.release_ceCnt (s : State) (p : Nat) : (s.release p).ceCnt = s.ceCnt := rfl
@[simp] theorem State.release_ceThr (s : State) (p : Nat) : (s.release p).ceThr = s.ceThr := rfl
@[simp] theorem State.release_ueAddr (s : State) (p : Nat) : (s.release p).ueAddr = s.ueAddr := rfl
@[simp] theorem State.release_ueStat (s : State) (p : Nat) : (s.release p).ueStat = s.ueStat := rfl
@[simp] theorem State.release_linkDown (s : State) (p : Nat) : (s.release p).linkDown = s.linkDown := rfl
@[simp] theorem State.release_byte (s : State) (p : Nat) (j : Nat) : (s.release p).byte j = s.byte j := rfl
@[simp] theorem State.release_poisoned (s : State) (p : Nat) (j : Nat) : (s.release p).poisoned j = s.poisoned j := rfl
@[simp] theorem State.release_core (s : State) (p : Nat) (j : Nat) : (s.release p).core j = s.core j := rfl
@[simp] theorem State.release_queue (s : State) (p : Nat) (j : Nat) : (s.release p).queue j = s.queue j := rfl
@[simp] theorem State.release_port (s : State) (p : Nat) (j : Nat) : (s.release p).port j = s.port j := rfl
@[simp] theorem State.release_dlink (s : State) (p : Nat) (j : Nat) : (s.release p).dlink j = s.dlink j := rfl
@[simp] theorem State.release_groupOf (s : State) (p : Nat) (j : Nat) : (s.release p).group? j = s.group? j := rfl
@[simp] theorem State.release_wgOf (s : State) (p : Nat) (j : Nat) : (s.release p).wg? j = s.wg? j := rfl
@[simp] theorem State.release_launchOf (s : State) (p : Nat) (j : Nat) : (s.release p).launch? j = s.launch? j := rfl
@[simp] theorem State.release_slice (s : State) (p : Nat) (j : Nat) : (s.release p).slice j = s.slice j := rfl
@[simp] theorem State.release_opOf (s : State) (p : Nat) (j : Nat) : (s.release p).op? j = s.op? j := rfl

/-! ### foundUe -/

@[simp] theorem State.foundUe_cur (s : State) (a : DWord) (b : Bool) : (s.foundUe a b).cur = s.cur := rfl
@[simp] theorem State.foundUe_agenda (s : State) (a : DWord) (b : Bool) : (s.foundUe a b).agenda = s.agenda := rfl
@[simp] theorem State.foundUe_sealed (s : State) (a : DWord) (b : Bool) : (s.foundUe a b).sealed = s.sealed := rfl
@[simp] theorem State.foundUe_freeCtr (s : State) (a : DWord) (b : Bool) : (s.foundUe a b).freeCtr = s.freeCtr := rfl
@[simp] theorem State.foundUe_hist (s : State) (a : DWord) (b : Bool) : (s.foundUe a b).hist = s.hist := rfl
@[simp] theorem State.foundUe_histLen (s : State) (a : DWord) (b : Bool) : (s.foundUe a b).histLen = s.histLen := rfl
@[simp] theorem State.foundUe_hb (s : State) (a : DWord) (b : Bool) : (s.foundUe a b).hb = s.hb := rfl
@[simp] theorem State.foundUe_hostData (s : State) (a : DWord) (b : Bool) : (s.foundUe a b).hostData = s.hostData := rfl
@[simp] theorem State.foundUe_clock (s : State) (a : DWord) (b : Bool) : (s.foundUe a b).clock = s.clock := rfl
@[simp] theorem State.foundUe_clockLow (s : State) (a : DWord) (b : Bool) : (s.foundUe a b).clockLow = s.clockLow := rfl
@[simp] theorem State.foundUe_mem (s : State) (a : DWord) (b : Bool) : (s.foundUe a b).mem = s.mem := rfl
@[simp] theorem State.foundUe_poison (s : State) (a : DWord) (b : Bool) : (s.foundUe a b).poison = s.poison := rfl
@[simp] theorem State.foundUe_l2poison (s : State) (a : DWord) (b : Bool) : (s.foundUe a b).l2poison = s.l2poison := rfl
@[simp] theorem State.foundUe_flaws (s : State) (a : DWord) (b : Bool) : (s.foundUe a b).flaws = s.flaws := rfl
@[simp] theorem State.foundUe_l2flaws (s : State) (a : DWord) (b : Bool) : (s.foundUe a b).l2flaws = s.l2flaws := rfl
@[simp] theorem State.foundUe_tlbs (s : State) (a : DWord) (b : Bool) : (s.foundUe a b).tlbs = s.tlbs := rfl
@[simp] theorem State.foundUe_tags (s : State) (a : DWord) (b : Bool) : (s.foundUe a b).tags = s.tags := rfl
@[simp] theorem State.foundUe_regions (s : State) (a : DWord) (b : Bool) : (s.foundUe a b).regions = s.regions := rfl
@[simp] theorem State.foundUe_cores (s : State) (a : DWord) (b : Bool) : (s.foundUe a b).cores = s.cores := rfl
@[simp] theorem State.foundUe_groups (s : State) (a : DWord) (b : Bool) : (s.foundUe a b).groups = s.groups := rfl
@[simp] theorem State.foundUe_wgs (s : State) (a : DWord) (b : Bool) : (s.foundUe a b).wgs = s.wgs := rfl
@[simp] theorem State.foundUe_launches (s : State) (a : DWord) (b : Bool) : (s.foundUe a b).launches = s.launches := rfl
@[simp] theorem State.foundUe_ops (s : State) (a : DWord) (b : Bool) : (s.foundUe a b).ops = s.ops := rfl
@[simp] theorem State.foundUe_nextId (s : State) (a : DWord) (b : Bool) : (s.foundUe a b).nextId = s.nextId := rfl
@[simp] theorem State.foundUe_pend (s : State) (a : DWord) (b : Bool) : (s.foundUe a b).pend = s.pend := rfl
@[simp] theorem State.foundUe_queues (s : State) (a : DWord) (b : Bool) : (s.foundUe a b).queues = s.queues := rfl
@[simp] theorem State.foundUe_cmds (s : State) (a : DWord) (b : Bool) : (s.foundUe a b).cmds = s.cmds := rfl
@[simp] theorem State.foundUe_graphs (s : State) (a : DWord) (b : Bool) : (s.foundUe a b).graphs = s.graphs := rfl
@[simp] theorem State.foundUe_comms (s : State) (a : DWord) (b : Bool) : (s.foundUe a b).comms = s.comms := rfl
@[simp] theorem State.foundUe_colls (s : State) (a : DWord) (b : Bool) : (s.foundUe a b).colls = s.colls := rfl
@[simp] theorem State.foundUe_passes (s : State) (a : DWord) (b : Bool) : (s.foundUe a b).passes = s.passes := rfl
@[simp] theorem State.foundUe_saves (s : State) (a : DWord) (b : Bool) : (s.foundUe a b).saves = s.saves := rfl
@[simp] theorem State.foundUe_slices (s : State) (a : DWord) (b : Bool) : (s.foundUe a b).slices = s.slices := rfl
@[simp] theorem State.foundUe_regionTab (s : State) (a : DWord) (b : Bool) : (s.foundUe a b).regionTab = s.regionTab := rfl
@[simp] theorem State.foundUe_regionRight (s : State) (a : DWord) (b : Bool) : (s.foundUe a b).regionRight = s.regionRight := rfl
@[simp] theorem State.foundUe_ports (s : State) (a : DWord) (b : Bool) : (s.foundUe a b).ports = s.ports := rfl
@[simp] theorem State.foundUe_dlinks (s : State) (a : DWord) (b : Bool) : (s.foundUe a b).dlinks = s.dlinks := rfl
@[simp] theorem State.foundUe_peers (s : State) (a : DWord) (b : Bool) : (s.foundUe a b).peers = s.peers := rfl
@[simp] theorem State.foundUe_moduleNo (s : State) (a : DWord) (b : Bool) : (s.foundUe a b).moduleNo = s.moduleNo := rfl
@[simp] theorem State.foundUe_layout (s : State) (a : DWord) (b : Bool) : (s.foundUe a b).layout = s.layout := rfl
@[simp] theorem State.foundUe_bootState (s : State) (a : DWord) (b : Bool) : (s.foundUe a b).bootState = s.bootState := rfl
@[simp] theorem State.foundUe_bootReason (s : State) (a : DWord) (b : Bool) : (s.foundUe a b).bootReason = s.bootReason := rfl
@[simp] theorem State.foundUe_failCnt (s : State) (a : DWord) (b : Bool) : (s.foundUe a b).failCnt = s.failCnt := rfl
@[simp] theorem State.foundUe_skipCheck (s : State) (a : DWord) (b : Bool) : (s.foundUe a b).skipCheck = s.skipCheck := rfl
@[simp] theorem State.foundUe_apBase (s : State) (a : DWord) (b : Bool) : (s.foundUe a b).apBase = s.apBase := rfl
@[simp] theorem State.foundUe_apTier (s : State) (a : DWord) (b : Bool) : (s.foundUe a b).apTier = s.apTier := rfl
@[simp] theorem State.foundUe_irqStat (s : State) (a : DWord) (b : Bool) : (s.foundUe a b).irqStat = s.irqStat := rfl
@[simp] theorem State.foundUe_errLog (s : State) (a : DWord) (b : Bool) : (s.foundUe a b).errLog = s.errLog ||| 64 := rfl
@[simp] theorem State.foundUe_flashWe (s : State) (a : DWord) (b : Bool) : (s.foundUe a b).flashWe = s.flashWe := rfl
@[simp] theorem State.foundUe_flashBusy (s : State) (a : DWord) (b : Bool) : (s.foundUe a b).flashBusy = s.flashBusy := rfl
@[simp] theorem State.foundUe_temp (s : State) (a : DWord) (b : Bool) : (s.foundUe a b).temp = s.temp := rfl
@[simp] theorem State.foundUe_pwr (s : State) (a : DWord) (b : Bool) : (s.foundUe a b).pwr = s.pwr := rfl
@[simp] theorem State.foundUe_ceCnt (s : State) (a : DWord) (b : Bool) : (s.foundUe a b).ceCnt = s.ceCnt := rfl
@[simp] theorem State.foundUe_ceThr (s : State) (a : DWord) (b : Bool) : (s.foundUe a b).ceThr = s.ceThr := rfl
@[simp] theorem State.foundUe_ueAddr (s : State) (a : DWord) (b : Bool) : (s.foundUe a b).ueAddr = a := rfl
@[simp] theorem State.foundUe_ueStat (s : State) (a : DWord) (b : Bool) : (s.foundUe a b).ueStat = s.ueStat ||| (if b then 3 else 1) := rfl
@[simp] theorem State.foundUe_linkDown (s : State) (a : DWord) (b : Bool) : (s.foundUe a b).linkDown = s.linkDown := rfl
@[simp] theorem State.foundUe_byte (s : State) (a : DWord) (b : Bool) (j : Nat) : (s.foundUe a b).byte j = s.byte j := rfl
@[simp] theorem State.foundUe_poisoned (s : State) (a : DWord) (b : Bool) (j : Nat) : (s.foundUe a b).poisoned j = s.poisoned j := rfl
@[simp] theorem State.foundUe_core (s : State) (a : DWord) (b : Bool) (j : Nat) : (s.foundUe a b).core j = s.core j := rfl
@[simp] theorem State.foundUe_queue (s : State) (a : DWord) (b : Bool) (j : Nat) : (s.foundUe a b).queue j = s.queue j := rfl
@[simp] theorem State.foundUe_port (s : State) (a : DWord) (b : Bool) (j : Nat) : (s.foundUe a b).port j = s.port j := rfl
@[simp] theorem State.foundUe_dlink (s : State) (a : DWord) (b : Bool) (j : Nat) : (s.foundUe a b).dlink j = s.dlink j := rfl
@[simp] theorem State.foundUe_groupOf (s : State) (a : DWord) (b : Bool) (j : Nat) : (s.foundUe a b).group? j = s.group? j := rfl
@[simp] theorem State.foundUe_wgOf (s : State) (a : DWord) (b : Bool) (j : Nat) : (s.foundUe a b).wg? j = s.wg? j := rfl
@[simp] theorem State.foundUe_launchOf (s : State) (a : DWord) (b : Bool) (j : Nat) : (s.foundUe a b).launch? j = s.launch? j := rfl
@[simp] theorem State.foundUe_slice (s : State) (a : DWord) (b : Bool) (j : Nat) : (s.foundUe a b).slice j = s.slice j := rfl
@[simp] theorem State.foundUe_region (s : State) (a : DWord) (b : Bool) (j : Nat) : (s.foundUe a b).region j = s.region j := rfl
@[simp] theorem State.foundUe_opOf (s : State) (a : DWord) (b : Bool) (j : Nat) : (s.foundUe a b).op? j = s.op? j := rfl

/-! ### raiseVector -/

@[simp] theorem State.raiseVector_cur (s : State) (q : Nat) : (s.raiseVector q).cur = s.cur := rfl
@[simp] theorem State.raiseVector_agenda (s : State) (q : Nat) : (s.raiseVector q).agenda = s.agenda := rfl
@[simp] theorem State.raiseVector_sealed (s : State) (q : Nat) : (s.raiseVector q).sealed = s.sealed := rfl
@[simp] theorem State.raiseVector_freeCtr (s : State) (q : Nat) : (s.raiseVector q).freeCtr = s.freeCtr := rfl
@[simp] theorem State.raiseVector_hist (s : State) (q : Nat) : (s.raiseVector q).hist = s.hist := rfl
@[simp] theorem State.raiseVector_histLen (s : State) (q : Nat) : (s.raiseVector q).histLen = s.histLen := rfl
@[simp] theorem State.raiseVector_hb (s : State) (q : Nat) : (s.raiseVector q).hb = s.hb := rfl
@[simp] theorem State.raiseVector_hostData (s : State) (q : Nat) : (s.raiseVector q).hostData = s.hostData := rfl
@[simp] theorem State.raiseVector_clock (s : State) (q : Nat) : (s.raiseVector q).clock = s.clock := rfl
@[simp] theorem State.raiseVector_clockLow (s : State) (q : Nat) : (s.raiseVector q).clockLow = s.clockLow := rfl
@[simp] theorem State.raiseVector_mem (s : State) (q : Nat) : (s.raiseVector q).mem = s.mem := rfl
@[simp] theorem State.raiseVector_poison (s : State) (q : Nat) : (s.raiseVector q).poison = s.poison := rfl
@[simp] theorem State.raiseVector_l2poison (s : State) (q : Nat) : (s.raiseVector q).l2poison = s.l2poison := rfl
@[simp] theorem State.raiseVector_flaws (s : State) (q : Nat) : (s.raiseVector q).flaws = s.flaws := rfl
@[simp] theorem State.raiseVector_l2flaws (s : State) (q : Nat) : (s.raiseVector q).l2flaws = s.l2flaws := rfl
@[simp] theorem State.raiseVector_tlbs (s : State) (q : Nat) : (s.raiseVector q).tlbs = s.tlbs := rfl
@[simp] theorem State.raiseVector_tags (s : State) (q : Nat) : (s.raiseVector q).tags = s.tags := rfl
@[simp] theorem State.raiseVector_regions (s : State) (q : Nat) : (s.raiseVector q).regions = s.regions := rfl
@[simp] theorem State.raiseVector_cores (s : State) (q : Nat) : (s.raiseVector q).cores = s.cores := rfl
@[simp] theorem State.raiseVector_groups (s : State) (q : Nat) : (s.raiseVector q).groups = s.groups := rfl
@[simp] theorem State.raiseVector_wgs (s : State) (q : Nat) : (s.raiseVector q).wgs = s.wgs := rfl
@[simp] theorem State.raiseVector_launches (s : State) (q : Nat) : (s.raiseVector q).launches = s.launches := rfl
@[simp] theorem State.raiseVector_ops (s : State) (q : Nat) : (s.raiseVector q).ops = s.ops := rfl
@[simp] theorem State.raiseVector_nextId (s : State) (q : Nat) : (s.raiseVector q).nextId = s.nextId := rfl
@[simp] theorem State.raiseVector_pend (s : State) (q : Nat) : (s.raiseVector q).pend = s.pend := rfl
@[simp] theorem State.raiseVector_queues (s : State) (q : Nat) : (s.raiseVector q).queues = s.queues := rfl
@[simp] theorem State.raiseVector_cmds (s : State) (q : Nat) : (s.raiseVector q).cmds = s.cmds := rfl
@[simp] theorem State.raiseVector_graphs (s : State) (q : Nat) : (s.raiseVector q).graphs = s.graphs := rfl
@[simp] theorem State.raiseVector_comms (s : State) (q : Nat) : (s.raiseVector q).comms = s.comms := rfl
@[simp] theorem State.raiseVector_colls (s : State) (q : Nat) : (s.raiseVector q).colls = s.colls := rfl
@[simp] theorem State.raiseVector_passes (s : State) (q : Nat) : (s.raiseVector q).passes = s.passes := rfl
@[simp] theorem State.raiseVector_saves (s : State) (q : Nat) : (s.raiseVector q).saves = s.saves := rfl
@[simp] theorem State.raiseVector_slices (s : State) (q : Nat) : (s.raiseVector q).slices = s.slices := rfl
@[simp] theorem State.raiseVector_regionTab (s : State) (q : Nat) : (s.raiseVector q).regionTab = s.regionTab := rfl
@[simp] theorem State.raiseVector_regionRight (s : State) (q : Nat) : (s.raiseVector q).regionRight = s.regionRight := rfl
@[simp] theorem State.raiseVector_ports (s : State) (q : Nat) : (s.raiseVector q).ports = s.ports := rfl
@[simp] theorem State.raiseVector_dlinks (s : State) (q : Nat) : (s.raiseVector q).dlinks = s.dlinks := rfl
@[simp] theorem State.raiseVector_peers (s : State) (q : Nat) : (s.raiseVector q).peers = s.peers := rfl
@[simp] theorem State.raiseVector_moduleNo (s : State) (q : Nat) : (s.raiseVector q).moduleNo = s.moduleNo := rfl
@[simp] theorem State.raiseVector_layout (s : State) (q : Nat) : (s.raiseVector q).layout = s.layout := rfl
@[simp] theorem State.raiseVector_bootState (s : State) (q : Nat) : (s.raiseVector q).bootState = s.bootState := rfl
@[simp] theorem State.raiseVector_bootReason (s : State) (q : Nat) : (s.raiseVector q).bootReason = s.bootReason := rfl
@[simp] theorem State.raiseVector_failCnt (s : State) (q : Nat) : (s.raiseVector q).failCnt = s.failCnt := rfl
@[simp] theorem State.raiseVector_skipCheck (s : State) (q : Nat) : (s.raiseVector q).skipCheck = s.skipCheck := rfl
@[simp] theorem State.raiseVector_apBase (s : State) (q : Nat) : (s.raiseVector q).apBase = s.apBase := rfl
@[simp] theorem State.raiseVector_apTier (s : State) (q : Nat) : (s.raiseVector q).apTier = s.apTier := rfl
@[simp] theorem State.raiseVector_irqStat (s : State) (q : Nat) : (s.raiseVector q).irqStat = s.irqStat ||| (1#64 <<< q) := rfl
@[simp] theorem State.raiseVector_errLog (s : State) (q : Nat) : (s.raiseVector q).errLog = s.errLog := rfl
@[simp] theorem State.raiseVector_flashWe (s : State) (q : Nat) : (s.raiseVector q).flashWe = s.flashWe := rfl
@[simp] theorem State.raiseVector_flashBusy (s : State) (q : Nat) : (s.raiseVector q).flashBusy = s.flashBusy := rfl
@[simp] theorem State.raiseVector_temp (s : State) (q : Nat) : (s.raiseVector q).temp = s.temp := rfl
@[simp] theorem State.raiseVector_pwr (s : State) (q : Nat) : (s.raiseVector q).pwr = s.pwr := rfl
@[simp] theorem State.raiseVector_ceCnt (s : State) (q : Nat) : (s.raiseVector q).ceCnt = s.ceCnt := rfl
@[simp] theorem State.raiseVector_ceThr (s : State) (q : Nat) : (s.raiseVector q).ceThr = s.ceThr := rfl
@[simp] theorem State.raiseVector_ueAddr (s : State) (q : Nat) : (s.raiseVector q).ueAddr = s.ueAddr := rfl
@[simp] theorem State.raiseVector_ueStat (s : State) (q : Nat) : (s.raiseVector q).ueStat = s.ueStat := rfl
@[simp] theorem State.raiseVector_linkDown (s : State) (q : Nat) : (s.raiseVector q).linkDown = s.linkDown := rfl
@[simp] theorem State.raiseVector_byte (s : State) (q : Nat) (j : Nat) : (s.raiseVector q).byte j = s.byte j := rfl
@[simp] theorem State.raiseVector_poisoned (s : State) (q : Nat) (j : Nat) : (s.raiseVector q).poisoned j = s.poisoned j := rfl
@[simp] theorem State.raiseVector_core (s : State) (q : Nat) (j : Nat) : (s.raiseVector q).core j = s.core j := rfl
@[simp] theorem State.raiseVector_queue (s : State) (q : Nat) (j : Nat) : (s.raiseVector q).queue j = s.queue j := rfl
@[simp] theorem State.raiseVector_port (s : State) (q : Nat) (j : Nat) : (s.raiseVector q).port j = s.port j := rfl
@[simp] theorem State.raiseVector_dlink (s : State) (q : Nat) (j : Nat) : (s.raiseVector q).dlink j = s.dlink j := rfl
@[simp] theorem State.raiseVector_groupOf (s : State) (q : Nat) (j : Nat) : (s.raiseVector q).group? j = s.group? j := rfl
@[simp] theorem State.raiseVector_wgOf (s : State) (q : Nat) (j : Nat) : (s.raiseVector q).wg? j = s.wg? j := rfl
@[simp] theorem State.raiseVector_launchOf (s : State) (q : Nat) (j : Nat) : (s.raiseVector q).launch? j = s.launch? j := rfl
@[simp] theorem State.raiseVector_slice (s : State) (q : Nat) (j : Nat) : (s.raiseVector q).slice j = s.slice j := rfl
@[simp] theorem State.raiseVector_region (s : State) (q : Nat) (j : Nat) : (s.raiseVector q).region j = s.region j := rfl
@[simp] theorem State.raiseVector_opOf (s : State) (q : Nat) (j : Nat) : (s.raiseVector q).op? j = s.op? j := rfl

/-! ### logErr -/

@[simp] theorem State.logErr_cur (s : State) (n : Nat) : (s.logErr n).cur = s.cur := rfl
@[simp] theorem State.logErr_agenda (s : State) (n : Nat) : (s.logErr n).agenda = s.agenda := rfl
@[simp] theorem State.logErr_sealed (s : State) (n : Nat) : (s.logErr n).sealed = s.sealed := rfl
@[simp] theorem State.logErr_freeCtr (s : State) (n : Nat) : (s.logErr n).freeCtr = s.freeCtr := rfl
@[simp] theorem State.logErr_hist (s : State) (n : Nat) : (s.logErr n).hist = s.hist := rfl
@[simp] theorem State.logErr_histLen (s : State) (n : Nat) : (s.logErr n).histLen = s.histLen := rfl
@[simp] theorem State.logErr_hb (s : State) (n : Nat) : (s.logErr n).hb = s.hb := rfl
@[simp] theorem State.logErr_hostData (s : State) (n : Nat) : (s.logErr n).hostData = s.hostData := rfl
@[simp] theorem State.logErr_clock (s : State) (n : Nat) : (s.logErr n).clock = s.clock := rfl
@[simp] theorem State.logErr_clockLow (s : State) (n : Nat) : (s.logErr n).clockLow = s.clockLow := rfl
@[simp] theorem State.logErr_mem (s : State) (n : Nat) : (s.logErr n).mem = s.mem := rfl
@[simp] theorem State.logErr_poison (s : State) (n : Nat) : (s.logErr n).poison = s.poison := rfl
@[simp] theorem State.logErr_l2poison (s : State) (n : Nat) : (s.logErr n).l2poison = s.l2poison := rfl
@[simp] theorem State.logErr_flaws (s : State) (n : Nat) : (s.logErr n).flaws = s.flaws := rfl
@[simp] theorem State.logErr_l2flaws (s : State) (n : Nat) : (s.logErr n).l2flaws = s.l2flaws := rfl
@[simp] theorem State.logErr_tlbs (s : State) (n : Nat) : (s.logErr n).tlbs = s.tlbs := rfl
@[simp] theorem State.logErr_tags (s : State) (n : Nat) : (s.logErr n).tags = s.tags := rfl
@[simp] theorem State.logErr_regions (s : State) (n : Nat) : (s.logErr n).regions = s.regions := rfl
@[simp] theorem State.logErr_cores (s : State) (n : Nat) : (s.logErr n).cores = s.cores := rfl
@[simp] theorem State.logErr_groups (s : State) (n : Nat) : (s.logErr n).groups = s.groups := rfl
@[simp] theorem State.logErr_wgs (s : State) (n : Nat) : (s.logErr n).wgs = s.wgs := rfl
@[simp] theorem State.logErr_launches (s : State) (n : Nat) : (s.logErr n).launches = s.launches := rfl
@[simp] theorem State.logErr_ops (s : State) (n : Nat) : (s.logErr n).ops = s.ops := rfl
@[simp] theorem State.logErr_nextId (s : State) (n : Nat) : (s.logErr n).nextId = s.nextId := rfl
@[simp] theorem State.logErr_pend (s : State) (n : Nat) : (s.logErr n).pend = s.pend := rfl
@[simp] theorem State.logErr_queues (s : State) (n : Nat) : (s.logErr n).queues = s.queues := rfl
@[simp] theorem State.logErr_cmds (s : State) (n : Nat) : (s.logErr n).cmds = s.cmds := rfl
@[simp] theorem State.logErr_graphs (s : State) (n : Nat) : (s.logErr n).graphs = s.graphs := rfl
@[simp] theorem State.logErr_comms (s : State) (n : Nat) : (s.logErr n).comms = s.comms := rfl
@[simp] theorem State.logErr_colls (s : State) (n : Nat) : (s.logErr n).colls = s.colls := rfl
@[simp] theorem State.logErr_passes (s : State) (n : Nat) : (s.logErr n).passes = s.passes := rfl
@[simp] theorem State.logErr_saves (s : State) (n : Nat) : (s.logErr n).saves = s.saves := rfl
@[simp] theorem State.logErr_slices (s : State) (n : Nat) : (s.logErr n).slices = s.slices := rfl
@[simp] theorem State.logErr_regionTab (s : State) (n : Nat) : (s.logErr n).regionTab = s.regionTab := rfl
@[simp] theorem State.logErr_regionRight (s : State) (n : Nat) : (s.logErr n).regionRight = s.regionRight := rfl
@[simp] theorem State.logErr_ports (s : State) (n : Nat) : (s.logErr n).ports = s.ports := rfl
@[simp] theorem State.logErr_dlinks (s : State) (n : Nat) : (s.logErr n).dlinks = s.dlinks := rfl
@[simp] theorem State.logErr_peers (s : State) (n : Nat) : (s.logErr n).peers = s.peers := rfl
@[simp] theorem State.logErr_moduleNo (s : State) (n : Nat) : (s.logErr n).moduleNo = s.moduleNo := rfl
@[simp] theorem State.logErr_layout (s : State) (n : Nat) : (s.logErr n).layout = s.layout := rfl
@[simp] theorem State.logErr_bootState (s : State) (n : Nat) : (s.logErr n).bootState = s.bootState := rfl
@[simp] theorem State.logErr_bootReason (s : State) (n : Nat) : (s.logErr n).bootReason = s.bootReason := rfl
@[simp] theorem State.logErr_failCnt (s : State) (n : Nat) : (s.logErr n).failCnt = s.failCnt := rfl
@[simp] theorem State.logErr_skipCheck (s : State) (n : Nat) : (s.logErr n).skipCheck = s.skipCheck := rfl
@[simp] theorem State.logErr_apBase (s : State) (n : Nat) : (s.logErr n).apBase = s.apBase := rfl
@[simp] theorem State.logErr_apTier (s : State) (n : Nat) : (s.logErr n).apTier = s.apTier := rfl
@[simp] theorem State.logErr_irqStat (s : State) (n : Nat) : (s.logErr n).irqStat = s.irqStat := rfl
@[simp] theorem State.logErr_errLog (s : State) (n : Nat) : (s.logErr n).errLog = s.errLog ||| (1#32 <<< n) := rfl
@[simp] theorem State.logErr_flashWe (s : State) (n : Nat) : (s.logErr n).flashWe = s.flashWe := rfl
@[simp] theorem State.logErr_flashBusy (s : State) (n : Nat) : (s.logErr n).flashBusy = s.flashBusy := rfl
@[simp] theorem State.logErr_temp (s : State) (n : Nat) : (s.logErr n).temp = s.temp := rfl
@[simp] theorem State.logErr_pwr (s : State) (n : Nat) : (s.logErr n).pwr = s.pwr := rfl
@[simp] theorem State.logErr_ceCnt (s : State) (n : Nat) : (s.logErr n).ceCnt = s.ceCnt := rfl
@[simp] theorem State.logErr_ceThr (s : State) (n : Nat) : (s.logErr n).ceThr = s.ceThr := rfl
@[simp] theorem State.logErr_ueAddr (s : State) (n : Nat) : (s.logErr n).ueAddr = s.ueAddr := rfl
@[simp] theorem State.logErr_ueStat (s : State) (n : Nat) : (s.logErr n).ueStat = s.ueStat := rfl
@[simp] theorem State.logErr_linkDown (s : State) (n : Nat) : (s.logErr n).linkDown = s.linkDown := rfl
@[simp] theorem State.logErr_byte (s : State) (n : Nat) (j : Nat) : (s.logErr n).byte j = s.byte j := rfl
@[simp] theorem State.logErr_poisoned (s : State) (n : Nat) (j : Nat) : (s.logErr n).poisoned j = s.poisoned j := rfl
@[simp] theorem State.logErr_core (s : State) (n : Nat) (j : Nat) : (s.logErr n).core j = s.core j := rfl
@[simp] theorem State.logErr_queue (s : State) (n : Nat) (j : Nat) : (s.logErr n).queue j = s.queue j := rfl
@[simp] theorem State.logErr_port (s : State) (n : Nat) (j : Nat) : (s.logErr n).port j = s.port j := rfl
@[simp] theorem State.logErr_dlink (s : State) (n : Nat) (j : Nat) : (s.logErr n).dlink j = s.dlink j := rfl
@[simp] theorem State.logErr_groupOf (s : State) (n : Nat) (j : Nat) : (s.logErr n).group? j = s.group? j := rfl
@[simp] theorem State.logErr_wgOf (s : State) (n : Nat) (j : Nat) : (s.logErr n).wg? j = s.wg? j := rfl
@[simp] theorem State.logErr_launchOf (s : State) (n : Nat) (j : Nat) : (s.logErr n).launch? j = s.launch? j := rfl
@[simp] theorem State.logErr_slice (s : State) (n : Nat) (j : Nat) : (s.logErr n).slice j = s.slice j := rfl
@[simp] theorem State.logErr_region (s : State) (n : Nat) (j : Nat) : (s.logErr n).region j = s.region j := rfl
@[simp] theorem State.logErr_opOf (s : State) (n : Nat) (j : Nat) : (s.logErr n).op? j = s.op? j := rfl

/-! ### cmdReady -/

@[simp] theorem State.cmdReady_cur (s : State) (c : Nat) : (s.cmdReady c).cur = s.cur := rfl
@[simp] theorem State.cmdReady_agenda (s : State) (c : Nat) : (s.cmdReady c).agenda = s.agenda := rfl
@[simp] theorem State.cmdReady_sealed (s : State) (c : Nat) : (s.cmdReady c).sealed = s.sealed := rfl
@[simp] theorem State.cmdReady_freeCtr (s : State) (c : Nat) : (s.cmdReady c).freeCtr = s.freeCtr := rfl
@[simp] theorem State.cmdReady_hist (s : State) (c : Nat) : (s.cmdReady c).hist = s.hist := rfl
@[simp] theorem State.cmdReady_histLen (s : State) (c : Nat) : (s.cmdReady c).histLen = s.histLen := rfl
@[simp] theorem State.cmdReady_hb (s : State) (c : Nat) : (s.cmdReady c).hb = s.hb := rfl
@[simp] theorem State.cmdReady_hostData (s : State) (c : Nat) : (s.cmdReady c).hostData = s.hostData := rfl
@[simp] theorem State.cmdReady_clock (s : State) (c : Nat) : (s.cmdReady c).clock = s.clock := rfl
@[simp] theorem State.cmdReady_clockLow (s : State) (c : Nat) : (s.cmdReady c).clockLow = s.clockLow := rfl
@[simp] theorem State.cmdReady_mem (s : State) (c : Nat) : (s.cmdReady c).mem = s.mem := rfl
@[simp] theorem State.cmdReady_poison (s : State) (c : Nat) : (s.cmdReady c).poison = s.poison := rfl
@[simp] theorem State.cmdReady_l2poison (s : State) (c : Nat) : (s.cmdReady c).l2poison = s.l2poison := rfl
@[simp] theorem State.cmdReady_flaws (s : State) (c : Nat) : (s.cmdReady c).flaws = s.flaws := rfl
@[simp] theorem State.cmdReady_l2flaws (s : State) (c : Nat) : (s.cmdReady c).l2flaws = s.l2flaws := rfl
@[simp] theorem State.cmdReady_tlbs (s : State) (c : Nat) : (s.cmdReady c).tlbs = s.tlbs := rfl
@[simp] theorem State.cmdReady_tags (s : State) (c : Nat) : (s.cmdReady c).tags = s.tags := rfl
@[simp] theorem State.cmdReady_regions (s : State) (c : Nat) : (s.cmdReady c).regions = s.regions := rfl
@[simp] theorem State.cmdReady_cores (s : State) (c : Nat) : (s.cmdReady c).cores = s.cores := rfl
@[simp] theorem State.cmdReady_groups (s : State) (c : Nat) : (s.cmdReady c).groups = s.groups := rfl
@[simp] theorem State.cmdReady_wgs (s : State) (c : Nat) : (s.cmdReady c).wgs = s.wgs := rfl
@[simp] theorem State.cmdReady_launches (s : State) (c : Nat) : (s.cmdReady c).launches = s.launches := rfl
@[simp] theorem State.cmdReady_ops (s : State) (c : Nat) : (s.cmdReady c).ops = s.ops := rfl
@[simp] theorem State.cmdReady_nextId (s : State) (c : Nat) : (s.cmdReady c).nextId = s.nextId := rfl
@[simp] theorem State.cmdReady_pend (s : State) (c : Nat) : (s.cmdReady c).pend = s.pend := rfl
@[simp] theorem State.cmdReady_queues (s : State) (c : Nat) : (s.cmdReady c).queues = s.queues := rfl
@[simp] theorem State.cmdReady_cmds (s : State) (c : Nat) : (s.cmdReady c).cmds = Tab.modify s.cmds c fun x => { x with ready := true } := rfl
@[simp] theorem State.cmdReady_graphs (s : State) (c : Nat) : (s.cmdReady c).graphs = s.graphs := rfl
@[simp] theorem State.cmdReady_comms (s : State) (c : Nat) : (s.cmdReady c).comms = s.comms := rfl
@[simp] theorem State.cmdReady_colls (s : State) (c : Nat) : (s.cmdReady c).colls = s.colls := rfl
@[simp] theorem State.cmdReady_passes (s : State) (c : Nat) : (s.cmdReady c).passes = s.passes := rfl
@[simp] theorem State.cmdReady_saves (s : State) (c : Nat) : (s.cmdReady c).saves = s.saves := rfl
@[simp] theorem State.cmdReady_slices (s : State) (c : Nat) : (s.cmdReady c).slices = s.slices := rfl
@[simp] theorem State.cmdReady_regionTab (s : State) (c : Nat) : (s.cmdReady c).regionTab = s.regionTab := rfl
@[simp] theorem State.cmdReady_regionRight (s : State) (c : Nat) : (s.cmdReady c).regionRight = s.regionRight := rfl
@[simp] theorem State.cmdReady_ports (s : State) (c : Nat) : (s.cmdReady c).ports = s.ports := rfl
@[simp] theorem State.cmdReady_dlinks (s : State) (c : Nat) : (s.cmdReady c).dlinks = s.dlinks := rfl
@[simp] theorem State.cmdReady_peers (s : State) (c : Nat) : (s.cmdReady c).peers = s.peers := rfl
@[simp] theorem State.cmdReady_moduleNo (s : State) (c : Nat) : (s.cmdReady c).moduleNo = s.moduleNo := rfl
@[simp] theorem State.cmdReady_layout (s : State) (c : Nat) : (s.cmdReady c).layout = s.layout := rfl
@[simp] theorem State.cmdReady_bootState (s : State) (c : Nat) : (s.cmdReady c).bootState = s.bootState := rfl
@[simp] theorem State.cmdReady_bootReason (s : State) (c : Nat) : (s.cmdReady c).bootReason = s.bootReason := rfl
@[simp] theorem State.cmdReady_failCnt (s : State) (c : Nat) : (s.cmdReady c).failCnt = s.failCnt := rfl
@[simp] theorem State.cmdReady_skipCheck (s : State) (c : Nat) : (s.cmdReady c).skipCheck = s.skipCheck := rfl
@[simp] theorem State.cmdReady_apBase (s : State) (c : Nat) : (s.cmdReady c).apBase = s.apBase := rfl
@[simp] theorem State.cmdReady_apTier (s : State) (c : Nat) : (s.cmdReady c).apTier = s.apTier := rfl
@[simp] theorem State.cmdReady_irqStat (s : State) (c : Nat) : (s.cmdReady c).irqStat = s.irqStat := rfl
@[simp] theorem State.cmdReady_errLog (s : State) (c : Nat) : (s.cmdReady c).errLog = s.errLog := rfl
@[simp] theorem State.cmdReady_flashWe (s : State) (c : Nat) : (s.cmdReady c).flashWe = s.flashWe := rfl
@[simp] theorem State.cmdReady_flashBusy (s : State) (c : Nat) : (s.cmdReady c).flashBusy = s.flashBusy := rfl
@[simp] theorem State.cmdReady_temp (s : State) (c : Nat) : (s.cmdReady c).temp = s.temp := rfl
@[simp] theorem State.cmdReady_pwr (s : State) (c : Nat) : (s.cmdReady c).pwr = s.pwr := rfl
@[simp] theorem State.cmdReady_ceCnt (s : State) (c : Nat) : (s.cmdReady c).ceCnt = s.ceCnt := rfl
@[simp] theorem State.cmdReady_ceThr (s : State) (c : Nat) : (s.cmdReady c).ceThr = s.ceThr := rfl
@[simp] theorem State.cmdReady_ueAddr (s : State) (c : Nat) : (s.cmdReady c).ueAddr = s.ueAddr := rfl
@[simp] theorem State.cmdReady_ueStat (s : State) (c : Nat) : (s.cmdReady c).ueStat = s.ueStat := rfl
@[simp] theorem State.cmdReady_linkDown (s : State) (c : Nat) : (s.cmdReady c).linkDown = s.linkDown := rfl
@[simp] theorem State.cmdReady_byte (s : State) (c : Nat) (j : Nat) : (s.cmdReady c).byte j = s.byte j := rfl
@[simp] theorem State.cmdReady_poisoned (s : State) (c : Nat) (j : Nat) : (s.cmdReady c).poisoned j = s.poisoned j := rfl
@[simp] theorem State.cmdReady_core (s : State) (c : Nat) (j : Nat) : (s.cmdReady c).core j = s.core j := rfl
@[simp] theorem State.cmdReady_queue (s : State) (c : Nat) (j : Nat) : (s.cmdReady c).queue j = s.queue j := rfl
@[simp] theorem State.cmdReady_port (s : State) (c : Nat) (j : Nat) : (s.cmdReady c).port j = s.port j := rfl
@[simp] theorem State.cmdReady_dlink (s : State) (c : Nat) (j : Nat) : (s.cmdReady c).dlink j = s.dlink j := rfl
@[simp] theorem State.cmdReady_groupOf (s : State) (c : Nat) (j : Nat) : (s.cmdReady c).group? j = s.group? j := rfl
@[simp] theorem State.cmdReady_wgOf (s : State) (c : Nat) (j : Nat) : (s.cmdReady c).wg? j = s.wg? j := rfl
@[simp] theorem State.cmdReady_launchOf (s : State) (c : Nat) (j : Nat) : (s.cmdReady c).launch? j = s.launch? j := rfl
@[simp] theorem State.cmdReady_slice (s : State) (c : Nat) (j : Nat) : (s.cmdReady c).slice j = s.slice j := rfl
@[simp] theorem State.cmdReady_region (s : State) (c : Nat) (j : Nat) : (s.cmdReady c).region j = s.region j := rfl
@[simp] theorem State.cmdReady_opOf (s : State) (c : Nat) (j : Nat) : (s.cmdReady c).op? j = s.op? j := rfl

/-! ### What an accessor reads of what an update has written -/

@[simp] theorem State.setCore_core_self (s : State) (c : Nat) (x : CoreSt) : (s.setCore c x).core c = x := Tab.get_put_self _ _ _ _
theorem State.setCore_core_of_ne (s : State) {c j : Nat} (x : CoreSt) (h : j ≠ c) : (s.setCore c x).core j = s.core j :=
  Tab.get_put_of_ne _ _ _ h
@[simp] theorem State.setQueue_queue_self (s : State) (q : Nat) (x : Queue) : (s.setQueue q x).queue q = x := Tab.get_put_self _ _ _ _
theorem State.setQueue_queue_of_ne (s : State) {q j : Nat} (x : Queue) (h : j ≠ q) : (s.setQueue q x).queue j = s.queue j :=
  Tab.get_put_of_ne _ _ _ h
@[simp] theorem State.setPort_port_self (s : State) (p : Nat) (x : Port) : (s.setPort p x).port p = x := Tab.get_put_self _ _ _ _
theorem State.setPort_port_of_ne (s : State) {p j : Nat} (x : Port) (h : j ≠ p) : (s.setPort p x).port j = s.port j :=
  Tab.get_put_of_ne _ _ _ h
@[simp] theorem State.setDlink_dlink_self (s : State) (k : Nat) (x : DLink) : (s.setDlink k x).dlink k = x := Tab.get_put_self _ _ _ _
theorem State.setDlink_dlink_of_ne (s : State) {k j : Nat} (x : DLink) (h : j ≠ k) : (s.setDlink k x).dlink j = s.dlink j :=
  Tab.get_put_of_ne _ _ _ h
@[simp] theorem State.setGroup_group_self (s : State) (k : Nat) (x : Group) : (s.setGroup k x).group? k = some x :=
  Tab.find?_put_self _ _ _
theorem State.setGroup_group_of_ne (s : State) {k j : Nat} (x : Group) (h : j ≠ k) : (s.setGroup k x).group? j = s.group? j :=
  Tab.find?_put_of_ne _ _ h
@[simp] theorem State.modGroup_group_self (s : State) (k : Nat) (f : Group → Group) :
    (s.modGroup k f).group? k = (s.group? k).map f := Tab.find?_modify_self _ _ _
theorem State.modGroup_group_of_ne (s : State) {k j : Nat} (f : Group → Group) (h : j ≠ k) :
    (s.modGroup k f).group? j = s.group? j := Tab.find?_modify_of_ne _ _ h
@[simp] theorem State.modWg_wg_self (s : State) (w : Nat) (f : Wg → Wg) : (s.modWg w f).wg? w = (s.wg? w).map f :=
  Tab.find?_modify_self _ _ _
theorem State.modWg_wg_of_ne (s : State) {w j : Nat} (f : Wg → Wg) (h : j ≠ w) : (s.modWg w f).wg? j = s.wg? j :=
  Tab.find?_modify_of_ne _ _ h
@[simp] theorem State.modLaunch_launch_self (s : State) (l : Nat) (f : Launch → Launch) :
    (s.modLaunch l f).launch? l = (s.launch? l).map f := Tab.find?_modify_self _ _ _
theorem State.modLaunch_launch_of_ne (s : State) {l j : Nat} (f : Launch → Launch) (h : j ≠ l) :
    (s.modLaunch l f).launch? j = s.launch? j := Tab.find?_modify_of_ne _ _ h
@[simp] theorem State.setByte_byte_self (s : State) (k : Nat) (b : Byte) : (s.setByte k b).byte k = b := Tab.get_set_self _ _ _ _
theorem State.setByte_byte_of_ne (s : State) {k j : Nat} (b : Byte) (h : j ≠ k) : (s.setByte k b).byte j = s.byte j :=
  Tab.get_set_of_ne _ _ _ h
@[simp] theorem State.release_region_self (s : State) (p : Nat) : (s.release p).region p = s.region p + 1 := Tab.get_put_self _ _ _ _
theorem State.release_region_of_ne (s : State) {p j : Nat} (h : j ≠ p) : (s.release p).region j = s.region j :=
  Tab.get_put_of_ne _ _ _ h

end Sys2Proof.Machine
end

