-- ==== Sys2Proof/Laws/Memory.lean ====
section
/-! SUPPORT. What the operations over memory can do: each keeps the canonical form, a read changes no byte, and a write
changes the bytes that it names. -/

namespace Sys2Proof.Machine

open Sys2Proof

theorem reset_memory_wf : Memory.wf State.reset.mem = true := rfl

/-! ### Writes of bytes -/

theorem setByte_wf {s : State} (k : Nat) (b : Byte) (h : Memory.wf s.mem = true) : Memory.wf (s.setByte k b).mem = true :=
  Tab.wf_set unwritten s.mem k b h

theorem setBytes_wf (kbs : List (Nat × Byte)) {s : State} (h : Memory.wf s.mem = true) :
    Memory.wf (kbs.foldl (fun s kb => s.setByte kb.1 kb.2) s).mem = true := by
  induction kbs generalizing s with
  | nil => exact h
  | cons kb kbs ih => exact ih (setByte_wf kb.1 kb.2 h)

theorem writeBytes_mem (s : State) (kbs : List (Nat × Byte)) :
    (s.writeBytes kbs).mem = (kbs.foldl (fun s kb => s.setByte kb.1 kb.2) s).mem := rfl

theorem writeBytes_wf {s : State} (kbs : List (Nat × Byte)) (h : Memory.wf s.mem = true) :
    Memory.wf (s.writeBytes kbs).mem = true := setBytes_wf kbs h

theorem writeNat_wf {s : State} (k n x : Nat) (h : Memory.wf s.mem = true) : Memory.wf (s.writeNat k n x).mem = true :=
  writeBytes_wf _ h

/-- A byte that a list of writes does not name stays. -/
theorem setBytes_byte_of_notMem (kbs : List (Nat × Byte)) (s : State) {j : Nat} (h : j ∉ kbs.map (·.1)) :
    (kbs.foldl (fun s kb => s.setByte kb.1 kb.2) s).byte j = s.byte j := by
  induction kbs generalizing s with
  | nil => rfl
  | cons kb kbs ih =>
    simp only [List.map_cons, List.mem_cons, not_or] at h
    rw [List.foldl_cons, ih _ h.2, State.setByte_byte_of_ne s kb.2 h.1]

theorem writeBytes_byte_of_notMem (s : State) (kbs : List (Nat × Byte)) {j : Nat} (h : j ∉ kbs.map (·.1)) :
    (s.writeBytes kbs).byte j = s.byte j := setBytes_byte_of_notMem kbs s h

/-! ### Page marks -/

/-- A page mark rewrites at most one byte, in the entry used. -/
theorem touch_mem (s : State) (w : Who) (b : Bool) (t : Touch) :
    (touch s w b t).mem = s.mem ∨ ∃ x, (touch s w b t).mem = Tab.set unwritten s.mem (t.2.2 + 1) x := by
  unfold touch
  generalize (if b then 0xC else 0x4 : Nat) = n
  dsimp only
  by_cases h : ((tlbFind s w.die w.ctx.asid t.1).isSome && (t.2.1 ||| n * 256) == t.2.1) = true
  · rw [if_pos h]
    exact .inl rfl
  · rw [if_neg h]
    exact .inr ⟨_, rfl⟩

theorem touch_wf {s : State} (w : Who) (b : Bool) (t : Touch) (h : Memory.wf s.mem = true) :
    Memory.wf (touch s w b t).mem = true := by
  rcases touch_mem s w b t with hm | ⟨x, hm⟩
  · rw [hm]
    exact h
  · rw [hm]
    exact Tab.wf_set unwritten s.mem _ x h

theorem touchAll_wf (ts : List Touch) {s : State} (w : Who) (b : Bool) (h : Memory.wf s.mem = true) :
    Memory.wf (touchAll s w b ts).mem = true := by
  unfold touchAll
  induction ts generalizing s with
  | nil => exact h
  | cons t ts ih => exact ih (touch_wf w b t h)

theorem touch_byte_of_ne {s : State} (w : Who) (b : Bool) (t : Touch) {j : Nat} (h : j ≠ t.2.2 + 1) :
    (touch s w b t).byte j = s.byte j := by
  unfold State.byte
  rcases touch_mem s w b t with hm | ⟨x, hm⟩
  · rw [hm]
  · rw [hm]
    exact Tab.get_set_of_ne unwritten s.mem x h

theorem touchAll_byte_of_notMem (ts : List Touch) (s : State) (w : Who) (b : Bool) {j : Nat}
    (h : j ∉ ts.map (fun t => t.2.2 + 1)) : (touchAll s w b ts).byte j = s.byte j := by
  unfold touchAll
  induction ts generalizing s with
  | nil => rfl
  | cons t ts ih =>
    simp only [List.map_cons, List.mem_cons, not_or] at h
    rw [List.foldl_cons, ih _ h.2, touch_byte_of_ne w b t h.1]

/-- What a resolution answers: the requests in order, each with its bytes and their virtual addresses, and a state that differs by page
marks. -/
theorem resolveAll_ok {s : State} {w : Who} {k : AccK} {m : Bool} {al : DWord → Nat → Nat} {rs : List Req}
    {hs : List (Req × List Hit)} {s1 : State} (h : resolveAll s w k m al rs = .ok (hs, s1)) :
    ∃ ys, collect (rs.map fun r => resolve s w k r.1 r.2.1 r.2.2 (al r.2.1 r.2.2)) = .ok ys ∧
      hs = (rs.zip (ys.map (·.1))).map (fun x => (x.1, atVa x.1.2.1 x.2)) ∧
      s1 = touchAll s w k.writes (ys.flatMap (·.2)) := by
  unfold resolveAll at h
  simp only [List.map_map] at h
  split at h
  · cases h
  · split at h
    · cases h
    · rename_i ys hys
      split at h
      · cases h
      · simp only [Except.ok.injEq, Prod.mk.injEq] at h
        exact ⟨ys, hys, h.1.symm, h.2.symm⟩

theorem resolveAll_wf {s : State} {w : Who} {k : AccK} {m : Bool} {al : DWord → Nat → Nat} {rs : List Req}
    {hs : List (Req × List Hit)} {s1 : State} (h : resolveAll s w k m al rs = .ok (hs, s1)) (hw : Memory.wf s.mem = true) :
    Memory.wf s1.mem = true := by
  obtain ⟨ys, -, -, rfl⟩ := resolveAll_ok h
  exact touchAll_wf _ w _ hw

/-! ### What changes no byte -/

@[simp] theorem setHb_mem (s : State) (me : Nat) (a : AgHb) : (s.setHb me a).mem = s.mem := by
  unfold State.setHb
  split <;> rfl

@[simp] theorem bump_mem (s : State) (me : Nat) : (s.bump me).mem = s.mem := setHb_mem _ _ _
@[simp] theorem released_mem (s : State) (me : Nat) : (s.released me).mem = s.mem := setHb_mem _ _ _
@[simp] theorem learn_mem (s : State) (me : Nat) (c : Clk) : (s.learn me c).mem = s.mem := setHb_mem _ _ _
@[simp] theorem setChan_mem (s : State) (c : Chan) (xs : List Clk) : (s.setChan c xs).mem = s.mem := rfl

@[simp] theorem post_mem (s : State) (c : Chan) (x : Clk) : (s.post c x).mem = s.mem := by
  unfold State.post
  split <;> rfl

/-- A chain of updates that change no byte changes none. -/
theorem foldl_mem {α : Type} (f : State → α → State) (h : ∀ s a, (f s a).mem = s.mem) (xs : List α) (s : State) :
    (xs.foldl f s).mem = s.mem := by
  induction xs generalizing s with
  | nil => rfl
  | cons x xs ih => rw [List.foldl_cons, ih, h]

@[simp] theorem releaseTo_mem (s : State) (ag : Agent) (cs : List Chan) : (releaseTo s ag cs).mem = s.mem := by
  unfold releaseTo
  simp only [State.release_mem, released_mem]
  exact foldl_mem _ (fun _ _ => post_mem _ _ _) _ _

@[simp] theorem cleanse_mem (s : State) (ks : List Nat) : (s.cleanse ks).mem = s.mem := rfl

@[simp] theorem acquires_mem (s : State) (me : Nat) : (s.acquires me).mem = s.mem := by
  unfold State.acquires
  dsimp only
  split
  · exact setHb_mem _ _ _
  · rfl

@[simp] theorem readFrom_mem (s : State) (w : Who) (rs : List Rel) : (s.readFrom w rs).mem = s.mem := by
  unfold State.readFrom
  dsimp only
  split
  · rw [foldl_mem _ (fun _ _ => learn_mem _ _ _), acquires_mem, setHb_mem]
  · exact setHb_mem _ _ _

/-! ### Reads -/

@[simp] theorem record_mem (s : State) (w : Who) (b m : Bool) (k : Nat) : (record s w b m k).mem = s.mem := rfl
@[simp] theorem corrected_mem (s : State) : s.corrected.mem = s.mem := rfl

@[simp] theorem correctAt_mem (s : State) (k : Nat) : (correctAt s k).mem = s.mem := by
  unfold correctAt
  dsimp only
  split <;> split <;> rfl

@[simp] theorem pickInstant_mem (s : State) (ns : List Nat) : (pickInstant s ns).2.mem = s.mem := by
  unfold pickInstant
  split <;> rfl

@[simp] theorem readHit_mem (s : State) (w : Who) (r : Bool) (h : Hit) : (readHit s w r h).2.2.mem = s.mem :=
  pickInstant_mem s _

@[simp] theorem readEach_mem (hs : List Hit) (s : State) (w : Who) (m : Bool) : (readEach s w m hs).2.mem = s.mem := by
  induction hs generalizing s with
  | nil => rfl
  | cons h hs ih =>
    simp only [readEach]
    rw [ih, readHit_mem]

@[simp] theorem recordReads_mem (s : State) (w : Who) (m : Bool) (hs : List Hit) : (recordReads s w m hs).mem = s.mem := by
  unfold recordReads
  refine foldl_mem _ (fun s h => ?_) _ _
  split <;> rfl

/-- Reading bytes changes none. -/
@[simp] theorem readHits_mem (hs : List Hit) (s : State) (w : Who) (m : Bool) : (readHits s w m hs).2.mem = s.mem := by
  have hc : (hs.foldl (fun s h => correctAt s h.key) s).mem = s.mem := foldl_mem _ (fun s h => correctAt_mem s h.key) hs s
  unfold readHits
  dsimp only
  split <;> split <;> simp [hc]

@[simp] theorem readByteLanes_mem (hs : List (Req × List Hit)) (s : State) (w : Who) (m : Bool) :
    (readByteLanes s w m hs).2.mem = s.mem := by
  induction hs generalizing s with
  | nil => rfl
  | cons x hs ih =>
    simp only [readByteLanes]
    rw [ih]
    simp

@[simp] theorem readLanes_mem (hs : List (Req × List Hit)) (s : State) (w : Who) (m : Bool) :
    (readLanes s w m hs).2.mem = s.mem := readByteLanes_mem hs s w m

theorem readPlain_wf {s : State} {w : Who} {k : AccK} {a : DWord} {n al : Nat} {bs : List Byte} {s1 : State}
    (h : readPlain s w k a n al = .ok (bs, s1)) (hw : Memory.wf s.mem = true) : Memory.wf s1.mem = true := by
  unfold readPlain at h
  cases hr : resolveAll s w k true (fun _ _ => al) [(none, a, n)] with
  | error e => simp [hr] at h
  | ok p =>
    obtain ⟨hs, s2⟩ := p
    simp only [hr] at h
    by_cases hf : (!(if w.asks = true then farHits w.got (hs.flatMap (·.2)) else []).isEmpty) = true
    · rw [if_pos hf] at h
      cases h
    · rw [if_neg hf] at h
      split at h
      · cases h
      · simp only [Except.ok.injEq] at h
        have := congrArg (fun x : List Byte × State => x.2.mem) h
        dsimp only at this
        rw [← this, readHits_mem]
        exact resolveAll_wf hr hw

/-! ### Writes of accesses -/

theorem recordAll_mem (hs : List Hit) (s : State) (w : Who) (m : Bool) :
    (hs.foldl (fun s h => if h.tracked then record s w true m h.key else s) s).mem = s.mem := by
  refine foldl_mem _ (fun s h => ?_) _ _
  split <;> rfl

@[simp] theorem sendFlit_mem (s : State) (p ty d ns tag : Nat) (r : Option FarReq) (pl : List Byte) :
    (sendFlit s p ty d ns tag r pl).mem = s.mem := rfl

@[simp] theorem sendWrites_mem (s : State) (w : Who) (hbs : List (Hit × Byte)) : (sendWrites s w hbs).mem = s.mem := by
  unfold sendWrites
  refine foldl_mem _ (fun s r => ?_) _ _
  split
  · rfl
  · split <;> rfl

/-- The bytes of one access, put in place one by one. -/
def putBytes (w : Who) (m : Bool) (r : State) (s : State) (hbs : List (Hit × Byte)) : State :=
  hbs.foldl (fun (t : State) x => t.putByte (wrecOf r w m x.1) x.2) s

theorem putBytes_wf (w : Who) (m : Bool) (r : State) (hbs : List (Hit × Byte)) {s : State} (h : Memory.wf s.mem = true) :
    Memory.wf (putBytes w m r s hbs).mem = true := by
  unfold putBytes
  induction hbs generalizing s with
  | nil => exact h
  | cons x xs ih => exact ih (Tab.wf_set unwritten s.mem _ _ h)

theorem putBytes_byte_of_notMem (w : Who) (m : Bool) (r : State) (hbs : List (Hit × Byte)) (s : State) {j : Nat}
    (h : j ∉ hbs.map (·.1.key)) : (putBytes w m r s hbs).byte j = s.byte j := by
  unfold putBytes
  induction hbs generalizing s with
  | nil => rfl
  | cons x xs ih =>
    simp only [List.map_cons, List.mem_cons, not_or] at h
    rw [List.foldl_cons, ih _ h.2]
    exact Tab.get_set_of_ne unwritten s.mem _ h.1

theorem writeOnce_mem (s : State) (w : Who) (m : Bool) (hbs : List (Hit × Byte)) :
    (writeOnce s w m hbs).mem = (putBytes w m s s hbs).mem := rfl

theorem writeOnce_wf {s : State} (w : Who) (m : Bool) (hbs : List (Hit × Byte)) (h : Memory.wf s.mem = true) :
    Memory.wf (writeOnce s w m hbs).mem = true := putBytes_wf w m s hbs h

theorem writeOnce_byte_of_notMem (s : State) (w : Who) (m : Bool) (hbs : List (Hit × Byte)) {j : Nat}
    (h : j ∉ hbs.map (·.1.key)) : (writeOnce s w m hbs).byte j = s.byte j := putBytes_byte_of_notMem w m s hbs s h

theorem writeHits_wf {s : State} (w : Who) (m : Bool) (hs : List Hit) (bs : List Byte) (h : Memory.wf s.mem = true) :
    Memory.wf (writeHits s w m hs bs).mem = true := by
  unfold writeHits
  dsimp only
  rw [sendWrites_mem, cleanse_mem]
  have h1 := writeOnce_wf (s := hs.foldl (fun s h => if h.tracked then record s w true m h.key else s) s) w m
    ((hs.zip bs).take 8) (by rw [recordAll_mem]; exact h)
  split
  · exact writeOnce_wf w m _ h1
  · exact h1

theorem writeHits_byte_of_notMem (s : State) (w : Who) (m : Bool) (hs : List Hit) (bs : List Byte) {j : Nat}
    (h : j ∉ hs.map (·.key)) : (writeHits s w m hs bs).byte j = s.byte j := by
  have hz : ∀ xs : List (Hit × Byte), (∀ x ∈ xs, x ∈ hs.zip bs) → j ∉ xs.map (·.1.key) := by
    intro xs hx hj
    simp only [List.mem_map] at hj
    obtain ⟨x, hm, rfl⟩ := hj
    exact h (List.mem_map_of_mem (List.of_mem_zip (hx x hm)).1)
  have h1 := writeOnce_byte_of_notMem (hs.foldl (fun s h => if h.tracked then record s w true m h.key else s) s) w m
    ((hs.zip bs).take 8) (hz _ fun x hx => List.mem_of_mem_take hx)
  have h0 : (hs.foldl (fun s h => if h.tracked then record s w true m h.key else s) s).byte j = s.byte j := by
    unfold State.byte
    rw [recordAll_mem]
  unfold writeHits State.byte
  dsimp only
  rw [sendWrites_mem, cleanse_mem]
  split
  · exact (writeOnce_byte_of_notMem _ w m _ (hz _ fun x hx => List.mem_of_mem_drop hx)).trans (h1.trans h0)
  · exact h1.trans h0

theorem writePlain_wf {s : State} {w : Who} {a : DWord} {al : Nat} {bs : List Byte} {s1 : State}
    (h : writePlain s w a al bs = .ok s1) (hw : Memory.wf s.mem = true) : Memory.wf s1.mem = true := by
  unfold writePlain at h
  split at h
  · cases h
  · rename_i hs s2 hr
    simp only [Except.ok.injEq] at h
    rw [← h]
    exact writeHits_wf w true _ bs (resolveAll_wf hr hw)

theorem writeLanes_wf (hs : List (Req × List Hit)) {s : State} (w : Who) (m : Bool) (d : Nat → List Byte)
    (h : Memory.wf s.mem = true) : Memory.wf (writeLanes s w m hs d).mem = true := by
  unfold writeLanes
  rw [cleanse_mem]
  generalize hf : (fun (s : State) (x : Req × List Hit) => writeHits s w m x.2 (d (laneOf x.1))) = f
  induction hs generalizing s with
  | nil => exact h
  | cons x hs ih =>
    rw [List.foldl_cons]
    apply ih
    rw [← hf]
    exact writeHits_wf w m x.2 _ h

/-- A store changes only the bytes that its requests resolve to. -/
theorem writeLanes_byte_of_notMem (hs : List (Req × List Hit)) (s : State) (w : Who) (m : Bool) (d : Nat → List Byte) {j : Nat}
    (h : ∀ x ∈ hs, j ∉ x.2.map (·.key)) : (writeLanes s w m hs d).byte j = s.byte j := by
  suffices hh : ∀ s : State, (hs.foldl (fun (s : State) x => writeHits s w m x.2 (d (laneOf x.1))) s).byte j = s.byte j from hh s
  induction hs with
  | nil => exact fun _ => rfl
  | cons x hs ih =>
    intro s
    rw [List.foldl_cons, ih fun y hy => h y (List.mem_cons_of_mem _ hy)]
    exact writeHits_byte_of_notMem s w m x.2 _ (h x List.mem_cons_self)

@[simp] theorem startOp_mem (s : State) (cx : Cx) (k : OpK) (ws : List Wr) (fl : BitVec 5) (b : Option Nat) :
    (startOp s cx k ws fl b).mem = s.mem := by
  unfold startOp startHb
  dsimp only
  split <;> simp

@[simp] theorem startLater_mem (s : State) (cx : Cx) (k : OpK) (rs : List Ref) : (startLater s cx k rs).mem = s.mem := by
  unfold startLater
  simp

/-! ### Accesses from outside the module -/

theorem extWrite_wf {s : State} (w : Who) (kbs : List (Nat × Byte)) (h : Memory.wf s.mem = true) :
    Memory.wf (extWrite s w kbs).mem = true := by
  unfold extWrite
  rw [released_mem]
  exact writeHits_wf w true _ _ h

@[simp] theorem extRead_mem (s : State) (w : Who) (ks : List Nat) : (extRead s w ks).2.mem = s.mem := readHits_mem _ s w true

end Sys2Proof.Machine
end

