-- ==== Sys2Proof/Laws/Issue.lean ====
section
/-! SUPPORT. What an issue answers, once for all instructions. -/

namespace Sys2Proof.Machine

open Sys2Proof

theorem issuable_mkCx {i : Instr} {s : State} {cx : Cx} {s1 : State} (h : issuable i s = some (cx, s1)) :
    mkCx s s.cur i = some (cx, s1) ∧ unstopped s1 cx = true := by
  unfold issuable at h
  split at h
  · cases h
  · split at h
    · cases h; exact ⟨by assumption, by assumption⟩
    · cases h

/-! ### The context of an issue -/

/-- The context of a split's issue: its group with the results readable now landed, and a state that differs by them and by the
correction of errors in the registers read. -/
theorem mkCx_group {s : State} {c sl k : Nat} {i : Instr} {cx : Cx} {s1 : State} (h : mkCx s (.group c sl k) i = some (cx, s1)) :
    enc i = some (cx.f, cx.r) ∧ cx.i = i ∧ cx.ag = .group c sl k ∧ cx.gk = gKey c sl ∧ cx.k = k ∧
    ∃ g0 n, s.group? (gKey c sl) = some g0 ∧ g0.wg = cx.wid ∧ s.wg? cx.wid = some cx.w ∧ cx.w.lnch = cx.lid ∧
      s.launch? cx.lid = some cx.l ∧
      ∃ rs, s1 = correctRegs { s.setGroup (gKey c sl) (g0.land s.clock) with freeCtr := n } (gKey c sl) rs cx.readsLane := by
  unfold mkCx at h
  split at h
  · cases h
  · cases h
  · rename_i he hag
    cases hag
    split at h
    · cases h
    · rename_i g0 hg
      split at h
      · rename_i sp w hsp hw
        split at h
        · rename_i cl l hcl hl
          simp only [Option.some.injEq, Prod.mk.injEq] at h
          obtain ⟨rfl, rfl⟩ := h
          exact ⟨he, rfl, rfl, rfl, rfl, g0, _, hg, rfl, hw, rfl, hl, _, rfl⟩
        · cases h
      · cases h
  · rename_i hag
    cases hag

/-- The context of a spool processor's issue: at most errors in the registers read have been corrected. -/
theorem mkCx_spool {s : State} {w : Nat} {i : Instr} {cx : Cx} {s1 : State} (h : mkCx s (.spool w) i = some (cx, s1)) :
    enc i = some (cx.f, cx.r) ∧ cx.i = i ∧ cx.ag = .spool w ∧ cx.gk = 0 ∧ cx.wid = w ∧ s.wg? w = some cx.w ∧
    (∃ p, cx.w.spool = some p ∧ cx.g.s = p.s) ∧ s1 = correctSpool s w (readRefs i) := by
  unfold mkCx at h
  split at h
  · cases h
  · cases h
  · rename_i hag
    cases hag
  · rename_i he hag
    cases hag
    split at h
    · cases h
    · rename_i x hw
      split at h
      · rename_i p l hp hl
        split at h
        · simp only [Option.some.injEq, Prod.mk.injEq] at h
          obtain ⟨rfl, rfl⟩ := h
          exact ⟨he, rfl, rfl, rfl, rfl, hw, ⟨p, hp, rfl⟩, rfl⟩
        · cases h
      · cases h

/-- Fields, row and instruction of a context, whoever issues. -/
theorem mkCx_row {s : State} {ag : Agent} {i : Instr} {cx : Cx} {s1 : State} (h : mkCx s ag i = some (cx, s1)) :
    enc i = some (cx.f, cx.r) ∧ cx.i = i ∧ cx.ag = ag := by
  cases ag with
  | none =>
    unfold mkCx at h
    split at h <;> first | (cases h) | contradiction
  | group c sl k => exact ⟨(mkCx_group h).1, (mkCx_group h).2.1, (mkCx_group h).2.2.1⟩
  | spool w => exact ⟨(mkCx_spool h).1, (mkCx_spool h).2.1, (mkCx_spool h).2.2.1⟩

theorem issuable_row {i : Instr} {f : Fld} {r : Row} (he : enc i = some (f, r)) {s : State} {cx : Cx} {s1 : State}
    (h : issuable i s = some (cx, s1)) : cx.f = f ∧ cx.r = r ∧ cx.i = i := by
  obtain ⟨h1, h2, -⟩ := mkCx_row (issuable_mkCx h).1
  rw [he] at h1
  simp only [Option.some.injEq, Prod.mk.injEq] at h1
  exact ⟨h1.1.symm, h1.2.symm, h2⟩

/-! ### What an issue and a return answer -/

/-- An issue that nothing stops answers what its effect comes to. -/
theorem issue_outcome {i : Instr} {s : State} {cx : Cx} {s1 : State} (h : issuable i s = some (cx, s1))
    (body : Cx → State → Eff) : issue i s body = outcome s1 cx (body cx s1) := by
  obtain ⟨hm, hu⟩ := issuable_mkCx h
  simp only [unstopped, Bool.and_eq_true, Option.isNone_iff_eq_none, Bool.not_eq_eq_eq_not, Bool.not_true] at hu
  obtain ⟨⟨⟨⟨h1, h2⟩, h3⟩, h4⟩, h5⟩ := hu
  simp [issue, hm, h1, h2, h3, h4, finish, h5]

theorem issue_done {i : Instr} {s : State} {cx : Cx} {s1 s2 : State} {body : Cx → State → Eff}
    (h : issuable i s = some (cx, s1)) (hb : body cx s1 = .done s2) : issue i s body = .next (completed s2 cx) := by
  rw [issue_outcome h, hb]; rfl

theorem issue_jump {i : Instr} {s : State} {cx : Cx} {s1 s2 : State} {body : Cx → State → Eff}
    (h : issuable i s = some (cx, s1)) (hb : body cx s1 = .jump s2) : issue i s body = .next (moved s2 cx) := by
  rw [issue_outcome h, hb]; rfl

theorem issue_wait {i : Instr} {s : State} {cx : Cx} {s1 s2 : State} {body : Cx → State → Eff}
    (h : issuable i s = some (cx, s1)) (hb : body cx s1 = .wait s2) : issue i s body = .next (waiting s2 cx) := by
  rw [issue_outcome h, hb]; rfl

theorem issue_trap {i : Instr} {s : State} {cx : Cx} {s1 : State} {t : Trap} {body : Cx → State → Eff}
    (h : issuable i s = some (cx, s1)) (hb : body cx s1 = .trap t) (ht : t.far = []) (hl : t.late = false) :
    issue i s body = .next (trappedAt s1 cx t) := by
  rw [issue_outcome h, hb]; simp [outcome, ht, hl, trappedAt]

/-- A wait whose condition holds returns what its effect comes to, and takes no issue slot. -/
theorem resume_outcome {ag : Agent} {mine : Instr → Bool} {s : State} {cx : Cx} {s1 : State} {name : String}
    (h : returnable ag mine s = some (cx, s1)) (body : Cx → State → Eff) :
    resume name ag s mine body = match outcome s1 cx (body cx s1) with
      | .next t => .next (keepIssued s1 ag t)
      | x => x := by
  cases hc : clauseOf s ag with
  | none => simp [returnable, hc] at h
  | some p =>
    obtain ⟨cl, b⟩ := p
    by_cases hb : b = 1
    · subst hb
      cases hi : headInstr cl with
      | none => simp [returnable, hc, hi] at h
      | some i =>
        cases hm : mkCx s ag i with
        | none => simp [returnable, hc, hi, hm] at h
        | some q =>
          obtain ⟨cx0, s0⟩ := q
          simp only [returnable, hc, hi, hm, Option.ite_none_right_eq_some, Option.some.injEq, Prod.mk.injEq, Bool.and_eq_true,
            Option.isNone_iff_eq_none] at h
          obtain ⟨⟨⟨⟨⟨⟨h1, h2⟩, h3⟩, h4⟩, h5⟩, h6⟩, rfl, rfl⟩ := h
          cases ho : outcome (startHears s0 ag cl.hdr) cx0 (body cx0 (startHears s0 ag cl.hdr)) <;>
            simp only [resume, hc, hi, hm, h1, h2, h3, h4, h5, h6, finish, ho, Bool.and_self, if_true]
    · unfold returnable at h
      rw [hc] at h
      split at h <;> simp_all

theorem returnable_agent {ag : Agent} {mine : Instr → Bool} {s : State} {cx : Cx} {s1 : State}
    (h : returnable ag mine s = some (cx, s1)) : cx.ag = ag := by
  unfold returnable at h
  split at h
  · split at h
    · cases h
    · split at h
      · cases h
      · rename_i hm
        simp only [Option.ite_none_right_eq_some, Option.some.injEq, Prod.mk.injEq] at h
        exact h.2.1 ▸ (mkCx_row hm).2.2
  · cases h

theorem resume_done {ag : Agent} {mine : Instr → Bool} {s : State} {cx : Cx} {s1 s2 : State} {name : String}
    {body : Cx → State → Eff} (h : returnable ag mine s = some (cx, s1)) (hb : body cx s1 = .done s2) :
    resume name ag s mine body = .next (returned s1 s2 cx) := by
  rw [resume_outcome h, hb, returned, returnable_agent h]; rfl

/-- An encoded instruction is executed by the shared issue operation. -/
theorem exec_issues (i : Instr) (h : (enc i).isSome = true) : ∃ body, ∀ s, exec i s = issue i s body := by
  cases i <;> first | exact ⟨_, fun _ => rfl⟩ | exact nomatch h

/-! ### From an effect to what an instruction does -/

theorem Does.of_effect {i : Instr} {body : Cx → State → Eff} {E : Cx → State → State} {f : Fld} {r : Row} {P : Cx → State → Prop}
    (hx : ∀ s, exec i s = issue i s body) (he : enc i = some (f, r))
    (hb : ∀ cx s, cx.f = f → cx.r = r → cx.i = i → P cx s → body cx s = .done (E cx s)) : Does i P E := by
  intro s cx s1 h hp
  obtain ⟨h1, h2, h3⟩ := issuable_row he h
  rw [hx, issue_done h (hb cx s1 h1 h2 h3 hp)]

theorem Moves.of_effect {i : Instr} {body : Cx → State → Eff} {E : Cx → State → State} {f : Fld} {r : Row} {P : Cx → State → Prop}
    (hx : ∀ s, exec i s = issue i s body) (he : enc i = some (f, r))
    (hb : ∀ cx s, cx.f = f → cx.r = r → cx.i = i → P cx s → body cx s = .jump (E cx s)) : Moves i P E := by
  intro s cx s1 h hp
  obtain ⟨h1, h2, h3⟩ := issuable_row he h
  rw [hx, issue_jump h (hb cx s1 h1 h2 h3 hp)]

theorem Waits.of_effect {i : Instr} {body : Cx → State → Eff} {E : Cx → State → State} {f : Fld} {r : Row} {P : Cx → State → Prop}
    (hx : ∀ s, exec i s = issue i s body) (he : enc i = some (f, r))
    (hb : ∀ cx s, cx.f = f → cx.r = r → cx.i = i → P cx s → body cx s = .wait (E cx s)) : Waits i P E := by
  intro s cx s1 h hp
  obtain ⟨h1, h2, h3⟩ := issuable_row he h
  rw [hx, issue_wait h (hb cx s1 h1 h2 h3 hp)]

theorem Traps.of_effect {i : Instr} {body : Cx → State → Eff} {T : Cx → State → Trap} {f : Fld} {r : Row} {P : Cx → State → Prop}
    (hx : ∀ s, exec i s = issue i s body) (he : enc i = some (f, r))
    (hb : ∀ cx s, cx.f = f → cx.r = r → cx.i = i → P cx s → body cx s = .trap (T cx s)) (ht : ∀ cx s, (T cx s).far = [])
    (hl : ∀ cx s, (T cx s).late = false) : Traps i P T := by
  intro s cx s1 h hp
  obtain ⟨h1, h2, h3⟩ := issuable_row he h
  rw [hx, issue_trap h (hb cx s1 h1 h2 h3 hp) (ht cx s1) (hl cx s1)]

/-- The latency of a row decides when a result is readable. -/
theorem addFix_eq_fixAfter {cx : Cx} {n : Nat} (h : latOf cx = n) (s : State) (ws : List Wr) : addFix s cx ws = fixAfter n s cx ws := by
  subst h
  unfold addFix fixAfter
  cases cx.ag <;> rfl

theorem addr56_pc56 (a : DWord) : addr56 (pc56 a) = a % 2 ^ 56 := by
  apply BitVec.eq_of_toNat_eq
  simp [addr56, pc56]
  omega

theorem setPc_eq_atAddr (s : State) (cx : Cx) (a : DWord) : setPc s cx a = atAddr s cx a := by
  unfold setPc atAddr
  simp only [addr56_pc56]
  rfl

/-! ### What the end of an issue leaves alone -/

/-- Passing and settling turns changes nothing but the turn of one workgroup. -/
def OnlyTurn (w : Nat) (s t : State) : Prop :=
  { t with wgs := s.wgs } = s ∧ (∀ j, j ≠ w → t.wg? j = s.wg? j) ∧
  ∀ x, s.wg? w = some x → ∃ y, t.wg? w = some y ∧ { y with turn := x.turn } = x

theorem OnlyTurn.refl (w : Nat) (s : State) : OnlyTurn w s s := ⟨rfl, fun _ _ => rfl, fun x hx => ⟨x, hx, rfl⟩⟩

theorem OnlyTurn.trans {w : Nat} {s t u : State} (h : OnlyTurn w s t) (k : OnlyTurn w t u) : OnlyTurn w s u := by
  refine ⟨?_, fun j hj => (k.2.1 j hj).trans (h.2.1 j hj), fun x hx => ?_⟩
  · rw [← h.1, ← k.1]
  · obtain ⟨y, hy, hxy⟩ := h.2.2 x hx
    obtain ⟨z, hz, hyz⟩ := k.2.2 y hy
    refine ⟨z, hz, ?_⟩
    rw [← hxy, ← hyz]

theorem passTurn_onlyTurn (w : Nat) (s : State) : OnlyTurn w s (passTurn s w) := by
  unfold passTurn
  split
  · exact OnlyTurn.refl w s
  · refine ⟨rfl, fun j hj => State.modWg_wg_of_ne s _ hj, fun x hx => ?_⟩
    rw [State.modWg_wg_self, hx]
    exact ⟨_, rfl, rfl⟩

theorem passIf_onlyTurn (w : Nat) (s : State) (y : Bool) : OnlyTurn w s (if y then passTurn s w else s) := by
  cases y
  · exact OnlyTurn.refl w s
  · exact passTurn_onlyTurn w s

theorem settleTurnN_onlyTurn (w n : Nat) (s : State) : OnlyTurn w s (settleTurnN s w n) := by
  induction n generalizing s with
  | zero => exact OnlyTurn.refl w s
  | succ n ih =>
    unfold settleTurnN
    split
    · exact OnlyTurn.refl w s
    · dsimp only
      split
      · exact OnlyTurn.refl w s
      · split
        · exact (passTurn_onlyTurn w s).trans (ih _)
        · exact OnlyTurn.refl w s

theorem settleTurn_onlyTurn (w : Nat) (s : State) : OnlyTurn w s (settleTurn s w) := by
  unfold settleTurn
  split
  · exact OnlyTurn.refl w s
  · split
    · exact settleTurnN_onlyTurn w _ s
    · exact OnlyTurn.refl w s

theorem afterIssue_onlyTurn (s : State) (cx : Cx) : OnlyTurn cx.wid s (afterIssue s cx) := by
  unfold afterIssue
  split
  · refine OnlyTurn.trans ?_ (settleTurn_onlyTurn _ _)
    exact passIf_onlyTurn _ _ _
  · exact OnlyTurn.refl _ _

/-- The advance of a split's clause touches one group, and there its clause stream. -/
theorem advance_group (s : State) (cx : Cx) {c sl k : Nat} (h : cx.ag = .group c sl k) :
    { advance s cx with groups := s.groups } = s ∧ (∀ j, j ≠ cx.gk → (advance s cx).group? j = s.group? j) ∧
    ∀ g, s.group? cx.gk = some g → ∃ x, (advance s cx).group? cx.gk = some
      { g with splits := g.splits.modify k x, issued := s.clock + 1, issuedBy := k, pipe := pipeOf cx.r.op.toNat } := by
  unfold advance
  simp only [h]
  refine ⟨rfl, fun j hj => State.modGroup_group_of_ne s _ hj, fun g hg => ?_⟩
  rw [State.modGroup_group_self, hg]
  exact ⟨_, rfl⟩

/-- The advance of a spool processor's clause touches no group. -/
theorem advance_spool (s : State) (cx : Cx) {w : Nat} (h : cx.ag = .spool w) : { advance s cx with wgs := s.wgs } = s := by
  unfold advance
  simp only [h]
  rfl

/-! ### What a record gives back -/

theorem restoreByte_wf {s : State} (sv : Save) (k : Nat) (b : Byte) (h : Memory.wf s.mem = true) :
    Memory.wf (restoreByte s sv k b).mem = true := by
  unfold restoreByte
  split
  · split
    · exact h
    · exact Tab.wf_set unwritten s.mem _ b h
  · split
    · exact h
    · exact setByte_wf k b h
  · exact setByte_wf k b h

theorem restoreBytes_wf {s : State} (sv : Save) (off : Nat) (w : Wg) (h : Memory.wf s.mem = true) :
    Memory.wf (restoreBytes s sv off w).mem = true := by
  unfold restoreBytes
  dsimp only
  rw [cleanse_mem]
  generalize hk : ((_ : List (Nat × Byte)) ++ _) = kbs
  clear hk
  induction kbs generalizing s with
  | nil => exact h
  | cons x xs ih => exact ih (restoreByte_wf sv x.1 x.2 h)

end Sys2Proof.Machine
end

