-- ==== Sys2Proof/Laws/PerInstr.lean ====
section
/-! SUPPORT. One fact for each constructor: the opcode map gives it for its row's opcode, minor and variant. -/

namespace Sys2Proof

open Sys2Proof.Machine

/-- The opcode map (R149) names this instruction for the opcode of its row and each minor opcode and variant of the row. -/
def Laws.OpcodeMap.Statement (i : Instr) : Prop := ∀ f r, enc i = some (f, r) → f.mn.toNat ∈ r.mins → f.m.toNat ∈ r.ms →
  ofOp r.op.toNat f.mn.toNat f.m.toNat f = .ok i

/-- An event has no encoding. -/
theorem opcodeMap_event {i : Instr} (h : enc i = none) : Laws.OpcodeMap.Statement i := fun f r he => by
  rw [h] at he
  cases he

/-- A row whose every minor opcode and variant lead to the instruction. -/
theorem opcodeMap_row {i : Instr} {f : Fld} {r : Row} (he : enc i = some (f, r))
    (h : ∀ n ∈ r.mins, ∀ m ∈ r.ms, ofOp r.op.toNat n m f = .ok i) : Laws.OpcodeMap.Statement i := fun f' r' he' hm hs => by
  rw [he] at he'
  simp only [Option.some.injEq, Prod.mk.injEq] at he'
  obtain ⟨rfl, rfl⟩ := he'
  exact h _ hm _ hs

/-- A row with one minor opcode and one variant. -/
theorem opcodeMap_single {i : Instr} {f : Fld} {r : Row} {n m : Nat} (he : enc i = some (f, r)) (hn : r.mins = [n]) (hm : r.ms = [m])
    (h : ofOp r.op.toNat n m f = .ok i) : Laws.OpcodeMap.Statement i := opcodeMap_row he fun a ha b hb => by
  rw [hn, List.mem_singleton] at ha
  rw [hm, List.mem_singleton] at hb
  rw [ha, hb, h]

theorem Laws.OpcodeMap.nop (f : Fld) : Laws.OpcodeMap.Statement (.nop f) := opcodeMap_single rfl rfl rfl rfl
theorem Laws.OpcodeMap.yield (f : Fld) : Laws.OpcodeMap.Statement (.yield f) := opcodeMap_single rfl rfl rfl rfl
theorem Laws.OpcodeMap.exit (f : Fld) : Laws.OpcodeMap.Statement (.exit f) := opcodeMap_single rfl rfl rfl rfl
theorem Laws.OpcodeMap.ret (f : Fld) : Laws.OpcodeMap.Statement (.ret f) := opcodeMap_single rfl rfl rfl rfl
theorem Laws.OpcodeMap.join (f : Fld) : Laws.OpcodeMap.Statement (.join f) := opcodeMap_single rfl rfl rfl rfl
theorem Laws.OpcodeMap.joinT (f : Fld) : Laws.OpcodeMap.Statement (.joinT f) := opcodeMap_single rfl rfl rfl rfl
theorem Laws.OpcodeMap.joinTimerExpiry : ∀ a, Laws.OpcodeMap.Statement (.joinTimerExpiry a) := fun _ => opcodeMap_event rfl
theorem Laws.OpcodeMap.trap (f : Fld) : Laws.OpcodeMap.Statement (.trap f) := opcodeMap_single rfl rfl rfl rfl
theorem Laws.OpcodeMap.sys (f : Fld) : Laws.OpcodeMap.Statement (.sys f) := opcodeMap_single rfl rfl rfl rfl
theorem Laws.OpcodeMap.sysComplete : ∀ a, Laws.OpcodeMap.Statement (.sysComplete a) := fun _ => opcodeMap_event rfl
theorem Laws.OpcodeMap.sysServiceNone : ∀ a, Laws.OpcodeMap.Statement (.sysServiceNone a) := fun _ => opcodeMap_event rfl
theorem Laws.OpcodeMap.sysServiceLog : ∀ a, Laws.OpcodeMap.Statement (.sysServiceLog a) := fun _ => opcodeMap_event rfl
theorem Laws.OpcodeMap.sysServiceRaiseVector : ∀ a, Laws.OpcodeMap.Statement (.sysServiceRaiseVector a) := fun _ => opcodeMap_event rfl
theorem Laws.OpcodeMap.sysServiceHostWrite : ∀ a, Laws.OpcodeMap.Statement (.sysServiceHostWrite a) := fun _ => opcodeMap_event rfl
theorem Laws.OpcodeMap.bra (f : Fld) : Laws.OpcodeMap.Statement (.bra f) := opcodeMap_single rfl rfl rfl rfl
theorem Laws.OpcodeMap.brpAll (f : Fld) : Laws.OpcodeMap.Statement (.brpAll f) := opcodeMap_single rfl rfl rfl rfl
theorem Laws.OpcodeMap.brpAny (f : Fld) : Laws.OpcodeMap.Statement (.brpAny f) := opcodeMap_single rfl rfl rfl rfl
theorem Laws.OpcodeMap.brpNone (f : Fld) : Laws.OpcodeMap.Statement (.brpNone f) := opcodeMap_single rfl rfl rfl rfl
theorem Laws.OpcodeMap.brv (f : Fld) : Laws.OpcodeMap.Statement (.brv f) := opcodeMap_single rfl rfl rfl rfl
theorem Laws.OpcodeMap.brx (f : Fld) : Laws.OpcodeMap.Statement (.brx f) := opcodeMap_single rfl rfl rfl rfl
theorem Laws.OpcodeMap.call (f : Fld) : Laws.OpcodeMap.Statement (.call f) := opcodeMap_single rfl rfl rfl rfl
theorem Laws.OpcodeMap.callx (f : Fld) : Laws.OpcodeMap.Statement (.callx f) := opcodeMap_single rfl rfl rfl rfl
theorem Laws.OpcodeMap.sadd (f : Fld) : Laws.OpcodeMap.Statement (.sadd f) := opcodeMap_single rfl rfl rfl rfl
theorem Laws.OpcodeMap.ssub (f : Fld) : Laws.OpcodeMap.Statement (.ssub f) := opcodeMap_single rfl rfl rfl rfl
theorem Laws.OpcodeMap.smin (f : Fld) : Laws.OpcodeMap.Statement (.smin f) := opcodeMap_single rfl rfl rfl rfl
theorem Laws.OpcodeMap.smax (f : Fld) : Laws.OpcodeMap.Statement (.smax f) := opcodeMap_single rfl rfl rfl rfl
theorem Laws.OpcodeMap.sand (f : Fld) : Laws.OpcodeMap.Statement (.sand f) := opcodeMap_single rfl rfl rfl rfl
theorem Laws.OpcodeMap.sor (f : Fld) : Laws.OpcodeMap.Statement (.sor f) := opcodeMap_single rfl rfl rfl rfl
theorem Laws.OpcodeMap.sxor (f : Fld) : Laws.OpcodeMap.Statement (.sxor f) := opcodeMap_single rfl rfl rfl rfl
theorem Laws.OpcodeMap.snot (f : Fld) : Laws.OpcodeMap.Statement (.snot f) := opcodeMap_single rfl rfl rfl rfl
theorem Laws.OpcodeMap.sshl (f : Fld) : Laws.OpcodeMap.Statement (.sshl f) := opcodeMap_single rfl rfl rfl rfl
theorem Laws.OpcodeMap.sshr (f : Fld) : Laws.OpcodeMap.Statement (.sshr f) := opcodeMap_single rfl rfl rfl rfl
theorem Laws.OpcodeMap.sclz (f : Fld) : Laws.OpcodeMap.Statement (.sclz f) := opcodeMap_single rfl rfl rfl rfl
theorem Laws.OpcodeMap.spop (f : Fld) : Laws.OpcodeMap.Statement (.spop f) := opcodeMap_single rfl rfl rfl rfl
theorem Laws.OpcodeMap.smul (f : Fld) : Laws.OpcodeMap.Statement (.smul f) := opcodeMap_single rfl rfl rfl rfl
theorem Laws.OpcodeMap.smulh (f : Fld) : Laws.OpcodeMap.Statement (.smulh f) := opcodeMap_single rfl rfl rfl rfl
theorem Laws.OpcodeMap.smad (f : Fld) : Laws.OpcodeMap.Statement (.smad f) := opcodeMap_single rfl rfl rfl rfl
theorem Laws.OpcodeMap.sdiv (f : Fld) : Laws.OpcodeMap.Statement (.sdiv f) := opcodeMap_single rfl rfl rfl rfl
theorem Laws.OpcodeMap.srem (f : Fld) : Laws.OpcodeMap.Statement (.srem f) := opcodeMap_single rfl rfl rfl rfl
theorem Laws.OpcodeMap.scmp (f : Fld) : Laws.OpcodeMap.Statement (.scmp f) := opcodeMap_row rfl fun n hn m hm => by
  obtain rfl := List.mem_singleton.1 hm
  simp only [List.mem_cons, List.not_mem_nil, or_false] at hn
  rcases hn with rfl | rfl | rfl | rfl | rfl | rfl <;> rfl
theorem Laws.OpcodeMap.ssel (f : Fld) : Laws.OpcodeMap.Statement (.ssel f) := opcodeMap_single rfl rfl rfl rfl
theorem Laws.OpcodeMap.smov (f : Fld) : Laws.OpcodeMap.Statement (.smov f) := opcodeMap_single rfl rfl rfl rfl
theorem Laws.OpcodeMap.sli (f : Fld) : Laws.OpcodeMap.Statement (.sli f) := opcodeMap_single rfl rfl rfl rfl
theorem Laws.OpcodeMap.sbfe (f : Fld) : Laws.OpcodeMap.Statement (.sbfe f) := opcodeMap_single rfl rfl rfl rfl
theorem Laws.OpcodeMap.sbfi (f : Fld) : Laws.OpcodeMap.Statement (.sbfi f) := opcodeMap_single rfl rfl rfl rfl
theorem Laws.OpcodeMap.getsr (f : Fld) : Laws.OpcodeMap.Statement (.getsr f) := opcodeMap_single rfl rfl rfl rfl
theorem Laws.OpcodeMap.getsrVector (f : Fld) : Laws.OpcodeMap.Statement (.getsrVector f) := opcodeMap_single rfl rfl rfl rfl
theorem Laws.OpcodeMap.setsr (f : Fld) : Laws.OpcodeMap.Statement (.setsr f) := opcodeMap_single rfl rfl rfl rfl
theorem Laws.OpcodeMap.vadd (f : Fld) : Laws.OpcodeMap.Statement (.vadd f) := opcodeMap_row rfl fun n hn m hm => by
  obtain rfl := List.mem_singleton.1 hn
  simp only [List.mem_cons, List.not_mem_nil, or_false] at hm
  rcases hm with rfl | rfl <;> rfl
theorem Laws.OpcodeMap.vsub (f : Fld) : Laws.OpcodeMap.Statement (.vsub f) := opcodeMap_row rfl fun n hn m hm => by
  obtain rfl := List.mem_singleton.1 hn
  simp only [List.mem_cons, List.not_mem_nil, or_false] at hm
  rcases hm with rfl | rfl <;> rfl
theorem Laws.OpcodeMap.vmin (f : Fld) : Laws.OpcodeMap.Statement (.vmin f) := opcodeMap_single rfl rfl rfl rfl
theorem Laws.OpcodeMap.vmax (f : Fld) : Laws.OpcodeMap.Statement (.vmax f) := opcodeMap_single rfl rfl rfl rfl
theorem Laws.OpcodeMap.vand (f : Fld) : Laws.OpcodeMap.Statement (.vand f) := opcodeMap_single rfl rfl rfl rfl
theorem Laws.OpcodeMap.vor (f : Fld) : Laws.OpcodeMap.Statement (.vor f) := opcodeMap_single rfl rfl rfl rfl
theorem Laws.OpcodeMap.vxor (f : Fld) : Laws.OpcodeMap.Statement (.vxor f) := opcodeMap_single rfl rfl rfl rfl
theorem Laws.OpcodeMap.vnot (f : Fld) : Laws.OpcodeMap.Statement (.vnot f) := opcodeMap_single rfl rfl rfl rfl
theorem Laws.OpcodeMap.vshl (f : Fld) : Laws.OpcodeMap.Statement (.vshl f) := opcodeMap_single rfl rfl rfl rfl
theorem Laws.OpcodeMap.vshr (f : Fld) : Laws.OpcodeMap.Statement (.vshr f) := opcodeMap_single rfl rfl rfl rfl
theorem Laws.OpcodeMap.vabs (f : Fld) : Laws.OpcodeMap.Statement (.vabs f) := opcodeMap_single rfl rfl rfl rfl
theorem Laws.OpcodeMap.vclz (f : Fld) : Laws.OpcodeMap.Statement (.vclz f) := opcodeMap_single rfl rfl rfl rfl
theorem Laws.OpcodeMap.vpop (f : Fld) : Laws.OpcodeMap.Statement (.vpop f) := opcodeMap_single rfl rfl rfl rfl
theorem Laws.OpcodeMap.vbrev (f : Fld) : Laws.OpcodeMap.Statement (.vbrev f) := opcodeMap_single rfl rfl rfl rfl
theorem Laws.OpcodeMap.vmul (f : Fld) : Laws.OpcodeMap.Statement (.vmul f) := opcodeMap_single rfl rfl rfl rfl
theorem Laws.OpcodeMap.vmulh (f : Fld) : Laws.OpcodeMap.Statement (.vmulh f) := opcodeMap_single rfl rfl rfl rfl
theorem Laws.OpcodeMap.vmad (f : Fld) : Laws.OpcodeMap.Statement (.vmad f) := opcodeMap_single rfl rfl rfl rfl
theorem Laws.OpcodeMap.vdiv (f : Fld) : Laws.OpcodeMap.Statement (.vdiv f) := opcodeMap_single rfl rfl rfl rfl
theorem Laws.OpcodeMap.vrem (f : Fld) : Laws.OpcodeMap.Statement (.vrem f) := opcodeMap_single rfl rfl rfl rfl
theorem Laws.OpcodeMap.vcmp (f : Fld) : Laws.OpcodeMap.Statement (.vcmp f) := opcodeMap_row rfl fun n hn m hm => by
  obtain rfl := List.mem_singleton.1 hm
  simp only [List.mem_cons, List.not_mem_nil, or_false] at hn
  rcases hn with rfl | rfl | rfl | rfl | rfl | rfl <;> rfl
theorem Laws.OpcodeMap.vsel (f : Fld) : Laws.OpcodeMap.Statement (.vsel f) := opcodeMap_single rfl rfl rfl rfl
theorem Laws.OpcodeMap.vmov (f : Fld) : Laws.OpcodeMap.Statement (.vmov f) := opcodeMap_single rfl rfl rfl rfl
theorem Laws.OpcodeMap.vli (f : Fld) : Laws.OpcodeMap.Statement (.vli f) := opcodeMap_single rfl rfl rfl rfl
theorem Laws.OpcodeMap.vbfe (f : Fld) : Laws.OpcodeMap.Statement (.vbfe f) := opcodeMap_single rfl rfl rfl rfl
theorem Laws.OpcodeMap.vbfi (f : Fld) : Laws.OpcodeMap.Statement (.vbfi f) := opcodeMap_single rfl rfl rfl rfl
theorem Laws.OpcodeMap.vbrevFld (f : Fld) : Laws.OpcodeMap.Statement (.vbrevFld f) := opcodeMap_single rfl rfl rfl rfl
theorem Laws.OpcodeMap.fadd (f : Fld) : Laws.OpcodeMap.Statement (.fadd f) := opcodeMap_row rfl fun n hn m hm => by
  obtain rfl := List.mem_singleton.1 hn
  simp only [List.mem_cons, List.not_mem_nil, or_false] at hm
  rcases hm with rfl | rfl | rfl | rfl <;> rfl
theorem Laws.OpcodeMap.fsub (f : Fld) : Laws.OpcodeMap.Statement (.fsub f) := opcodeMap_row rfl fun n hn m hm => by
  obtain rfl := List.mem_singleton.1 hn
  simp only [List.mem_cons, List.not_mem_nil, or_false] at hm
  rcases hm with rfl | rfl | rfl | rfl <;> rfl
theorem Laws.OpcodeMap.fmul (f : Fld) : Laws.OpcodeMap.Statement (.fmul f) := opcodeMap_row rfl fun n hn m hm => by
  obtain rfl := List.mem_singleton.1 hn
  simp only [List.mem_cons, List.not_mem_nil, or_false] at hm
  rcases hm with rfl | rfl | rfl | rfl <;> rfl
theorem Laws.OpcodeMap.fmin (f : Fld) : Laws.OpcodeMap.Statement (.fmin f) := opcodeMap_single rfl rfl rfl rfl
theorem Laws.OpcodeMap.fmax (f : Fld) : Laws.OpcodeMap.Statement (.fmax f) := opcodeMap_single rfl rfl rfl rfl
theorem Laws.OpcodeMap.fldexp (f : Fld) : Laws.OpcodeMap.Statement (.fldexp f) := opcodeMap_row rfl fun n hn m hm => by
  obtain rfl := List.mem_singleton.1 hn
  simp only [List.mem_cons, List.not_mem_nil, or_false] at hm
  rcases hm with rfl | rfl | rfl | rfl <;> rfl
theorem Laws.OpcodeMap.ffma (f : Fld) : Laws.OpcodeMap.Statement (.ffma f) := opcodeMap_row rfl fun n hn m hm => by
  obtain rfl := List.mem_singleton.1 hn
  simp only [List.mem_cons, List.not_mem_nil, or_false] at hm
  rcases hm with rfl | rfl | rfl | rfl <;> rfl
theorem Laws.OpcodeMap.fcmp (f : Fld) : Laws.OpcodeMap.Statement (.fcmp f) := opcodeMap_row rfl fun n hn m hm => by
  obtain rfl := List.mem_singleton.1 hm
  simp only [List.mem_cons, List.not_mem_nil, or_false] at hn
  rcases hn with rfl | rfl | rfl | rfl | rfl | rfl | rfl | rfl <;> rfl
theorem Laws.OpcodeMap.frcp (f : Fld) : Laws.OpcodeMap.Statement (.frcp f) := opcodeMap_row rfl fun n hn m hm => by
  obtain rfl := List.mem_singleton.1 hn
  simp only [List.mem_cons, List.not_mem_nil, or_false] at hm
  rcases hm with rfl | rfl | rfl | rfl <;> rfl
theorem Laws.OpcodeMap.frsq (f : Fld) : Laws.OpcodeMap.Statement (.frsq f) := opcodeMap_row rfl fun n hn m hm => by
  obtain rfl := List.mem_singleton.1 hn
  simp only [List.mem_cons, List.not_mem_nil, or_false] at hm
  rcases hm with rfl | rfl | rfl | rfl <;> rfl
theorem Laws.OpcodeMap.fsqrt (f : Fld) : Laws.OpcodeMap.Statement (.fsqrt f) := opcodeMap_row rfl fun n hn m hm => by
  obtain rfl := List.mem_singleton.1 hn
  simp only [List.mem_cons, List.not_mem_nil, or_false] at hm
  rcases hm with rfl | rfl | rfl | rfl <;> rfl
theorem Laws.OpcodeMap.fdiv (f : Fld) : Laws.OpcodeMap.Statement (.fdiv f) := opcodeMap_row rfl fun n hn m hm => by
  obtain rfl := List.mem_singleton.1 hn
  simp only [List.mem_cons, List.not_mem_nil, or_false] at hm
  rcases hm with rfl | rfl | rfl | rfl <;> rfl
theorem Laws.OpcodeMap.fexp2 (f : Fld) : Laws.OpcodeMap.Statement (.fexp2 f) := opcodeMap_row rfl fun n hn m hm => by
  obtain rfl := List.mem_singleton.1 hn
  simp only [List.mem_cons, List.not_mem_nil, or_false] at hm
  rcases hm with rfl | rfl | rfl | rfl <;> rfl
theorem Laws.OpcodeMap.flog2 (f : Fld) : Laws.OpcodeMap.Statement (.flog2 f) := opcodeMap_row rfl fun n hn m hm => by
  obtain rfl := List.mem_singleton.1 hn
  simp only [List.mem_cons, List.not_mem_nil, or_false] at hm
  rcases hm with rfl | rfl | rfl | rfl <;> rfl
theorem Laws.OpcodeMap.fsin (f : Fld) : Laws.OpcodeMap.Statement (.fsin f) := opcodeMap_row rfl fun n hn m hm => by
  obtain rfl := List.mem_singleton.1 hn
  simp only [List.mem_cons, List.not_mem_nil, or_false] at hm
  rcases hm with rfl | rfl | rfl | rfl <;> rfl
theorem Laws.OpcodeMap.fcos (f : Fld) : Laws.OpcodeMap.Statement (.fcos f) := opcodeMap_row rfl fun n hn m hm => by
  obtain rfl := List.mem_singleton.1 hn
  simp only [List.mem_cons, List.not_mem_nil, or_false] at hm
  rcases hm with rfl | rfl | rfl | rfl <;> rfl
theorem Laws.OpcodeMap.frnd (f : Fld) : Laws.OpcodeMap.Statement (.frnd f) := opcodeMap_row rfl fun n hn m hm => by
  obtain rfl := List.mem_singleton.1 hn
  simp only [List.mem_cons, List.not_mem_nil, or_false] at hm
  rcases hm with rfl | rfl | rfl | rfl <;> rfl
theorem Laws.OpcodeMap.fclass (f : Fld) : Laws.OpcodeMap.Statement (.fclass f) := opcodeMap_single rfl rfl rfl rfl
theorem Laws.OpcodeMap.cvt (f : Fld) : Laws.OpcodeMap.Statement (.cvt f) := opcodeMap_row rfl fun n hn m hm => by
  obtain rfl := List.mem_singleton.1 hn
  simp only [List.mem_cons, List.not_mem_nil, or_false] at hm
  rcases hm with rfl | rfl | rfl | rfl <;> rfl
theorem Laws.OpcodeMap.cvtkb (f : Fld) : Laws.OpcodeMap.Statement (.cvtkb f) := opcodeMap_row rfl fun n hn m hm => by
  obtain rfl := List.mem_singleton.1 hn
  simp only [List.mem_cons, List.not_mem_nil, or_false] at hm
  rcases hm with rfl | rfl | rfl | rfl <;> rfl
theorem Laws.OpcodeMap.unpkb (f : Fld) : Laws.OpcodeMap.Statement (.unpkb f) := opcodeMap_single rfl rfl rfl rfl
theorem Laws.OpcodeMap.pack2 (f : Fld) : Laws.OpcodeMap.Statement (.pack2 f) := opcodeMap_row rfl fun n hn m hm => by
  obtain rfl := List.mem_singleton.1 hn
  simp only [List.mem_cons, List.not_mem_nil, or_false] at hm
  rcases hm with rfl | rfl | rfl | rfl <;> rfl
theorem Laws.OpcodeMap.unpk2 (f : Fld) : Laws.OpcodeMap.Statement (.unpk2 f) := opcodeMap_single rfl rfl rfl rfl
theorem Laws.OpcodeMap.pand (f : Fld) : Laws.OpcodeMap.Statement (.pand f) := opcodeMap_row rfl fun n hn m hm => by
  obtain rfl := List.mem_singleton.1 hn
  simp only [List.mem_cons, List.not_mem_nil, or_false] at hm
  rcases hm with rfl | rfl | rfl | rfl <;> rfl
theorem Laws.OpcodeMap.por (f : Fld) : Laws.OpcodeMap.Statement (.por f) := opcodeMap_row rfl fun n hn m hm => by
  obtain rfl := List.mem_singleton.1 hn
  simp only [List.mem_cons, List.not_mem_nil, or_false] at hm
  rcases hm with rfl | rfl | rfl | rfl <;> rfl
theorem Laws.OpcodeMap.pxor (f : Fld) : Laws.OpcodeMap.Statement (.pxor f) := opcodeMap_row rfl fun n hn m hm => by
  obtain rfl := List.mem_singleton.1 hn
  simp only [List.mem_cons, List.not_mem_nil, or_false] at hm
  rcases hm with rfl | rfl | rfl | rfl <;> rfl
theorem Laws.OpcodeMap.pnot (f : Fld) : Laws.OpcodeMap.Statement (.pnot f) := opcodeMap_row rfl fun n hn m hm => by
  obtain rfl := List.mem_singleton.1 hn
  simp only [List.mem_cons, List.not_mem_nil, or_false] at hm
  rcases hm with rfl | rfl <;> rfl
theorem Laws.OpcodeMap.voteAll (f : Fld) : Laws.OpcodeMap.Statement (.voteAll f) := opcodeMap_single rfl rfl rfl rfl
theorem Laws.OpcodeMap.voteAny (f : Fld) : Laws.OpcodeMap.Statement (.voteAny f) := opcodeMap_single rfl rfl rfl rfl
theorem Laws.OpcodeMap.voteBallot (f : Fld) : Laws.OpcodeMap.Statement (.voteBallot f) := opcodeMap_single rfl rfl rfl rfl
theorem Laws.OpcodeMap.shfl (f : Fld) : Laws.OpcodeMap.Statement (.shfl f) := opcodeMap_row rfl fun n hn m hm => by
  simp only [List.mem_cons, List.not_mem_nil, or_false] at hn hm
  rcases hn with rfl | rfl | rfl | rfl <;> rcases hm with rfl | rfl <;> rfl
theorem Laws.OpcodeMap.vred (f : Fld) : Laws.OpcodeMap.Statement (.vred f) := opcodeMap_row rfl fun n hn m hm => by
  simp only [List.mem_cons, List.not_mem_nil, or_false] at hn hm
  rcases hn with rfl | rfl | rfl | rfl | rfl | rfl <;> rcases hm with rfl | rfl | rfl | rfl <;> rfl
theorem Laws.OpcodeMap.vscan (f : Fld) : Laws.OpcodeMap.Statement (.vscan f) := opcodeMap_row rfl fun n hn m hm => by
  simp only [List.mem_cons, List.not_mem_nil, or_false] at hn hm
  rcases hn with rfl | rfl | rfl | rfl | rfl | rfl | rfl | rfl | rfl | rfl | rfl | rfl <;> rcases hm with rfl | rfl | rfl | rfl <;> rfl
theorem Laws.OpcodeMap.qswz (f : Fld) : Laws.OpcodeMap.Statement (.qswz f) := opcodeMap_single rfl rfl rfl rfl
theorem Laws.OpcodeMap.qbc (f : Fld) : Laws.OpcodeMap.Statement (.qbc f) := opcodeMap_single rfl rfl rfl rfl
theorem Laws.OpcodeMap.vreadl (f : Fld) : Laws.OpcodeMap.Statement (.vreadl f) := opcodeMap_single rfl rfl rfl rfl
theorem Laws.OpcodeMap.vwritel (f : Fld) : Laws.OpcodeMap.Statement (.vwritel f) := opcodeMap_single rfl rfl rfl rfl
theorem Laws.OpcodeMap.rand (f : Fld) : Laws.OpcodeMap.Statement (.rand f) := opcodeMap_single rfl rfl rfl rfl
theorem Laws.OpcodeMap.tiset (f : Fld) : Laws.OpcodeMap.Statement (.tiset f) := opcodeMap_single rfl rfl rfl rfl
theorem Laws.OpcodeMap.tiopLd (f : Fld) : Laws.OpcodeMap.Statement (.tiopLd f) := opcodeMap_single rfl rfl rfl rfl
theorem Laws.OpcodeMap.tiopSt (f : Fld) : Laws.OpcodeMap.Statement (.tiopSt f) := opcodeMap_single rfl rfl rfl rfl
theorem Laws.OpcodeMap.tiopAdv (f : Fld) : Laws.OpcodeMap.Statement (.tiopAdv f) := opcodeMap_single rfl rfl rfl rfl
theorem Laws.OpcodeMap.tiget (f : Fld) : Laws.OpcodeMap.Statement (.tiget f) := opcodeMap_row rfl fun n hn m hm => by
  obtain rfl := List.mem_singleton.1 hn
  simp only [List.mem_cons, List.not_mem_nil, or_false] at hm
  rcases hm with rfl | rfl <;> rfl
theorem Laws.OpcodeMap.spill (f : Fld) : Laws.OpcodeMap.Statement (.spill f) := opcodeMap_single rfl rfl rfl rfl
theorem Laws.OpcodeMap.fill (f : Fld) : Laws.OpcodeMap.Statement (.fill f) := opcodeMap_single rfl rfl rfl rfl
theorem Laws.OpcodeMap.ld (f : Fld) : Laws.OpcodeMap.Statement (.ld f) := opcodeMap_row rfl fun n hn m hm => by
  obtain rfl := List.mem_singleton.1 hm
  simp only [List.mem_cons, List.not_mem_nil, or_false] at hn
  rcases hn with rfl | rfl | rfl | rfl <;> rfl
theorem Laws.OpcodeMap.st (f : Fld) : Laws.OpcodeMap.Statement (.st f) := opcodeMap_row rfl fun n hn m hm => by
  obtain rfl := List.mem_singleton.1 hm
  simp only [List.mem_cons, List.not_mem_nil, or_false] at hn
  rcases hn with rfl | rfl | rfl | rfl <;> rfl
theorem Laws.OpcodeMap.lds (f : Fld) : Laws.OpcodeMap.Statement (.lds f) := opcodeMap_row rfl fun n hn m hm => by
  obtain rfl := List.mem_singleton.1 hm
  simp only [List.mem_cons, List.not_mem_nil, or_false] at hn
  rcases hn with rfl | rfl <;> rfl
theorem Laws.OpcodeMap.sts (f : Fld) : Laws.OpcodeMap.Statement (.sts f) := opcodeMap_row rfl fun n hn m hm => by
  obtain rfl := List.mem_singleton.1 hm
  simp only [List.mem_cons, List.not_mem_nil, or_false] at hn
  rcases hn with rfl | rfl <;> rfl
theorem Laws.OpcodeMap.atom (f : Fld) : Laws.OpcodeMap.Statement (.atom f) := opcodeMap_row rfl fun n hn m hm => by
  simp only [List.mem_cons, List.not_mem_nil, or_false] at hn hm
  rcases hn with rfl | rfl | rfl | rfl | rfl | rfl | rfl | rfl | rfl | rfl | rfl | rfl <;> rcases hm with rfl | rfl | rfl | rfl <;> rfl
theorem Laws.OpcodeMap.atomOrd (f : Fld) : Laws.OpcodeMap.Statement (.atomOrd f) := opcodeMap_row rfl fun n hn m hm => by
  simp only [List.mem_cons, List.not_mem_nil, or_false] at hn hm
  rcases hn with rfl | rfl | rfl | rfl | rfl | rfl | rfl | rfl | rfl | rfl | rfl | rfl <;> rcases hm with rfl | rfl | rfl | rfl <;> rfl
theorem Laws.OpcodeMap.orderedPassage : ∀ a b, Laws.OpcodeMap.Statement (.orderedPassage a b) := fun _ _ => opcodeMap_event rfl
theorem Laws.OpcodeMap.lcopy (f : Fld) : Laws.OpcodeMap.Statement (.lcopy f) := opcodeMap_row rfl fun n hn m hm => by
  obtain rfl := List.mem_singleton.1 hm
  simp only [List.mem_cons, List.not_mem_nil, or_false] at hn
  rcases hn with rfl | rfl | rfl | rfl <;> rfl
theorem Laws.OpcodeMap.lcopyComplete : ∀ a, Laws.OpcodeMap.Statement (.lcopyComplete a) := fun _ => opcodeMap_event rfl
theorem Laws.OpcodeMap.waitf (f : Fld) : Laws.OpcodeMap.Statement (.waitf f) := opcodeMap_single rfl rfl rfl rfl
theorem Laws.OpcodeMap.waitfReturn : ∀ a, Laws.OpcodeMap.Statement (.waitfReturn a) := fun _ => opcodeMap_event rfl
theorem Laws.OpcodeMap.fence (f : Fld) : Laws.OpcodeMap.Statement (.fence f) := opcodeMap_single rfl rfl rfl rfl
theorem Laws.OpcodeMap.promote (f : Fld) : Laws.OpcodeMap.Statement (.promote f) := opcodeMap_single rfl rfl rfl rfl
theorem Laws.OpcodeMap.bari (f : Fld) : Laws.OpcodeMap.Statement (.bari f) := opcodeMap_single rfl rfl rfl rfl
theorem Laws.OpcodeMap.bara (f : Fld) : Laws.OpcodeMap.Statement (.bara f) := opcodeMap_single rfl rfl rfl rfl
theorem Laws.OpcodeMap.barw (f : Fld) : Laws.OpcodeMap.Statement (.barw f) := opcodeMap_single rfl rfl rfl rfl
theorem Laws.OpcodeMap.barwReturn : ∀ a, Laws.OpcodeMap.Statement (.barwReturn a) := fun _ => opcodeMap_event rfl
theorem Laws.OpcodeMap.bart (f : Fld) : Laws.OpcodeMap.Statement (.bart f) := opcodeMap_single rfl rfl rfl rfl
theorem Laws.OpcodeMap.qpop (f : Fld) : Laws.OpcodeMap.Statement (.qpop f) := opcodeMap_single rfl rfl rfl rfl
theorem Laws.OpcodeMap.qpopTry (f : Fld) : Laws.OpcodeMap.Statement (.qpopTry f) := opcodeMap_single rfl rfl rfl rfl
theorem Laws.OpcodeMap.qpopServe : ∀ a, Laws.OpcodeMap.Statement (.qpopServe a) := fun _ => opcodeMap_event rfl
theorem Laws.OpcodeMap.qpush (f : Fld) : Laws.OpcodeMap.Statement (.qpush f) := opcodeMap_single rfl rfl rfl rfl
theorem Laws.OpcodeMap.obres (f : Fld) : Laws.OpcodeMap.Statement (.obres f) := opcodeMap_single rfl rfl rfl rfl
theorem Laws.OpcodeMap.obrel (f : Fld) : Laws.OpcodeMap.Statement (.obrel f) := opcodeMap_single rfl rfl rfl rfl
theorem Laws.OpcodeMap.mloopNew (f : Fld) : Laws.OpcodeMap.Statement (.mloopNew f) := opcodeMap_single rfl rfl rfl rfl
theorem Laws.OpcodeMap.mloopAcc (f : Fld) : Laws.OpcodeMap.Statement (.mloopAcc f) := opcodeMap_single rfl rfl rfl rfl
theorem Laws.OpcodeMap.sequencerCommandStart : ∀ a, Laws.OpcodeMap.Statement (.sequencerCommandStart a) := fun _ => opcodeMap_event rfl
theorem Laws.OpcodeMap.mloopReadArrival : ∀ a, Laws.OpcodeMap.Statement (.mloopReadArrival a) := fun _ => opcodeMap_event rfl
theorem Laws.OpcodeMap.mloopComplete : ∀ a, Laws.OpcodeMap.Statement (.mloopComplete a) := fun _ => opcodeMap_event rfl
theorem Laws.OpcodeMap.mpub (f : Fld) : Laws.OpcodeMap.Statement (.mpub f) := opcodeMap_single rfl rfl rfl rfl
theorem Laws.OpcodeMap.headTileTake : ∀ a, Laws.OpcodeMap.Statement (.headTileTake a) := fun _ => opcodeMap_event rfl
theorem Laws.OpcodeMap.spreq (f : Fld) : Laws.OpcodeMap.Statement (.spreq f) := opcodeMap_single rfl rfl rfl rfl
theorem Laws.OpcodeMap.sprecv (f : Fld) : Laws.OpcodeMap.Statement (.sprecv f) := opcodeMap_single rfl rfl rfl rfl
theorem Laws.OpcodeMap.sprecvTry (f : Fld) : Laws.OpcodeMap.Statement (.sprecvTry f) := opcodeMap_single rfl rfl rfl rfl
theorem Laws.OpcodeMap.sprecvReceive : ∀ a, Laws.OpcodeMap.Statement (.sprecvReceive a) := fun _ => opcodeMap_event rfl
theorem Laws.OpcodeMap.tcopy (f : Fld) : Laws.OpcodeMap.Statement (.tcopy f) := opcodeMap_single rfl rfl rfl rfl
theorem Laws.OpcodeMap.tcopyComplete : ∀ a, Laws.OpcodeMap.Statement (.tcopyComplete a) := fun _ => opcodeMap_event rfl
theorem Laws.OpcodeMap.coll (f : Fld) : Laws.OpcodeMap.Statement (.coll f) := opcodeMap_row rfl fun n hn m hm => by
  obtain rfl := List.mem_singleton.1 hm
  simp only [List.mem_cons, List.not_mem_nil, or_false] at hn
  rcases hn with rfl | rfl | rfl | rfl | rfl <;> rfl
theorem Laws.OpcodeMap.collComplete : ∀ a, Laws.OpcodeMap.Statement (.collComplete a) := fun _ => opcodeMap_event rfl
theorem Laws.OpcodeMap.rcvt (f : Fld) : Laws.OpcodeMap.Statement (.rcvt f) := opcodeMap_row rfl fun n hn m hm => by
  obtain rfl := List.mem_singleton.1 hn
  simp only [List.mem_cons, List.not_mem_nil, or_false] at hm
  rcases hm with rfl | rfl <;> rfl
theorem Laws.OpcodeMap.boxt (f : Fld) : Laws.OpcodeMap.Statement (.boxt f) := opcodeMap_single rfl rfl rfl rfl
theorem Laws.OpcodeMap.fdin (f : Fld) : Laws.OpcodeMap.Statement (.fdin f) := opcodeMap_single rfl rfl rfl rfl
theorem Laws.OpcodeMap.trit (f : Fld) : Laws.OpcodeMap.Statement (.trit f) := opcodeMap_single rfl rfl rfl rfl
theorem Laws.OpcodeMap.rhit (f : Fld) : Laws.OpcodeMap.Statement (.rhit f) := opcodeMap_row rfl fun n hn m hm => by
  obtain rfl := List.mem_singleton.1 hn
  simp only [List.mem_cons, List.not_mem_nil, or_false] at hm
  rcases hm with rfl | rfl | rfl | rfl <;> rfl
theorem Laws.OpcodeMap.rtrace (f : Fld) : Laws.OpcodeMap.Statement (.rtrace f) := opcodeMap_single rfl rfl rfl rfl
theorem Laws.OpcodeMap.rtraceComplete : ∀ a, Laws.OpcodeMap.Statement (.rtraceComplete a) := fun _ => opcodeMap_event rfl
theorem Laws.OpcodeMap.nswap (f : Fld) : Laws.OpcodeMap.Statement (.nswap f) := opcodeMap_single rfl rfl rfl rfl
theorem Laws.OpcodeMap.gdrain (f : Fld) : Laws.OpcodeMap.Statement (.gdrain f) := opcodeMap_single rfl rfl rfl rfl
theorem Laws.OpcodeMap.gdrainReturn : ∀ a, Laws.OpcodeMap.Statement (.gdrainReturn a) := fun _ => opcodeMap_event rfl
theorem Laws.OpcodeMap.drawv (f : Fld) : Laws.OpcodeMap.Statement (.drawv f) := opcodeMap_single rfl rfl rfl rfl
theorem Laws.OpcodeMap.drawvPassComplete : ∀ a, Laws.OpcodeMap.Statement (.drawvPassComplete a) := fun _ => opcodeMap_event rfl
theorem Laws.OpcodeMap.slbegin (f : Fld) : Laws.OpcodeMap.Statement (.slbegin f) := opcodeMap_single rfl rfl rfl rfl
theorem Laws.OpcodeMap.slend (f : Fld) : Laws.OpcodeMap.Statement (.slend f) := opcodeMap_single rfl rfl rfl rfl
theorem Laws.OpcodeMap.slnext (f : Fld) : Laws.OpcodeMap.Statement (.slnext f) := opcodeMap_single rfl rfl rfl rfl
theorem Laws.OpcodeMap.slnextWaitEnd : ∀ a, Laws.OpcodeMap.Statement (.slnextWaitEnd a) := fun _ => opcodeMap_event rfl
theorem Laws.OpcodeMap.stadv (f : Fld) : Laws.OpcodeMap.Statement (.stadv f) := opcodeMap_single rfl rfl rfl rfl
theorem Laws.OpcodeMap.stjmp (f : Fld) : Laws.OpcodeMap.Statement (.stjmp f) := opcodeMap_single rfl rfl rfl rfl
theorem Laws.OpcodeMap.waitl (f : Fld) : Laws.OpcodeMap.Statement (.waitl f) := opcodeMap_single rfl rfl rfl rfl
theorem Laws.OpcodeMap.waitlReturn : ∀ a, Laws.OpcodeMap.Statement (.waitlReturn a) := fun _ => opcodeMap_event rfl
theorem Laws.OpcodeMap.launch (f : Fld) : Laws.OpcodeMap.Statement (.launch f) := opcodeMap_single rfl rfl rfl rfl
theorem Laws.OpcodeMap.launchTry (f : Fld) : Laws.OpcodeMap.Statement (.launchTry f) := opcodeMap_single rfl rfl rfl rfl
theorem Laws.OpcodeMap.launchPoolWaitEnd : ∀ a, Laws.OpcodeMap.Statement (.launchPoolWaitEnd a) := fun _ => opcodeMap_event rfl
theorem Laws.OpcodeMap.tstat (f : Fld) : Laws.OpcodeMap.Statement (.tstat f) := opcodeMap_row rfl fun n hn m hm => by
  obtain rfl := List.mem_singleton.1 hn
  simp only [List.mem_cons, List.not_mem_nil, or_false] at hm
  rcases hm with rfl | rfl | rfl <;> rfl
theorem Laws.OpcodeMap.clauseStart : ∀ a, Laws.OpcodeMap.Statement (.clauseStart a) := fun _ => opcodeMap_event rfl
theorem Laws.OpcodeMap.issueHoldRelease : ∀ a, Laws.OpcodeMap.Statement (.issueHoldRelease a) := fun _ => opcodeMap_event rfl
theorem Laws.OpcodeMap.variableLatencyComplete : ∀ a, Laws.OpcodeMap.Statement (.variableLatencyComplete a) := fun _ => opcodeMap_event rfl
theorem Laws.OpcodeMap.pageWalkComplete : ∀ a b c, Laws.OpcodeMap.Statement (.pageWalkComplete a b c) := fun _ _ _ => opcodeMap_event rfl
theorem Laws.OpcodeMap.engineFault : ∀ a, Laws.OpcodeMap.Statement (.engineFault a) := fun _ => opcodeMap_event rfl
theorem Laws.OpcodeMap.tractSkip : ∀ a b, Laws.OpcodeMap.Statement (.tractSkip a b) := fun _ _ => opcodeMap_event rfl
theorem Laws.OpcodeMap.tractRetry : ∀ a b, Laws.OpcodeMap.Statement (.tractRetry a b) := fun _ _ => opcodeMap_event rfl
theorem Laws.OpcodeMap.tractKill : ∀ a b, Laws.OpcodeMap.Statement (.tractKill a b) := fun _ _ => opcodeMap_event rfl
theorem Laws.OpcodeMap.trkill : ∀ a b, Laws.OpcodeMap.Statement (.trkill a b) := fun _ _ => opcodeMap_event rfl
theorem Laws.OpcodeMap.trheadWrite : ∀ a b, Laws.OpcodeMap.Statement (.trheadWrite a b) := fun _ _ => opcodeMap_event rfl
theorem Laws.OpcodeMap.trbaseWrite : ∀ a b, Laws.OpcodeMap.Statement (.trbaseWrite a b) := fun _ _ => opcodeMap_event rfl
theorem Laws.OpcodeMap.workgroupDispatch : ∀ a b, Laws.OpcodeMap.Statement (.workgroupDispatch a b) := fun _ _ => opcodeMap_event rfl
theorem Laws.OpcodeMap.workgroupRetire : ∀ a, Laws.OpcodeMap.Statement (.workgroupRetire a) := fun _ => opcodeMap_event rfl
theorem Laws.OpcodeMap.scoreboardBitReceive : ∀ a b c, Laws.OpcodeMap.Statement (.scoreboardBitReceive a b c) := fun _ _ _ => opcodeMap_event rfl
theorem Laws.OpcodeMap.graphNodeStart : ∀ a b, Laws.OpcodeMap.Statement (.graphNodeStart a b) := fun _ _ => opcodeMap_event rfl
theorem Laws.OpcodeMap.graphReplayStart : ∀ a, Laws.OpcodeMap.Statement (.graphReplayStart a) := fun _ => opcodeMap_event rfl
theorem Laws.OpcodeMap.groupSwapStart : ∀ a, Laws.OpcodeMap.Statement (.groupSwapStart a) := fun _ => opcodeMap_event rfl
theorem Laws.OpcodeMap.groupSwapEnd : ∀ a, Laws.OpcodeMap.Statement (.groupSwapEnd a) := fun _ => opcodeMap_event rfl
theorem Laws.OpcodeMap.bridleEvaluate : ∀ a, Laws.OpcodeMap.Statement (.bridleEvaluate a) := fun _ => opcodeMap_event rfl
theorem Laws.OpcodeMap.contextSave : ∀ a, Laws.OpcodeMap.Statement (.contextSave a) := fun _ => opcodeMap_event rfl
theorem Laws.OpcodeMap.lateCompletionApply : ∀ a, Laws.OpcodeMap.Statement (.lateCompletionApply a) := fun _ => opcodeMap_event rfl
theorem Laws.OpcodeMap.workgroupRestore : ∀ a b, Laws.OpcodeMap.Statement (.workgroupRestore a b) := fun _ _ => opcodeMap_event rfl
theorem Laws.OpcodeMap.qtailWrite : ∀ a b, Laws.OpcodeMap.Statement (.qtailWrite a b) := fun _ _ => opcodeMap_event rfl
theorem Laws.OpcodeMap.qctlWrite : ∀ a b, Laws.OpcodeMap.Statement (.qctlWrite a b) := fun _ _ => opcodeMap_event rfl
theorem Laws.OpcodeMap.qsizeWrite : ∀ a b, Laws.OpcodeMap.Statement (.qsizeWrite a b) := fun _ _ => opcodeMap_event rfl
theorem Laws.OpcodeMap.qerrRead : ∀ a, Laws.OpcodeMap.Statement (.qerrRead a) := fun _ => opcodeMap_event rfl
theorem Laws.OpcodeMap.queueNop : ∀ a, Laws.OpcodeMap.Statement (.queueNop a) := fun _ => opcodeMap_event rfl
theorem Laws.OpcodeMap.launchCommand : ∀ a, Laws.OpcodeMap.Statement (.launchCommand a) := fun _ => opcodeMap_event rfl
theorem Laws.OpcodeMap.graphCommand : ∀ a, Laws.OpcodeMap.Statement (.graphCommand a) := fun _ => opcodeMap_event rfl
theorem Laws.OpcodeMap.waitv : ∀ a, Laws.OpcodeMap.Statement (.waitv a) := fun _ => opcodeMap_event rfl
theorem Laws.OpcodeMap.waitvSatisfied : ∀ a, Laws.OpcodeMap.Statement (.waitvSatisfied a) := fun _ => opcodeMap_event rfl
theorem Laws.OpcodeMap.frame : ∀ a, Laws.OpcodeMap.Statement (.frame a) := fun _ => opcodeMap_event rfl
theorem Laws.OpcodeMap.frameEncodeComplete : ∀ a, Laws.OpcodeMap.Statement (.frameEncodeComplete a) := fun _ => opcodeMap_event rfl
theorem Laws.OpcodeMap.inval : ∀ a, Laws.OpcodeMap.Statement (.inval a) := fun _ => opcodeMap_event rfl
theorem Laws.OpcodeMap.invalComplete : ∀ a, Laws.OpcodeMap.Statement (.invalComplete a) := fun _ => opcodeMap_event rfl
theorem Laws.OpcodeMap.preempt : ∀ a, Laws.OpcodeMap.Statement (.preempt a) := fun _ => opcodeMap_event rfl
theorem Laws.OpcodeMap.resume : ∀ a, Laws.OpcodeMap.Statement (.resume a) := fun _ => opcodeMap_event rfl
theorem Laws.OpcodeMap.comm : ∀ a, Laws.OpcodeMap.Statement (.comm a) := fun _ => opcodeMap_event rfl
theorem Laws.OpcodeMap.bridle : ∀ a, Laws.OpcodeMap.Statement (.bridle a) := fun _ => opcodeMap_event rfl
theorem Laws.OpcodeMap.region : ∀ a, Laws.OpcodeMap.Statement (.region a) := fun _ => opcodeMap_event rfl
theorem Laws.OpcodeMap.commandComplete : ∀ a, Laws.OpcodeMap.Statement (.commandComplete a) := fun _ => opcodeMap_event rfl
theorem Laws.OpcodeMap.restart : ∀ a, Laws.OpcodeMap.Statement (.restart a) := fun _ => opcodeMap_event rfl
theorem Laws.OpcodeMap.irqstatWrite : ∀ a, Laws.OpcodeMap.Statement (.irqstatWrite a) := fun _ => opcodeMap_event rfl
theorem Laws.OpcodeMap.errlogWrite : ∀ a, Laws.OpcodeMap.Statement (.errlogWrite a) := fun _ => opcodeMap_event rfl
theorem Laws.OpcodeMap.flashctlWrite : ∀ a, Laws.OpcodeMap.Statement (.flashctlWrite a) := fun _ => opcodeMap_event rfl
theorem Laws.OpcodeMap.flashWindowWrite : ∀ a b, Laws.OpcodeMap.Statement (.flashWindowWrite a b) := fun _ _ => opcodeMap_event rfl
theorem Laws.OpcodeMap.apertureAccess : ∀ a b c d, Laws.OpcodeMap.Statement (.apertureAccess a b c d) := fun _ _ _ _ => opcodeMap_event rfl
theorem Laws.OpcodeMap.cecntRead : Laws.OpcodeMap.Statement .cecntRead := opcodeMap_event rfl
theorem Laws.OpcodeMap.uestatWrite : ∀ a, Laws.OpcodeMap.Statement (.uestatWrite a) := fun _ => opcodeMap_event rfl
theorem Laws.OpcodeMap.portstatRead : ∀ a, Laws.OpcodeMap.Statement (.portstatRead a) := fun _ => opcodeMap_event rfl
theorem Laws.OpcodeMap.dlstatRead : ∀ a, Laws.OpcodeMap.Statement (.dlstatRead a) := fun _ => opcodeMap_event rfl
theorem Laws.OpcodeMap.registerWrite : ∀ a b, Laws.OpcodeMap.Statement (.registerWrite a b) := fun _ _ => opcodeMap_event rfl
theorem Laws.OpcodeMap.moduleReset : Laws.OpcodeMap.Statement .moduleReset := opcodeMap_event rfl
theorem Laws.OpcodeMap.startTimeout : Laws.OpcodeMap.Statement .startTimeout := opcodeMap_event rfl
theorem Laws.OpcodeMap.thermalTrip : Laws.OpcodeMap.Statement .thermalTrip := opcodeMap_event rfl
theorem Laws.OpcodeMap.powerLimit : ∀ a, Laws.OpcodeMap.Statement (.powerLimit a) := fun _ => opcodeMap_event rfl
theorem Laws.OpcodeMap.fabricWrite : ∀ a b, Laws.OpcodeMap.Statement (.fabricWrite a b) := fun _ _ => opcodeMap_event rfl
theorem Laws.OpcodeMap.fabricReadRequest : ∀ a b, Laws.OpcodeMap.Statement (.fabricReadRequest a b) := fun _ _ => opcodeMap_event rfl
theorem Laws.OpcodeMap.fabricReadData : ∀ a b, Laws.OpcodeMap.Statement (.fabricReadData a b) := fun _ _ => opcodeMap_event rfl
theorem Laws.OpcodeMap.fabricCollectiveData : ∀ a b, Laws.OpcodeMap.Statement (.fabricCollectiveData a b) := fun _ _ => opcodeMap_event rfl
theorem Laws.OpcodeMap.fabricAcknowledge : ∀ a b, Laws.OpcodeMap.Statement (.fabricAcknowledge a b) := fun _ _ => opcodeMap_event rfl
theorem Laws.OpcodeMap.replayTimeout : ∀ a, Laws.OpcodeMap.Statement (.replayTimeout a) := fun _ => opcodeMap_event rfl
theorem Laws.OpcodeMap.laneLockLoss : ∀ a, Laws.OpcodeMap.Statement (.laneLockLoss a) := fun _ => opcodeMap_event rfl
theorem Laws.OpcodeMap.portRetrainComplete : ∀ a b, Laws.OpcodeMap.Statement (.portRetrainComplete a b) := fun _ _ => opcodeMap_event rfl
theorem Laws.OpcodeMap.dieLinkRetrainComplete : ∀ a b, Laws.OpcodeMap.Statement (.dieLinkRetrainComplete a b) := fun _ _ => opcodeMap_event rfl
theorem Laws.OpcodeMap.scrubPatrol : ∀ a, Laws.OpcodeMap.Statement (.scrubPatrol a) := fun _ => opcodeMap_event rfl
theorem Laws.OpcodeMap.softError : ∀ a, Laws.OpcodeMap.Statement (.softError a) := fun _ => opcodeMap_event rfl
theorem Laws.OpcodeMap.trainingComplete : ∀ a, Laws.OpcodeMap.Statement (.trainingComplete a) := fun _ => opcodeMap_event rfl
theorem Laws.OpcodeMap.flashWriteComplete : ∀ a, Laws.OpcodeMap.Statement (.flashWriteComplete a) := fun _ => opcodeMap_event rfl

end Sys2Proof
end

