-- ==== Sys2Proof/Tests/Slice0.lean ====
section
/-! SUPPORT. Small tests of one step or one word each, and the witnesses of the statements. -/

namespace Sys2Proof.Tests

open Sys2Proof Sys2Proof.Machine

/-! ### Small states -/

/-- A clause that holds one instruction, started. -/
def clauseFor (i : Instr) : Clause := oneClause (encode i) 0
/-- A split of four lanes that stands before an instruction. -/
def splitAt_ (i : Instr) : Split := { v := true, pc := 0x10000, mask := 0xF, cl := some (clauseFor i) }
/-- A converged group of four lanes that stands before an instruction, some of its registers set. -/
def groupAt (i : Instr) : Group :=
  { wg := 0, grp := 0, splits := [splitAt_ i, {}, {}, {}], joins := [{}, {}, {}], lmask := 0xF
    s := [(4, 3), (6, 7), (20, 0x10000), (22, 8), (23, 0x08000000), (25, 0x02000000)], p := [(1, 0x5), (3, 0xF)] }
/-- A launch. -/
def launch0 : Launch := { q := 0, lid := 0, k := { regs := 256, staged := true, nsite := 8 } }
/-- A workgroup on core 0, with a vault window of 256 bytes. -/
def wg0 : Wg := { lnch := 0, core := 0, ix := 0, slots := [0], vwsize := 256, spool := some {} }
/-- The 64 KiB page 1, which die 0 holds a translation of: mapped onto itself in TIER 0, already marked as used. -/
def page1 : Nat × Tlb := (0, { asid := 0, page := 1, leaf := 0x10C03, leafAt := 0x8000 })
/-- A state in which that group stands before an instruction, page 1 mapped. -/
def at_ (i : Instr) : State :=
  { State.reset with
    launches := [(0, launch0)], wgs := [(0, wg0)], groups := [(0, groupAt i)], cores := [(0, { active := [0] })]
    tlbs := [page1], clock := 100, bootState := 4, cur := .group 0 0 0 }
/-- The same with another group. -/
def atG (f : Group → Group) (i : Instr) : State := (at_ i).modGroup 0 f
/-- The same with another split. -/
def atS (f : Split → Split) (i : Instr) : State := atG (fun g => { g with splits := g.splits.modify 0 f }) i
/-- The same with another workgroup. -/
def atW (f : Wg → Wg) (i : Instr) : State := (at_ i).modWg 0 f
/-- The same with another launch. -/
def atL (f : Launch → Launch) (i : Instr) : State := (at_ i).modLaunch 0 f
/-- The spool processor of that workgroup stands before an instruction. -/
def atSp (i : Instr) : State :=
  { atW (fun w => { w with spool := some { cl := some (clauseFor i), pc := 0x10000, s := [(4, 3), (6, 7)] } }) i with cur := .spool 0 }
/-- Nothing stops an issue, and what `p` asks holds. -/
def meets (i : Instr) (s : State) (p : Cx → State → Bool := fun _ _ => true) : Bool := match issuable i s with
  | some (cx, s1) => p cx s1
  | none => false
/-- The same of the return of a waiting instruction at which the group's first split stands. -/
def returns (mine : Instr → Bool) (s : State) (p : Cx → State → Bool := fun _ _ => true) : Bool :=
  match returnable (.group 0 0 0) mine s with
  | some (cx, s1) => p cx s1
  | none => false
/-- The same of the return of a spool processor. -/
def returnsSp (mine : Instr → Bool) (s : State) (p : Cx → State → Bool := fun _ _ => true) : Bool :=
  match returnable (.spool 0) mine s with
  | some (cx, s1) => p cx s1
  | none => false
/-- The split stands at a waiting instruction. -/
def stands (x : Split) : Split := { x with block := 1 }
/-- Whether a computation answers. -/
def good {ε α : Type} : Except ε α → Bool
  | .ok _ => true
  | .error _ => false
/-- Whether an instruction or event answers a next state. -/
def goes (i : Instr) (s : State) : Bool := match exec i s with
  | .next _ => true
  | _ => false
/-- The state after an instruction or event, or the state before it where that stops. -/
def after (i : Instr) (s : State) : State := match exec i s with
  | .next t => t
  | _ => s
/-- Fields with operands: D 8, A s6 or v6, B s4, C the constant 2, type n32. -/
def f0 : Fld := { d := 8, a := 6, b := 0x104, c := 0x182, ty := 1 }

/-! ### Witnesses: the hypotheses of each statement can be met together, clause by clause -/

theorem witness_ScalarIntegerResults : [Instr.sadd f0, .ssub f0, .smin f0, .smax f0, .smul f0, .smulh f0, .smad f0, .sand f0, .sor f0,
    .sxor f0, .snot f0, .sshl f0, .sshr f0, .sclz f0, .spop f0, .scmp f0, .ssel f0, .smov f0, .sli f0, .sbfe f0, .sbfi f0].all
    (fun i => meets i (at_ i) && meets i (atSp i)) = true := by decide

theorem witness_DivisionResults : [Instr.sdiv f0, .srem f0, .vdiv f0, .vrem f0].all (fun i => meets i (at_ i)) = true := by decide

theorem witness_VectorIntegerResults : [Instr.vadd f0, .vsub f0, .vadd { f0 with m := 1 }, .vsub { f0 with m := 1 }, .vmin f0, .vmax f0,
    .vabs f0, .vmul f0, .vmulh f0, .vmad f0, .vand f0, .vor f0, .vxor f0, .vnot f0, .vshl f0, .vshr f0, .vclz f0, .vpop f0, .vbrev f0,
    .vcmp f0, .vsel f0, .vmov f0, .vli f0, .vbfe f0, .vbfi f0, .vbrevFld f0].all (fun i => meets i (at_ i)) = true := by decide

theorem witness_FloatFixedResults : [Instr.fadd f0, .fsub f0, .fmul f0, .fmin f0, .fmax f0, .fldexp f0, .ffma f0, .frnd f0, .fclass f0,
    .fcmp f0].all (fun i => meets i (at_ i)) = true := by decide

theorem witness_FloatFunctionResults : [Instr.frcp f0, .frsq f0, .fsqrt f0, .fdiv f0, .fexp2 f0, .flog2 f0, .fsin f0, .fcos f0].all
    (fun i => meets i (at_ i)) = true := by decide

theorem witness_ConversionResults : [Instr.cvt f0, .pack2 f0, .unpk2 f0, .cvtkb f0, .unpkb f0].all (fun i => meets i (at_ i)) = true := by
  decide

/-- No lane of the split. -/
def noLane (x : Split) : Split := { x with mask := 0 }

theorem witness_PredicateAndLaneResults :
    ([Instr.pand f0, .por f0, .pxor f0, .pnot f0, .voteAll f0, .voteAny f0, .shfl f0, .qswz f0, .qbc f0, .vwritel f0].all
      (fun i => meets i (at_ i)) &&
    [Instr.voteBallot f0, .vreadl f0].all fun i => meets i (at_ i) (fun cx _ => cx.act != 0) &&
      meets i (atS noLane i) fun cx _ => cx.act == 0) = true := by decide

theorem witness_ReductionAndRandomResults : [Instr.vred f0, .vscan f0, .rand f0].all (fun i => meets i (at_ i)) = true := by decide

theorem witness_NopYieldTrapResults : [meets (.nop f0) (at_ (.nop f0)), meets (.nop f0) (atSp (.nop f0)),
    meets (.yield f0) (at_ (.yield f0)) (fun cx _ => !cx.onSpool), meets (.yield f0) (atSp (.yield f0)) (fun cx _ => cx.onSpool),
    meets (.trap f0) (at_ (.trap f0))].all id = true := by decide

/-- The translation of page 1 forbids a fetch. -/
def noFetch (s : State) : State := { s with tlbs := [(0, { asid := 0, page := 1, leaf := 0x10C23, leafAt := 0x8000 })] }

theorem witness_JumpAndBranchResults :
    let ok (i : Instr) (ofs : Bool) : Bool := meets i (at_ i) fun cx s =>
      (targetOk s cx (if ofs then target cx cx.f.lit else cx.g.rs2 cx.f.a.toNat)).isNone
    let bad (i : Instr) (ofs : Bool) : Bool := meets i (noFetch (at_ i)) fun cx s =>
      (targetOk s cx (if ofs then target cx cx.f.lit else cx.g.rs2 cx.f.a.toNat)).isSome
    let fb (p : BitVec 8) : Fld := { f0 with a := p, lit := 8 }
    let lanes (i : Instr) (q : Nat → Nat → Bool) : Bool := meets i (at_ i) fun cx _ => q (lanesWith cx).1 (lanesWith cx).2
    [ok (.bra (fb 0)) true, ok (.call (fb 0)) true, ok (.ret { f0 with a := 20 }) false, bad (.bra (fb 0)) true,
     bad (.ret { f0 with a := 20 }) false, meets (.ret { f0 with a := 24 }) (at_ (.ret { f0 with a := 24 })) (fun cx s =>
       (targetOk s cx (cx.g.rs2 cx.f.a.toNat)).isSome),
     meets (.call (fb 0)) (noFetch (at_ (.call (fb 0)))) (fun cx s =>
       (targetOk (fixAfter 2 s cx (sWrite 10 cx.f.d.toNat cx.next.toNat)) cx (target cx cx.f.lit)).isSome),
     bad (.brpAll (fb 3)) true, bad (.brpAny (fb 1)) true, bad (.brpNone (fb 2)) true,
     lanes (.brpAll (fb 3)) (fun v n => n == v), lanes (.brpAll (fb 1)) (fun v n => n != v), lanes (.brpAny (fb 1)) (fun _ n => n != 0),
     lanes (.brpAny (fb 2)) (fun _ n => n == 0), lanes (.brpNone (fb 2)) (fun _ n => n == 0),
     lanes (.brpNone (fb 1)) (fun _ n => n != 0)].all id = true := by decide

/-- Page 1 holds a branch table at 0x10000: two targets, the second 0x100 bytes on. -/
def table2 (s : State) : State :=
  { (s.writeNat (mKey 0 0x10000) 8 (2 + 0x80 * 2 ^ 32)).writeNat (mKey 0 0x1000C) 4 0x40 with hist := [], histLen := 0 }

theorem witness_DivergenceResults :
    let brv (p : BitVec 8) : Instr := .brv { f0 with a := p, lit := 0x200010 }
    let fx : Fld := { f0 with a := 20, b := 0x006 }
    let one (g : Group) : Group := { g with v := [(6, [1, 0, 1, 0])] }
    let table (i : Instr) (call : Bool) : Bool := meets i (table2 (atG one i)) fun cx s1 =>
      let s0 := if call then fixAfter 2 s1 cx (sWrite 10 cx.f.d.toNat cx.next.toNat) else s1
      match readPlain s0 cx.who .table (cx.g.rs2 cx.f.a.toNat) 8 8 with
      | .error _ => false
      | .ok (hb, s2) => natOfBytes hb % 65536 == 2 && natOfBytes hb / 65536 % 65536 == 0 &&
        (lanesIn cx.sp.mask).all (fun l => cx.b32 l < 2) && match tableTargets s2 cx (cx.g.rs2 cx.f.a.toNat) (byIndex cx) with
          | .error _ => false
          | .ok (ts, s3) => good (separateAll s3 cx 0x10200 cx.k ts)
    let onStack (n size : Nat) (ok : Bool) : Bool := meets (brv 1) (atG (fun g => { g with
        joins := List.replicate 3 { v := true }, stack := List.replicate n { pc := 0x10100, mask := 0xC, j := none, owner := 0 }, spillSize := size })
        (brv 1)) fun cx s =>
      let jb : BitVec 56 := (target cx (((cx.f.lit >>> 16).setWidth 16).signExtend 32)).setWidth 56
      takers cx != 0 && takers cx != cx.sp.mask && (targetOk s cx (target cx ((cx.f.lit.setWidth 16).signExtend 32))).isNone &&
      (s.group? cx.gk).any fun g => (g.splits.getD cx.k {}).mask == cx.sp.mask && g.joins.all (·.v) &&
        if ok then match pushEnt s cx ⟨jb, cx.sp.mask, none, cx.k⟩ with
          | .ok s2 => g.stack.length < 32 && good (pushEnt s2 cx ⟨cx.next.setWidth 56, cx.sp.mask &&& ~~~takers cx, some jb, cx.k⟩)
          | .error _ => false
        else 31 ≤ g.stack.length && g.spillSize < 24 * (g.stks + 16)
    let header (i : Instr) (call : Bool) (f : State → State) (p : Cx → Nat → Bool) : Bool := meets i (f (table2 (atG one i))) fun cx s1 =>
      match readPlain (if call then fixAfter 2 s1 cx (sWrite 10 cx.f.d.toNat cx.next.toNat) else s1) cx.who .table (cx.g.rs2 cx.f.a.toNat) 8 8 with
      | .error _ => false
      | .ok (hb, _) => p cx (natOfBytes hb)
    let sound (h : Nat) : Bool := decide (1 ≤ h % 65536) && decide (h % 65536 ≤ 4096) && h / 65536 % 65536 == 0
    let unsound (i : Instr) (w : Nat) (call : Bool) : Bool := header i call
      (fun s => { s.writeNat (mKey 0 0x10000) 4 w with hist := [], histLen := 0 }) fun _ h => !sound h
    let beyond_ (i : Instr) (call : Bool) : Bool := header i call
      (fun s => s.modGroup 0 fun g => { g with v := [(6, [1, 0, 2, 9])] }) fun cx h => sound h && decide (h % 65536 ≤ cx.b32 2) &&
        (lanesIn cx.sp.mask).all fun l => 2 ≤ l || decide (cx.b32 l < h % 65536)
    [meets (brv 2) (at_ (brv 2)) (fun cx _ => takers cx == 0),
     meets (brv 3) (at_ (brv 3)) (fun cx s => takers cx != 0 && takers cx == cx.sp.mask &&
       (targetOk s cx (target cx ((cx.f.lit.setWidth 16).signExtend 32))).isNone),
     meets (brv 1) (at_ (brv 1)) (fun cx s => takers cx != 0 && takers cx != cx.sp.mask &&
       (targetOk s cx (target cx ((cx.f.lit.setWidth 16).signExtend 32))).isNone && match s.group? cx.gk with
         | none => false
         | some g => (firstIdx (fun x => !x.v) g.splits).isSome && (firstIdx (fun (x : JoinEnt) => !x.v) g.joins).isSome &&
           (g.splits.getD cx.k {}).n == 0 && (g.splits.getD cx.k {}).mask == cx.sp.mask),
     meets (brv 1) (noFetch (at_ (brv 1))) (fun cx s => takers cx != 0 && (targetOk s cx (target cx ((cx.f.lit.setWidth 16).signExtend 32))).isSome),
     onStack 0 100 true, onStack 31 100 false, onStack 32 0 false,
     table (.brx fx) false, table (.callx fx) true, unsound (.brx fx) 0 false, unsound (.callx fx) 0x10002 true, beyond_ (.brx fx) false,
     beyond_ (.callx fx) true].all id = true := by decide +kernel

/-- The split is one of a join entry at its own address. -/
def joining (g : Group) : Group := { g with
  splits := g.splits.modify 0 fun x => { x with j := some 0x10000, je := 0 }, joins := [{ v := true, ja := 0x10000, jm := 0xF }, {}, {}] }
/-- The split has an entry of the stack to pop at its own address. -/
def popping (g : Group) : Group := { g with
  splits := g.splits.modify 0 fun x => { x with j := some 0x10000, n := 1 }, stack := [{ pc := 0x10100, mask := 0xC, j := none, owner := 0 }] }

theorem witness_JoinResults :
    let jt : Instr := .joinT { f0 with b := 0x1FF, mn := 1, lit := 200 }
    let away (i : Instr) : Bool := meets i (at_ i) (fun cx _ => cx.sp.j != some (cx.H.setWidth 56)) &&
      meets i (atS (fun x => { x with j := some 0x10000 }) i) (fun cx _ => cx.sp.j == some (cx.H.setWidth 56) && cx.sp.n == 0 && 3 ≤ cx.sp.je)
    let here (i : Instr) : Bool := meets i (atG joining i) fun cx _ => cx.sp.j == some (cx.H.setWidth 56) && cx.sp.n == 0 && cx.sp.je < 3
    let waits := atS (fun x => { x with st := 2 }) (.join f0)
    [away (.join f0), away jt, here (.join f0), here jt,
     meets (.join f0) (atG popping (.join f0)) (fun cx s => cx.sp.j == some (cx.H.setWidth 56) && 0 < cx.sp.n &&
       match popEnt s cx cx.k with
       | .ok (some _, _) => true
       | _ => false),
     (waits.group? 0).any (fun g => (g.splits.getD 0 {}).v && (g.splits.getD 0 {}).st == 2 && (g.splits.getD 0 {}).timer == 0 &&
       !frozen waits g.wg && (decide (waits.clock < g.issued) || g.splits.all fun x => !x.v || x.st != 0)) && !(waits.core 0).halted].all id =
      true := by decide

theorem witness_ExitResults : [meets (.exit f0) (atSp (.exit f0)) (fun cx _ => cx.onSpool),
    meets (.exit f0) (at_ (.exit f0)) (fun cx _ => !cx.onSpool && cx.g.converged cx.k),
    meets (.exit f0) (atG joining (.exit f0)) (fun cx _ => !cx.onSpool && !cx.g.converged cx.k),
    meets (.exit f0) (atS (fun x => { x with mask := 7 }) (.exit f0)) (fun cx _ => !cx.onSpool && !cx.g.converged cx.k)].all id = true := by
  decide

/-- A state in which one operation of a kind is outstanding. -/
def withOp (k : OpK) (f : Op → Op := id) (s : State := at_ (.nop f0)) : State :=
  { s with ops := [f { id := 5, ag := .group 0 0 0, wg := 0, lnch := 0, k := k, pc := 0x10008 }], nextId := 6 }
/-- What `p` asks of that operation holds. -/
def opIs (s : State) (p : Op → Bool) : Bool := (s.op? 5).any p
/-- An operation that may still complete. -/
def live (s : State) (o : Op) : Bool := o.fault.isNone && !o.done && !opSaved s o

theorem witness_SystemCallResults :
    let blk (n : Nat) (x : Nat) (s : State) : State := { s.writeNat (mKey 0 0x10000) n x with hist := [], histLen := 0 }
    let asker (s : State) (o : Op) : Who := { opWho s o with asks := true }
    let reads (s : State) (n : Nat) : Bool := opIs s fun o => good (readPlain s (asker s o) .load 0x10000 n 1)
    let log := blk 12 (0x10100 + 4 * 2 ^ 64) (withOp (.sys 1 0x10000 none))
    [meets (.sys f0) (at_ (.sys f0)), meets (.sys { f0 with b := 0x184 }) (at_ (.sys { f0 with b := 0x184 })) (fun cx _ => 4 ≤ cx.b32 0),
     opIs (withOp (.sys 0 0 (some 0)) fun o => { o with wrs := [.s 8 0] }) (fun o => o.wrs == [.s 8 0]),
     [0, 1, 2, 3].all (fun v => opIs (withOp (.sys v (8 * 2 ^ 56) none)) fun o => o.k == .sys v (8 * 2 ^ 56) none),
     pathOf (8 * 2 ^ 56) != 0, reads (withOp (.sys 2 0x10000 none)) 4, reads (withOp (.sys 3 0x10000 none)) 16,
     opIs log (fun o => match readPlain log (asker log o) .load 0x10000 12 1 with
       | .error _ => false
       | .ok (bs, s1) => natOfBytes (bs.take 8) < 2 ^ 56 && 0 < natOfBytes ((bs.drop 8).take 4) &&
         good (readPlain s1 (asker s1 o) .load (BitVec.ofNat 64 (natOfBytes (bs.take 8))) (min (natOfBytes ((bs.drop 8).take 4)) 4096) 1))].all
      id = true := by decide +kernel

/-- Every special register by number. -/
def srNumbers : List Nat := [0x00, 0x01, 0x02, 0x08, 0x09, 0x0A, 0x0B, 0x0C, 0x0D, 0x0E, 0x0F, 0x10, 0x11, 0x12, 0x13, 0x14, 0x15, 0x16, 0x17,
  0x18, 0x19, 0x1A, 0x1B, 0x1C, 0x1D, 0x1E, 0x1F, 0x20, 0x21, 0x22]

theorem witness_SpecialRegisterResults :
    let fr (n : Nat) : Fld := { f0 with a := BitVec.ofNat 8 n }
    ((srNumbers.all fun n => meets (.getsr (fr n)) (at_ (.getsr (fr n))) && meets (.getsrVector (fr n)) (at_ (.getsrVector (fr n)))) &&
     ([0x1A, 0x1B].all fun n => meets (.getsr (fr n)) (atSp (.getsr (fr n))) fun cx _ => cx.onSpool && cx.w.spool.isSome) &&
     ([0x17, 0x18, 0x19, 0x00].all fun n => meets (.setsr (fr n)) (at_ (.setsr (fr n))))) = true := by decide +kernel

/-- Fields of an access of one 32-bit word for each lane at the s pair s23:s22, byte 8 of the workgroup's vault window. -/
def fm : Fld := { d := 8, a := 22, b := 0x180, mn := 1, ty := 1 }
/-- The same at the last word of the window, and one byte further on. -/
def fmEnd : Fld := { fm with b := 0x1FF, lit := 244 }
/-- Offset 1: not aligned. -/
def fmOdd : Fld := { fm with b := 0x181 }
/-- An address pair on path 0x00 in page 1, s21:s20. -/
def fmGlobal : Fld := { fm with a := 20 }

/-- The size of an access. -/
def sizeOf_ (cx : Cx) : Nat := if cx.f.mn.toNat / 2 % 2 = 1 then 16 else tyBits cx.ty / 8
/-- The requests of LD, ST and of LDS, STS. -/
def reqs (cx : Cx) (i : Instr) : AccK × List Req := match i with
  | .ld _ => (.load, requests cx (some cx.act) (fun l => baseAddr cx (decide (cx.f.mn.toNat % 2 = 1)) (offsetB cx l) l) (sizeOf_ cx))
  | .st _ => (.store, requests cx (some cx.actNH) (fun l => baseAddr cx (decide (cx.f.mn.toNat % 2 = 1)) (offsetB cx l) l) (sizeOf_ cx))
  | .sts _ => (.store, requests cx none (fun l => baseAddr cx true (offsetB cx l) l) (sizeOf_ cx))
  | .promote _ => (.load, requests cx none (fun l => baseAddr cx true (offsetB cx l) l) (tyBits cx.ty / 8))
  | .atom _ => (.atomic, requests cx (some cx.actNH) (baseAddr cx (bit cx.m 1) 0) (tyBits cx.ty / 8))
  | _ => (.load, requests cx none (fun l => baseAddr cx true (offsetB cx l) l) (sizeOf_ cx))
/-- The requests resolve, to sound bytes of this module. -/
def resolves (i : Instr) (s : State) : Bool := meets i s fun cx s1 =>
  let natural_ := match i with
    | .promote _ | .atom _ => true
    | _ => false
  let marked := natural_ || cx.f.c.toNat % 8 != 0
  match resolveAll s1 cx.who (reqs cx i).1 marked (if natural_ then natural else alignFor marked) (reqs cx i).2 with
  | .error _ => false
  | .ok (hs, s2) => cx.act != 0 && (allHits hs).all fun h => !s2.poisoned h.key && keyCode h.key != 3
/-- The requests do not resolve. -/
def faults (i : Instr) (s : State) : Bool := meets i s && !resolves i s

/-- Page 1 is memory of a peer module. -/
def peerPage (s : State) : State := { s with tlbs := [(0, { asid := 0, page := 1, leaf := 0x10F03, leafAt := 0x8000 })], peers := [0], ports := [(0, { st := 1 })] }
/-- The first bytes of page 1 are poisoned. -/
def poisonedPage (s : State) : State := { s with poison := [unitOf (mKey 0 0x10000)] }
/-- The requests of a load resolve, and a poisoned byte stops it; or they resolve to sound bytes, some of peer modules. -/
def resolvesTo (want : State → List Hit → Bool) (pre : State → State) (i : Instr) : Bool := meets i (pre (at_ i)) fun cx s1 =>
  let natural_ := match i with
    | .promote _ => true
    | _ => false
  let marked := natural_ || cx.f.c.toNat % 8 != 0
  match resolveAll s1 cx.who .load marked (if natural_ then natural else alignFor marked) (reqs cx i).2 with
  | .error _ => false
  | .ok (hs, s2) => cx.act != 0 && want (if natural_ then widenRels s2 cx.who (((allHits hs).map (·.key)).headD 0) else s2) (allHits hs)

theorem witness_LoadsStopOrAsk :
    ([Instr.ld fmGlobal, .lds fmGlobal, .promote fmGlobal].all (fun i =>
       resolvesTo (fun s hs => (anyPoison s hs).isSome) poisonedPage i &&
       resolvesTo (fun s hs => hs.all (fun h => !s.poisoned h.key) && hs.any fun h => keyCode h.key == 3) peerPage i) &&
     meets (.promote fm) (at_ (.promote fm)) fun cx _ => decide (pathOf (baseAddr cx true (offsetB cx 0) 0) ∈ [1, 8, 9, 12, 14])) = true := by
  decide

theorem witness_LoadStoreResults :
    (meets (.ld fm) (atS noLane (.ld fm)) (fun cx _ => cx.act == 0) &&
    [Instr.ld fm, .ld fmEnd, .ld fmGlobal, .ld { fm with mn := 3, b := 0x188 }, .ld { fm with ty := 10, c := 0x1 }, .lds fm, .lds fmEnd, .lds fmGlobal, .promote fmGlobal,
      .st fm, .st fmEnd, .st fmGlobal, .st { fm with c := 0x3 }, .sts fm, .sts fmEnd, .sts fmGlobal].all fun i => resolves i (at_ i)) = true := by
  decide

theorem witness_MemoryFaultsRaise : [Instr.ld fmOdd, .lds fmOdd, .st fmOdd, .sts fmOdd, .atom { fmOdd with a := 24, m := 2 },
    .ld { fmEnd with lit := 245 }].all (fun i => faults i (at_ i)) = true := by decide

/-- A site bound to the word at 0x10000. -/
def site0 : Site := { addr := 0x10000, ty := 1, acc := 0 }
/-- A deterministic launch with that site. -/
def ordered (l : Launch) : Launch := { l with det := true, sites := [site0] }

theorem witness_AtomicResults :
    let fo : Fld := { fm with a := 20, ty := 1 }
    let st (f : Launch → Launch) : State := atL f (.atomOrd fo)
    let pass : State := { atG (fun g => { g with sites := [0] }) (.nop f0) with
      launches := [(0, { ordered launch0 with sites := [{ site0 with waiting := [⟨0, 0, 5, 0, 3, 0, [(0, 4)], {}, [], []⟩] }] })] }
    [resolves (.atom { fm with m := 2 }) (at_ (.atom { fm with m := 2 })), resolves (.atom { fm with m := 3 }) (at_ (.atom { fm with m := 3 })),
     meets (.atomOrd fo) (st ordered) (fun cx s => cx.l.det && cx.l.sites[cx.f.c.toNat / 64 % 8]?.any (fun x =>
       x.addr == cx.g.rs2 cx.f.a.toNat && x.ty == cx.ty) && cx.g.sites.isEmpty &&
       good (resolveAll s cx.who .atomic true natural [(none, 0x10000, 4)])),
     meets (.atomOrd fo) (st id) (fun cx _ => cx.l.sites.isEmpty), meets (.atomOrd fo) (st fun l => { ordered l with det := false }),
     meets (.atomOrd { fo with a := 22 }) (st ordered), meets (.atomOrd { fo with ty := 5 }) (st ordered),
     meets (.atomOrd fo) ((st ordered).modGroup 0 fun g => { g with sites := [0] }) (fun cx _ => decide (0 ∈ cx.g.sites)),
     (pass.launch? 0).any fun l => l.sites[0]?.any fun x => x.next < l.gx * l.gy * l.gz && !l.killed && siteSettled pass 0 l 0 x.next 32 &&
       let mine := x.waiting.filter (·.wg == x.next)
       let r := giveResults pass x mine x.acc.toNat
       let st' : Site := { x with acc := BitVec.ofNat 64 r.2, next := x.next + 1, waiting := [], ord := passOrd mine, rels := passRels x.rels mine }
       !mine.isEmpty && 3 ≤ passOrd mine && good (passageWrite r.1 (passageWho r.1 0 0 l st' mine) st' mine)].all
      id = true := by decide

theorem witness_LaneCopyAndFenceResults :
    let fc : Fld := { fm with a := 20, d := 22, b := 0x184, mn := 3, c := 0x0 }
    let lanes : List (Nat × DWord × DWord × Nat × Nat) := [(0, 0x10000, 0x0800000000000008, 4, 4)]
    let odd : List (Nat × DWord × DWord × Nat × Nat) := [(0, 0x10001, 0x0800000000000008, 4, 4)]
    let fw : Fld := { d := 4, b := 0x180, ty := 1 }
    let busy := atG (fun g => { g with f := [(4, 1)] })
    [meets (.lcopy fc) (at_ (.lcopy fc)) (fun cx s => cx.actNH != 0 && good (lcResolve (startHb s cx) (cx.engWho s) ((lanesIn cx.actNH).map fun l =>
         (l, baseAddr cx true 0 l, cx.lcDst l, min (cx.b32 l) (4 * 2 ^ (cx.f.c.toNat % 8)), 4 * 2 ^ (cx.f.c.toNat % 8))))),
     meets (.lcopy fc) (atS noLane (.lcopy fc)) (fun cx s => cx.actNH == 0 && good (lcResolve (startHb s cx) (cx.engWho s) [])),
     opIs (withOp (.lcopy lanes)) (fun o => live (withOp (.lcopy lanes)) o && match lcResolve (withOp (.lcopy lanes)) (engWho (withOp (.lcopy lanes)) o) lanes with
       | .error _ => false
       | .ok (a, _, _) => (allHits a).all fun h => keyCode h.key != 3),
     opIs (withOp (.lcopy odd)) (fun o => live (withOp (.lcopy odd)) o && !good (lcResolve (withOp (.lcopy odd)) (engWho (withOp (.lcopy odd)) o) odd)),
     meets (.waitf fw) (at_ (.waitf fw)) (fun cx _ => cx.g.cnt 4 ≤ min (cx.b32 0) 255),
     meets (.waitf fw) (busy (.waitf fw)) (fun cx _ => min (cx.b32 0) 255 < cx.g.cnt 4),
     returns isWaitf (atS stands (.waitf fw)), [2, 3, 4].all fun n =>
       meets (.fence { f0 with c := BitVec.ofNat 9 n }) (at_ (.fence { f0 with c := BitVec.ofNat 9 n })) fun cx _ => cx.f.c.toNat % 8 == n].all
      id = true := by decide

theorem witness_SpillFillResults :
    let fs : Fld := { a := 6, d := 8, b := 0x114, c := 0x180, ty := 1 }
    let fo : Fld := { fs with c := 0x184 }
    let slot (cx : Cx) : DWord := cx.g.rs2 (cx.f.b.toNat - 256) + BitVec.ofNat 64 (cx.c32 0)
    let spills (f : Fld) : Bool := meets (.spill f) (at_ (.spill f)) fun cx s =>
      let bs := spillBytes cx.g.lmask (cx.g.rv cx.f.a.toNat)
      good (slotResolve s cx.who .store (slot cx) 0 bs.length)
    let fills (f : Fld) : Bool := meets (.fill f) { at_ (.fill f) with mem := [(mKey 0 0x10000, 1)] } fun cx s => match fillRead s { cx.who with got := [] } cx.act (slot cx) with
      | .ok _ _ _ => true
      | _ => false
    let bad (f : Fld) : Bool := meets (.fill f) (at_ (.fill f)) fun cx s => match fillRead s { cx.who with got := [] } cx.act (slot cx) with
      | .bad _ => true
      | _ => false
    let unknown : Bool := meets (.fill fs) { at_ (.fill fs) with mem := [(mKey 0 0x10000, 4)] } fun cx s =>
      match slotResolve s { cx.who with got := [] } .load (slot cx) 0 16 with
      | .error _ => false
      | .ok (hs, s2) => (allHits hs).all (fun h => !s2.poisoned h.key && keyCode h.key != 3) &&
        3 < natOfBytes ((readHits s2 { cx.who with got := [] } false (allHits hs)).1.take 4) % 256
    [spills fs, meets (.spill fo) (at_ (.spill fo)) && !spills fo, fills fs, bad fo, unknown].all id = true := by decide +kernel

theorem witness_SpilledRegisterFillsBack : (0xF : Mask) ≠ 0 ∧ (0xF : Mask).getLsbD 3 = true ∧
    natOfBytes ((spillBytes 0xF fun l => BitVec.ofNat 32 (7 * l)).take 4) = 2 := by decide

/-- A record of 16 elements at the start of page 1. -/
def tiGroup (g : Group) : Group := { g with
  s := [(4, 3), (32, 0x10000), (34, 0x00010010), (35, 0x00010001), (36, 4)]
  ti := [(0, tiSet [0x10000, 0, 0x00010010, 0x00010001, 4, 0, 0, 0, 0, 0, 0, 0, 0, 0, 0, 0] 0 0)] }
/-- A record whose counter lies outside its extents. -/
def tiBad (g : Group) : Group := { g with s := [(34, 0x00010010), (35, 0x00010001), (40, 0x20)] }

theorem witness_TensorIteratorResults :
    let ft : Fld := { a := 32, d := 0, b := 0x182, c := 0x180, ty := 1 }
    let fx : Fld := { a := 0, d := 8, b := 0x182, c := 0x180, ty := 1 }
    let rec16 (cx : Cx) : List Word := (List.range 16).map fun k => cx.g.rs (cx.f.a.toNat + k)
    let last (cx : Cx) : Nat := cx.f.d.toNat + cx.b32 0 * regsOf cx.ty
    let made (mode : Nat) (cx : Cx) : Tiop :=
      { mode := mode, ty := cx.ty, reg := cx.f.d.toNat, n := cx.b32 0, hnd := cx.f.a.toNat % 4, act := if mode = 1 then cx.actNH else cx.act
        ofs := lanesOf fun l => if cx.f.c = 384 then 0 else BitVec.ofNat 32 (cx.c32 l)
        data := if mode = 1 then (List.range (cx.b32 0 * regsOf cx.ty)).map fun k => lanesOf fun l => cx.g.rv (cx.f.d.toNat + k) l else [] }
    let starts (mode : Nat) (i : Instr) (there : Bool) (pre : State → State) : Bool := meets i (pre (atG tiGroup i)) fun cx s =>
      let x := made mode cx
      let s2 := startLater (s.modGroup cx.gk (·.dropTiset x.hnd)) cx (.tiop x) (if mode = 0 then vRefs x.reg (x.n * regsOf x.ty) else [])
      1 ≤ cx.b32 0 && cx.b32 0 ≤ 32 && cx.act != 0 && (mode == 2 || last cx ≤ cx.l.k.regs) &&
        !(mode == 0 && cx.f.c.toNat < 256 && x.reg ≤ cx.f.c.toNat && cx.f.c.toNat < last cx) &&
        (s2.op? s.nextId).any fun o => match tiRun s2 o x cx.gk with
          | .ok _ => there
          | .stop _ _ => !there
    let unmapped (s : State) : State := { s with tlbs := [] }
    let fits (mode : Nat) (i : Instr) : Bool := starts mode i true id
    let t : Tiop := ⟨0, 1, 8, 2, 0, 0xF, lanesOf fun _ => 0, [], []⟩
    let st := { withOp (.tiop t) with groups := [(0, tiGroup (groupAt (.nop f0)))] }
    [starts 0 (.tiopLd fx) true peerPage, starts 0 (.tiopLd fx) false unmapped, starts 1 (.tiopSt fx) false unmapped,
     meets (.tiopSt fx) (atL (fun l => { l with k := { l.k with roles := 3 } }) (.tiopSt fx)) (fun cx _ => cx.role == 3), meets (.tiopLd { fx with c := 0x009 }) (atG tiGroup (.tiopLd { fx with c := 0x009 })) (fun cx _ =>
       cx.act != 0 && cx.f.d.toNat ≤ cx.f.c.toNat && cx.f.c.toNat < last cx),
     [Instr.tiopLd fx, .tiopSt fx, .tiopAdv fx].all fun i => meets i (atS noLane i) fun cx _ => cx.act == 0,
     meets (.tiset ft) (atG tiGroup (.tiset ft)) (fun cx _ => cx.act != 0 && tiOk (rec16 cx)),
     meets (.tiset ft) (atS noLane (.tiset ft)) (fun cx _ => cx.act == 0),
     meets (.tiset ft) (atG tiBad (.tiset ft)) (fun cx _ => cx.act != 0 && !tiOk (rec16 cx)),
     meets (.tiget fx) (at_ (.tiget fx)), fits 0 (.tiopLd fx), fits 0 (.tiopLd { fx with b := 0x181 }), fits 0 (.tiopLd { fx with b := 0x1A0 }),
     fits 1 (.tiopSt fx), fits 2 (.tiopAdv fx), meets (.tiopLd { fx with b := 0x180 }) (at_ (.tiopLd { fx with b := 0x180 })) (fun cx _ => cx.b32 0 == 0),
     meets (.tiopLd { fx with b := 0x1A1 }) (at_ (.tiopLd { fx with b := 0x1A1 })) (fun cx _ => 32 < cx.b32 0),
     meets (.tiopLd { fx with d := 255 }) (at_ (.tiopLd { fx with d := 255 })) (fun cx _ => cx.l.k.regs < cx.f.d.toNat + cx.b32 0 * regsOf cx.ty),
     opIs st (fun o => live st o && !unackedOp st o.id && (farHits o.got t.farHits).isEmpty && match tiRun st o t 0 with
       | .ok s1 => (s1.op? 5).any fun o1 => (farHits o1.got (o1.tiopNow t).farHits).isEmpty && !unackedOp (opFollows s1 o) 5
       | .stop _ _ => false)].all id = true := by decide +kernel

theorem witness_BarrierAndMailboxResults :
    let fb : Fld := { d := 2, b := 0x182, ty := 1 }
    let cnt (i : Instr) (b : BitVec 9) (p : Nat → Bool) (lit : Word := 0) : Bool :=
      let set (i : Instr) : Instr := match i with
        | .bari f => .bari { f with b := b, lit := lit }
        | .bara f => .bara { f with b := b, lit := lit }
        | i => i
      meets (set i) (at_ (set i)) fun cx _ => p (cx.b32 0)
    let good_ (n : Nat) : Bool := 1 ≤ n && n ≤ 4095
    let mail (f : Instr → State) (i : Instr) : State := (f i).modWg 0 fun w => { w with mbox := [9] }
    let standing (i : Instr) : State := (atSp i).modWg 0 fun w => { w with spool := w.spool.map fun p => { p with block := 1 } }
    ([Instr.bari fb, .bara fb].all (fun i => cnt i 0x181 good_ && cnt i 0x1FF good_ 4095 && cnt i 0x180 (fun n => !good_ n) &&
       cnt i 0x1FF (fun n => !good_ n) 4096) &&
    [decide (0 < (Tab.get ({ exp := wg0.ngrp } : Bar) wg0.bars 2).exp),
     meets (.barw { fb with b := 0x181 }) (at_ (.barw { fb with b := 0x181 })) (fun cx _ => (cx.w.bar 2).ph != decide (cx.b32 0 % 2 = 1)),
     meets (.barw { fb with b := 0x180 }) (at_ (.barw { fb with b := 0x180 })) (fun cx _ => (cx.w.bar 2).ph == decide (cx.b32 0 % 2 = 1)),
     returns isBarw (atS stands (.barw { fb with b := 0x181 })), meets (.bart fb) (at_ (.bart fb)), meets (.spreq fb) (at_ (.spreq fb)),
     meets (.sprecv fb) (mail atSp (.sprecv fb)) (fun cx _ => cx.w.mbox == [9]), meets (.sprecv fb) (atSp (.sprecv fb)) (fun cx _ => cx.w.mbox == []),
     returnsSp isSprecv (mail standing (.sprecv { d := 2, ty := 1 })) (fun cx _ => cx.w.mbox == [9]),
     meets (.sprecvTry fb) (mail atSp (.sprecvTry fb)) (fun cx _ => cx.w.mbox == [9]),
     meets (.sprecvTry fb) (atSp (.sprecvTry fb)) (fun cx _ => cx.w.mbox == [])].all id) = true := by decide

/-- The matrix unit of core 0. -/
def mxOf (s : State) : Matrix := (s.core 0).mx
/-- A state with another matrix unit on core 0. -/
def withMx (m : Matrix) (s : State) : State := s.setCore 0 { s.core 0 with mx := m }
/-- A task node that runs as the launch, with a queue of records. -/
def node0 : Node := { task := true, body := [], rw := 1, cap := 4, lnch := some 0, started := true, queue := [{ words := [7] }], used := 1 }
/-- A graph of that node and one that feeds itself. -/
def graph0 : Graph := { obj := 0, q := 0, ctx := {}, nodes := [node0], edges := [(0, 0, 2)], cmd := 0 }
/-- The launch runs as that node. -/
def inGraph (f : Node → Node) (s : State) : State :=
  { s.modLaunch 0 (fun l => { l with node := some (0, 0) }) with graphs := [(0, { graph0 with nodes := [f node0] })] }

theorem witness_QueuePopResults :
    let fq : Fld := { d := 8, b := 0x102, c := 1 }
    let ft : Fld := { d := 8, a := 1, b := 0x181, c := 1 }
    let fr : Fld := { a := 6, b := 0x180, ty := 1 }
    let full := withMx { pub := [2], nextRow := 63 }
    let sound (cx : Cx) (s : State) : Bool := cx.f.a == 0 && !(mxOf s).pub.isEmpty && !decide (64 * (mxOf s).pub.headD 0 + (mxOf s).nextRow ∈ (mxOf s).bad)
    let flawed := withMx { pub := [2], nextRow := 63, bad := [191] }
    let unsound (cx : Cx) (s : State) : Bool := cx.f.a == 0 && !(mxOf s).pub.isEmpty && !earlierPop s cx true &&
      decide (64 * (mxOf s).pub.headD 0 + (mxOf s).nextRow ∈ (mxOf s).bad)
    let dry (cx : Cx) (s : State) : Bool := cx.f.a == 0 && (mxOf s).pub.isEmpty
    let second (g : Group) : Group := { g with splits := g.splits.modify 1 fun x =>
      { x with v := true, block := 1, since := 50, cl := some (clauseFor (.qpop { d := 8, c := 1 })) } }
    let met (b : Bool) (cx : Cx) (s : State) : Bool := cx.f.a != 0 && waitMet (endHold s cx) cx == b
    let closed := inGraph fun x => { x with closed := true }
    [meets (.qpop fq) (full (at_ (.qpop fq))) (fun cx s => sound cx s && !earlierPop s cx true),
     meets (.qpop fq) (full (atG second (.qpop fq))) (fun cx s => cx.f.a == 0 && earlierPop s cx true), meets (.qpopTry fq) (full (at_ (.qpopTry fq))) (fun cx s => sound cx s && !earlierPop s cx true),
     meets (.qpopTry fq) (full (atG second (.qpopTry fq))) (fun cx s => cx.f.a == 0 && earlierPop s cx true),
     meets (.qpop fq) (flawed (at_ (.qpop fq))) unsound, meets (.qpopTry fq) (flawed (at_ (.qpopTry fq))) unsound,
     meets (.qpop fq) (at_ (.qpop fq)) dry, meets (.qpopTry fq) (at_ (.qpopTry fq)) dry,
     meets (.qpop ft) (closed (at_ (.qpop ft))) (met true), meets (.qpop ft) (inGraph id (at_ (.qpop ft))) (met false),
     meets (.qpopTry ft) (inGraph id (at_ (.qpopTry ft))) (fun cx _ => cx.f.a != 0),
     meets (.qpush fr) (inGraph id (at_ (.qpush fr))) (fun cx s => (nodeOf s cx.l).isSome), meets (.qpush fr) (at_ (.qpush fr)) (fun cx s => (nodeOf s cx.l).isNone),
     returns isQpop (full (atS stands (.qpop { d := 8, c := 1 }))) (fun cx s => sound cx s && cx.i == .qpop { d := 8, c := 1 }),
     returns isQpop (closed (atS stands (.qpop { ft with ty := 1 }))) (fun cx s => met true cx s && cx.i == .qpop { ft with ty := 1 })].all id = true := by decide

/-- Reservation records: one of 256 bytes at the buffer's start, one that overlaps it. -/
def obGroup (g : Group) : Group := { g with s := [(4, 3), (32, 0), (33, 256), (34, 4), (35, 0), (36, 0x100)] }
/-- An operand block whose operands stand in the vault window, of format 2, with no strides. -/
def mlGroup (g : Group) : Group := { g with s := [(33, 0x08000000), (37, 0x08000000)] }
/-- Word pairs of an operand block. -/
def ml : Fld := { a := 32, b := 0x181, c := 0x22 }

theorem witness_MatrixUnitIssueResults :
    let fo : Fld := { d := 8, a := 32, b := 0x182, ty := 1 }
    let r0 : List Word := [0, 256, 4, 0]
    let held0 (w : Wg) : Wg := { w with obr := [(2, r0)] }
    let other (s : State) : State := { s with wgs := s.wgs ++ [(1, { wg0 with obr := [(0, r0)] })] }
    let ob (f : State → State) (fl : Fld) (p : Cx → State → Bool) : Bool := meets (.obres fl) (f (atG obGroup (.obres fl))) p
    let rec4 (cx : Cx) : List Word := (List.range 4).map fun k => cx.g.rs (cx.f.a.toNat + k)
    let hit (cx : Cx) (w : Wg) : Bool := w.heldRanges.any fun r => r.1 < 256 && (cx.g.rs 32).toNat < r.1 + r.2
    let ok (i : Instr) : Bool := meets i (atG mlGroup i) fun cx s => cx.b32 0 ≤ 65535 &&
      (operandRec cx.w (blkAddr ((List.range 8).map fun k => cx.g.rs (cx.f.a.toNat + k)) 0) 2) == some [] &&
      (operandRec cx.w (blkAddr ((List.range 8).map fun k => cx.g.rs (cx.f.a.toNat + k)) 4) 2) == some [] &&
      pairing (fmtFor 2 []) (fmtFor 2 []) == some (4, false) && prospective s cx.w.core == none
    [ob id fo (fun cx _ => obOk (rec4 cx) && cx.b32 0 ≤ 7 && (Tab.find? cx.w.obr (cx.b32 0)).isNone && !hit cx cx.w),
     ob (·.modWg 0 held0) fo (fun cx _ => obOk (rec4 cx) && (Tab.find? cx.w.obr (cx.b32 0)).isSome),
     ob (·.modWg 0 held0) { fo with b := 0x183 } (fun cx _ => obOk (rec4 cx) && (Tab.find? cx.w.obr (cx.b32 0)).isNone && hit cx cx.w),
     ob other fo (fun cx s => obOk (rec4 cx) && !hit cx cx.w && s.wgs.any fun e => e.1 != cx.wid && e.2.core == cx.w.core && !e.2.saved && hit cx e.2),
     ob id { fo with b := 0x187 } (fun cx _ => cx.b32 0 ≤ 7), ob id { fo with b := 0x188 } (fun cx _ => 7 < cx.b32 0),
     ob id { fo with a := 34 } (fun cx _ => !obOk (rec4 cx)),
     meets (.obrel { fo with b := 0x188 }) (at_ (.obrel { fo with b := 0x188 })) (fun cx _ => 7 < cx.b32 0),
     meets (.obrel fo) (at_ (.obrel fo)) (fun cx _ => (Tab.find? cx.w.obr (cx.b32 0)).isNone),
     meets (.obrel fo) (atW held0 (.obrel fo)) (fun cx _ => (Tab.find? cx.w.obr (cx.b32 0)).isSome),
     ok (.mloopNew ml), ok (.mloopAcc ml), meets (.mloopNew { ml with c := 0 }) (atG mlGroup (.mloopNew { ml with c := 0 })) (fun cx _ => cx.f.c == 0),
     meets (.mloopAcc { ml with c := 0 }) (atG mlGroup (.mloopAcc { ml with c := 0 })) (fun cx _ => cx.f.c == 0), meets (.mpub f0) (at_ (.mpub f0))].all
      id = true := by decide

/-- An MLOOP of one step over operands of format 2 in the vault window. -/
def oneStep (acc : Bool) (n : Nat) : OpK := .mloop acc [0, 0x08000000, 0, 0, 0, 0x08000000, 0, 0] n 2 2 [] []
/-- That MLOOP at the sequencer queue's head. -/
def atSeq (k : OpK) (m : Matrix) : State := withMx { m with queue := [5] } (withOp k)

theorem witness_SequencerResults :
    let run (s : State) : Bool := opIs s fun o => (s.peers == []) && o.fault.isNone && match mRun s 0 o with
      | none => false
      | some r => (mxOf s).step < r.n && match mSteps s r (mxOf s).step (mxOf s).row (r.n - (mxOf s).step) with
        | .ok _ => true
        | .stop _ _ => false
    let idle (s : State) : Bool := !(mxOf s).busy && (mxOf s).queue.head? == some 5 && (mxOf s).head == some 0
    [idle (atSeq .mpub {}) && opIs (atSeq .mpub {}) (·.k == .mpub), idle (atSeq (oneStep true 1) { opened := true }),
     idle (atSeq (oneStep false 1) {}), (pairing (fmtFor 2 []) (fmtFor 2 [])).isSome,
     let taking := atSeq .mpub { head := none, busy := true, pub := [0] }
     (mxOf taking).head.isNone && (mxOf taking).busy && (mxOf taking).queue.head? == some 5 &&
       ((List.range 16).find? fun t => (mxOf taking).head != some t && !decide (t ∈ (mxOf taking).pub)) == some 1,
     run (atSeq (oneStep false 1) { busy := true, row := 63 }),
     let ran := atSeq (oneStep false 1) { busy := true, step := 1 }
     (mxOf ran).step == 1 && (mxOf ran).busy && (mxOf ran).queue.head? == some 5 && !unackedOp ran 5 && opIs ran (·.fault.isNone)].all id = true := by decide +kernel

/-- A command block that copies one element of 16 bytes from page 1 to the vault window. -/
def cpBlock : List Word := [0x10000, 0, 0, 0x08000000, 0, 0, 0, 0, 0, 0, 0, 0, 0, 0, 0, 0]
/-- The spool processor holds that block in s32 on, and a collective's block in s64 on. -/
def cpSpool (s : State) : State := s.modWg 0 fun w => { w with spool := w.spool.map fun p => { p with
  s := [(32, 0x10000), (35, 0x08000000), (64, 0x10000), (66, 0x10100), (68, 1), (69, 3), (70, 9), (80, 0x10000), (82, 0x10100)] } }

theorem witness_BulkTransferResults :
    let ft : Fld := { a := 32, c := 4 }
    let fc : Fld := { a := 64, ty := 1 }
    let tc (i : Instr) (f : Fld) (b : Bool) : Bool := meets i (cpSpool (atSp i)) fun cx _ =>
      (TC.ok ⟨f.c.toNat, f.d.toNat, (List.range 16).map fun k => cx.g.rs (cx.f.a.toNat + k)⟩) == b
    let run (blk : List Word) (b : Bool) : Bool :=
      let s := withOp (.tcopy 4 0 blk [0, 0, 0, 0, 0, 0])
      opIs s fun o => live s o && s.peers == [] && match tcRun s o { opWho s o with copy := true } ⟨4, 0, blk⟩ 0 1 with
        | .ok s1 => b && !unackedOp s1 5
        | .stop _ _ => !b
    let coll (f : Fld) (b : Bool) : Bool := meets (.coll f) (cpSpool (atSp (.coll f))) fun cx s =>
      let r (k : Nat) : Word := cx.g.rs (cx.f.a.toNat + k)
      b == (decide (1 ≤ (r 4).toNat) && decide ((r 4).toNat < 2 ^ 31) && pathOf (r 1 ++ r 0) == 0 && pathOf (r 3 ++ r 2) == 0 && r 7 == 0) &&
        ((startOp s cx .mpub []).op? s.nextId).isSome
    let c0 : Collective := { comm := 3, seq := 9, table := [(0, 0)], key := [0, 0, 1, 1, 0], members := [⟨5, 0⟩], data := [(0, [1, 0, 0, 0])] }
    let reads : Bool :=
      let s := { withOp (.coll 0 0 1 0x10000 0x10100 1 3 0 9) with colls := [{ c0 with data := [] }] }
      (collOf s 5).any (fun x => x.2 == 0 && (Tab.find? x.1.data 0).isNone) && opIs s fun o => live s o &&
        match resolveAll s (opWho s o) .engRead false (fun _ _ => 1) [(none, 0x10000, c0.need 0)] with
        | .error _ => false
        | .ok (xs, _) => (farHits o.got (allHits xs)).isEmpty
    let c1 : Collective := { c0 with table := [(0, 0), (0, 1)], members := [⟨5, 0⟩, ⟨6, 1⟩], data := [(0, [1, 0, 0, 0]), (1, [1, 0, 0, 0])] }
    let ends (c : Collective) (b : Bool) : Bool :=
      let s := { withOp (.coll 0 0 1 0x10000 0x10100 1 3 0 9) with colls := [c] }
      (collOf s 5).any (fun x => x.1.full s.moduleNo && (Tab.find? x.1.data x.2).isSome && x.1.bad == [] && !unackedOp s 5 && opIs s fun o =>
        let bs := (x.1.result x.2).flatMap (bytesOfNat (if x.1.key.getD 2 0 = 4 then 2 else 4))
        o.fault.isNone && match resolveAll s (opWho s o) .engWrite false (fun _ _ => 1) [(none, 0x10100, bs.length)] with
          | .error _ => false
          | .ok (hs, s3) => !unackedOp (sendColl (writeLanes (collHears s3 x.1 5) (opWho s o) false hs fun _ => bs) (opNs s o) 5 x.1.table
              (collFlit x.1.comm x.2 x.1.seq x.1.key true 0 0 [1])) 5) &&
        (List.range c.table.length).all (fun q => decide (q ∈ c.done ++ [0])) == b
    [tc (.tcopy ft) ft true, tc (.tcopy { ft with c := 0x14 }) { ft with c := 0x14 } false, run cpBlock true,
     run (cpBlock.set 0 0x10001) false, coll fc true, coll { fc with a := 80 } false, reads, ends c0 true, ends c1 false].all id = true := by decide +kernel

theorem witness_RayTraversalResults :
    let fr : Fld := { d := 64, a := 0, b := 0x120, c := 0, ty := 1 }
    let both (i : Instr) : Bool := meets i (at_ i) (fun cx _ => cx.act != 0) && meets i (atS noLane i) fun cx _ => cx.act == 0
    let stat : List Word := List.replicate 12 0 ++ [0x40000, 0, 0, 0, 0, 0, 0, 0]
    let trav (opc c : Nat) (a b : List Word) (bad : Bool) : Bool :=
      let s := withOp (.trav opc 64 c [(0, a, b)])
      opIs s fun o => live s o && let r := travLanes (gctxOf s o) opc c [(0, a, b)] s
        r.far.isEmpty && !unackedOp r.s 5 && r.faults.isEmpty == !bad && (worstFault r.faults).isSome == bad
    let found (g : Group → Group) (ok : Bool) : Bool := meets (.fdin { fr with b := 0x18F }) (atG g (.fdin { fr with b := 0x18F })) fun cx s =>
      let r := travLanes { eng := cx.engWho s, grp := cx.who } 0x72 0 ((lanesIn cx.act).map fun l => (l,
        ((List.range 20).map fun k => cx.g.rv (cx.f.a.toNat + k) l, [BitVec.ofNat 32 (cx.b32 l)]))) ((startHb s cx).newLoad cx.me)
      cx.act != 0 && (r.faults.isEmpty && r.far.isEmpty) == ok
    let nowhere (g : Group) : Group := { g with v := [(12, lanesOf fun _ => 0x40000)] }
    let trace (ws : List Word) (bad : Bool) : Bool :=
      let s := withOp (.rtrace 64 [(0, ws)] 0 0 0)
      opIs s fun o => live s o && let r := traceLanes (gctxOf s o) 0 0 [(0, ws)] s
        r.far.isEmpty && !unackedOp r.s 5 && r.faults.isEmpty == !bad && (worstFault r.faults).isSome == bad
    let ray : List Word := [0, 0, 0, 0, 0, 0, 1, 0, 0, 0, 0x3F800000, 0]
    [found nowhere true, found id false,
     opIs (withOp (.trav 0x72 64 0 [])) (fun o => live (withOp (.trav 0x72 64 0 [])) o) && !unackedOp (withOp (.trav 0x72 64 0 [])) 5, both (.boxt fr), both (.fdin fr), both (.trit fr), both (.rtrace fr), meets (.rcvt fr) (at_ (.rcvt fr)) (fun cx _ => cx.m == 0),
     meets (.rcvt { fr with m := 1 }) (at_ (.rcvt { fr with m := 1 })) (fun cx _ => cx.m != 0), meets (.rhit fr) (at_ (.rhit fr)),
     trav 0x71 0 stat (List.replicate 16 0) false, trav 0x72 0 stat [15] false, trav 0x73 0 stat (List.replicate 16 0) false,
     trav 0x72 0 (List.replicate 20 0) [15] true, trace ((List.replicate 12 0).set 9 0x7FC00000) false, trace ray true].all id = true := by decide +kernel

/-- A view record of one pixel whose samples go to page 1, rays without a direction. -/
def view1 : List Word := [0x10000, 0] ++ List.replicate 15 0 ++ [0x00010001, 0, 0, 0, 1, 0x10000, 0, 0x10100, 0] ++ List.replicate 6 0
/-- One of 17 pixels, which two dies serve. -/
def view17 : List Word := (view1.set 17 0x00010011).set 21 17

theorem witness_SceneAndRasterResults :
    let fn : Fld := { d := 8, a := 20, b := 0x116, ty := 1 }
    let fg : Fld := { b := 0x182, ty := 1 }
    let run (i : Instr) : State := withOp (.drawv 0 0) id (at_ i)
    let pass (s : State) (v : List Word) (ds : List Nat) : State := { s with passes := [{ op := 5, slice := 0, view := v, gen := 0, dies := ds }] }
    let drawing (a : DWord) (v : List Word) (ds : List Nat) : State := pass (withOp (.drawv a 0)) v ds
    let reads (a : DWord) (m : Tab Byte) (p : Option (List Word) → Bool) : Bool :=
      let s := { drawing a [] [] with mem := m }
      opIs s fun o => live s o && pathOf a ≤ 1 && a.toNat % 128 == 0 && match readView s (passWho s o 0) a with
        | .ok (ws, _) => p (some ws)
        | .error (.fault _) => p none
        | .error (.far _) => false
    let elsewhere : Bool :=
      let s := { withOp (.drawv 0x10000 0) id (peerPage (at_ (.nop f0))) with passes := [{ op := 5, slice := 0, view := [], gen := 0, dies := [0] }] }
      opIs s fun o => live s o && match readView s (passWho s o 0) 0x10000 with
        | .error (.far _) => true
        | _ => false
    let serve (v : List Word) (ds : List Nat) (p : RasterRun → Bool) (pre : State → State := id) : Bool :=
      let s := pre (drawing 0x10000 v ds)
      opIs s fun o => live s o && o.tags == [] && s.passes.any fun q => !q.stopped && passDie s o q == some 0 &&
        let sh := s.hear (opMe o.id) (.pass o.wg o.grp 0)
        p (((dieSamples v 0).foldl (fun r x => passSample (passWho sh o 0) v x.1 x.2.1 x.2.2 r) { s := sh, status := 0, pos := 0 }))
    [meets (.nswap fn) (at_ (.nswap fn)) (fun cx s => pathOf (cx.g.rs2 20) == 0 && good (resolveAll s cx.who .store true (fun _ _ => 32) [(none, cx.g.rs2 20, 8)])),
     meets (.nswap { fn with a := 22 }) (at_ (.nswap { fn with a := 22 })) (fun cx _ => decide (pathOf (cx.g.rs2 22) ∈ [1, 8, 9, 12, 14])),
     meets (.gdrain fg) (at_ (.gdrain fg)) (fun _ s => s.ops.isEmpty),
     meets (.gdrain fg) (run (.gdrain fg)) (fun cx s => s.ops.any fun o => !o.done && o.k == .drawv 0 0 && 1 ≤ (BitVec.ofNat 32 (cx.b32 0)).toNat),
     returns isGdrain (atS stands (.gdrain fg)), meets (.drawv { fn with b := 0 }) (at_ (.drawv { fn with b := 0 })),
     reads 0x10000 [] (fun ws => ws.any (!viewOk ·)), reads 0x10000 [(0x10044, 1), (0x10046, 1), (0x10054, 1)] (·.any (viewOk ·)),
     reads 0x20000 [] (·.isNone), serve view1 [0] (fun r => r.stop.isNone), serve view17 [0, 1] (fun r => r.stop.isNone),
     serve (view1.set 22 0x20000) [0] (fun r => match r.stop with
       | some (.fault _) => true
       | _ => false), serve view1 [0] (fun r => match r.stop with
       | some (.far _) => true
       | _ => false) peerPage, elsewhere, decide (¬ (pathOf (0x10040 : DWord) ≤ 1 ∧ (0x10040 : DWord).toNat % 128 = 0)),
     decide (¬ (pathOf (0x0800000000010000 : DWord) ≤ 1)), !unackedOp (drawing 0 [] []) 5].all id = true := by decide +kernel

/-- An open loop of identifier 1 that admits one more member; one that is full. -/
def loop1 (joined : Nat) (next : Word) : SLoop := { id := 1, n := 3, t := 4, mem := 2, joined := joined, next := next }
/-- The workgroup has an open and a pending loop, and two groups by its count. -/
def withLoops (o p : Option SLoop) (w : Wg) : Wg := { w with ngrp := 2, loop := o, pendLoop := p }

theorem witness_StagedLoopMembership :
    let fb : Fld := { d := 0x11, a := 4, b := 0x184, ty := 1 }
    let begins (f : Fld) (o p : Option SLoop) (ok : Cx → Bool) : Bool := meets (.slbegin f) (atW (withLoops o p) (.slbegin f)) fun cx _ =>
      (cx.g.lp == 0 && (if cx.f.d.toNat / 8 = 0 then cx.w.ngrp else cx.f.d.toNat / 8) ≤ cx.w.ngrp && 1 ≤ cx.b32 0 && cx.b32 0 ≤ 32) && ok cx
    let bad (f : Fld) (g : Group → Group := id) : Bool := meets (.slbegin f) ((atW (withLoops none none) (.slbegin f)).modGroup 0 g) fun cx _ =>
      !(cx.g.lp == 0 && (if cx.f.d.toNat / 8 = 0 then cx.w.ngrp else cx.f.d.toNat / 8) ≤ cx.w.ngrp && 1 ≤ cx.b32 0 && cx.b32 0 ≤ 32)
    let same (o : SLoop) (cx : Cx) : Bool := o.n == cx.g.rs 4 && o.t == cx.b32 0 && o.mem == cx.f.d.toNat / 8
    let room (o : SLoop) (cx : Cx) : Bool := o.id == cx.f.d.toNat % 8 && o.joined < o.mem
    let other : SLoop := { loop1 1 0 with t := 5 }
    let full := loop1 2 0
    [begins fb none none (fun _ => true), begins { fb with b := 0x181 } none none (fun cx => cx.b32 0 == 1), begins { fb with b := 0x1A0 } none none (fun cx => cx.b32 0 == 32),
     begins fb (some (loop1 1 0)) none (fun cx => room (loop1 1 0) cx && same (loop1 1 0) cx), begins fb (some other) none (fun cx => room other cx && !same other cx),
     begins fb (some full) none (fun cx => !room full cx), begins fb (some full) (some (loop1 1 0)) (fun cx => !room full cx && room (loop1 1 0) cx && same (loop1 1 0) cx),
     begins fb (some full) (some other) (fun cx => !room full cx && !same other cx),
     bad { fb with b := 0x180 }, bad { fb with b := 0x1A1 }, bad { fb with d := 0x19 }, bad fb (fun g => { g with lp := 1 }),
     meets (.slend f0) (at_ (.slend f0)) (fun _ s => (s.group? 0).any (·.lp == 0)),
     meets (.slend f0) (atG (fun g => { g with lp := 1 }) (.slend f0)) (fun _ s => (s.group? 0).any (·.lp != 0))].all id = true := by decide

/-- The group is a member of the open loop. -/
def member (g : Group) : Group := { g with lp := 1 }
/-- It holds an iteration. -/
def holding (i : Word) (g : Group) : Group := { g with lp := 1, hold := true, iter := some i, stage := 3 }
/-- The stage table's entry of an iteration. -/
def entry (i : Word) (stg : BitVec 16) (w : Wg) : Wg := { w with loop := some (loop1 2 2), ents := Tab.put w.ents (i.toNat % 32) ⟨true, i, stg⟩ }

theorem witness_StagedLoopAdvance :
    let fn : Fld := { d := 8, ty := 1 }
    let ft : Fld := { b := 0x184, ty := 1 }
    let next (o : SLoop) (p : Cx → State → Bool) : Bool := meets (.slnext fn) ((atG member (.slnext fn)).modWg 0 (withLoops (some o) none)) fun cx s =>
      cx.g.lp == 1 && cx.w.loop == some o && cx.g.claim.isNone && p cx s
    let free (w : Wg) (k : Nat) : Bool := k < 32 || w.finished (k - 32)
    let claimed (cx : Cx) (o : SLoop) (s : State) : State :=
      let t := ((finishIter s cx.ag cx.gk).modWg cx.wid fun w => { w with loop := some { o with next := o.next + 1 } }).modGroup cx.gk fun g =>
        { g with claim := some o.next, claimReg := cx.f.d.toNat, claimTok := cx.f.tk.toNat }
      if (t.wg? cx.wid).any fun w => free w o.next.toNat then t.modWg cx.wid fun w =>
        { w with ents := Tab.put w.ents (o.next.toNat % 32) ⟨true, o.next, 0⟩ } else t
    let ready (w : Wg) (k : Word) : Bool := (Tab.get {} w.ents (k.toNat % 32)).v && (Tab.get {} w.ents (k.toNat % 32)).it == k &&
      w.loop.any fun o => k.toNat < o.t || w.finished (k.toNat - o.t)
    let far : SLoop := { loop1 2 40 with n := 100 }
    let waiting_ := ((atS stands (.slnext fn)).modGroup 0 fun g => { g with lp := 1, claim := some 2 }).modWg 0 fun w =>
      { withLoops (some (loop1 2 3)) none w with ents := [(2, ⟨true, 2, 0⟩)] }
    let over_ := ((atS stands (.slnext fn)).modGroup 0 fun g => { g with lp := 1 }).modWg 0 (withLoops (some (loop1 2 3)) none)
    let stage (i : Instr) (it : Word) (s1 s2 : BitVec 16) (p : Cx → Bool) : Bool :=
      meets i (((atG (holding it) i).modWg 0 (entry it s1)).modWg 0 (entry (it - 1) s2)) fun cx _ => cx.g.hold && p cx
    let none_ (i : Instr) : Bool := meets i (at_ i) fun cx _ => !cx.g.hold
    let at_' (cx : Cx) : Nat := (Tab.get {} cx.w.ents ((cx.g.iter.getD 0).toNat % 32)).stg.toNat
    let passed (cx : Cx) : Bool := cx.g.iter.isNone || (cx.g.iter.getD 0) == 0 || cx.w.finished ((cx.g.iter.getD 0).toNat - 1) ||
      min (cx.b32 0) 0xFFFF ≤ cx.w.stageOf ((cx.g.iter.getD 0).toNat - 1)
    [meets (.slnext fn) (at_ (.slnext fn)) (fun cx _ => cx.g.lp == 0), meets (.slnext fn) (atG (fun g => { g with lp := 2 }) (.slnext fn)) (fun cx _ => cx.g.lp == 2),
     next (loop1 2 3) (fun cx _ => cx.w.loop.any fun o => o.n ≤ o.next),
     next (loop1 2 2) (fun cx s => ((claimed cx (loop1 2 2) s).wg? 0).any fun w => ready w 2),
     next far (fun cx s => ((claimed cx far s).wg? 0).any fun w => !ready w 40),
     returns isSlnext waiting_ (fun cx s => cx.i == .slnext fn && cx.g.claim == some 2 && ((finishIter s cx.ag cx.gk).wg? 0).any fun w => ready w 2),
     returns isSlnext over_ (fun cx _ => cx.i == .slnext fn && cx.g.lp == 1 && cx.g.claim.isNone && cx.w.loop.any fun o => o.n ≤ o.next),
     stage (.stadv ft) 2 3 0 (fun _ => true), none_ (.stadv ft), stage (.stjmp ft) 2 4 0 (fun cx => at_' cx ≤ cx.b32 0),
     stage (.stjmp ft) 2 5 0 (fun cx => cx.b32 0 < at_' cx), none_ (.stjmp ft), stage (.waitl ft) 2 0 4 passed, stage (.waitl ft) 2 0 0xFFFF passed,
     stage (.waitl ft) 0 0 0 passed, stage (.waitl ft) 2 0 3 (fun cx => !passed cx), none_ (.waitl ft),
     returns isWaitl (((atS stands (.waitl ft)).modGroup 0 (holding 2)).modWg 0 (entry 1 4))].all id = true := by decide

theorem witness_DeviceLaunchResults :
    let fl : Fld := { a := 6, b := 0x180, ty := 1 }
    let ft : Fld := { d := 3, a := 6, b := 0x180, ty := 1 }
    let fs : Fld := { d := 8, b := 0x180, ty := 1 }
    let room (n : Nat) : State → State := inGraph fun x => { x with used := x.cap - n }
    let det (s : State) : State := s.modLaunch 0 fun l => { l with det := true }
    let to_ (cx : Cx) (s : State) (p : Nat → Node → Bool) : Bool := (launchTarget s cx).any fun t => p (lanesIn cx.actNH).length t.2.2
    [meets (.launch fl) (room 4 (atS noLane (.launch fl))) (fun cx s => to_ cx s fun n _ => n == 0),
     meets (.launch fl) (room 4 (at_ (.launch fl))) (fun cx s => to_ cx s fun n x => n != 0 && n ≤ x.cap - x.used),
     meets (.launch fl) (room 3 (at_ (.launch fl))) (fun cx s => to_ cx s fun n x => x.cap - x.used < n && !cx.l.det),
     meets (.launch fl) (det (room 3 (at_ (.launch fl)))) (fun cx s => to_ cx s fun n x => x.cap - x.used < n && cx.l.det),
     meets (.launch fl) (at_ (.launch fl)) (fun cx s => (launchTarget s cx).isNone),
     returns isLaunch (room 4 (atS stands (.launch fl))) (fun cx s => cx.i == .launch fl && to_ cx s fun n x => n != 0 && n ≤ x.cap - x.used),
     meets (.launchTry ft) (room 2 (at_ (.launchTry ft))) (fun cx s => (launchTarget s cx).isSome), meets (.launchTry ft) (at_ (.launchTry ft)) (fun cx s => (launchTarget s cx).isNone),
     meets (.tstat fs) (inGraph id (at_ (.tstat fs))) (fun cx s => (nodeOf s cx.l).any fun x => (x.2.1.nodes[cx.b32 0]?).any (·.task))].all id = true := by decide

/-- A split that stands at the header of page 1, in no clause. -/
def outside (x : Split) : Split := { x with cl := none }

theorem witness_ClauseResults :
    let ag := Agent.group 0 0 0
    let s0 := atS outside (.nop f0)
    let held_ := (atS (fun x => { x with block := 2 }) (.nop f0))
    let fresh := atS (fun x => { x with cl := x.cl.map fun c => { c with started := false } }) (.nop f0)
    let fetch (s : State) (b : Bool) : Bool := mayStart s ag && (headerOf s ag).isSome && (clauseOf s ag).isNone && agentWg s ag == some 0 &&
      match s.wg? 0, s.launch? 0, headerOf s ag with
      | some w, some l, some (pc, _) => (match fetchClause s (whoFetch s ag w l) (kinfo l false) pc with
          | .error t => t.far == [] && !t.late
          | .ok _ => true) && good (fetchClause s (whoFetch s ag w l) (kinfo l false) pc) == b
      | _, _, _ => false
    let asks (s : State) : Bool := mayStart s ag && (farOp? s ag).isNone && match s.wg? 0, s.launch? 0 with
      | some w, some l => match fetchClause s (whoFetch s ag w l) (kinfo l false) 0x10000 with
        | .error t => t.far != [] && !t.late
        | .ok _ => false
      | _, _ => false
    let late (s : State) : Bool := mayStart s ag && (farOp? s ag).isNone && match s.wg? 0, s.launch? 0 with
      | some w, some l => match fetchClause s (whoFetch s ag w l) (kinfo l false) 0x10000 with
        | .error t => t.late
        | .ok _ => false
      | _, _ => false
    [fetch s0 true, fetch { s0 with tlbs := [] } false, asks (peerPage s0), late (poisonedPage s0),
     mayStart fresh ag && (headerOf fresh ag).any (fun h => h.2 ≤ fresh.clock) && (clauseOf fresh ag).any (fun c => !c.1.started && headerReady fresh ag c.1),
     (clauseOf held_ ag).any (fun c => c.2 == 2 && !nextHeld held_ ag c.1) && !agentHeldBack held_ ag].all id = true := by decide

theorem witness_OperationEvents :
    let t : Trap := { cause := 0x44, info := 0, addr := 0, aux := 0, atIssue := true }
    let bad (s : State) : State := { s with ops := s.ops.map fun o => { o with fault := some t } }
    let walk := { at_ (.nop f0) with tlbs := [], mem := [(0, 1), (1, 0x20), (0x2000, 1), (0x2001, 0x40), (0x4000, 1), (0x4001, 0x60), (0x6008, 3), (0x600A, 1)] }
    [[OpK.reg, .store].all (fun k => opIs (withOp k) fun o => live (withOp k) o && o.k == k && !unackedOp (withOp k) 5),
     opIs (withOp .reg (fun o => { o with waits := some 9 })) (fun o => o.waits.all fun p => ((withOp .reg).op? p).isNone),
     [DevK.passage 0 0, .board 1, .mask 2, .completion 0 0].all (fun d => opIs (bad (withOp (.device d))) fun o => !o.raised && !o.done && o.k == .device d),
     opIs (withOp .reg) (fun o => o.ag == .group 0 0 0 && !opSaved (withOp .reg) o),
     (tlbFind walk 0 0 1).isNone && good (leafOf walk 0 {} 0x10000) && (walk.launch? 0).isSome,
     opIs (bad (withOp .reg)) (fun o => !o.raised && !o.done && mayTrap (withOp .reg) o.ag) && ((withOp .reg).launch? 0).any (!·.killed),
     ((bad (withOp .reg)).modLaunch 0 fun l => { l with killed := true }).launch? 0 |>.any (·.killed)].all id = true := by decide

/-- A trap, and one that a walk finds. -/
def trap0 : Trap := { cause := 0x10, info := 0, addr := 0x10008, aux := 0, atIssue := true }
/-- A fault that a walk finds. -/
def trapW : Trap := { trap0 with cause := 0x44, walk := some (0, 1) }
/-- A pending entry of queue 0. -/
def pend0 (t : Trap) : Pend := { q := 0, serial := 1, lnch := 0, lid := 0, trap := t, joined := [.group 0 0 0], entry := [], written := true }
/-- A queue with a trap ring of 4 places in HBM, of which some are taken. -/
def ring (used : Word) (s : State) : State := s.setQueue 0 { s.queue 0 with trLoc := 1, trBase := 0x30000, trSize := 2, trTail := used }

theorem witness_TrapEntry :
    let s := at_ (.nop f0)
    let ready (s : State) : Bool := (s.group? 0).any fun g => (s.wg? g.wg).any fun w => (s.launch? w.lnch).any (!·.killed)
    let shared := { s with pend := [pend0 trapW] }
    let p : Pend := { pend0 trap0 with written := false, at_ := 100, slot := 3 }
    let before (x : Pend) : Bool := x.at_ == p.at_ && x.wg == p.wg && x.q == p.q && p.slot < x.slot && !x.written
    let writes (used : Word) (full : Bool) (age : Nat) : Bool :=
      let x := (ring used s).queue 0
      x.trLog == 2 && x.trFull == full && !p.failed && p.joined != [] && (p.at_ == s.clock + age) &&
        (full || (ringAt (ring used s) 0 x.trLoc (x.trBase + x.trTail.toNat % 2 ^ x.trLog * 64)).isSome)
    [ready s && (joinable s 0 trap0).isNone && (s.queue 0).trLog == 0, ready shared && (joinable shared 0 trapW).isSome,
     ready (ring 3 s) && (joinable (ring 3 s) 0 trap0).isNone && ((ring 3 s).queue 0).trLog != 0,
     before { p with slot := 5 }, !before { p with slot := 2 }, !before { p with slot := 3 }, writes 3 false 0, writes 4 true 0].all id = true := by
  decide

theorem witness_TrapActions :
    let s := at_ (.nop f0)
    let p (t : Trap) : State := { s with pend := [pend0 t] }
    [s.pend == [], (pendOf (p trap0) 0 1).any (·.trap.cause != 0x4F), (pendOf (p { trap0 with cause := 0x4F }) 0 1).any (·.trap.cause == 0x4F),
     (p trap0).pend.all (fun x => !(x.q == 0 && x.serial == 2)), !(s.queue 0).en, ((s.setQueue 0 { s.queue 0 with en := true }).queue 0).en].all
      id = true := by decide

/-- A slice of every core. -/
def slice0 : Slice := { core0 := 0, cores := 144, hbm0 := 0, hbm := 512, tier0 := 0, tier := 1024 }
/-- A grid of two workgroups, of one group each. -/
def grid2 : Launch := { launch0 with gx := 2, k := { launch0.k with regs := 8 } }
/-- That launch on the whole module, nothing resident. -/
def open2 (f : Launch → Launch := id) : State := { State.reset with launches := [(0, f grid2)], bootState := 4 }

theorem witness_TaskAndGraphEvents :
    let ready (s0 : State) : Bool := let s := cutGrids s0
      (s.launch? 0).any fun l => s.bootState == 4 && wants s 0 (0, l) && match nextIndex s 0 l 0, roomFor s 0 l 0 with
      | some (ix, l1), some (slots, base) => leavesReserve s (dispatchTo s 0 0 ix l1 slots base) l && s.launches.all (·.1 == 0)
      | _, _ => false
    let done := atG (fun g => { g with exited := true }) (.nop f0)
    let swept := open2 fun l => { l with k := { l.k with deps := [(-1, 0, 0)] }, done := [1] }
    let replay (n : Node) (w : Bool) : State := { at_ (.nop f0) with graphs := [(3, { graph0 with nodes := [n], edges := [], waiting := w })] }
    let body : List Word := List.replicate 10 0 ++ [0x00010001, 0x00400001] ++ List.replicate 20 0
    let fresh : Node := { node0 with lnch := none, started := false, queue := [] }
    let gridNode : Node := { fresh with task := false, body := body, k := { regs := 8 } }
    let sited : Node := { gridNode with body := body.set 24 0x20000, k := { regs := 8, nsite := 1 } }
    let may (s : State) (x : Node) : Bool := (Tab.find? s.graphs 3).any fun g => g.nodes[0]? == some x && !g.waiting && !x.started && !x.complete && mayStartNode s g 0
    let start (s : State) (p : Option Refused → Bool) : Bool :=
      let l0 : Launch := { bodyLaunch s 0 {} (sited.body.flatMap bytesOfWord) sited.k with node := some (3, 0) }
      may s sited && !devWaits s l0.devKey && (devFault s l0.devKey).isNone && match openLaunch s l0 0x20000 with
        | .ok _ => p none
        | .error e => p (some e)
    let lost : Op := { devOp noLaunch (.read 70) with id := 9, fault := some { cause := 0x81, info := 0, addr := 0, aux := 0, atIssue := false } }
    [start (replay sited false) (·.any fun e => e.1 == 9 && e.2.far == []),
     start { replay sited false with tlbs := [(0, { asid := 0, page := 2, leaf := 0x10F03, leafAt := 0x8000 })], peers := [0], ports := [(0, { st := 1 })] }
       (·.any fun e => e.2.far != []),
     let s := { replay sited false with ops := [lost] }
     may s sited && !devWaits s 70 && (devFault s 70).isSome,
     ready (open2 fun l => { l with det := true }), ready { open2 with slices := [{ slice0 with cores := 1, bound := 0 }] },
     (done.wg? 0).any (fun w => w.lnch == 0 && !w.saved && !frozen done 0 && w.slots.all fun sl => (done.group? sl).all (·.exited)) && done.ops == [] &&
       (done.launch? 0).any (fun l => !l.killed && l.node.isNone),
     (swept.launch? 0).any (fun l => l.k.deps != [] && decide (1 ∈ l.done) && !decide (1 ∈ l.copyOf 2)),
     (Tab.find? (replay fresh true).graphs 3).any (·.waiting), may (replay fresh false) fresh && fresh.task, may (replay gridNode false) gridNode && !gridNode.task &&
       match openLaunch (replay gridNode false) { bodyLaunch (replay gridNode false) 0 {} (body.flatMap bytesOfWord) gridNode.k with node := some (3, 0) } 0 with
       | .ok _ => true
       | .error _ => false].all id = true := by decide +kernel

theorem witness_SwapAndBridleEvents :
    let idle := (atS (fun x => { outside x with notBefore := 0 }) (.nop f0)).setCore 0 { active := [] }
    let swapping := idle.setCore 0 { active := [], swap := some (0, none, 5) }
    let sl : Slice := { core0 := 0, cores := 144, hbm0 := 0, hbm := 512, tier0 := 0, tier := 1024, bound := 72 }
    let br (c : Nat) : State := { open2 id with slices := [sl], clock := c }
    [(idle.core 0).swap.isNone && !(idle.core 0).halted && (swapChoice idle 0).isSome,
     (swapping.core 0).swap.any (fun x => x.2.2 < swapping.clock), (br 25000).slices[0]?.any (fun x => x.lastEval + 25000 ≤ (br 25000).clock)].all id = true := by decide


theorem witness_FloatCorrectlyRounded : ∃ f ∈ [f16, bf16, f32, f64], ∃ a b c : Nat, isFinite f a ∧ isFinite f b ∧ isFinite f c ∧
    fval f a + fval f b ≠ 0 ∧ fval f a - fval f b ≠ 0 ∧ fval f a * fval f b ≠ 0 ∧ fval f a * fval f b + fval f c ≠ 0 ∧ fval f a ≠ 0 ∧
    fval f b ≠ 0 := by
  have h1 : unpack f32 0x3F800000 = .fin false 0x800000 (-23) := by decide
  have h2 : unpack f32 0x40000000 = .fin false 0x800000 (-22) := by decide
  refine ⟨f32, by simp, 0x3F800000, 0x40000000, 0x3F800000, ⟨_, _, _, h1⟩, ⟨_, _, _, h2⟩, ⟨_, _, _, h1⟩, ?_⟩
  simp only [fval, h1, h2]
  norm_num [zpow_neg]

/-- A save of core 0, at 0x40000 of HBM. -/
def save0 : Save := { cores := [0], kind := 0, target := 0, tier := 0, area := 0x40000, size := 0x100000, cmds := [] }
/-- The group is idle, a save of its core is in progress. -/
def saving (f : Save → Save) : State := { atS outside (.nop f0) with saves := [(7, f save0)], slices := [slice0] }
/-- Its workgroup is saved instead, with one operation outstanding. -/
def savedWg (recs : List (Nat × Nat)) : State :=
  let g := (groupAt (.nop f0))
  let sv : Save := { save0 with halting := false, done := true, recs := recs, resuming := some 9, saved := [(0, g)] }
  { withOp .reg (fun o => { o with ag := .group 1000 0 0 }) with
    saves := [(7, sv)], slices := [slice0], wgs := [(0, { wg0 with saved := true })], groups := [], cores := [] }

theorem witness_ContextSaveEvents :
    let fits (s : State) (raster : Bool) (b : Bool) : Bool := (Tab.find? s.saves 7).any fun sv => saveReady s sv &&
      (sv.kind == 2 && s.passes.any fun p => p.slice == sv.slice) == raster &&
      let xs := recordsOf s sv
      let last := 0x1000 + (xs.map fun x => recordLen x.2.2.1 x.2.2.2).sum
      areaFits sv.tier sv.area sv.size (if raster then last + privateLen else if xs.isEmpty then 256 else last) == b
    let drawing (s : State) : State := { s with passes := [{ op := 5, slice := 0, view := [], gen := 0, dies := [0] }] }
    let ready (s : State) (p : Op → Wg → Bool) : Bool := opIs s fun o => o.k == .reg && match saveOf s o.wg, s.wg? o.wg with
      | some (k, _, off), some w => k == 7 && off == 0x1000 && w.saved && (s.launch? w.lnch).isSome && p o w
      | _, _ => false
    let back (s : State) (last : Bool) : Bool := (Tab.find? s.saves 7).any fun sv => sv.resuming == some 9 && match s.wg? 0, s.launch? 0 with
      | some w, some l => (sv.recs.find? fun r => r.1 == 0x1000) == some (0x1000, 0) && w.saved && !restored s sv 0x1000 && canRestore s w l &&
        (sv.recs.all fun r => (s.wg? r.2).all fun y => w.ix ≤ y.ix) &&
        let s1 := settleTurn (putBack s 7 sv 0 0x1000 w l) 0
        (sv.recs.all fun r => restored s1 sv r.1) == last
      | _, _ => false
    [fits (saving id) false true, fits (saving fun x => { x with size := 0x1100 }) false false, fits (saving fun x => { x with cores := [5] }) false true,
     fits (saving fun x => { x with kind := 2 }) false true, fits (drawing (saving fun x => { x with kind := 2, size := 0x1000000 })) true true,
     fits (drawing (saving fun x => { x with kind := 2, size := 0x2000 })) true false,
     ready (savedWg [(0x1000, 0)]) (fun o w => o.ag == .group 1000 0 0 && w.slots.findIdx? (· == 0) == some 0),
     ready { savedWg [(0x1000, 0)] with ops := (savedWg [(0x1000, 0)]).ops.map fun o => { o with ag := .spool 0, bar := some 1 } } (fun o _ => o.ag == .spool 0),
     back (savedWg [(0x1000, 0)]) true, back (savedWg [(0x1000, 0), (0x20000, 1)]) false].all id = true := by decide +kernel

/-- Queue 1 of a module, or another queue, whose ring stands at 0x20000 of HBM, its context at 0x21000; the command at the
ring's first slots has the given fields (offset, size, value). -/
def ringOf (q : Nat) (fs : List (Nat × Nat × Nat)) (s : State := { State.reset with tlbs := [page1], slices := [slice0], bootState := 4 }) : State :=
  let x : Queue := { loc := 1, base := 0x20000, en := true, tail := 3, ctx := 0x21000 }
  { (fs.foldl (fun (s : State) f => s.writeNat (mKey 0 (0x20000 + f.1)) f.2.1 f.2.2) s).setQueue q x with hist := [], histLen := 0 }
/-- Page 1 holds fields of some bytes from an offset on. -/
def fill (fs : List (Nat × Nat × Nat)) (s : State) : State :=
  { fs.foldl (fun (s : State) f => s.writeNat (mKey 0 (0x10000 + f.1)) f.2.1 f.2.2) s with hist := [], histLen := 0 }
/-- A sound command stands at a queue's head. -/
def heads (q : Nat) (s : State) (p : CmdIn → State → Bool := fun _ _ => true) : Bool := match headCommand s q with
  | .good c => p c s
  | _ => false

theorem witness_QueueRegisterResults :
    let s := ringOf 1 []
    [serving s && decide ((5 - (s.queue 1).head).toNat ≤ 2 ^ (s.queue 1).size), decide (2 ^ (s.queue 1).size < (65 - (s.queue 1).head).toNat),
     decide ((64 - (s.queue 1).head).toNat ≤ 2 ^ (s.queue 1).size), (s.queue 1).en, !(s.queue 2).en].all id = true := by decide

theorem witness_CommandLifeResults :
    let wait := ringOf 1 [(0, 4, 3), (0x18, 8, 0x10000), (0x20, 8, 1)]
    let held_ := after (.waitv 1) wait
    let free (s : State) : Bool := !devWaits s 1 && (devFault s 1).isNone
    let reads (s : State) (c : CmdIn) (want : Nat) : Bool := match readNum s (whoCmd s 1 c.ctx) .load (BitVec.ofNat 64 (c.f 0x18 8)) 8 with
      | .ok (x, _) => want == if c.f 0x20 8 ≤ x then 1 else 0
      | .error m => want == if m.far.isEmpty then 2 else 3
    let waits (s : State) (want : Nat) : Bool := heads 1 s fun c s => c.op == 3 && free s && reads s c want
    let still (s : State) (want : Nat) : Bool := free s && (waitingOn s 1).any fun x =>
      match readNum s (whoCmd s 1 x.2.1.ctx) .load x.2.2.1 8 with
      | .ok (n, _) => want == if x.2.2.2.toNat ≤ n then 1 else 0
      | .error m => want == if m.far.isEmpty then 2 else 3
    let done_ (a : DWord) : State := { ringOf 1 [] with cmds := [(5, { slot := 0, q := 1, k := .plain, ctx := {}, irq := true, caddr := a, cval := 7, ready := true })] }
    let writes (s : State) (p : Cmd → State → Bool) : Bool := (Tab.find? s.cmds 5).any fun c => c.ready && p c (dropCmd s 5 c)
    [heads 1 (ringOf 1 []) (fun c _ => c.op == 0), headCommand ((ringOf 1 []).setQueue 1 { (ringOf 1 []).queue 1 with loc := 3 }) 1 == .broken,
     headCommand (ringOf 1 [(0, 4, 5)]) 1 == .bad 5 1 1,
     heads 1 wait (fun c s => c.op == 3 && free s && reads s c 0),
     waits (fill [(0, 8, 1)] wait) 1, waits { wait with tlbs := [] } 2, waits (peerPage wait) 3, still (fill [(0, 8, 1)] held_) 1,
     still { held_ with tlbs := [] } 2, still (peerPage held_) 3,
     writes (done_ 0) (fun c _ => c.caddr == 0),
     writes (done_ 0x10000) (fun c s => c.caddr != 0 && good (writePlain s { whoCmd s 1 c.ctx with op := some s.nextId } c.caddr 8 (bytesOfNat 8 c.cval.toNat))),
     writes (done_ 0x20000) (fun c s => c.caddr != 0 && !good (writePlain s { whoCmd s 1 c.ctx with op := some s.nextId } c.caddr 8 (bytesOfNat 8 c.cval.toNat)))].all
      id = true := by decide +kernel

theorem witness_LaunchCommandResults :
    let body : List (Nat × Nat × Nat) := [(0, 4, 0x101), (0x18, 8, 0x10000), (0x28, 8, 0x0040000100010001)]
    let kernel : State → State := fill [(0x18, 4, 8)]
    let reads (s : State) (room : Bool) (opens : Bool) : Bool := heads 1 s fun c s => c.op == 1 && c.n == 2 &&
      match readKernel s 1 c.ctx (BitVec.ofNat 64 (c.f 0x18 8)) with
      | .error _ => false
      | .ok (k, s1) => bodyOk c.bs k && roomSomewhere s (bodyLaunch s1 1 c.ctx c.bs k) == room && (!opens ||
        match openLaunch s1 (bodyLaunch s1 1 c.ctx c.bs k) (BitVec.ofNat 64 (c.f 0x60 8)) with
        | .ok _ => true
        | .error _ => false)
    let free (s : State) : Bool := !devWaits s 1 && (devFault s 1).isNone
    let kernelFails (s : State) (far : Bool) : Bool := free s && heads 1 s fun c s => c.op == 1 && c.n == 2 &&
      match readKernel s 1 c.ctx (BitVec.ofNat 64 (c.f 0x18 8)) with
      | .error e => !e.2.far.isEmpty == far
      | .ok _ => false
    let unsound (s : State) : Bool := heads 1 s fun c s => c.op == 1 && c.n == 2 &&
      match readKernel s 1 c.ctx (BitVec.ofNat 64 (c.f 0x18 8)) with
      | .error _ => false
      | .ok (k, _) => !bodyOk c.bs k
    let opensNot (s : State) (far : Bool) : Bool := heads 1 s fun c s => c.op == 1 && c.n == 2 &&
      match readKernel s 1 c.ctx (BitVec.ofNat 64 (c.f 0x18 8)) with
      | .error _ => false
      | .ok (k, s1) => bodyOk c.bs k && roomSomewhere s (bodyLaunch s1 1 c.ctx c.bs k) &&
        match openLaunch s1 (bodyLaunch s1 1 c.ctx c.bs k) (BitVec.ofNat 64 (c.f 0x60 8)) with
        | .ok _ => false
        | .error e => !e.2.far.isEmpty == far
    let sited (a : Nat) : State := fill [(0x18, 4, 8), (0x24, 4, 8)] (ringOf 1 ((0x60, 8, a) :: body))
    let peer2 (s : State) : State := { s with
      tlbs := s.tlbs ++ [(0, { asid := 0, page := 2, leaf := 0x10F03, leafAt := 0x8000 })], peers := [0], ports := [(0, { st := 1 })] }
    let graph (nn : Nat) : State := fill [(0, 4, nn), (8, 8, 0x10100), (0x118, 8, 0x10200), (0x128, 8, 0x0040000100010001), (0x218, 4, 8)]
      (ringOf 1 [(0, 4, 2), (0x18, 8, 0x10000)])
    let replay (s : State) (w : Bool) : Bool := heads 1 s fun c s => c.op == 2 && match readGraph s c with
      | .ok (g, _) => g.waiting == w
      | .error _ => false
    let earlier (s : State) : State := { s with graphs := [(3, { graph0 with obj := 0x10000, q := 2, waiting := false })] }
    [kernelFails (ringOf 1 body) false, kernelFails (peerPage (ringOf 1 body)) true,
     unsound (kernel (ringOf 1 (body.set 2 (0x28, 8, 0x0040000100010000)))), opensNot (sited 0x20000) false, opensNot (peer2 (sited 0x20000)) true,
     heads 1 (peerPage (graph 1)) (fun c s => c.op == 2 && match readGraph s c with
       | .error e => !e.2.far.isEmpty
       | .ok _ => false), reads (kernel (ringOf 1 body)) true true, reads (kernel { ringOf 1 body with slices := [{ slice0 with bound := 144 }] }) false false,
     heads 1 (ringOf 1 [(0, 4, 1)]) (fun c _ => c.op == 1 && c.n != 2),
     heads 1 (ringOf 1 body) (fun c s => c.op == 1 && c.n == 2 && match readKernel s 1 c.ctx (BitVec.ofNat 64 (c.f 0x18 8)) with
       | .error _ => true
       | .ok _ => false),
     replay (graph 1) false, replay (earlier (graph 1)) true,
     heads 1 (graph 0) (fun c s => c.op == 2 && match readGraph s c with
       | .error _ => true
       | .ok _ => false)].all id = true := by decide +kernel

/-- A command is in progress. -/
def started_ (k : CmdK) : State := { ringOf 1 [] with cmds := [(5, { slot := 0, q := 1, k := k, ctx := {}, irq := false, caddr := 0, cval := 0 })] }

theorem witness_FrameAndPreemptResults :
    let cmd (op : Nat) (fs : List (Nat × Nat × Nat)) : State := ringOf 0 ((0, 4, op) :: fs)
    let frame := fill [(8, 8, 16)] (ringOf 1 [(0, 4, 4), (0x18, 8, 0x10000), (0x20, 8, 0x0002000200000001), (0x28, 8, 0x10100), (0x30, 4, 64)])
    let encoding (out : DWord) (layer : List DWord) : State := started_ (.frame ([0, 0, out, 64] ++ layer))
    let ends (s : State) (p : Bool → Option Bool → Bool) : Bool := match Tab.find? s.cmds 5 with
      | none => false
      | some c => match c.k with
        | .frame words =>
          let world (ns : Bool) : Who := { whoCmd s (frameKey 5) c.ctx with ctx := { c.ctx with ns := ns }, op := some s.nextId }
          !c.ready && !devWaits s (frameKey 5) && (devFault s (frameKey 5)).isNone &&
            p (!(layersFar s (world (s.slice c.ctx.slice).deNs) words).isEmpty)
              (match writePlain s (world (s.slice c.ctx.slice).veNs) (words.getD 2 0) 1 (bytesOfNat 8 0) with
               | .ok s1 => some (unackedOp s1 s1.nextId)
               | .error _ => none)
        | _ => false
    let pre := cmd 0x11 []
    let joined := { pre with saves := [(7, { save0 with cores := List.range 144 })] }
    [heads 1 frame (fun c s => c.op == 4 && frameOk c && !devWaits s 1 && (devFault s 1).isNone && match readPlain s (whoCmd s 1 c.ctx) .load 0x10000 32 1 with
       | .ok (bs, _) => decide (fieldAt bs 12 4 ≤ 2) && c.f 0x20 4 % 16 == 1
       | .error _ => false),
     heads 0 pre (fun c s => c.op == 0x11 && c.f 0x18 8 == 0 && (targetCores s 0 0).isSome && (sameTarget (haltResumes s) 0 0).isNone),
     heads 0 joined (fun c s => c.op == 0x11 && (sameTarget (haltResumes s) 0 0).isSome),
     heads 0 (cmd 0x12 []) (fun c _ => c.op == 0x12 && c.f 0x18 8 == 0),
     ends (encoding 0x10100 []) (fun far w => !far && w == some false), ends (encoding 0x20000 []) (fun far w => !far && w == none),
     ends (peerPage (encoding 0x10100 [])) (fun far w => !far && w == some true),
     ends (peerPage (encoding 0x10100 [0x10000, 0x40, 0x10000, 0])) (fun far _ => far)].all id = true := by decide +kernel

theorem witness_SystemCommandResults :
    let cmd (op : Nat) (fs : List (Nat × Nat × Nat)) : State := ringOf 0 ((0, 4, op) :: fs)
    let mem (s : State) (p : List Byte → Bool) (n : Nat) (a : Nat) : Bool := heads 0 s fun c s => match readPlain s (whoCmd s 0 c.ctx) .load
        (BitVec.ofNat 64 a) n 4 with
      | .ok (bs, _) => p bs
      | .error _ => false
    let right (s : State) : State := { s with regionRight := true }
    let reg : List (Nat × Nat × Nat) := [(0x18, 8, 63), (0x20, 8, 0x10003), (0x28, 8, 0x20000)]
    [heads 0 (cmd 0x10 []) (fun c _ => c.op == 0x10 && c.f 0x1A 6 == 0),
     heads 0 (cmd 0x13 [(0x20, 8, 2), (0x28, 8, 0x10000)]) (fun c _ => c.op == 0x13 && c.f 0x1A 6 == 0 && c.f 0x20 8 == 2 && c.f 0x28 8 == 0x10000),
     mem (cmd 0x13 []) (fun bs => (List.range 2).all fun r => decide (fieldAt bs (4 * r) 4 / 2 ^ 11 % 2 ^ 21 = 0)) 8 0x10000,
     heads 0 (cmd 0x14 [(0x20, 8, 100), (0x28, 8, 44), (0x30, 8, 1), (0x38, 8, 144)]) (fun c s => c.op == 0x14 && decide (c.f 0x18 8 < s.slices.length) &&
       decide (c.f 0x20 8 + c.f 0x28 8 ≤ (s.slice 0).cores) && c.f 0x30 8 == 1 && decide (c.f 0x38 8 ≤ (s.slice 0).cores)),
     heads 0 (cmd 0x15 reg) (fun c s => c.op == 0x15 && !s.regionRight),
     heads 0 (right (cmd 0x15 reg)) (fun c s => c.op == 0x15 && s.regionRight && !c.ctx.ns && decide (c.f 0x18 8 < 64) &&
       c.f 0x20 8 / 16 % 2 ^ 12 == 0 && decide (c.f 0x20 8 < 2 ^ 48) && c.f 0x28 8 % 2 ^ 16 == 0 && decide (c.f 0x28 8 < 2 ^ 48) && c.f 0x20 8 / 4 % 4 != 3),
     noLate (started_ (.inval 0 0 0)) (fun _ => true)].all id = true := by
  decide +kernel

theorem witness_StartResults :
    [1, 2, 3].all (fun n => goes .startTimeout { State.reset with bootState := n, clockLow := true } &&
      goes .startTimeout { State.reset with bootState := n, clock := 75000000000 }) &&
    [1, 2, 3].all (fun n => !({ State.reset with bootState := n } : State).clockLow && decide (({ State.reset with bootState := n } : State).clock < 75000000000) &&
      bootTick { State.reset with bootState := n, clock := 75000000000 } == failStart { State.reset with bootState := n, clock := 75000000000 } 0x0B) &&
    ([7, 8, 9, 10].all fun r => goes (.trainingComplete r) { State.reset with bootState := 3 }) = true := by decide

theorem witness_HostRegisterResults :
    let s := ringOf 1 []
    let bad := { s with regionTab := [(0, { v := true, sec := true, tier := 0, base := 1, limit := 2 })] }
    let open_ (s : State) (off n : Nat) (secure : Bool) : Bool := decide (off + n ≤ 2 ^ 36) && decide (n ≤ 8) && decide (s.apTier < 2) && s.bootState == 4 &&
      apertureOpen s off n && (apertureKeys s off n).any (·.2) == secure && ((apertureKeys s off n).all fun k => !s.poisoned k.1) && s.flaws == []
    let prog := after (.flashWindowWrite 0xFFFFFC 0x1234) { s with flashWe := true }
    [(after (.flashctlWrite 1) s).flashWe, !(after (.flashctlWrite 1) State.reset).flashWe, (prog.flashBusy.find? fun e => e.1 == 0xFFFFFC).isSome,
     apertureOpen (poisonedPage s) 0x10000 8 && ((apertureKeys (poisonedPage s) 0x10000 8).any fun k => !k.2 && (poisonedPage s).poisoned k.1),
     !(s.queue 2).en, (s.queue 1).en, s.flashBusy == [], !s.flashWe, open_ s 0x10000 8 false, open_ s (2 ^ 36 - 8) 8 false, open_ bad 0x10000 8 true, decide (2 ≤ ({ s with apTier := 2 } : State).apTier),
     ({ s with bootState := 5 } : State).bootState == 5].all id = true := by decide +kernel

theorem natOfBytes_bytesOfNat (n : Nat) : ∀ x, natOfBytes (bytesOfNat n x) = x % 256 ^ n := by
  induction n with
  | zero => intro x; simp [bytesOfNat, natOfBytes, Nat.mod_one]
  | succ n ih =>
    intro x
    have h : bytesOfNat (n + 1) x = BitVec.ofNat 8 x :: bytesOfNat n (x / 256) := by
      simp [bytesOfNat, List.range_succ_eq_map, Function.comp_def, Nat.pow_succ, Nat.mul_comm, Nat.div_div_eq_div_mul]
    rw [h, natOfBytes, ih, Nat.pow_succ, Nat.mul_comm (256 ^ n), Nat.mod_mul]
    simp

/-- A flit as a port makes it is whole. -/
theorem flitGood_mkFlit (t src dst q n tag : Nat) (p : List Byte) (h : p.length ≤ 112)
    (hn : flitBits (mkFlit t src dst q n tag p) 36 7 ≤ 112) : flitGood (mkFlit t src dst q n tag p) = true := by
  have key : ∀ body : List Byte, body.length = 120 → (crc64 ((body ++ bytesOfNat 8 (crc64 body).toNat).take 120)).toNat =
      fieldAt (body ++ bytesOfNat 8 (crc64 body).toNat) 120 8 := by
    intro body hb
    have h1 : (body ++ bytesOfNat 8 (crc64 body).toNat).take 120 = body := by rw [← hb, List.take_left']; rfl
    have h2 : (body ++ bytesOfNat 8 (crc64 body).toNat).drop 120 = bytesOfNat 8 (crc64 body).toNat := by rw [← hb, List.drop_left']; rfl
    rw [h1, fieldAt, h2, List.take_of_length_le (by simp [bytesOfNat]), natOfBytes_bytesOfNat]
    exact (Nat.mod_eq_of_lt (crc64 body).isLt).symm
  simp only [flitGood, Bool.and_eq_true, decide_eq_true_eq, beq_iff_eq]
  refine ⟨key _ ?_, hn⟩
  simp [bytesOfNat]
  omega

theorem witness_FabricResults :
    let s : State := { ringOf 1 [] with ports := [(2, { st := 1 })], peers := [0, 0, 9], moduleNo := 4 }
    let fits (type : Nat) (flit : List Byte) : Bool := (s.port 2).st == 1 && flit.length == 128 && flitBits flit 0 4 == type
    let next (flit : List Byte) : Bool := flitSeq flit == 0 && decide (flitBits flit 36 7 ≤ 112)
    let mine (flit : List Byte) : Bool := flitBits flit 12 8 == 4
    let wr (n off : Nat) : List Byte := mkFlit 1 9 4 n 0 7 (bytesOfNat 8 off ++ [1, 2])
    let atomic : List Byte := mkFlit 2 9 4 0 0 7 (bytesOfNat 8 0x10000 ++ bytesOfNat 2 4 ++ bytesOfNat 2 0x100 ++ bytesOfNat 16 1)
    let call : List Byte := mkFlit 4 9 4 0 0 7 (bytesOfNat 8 0 ++ bytesOfNat 8 0x8000)
    let rd : List Byte := mkFlit 2 9 4 0 0 7 (bytesOfNat 8 0x10000 ++ bytesOfNat 2 16)
    let data : List Byte := mkFlit 3 9 4 0 0 7 [1, 2]
    let col : List Byte := mkFlit 4 9 4 0 0 7 (bytesOfNat 32 0 ++ [1, 2])
    let done_ : List Byte := mkFlit 4 9 4 0 0 7 (bytesOfNat 8 0 ++ bytesOfNat 24 0x8000 ++ [1])
    let ack : List Byte := mkFlit 5 9 4 0 0 0 [0]
    let admits (flit : List Byte) : Bool := admitsPeer s 2 flit (fieldAt (flitData flit) 0 8) ((flitData flit).length - 8)
    [[(1, wr 0 0x10000), (2, rd), (3, data), (4, col), (5, ack)].all fun x => fits x.1 x.2 && next x.2 && mine x.2,
     fits 1 (wr 1 0x10000) && !next (wr 1 0x10000), next (mkFlit 1 9 5 0 0 7 (bytesOfNat 8 0)) && !mine (mkFlit 1 9 5 0 0 7 (bytesOfNat 8 0)),
     admits (wr 0 0x10000), admits (wr 0 (2 ^ 39 - 2)), !admits (wr 0 (2 ^ 39 - 1)), admitsPeer s 2 rd 0x10000 16, (flitData rd).drop 10 == [],
     fits 2 atomic && next atomic && mine atomic && (flitData atomic).drop 10 != [], fits 4 call && next call && mine call && (flitData call).drop 32 == [],
     fits 4 done_ && next done_ && mine done_ && bit (fieldAt (flitData done_) 8 2) 15 && (flitData done_).drop 32 != [],
     bit (fieldAt (flitData call) 8 2) 15, !bit (fieldAt (flitData col) 8 2) 15,
     ((s.setDlink 2 { s.dlink 2 with st := 2, fails := 2 }).dlink 2).st == 2, (s.dlink 2).st == 1,
     [0, 2].all fun n => let x := (s.setPort 2 { s.port 2 with st := 2, fails := n }).port 2
       x.st == 2 && (x.fails < 2) == (n == 0),
     let x := (sendFlit s 2 1 9 0 0 none []).port 2
     x.st == 1 && x.sent != 0 && !x.unacked.isEmpty, (s.dlink 0).st == 1 && (s.dlink 0).fails == 0].all id = true := by decide +kernel

theorem witness_SoftErrorResults : [decide (4 ≤ keyCode (mKey 4 0)), decide (keyCode 0x10000 < 4),
    ({ State.reset with poison := [0x10000] } : State).poisoned 0x10000,
    ({ State.reset with l2poison := [0x10008] } : State).poisoned 0x1000F, decide (0x10000 / 8 * 8 ∉ State.reset.l2flaws),
    decide (0x10000 / 8 * 8 ∈ ({ State.reset with l2flaws := [0x10000] } : State).l2flaws), decide (0x10000 / 8 * 8 ∉ State.reset.l2poison),
    !State.reset.poisoned 0x10000, decide (unitOf 0x10000 ∉ State.reset.flaws),
    State.reset.ceThr == 0 && State.reset.ceCnt != 0xFFFFFFFF, decide (unitOf 0x10000 ∈ ({ State.reset with flaws := [unitOf 0x10000] } : State).flaws)].all
      id = true := by decide

theorem witness_StepRunsDecodedInstruction :
    let fa : Fld := { f0 with c := 0 }
    let s := at_ (.sadd fa)
    let ag := Agent.group 0 0 0
    let ready (s : State) (ag : Agent) : Bool := (clauseOf s ag).any fun c => c.2 == 0 && c.1.started && match c.1.rest with
      | [] => false
      | p0 :: ps => (match decodeParcels {} p0 (ps.getD 0 0) (ps.getD 1 0) with
        | .ok _ => true
        | .error _ => false) && (c.1.inside || headerReady s ag c.1) && decide (c.1.issueAt ≤ s.clock) && !barred s ag &&
        (if atUnmetWait s ag c.1 || nextHeld s ag c.1 then mayReturn s ag else hasSlot s ag (opOf p0))
    let unmet := atG (fun g => { g with f := [(4, 1)] }) (.waitf { d := 4, b := 0x180, ty := 1 })
    let fb : Fld := { d := 2, b := 0x181, ty := 1 }
    let settled := { at_ (.bara fb) with sealed := [.barSet 0 2] }
    let plan (a : Act) (s : State) : State := { s with agenda := [a] }
    let later := atS (fun x => { x with cl := x.cl.map fun c => { c with base := 101 } }) (.sadd fa)
    [ready s ag, (plan (.issue 0 0 0) s).agenda == [.issue 0 0 0] && mayIssue s ag == some (.sadd fa),
     (mayIssue later ag).isNone && tickOk later && mayIssue (tick later) ag == some (.sadd fa),
     ready unmet ag && (clauseOf unmet ag).any (fun c => atUnmetWait unmet ag c.1), sealKept s (after (.sadd fa) s),
     goes (.bara fb) settled && !sealKept settled (after (.bara fb) settled), goes .moduleReset s && sealKept s (after .moduleReset s), mayIssue (atSp (.sadd fa)) (.spool 0) == some (.sadd fa),
     (enc .moduleReset).isNone, (decodeTableWord 64 (0x0A010F21 + 2 ^ 32 * 0x00400184)).isSome].all id = true := by decide

theorem witness_DecodeEncodeRoundTrip : [Instr.sadd { f0 with c := 0 }, .ld { fm with d := 7 }, .slbegin { d := 1, a := 10, b := 0x184, ty := 1 }, .nop {}].all
    (fun i => i.wellFormed && (enc i).isSome) = true := by decide

theorem witness_MemoryStaysCanonical : ∃ s t : State, Memory.wf s.mem = true ∧ step s = .next t :=
  ⟨{ State.reset with agenda := [.tick] }, _, by decide, rfl⟩

theorem witness_MemoryReadsBack : ∃ m : Tab Byte, Memory.wf m = true ∧ m ≠ [] := ⟨[(3, 1)], by decide, by simp⟩

theorem witness_IssueChecksInOrder :
    let i : Instr := .vadd f0
    let at_' (s : State) (i : Instr) (p : Cx → State → Bool) : Bool := (enc i).isSome && (mkCx s s.cur i).any fun x => p x.1 x.2
    let ck (g : Group) : Group := { g with chksb := true, fixes := [{ ready := 105, split := 0, wrs := [.s 4 1], ti := none }] }
    let drain (i : Instr) : State := { atL (fun l => { l with k := { l.k with matrix := true, roles := 2 } }) i with clock := 100 }
    let stop (s : State) (i : Instr) (t r d h : Bool) : Bool := at_' s i fun cx s1 =>
      (stallTrap s1 cx).isSome == t && (t || (roleAdmits cx == !r && (r || (detForbids cx == d && (d || held s1 cx == h)))))
    [(mkCx State.reset State.reset.cur i).isNone, stop (at_ i) i false false false false, stop (atG ck i) i true false false false,
     stop (drain i) i false true false false, at_' (at_ i) i (fun cx _ => cx.f.g == 0),
     at_' (at_ (.vadd { f0 with g := 1 })) (.vadd { f0 with g := 1 }) (fun cx _ => cx.f.g != 0 && cx.r.op != 0 && cx.r.guarded)].all id = true := by decide

/-- The group has a role, in a kernel of the matrix kind; s27:s26 is a pair on path 0x0C. -/
def inRole (r : Word) (i : Instr) : State :=
  { atL (fun l => { l with k := { l.k with matrix := true, roles := r } }) i with groups := [(0, { groupAt i with s := [(27, 0x0C000000)] })] }

theorem witness_RoleViolationTraps :
    let stands (r : Word) (i : Instr) (p : Cx → Bool := fun _ => true) : Bool := (mkCx (inRole r i) (inRole r i).cur i).any fun x =>
      !x.1.onSpool && BitVec.ofNat 32 x.1.role == r && (stallTrap x.2 x.1).isNone && p x.1
    let fb : Fld := { fm with a := 26 }
    let path (u : Bool) (cx : Cx) : Bool := cx.act.getLsbD 0 && cx.actNH.getLsbD 0 && pathOf (baseAddr cx u (offsetB cx 0) 0) == 0x0C
    [(roleMatrix f0 ++ roleRay f0).all (stands 1), (roleVector f0 ++ roleShared f0 ++ roleMemory f0 ++ roleFeed f0 ++ roleRay f0).all (stands 2),
     (roleFeed f0 ++ roleMatrix f0 ++ roleRay f0).all (stands 3), ([1, 2].all fun r => stands r (.qpop { f0 with a := 0 }) && stands r (.qpopTry { f0 with a := 0 })),
     stands 2 (.qpop { f0 with a := 1 }), stands 3 (.ld fb) (path true), stands 3 (.st fb) (path true), stands 3 (.lds fb) (path true), stands 3 (.sts fb) (path true),
     stands 3 (.promote fb) (path true), stands 3 (.atom { fb with m := 2 }) (fun cx => cx.actNH.getLsbD 0 && cx.m / 2 == 1 && pathOf (baseAddr cx true 0 0) == 0x0C),
     stands 3 (.atomOrd fb) (fun cx => pathOf (baseAddr cx true 0 0) == 0x0C),
     [Instr.tiopLd f0, .tiopSt f0, .tiopAdv f0].all (stands 3 · fun cx => ((Tab.get [] cx.g.ti (cx.f.a.toNat % 4)).getD 1 0).toNat / 2 ^ 24 != 0x0C),
     (roleMemory f0).all (stands 1), (roleFree f0).all (stands 2), (roleVector f0 ++ roleShared f0).all (stands 3), [Instr.ld fm, .lds fm, .st fm, .sts fm, .promote fm, .atomOrd fm].all (stands 3 · fun cx => !path true cx),
     (roleFeed f0).all (stands 1), (roleMatrix f0).all (stands 2), (roleRay f0).all (stands 0), stands 3 (.qpop { f0 with a := 0 }),
     stands 1 (.qpopTry { f0 with a := 1 })].all id = true := by decide

theorem witness_RegisterInstructionFrame : ((registerForms f0).all fun e => meets e.1 (at_ e.1) (fun cx _ => !cx.onSpool) && goes e.1 (at_ e.1)) &&
    ((scalarForms f0).all fun i => meets i (atSp i) (fun cx _ => cx.onSpool) && goes i (atSp i)) = true := by decide +kernel

theorem witness_ControlInstructionFrame :
    [Instr.nop f0, .yield f0, .exit f0, .bra f0, .ret f0, .brpAll f0, .brpAny f0, .brpNone f0, .setsr f0, .waitf f0, .fence f0, .bari f0, .bara f0,
     .barw f0, .spreq f0, .slbegin f0, .slend f0, .slnext f0, .stadv f0, .stjmp f0, .waitl f0].all (fun i => meets i (at_ i) && goes i (at_ i)) = true := by
  decide +kernel

theorem witness_MemoryInstructionFrame : [Instr.ld fm, .ld fmGlobal, .lds fm, .lds fmGlobal, .promote fmGlobal, .st fm, .st fmGlobal, .sts fm, .sts fmGlobal,
    .atom { fm with m := 3 }, .atom { fmGlobal with m := 2 }].all (fun i => resolves i (at_ i) && goes i (at_ i)) = true := by decide +kernel

/-! ### What is no instruction -/

theorem test_illFormed_absentZero : [Instr.smov { d := 8, a := 6, b := 1 }, .sadd { d := 8, a := 6, b := 0x104, ty := 1, lit := 7 }, .barw { b := 0x104, ty := 1, mn := 5 },
    .nop { lit := 1 }].all (fun i => !i.absentZero && !i.wellFormed) = true := by decide

theorem test_illFormed_noReason : [(Instr.shfl { d := 8, a := 6, b := 2, ty := 0 }, 3), (.vadd { d := 8, a := 6, b := 0x1C0, ty := 1 }, 4), (.nop { d := 1 }, 5),
    (.ld { d := 255, a := 22, b := 0x180, mn := 1, ty := 10 }, 7), (.vadd { d := 9, a := 6, b := 4, ty := 10 }, 8), (.getsr { d := 8, a := 3, ty := 1 }, 9),
    (.slbegin { d := 0x11, a := 4, b := 0x1A1, ty := 1 }, 11)].all (fun x => !x.1.noReason && !x.1.wellFormed && (match enc x.1 with
      | some (f, r) => encReason x.1 (lenCode r f) {} == some x.2
      | none => false)) = true := by decide

theorem test_illFormed_unitsExist : [Instr.qerrRead 64, .groupSwapStart 144, .pageWalkComplete 3 0 0, .portstatRead 18, .replayTimeout 21, .dlstatRead 3, .bridleEvaluate 6,
    .fabricWrite 2 []].all (fun i => !i.unitsExist && !i.wellFormed) = true := by decide

/-- The spool processor and a group each refuse what only the other runs, and a kernel's registers bound both (R383 reasons 10 and 7). -/
theorem test_kernelReasons : [encReason (.vadd { d := 8, a := 6, b := 4, ty := 1 }) 1 { spool := some true }, encReason (.tcopy { a := 32, c := 4 }) 1 { spool := some false },
    encReason (.vadd { d := 8, a := 6, b := 4, ty := 1 }) 1 { regs := 8 }, encReason (.waitl { b := 0x184, ty := 1 }) 1 { staged := false }] =
    [some 10, some 10, some 7, some 11] := by decide

/-! ### Words written out from the encoding tables (R127 to R129, R145) -/

/-- Whether some parcels decode to an instruction, all of them used. -/
def reads_ (ps : List Word) (i : Instr) : Bool := decide (decode (ps.flatMap bytesOfWord) = .ok (i, []))

theorem test_decode_scalarAndControl : [
    reads_ [0x0000A014] (.nop { s := 5, g := 2, gn := 1 }), reads_ [0x00000034] (.yield { s := 5 }), reads_ [0x00000054] (.exit { s := 5 }),
    reads_ [0x14000074] (.ret { a := 0x14, s := 5 }), reads_ [0x00000095, 0x00000000] (.join { s := 5 }),
    reads_ [0x00000096, 0x004401FF, 0x12345678] (.joinT { b := 0x1ff, s := 5, mn := 1, ty := 1, lit := 0x12345678 }),
    reads_ [0x000000B5, 0x00400104] (.trap { b := 0x104, s := 5, ty := 1 }),
    reads_ [0x140A00D6, 0x0C4001FF, 0x12345678] (.sys { d := 0xa, a := 0x14, b := 0x1ff, s := 5, ty := 1, tk := 3, lit := 0x12345678 }),
    reads_ [0x000000F6, 0x00000000, 0x00000018] (.bra { s := 5, lit := 0x18 }),
    reads_ [0x03000116, 0x00000000, 0x00000018] (.brpAll { a := 3, s := 5, lit := 0x18 }),
    reads_ [0x03000116, 0x00040000, 0x00000018] (.brpAny { a := 3, s := 5, mn := 1, lit := 0x18 }),
    reads_ [0x03000116, 0x00080000, 0x00000018] (.brpNone { a := 3, s := 5, mn := 2, lit := 0x18 }),
    reads_ [0x0B000136, 0x00000000, 0x00000018] (.brv { a := 0xb, s := 5, lit := 0x18 }),
    reads_ [0x14000156, 0x004001FF, 0x12345678] (.brx { a := 0x14, b := 0x1ff, s := 5, ty := 1, lit := 0x12345678 }),
    reads_ [0x000E0176, 0x00000000, 0x00000018] (.call { d := 0xe, s := 5, lit := 0x18 }),
    reads_ [0x140E0196, 0x004001FF, 0x12345678] (.callx { d := 0xe, a := 0x14, b := 0x1ff, s := 5, ty := 1, lit := 0x12345678 }),
    reads_ [0x120C0215, 0x02800104] (.sadd { d := 0xc, a := 0x12, b := 0x104, s := 5, ty := 0xa }),
    reads_ [0x120C0216, 0x028401FF, 0x12345678] (.ssub { d := 0xc, a := 0x12, b := 0x1ff, s := 5, mn := 1, ty := 0xa, lit := 0x12345678 }),
    reads_ [0x120C0215, 0x02880104] (.smin { d := 0xc, a := 0x12, b := 0x104, s := 5, mn := 2, ty := 0xa }),
    reads_ [0x120C0216, 0x028C01FF, 0x12345678] (.smax { d := 0xc, a := 0x12, b := 0x1ff, s := 5, mn := 3, ty := 0xa, lit := 0x12345678 }),
    reads_ [0x120C0215, 0x02900104] (.sand { d := 0xc, a := 0x12, b := 0x104, s := 5, mn := 4, ty := 0xa }),
    reads_ [0x120C0216, 0x029401FF, 0x12345678] (.sor { d := 0xc, a := 0x12, b := 0x1ff, s := 5, mn := 5, ty := 0xa, lit := 0x12345678 }),
    reads_ [0x120C0215, 0x02980104] (.sxor { d := 0xc, a := 0x12, b := 0x104, s := 5, mn := 6, ty := 0xa }),
    reads_ [0x120C0215, 0x029C0000] (.snot { d := 0xc, a := 0x12, s := 5, mn := 7, ty := 0xa }),
    reads_ [0x120C0215, 0x02A00104] (.sshl { d := 0xc, a := 0x12, b := 0x104, s := 5, mn := 8, ty := 0xa }),
    reads_ [0x120C0216, 0x02A401FF, 0x12345678] (.sshr { d := 0xc, a := 0x12, b := 0x1ff, s := 5, mn := 9, ty := 0xa, lit := 0x12345678 }),
    reads_ [0x120A0215, 0x02A80000] (.sclz { d := 0xa, a := 0x12, s := 5, mn := 0xa, ty := 0xa }),
    reads_ [0x120A0215, 0x02AC0000] (.spop { d := 0xa, a := 0x12, s := 5, mn := 0xb, ty := 0xa }),
    reads_ [0x120C0235, 0x02800104] (.smul { d := 0xc, a := 0x12, b := 0x104, s := 5, ty := 0xa }),
    reads_ [0x120C0236, 0x028401FF, 0x12345678] (.smulh { d := 0xc, a := 0x12, b := 0x1ff, s := 5, mn := 1, ty := 0xa, lit := 0x12345678 }),
    reads_ [0x120C0235, 0x028A0D04] (.smad { d := 0xc, a := 0x12, b := 0x104, c := 0x106, s := 5, mn := 2, ty := 0xa }),
    reads_ [0x120C0256, 0x0E8001FF, 0x12345678] (.sdiv { d := 0xc, a := 0x12, b := 0x1ff, s := 5, ty := 0xa, tk := 3, lit := 0x12345678 }),
    reads_ [0x120C0255, 0x0E840104] (.srem { d := 0xc, a := 0x12, b := 0x104, s := 5, mn := 1, ty := 0xa, tk := 3 }),
    reads_ [0x120A0276, 0x029401FF, 0x12345678] (.scmp { d := 0xa, a := 0x12, b := 0x1ff, s := 5, mn := 5, ty := 0xa, lit := 0x12345678 }),
    reads_ [0x100C0295, 0x02820D04] (.ssel { d := 0xc, a := 0x10, b := 0x104, c := 0x106, s := 5, ty := 0xa }),
    reads_ [0x100A02B4] (.smov { d := 0xa, a := 0x10, s := 5 }),
    reads_ [0x000C02D5, 0x02800104] (.sli { d := 0xc, b := 0x104, s := 5, ty := 0xa }),
    reads_ [0x120C02F6, 0x028001FF, 0x12345678] (.sbfe { d := 0xc, a := 0x12, b := 0x1ff, s := 5, ty := 0xa, lit := 0x12345678 }),
    reads_ [0x120C02F5, 0x02860D04] (.sbfi { d := 0xc, a := 0x12, b := 0x104, c := 0x106, s := 5, mn := 1, ty := 0xa }),
    reads_ [0x210C0315, 0x00400000] (.getsr { d := 0xc, a := 0x21, s := 5, ty := 1 }),
    reads_ [0x1416A315, 0x02840000] (.getsrVector { d := 0x16, a := 0x14, s := 5, g := 2, gn := 1, mn := 1, ty := 0xa }),
    reads_ [0x18000336, 0x004001FF, 0x12345678] (.setsr { a := 0x18, b := 0x1ff, s := 5, ty := 1, lit := 0x12345678 })].all id = true := by decide +kernel

theorem test_decode_vector : [
    reads_ [0x3616A415, 0x42800028] (.vadd { d := 0x16, a := 0x36, b := 0x28, s := 5, g := 2, gn := 1, ty := 0xa, m := 1 }),
    reads_ [0x3616A416, 0x428401FF, 0x12345678] (.vsub { d := 0x16, a := 0x36, b := 0x1ff, s := 5, g := 2, gn := 1, mn := 1, ty := 0xa, m := 1, lit := 0x12345678 }),
    reads_ [0x3616A415, 0x02880028] (.vmin { d := 0x16, a := 0x36, b := 0x28, s := 5, g := 2, gn := 1, mn := 2, ty := 0xa }),
    reads_ [0x3616A416, 0x028C01FF, 0x12345678] (.vmax { d := 0x16, a := 0x36, b := 0x1ff, s := 5, g := 2, gn := 1, mn := 3, ty := 0xa, lit := 0x12345678 }),
    reads_ [0x3616A415, 0x02900028] (.vand { d := 0x16, a := 0x36, b := 0x28, s := 5, g := 2, gn := 1, mn := 4, ty := 0xa }),
    reads_ [0x3616A416, 0x029401FF, 0x12345678] (.vor { d := 0x16, a := 0x36, b := 0x1ff, s := 5, g := 2, gn := 1, mn := 5, ty := 0xa, lit := 0x12345678 }),
    reads_ [0x3616A415, 0x02980028] (.vxor { d := 0x16, a := 0x36, b := 0x28, s := 5, g := 2, gn := 1, mn := 6, ty := 0xa }),
    reads_ [0x3616A415, 0x029C0000] (.vnot { d := 0x16, a := 0x36, s := 5, g := 2, gn := 1, mn := 7, ty := 0xa }),
    reads_ [0x3616A415, 0x02A00028] (.vshl { d := 0x16, a := 0x36, b := 0x28, s := 5, g := 2, gn := 1, mn := 8, ty := 0xa }),
    reads_ [0x3616A416, 0x02A401FF, 0x12345678] (.vshr { d := 0x16, a := 0x36, b := 0x1ff, s := 5, g := 2, gn := 1, mn := 9, ty := 0xa, lit := 0x12345678 }),
    reads_ [0x3616A415, 0x02680000] (.vabs { d := 0x16, a := 0x36, s := 5, g := 2, gn := 1, mn := 0xa, ty := 9 }),
    reads_ [0x3615A415, 0x02AC0000] (.vclz { d := 0x15, a := 0x36, s := 5, g := 2, gn := 1, mn := 0xb, ty := 0xa }),
    reads_ [0x3615A415, 0x02B00000] (.vpop { d := 0x15, a := 0x36, s := 5, g := 2, gn := 1, mn := 0xc, ty := 0xa }),
    reads_ [0x3616A415, 0x02B40000] (.vbrev { d := 0x16, a := 0x36, s := 5, g := 2, gn := 1, mn := 0xd, ty := 0xa }),
    reads_ [0x3616A435, 0x02800028] (.vmul { d := 0x16, a := 0x36, b := 0x28, s := 5, g := 2, gn := 1, ty := 0xa }),
    reads_ [0x3616A436, 0x028401FF, 0x12345678] (.vmulh { d := 0x16, a := 0x36, b := 0x1ff, s := 5, g := 2, gn := 1, mn := 1, ty := 0xa, lit := 0x12345678 }),
    reads_ [0x3616A435, 0x02885428] (.vmad { d := 0x16, a := 0x36, b := 0x28, c := 0x2a, s := 5, g := 2, gn := 1, mn := 2, ty := 0xa }),
    reads_ [0x3616A456, 0x0E8001FF, 0x12345678] (.vdiv { d := 0x16, a := 0x36, b := 0x1ff, s := 5, g := 2, gn := 1, ty := 0xa, tk := 3, lit := 0x12345678 }),
    reads_ [0x3616A455, 0x0E840028] (.vrem { d := 0x16, a := 0x36, b := 0x28, s := 5, g := 2, gn := 1, mn := 1, ty := 0xa, tk := 3 }),
    reads_ [0x3603A476, 0x029401FF, 0x12345678] (.vcmp { d := 3, a := 0x36, b := 0x1ff, s := 5, g := 2, gn := 1, mn := 5, ty := 0xa, lit := 0x12345678 }),
    reads_ [0x0316A495, 0x03405428] (.vsel { d := 0x16, a := 3, b := 0x28, c := 0x2a, s := 5, g := 2, gn := 1, ty := 0xd }),
    reads_ [0x3515A4B4] (.vmov { d := 0x15, a := 0x35, s := 5, g := 2, gn := 1 }),
    reads_ [0x0016A4D5, 0x03400028] (.vli { d := 0x16, b := 0x28, s := 5, g := 2, gn := 1, ty := 0xd }),
    reads_ [0x3616A4F6, 0x028001FF, 0x12345678] (.vbfe { d := 0x16, a := 0x36, b := 0x1ff, s := 5, g := 2, gn := 1, ty := 0xa, lit := 0x12345678 }),
    reads_ [0x3616A4F5, 0x02845428] (.vbfi { d := 0x16, a := 0x36, b := 0x28, c := 0x2a, s := 5, g := 2, gn := 1, mn := 1, ty := 0xa }),
    reads_ [0x3616A4F6, 0x028801FF, 0x12345678] (.vbrevFld { d := 0x16, a := 0x36, b := 0x1ff, s := 5, g := 2, gn := 1, mn := 2, ty := 0xa, lit := 0x12345678 })].all id = true := by decide +kernel

theorem test_decode_float : [
    reads_ [0x3616A615, 0xC3400028] (.fadd { d := 0x16, a := 0x36, b := 0x28, s := 5, g := 2, gn := 1, ty := 0xd, m := 3 }),
    reads_ [0x3616A616, 0xC34401FF, 0x12345678] (.fsub { d := 0x16, a := 0x36, b := 0x1ff, s := 5, g := 2, gn := 1, mn := 1, ty := 0xd, m := 3, lit := 0x12345678 }),
    reads_ [0x3616A615, 0xC3480028] (.fmul { d := 0x16, a := 0x36, b := 0x28, s := 5, g := 2, gn := 1, mn := 2, ty := 0xd, m := 3 }),
    reads_ [0x3616A616, 0x034C01FF, 0x12345678] (.fmin { d := 0x16, a := 0x36, b := 0x1ff, s := 5, g := 2, gn := 1, mn := 3, ty := 0xd, lit := 0x12345678 }),
    reads_ [0x3616A615, 0x03500028] (.fmax { d := 0x16, a := 0x36, b := 0x28, s := 5, g := 2, gn := 1, mn := 4, ty := 0xd }),
    reads_ [0x3616A616, 0xC35401FF, 0x12345678] (.fldexp { d := 0x16, a := 0x36, b := 0x1ff, s := 5, g := 2, gn := 1, mn := 5, ty := 0xd, m := 3, lit := 0x12345678 }),
    reads_ [0x3616A635, 0xC3405428] (.ffma { d := 0x16, a := 0x36, b := 0x28, c := 0x2a, s := 5, g := 2, gn := 1, ty := 0xd, m := 3 }),
    reads_ [0x3603A656, 0x02DC01FF, 0x12345678] (.fcmp { d := 3, a := 0x36, b := 0x1ff, s := 5, g := 2, gn := 1, mn := 7, ty := 0xb, lit := 0x12345678 }),
    reads_ [0x3616A675, 0xCEC00000] (.frcp { d := 0x16, a := 0x36, s := 5, g := 2, gn := 1, ty := 0xb, tk := 3, m := 3 }),
    reads_ [0x3616A675, 0xCEC40000] (.frsq { d := 0x16, a := 0x36, s := 5, g := 2, gn := 1, mn := 1, ty := 0xb, tk := 3, m := 3 }),
    reads_ [0x3616A675, 0xCEC80000] (.fsqrt { d := 0x16, a := 0x36, s := 5, g := 2, gn := 1, mn := 2, ty := 0xb, tk := 3, m := 3 }),
    reads_ [0x3616A676, 0xCECC01FF, 0x12345678] (.fdiv { d := 0x16, a := 0x36, b := 0x1ff, s := 5, g := 2, gn := 1, mn := 3, ty := 0xb, tk := 3, m := 3, lit := 0x12345678 }),
    reads_ [0x3616A675, 0xCD100000] (.fexp2 { d := 0x16, a := 0x36, s := 5, g := 2, gn := 1, mn := 4, ty := 4, tk := 3, m := 3 }),
    reads_ [0x3616A675, 0xCD140000] (.flog2 { d := 0x16, a := 0x36, s := 5, g := 2, gn := 1, mn := 5, ty := 4, tk := 3, m := 3 }),
    reads_ [0x3616A675, 0xCD180000] (.fsin { d := 0x16, a := 0x36, s := 5, g := 2, gn := 1, mn := 6, ty := 4, tk := 3, m := 3 }),
    reads_ [0x3616A675, 0xCD1C0000] (.fcos { d := 0x16, a := 0x36, s := 5, g := 2, gn := 1, mn := 7, ty := 4, tk := 3, m := 3 }),
    reads_ [0x3616A695, 0xC3400000] (.frnd { d := 0x16, a := 0x36, s := 5, g := 2, gn := 1, ty := 0xd, m := 3 }),
    reads_ [0x3615A695, 0x02C40000] (.fclass { d := 0x15, a := 0x36, s := 5, g := 2, gn := 1, mn := 1, ty := 0xb }),
    reads_ [0x2016A6B5, 0xC0800800] (.cvt { d := 0x16, a := 0x20, c := 4, s := 5, g := 2, gn := 1, ty := 2, m := 3 }),
    reads_ [0x140AA6B5, 0xCC840428] (.cvtkb { d := 0xa, a := 0x14, b := 0x28, c := 2, s := 5, g := 2, gn := 1, mn := 1, ty := 2, tk := 3, m := 3 }),
    reads_ [0x140AA6B5, 0x0C880428] (.unpkb { d := 0xa, a := 0x14, b := 0x28, c := 2, s := 5, g := 2, gn := 1, mn := 2, ty := 2, tk := 3 }),
    reads_ [0x3515A6B5, 0xC34C0029] (.pack2 { d := 0x15, a := 0x35, b := 0x29, s := 5, g := 2, gn := 1, mn := 3, ty := 0xd, m := 3 }),
    reads_ [0x3518A6B5, 0x03500000] (.unpk2 { d := 0x18, a := 0x35, s := 5, g := 2, gn := 1, mn := 4, ty := 0xd })].all id = true := by decide +kernel

theorem test_decode_lane : [
    reads_ [0x0303A6D5, 0xC0000005] (.pand { d := 3, a := 3, b := 5, s := 5, g := 2, gn := 1, m := 3 }),
    reads_ [0x0303A6D5, 0xC0040005] (.por { d := 3, a := 3, b := 5, s := 5, g := 2, gn := 1, mn := 1, m := 3 }),
    reads_ [0x0303A6D5, 0xC0080005] (.pxor { d := 3, a := 3, b := 5, s := 5, g := 2, gn := 1, mn := 2, m := 3 }),
    reads_ [0x0303A6D5, 0x400C0000] (.pnot { d := 3, a := 3, s := 5, g := 2, gn := 1, mn := 3, m := 1 }),
    reads_ [0x0303A6F5, 0x00000000] (.voteAll { d := 3, a := 3, s := 5, g := 2, gn := 1 }),
    reads_ [0x0303A6F5, 0x00040000] (.voteAny { d := 3, a := 3, s := 5, g := 2, gn := 1, mn := 1 }),
    reads_ [0x0320A6F5, 0x00080000] (.voteBallot { d := 0x20, a := 3, s := 5, g := 2, gn := 1, mn := 2 }),
    reads_ [0x3616A715, 0x028C0028] (.shfl { d := 0x16, a := 0x36, b := 0x28, s := 5, g := 2, gn := 1, mn := 3, ty := 0xa }),
    reads_ [0x3616A735, 0x0C140000] (.vred { d := 0x16, a := 0x36, s := 5, g := 2, gn := 1, mn := 5, tk := 3 }),
    reads_ [0x3616A755, 0x0C340000] (.vscan { d := 0x16, a := 0x36, s := 5, g := 2, gn := 1, mn := 0xd, tk := 3 }),
    reads_ [0x3616A776, 0x028001FF, 0x12345678] (.qswz { d := 0x16, a := 0x36, b := 0x1ff, s := 5, g := 2, gn := 1, ty := 0xa, lit := 0x12345678 }),
    reads_ [0x3616A775, 0x02840106] (.qbc { d := 0x16, a := 0x36, b := 0x106, s := 5, g := 2, gn := 1, mn := 1, ty := 0xa }),
    reads_ [0x360CA796, 0x028001FF, 0x12345678] (.vreadl { d := 0xc, a := 0x36, b := 0x1ff, s := 5, g := 2, gn := 1, ty := 0xa, lit := 0x12345678 }),
    reads_ [0x0016A795, 0x02860D06] (.vwritel { d := 0x16, b := 0x106, c := 0x106, s := 5, g := 2, gn := 1, mn := 1, ty := 0xa }),
    reads_ [0x0015A7B5, 0x00400000] (.rand { d := 0x15, s := 5, g := 2, gn := 1, ty := 1 }),
    reads_ [0x2002A7D5, 0x00000000] (.tiset { d := 2, a := 0x20, s := 5, g := 2, gn := 1 }),
    reads_ [0x020AA7D5, 0x0D045584] (.tiopLd { d := 0xa, a := 2, b := 0x184, c := 0x2a, s := 5, g := 2, gn := 1, mn := 1, ty := 4, tk := 3 }),
    reads_ [0x020AA7D5, 0x4D045584] (.tiopSt { d := 0xa, a := 2, b := 0x184, c := 0x2a, s := 5, g := 2, gn := 1, mn := 1, ty := 4, tk := 3, m := 1 }),
    reads_ [0x0200A7D5, 0x8C040184] (.tiopAdv { a := 2, b := 0x184, s := 5, g := 2, gn := 1, mn := 1, tk := 3, m := 2 }),
    reads_ [0x0215A7D5, 0x40480182] (.tiget { d := 0x15, a := 2, b := 0x182, s := 5, g := 2, gn := 1, mn := 2, ty := 1, m := 1 })].all id = true := by decide +kernel

theorem test_decode_memory : [
    reads_ [0x3500A955, 0x0C420D16] (.spill { a := 0x35, b := 0x116, c := 0x106, s := 5, g := 2, gn := 1, ty := 1, tk := 3 }),
    reads_ [0x0015A955, 0x0C460D16] (.fill { d := 0x15, b := 0x116, c := 0x106, s := 5, g := 2, gn := 1, mn := 1, ty := 1, tk := 3 }),
    reads_ [0x160AA816, 0x0E8413FF, 0x12345678] (.ld { d := 0xa, a := 0x16, b := 0x1ff, c := 9, s := 5, g := 2, gn := 1, mn := 1, ty := 0xa, tk := 3, lit := 0x12345678 }),
    reads_ [0x1608A835, 0x00480028] (.st { d := 8, a := 0x16, b := 0x28, s := 5, g := 2, gn := 1, mn := 2, ty := 1 }),
    reads_ [0x140A0856, 0x0E8003FF, 0x12345678] (.lds { d := 0xa, a := 0x14, b := 0x1ff, c := 1, s := 5, ty := 0xa, tk := 3, lit := 0x12345678 }),
    reads_ [0x140A0875, 0x00400704] (.sts { d := 0xa, a := 0x14, b := 0x104, c := 3, s := 5, ty := 1 }),
    reads_ [0x160AA895, 0xCCAC1304] (.atom { d := 0xa, a := 0x16, b := 0x104, c := 9, s := 5, g := 2, gn := 1, mn := 0xb, ty := 2, tk := 3, m := 3 }),
    reads_ [0x160AA8B5, 0xCC099304] (.atomOrd { d := 0xa, a := 0x16, b := 0x104, c := 0xc9, s := 5, g := 2, gn := 1, mn := 2, tk := 3, m := 3 }),
    reads_ [0x1618A8D6, 0x000C05FF, 0x12345678] (.lcopy { d := 0x18, a := 0x16, b := 0x1ff, c := 2, s := 5, g := 2, gn := 1, mn := 3, lit := 0x12345678 }),
    reads_ [0x000308F5, 0x00400104] (.waitf { d := 3, b := 0x104, s := 5, ty := 1 }),
    reads_ [0x00000915, 0x00000600] (.fence { c := 3, s := 5 }),
    reads_ [0x140C0935, 0x0E800104] (.promote { d := 0xc, a := 0x14, b := 0x104, s := 5, ty := 0xa, tk := 3 })].all id = true := by decide +kernel

theorem test_decode_syncAndMatrix : [
    reads_ [0x00030A16, 0x004001FF, 0x12345678] (.bari { d := 3, b := 0x1ff, s := 5, ty := 1, lit := 0x12345678 }),
    reads_ [0x00030A35, 0x00400104] (.bara { d := 3, b := 0x104, s := 5, ty := 1 }),
    reads_ [0x00030A55, 0x00400104] (.barw { d := 3, b := 0x104, s := 5, ty := 1 }),
    reads_ [0x020A0A75, 0x00000000] (.bart { d := 0xa, a := 2, s := 5 }),
    reads_ [0x0114AA95, 0x0C400184] (.qpop { d := 0x14, a := 1, b := 0x184, s := 5, g := 2, gn := 1, ty := 1, tk := 3 }),
    reads_ [0x0014AA95, 0x0C840A00] (.qpopTry { d := 0x14, c := 5, s := 5, g := 2, gn := 1, mn := 1, ty := 2, tk := 3 }),
    reads_ [0x0501AAB5, 0x00400184] (.qpush { d := 1, a := 5, b := 0x184, s := 5, g := 2, gn := 1, ty := 1 }),
    reads_ [0x200A0C15, 0x0C400104] (.obres { d := 0xa, a := 0x20, b := 0x104, s := 5, ty := 1, tk := 3 }),
    reads_ [0x00000C36, 0x004001FF, 0x12345678] (.obrel { b := 0x1ff, s := 5, ty := 1, lit := 0x12345678 }),
    reads_ [0x20120C55, 0x0C000184] (.mloopNew { d := 0x12, a := 0x20, b := 0x184, s := 5, tk := 3 }),
    reads_ [0x20120C55, 0x0C040184] (.mloopAcc { d := 0x12, a := 0x20, b := 0x184, s := 5, mn := 1, tk := 3 }),
    reads_ [0x00000C75, 0x0C000000] (.mpub { s := 5, tk := 3 }),
    reads_ [0x00000C96, 0x004001FF, 0x12345678] (.spreq { b := 0x1ff, s := 5, ty := 1, lit := 0x12345678 }),
    reads_ [0x20030D15, 0x00001800] (.tcopy { d := 3, a := 0x20, c := 0xc, s := 5 }),
    reads_ [0x20000D35, 0x00500400] (.coll { a := 0x20, c := 2, s := 5, mn := 4, ty := 1 }),
    reads_ [0x000A0D55, 0x00400000] (.sprecv { d := 0xa, s := 5, ty := 1 }),
    reads_ [0x00200D55, 0x00440000] (.sprecvTry { d := 0x20, s := 5, mn := 1, ty := 1 })].all id = true := by decide +kernel

theorem test_decode_geometryAndWork : [
    reads_ [0x6040AE15, 0x00000116] (.rcvt { d := 0x40, a := 0x60, b := 0x116, s := 5, g := 2, gn := 1 }),
    reads_ [0x6014AE35, 0x0C000080] (.boxt { d := 0x14, a := 0x60, b := 0x80, s := 5, g := 2, gn := 1, tk := 3 }),
    reads_ [0x6040AE55, 0x0C000028] (.fdin { d := 0x40, a := 0x60, b := 0x28, s := 5, g := 2, gn := 1, tk := 3 }),
    reads_ [0x6040AE75, 0x0C000080] (.trit { d := 0x40, a := 0x60, b := 0x80, s := 5, g := 2, gn := 1, tk := 3 }),
    reads_ [0x6040AE95, 0x0C000116] (.rtrace { d := 0x40, a := 0x60, b := 0x116, s := 5, g := 2, gn := 1, tk := 3 }),
    reads_ [0x6015AEB5, 0xC0800080] (.rhit { d := 0x15, a := 0x60, b := 0x80, s := 5, g := 2, gn := 1, ty := 2, m := 3 }),
    reads_ [0x140A0ED5, 0x0C000000] (.drawv { d := 0xa, a := 0x14, s := 5, tk := 3 }),
    reads_ [0x140A0EF5, 0x0E800116] (.nswap { d := 0xa, a := 0x14, b := 0x116, s := 5, ty := 0xa, tk := 3 }),
    reads_ [0x00000F15, 0x00400104] (.gdrain { b := 0x104, s := 5, ty := 1 }),
    reads_ [0x10110F35, 0x00400184] (.slbegin { d := 0x11, a := 0x10, b := 0x184, s := 5, ty := 1 }),
    reads_ [0x00000F35, 0x00440000] (.slend { s := 5, mn := 1, ty := 1 }),
    reads_ [0x000A0F55, 0x0C400000] (.slnext { d := 0xa, s := 5, ty := 1, tk := 3 }),
    reads_ [0x00000F75, 0x00400104] (.stadv { b := 0x104, s := 5, ty := 1 }),
    reads_ [0x00000F76, 0x004401FF, 0x12345678] (.stjmp { b := 0x1ff, s := 5, mn := 1, ty := 1, lit := 0x12345678 }),
    reads_ [0x00000F95, 0x00400104] (.waitl { b := 0x104, s := 5, ty := 1 }),
    reads_ [0x3500AFB6, 0x004001FF, 0x12345678] (.launch { a := 0x35, b := 0x1ff, s := 5, g := 2, gn := 1, ty := 1, lit := 0x12345678 }),
    reads_ [0x3503AFB5, 0x00440106] (.launchTry { d := 3, a := 0x35, b := 0x106, s := 5, g := 2, gn := 1, mn := 1, ty := 1 }),
    reads_ [0x000A0FD6, 0x004001FF, 0x12345678] (.tstat { d := 0xa, b := 0x1ff, s := 5, ty := 1, lit := 0x12345678 })].all id = true := by decide +kernel

/-! ### Steps of single instructions; the expected values are worked out from the rules that are named -/

/-- What an instruction has on its way to registers: its fixed-latency result or its operation's. -/
def written (i : Instr) (s : State) : List Wr :=
  ((after i s).group? 0).toList.flatMap (fun g => g.fixes.flatMap (·.wrs)) ++ (after i s).ops.flatMap (·.wrs)
/-- The value of register `r` of lane `l` among some writes. -/
def lane_ (ws : List Wr) (r l : Nat) : Option Word := ws.findSome? fun w => match w with
  | .v x _ xs => if x = r then some (laneAt xs l) else none
  | _ => none
/-- With an s register set. -/
def withS (xs : Tab Word) (g : Group) : Group := { g with s := xs }
/-- With v registers set. -/
def withV (xs : Tab Lanes) (g : Group) : Group := { g with v := xs }
/-- D 8, A 6, and B. -/
def fd (b : BitVec 9) (ty : BitVec 4) (lit : Word := 0) : Fld := { d := 8, a := 6, b := b, ty := ty, lit := lit }

/-- The first word placed before a resident group, and before a spool processor, is what the first step runs (R145). -/
theorem test_step_runs_placed_word : [(64, 0x004001840A010F21), (32, 0x00000000), (96, 0x00000504004001FF060802E2), (64, 0x00400000000A0D41)].all
    (fun x => match step (State.reset.withFetchWord x.1 x.2) with
      | .next _ => (decodeTableWord x.1 x.2).isSome
      | _ => false) = true := by decide +kernel

/-- R167: wrapping addition: 0xFFFFFFFF + 3. -/
theorem test_sadd_wraps : written (.sadd (fd 0x104 1)) (atG (withS [(4, 3), (6, 0xFFFFFFFF)]) (.sadd (fd 0x104 1))) = [.s 8 2] := by decide

/-- R169: the quotient of the least i32 and −1 is the least i32, and by 0 the greatest of the sign. -/
theorem test_sdiv_corners : (written (.sdiv (fd 0x104 0)) (atG (withS [(4, 0xFFFFFFFF), (6, 0x80000000)]) (.sdiv (fd 0x104 0))),
    written (.sdiv (fd 0x104 0)) (atG (withS [(6, 5)]) (.sdiv (fd 0x104 0)))) = ([.s 8 0x80000000], [.s 8 0x7FFFFFFF]) := by decide

/-- R174: bits [8:4] by the control 0x0504. -/
theorem test_sbfe_example : written (.sbfe (fd 0x1FF 1 0x504)) (atG (withS [(6, 0xABF7)]) (.sbfe (fd 0x1FF 1 0x504))) = [.s 8 0x1F] := by decide

/-- R174: s9[7:0] at bits [23:16] by the control 0x0810. -/
theorem test_sbfi_example : let f : Fld := { fd 0x1FF 1 0x810 with c := 0x109 }
    written (.sbfi f) (atG (withS [(6, 0x11223344), (9, 0xAABBCCDD)]) (.sbfi f)) = [.s 8 0x11DD3344] := by decide

/-- R171: −1 as an i64 fills both registers. -/
theorem test_sli_pair : written (.sli (fd 0x1B0 9)) (at_ (.sli (fd 0x1B0 9))) = [.s 8 0xFFFFFFFF, .s 9 0xFFFFFFFF] := by decide

/-- R182: the absolute value of the least i32 is itself. -/
theorem test_vabs_least : lane_ (written (.vabs (fd 0 0)) (atG (withV [(6, [0x80000000])]) (.vabs (fd 0 0)))) 8 0 = some 0x80000000 := by decide

/-- R189: the field [7:0] reversed by the control 0x0800. -/
theorem test_vbrev_field : lane_ (written (.vbrevFld (fd 0x1FF 1 0x800)) (atG (withV [(6, [0xFF01])]) (.vbrevFld (fd 0x1FF 1 0x800)))) 8 0 = some 0xFF80 := by
  decide

/-- R203: 0xB1 exchanges lanes 0 and 1, and 2 and 3. -/
theorem test_qswz_exchange : let f := fd 0x1FF 1 0xB1
    (List.range 4).map (lane_ (written (.qswz f) (atG (withV [(6, [10, 11, 12, 13])]) (.qswz f))) 8) = [some 11, some 10, some 13, some 12] := by decide

/-- R191: 1.0 + 1.5 in f32. -/
theorem test_fadd_literal : let f := fd 0x1FF 2 0x3FC00000
    lane_ (written (.fadd f) (atG (withV [(6, [0x3F800000])]) (.fadd f))) 8 0 = some 0x40200000 := by decide +kernel

/-- R286: the example of the rule: U 0.375, V 0.5, attributes 0, 8 and 16 give 11. -/
theorem test_rhit_example : let f : Fld := { d := 90, a := 64, b := 80, ty := 2 }
    let hit : Tab Lanes := [(66, [1]), (78, [0x3EC00000]), (79, [0x3F000000]), (80, [0]), (81, [0x41000000]), (82, [0x41800000])]
    lane_ (written (.rhit f) (atG (withV hit) (.rhit f))) 90 0 = some 0x41300000 := by decide +kernel

/-- R165, R381: TRAP 0x41 leaves code 0x10 with INFO 0x41, and the address of its parcel 0, which is the header's plus 8. -/
theorem test_trap_cause : let i : Instr := .trap { b := 0x1FF, ty := 1, lit := 0x41 }
    ((after i (ring 0 (at_ i))).group? 0).map (fun g => (g.trapCause, g.trapAddr, g.trapped)) = some (0x00410010, 8, true) := by decide

/-- R55, R3: a store of a word to the vault puts its least significant byte lowest. -/
theorem test_st_bytes : let s := after (.st fm) (atG (withV [(8, List.replicate 4 0x11223344)]) (.st fm))
    (List.range 4).map (fun i => s.byte (mKey 4 (8 + i))) = [0x44, 0x33, 0x22, 0x11] := by decide

/-- R366, R365: a NOP leaves the head one slot on. -/
theorem test_queue_nop_head : ((after (.queueNop 1) (ringOf 1 [])).queue 1).head = 1 := by decide +kernel

/-- R363: a bit of IRQSTAT written as 1 clears. -/
theorem test_irqstat_w1c : (after (.irqstatWrite 0b0110) { State.reset with irqStat := 0b1100 }).irqStat = 0b1000 := by decide
end Sys2Proof.Tests
end

section
/-! Tables with a default value: the canonical form is unique (log 5). -/

namespace Sys2Proof.Machine

open Sys2Proof

variable {α : Type}

/-- A sorted table lists no key below its entries. -/
theorem Tab.find?_eq_none_of_lt {t : Tab α} {j : Nat} (h : ∀ e ∈ t, j < e.1) : Tab.find? t j = none := by
  induction t with
  | nil => rfl
  | cons e t ih =>
    have he : j < e.1 := h e List.mem_cons_self
    rw [Tab.find?, if_neg (by omega), ih fun e he => h e (List.mem_cons_of_mem _ he)]

theorem Tab.get_eq_default_of_lt (d : α) {t : Tab α} {j : Nat} (h : ∀ e ∈ t, j < e.1) : Tab.get d t j = d := by
  rw [Tab.get, Tab.find?_eq_none_of_lt h, Option.getD_none]

@[simp] theorem Tab.get_cons_self (d : α) (t : Tab α) (k : Nat) (x : α) : Tab.get d ((k, x) :: t) k = x := by
  simp [Tab.get, Tab.find?]

theorem Tab.get_cons_of_ne (d : α) (t : Tab α) {j k : Nat} (x : α) (h : k ≠ j) : Tab.get d ((k, x) :: t) j = Tab.get d t j := by
  simp [Tab.get, Tab.find?, h]

variable [DecidableEq α]

theorem Tab.wf_cons (d : α) (t : Tab α) (k : Nat) (x : α) :
    Tab.wf d ((k, x) :: t) = true ↔ (∀ e ∈ t, k < e.1) ∧ x ≠ d ∧ Tab.wf d t = true := by
  simp only [Tab.wf, Tab.sorted, List.all_cons, Bool.and_eq_true, List.all_eq_true, decide_eq_true_eq]
  tauto

/-- Two canonical tables that answer alike at every key list the same entries: were their least keys unlike, the lesser would hold the
default value in one table alone. -/
theorem Tab.eq_of_get_eq (d : α) {t u : Tab α} (ht : Tab.wf d t = true) (hu : Tab.wf d u = true)
    (h : ∀ j, Tab.get d t j = Tab.get d u j) : t = u := by
  induction t generalizing u with
  | nil =>
    cases u with
    | nil => rfl
    | cons e u =>
      obtain ⟨k, x⟩ := e
      obtain ⟨-, hx, -⟩ := (Tab.wf_cons d u k x).mp hu
      exact absurd ((Tab.get_cons_self d u k x).symm.trans (h k).symm) hx
  | cons e t ih =>
    obtain ⟨k, x⟩ := e
    obtain ⟨hkt, hx, ht'⟩ := (Tab.wf_cons d t k x).mp ht
    cases u with
    | nil => exact absurd ((Tab.get_cons_self d t k x).symm.trans (h k)) hx
    | cons e u =>
      obtain ⟨l, y⟩ := e
      obtain ⟨hlu, hy, hu'⟩ := (Tab.wf_cons d u l y).mp hu
      rcases Nat.lt_trichotomy k l with hkl | rfl | hlk
      · have hk : Tab.get d ((l, y) :: u) k = d := Tab.get_eq_default_of_lt d
          (List.forall_mem_cons.mpr ⟨hkl, fun e he => hkl.trans (hlu e he)⟩)
        exact absurd ((Tab.get_cons_self d t k x).symm.trans ((h k).trans hk)) hx
      · have hxy : x = y := by simpa using h k
        have htu : ∀ j, Tab.get d t j = Tab.get d u j := by
          intro j
          by_cases hj : k = j
          · subst hj
            rw [Tab.get_eq_default_of_lt d hkt, Tab.get_eq_default_of_lt d hlu]
          · simpa [Tab.get_cons_of_ne d _ _ hj] using h j
        rw [hxy, ih ht' hu' htu]
      · have hl : Tab.get d ((k, x) :: t) l = d := Tab.get_eq_default_of_lt d
          (List.forall_mem_cons.mpr ⟨hlk, fun e he => hlk.trans (hkt e he)⟩)
        exact absurd ((Tab.get_cons_self d u l y).symm.trans ((h l).symm.trans hl)) hy

end Sys2Proof.Machine
end

section
/-! A number in consecutive bytes of memory, least significant byte first (R3). -/

namespace Sys2Proof.Machine

open Sys2Proof

/-- A byte that a list of writes names once holds what is written there. -/
theorem setBytes_byte_of_mem (kbs : List (Nat × Byte)) (s : State) {j : Nat} {b : Byte} (hn : (kbs.map (·.1)).Nodup)
    (h : (j, b) ∈ kbs) : (kbs.foldl (fun s kb => s.setByte kb.1 kb.2) s).byte j = b := by
  induction kbs generalizing s with
  | nil => cases h
  | cons kb kbs ih =>
    obtain ⟨hkb, hn⟩ := List.nodup_cons.mp hn
    rw [List.foldl_cons]
    rcases List.mem_cons.mp h with rfl | h
    · rw [setBytes_byte_of_notMem kbs _ hkb, State.setByte_byte_self]
    · exact ih _ hn h

theorem writeBytes_byte_of_mem (s : State) (kbs : List (Nat × Byte)) {j : Nat} {b : Byte} (hn : (kbs.map (·.1)).Nodup)
    (h : (j, b) ∈ kbs) : (s.writeBytes kbs).byte j = b := setBytes_byte_of_mem kbs s hn h

theorem writeNat_eq_writeBytes (s : State) (k n x : Nat) :
    s.writeNat k n x = s.writeBytes ((List.range n).map fun i => (k + i, BitVec.ofNat 8 (x / 256 ^ i))) := by
  rw [State.writeNat, bytesOfNat, List.zip_map_right, List.zip_eq_zipWith, List.zipWith_self]
  simp [Function.comp_def]

/-- Each byte of a written number, and every other byte. -/
theorem writeNat_byte (s : State) (k n x j : Nat) :
    (s.writeNat k n x).byte j = if k ≤ j ∧ j < k + n then BitVec.ofNat 8 (x / 256 ^ (j - k)) else s.byte j := by
  rw [writeNat_eq_writeBytes]
  split
  · rename_i hj
    apply writeBytes_byte_of_mem
    · rw [List.map_map]
      exact List.nodup_range.map fun a b hab => Nat.add_left_cancel hab
    · exact List.mem_map.mpr ⟨j - k, List.mem_range.mpr (by omega), by rw [Nat.add_sub_cancel' hj.1]⟩
  · apply writeBytes_byte_of_notMem
    simp only [List.map_map, List.mem_map, List.mem_range, Function.comp_apply, not_exists, not_and]
    intro i hi
    omega

/-- Bytes that are the digits of a number to base 256 read as the number. -/
theorem readNat_eq_mod (s : State) (k n x : Nat) (h : ∀ i < n, s.byte (k + i) = BitVec.ofNat 8 (x / 256 ^ i)) :
    s.readNat k n = x % 256 ^ n := by
  induction n generalizing k x with
  | zero => simp [State.readNat, Nat.mod_one]
  | succ n ih =>
    have h0 : s.byte k = BitVec.ofNat 8 x := by simpa using h 0 (Nat.succ_pos n)
    have hs : s.readNat (k + 1) n = x / 256 % 256 ^ n := by
      apply ih
      intro i hi
      rw [Nat.div_div_eq_div_mul, ← Nat.pow_succ', Nat.add_assoc, Nat.add_comm 1 i]
      exact h (i + 1) (by omega)
    rw [State.readNat, h0, hs, BitVec.toNat_ofNat, Nat.pow_succ' (m := 256), Nat.mod_mul]

theorem readNat_writeNat (s : State) (k n x : Nat) : (s.writeNat k n x).readNat k n = x % 256 ^ n := by
  apply readNat_eq_mod
  intro i hi
  rw [writeNat_byte, if_pos (by omega), Nat.add_sub_cancel_left]

/-- Settles O54: the four clauses are the laws of `writeNat` and the uniqueness of the canonical form. -/
theorem memoryReadsBack : Obligations.MemoryReadsBack := by
  intro s k n x
  exact ⟨readNat_writeNat s k n x, writeNat_byte s k n x, writeNat_wf k n x, fun _ _ => Tab.eq_of_get_eq unwritten⟩

end Sys2Proof.Machine
end

section
/-! What the host writes and reads of a register: its fields, and the queues of a module that serves commands. -/

namespace Sys2Proof.Machine

open Sys2Proof

theorem bit_toNat {n : Nat} (v : BitVec n) (i : Nat) : bit v.toNat i = v.getLsbD i := by
  rw [bit, BitVec.getLsbD, Nat.testBit_eq_decide_div_mod_eq]

/-- The bits of a doubleword from bit 12 on, in place: a page's address. -/
theorem bits_from_twelve (v : DWord) : bits v.toNat 12 52 * 4096 = v.toNat / 2 ^ 12 * 2 ^ 12 := by
  have := v.isLt
  rw [bits]
  omega

theorem extractLsb'_zero_eq_setWidth (v : DWord) : v.extractLsb' 0 32 = v.setWidth 32 :=
  (BitVec.setWidth_eq_extractLsb' (by decide)).symm

theorem queue_trLog_eq (x : Queue) : x.trLog = if 2 ≤ x.trSize ∧ x.trSize ≤ 12 then x.trSize else 0 := by
  unfold Queue.trLog
  split <;> split <;> omega

@[simp] theorem serving_setQueue (s : State) (q : Nat) (x : Queue) : serving (s.setQueue q x) = serving s := rfl

@[simp] theorem serving_post (s : State) (c : Chan) (x : Clk) : serving (s.post c x) = serving s := by
  unfold State.post
  split <;> rfl

@[simp] theorem serving_released (s : State) (me : Nat) : serving (s.released me) = serving s := by
  unfold State.released State.setHb
  split <;> rfl

/-- A module that serves commands rejects nothing of a queue for want of service (R378). -/
theorem rejectPending_of_serving {s : State} (h : serving s = true) (q : Nat) : rejectPending s q = s := by
  unfold rejectPending
  cases (s.queue q).pendingSlots with
  | zero => rfl
  | succ n => simp [rejectAll, h]

/-- QTAIL takes a value that claims no more slots than the queue has (R365, R366). -/
theorem execQtailWrite_of_fits {s : State} (h : serving s = true) (q : Nat) (v : Word)
    (hv : (v - (s.queue q).head).toNat ≤ 2 ^ (s.queue q).size) : execQtailWrite q v s =
    .next (((s.setQueue q { s.queue q with tail := v }).post (.queue q) (s.relClk hostMe)).released hostMe) := by
  unfold execQtailWrite
  rw [if_neg (Nat.not_lt.mpr hv), rejectPending_of_serving (by simpa using h)]

/-- QTAIL refuses a value that claims more slots (R410). -/
theorem execQtailWrite_of_claims_more (s : State) (q : Nat) (v : Word)
    (hv : 2 ^ (s.queue q).size < (v - (s.queue q).head).toNat) :
    execQtailWrite q v s = .next (queueErr s q (s.queue q).head.toNat 5) := if_pos hv

/-- The fields of QCTL (R365). -/
theorem execQctlWrite_of_serving {s : State} (h : serving s = true) (q : Nat) (v : Word) : execQctlWrite q v s =
    .next (s.setQueue q { s.queue q with en := v.getLsbD 0, pri := v.toNat / 2 % 4, irq := v.getLsbD 3 }) := by
  rw [← bit_toNat, ← bit_toNat]
  exact congrArg _ (rejectPending_of_serving (by simpa using h) q)

theorem execQsizeWrite_of_disabled {s : State} {q : Nat} (h : (s.queue q).en = false) (v : Word) : execQsizeWrite q v s =
    .next (s.setQueue q { s.queue q with size := max 6 (min 16 (v.toNat % 32)) }) := if_neg (by simp [h])

theorem execQsizeWrite_of_enabled {s : State} {q : Nat} (h : (s.queue q).en = true) (v : Word) :
    execQsizeWrite q v s = .next s := if_pos h

/-! ### Registers that keep what is written, and those that ignore it -/

theorem exec_registerWrite {s t : State} {r : HostReg} {v : DWord} (h : writeReg s r v = t) :
    exec (.registerWrite r v) s = .next t := congrArg Host.Outcome.next h

theorem writeReg_qbase_of_enabled {s : State} {q : Nat} (h : (s.queue q).en = true) (v : DWord) :
    writeReg s (.qbase q) v = s := if_pos h

theorem writeReg_qctx_of_enabled {s : State} {q : Nat} (h : (s.queue q).en = true) (v : DWord) :
    writeReg s (.qctx q) v = s := if_pos h

theorem writeReg_trsize_of_enabled {s : State} {q : Nat} (h : (s.queue q).en = true) (v : DWord) :
    writeReg s (.trsize q) v = s := if_pos h

theorem writeReg_qbase_of_disabled {s : State} {q : Nat} (h : (s.queue q).en = false) (v : DWord) : writeReg s (.qbase q) v =
    s.setQueue q { s.queue q with loc := v.toNat % 4, base := v.toNat / 2 ^ 12 * 2 ^ 12 } := by
  rw [← bits_from_twelve]
  simp [writeReg, h, bits]

theorem writeReg_qctx_of_disabled {s : State} {q : Nat} (h : (s.queue q).en = false) (v : DWord) :
    writeReg s (.qctx q) v = s.setQueue q { s.queue q with ctx := v } := if_neg (by simp [h])

theorem writeReg_trsize_of_disabled {s : State} {q : Nat} (h : (s.queue q).en = false) (v : DWord) :
    writeReg s (.trsize q) v = s.setQueue q { s.queue q with trSize := v.toNat % 16 } := by
  simp [writeReg, h, bits]

theorem writeReg_trctl (s : State) (q : Nat) (v : DWord) :
    writeReg s (.trctl q) v = s.setQueue q { s.queue q with trIrq := v.getLsbD 0 } := by
  rw [← bit_toNat]
  rfl

theorem writeReg_loghead (s : State) (q : Nat) (v : DWord) :
    writeReg s (.loghead q) v = s.setQueue q { s.queue q with logHead := v.setWidth 32 } := by
  rw [← extractLsb'_zero_eq_setWidth]
  rfl

theorem writeReg_cethr (s : State) (v : DWord) : writeReg s .cethr v = { s with ceThr := v.setWidth 32 } := by
  rw [← extractLsb'_zero_eq_setWidth]
  rfl

theorem readReg_trctl (s : State) (q : Nat) : readReg s (.trctl q) = if (s.queue q).trIrq = true then 1 else 0 := by
  cases h : (s.queue q).trIrq <;> simp [readReg, b1, h]

/-- A register that is read-only, or that a read clears, keeps its value (R6, log 69). -/
theorem writeReg_of_readOnly (s : State) (v : DWord) {r : HostReg}
    (h : r ∈ [HostReg.id, .bootstat, .failcnt, .capptr, .temp, .pwr, .cecnt, .ueaddr]) : writeReg s r v = s := by
  simp only [List.mem_cons, List.not_mem_nil, or_false] at h
  rcases h with rfl | rfl | rfl | rfl | rfl | rfl | rfl | rfl <;> rfl

theorem readReg_of_writeOnly (s : State) (q : Nat) {r : HostReg} (h : r ∈ [HostReg.restart, .tract q, .trkill q]) :
    readReg s r = 0 := by
  simp only [List.mem_cons, List.not_mem_nil, or_false] at h
  rcases h with rfl | rfl | rfl <;> rfl

/-- Settles O41: each clause is the law of one queue register. -/
theorem queueRegisterResults : Obligations.QueueRegisterResults := by
  intro s q
  exact ⟨fun hs v => execQtailWrite_of_fits hs q v, execQtailWrite_of_claims_more s q, fun hs => execQctlWrite_of_serving hs q,
    fun v he => execQsizeWrite_of_disabled he v,
    fun v he => ⟨execQsizeWrite_of_enabled he v, exec_registerWrite (writeReg_qbase_of_enabled he _),
      exec_registerWrite (writeReg_qctx_of_enabled he _)⟩, rfl⟩

end Sys2Proof.Machine
end

section
/-! The host's counts, the flash window and the aperture (R362, R363, R428, R430). -/

namespace Sys2Proof.Machine

open Sys2Proof

/-! ### Counts that a read clears -/

theorem execPortstatRead_of_lt (s : State) {p : Nat} (h : p < 18) : execPortstatRead p s = .next (hostRead s (.portstat p)) :=
  if_neg (Nat.not_le.mpr h)

theorem execDlstatRead_of_lt (s : State) {k : Nat} (h : k < 3) : execDlstatRead k s = .next (hostRead s (.dlstat k)) :=
  if_neg (Nat.not_le.mpr h)

/-! ### Flash -/

theorem execFlashctlWrite_eq (s : State) (v : Word) : execFlashctlWrite v s =
    .next { s with flashWe := v.getLsbD 0 && decide (s.bootState = 4 ∨ s.bootState = 5) } := by
  rw [Bool.decide_or]
  rfl

theorem execFlashWindowWrite_of_we {s : State} (h : s.flashWe = true) {off : Nat} (ha : off % 4 = 0) (hl : off < 2 ^ 24)
    (v : Word) : execFlashWindowWrite off v s = .next { s with flashBusy := s.flashBusy ++ [(off, v)] } :=
  if_pos (by simp [h, ha, show off < flashSize from hl])

theorem execFlashWindowWrite_of_not_we {s : State} (h : s.flashWe = false) (off : Nat) (v : Word) :
    execFlashWindowWrite off v s = .next s := if_neg (by simp [h])

theorem execFlashWriteComplete_of_busy {s : State} {off : Nat} {e : Nat × Word}
    (h : (s.flashBusy.find? fun e => e.1 == off) = some e) : execFlashWriteComplete off s =
    .next (({ s with flashBusy := s.flashBusy.erase e } : State).writeNat (mKey 292 off) 4 e.2.toNat) := by
  unfold execFlashWriteComplete
  rw [h]

theorem readReg_flash_of_idle {s : State} {off : Nat} (hl : off < 2 ^ 24) (h : ∀ e ∈ s.flashBusy, e.1 ≠ off) :
    readReg s (.flash off) = BitVec.ofNat 64 (s.readNat (mKey 292 (off / 4 * 4)) 4) := by
  have hb : ¬ (s.flashBusy.any fun e => e.1 == off) = true := by
    rw [List.any_eq_true]
    rintro ⟨e, he, heq⟩
    exact h e he (beq_iff_eq.mp heq)
  unfold readReg
  dsimp only
  rw [if_neg hb, if_pos (show off < flashSize from hl)]

/-! ### The aperture -/

/-- Where the aperture leads nowhere, or in ballast mode, an access reads zero and writes nothing (R362, R378). -/
theorem execApertureAccess_of_dropped {s : State} {off n : Nat} (ho : off + n ≤ 2 ^ 36) (hn : n ≤ 8)
    (h : 2 ≤ s.apTier ∨ s.bootState = 5) (write : Bool) (v : DWord) :
    execApertureAccess write off n v s = .next (if write then s else { s with hostData := 0 }) := by
  unfold execApertureAccess
  rw [if_neg (by omega), if_pos h]

/-- The state in which an aperture access reaches memory: ERRLOG.SECAP is set where it names a secure byte. -/
def apertureMarked (s : State) (off n : Nat) : State :=
  if ∃ k ∈ apertureKeys s off n, k.2 = true then s.logErr 0 else s

/-- The bytes that an aperture access may read or write. -/
def apertureBytes (s : State) (off n : Nat) : List Nat := ((apertureKeys s off n).filter fun k => !k.2).map (·.1)

section
variable {s : State} {off n : Nat} (ho : off + n ≤ 2 ^ 36) (hn : n ≤ 8) (ht : s.apTier < 2) (hb : s.bootState = 4)
  (hop : apertureOpen s off n = true)
include ho hn ht hb hop

/-- An aperture access that memory answers, whichever way it goes. -/
theorem execApertureAccess_of_open (write : Bool) (v : DWord) : execApertureAccess write off n v s =
    (if write then .next (extWrite (apertureMarked s off n) (hostWho (apertureMarked s off n))
        (((apertureKeys s off n).zip (bytesOfNat n v.toNat)).filterMap fun x => if x.1.2 then none else some (x.1.1, x.2)))
    else if (apertureKeys s off n).any fun k => !k.2 && s.poisoned k.1 then
      .next { (apertureMarked s off n).free.2 with hostData := Config.freeDWord (apertureMarked s off n).freeCtr }
    else
      let got := extRead (apertureMarked s off n) (hostWho (apertureMarked s off n)) (apertureBytes s off n)
      .next { got.2 with hostData := BitVec.ofNat 64 (natOfBytes
        ((apertureKeys s off n).map fun k => if k.2 then 0 else Tab.get 0 ((apertureBytes s off n).zip got.1) k.1)) }) := by
  have hm : apertureMarked s off n = if (apertureKeys s off n).any (·.2) then s.logErr 0 else s :=
    if_congr List.any_eq_true.symm rfl rfl
  unfold execApertureAccess
  rw [if_neg (by omega), if_neg (by omega), if_neg (by simp [hop]), hm]
  rfl

theorem execApertureAccess_write (v : DWord) : execApertureAccess true off n v s =
    .next (extWrite (apertureMarked s off n) (hostWho (apertureMarked s off n))
      (((apertureKeys s off n).zip (bytesOfNat n v.toNat)).filterMap fun x => if x.1.2 then none else some (x.1.1, x.2))) :=
  execApertureAccess_of_open ho hn ht hb hop true v

theorem execApertureAccess_read (v : DWord) (hp : ∀ k ∈ apertureKeys s off n, k.2 = false → s.poisoned k.1 = false) :
    let got := extRead (apertureMarked s off n) (hostWho (apertureMarked s off n)) (apertureBytes s off n)
    execApertureAccess false off n v s = .next { got.2 with hostData := BitVec.ofNat 64 (natOfBytes
      ((apertureKeys s off n).map fun k => if k.2 then 0 else Tab.get 0 ((apertureBytes s off n).zip got.1) k.1)) } := by
  have hclean : ¬ ((apertureKeys s off n).any fun k => !k.2 && s.poisoned k.1) = true := by
    simpa using hp
  exact (execApertureAccess_of_open ho hn ht hb hop false v).trans (if_neg hclean)

theorem execApertureAccess_read_poisoned (v : DWord) (hp : ∃ k ∈ apertureKeys s off n, k.2 = false ∧ s.poisoned k.1 = true) :
    execApertureAccess false off n v s =
      .next { (apertureMarked s off n).free.2 with hostData := Config.freeDWord (apertureMarked s off n).freeCtr } := by
  have hpois : ((apertureKeys s off n).any fun k => !k.2 && s.poisoned k.1) = true := by
    simpa using hp
  exact (execApertureAccess_of_open ho hn ht hb hop false v).trans (if_pos hpois)

end

/-! ### The obligation -/

/-- Settles O47: the laws of the registers, then of the flash window, then of the aperture. -/
theorem hostRegisterResults : Obligations.HostRegisterResults := by
  intro s
  refine ⟨fun _ => rfl, fun _ => rfl, fun _ => rfl, rfl, fun p hp => execPortstatRead_of_lt s hp,
    fun k hk => execDlstatRead_of_lt s hk, fun q => ⟨fun r hr => readReg_of_writeOnly s q hr, rfl, rfl, rfl, rfl, rfl, rfl⟩,
    fun _ => rfl, fun v => exec_registerWrite (writeReg_cethr s v), fun q v => ?queue, rfl,
    fun r v hr => exec_registerWrite (writeReg_of_readOnly s v hr), fun _ => rfl, execFlashctlWrite_eq s,
    fun off v hw ha hl => execFlashWindowWrite_of_we hw ha hl v, fun off v hw => execFlashWindowWrite_of_not_we hw off v,
    fun off e he => execFlashWriteComplete_of_busy he, fun off hl he => readReg_flash_of_idle hl he,
    fun off n v ho hn hd => ⟨execApertureAccess_of_dropped ho hn hd true v, execApertureAccess_of_dropped ho hn hd false v⟩,
    fun off n v ho hn ht hb hop => ⟨execApertureAccess_write ho hn ht hb hop v, execApertureAccess_read ho hn ht hb hop v,
      execApertureAccess_read_poisoned ho hn ht hb hop v⟩⟩
  case queue =>
    refine ⟨exec_registerWrite (writeReg_trctl s q v), exec_registerWrite (writeReg_loghead s q v), fun he => ?_,
      fun he => exec_registerWrite (writeReg_trsize_of_enabled he v), queue_trLog_eq _, readReg_trctl s q, rfl, rfl, rfl, rfl⟩
    exact ⟨exec_registerWrite (writeReg_qbase_of_disabled he v), exec_registerWrite (writeReg_qctx_of_disabled he v),
      exec_registerWrite (writeReg_trsize_of_disabled he v)⟩

end Sys2Proof.Machine
end

section
/-! What has happened to the state when an issue makes its checks: results have landed (R136), errors in registers read are
corrected (R411). -/

namespace Sys2Proof.Machine

open Sys2Proof

/-! ### Results that land -/

/-- A group with the registers of another. -/
def Group.withRegsOf (h g : Group) : Group := { h with s := g.s, v := g.v, p := g.p, regErr := g.regErr, regFlaw := g.regFlaw }

theorem Group.write_frame (g : Group) (w : Wr) : (g.write w).withRegsOf g = g := by
  cases w with
  | s r x => rfl
  | v r m xs => rfl
  | p r m x =>
    unfold Group.write
    dsimp only
    split <;> rfl

theorem Group.writes_frame (g : Group) (ws : List Wr) : (g.writes ws).withRegsOf g = g := by
  induction ws generalizing g with
  | nil => rfl
  | cons w ws ih => exact (congrArg (·.withRegsOf g) (ih (g.write w))).trans (g.write_frame w)

@[simp] theorem Group.writes_chksb (g : Group) (ws : List Wr) : (g.writes ws).chksb = g.chksb :=
  (congrArg Group.chksb (g.writes_frame ws) :)

/-- What a read may see of outstanding operations are register writes. -/
theorem viewOps_frame (reads : List Ref) (os : List Op) (g : Group) (n : Nat) : (viewOps reads os g n).1.withRegsOf g = g := by
  induction os generalizing g n with
  | nil => rfl
  | cons o os ih => exact (congrArg (·.withRegsOf g) (ih _ _)).trans (g.writes_frame _)

@[simp] theorem Fix.land_chksb (e : Fix) (g : Group) : (e.land g).chksb = g.chksb := by
  unfold Fix.land
  cases e.ti <;> exact g.writes_chksb e.wrs

theorem landFixes_chksb (t : Nat) (es kept : List Fix) (g : Group) : (landFixes t es kept g).chksb = g.chksb := by
  induction es generalizing kept g with
  | nil => rfl
  | cons e es ih =>
    unfold landFixes
    split
    · rw [ih, Fix.land_chksb]
    · exact ih _ g

/-- What has landed is gone: the results that a group still has on their way are readable later. -/
theorem landFixes_fixes_late {t : Nat} (es : List Fix) {kept : List Fix} (g : Group) (hk : ∀ e ∈ kept, t < e.ready) :
    ∀ e ∈ (landFixes t es kept g).fixes, t < e.ready := by
  induction es generalizing kept g with
  | nil => exact hk
  | cons e es ih =>
    unfold landFixes
    split
    · refine ih _ fun x hx => ?_
      obtain ⟨y, hy, rfl⟩ := List.mem_map.mp hx
      exact hk y hy
    · rename_i he
      refine ih g fun x hx => ?_
      rcases List.mem_append.mp hx with hx | hx
      · exact hk x hx
      · rw [List.mem_singleton.mp hx]
        exact Nat.lt_of_not_le he

@[simp] theorem Group.land_chksb (g : Group) (t : Nat) : (g.land t).chksb = g.chksb := landFixes_chksb t g.fixes [] g

theorem Group.land_fixes_late (g : Group) (t : Nat) : ∀ e ∈ (g.land t).fixes, t < e.ready :=
  landFixes_fixes_late g.fixes g fun _ he => nomatch he

@[simp] theorem viewOps_fixes (reads : List Ref) (os : List Op) (g : Group) (n : Nat) : (viewOps reads os g n).1.fixes = g.fixes :=
  (congrArg Group.fixes (viewOps_frame reads os g n) :)

@[simp] theorem viewOps_chksb (reads : List Ref) (os : List Op) (g : Group) (n : Nat) : (viewOps reads os g n).1.chksb = g.chksb :=
  (congrArg Group.chksb (viewOps_frame reads os g n) :)

/-! ### Corrected errors (R411) -/

theorem foldl_corrected {α : Type} (xs : List α) (s : State) :
    ∃ c e, xs.foldl (fun (s : State) _ => s.corrected) s = { s with ceCnt := c, errLog := e } := by
  induction xs generalizing s with
  | nil => exact ⟨_, _, rfl⟩
  | cons x xs ih =>
    obtain ⟨c, e, h⟩ := ih s.corrected
    exact ⟨c, e, h⟩

/-- A group with some of its registers' errors gone. -/
def Group.cleared (p : Nat × Nat → Bool) (g : Group) : Group := { g with regFlaw := g.regFlaw.filter p }

/-- A workgroup with some errors of its spool processor's registers gone. -/
def Wg.cleared (p : Nat → Bool) (w : Wg) : Wg := { w with spool := w.spool.map fun q => { q with regFlaw := q.regFlaw.filter p } }

theorem correctRegs_cases (s : State) (key : Nat) (rs : List Ref) (reads : Ref → Nat → Bool) :
    correctRegs s key rs reads = s ∨
    ∃ p c e, correctRegs s key rs reads = { s.modGroup key (Group.cleared p) with ceCnt := c, errLog := e } := by
  unfold correctRegs
  split
  · exact .inl rfl
  · dsimp only
    split
    · obtain ⟨c, e, h⟩ := foldl_corrected _ _
      exact .inr ⟨_, c, e, h⟩
    · exact .inl rfl

theorem correctSpool_cases (s : State) (wid : Nat) (rs : List Ref) : correctSpool s wid rs = s ∨
    ∃ p c e, correctSpool s wid rs = { s.modWg wid (Wg.cleared p) with ceCnt := c, errLog := e } := by
  unfold correctSpool
  split
  · exact .inl rfl
  · dsimp only
    split
    · obtain ⟨c, e, h⟩ := foldl_corrected _ _
      exact .inr ⟨_, c, e, h⟩
    · exact .inl rfl

theorem correctRegs_frame (s : State) (key : Nat) (rs : List Ref) (reads : Ref → Nat → Bool) :
    { correctRegs s key rs reads with groups := s.groups, ceCnt := s.ceCnt, errLog := s.errLog } = s := by
  obtain h | ⟨p, c, e, h⟩ := correctRegs_cases s key rs reads
  · rw [h]
  · rw [h]; rfl

theorem correctRegs_group_of_ne (s : State) {key j : Nat} (rs : List Ref) (reads : Ref → Nat → Bool) (hj : j ≠ key) :
    (correctRegs s key rs reads).group? j = s.group? j := by
  obtain h | ⟨p, c, e, h⟩ := correctRegs_cases s key rs reads <;> rw [h]
  exact State.modGroup_group_of_ne s _ hj

theorem correctRegs_group_self {s : State} {key : Nat} {g : Group} (hg : s.group? key = some g) (rs : List Ref)
    (reads : Ref → Nat → Bool) : ∃ x, (correctRegs s key rs reads).group? key = some x ∧ { x with regFlaw := g.regFlaw } = g := by
  obtain h | ⟨p, c, e, h⟩ := correctRegs_cases s key rs reads <;> rw [h]
  · exact ⟨g, hg, rfl⟩
  · exact ⟨g.cleared p, (State.modGroup_group_self s key _).trans (congrArg _ hg), rfl⟩

theorem correctSpool_frame (s : State) (wid : Nat) (rs : List Ref) :
    { correctSpool s wid rs with wgs := s.wgs, ceCnt := s.ceCnt, errLog := s.errLog } = s := by
  obtain h | ⟨p, c, e, h⟩ := correctSpool_cases s wid rs
  · rw [h]
  · rw [h]; rfl

theorem correctSpool_wg {s : State} {j : Nat} {x : Wg} (hx : s.wg? j = some x) (wid : Nat) (rs : List Ref) :
    ∃ y, (correctSpool s wid rs).wg? j = some y ∧ { y with spool := x.spool } = x ∧
      ∀ p, x.spool = some p → ∃ q, y.spool = some q ∧ { q with regFlaw := p.regFlaw } = p := by
  have unchanged : { x with spool := x.spool } = x ∧ ∀ p, x.spool = some p → ∃ q, x.spool = some q ∧ { q with regFlaw := p.regFlaw } = p :=
    ⟨rfl, fun p hp => ⟨p, hp, rfl⟩⟩
  obtain h | ⟨pr, c, e, h⟩ := correctSpool_cases s wid rs <;> rw [h]
  · exact ⟨x, hx, unchanged⟩
  · by_cases hj : j = wid
    · subst hj
      exact ⟨x.cleared pr, (State.modWg_wg_self s j _).trans (congrArg _ hx), rfl, fun p hp => ⟨_, congrArg (Option.map _) hp, rfl⟩⟩
    · exact ⟨x, (State.modWg_wg_of_ne s _ hj).trans hx, unchanged⟩

/-! ### The context of an issue -/

/-- The stall-count bit and the results on their way that a split's issue goes by are its group's, once what is readable has landed. -/
theorem mkCx_group_view {s : State} {c sl k : Nat} {i : Instr} {cx : Cx} {s1 : State} (h : mkCx s (.group c sl k) i = some (cx, s1)) :
    ∃ g, s.group? (gKey c sl) = some g ∧ cx.g.chksb = g.chksb ∧ cx.g.fixes = (g.land s.clock).fixes := by
  unfold mkCx at h
  split at h
  · cases h
  · cases h
  · rename_i hag
    cases hag
    split at h
    · cases h
    · rename_i g0 hg
      split at h
      · split at h
        · simp only [Option.some.injEq, Prod.mk.injEq] at h
          obtain ⟨rfl, -⟩ := h
          exact ⟨g0, hg, by simp, by simp⟩
        · cases h
      · cases h
  · rename_i hag
    cases hag

/-- A spool processor has no results on their way, and no stall-count check. -/
theorem mkCx_spool_view {s : State} {w : Nat} {i : Instr} {cx : Cx} {s1 : State} (h : mkCx s (.spool w) i = some (cx, s1)) :
    cx.g.chksb = false ∧ cx.g.fixes = [] := by
  unfold mkCx at h
  split at h
  · cases h
  · cases h
  · rename_i hag
    cases hag
  · split at h
    · cases h
    · split at h
      · split at h
        · simp only [Option.some.injEq, Prod.mk.injEq] at h
          obtain ⟨rfl, -⟩ := h
          exact ⟨rfl, rfl⟩
        · cases h
      · cases h

theorem mkCx_agent_none (s : State) (i : Instr) : mkCx s .none i = none := by
  unfold mkCx
  cases enc i <;> rfl

/-- Every result still on its way at an issue is readable later. -/
theorem mkCx_fixes_late {s : State} {ag : Agent} {i : Instr} {cx : Cx} {s1 : State} (h : mkCx s ag i = some (cx, s1)) :
    ∀ e ∈ cx.g.fixes, s.clock < e.ready := by
  cases ag with
  | none => rw [mkCx_agent_none] at h; cases h
  | group c sl k =>
    obtain ⟨g, -, -, hf⟩ := mkCx_group_view h
    rw [hf]
    exact g.land_fixes_late s.clock
  | spool w =>
    rw [(mkCx_spool_view h).2]
    exact fun _ he => nomatch he

/-- What differs between the states before an issue and at its checks: results have landed in the issuing group, and errors in
registers have been corrected. -/
structure OnlyLanded (s : State) (cx : Cx) (s1 : State) : Prop where
  rest : { s1 with groups := s.groups, wgs := s.wgs, freeCtr := s.freeCtr, ceCnt := s.ceCnt, errLog := s.errLog } = s
  groups : ∀ k, k ≠ cx.gk ∨ cx.onSpool = true → s1.group? k = s.group? k
  ofGroup : cx.onSpool = false → s1.wgs = s.wgs ∧ ∀ g, s.group? cx.gk = some g → cx.g.chksb = g.chksb ∧
    ∃ h, s1.group? cx.gk = some h ∧ { h with regFlaw := (g.land s.clock).regFlaw } = g.land s.clock
  wgs : ∀ w x, s.wg? w = some x → ∃ y, s1.wg? w = some y ∧ { y with spool := x.spool } = x ∧
    ∀ p, x.spool = some p → ∃ q, y.spool = some q ∧ { q with regFlaw := p.regFlaw } = p

theorem mkCx_group_onlyLanded {s : State} {c sl k : Nat} {i : Instr} {cx : Cx} {s1 : State}
    (h : mkCx s (.group c sl k) i = some (cx, s1)) : OnlyLanded s cx s1 := by
  obtain ⟨-, -, hag, hgk, -, g0, n, hg0, -, -, -, -, rs, rfl⟩ := mkCx_group h
  obtain ⟨g1, hg1, hchk, -⟩ := mkCx_group_view h
  obtain rfl : g1 = g0 := Option.some.inj (hg1.symm.trans hg0)
  have hsp : cx.onSpool = false := by rw [Cx.onSpool, hag]
  let s0 : State := { s.setGroup (gKey c sl) (g1.land s.clock) with freeCtr := n }
  have hframe : { correctRegs s0 (gKey c sl) rs cx.readsLane with
      groups := s0.groups, ceCnt := s0.ceCnt, errLog := s0.errLog } = s0 := correctRegs_frame s0 _ rs _
  have hwgs : (correctRegs s0 (gKey c sl) rs cx.readsLane).wgs = s.wgs := (congrArg State.wgs hframe :)
  refine ⟨?rest, ?groups, fun _ => ⟨hwgs, ?own⟩, fun w x hx => ⟨x, ?_, rfl, fun p hp => ⟨p, hp, rfl⟩⟩⟩
  case rest => exact (congrArg (fun t : State => { t with groups := s.groups, freeCtr := s.freeCtr, wgs := s.wgs }) hframe :)
  case groups =>
    rintro j (hj | hj)
    · rw [hgk] at hj
      exact (correctRegs_group_of_ne s0 rs _ hj).trans (State.setGroup_group_of_ne s _ hj)
    · simp [hsp] at hj
  case own =>
    rw [hgk]
    intro g hg
    obtain rfl : g = g1 := Option.some.inj (hg.symm.trans hg0)
    exact ⟨hchk, correctRegs_group_self (show s0.group? _ = _ from State.setGroup_group_self s _ _) rs _⟩
  · rw [State.wg?, hwgs]
    exact hx

theorem mkCx_spool_onlyLanded {s : State} {w : Nat} {i : Instr} {cx : Cx} {s1 : State}
    (h : mkCx s (.spool w) i = some (cx, s1)) : OnlyLanded s cx s1 := by
  obtain ⟨-, -, hag, -, -, -, -, rfl⟩ := mkCx_spool h
  have hsp : cx.onSpool = true := by rw [Cx.onSpool, hag]
  have hframe := correctSpool_frame s w (readRefs i)
  have hgroups : (correctSpool s w (readRefs i)).groups = s.groups := (congrArg State.groups hframe :)
  refine ⟨?rest, fun j _ => ?groups, fun hn => ?_, fun j x hx => correctSpool_wg hx w _⟩
  case rest => exact (congrArg (fun t : State => { t with groups := s.groups, freeCtr := s.freeCtr }) hframe :)
  case groups => rw [State.group?, hgroups, State.group?]
  · simp [hsp] at hn

theorem mkCx_onlyLanded {s : State} {ag : Agent} {i : Instr} {cx : Cx} {s1 : State} (h : mkCx s ag i = some (cx, s1)) :
    OnlyLanded s cx s1 := by
  cases ag with
  | none => rw [mkCx_agent_none] at h; cases h
  | group c sl k => exact mkCx_group_onlyLanded h
  | spool w => exact mkCx_spool_onlyLanded h

end Sys2Proof.Machine
end

section
/-! The checks of an issue and the stall-count check (R384, R385), and the registers read. -/

namespace Sys2Proof.Machine

open Sys2Proof

/-! ### The checks of an issue, in their order (R384) -/

section
variable {i : Instr} {s : State} {cx : Cx} {s1 : State} (hm : mkCx s s.cur i = some (cx, s1)) (body : Cx → State → Eff)
include hm

theorem issue_of_stallTrap {t : Trap} (ht : stallTrap s1 cx = some t) : issue i s body = .next (raise s1 cx.ag t) := by
  simp [issue, hm, ht]

theorem issue_of_role (ht : stallTrap s1 cx = none) (hr : roleAdmits cx = false) :
    issue i s body = .next (raise s1 cx.ag (cx.trap 0x0004 (BitVec.ofNat 64 cx.role))) := by
  simp [issue, hm, ht, hr]

theorem issue_of_det (ht : stallTrap s1 cx = none) (hr : roleAdmits cx = true) (hd : detForbids cx = true) :
    issue i s body = .next (raise s1 cx.ag (cx.trap 0x000E 0)) := by
  simp [issue, hm, ht, hr, hd]

theorem issue_of_held (ht : stallTrap s1 cx = none) (hr : roleAdmits cx = true) (hd : detForbids cx = false)
    (hh : held s1 cx = true) : issue i s body = .next (setBlock s1 cx.ag 2) := by
  simp [issue, hm, ht, hr, hd, hh]

end

theorem outcome_next (s : State) (cx : Cx) (e : Eff) : ∃ t, outcome s cx e = .next t := by
  cases e with
  | done s2 => exact ⟨_, rfl⟩
  | jump s2 => exact ⟨_, rfl⟩
  | wait s2 => exact ⟨_, rfl⟩
  | trap t =>
    unfold outcome
    dsimp only
    split
    · exact ⟨_, rfl⟩
    · split <;> exact ⟨_, rfl⟩

theorem finish_next (s : State) (cx : Cx) (e : Eff) : ∃ t, finish s cx e = .next t := by
  unfold finish
  split
  · exact outcome_next s cx e
  · split
    · exact outcome_next s cx e
    · exact ⟨_, rfl⟩

theorem issue_next {i : Instr} {s : State} {cx : Cx} {s1 : State} (hm : mkCx s s.cur i = some (cx, s1)) (body : Cx → State → Eff) :
    ∃ t, issue i s body = .next t := by
  unfold issue
  rw [hm]
  dsimp only
  split
  · exact ⟨_, rfl⟩
  · split
    · exact ⟨_, rfl⟩
    · split
      · exact ⟨_, rfl⟩
      · split
        · exact ⟨_, rfl⟩
        · exact finish_next s1 cx _

/-! ### The stall-count check (R385) -/

/-- A register holds a result of the issuing split that is on its way, or has a write of that split outstanding. -/
def Cx.awaits (s : State) (cx : Cx) (r : Ref) : Prop :=
  (∃ e ∈ cx.g.fixes, e.split = cx.k ∧ ∃ w ∈ e.wrs, w.ref = r) ∨ ∃ o ∈ opsOf s cx.ag, o.split = cx.k ∧ r ∈ o.refs

theorem lateReg_isSome_iff (s : State) (cx : Cx) : (lateReg s cx).isSome = true ↔ ∃ r ∈ srcRefs s cx, cx.awaits s r := by
  rw [lateReg, List.isSome_findSome?, List.any_eq_true]
  refine exists_congr fun r => and_congr_right fun _ => ?_
  have hfix : (cx.g.fixes.find? fun e => e.split == cx.k && decide (r ∈ e.wrs.map Wr.ref)).isSome = true ↔
      ∃ e ∈ cx.g.fixes, e.split = cx.k ∧ ∃ w ∈ e.wrs, w.ref = r := by
    simp
  have hop : ((opsOf s cx.ag).find? fun o => o.split == cx.k && decide (r ∈ o.refs)).isSome = true ↔
      ∃ o ∈ opsOf s cx.ag, o.split = cx.k ∧ r ∈ o.refs := by
    simp
  rw [Cx.awaits, ← hfix, ← hop]
  split
  · rename_i h
    simp only [h, Option.isSome_some, true_or]
  · rename_i h
    rw [h]
    split
    · rename_i ho
      simp only [ho, Option.isSome_some, or_true]
    · rename_i ho
      simp only [ho, Option.isSome_none, or_self]

/-- Where results readable by now have landed, those on their way are readable later. -/
theorem mkCx_awaits_iff {s : State} {ag : Agent} {i : Instr} {cx : Cx} {s1 : State} (hm : mkCx s ag i = some (cx, s1)) (r : Ref) :
    cx.awaits s1 r ↔ (∃ e ∈ cx.g.fixes, e.split = cx.k ∧ s.clock < e.ready ∧ ∃ w ∈ e.wrs, w.ref = r) ∨
      ∃ o ∈ opsOf s1 cx.ag, o.split = cx.k ∧ r ∈ o.refs := by
  refine or_congr_left (exists_congr fun e => and_congr_right fun he => and_congr_right fun _ => ?_)
  exact (and_iff_right (mkCx_fixes_late hm e he)).symm

theorem stallTrap_isSome_iff (s : State) (cx : Cx) :
    (stallTrap s cx).isSome = true ↔ cx.sp.again ≠ 2 ∧ cx.g.chksb = true ∧ (lateReg s cx).isSome = true := by
  unfold stallTrap
  by_cases ha : cx.sp.again = 2 <;> by_cases hc : cx.g.chksb = true <;> simp [ha, hc]

theorem stallTrap_some {s : State} {cx : Cx} {t : Trap} (h : stallTrap s cx = some t) : t.cause = 3 ∧ t.addr = cx.cl.at_ := by
  unfold stallTrap at h
  split at h
  · cases h
  · obtain ⟨x, -, rfl⟩ := Option.map_eq_some_iff.mp h
    exact ⟨rfl, rfl⟩

theorem stallTrap_of_unchecked {s : State} {cx : Cx} (h : cx.g.chksb = false) : stallTrap s cx = none := if_pos (by simp [h])

theorem stallTrap_of_retried {s : State} {cx : Cx} (h : cx.sp.again = 2) : stallTrap s cx = none := if_pos (by simp [h])

/-- A retried instruction is held until its register is readable (R394, log 64). -/
theorem held_of_retried {s : State} {cx : Cx} (h : cx.sp.again = 2) (hl : (lateReg s cx).isSome = true) : held s cx = true := by
  simp [held, h, hl]

/-! ### The registers read -/

theorem sRefs_ne_p {x n k : Nat} {r : Ref} (h : r ∈ sRefs x n) : r ≠ .p k := by
  obtain ⟨j, -, rfl⟩ := List.mem_map.mp h
  exact Ref.noConfusion

theorem p_not_mem_unread (i : Instr) (n : Nat) : Ref.p n ∉ unread i := by
  unfold unread
  split
  · exact fun h => sRefs_ne_p h rfl
  · exact List.not_mem_nil

/-- The guard of an instruction is among the registers that it reads. -/
theorem guard_mem_readRefs {i : Instr} {f : Fld} {r : Row} (he : enc i = some (f, r)) (hg : f.g ≠ 0) (ho : r.op ≠ 0)
    (hr : r.guarded = true) : Ref.p f.g.toNat ∈ readRefs i := by
  have h0 : f.g.toNat ≠ 0 := fun h => hg (BitVec.eq_of_toNat_eq h)
  have hcond : (r.guarded && f.g != 0 && r.op != 0) = true := by rw [hr, bne_iff_ne.mpr hg, bne_iff_ne.mpr ho]; rfl
  unfold readRefs
  rw [he]
  refine List.mem_filter.mpr ⟨List.mem_append_right _ ?_, by simp [h0, p_not_mem_unread]⟩
  rw [if_pos hcond]
  exact List.mem_singleton.mpr rfl

/-! ### The obligation -/

/-- Settles O56: what has landed at the checks, each check by its law, and when the stall-count check finds something. -/
theorem issueChecksInOrder : Obligations.IssueChecksInOrder := by
  intro i s hi
  obtain ⟨body, hbody⟩ := exec_issues i hi
  simp only [hbody]
  refine ⟨fun h => by simp [issue, h], fun cx s1 hm => ?_⟩
  obtain ⟨he, hci, -⟩ := mkCx_row hm
  have hl := mkCx_onlyLanded hm
  refine ⟨⟨hl.rest, hl.groups, hl.ofGroup, hl.wgs⟩, fun t => issue_of_stallTrap hm body, issue_of_role hm body, issue_of_det hm body,
    issue_of_held hm body, issue_next hm body, ?stall, stallTrap_of_unchecked,
    fun ha h => ⟨stallTrap_of_retried ha, held_of_retried ha h⟩, fun r hr => ?_, guard_mem_readRefs he⟩
  case stall =>
    have hiff (t : Trap) : (t.cause = 3 ∧ t.addr = cx.cl.at_ ∧ stallTrap s1 cx = some t) ↔ stallTrap s1 cx = some t :=
      ⟨fun h => h.2.2, fun h => ⟨(stallTrap_some h).1, (stallTrap_some h).2, h⟩⟩
    simp only [hiff, ← Option.isSome_iff_exists, stallTrap_isSome_iff, lateReg_isSome_iff, mkCx_awaits_iff hm]
  · rw [srcRefs, hci]
    exact List.mem_append_left _ hr

end Sys2Proof.Machine
end

section
/-! The start of a clause, the end of a hold, and what a clause that passes its check holds (R125, R382). -/

namespace Sys2Proof.Machine

open Sys2Proof

/-! ### Reaching a header -/

section
variable {s : State} {ag : Agent} {wid : Nat} {w : Wg} {l : Launch} {pc : DWord} (ha : agentWg s ag = some wid)
  (hw : s.wg? wid = some w) (hl : s.launch? w.lnch = some l)
include ha hw hl

theorem reachHeader_of_ok {c : Clause} {s1 : State}
    (hf : fetchClause s (whoFetch s ag w l) (kinfo l (isSpool ag)) pc = .ok (c, s1)) :
    reachHeader s ag pc = .next (setClause (forgetFar s1 ag) ag c) := by
  unfold reachHeader
  simp only [ha, hw, hl, hf]

/-- What a failed check or fetch comes to, while nothing that the agent has asked for is still to come. -/
theorem reachHeader_of_error {t : Trap} (hf : fetchClause s (whoFetch s ag w l) (kinfo l (isSpool ag)) pc = .error t)
    (hfar : ∀ o, farOp? s ag = some o → o.tags = [] ∧ o.fault = none) :
    reachHeader s ag pc = if t.late then .next (deferFar s ag wid w.lnch l.ctx.ns t)
      else if t.far.isEmpty then .next (raise (forgetFar s ag) ag t)
      else .next (askFar s ag wid w.lnch l.ctx.ns t) := by
  have hidle : ¬ ((farOp? s ag).any fun o => !o.tags.isEmpty || o.fault.isSome) = true := by
    cases ho : farOp? s ag with
    | none => simp
    | some o => simp [hfar o ho]
  unfold reachHeader
  simp only [ha, hw, hl, hf]
  rw [if_neg hidle]

end

/-! ### CLAUSE_START and ISSUE_HOLD_RELEASE -/

theorem execClauseStart_of_header {s : State} {ag : Agent} {pc : DWord} {nb : Nat} (hm : mayStart s ag = true)
    (hh : headerOf s ag = some (pc, nb)) (hc : clauseOf s ag = none) : execClauseStart ag s = reachHeader s ag pc := by
  simp [execClauseStart, hm, hh, hc]

theorem execClauseStart_of_ready {s : State} {ag : Agent} {pc : DWord} {nb b : Nat} {c : Clause} (hm : mayStart s ag = true)
    (hh : headerOf s ag = some (pc, nb)) (hc : clauseOf s ag = some (c, b)) (hs : c.started = false) (hn : nb ≤ s.clock)
    (hr : headerReady s ag c = true) :
    execClauseStart ag s = .next (setClause (startHears s ag c.hdr) ag { c with started := true, base := s.clock }) := by
  simp [execClauseStart, hm, hh, hc, hs, Nat.not_lt.mpr hn, hr]

theorem execIssueHoldRelease_of_free {s : State} {ag : Agent} {c : Clause} (hc : clauseOf s ag = some (c, 2))
    (hh : nextHeld s ag c = false) (hb : agentHeldBack s ag = false) : execIssueHoldRelease ag s = .next (setBlock s ag 0) := by
  simp [execIssueHoldRelease, hc, hh, hb]

/-! ### What a clause that passes its check holds (R382) -/

theorem checkClause_ok {k : KInfo} {pc hdr : DWord} {ps : List Word} {c : Clause} (h : checkClause k pc hdr ps = .ok c) :
    c.hdr = hdr ∧ c.at_ = pc + 8 ∧ c.idx = 0 ∧ c.rest = ps := by
  unfold checkClause at h
  dsimp only at h
  split at h
  · cases h
  · split at h
    · cases h
    · split at h
      · cases h
      · split at h
        · cases h
        · cases h
          exact ⟨rfl, rfl, rfl, rfl⟩

theorem fetchClause_ok {s s1 : State} {w : Who} {k : KInfo} {pc : DWord} {c : Clause} (h : fetchClause s w k pc = .ok (c, s1)) :
    ∃ hb s2 bs, readPlain s w .fetch pc 8 4 = .ok (hb, s2) ∧
      readPlain s2 w .fetch (pc + 8) (4 * pcntOf (BitVec.ofNat 64 (natOfBytes hb))) 4 = .ok (bs, s1) ∧
      checkClause k pc (BitVec.ofNat 64 (natOfBytes hb)) ((List.range (pcntOf (BitVec.ofNat 64 (natOfBytes hb)))).map fun i =>
        BitVec.ofNat 32 (natOfBytes ((bs.drop (4 * i)).take 4))) = .ok c := by
  unfold fetchClause at h
  dsimp only at h
  split at h
  · cases h
  · rename_i hb s2 hhdr
    split at h
    · cases h
    · split at h
      · cases h
      · rename_i bs s3 hps
        split at h
        · cases h
        · rename_i hck
          cases h
          exact ⟨hb, s2, bs, hhdr, hps, hck⟩

/-- Settles O34: what CLAUSE_START and ISSUE_HOLD_RELEASE do in each case, and what the clause check gives. -/
theorem clauseResults : Obligations.ClauseResults := by
  refine ⟨fun s ag => ⟨?header, fun _ _ _ _ => execClauseStart_of_ready, fun _ => execIssueHoldRelease_of_free⟩, ?parcels⟩
  case header =>
    intro pc nb wid w l hm hh hc ha hw hl
    have hexec : exec (.clauseStart ag) s = reachHeader s ag pc := execClauseStart_of_header hm hh hc
    refine ⟨fun c s1 hf => hexec.trans (reachHeader_of_ok ha hw hl hf), fun t hf hfar => ?_⟩
    rw [hexec, reachHeader_of_error ha hw hl hf hfar]
    exact ⟨fun h1 h2 => by simp [h1, h2], fun h1 h2 => by simp [h1, h2], fun h1 => by simp [h1]⟩
  case parcels =>
    intro s s1 w k pc c h
    obtain ⟨hb, s2, bs, hhdr, hps, hck⟩ := fetchClause_ok h
    obtain ⟨hch, hat, hidx, hrest⟩ := checkClause_ok hck
    rw [← hch] at hps hrest
    exact ⟨hb, s2, bs, hhdr, hch, hps, hat, hidx, hrest⟩

end Sys2Proof.Machine
end

section
/-! EXIT: when a group is converged, and what it does then (R37, R162). -/

namespace Sys2Proof.Machine

open Sys2Proof

/-- A group is converged with one split in use, the whole launch mask in it, and nothing left to rejoin (R37). -/
theorem Group.converged_iff (g : Group) (k : Nat) : g.converged k = true ↔ (g.splits.filter (·.v)).length = 1 ∧
    (g.splits.getD k {}).mask = g.lmask ∧ (g.splits.getD k {}).n = 0 ∧ (∀ e ∈ g.joins, e.v = false) ∧ g.stack = [] ∧ g.stks = 0 := by
  have hjoins : g.joinsUsed = 0 ↔ ∀ e ∈ g.joins, e.v = false := by
    rw [Group.joinsUsed, List.length_eq_zero_iff, List.filter_eq_nil_iff]
    simp
  simp only [Group.converged, Group.splitsUsed, Bool.and_eq_true, beq_iff_eq, List.isEmpty_iff, hjoins]
  tauto

theorem exec_exit_diverged (f : Fld) : Traps (.exit f) (fun cx _ => cx.onSpool = false ∧ cx.g.converged cx.k = false)
    (fun cx _ => cx.trap 0x0005 (exitAux cx.g)) :=
  Traps.of_effect (fun _ => rfl) rfl (fun cx s _ _ _ ⟨hs, hc⟩ => by simp [hs, hc]) (fun _ _ => rfl) (fun _ _ => rfl)

/-- Settles O14: the effect of EXIT on the spool processor, in a converged and in a diverged group. -/
theorem exitResults : Obligations.ExitResults := by
  intro f
  refine ⟨Moves.of_effect (fun _ => rfl) rfl fun cx s _ _ _ hs => if_pos hs,
    Moves.of_effect (fun _ => rfl) rfl fun cx s _ _ _ ⟨hs, hc⟩ => ?_, exec_exit_diverged f, Group.converged_iff⟩
  simp only [hs, hc]
  rfl

end Sys2Proof.Machine
end

section
/-! JOIN and JOIN.T (R33, R34, R161), and the timers that run out (R35). -/

namespace Sys2Proof.Machine

open Sys2Proof

theorem pc56_eq_setWidth (a : DWord) : pc56 a = a.setWidth 56 := (BitVec.setWidth_eq_extractLsb' (by decide)).symm

/-! ### Where a JOIN stands -/

section
variable {cx : Cx} {s : State} (timer : Option Nat)

theorem joinBody_of_away (h : cx.sp.j ≠ some (cx.H.setWidth 56) ∨ (cx.sp.n = 0 ∧ 3 ≤ cx.sp.je)) : joinBody cx s timer = .done s := by
  unfold joinBody
  rw [pc56_eq_setWidth]
  rcases h with hj | ⟨hn, hje⟩
  · rw [if_pos hj]
  · simp [hn, hje]

theorem joinBody_of_here (hj : cx.sp.j = some (cx.H.setWidth 56)) (hn : cx.sp.n = 0) (hje : cx.sp.je < 3) :
    joinBody cx s timer = .jump ((joinHb s cx.gk cx.g cx.k).modGroup cx.gk fun g => g.arriveJoin cx.k timer) := by
  unfold joinBody
  rw [pc56_eq_setWidth, if_neg (not_not_intro hj), if_neg (by omega), if_neg (by omega)]

theorem joinBody_of_pop {e : StackEnt} {s2 : State} (hj : cx.sp.j = some (cx.H.setWidth 56)) (hn : 0 < cx.sp.n)
    (hp : popEnt s cx cx.k = .ok (some e, s2)) : joinBody cx s timer =
    .jump ((releases [] cx s2).modGroup cx.gk fun g => { g with splits := g.splits.modify cx.k fun x =>
      { x with pc := e.pc.setWidth 64, mask := e.mask, j := e.j, n := x.n - 1 } }) := by
  unfold joinBody
  rw [pc56_eq_setWidth, if_neg (not_not_intro hj), if_pos hn, hp]
  rfl

end

/-! ### Timers -/

theorem gKey_eq (c sl : Nat) : gKey c sl = 48 * c + sl := by rw [gKey, Nat.mul_comm]

/-- Time passes for a group whose workgroup is not frozen and whose core is not halted. -/
theorem stopped_eq_false {s : State} {c sl : Nat} {g : Group} (hsl : sl < 48) (hf : frozen s g.wg = false)
    (hh : (s.core c).halted = false) : stopped s (gKey c sl) g = false := by
  have hc : gKey c sl / 48 = c := by rw [gKey]; omega
  rw [stopped, hc, hf, hh]
  rfl

/-- No split of a group may arrive any more in this cycle: the group has issued, or every split waits. -/
theorem mayArrive_eq_false {s : State} {g : Group} (h : s.clock < g.issued ∨ ∀ x ∈ g.splits, x.v = true → x.st ≠ 0) :
    mayArrive s g = false := by
  rw [mayArrive, Bool.and_eq_false_iff]
  rcases h with h | h
  · exact .inl (decide_eq_false (by omega))
  · right
    simpa using h

theorem execJoinTimerExpiry_of_expired {s : State} {c sl k : Nat} {g : Group} (hg : s.group? (gKey c sl) = some g)
    (he : (g.splits.getD k {}).expired = true) (hs : stopped s (gKey c sl) g = false) (hm : mayArrive s g = false) :
    execJoinTimerExpiry (.group c sl k) s = .next ((expireHb s g g.expire).setGroup (gKey c sl) g.expire) := by
  simp only [execJoinTimerExpiry, hg, he, hs, hm]
  rfl

/-- Settles O13: the cases of a JOIN by its body's laws, and the timer that runs out. -/
theorem joinResults : Obligations.JoinResults := by
  intro f
  refine ⟨Does.of_effect (fun _ => rfl) rfl fun _ _ _ _ _ => joinBody_of_away none,
    Moves.of_effect (fun _ => rfl) rfl fun _ _ _ _ _ ⟨hj, hn, he⟩ => joinBody_of_here none hj hn he,
    Does.of_effect (fun _ => rfl) rfl fun _ _ _ _ _ => joinBody_of_away _,
    Moves.of_effect (fun _ => rfl) rfl fun _ _ _ _ _ ⟨hj, hn, he⟩ => joinBody_of_here _ hj hn he,
    fun s cx s1 e s2 hi hj hn hp => issue_jump hi (joinBody_of_pop none hj hn hp), ?timer⟩
  case timer =>
    intro s c sl k g hg hv hst ht hf hh hsl hm
    rw [← gKey_eq] at hg ⊢
    have he : (g.splits.getD k {}).expired = true := by rw [Split.expired, hv, hst, ht]; rfl
    exact execJoinTimerExpiry_of_expired hg he (stopped_eq_false hsl hf hh) (mayArrive_eq_false hm)

end Sys2Proof.Machine
end

section
/-! Separations: into the tables or onto the stack (R32, R36). -/

namespace Sys2Proof.Machine

open Sys2Proof

/-! ### A push -/

theorem pushEnt_of_room {s : State} {cx : Cx} {g : Group} (hg : s.group? cx.gk = some g) (hl : g.stack.length < 32) (e : StackEnt) :
    pushEnt s cx e = .ok (s.setGroup cx.gk { g with stack := g.stack ++ [e] }) := by
  simp only [pushEnt, hg, if_pos hl]

/-- With no room on the chip, a push past the end of the spill area is the stack overflow (R36, R381). -/
theorem pushEnt_of_overflow {s : State} {cx : Cx} {g : Group} (hg : s.group? cx.gk = some g) (hl : 32 ≤ g.stack.length)
    (hs : g.spillSize < 24 * (g.stks + 16)) (e : StackEnt) :
    pushEnt s cx e = .error (cx.trap 0x000F (BitVec.ofNat 64 (g.spillSize / 24 * 2 ^ 32))) := by
  simp only [pushEnt, hg, if_neg (Nat.not_lt.mpr hl), if_pos hs]

/-! ### One separation -/

theorem firstIdx_eq_none {α : Type} {v : α → Bool} {xs : List α} (h : ∀ x ∈ xs, v x = true) : firstIdx (fun x => !v x) xs = none := by
  rw [firstIdx, List.findIdx?_eq_none_iff]
  simpa using h

section
variable {s : State} {cx : Cx} {k : Nat} {g : Group} (hg : s.group? cx.gk = some g) (t r : Mask × BitVec 56) (jb : BitVec 56)
  (deferR : Bool)
include hg

/-- With a split and a join entry free, a split that is not divided on the stack separates in the tables. -/
theorem separate_of_free {k' e : Nat} (hk : firstIdx (fun x => !x.v) g.splits = some k')
    (he : firstIdx (fun (x : JoinEnt) => !x.v) g.joins = some e) (hn : (g.splits.getD k {}).n = 0) :
    let sp := g.splits.getD k {}
    separate s cx k t r jb deferR = .ok (splitHb (s.setGroup cx.gk { g with
      splits := (g.splits.set k { sp with pc := addr56 t.2, mask := t.1, j := some jb, je := e, age := 0, st := 0 }).set k'
        { v := true, pc := addr56 r.2, mask := r.1, j := some jb, je := e, notBefore := nextClauseAt s g cx.k false }
      joins := g.joins.set e ⟨true, jb, sp.mask, 0, sp.j, sp.je⟩ }) g k k', k') := by
  simp only [separate, hg, hk, he, if_pos hn]

/-- Where a table is full, or the split is divided on the stack already, it separates on the stack. -/
theorem separate_of_full (hfull : (∀ x ∈ g.splits, x.v = true) ∨ (∀ x ∈ g.joins, x.v = true) ∨ (g.splits.getD k {}).n ≠ 0) :
    separate s cx k t r jb deferR = separate.stackSep s cx k t r jb deferR g (g.splits.getD k {}) := by
  simp only [separate, hg]
  rcases hfull with h | h | h
  · rw [firstIdx_eq_none h]
  · rw [firstIdx_eq_none h]
    cases firstIdx (fun x => !x.v) g.splits <;> rfl
  · split
    · exact if_neg h
    · rfl

/-- The first of the two pushes takes the last place on the chip and the second overflows, or the first does (R36). -/
theorem separate_of_overflow (hfull : (∀ x ∈ g.splits, x.v = true) ∨ (∀ x ∈ g.joins, x.v = true) ∨ (g.splits.getD k {}).n ≠ 0)
    (hl : 31 ≤ g.stack.length) (hs : g.spillSize < 24 * (g.stks + 16)) :
    separate s cx k t r jb deferR = .error (cx.trap 0x000F (BitVec.ofNat 64 (g.spillSize / 24 * 2 ^ 32))) := by
  rw [separate_of_full hg t r jb deferR hfull, separate.stackSep]
  by_cases h32 : g.stack.length < 32
  · let pushed : Group := { g with stack := g.stack ++ [⟨jb, (g.splits.getD k {}).mask, (g.splits.getD k {}).j, k⟩] }
    have hlen : 32 ≤ pushed.stack.length := by simp [pushed]; omega
    rw [pushEnt_of_room hg h32]
    dsimp only
    rw [pushEnt_of_overflow (g := pushed) (State.setGroup_group_self s _ _) hlen hs]
  · rw [pushEnt_of_overflow hg (Nat.not_lt.mp h32) hs]

end

/-! ### The lanes that take a BRV -/

theorem one_shiftLeft_getLsbD {i : Nat} (hi : i < 64) (n : Nat) : (1#64 <<< n).getLsbD i = decide (i = n) := by
  rw [BitVec.getLsbD_shiftLeft, BitVec.getLsbD_one, Bool.eq_iff_iff]
  simp only [hi, decide_true, Bool.true_and, Bool.and_eq_true, Bool.not_eq_true', decide_eq_true_eq, decide_eq_false_iff_not]
  omega

theorem maskOf_getLsbD (p : Nat → Bool) {i : Nat} (hi : i < 64) : (maskOf p).getLsbD i = p i := by
  have hstep (m : Mask) (n : Nat) : (if p n then m ||| (1#64 <<< n) else m).getLsbD i = (m.getLsbD i || (p n && decide (i = n))) := by
    split <;> rename_i hp <;> simp [hp, one_shiftLeft_getLsbD hi]
  have hfold (n : Nat) : ((List.range n).foldl (fun m l => if p l then m ||| (1#64 <<< l) else m) 0#64).getLsbD i =
      (decide (i < n) && p i) := by
    induction n with
    | zero => simp
    | succ n ih =>
      rw [List.range_succ, List.foldl_append, List.foldl_cons, List.foldl_nil, hstep, ih]
      by_cases h : i = n
      · simp [h]
      · simp [h, show i < n + 1 ↔ i < n by omega]
  exact (hfold 64).trans (by simp [hi])

/-- The takers of a BRV are the lanes of the split in which its predicate, or with bit 3 of A its complement, holds. -/
theorem takers_eq (cx : Cx) : takers cx = cx.sp.mask &&&
    (if bit cx.f.a.toNat 3 then ~~~cx.g.rp (cx.f.a.toNat % 8) else cx.g.rp (cx.f.a.toNat % 8)) := by
  apply BitVec.eq_of_getLsbD_eq
  intro i hi
  rw [takers, maskOf_getLsbD _ hi, BitVec.getLsbD_and]
  cases bit cx.f.a.toNat 3 <;> simp [hi]

/-- No lane is left to the other side exactly where all are takers. -/
theorem and_not_and_eq_zero_iff (m q : Mask) : m &&& ~~~(m &&& q) = 0 ↔ m &&& q = m := by
  simp only [BitVec.eq_of_getElem_eq_iff, BitVec.getElem_and, BitVec.getElem_not, BitVec.ofNat_eq_ofNat, BitVec.getElem_zero]
  refine forall₂_congr fun i hi => ?_
  cases m[i] <;> cases q[i] <;> decide

/-! ### BRV -/

theorem addr56_setWidth (a : DWord) : addr56 (a.setWidth 56) = a % 2 ^ 56 := by rw [← pc56_eq_setWidth, addr56_pc56]

/-- The target of a BRV, and the join it opens (R157). -/
def brvTarget (cx : Cx) : DWord := target cx ((cx.f.lit.setWidth 16).signExtend 32)
def brvJoin (cx : Cx) : DWord := target cx (((cx.f.lit >>> 16).setWidth 16).signExtend 32)

/-- What a BRV does, by its takers. -/
def brvBody (cx : Cx) (s : State) : Eff :=
  if takers cx = 0 then .done s
  else if takers cx = cx.sp.mask then jumpTo s cx (brvTarget cx)
  else match targetOk s cx (brvTarget cx) with
    | some x => .trap x
    | none => match separate s cx cx.k (takers cx, pc56 (brvTarget cx)) (cx.sp.mask &&& ~~~takers cx, pc56 cx.next)
        (pc56 (brvJoin cx)) true with
      | .error x => .trap x
      | .ok (s1, _) => .jump s1

theorem signExtend_signExtend_64 (x : BitVec 16) : (x.signExtend 32).signExtend 64 = x.signExtend 64 := by
  apply BitVec.eq_of_toInt_eq
  simp [BitVec.toInt_signExtend_of_le]

theorem brvTarget_eq (cx : Cx) : brvTarget cx = offAddr cx.H ((cx.f.lit.extractLsb' 0 16).signExtend 64) := by
  rw [brvTarget, target, signExtend_signExtend_64, BitVec.setWidth_eq_extractLsb' (by decide), offAddr]

theorem brvJoin_eq (cx : Cx) : brvJoin cx = offAddr cx.H ((cx.f.lit.extractLsb' 16 16).signExtend 64) := by
  rw [brvJoin, target, signExtend_signExtend_64, BitVec.setWidth_ushiftRight_eq_extractLsb, offAddr]

theorem exec_brv (f : Fld) (s : State) : exec (.brv f) s = issue (.brv f) s brvBody := by
  refine congrArg (issue (.brv f) s) (funext₂ fun cx s => ?_)
  simp only [brvBody, brvTarget_eq, brvJoin_eq, ← and_not_and_eq_zero_iff, takers_eq] <;> rfl

section
variable {cx : Cx} {s : State} (h0 : takers cx ≠ 0)
include h0

theorem brvBody_of_all (hall : takers cx = cx.sp.mask) (ht : targetOk s cx (brvTarget cx) = none) :
    brvBody cx s = .jump (atAddr s cx (brvTarget cx)) := by
  rw [brvBody, if_neg h0, if_pos hall, jumpTo, ht, setPc_eq_atAddr]

theorem brvBody_of_badTarget {x : Trap} (ht : targetOk s cx (brvTarget cx) = some x) : brvBody cx s = .trap x := by
  rw [brvBody, if_neg h0, jumpTo, ht]
  exact ite_self _

theorem brvBody_of_divided (hne : takers cx ≠ cx.sp.mask) (ht : targetOk s cx (brvTarget cx) = none) :
    brvBody cx s = match separate s cx cx.k (takers cx, pc56 (brvTarget cx)) (cx.sp.mask &&& ~~~takers cx, pc56 cx.next)
        (pc56 (brvJoin cx)) true with
      | .error x => .trap x
      | .ok (s1, _) => .jump s1 := by
  rw [brvBody, if_neg h0, if_neg hne, ht]

end

/-- The fault of a transfer's target asks no peer module for bytes, and is raised at once. -/
theorem targetOk_some {s : State} {cx : Cx} {a : DWord} {x : Trap} (h : targetOk s cx a = some x) : x.far = [] ∧ x.late = false := by
  unfold targetOk at h
  split at h
  · split at h
    · cases h; exact ⟨rfl, rfl⟩
    · cases h
  · split at h
    · split at h
      · cases h; exact ⟨rfl, rfl⟩
      · cases h
    · cases h

/-! ### BRV in the tables and on the stack -/

section
variable {f : Fld} {s : State} {cx : Cx} {s1 : State} {g : Group} (hi : issuable (.brv f) s = some (cx, s1)) (h0 : takers cx ≠ 0)
  (hne : takers cx ≠ cx.sp.mask) (ht : targetOk s1 cx (brvTarget cx) = none) (hg : s1.group? cx.gk = some g)
include hi h0 hne ht hg

theorem exec_brv_of_free {k' e : Nat} (hk : firstIdx (fun x => !x.v) g.splits = some k')
    (he : firstIdx (fun (x : JoinEnt) => !x.v) g.joins = some e) (hn : (g.splits.getD cx.k {}).n = 0) :
    exec (.brv f) s = .next (moved (splitHb (s1.setGroup cx.gk
      (diverged g cx k' e (nextClauseAt s1 g cx.k false) (takers cx) (brvTarget cx) (brvJoin cx))) g cx.k k') cx) := by
  rw [exec_brv]
  apply issue_jump hi
  rw [brvBody_of_divided h0 hne ht, separate_of_free hg _ _ _ _ hk he hn]
  simp only [pc56_eq_setWidth, addr56_setWidth, diverged]

variable (hfull : (∀ x ∈ g.splits, x.v = true) ∨ (∀ x ∈ g.joins, x.v = true) ∨ (g.splits.getD cx.k {}).n ≠ 0)
include hfull

/-- Two pushes with room: the join and the others' path wait on the stack, and the split goes on with the takers. -/
theorem exec_brv_of_pushes (hmask : (g.splits.getD cx.k {}).mask = cx.sp.mask) {s2 s3 : State}
    (h2 : pushEnt s1 cx ⟨(brvJoin cx).setWidth 56, cx.sp.mask, (g.splits.getD cx.k {}).j, cx.k⟩ = .ok s2)
    (h3 : pushEnt s2 cx ⟨cx.next.setWidth 56, cx.sp.mask &&& ~~~takers cx, some ((brvJoin cx).setWidth 56), cx.k⟩ = .ok s3) :
    exec (.brv f) s = .next (moved (s3.modGroup cx.gk fun y => { y with splits := y.splits.modify cx.k fun x =>
      { x with pc := brvTarget cx % 2 ^ 56, mask := takers cx, j := some ((brvJoin cx).setWidth 56), n := x.n + 2 } }) cx) := by
  rw [exec_brv]
  apply issue_jump hi
  rw [brvBody_of_divided h0 hne ht, separate_of_full hg _ _ _ _ hfull, separate.stackSep, hmask]
  simp only [if_true, pc56_eq_setWidth, addr56_setWidth, h2, h3]
  rfl

theorem exec_brv_of_overflow (hl : 31 ≤ g.stack.length) (hs : g.spillSize < 24 * (g.stks + 16)) :
    exec (.brv f) s = .next (trappedAt s1 cx (cx.trap 0x000F (BitVec.ofNat 64 (g.spillSize / 24 * 2 ^ 32)))) := by
  rw [exec_brv]
  refine issue_trap hi ?_ rfl rfl
  rw [brvBody_of_divided h0 hne ht, separate_of_overflow hg _ _ _ _ hfull hl hs]

end

end Sys2Proof.Machine
end

section
/-! Branch tables: BRX and CALLX (R158 to R160). -/

namespace Sys2Proof.Machine

open Sys2Proof

/-- The lowest lane of a mask that a test admits. -/
theorem find?_lanesIn {m : Mask} {p : Nat → Bool} {l : Nat} (hl : l ∈ lanesIn m) (hp : p l = true)
    (hlow : ∀ k ∈ lanesIn m, k < l → p k = false) : (lanesIn m).find? p = some l := by
  rw [lanesIn, List.mem_filter, List.mem_range] at hl
  rw [lanesIn, List.find?_filter, List.find?_range_eq_some]
  refine ⟨by simp [hl.2, hp], List.mem_range.mpr hl.1, fun k hk => ?_⟩
  by_cases hkm : m.getLsbD k = true
  · have hmem : k ∈ lanesIn m := List.mem_filter.mpr ⟨List.mem_range.mpr (hk.trans hl.1), hkm⟩
    simp [hlow k hmem hk]
  · simp [hkm]

/-- A header of a branch table is sound: 1 to 4,096 entries, and bits 31 to 16 zero (R158). -/
def soundHeader (h : Nat) : Prop := 1 ≤ h % 2 ^ 16 ∧ h % 2 ^ 16 ≤ 4096 ∧ h / 2 ^ 16 % 2 ^ 16 = 0

theorem bits_zero (x n : Nat) : bits x 0 n = x % 2 ^ n := by rw [bits, Nat.pow_zero, Nat.div_one]

theorem soundHeader_iff (h : Nat) : soundHeader h ↔ ¬ (bits h 0 16 = 0 ∨ 4096 < bits h 0 16 ∨ bits h 16 16 ≠ 0) := by
  rw [soundHeader, bits_zero, bits]
  omega

/-- AUX of a bad branch table or index (R381): the index, and the count of the header. -/
def tableAux (h x : Nat) : DWord := BitVec.ofNat 64 (x + h % 2 ^ 16 * 2 ^ 32)

section
variable {cx : Cx} {s : State} {hb : List Byte} {s2 : State} (hread : readPlain s cx.who .table (cx.g.rs2 cx.f.a.toNat) 8 8 = .ok (hb, s2))
include hread

theorem brxBody_of_unsound (h : ¬ soundHeader (natOfBytes hb)) :
    brxBody cx s = .trap (cx.trap 0x0006 (tableAux (natOfBytes hb) 0xFFFFFFFF)) := by
  rw [soundHeader_iff, not_not] at h
  simp only [brxBody, hread, if_pos h]
  rw [bits_zero]
  rfl

variable (h : soundHeader (natOfBytes hb))
include h

theorem brxBody_of_index {l : Nat} (hl : l ∈ lanesIn cx.sp.mask) (hx : natOfBytes hb % 2 ^ 16 ≤ cx.b32 l)
    (hlow : ∀ k ∈ lanesIn cx.sp.mask, k < l → cx.b32 k < natOfBytes hb % 2 ^ 16) :
    brxBody cx s = .trap (cx.trap 0x0006 (tableAux (natOfBytes hb) (cx.b32 l % 2 ^ 32))) := by
  rw [soundHeader_iff] at h
  have hfind : (lanesIn cx.sp.mask).find? (fun l => bits (natOfBytes hb) 0 16 ≤ cx.b32 l) = some l :=
    find?_lanesIn hl (by simpa [bits_zero] using hx) fun k hk hkl => by simpa [bits_zero] using hlow k hk hkl
  simp only [brxBody, hread, if_neg h, hfind]
  rw [bits_zero, tableAux]

/-- The join that a table opens: its address, four times its offset on (R158). -/
def tableJoin (tab : DWord) (h : Nat) : BitVec 56 := pc56 (tab + 4 * (BitVec.ofNat 32 (h / 2 ^ 32)).signExtend 64)

theorem brxBody_of_targets (hx : ∀ l ∈ lanesIn cx.sp.mask, cx.b32 l < natOfBytes hb % 2 ^ 16) {ts : List (Mask × DWord)} {s3 s4 : State}
    (hts : tableTargets s2 cx (cx.g.rs2 cx.f.a.toNat) (byIndex cx) = .ok (ts, s3))
    (hsep : separateAll s3 cx (tableJoin (cx.g.rs2 cx.f.a.toNat) (natOfBytes hb)) cx.k ts = .ok s4) : brxBody cx s = .jump s4 := by
  rw [soundHeader_iff] at h
  have hfind : (lanesIn cx.sp.mask).find? (fun l => bits (natOfBytes hb) 0 16 ≤ cx.b32 l) = none := by
    rw [List.find?_eq_none]
    intro l hl
    simpa [bits_zero] using hx l hl
  have hofs : BitVec.ofNat 32 (bits (natOfBytes hb) 32 32) = BitVec.ofNat 32 (natOfBytes hb / 2 ^ 32) := by
    apply BitVec.eq_of_toNat_eq
    rw [bits, BitVec.toNat_ofNat, BitVec.toNat_ofNat, Nat.mod_mod]
  simp only [tableJoin] at hsep
  simp only [brxBody, hread, if_neg h, hfind, hts, hofs, offAddr, hsep]

end

/-- CALLX branches as BRX in a state in which the next header's address is on its way to D (R160). -/
theorem exec_callx {f : Fld} {s : State} {cx : Cx} {s1 : State} (hi : issuable (.callx f) s = some (cx, s1)) :
    exec (.callx f) s = outcome s1 cx (brxBody cx (fixAfter 2 s1 cx (sWrite 10 cx.f.d.toNat cx.next.toNat))) := by
  obtain ⟨-, hr, -⟩ := issuable_row (i := .callx f) rfl hi
  have hlat : latOf cx = 2 := by rw [latOf, hr]
  exact (issue_outcome hi _).trans (congrArg (fun t => outcome s1 cx (brxBody cx t)) (addFix_eq_fixAfter hlat s1 _))

/-- A BRX in its state and a CALLX in its own answer what the table comes to. -/
theorem exec_table {f : Fld} {s : State} {cx : Cx} {s1 : State} {e : Instr × State}
    (he : e ∈ [(Instr.brx f, s1), (.callx f, fixAfter 2 s1 cx (sWrite 10 cx.f.d.toNat cx.next.toNat))])
    (hi : issuable e.1 s = some (cx, s1)) : exec e.1 s = outcome s1 cx (brxBody cx e.2) := by
  simp only [List.mem_cons, List.not_mem_nil, or_false] at he
  rcases he with rfl | rfl
  · exact issue_outcome hi brxBody
  · exact exec_callx hi

/-- A trap that asks no peer module for bytes and comes at once is what an effect of it comes to. -/
theorem outcome_trap (s : State) (cx : Cx) {t : Trap} (hf : t.far = []) (hl : t.late = false) :
    outcome s cx (.trap t) = .next (trappedAt s cx t) := by
  simp [outcome, hf, hl, trappedAt]

/-- Settles O12: a BRV by its takers and the room for them, then the header, the indices and the targets of a table. -/
theorem divergenceResults : Obligations.DivergenceResults := by
  refine ⟨fun f => ⟨Does.of_effect (exec_brv f) rfl fun _ _ _ _ _ h0 => if_pos h0,
    Moves.of_effect (exec_brv f) rfl fun _ _ _ _ _ ⟨h0, hall, ht⟩ => brvBody_of_all h0 hall ht,
    fun s cx s1 g k' e hi h0 hne ht hg hk he hn _ => exec_brv_of_free hi h0 hne ht hg hk he hn, fun s cx s1 x hi h0 ht => ?fault,
    fun s cx s1 g hi h0 hne ht hg hmask hfull => ⟨fun s2 s3 => exec_brv_of_pushes hi h0 hne ht hg hfull hmask,
      exec_brv_of_overflow hi h0 hne ht hg hfull⟩, fun s cx x g hg hl => pushEnt_of_room hg hl x⟩, ?header, ?targets⟩
  case fault =>
    obtain ⟨hfar, hlate⟩ := targetOk_some ht
    rw [exec_brv]
    exact issue_trap hi (brvBody_of_badTarget h0 ht) hfar hlate
  case header =>
    intro f s cx s1 hb s2 h aux sound e he hi hread
    refine ⟨fun hs => ?_, fun l hl hs hx hlow => ?_⟩
    · rw [exec_table he hi, brxBody_of_unsound hread hs]
      exact outcome_trap s1 cx rfl rfl
    · rw [exec_table he hi, brxBody_of_index hread hs hl hx hlow]
      exact outcome_trap s1 cx rfl rfl
  case targets =>
    intro f s cx s1 hb s2 ts s3 s4 tab h jb
    have hgoes {t : State} (hread : readPlain t cx.who .table tab 8 8 = .ok (hb, s2)) (h1 : 1 ≤ h % 2 ^ 16) (h2 : h % 2 ^ 16 ≤ 4096)
        (h3 : h / 2 ^ 16 % 2 ^ 16 = 0) (hx : ∀ l ∈ lanesIn cx.sp.mask, cx.b32 l < h % 2 ^ 16)
        (hts : tableTargets s2 cx tab (byIndex cx) = .ok (ts, s3)) (hsep : separateAll s3 cx jb cx.k ts = .ok s4) :
        outcome s1 cx (brxBody cx t) = .next (moved s4 cx) := by
      rw [brxBody_of_targets hread ⟨h1, h2, h3⟩ hx hts hsep]
      rfl
    exact ⟨fun hi hread h1 h2 h3 hx hts hsep => (issue_outcome hi brxBody).trans (hgoes hread h1 h2 h3 hx hts hsep),
      fun hi hread h1 h2 h3 hx hts hsep => (exec_callx hi).trans (hgoes hread h1 h2 h3 hx hts hsep)⟩

end Sys2Proof.Machine
end

section
/-! The table of R41: what each role admits (R386). -/

namespace Sys2Proof.Machine

open Sys2Proof

/-! ### The rows of the table -/

/-- The rows of R41's table: what every role admits, every role but M, roles F and D (D not on the operand buffer's path), F alone,
M alone, the pops, and what no role but G admits. -/
inductive RoleRow where
  | free | notM | memory | feed | matrix | pop | none

/-- The row of an opcode. -/
def roleRow (op : Nat) : RoleRow :=
  if op < 0x20 then .free
  else if op < 0x40 || op == 0x4A then .notM
  else if op == 0x42 || op == 0x40 || op == 0x41 || op == 0x43 || op == 0x44 || op == 0x45 || op == 0x49 then .memory
  else if op == 0x46 then .feed
  else if op == 0x47 || op == 0x48 || (0x50 ≤ op && op ≤ 0x53) || op == 0x64 then .free
  else if op == 0x54 then .pop
  else if op == 0x55 then .notM
  else if op == 0x60 || op == 0x61 then .feed
  else if op == 0x62 || op == 0x63 then .matrix
  else if 0x79 ≤ op then .notM
  else .none

/-- What a row admits to the roles other than G. -/
def RoleRow.admits (cx : Cx) : RoleRow → Bool
  | .free => true
  | .notM => cx.role != 2
  | .memory => cx.role == 1 || (cx.role == 3 && !(cx.addrs.any fun a => pathOf a == 12))
  | .feed => cx.role == 1
  | .matrix => cx.role == 2
  | .pop => if cx.f.a = 0 then cx.role == 3 else cx.role != 2
  | .none => false

theorem roleAdmits_eq (cx : Cx) :
    roleAdmits cx = (cx.onSpool || cx.role == 0 || (roleRow cx.r.op.toNat).admits cx) := by
  simp only [roleRow, apply_ite (RoleRow.admits cx)]
  rfl

/-- Some instructions carry the fields `f`, and their opcodes stand in one row. -/
def InRow (f : Fld) (row : RoleRow) (is : List Instr) : Prop := ∀ i ∈ is, ∃ r, enc i = some (f, r) ∧ roleRow r.op.toNat = row

theorem InRow.of_map {f : Fld} {row : RoleRow} {is : List Instr}
    (h : is.map (fun i => (enc i).map fun x => (x.1, roleRow x.2.op.toNat)) = is.map fun _ => some (f, row)) : InRow f row is := by
  intro i hi
  obtain ⟨⟨f', r⟩, he, hx⟩ := Option.map_eq_some_iff.mp (List.map_inj_left.mp h i hi)
  cases hx
  exact ⟨r, he, rfl⟩

theorem roleFree_inRow (f : Fld) : InRow f .free (roleFree f) := InRow.of_map rfl
theorem roleVector_inRow (f : Fld) : InRow f .notM (roleVector f) := InRow.of_map rfl
theorem roleShared_inRow (f : Fld) : InRow f .notM (roleShared f) := InRow.of_map rfl
theorem roleMemory_inRow (f : Fld) : InRow f .memory (roleMemory f) := InRow.of_map rfl
theorem roleFeed_inRow (f : Fld) : InRow f .feed (roleFeed f) := InRow.of_map rfl
theorem roleMatrix_inRow (f : Fld) : InRow f .matrix (roleMatrix f) := InRow.of_map rfl
theorem roleRay_inRow (f : Fld) : InRow f .none (roleRay f) := InRow.of_map rfl
theorem qpop_inRow (f : Fld) : InRow f .pop [.qpop f, .qpopTry f] := InRow.of_map rfl

/-- The context of an instruction of a row. -/
theorem InRow.context {f : Fld} {row : RoleRow} {is : List Instr} (h : InRow f row is) {i : Instr} (hi : i ∈ is) {s : State} {ag : Agent}
    {cx : Cx} {s1 : State} (hm : mkCx s ag i = some (cx, s1)) : cx.f = f ∧ cx.i = i ∧ roleRow cx.r.op.toNat = row := by
  obtain ⟨r, he, hrow⟩ := h i hi
  obtain ⟨hcx, hci, -⟩ := mkCx_row hm
  rw [he] at hcx
  cases hcx
  exact ⟨rfl, hci, hrow⟩

/-- A group whose role, other than G, the row refuses raises the role-violation trap (R43, R386). -/
theorem InRow.refused {f : Fld} {row : RoleRow} {is : List Instr} (h : InRow f row is) {i : Instr} (hi : i ∈ is) {r : Nat} (hr : r ≠ 0)
    {s : State} {cx : Cx} {s1 : State} (hm : mkCx s s.cur i = some (cx, s1)) (hsp : cx.onSpool = false) (hrole : cx.role = r)
    (ht : stallTrap s1 cx = none) (hno : cx.f = f → cx.i = i → row.admits cx = false) :
    exec i s = .next (raise s1 cx.ag (cx.trap 0x0004 (BitVec.ofNat 64 r))) := by
  obtain ⟨hf, hci, hrow⟩ := h.context hi hm
  have henc : (enc i).isSome = true := by rw [(mkCx_row hm).1]; rfl
  obtain ⟨body, hbody⟩ := exec_issues i henc
  have hadm : roleAdmits cx = false := by simp [roleAdmits_eq, hsp, hrole, hr, hrow, hno hf hci]
  rw [hbody, issue_of_role hm body ht hadm, hrole]

/-- The spool processor, role G and what the row admits are admitted. -/
theorem InRow.admitted {f : Fld} {row : RoleRow} {is : List Instr} (h : InRow f row is) {i : Instr} (hi : i ∈ is) {P : Cx → Prop}
    (hyes : ∀ cx : Cx, cx.f = f → cx.i = i → P cx → row.admits cx = true) :
    ∀ s cx s1, mkCx s s.cur i = some (cx, s1) → (cx.onSpool = true ∨ cx.role = 0 ∨ P cx → roleAdmits cx = true) := by
  intro s cx s1 hm hp
  obtain ⟨hf, hci, hrow⟩ := h.context hi hm
  rw [roleAdmits_eq, hrow]
  rcases hp with hp | hp | hp
  · simp [hp]
  · simp [hp]
  · simp [hyes cx hf hci hp]

/-! ### Addresses on the operand buffer's path -/

theorem ofInt_toSigned (x : Nat) : BitVec.ofInt 64 (toSigned 32 x) = (BitVec.ofNat 32 x).signExtend 64 := by
  rw [BitVec.signExtend]
  congr 1
  rw [toSigned, BitVec.toInt_eq_toNat_cond, BitVec.toNat_ofNat]
  split <;> split <;> omega

/-- The address of a lane is what R215 says: the base pair plus the offset of B. -/
theorem addr_eq_baseAddr (cx : Cx) (u : Bool) (l : Nat) : cx.addr u l = baseAddr cx u (offsetB cx l) l := by
  rw [Cx.addr, Cx.ofs, baseAddr, offsetB, ofInt_toSigned]
  rfl

theorem baseAddr_zero (cx : Cx) (u : Bool) (l : Nat) :
    baseAddr cx u 0 l = if u then cx.g.rs2 cx.f.a.toNat else cx.g.rv2 cx.f.a.toNat l := by
  simp [baseAddr, Group.rs2, Group.rv2]

/-- Where a memory instruction names the operand buffer. -/
def onBuffer (f : Fld) (i : Instr) (cx : Cx) : Prop :=
  let a (u : Bool) (l : Nat) : DWord := baseAddr cx u (offsetB cx l) l
  (i = .ld f ∧ ∃ l, cx.act.getLsbD l = true ∧ pathOf (a (decide (f.mn.toNat % 2 = 1)) l) = 0x0C) ∨
  (i = .st f ∧ ∃ l, cx.actNH.getLsbD l = true ∧ pathOf (a (decide (f.mn.toNat % 2 = 1)) l) = 0x0C) ∨
  ((i = .lds f ∨ i = .sts f ∨ i = .promote f) ∧ pathOf (a true 0) = 0x0C) ∨
  (i = .atom f ∧ ∃ l, cx.actNH.getLsbD l = true ∧ pathOf (baseAddr cx (decide (cx.m / 2 = 1)) 0 l) = 0x0C) ∨
  (i = .atomOrd f ∧ pathOf (baseAddr cx true 0 0) = 0x0C)

theorem any_lanesIn (m : Mask) (a : Nat → DWord) :
    (((lanesIn m).map a).any fun x => pathOf x == 12) = true ↔ ∃ l, m.getLsbD l = true ∧ pathOf (a l) = 12 := by
  simp only [List.any_map, List.any_eq_true, lanesIn, List.mem_filter, List.mem_range, Function.comp_apply, beq_iff_eq]
  refine exists_congr fun l => and_congr_left fun _ => and_iff_right_of_imp fun h => ?_
  exact Nat.lt_of_not_le fun hl => by simp [BitVec.getLsbD_of_ge m l hl] at h

theorem any_singleton (a : DWord) : ([a].any fun x => pathOf x == 12) = true ↔ pathOf a = 12 := by simp

theorem addrs_any_iff {f : Fld} {i : Instr} {cx : Cx} (hi : i ∈ roleMemory f) (hf : cx.f = f) (hci : cx.i = i) :
    (cx.addrs.any fun a => pathOf a == 12) = true ↔ onBuffer f i cx := by
  have hbit : bit cx.f.mn.toNat 0 = decide (f.mn.toNat % 2 = 1) := by rw [bit, Nat.pow_zero, Nat.div_one, hf]
  have hbase (u : Bool) : cx.addr u = fun l => baseAddr cx u (offsetB cx l) l := funext (addr_eq_baseAddr cx u)
  simp only [roleMemory, List.mem_cons, List.not_mem_nil, or_false] at hi
  unfold Cx.addrs onBuffer
  rcases hi with rfl | rfl | rfl | rfl | rfl | rfl | rfl <;>
    simp only [hci, hbit, hbase, baseAddr_zero, decide_eq_true_eq, reduceCtorEq, false_and, false_or, or_false, true_and]
  · exact any_lanesIn cx.act _
  · exact any_lanesIn cx.actNH _
  · exact any_singleton _
  · exact any_singleton _
  · exact any_lanesIn cx.actNH _
  · exact any_singleton _
  · exact any_singleton _

theorem onBuffer_mem {f : Fld} {i : Instr} {cx : Cx} (h : onBuffer f i cx) : i ∈ roleMemory f := by
  rcases h with ⟨rfl, -⟩ | ⟨rfl, -⟩ | ⟨rfl | rfl | rfl, -⟩ | ⟨rfl, -⟩ | ⟨rfl, -⟩ <;> simp [roleMemory]

/-! ### The obligation -/

/-- Settles O57: each list of instructions stands in one row of the table, and each clause is what the row says. -/
theorem roleViolationTraps : Obligations.RoleViolationTraps := by
  intro f onBuf iterOnBuf refused admitted
  refine ⟨?roleF, ?roleM, ?roleD, ?pops, ?buffer, ?free, ?notM, ?memory, ?feed, ?matrix, ?ray, ?popped⟩
  case roleF =>
    intro i hi s cx s1 hm hsp hr ht
    rcases List.mem_append.mp hi with hi | hi
    · exact (roleMatrix_inRow f).refused hi (by decide) hm hsp hr ht fun _ _ => by simp [RoleRow.admits, hr]
    · exact (roleRay_inRow f).refused hi (by decide) hm hsp hr ht fun _ _ => rfl
  case roleM =>
    intro i hi s cx s1 hm hsp hr ht
    simp only [List.mem_append] at hi
    rcases hi with (((hi | hi) | hi) | hi) | hi
    · exact (roleVector_inRow f).refused hi (by decide) hm hsp hr ht fun _ _ => by simp [RoleRow.admits, hr]
    · exact (roleShared_inRow f).refused hi (by decide) hm hsp hr ht fun _ _ => by simp [RoleRow.admits, hr]
    · exact (roleMemory_inRow f).refused hi (by decide) hm hsp hr ht fun _ _ => by simp [RoleRow.admits, hr]
    · exact (roleFeed_inRow f).refused hi (by decide) hm hsp hr ht fun _ _ => by simp [RoleRow.admits, hr]
    · exact (roleRay_inRow f).refused hi (by decide) hm hsp hr ht fun _ _ => rfl
  case roleD =>
    intro i hi s cx s1 hm hsp hr ht
    simp only [List.mem_append] at hi
    rcases hi with (hi | hi) | hi
    · exact (roleFeed_inRow f).refused hi (by decide) hm hsp hr ht fun _ _ => by simp [RoleRow.admits, hr]
    · exact (roleMatrix_inRow f).refused hi (by decide) hm hsp hr ht fun _ _ => by simp [RoleRow.admits, hr]
    · exact (roleRay_inRow f).refused hi (by decide) hm hsp hr ht fun _ _ => rfl
  case pops =>
    refine fun i hi => ⟨fun ha => ⟨fun s cx s1 hm hsp hr ht => ?_, fun s cx s1 hm hsp hr ht => ?_⟩, fun ha s cx s1 hm hsp hr ht => ?_⟩
    all_goals exact (qpop_inRow f).refused hi (by decide) hm hsp hr ht fun hf _ => by simp [RoleRow.admits, hr, hf, ha]
  case buffer =>
    intro i s cx s1 hm hsp hr hbuf ht
    have hi : i ∈ roleMemory f := onBuffer_mem hbuf
    refine (roleMemory_inRow f).refused hi (by decide) hm hsp hr ht fun hf hci => ?_
    simp [RoleRow.admits, hr, (addrs_any_iff hi hf hci).mpr hbuf]
  case free => exact fun i hi => (roleFree_inRow f).admitted hi fun _ _ _ _ => rfl
  case notM =>
    have hyes (i : Instr) (cx : Cx) (h : cx.role = 1 ∨ (cx.role = 3 ∧ ¬ iterOnBuf i cx)) : RoleRow.notM.admits cx = true := by
      rcases h with h | ⟨h, -⟩ <;> simp [RoleRow.admits, h]
    intro i hi
    rcases List.mem_append.mp hi with hi | hi
    · exact (roleVector_inRow f).admitted hi fun cx _ _ => hyes i cx
    · exact (roleShared_inRow f).admitted hi fun cx _ _ => hyes i cx
  case memory =>
    refine fun i hi => (roleMemory_inRow f).admitted hi fun cx hf hci h => ?_
    rcases h with h | ⟨h, hno⟩
    · simp [RoleRow.admits, h]
    · have hany : (cx.addrs.any fun a => pathOf a == 12) = false := Bool.eq_false_iff.mpr fun hb => hno ((addrs_any_iff hi hf hci).mp hb)
      simp [RoleRow.admits, h, hany]
  case feed => exact fun i hi => (roleFeed_inRow f).admitted hi fun cx _ _ h => beq_iff_eq.mpr h
  case matrix => exact fun i hi => (roleMatrix_inRow f).admitted hi fun cx _ _ h => beq_iff_eq.mpr h
  case ray => exact fun i hi => (roleRay_inRow f).admitted hi fun _ _ _ h => False.elim h
  case popped =>
    refine fun i hi => (qpop_inRow f).admitted hi fun cx hf _ h => ?_
    rw [RoleRow.admits, hf]
    rcases h with ⟨ha, h⟩ | ⟨ha, h⟩
    · rw [if_pos ha, h]; rfl
    · rw [if_neg ha]; exact bne_iff_ne.mpr h

end Sys2Proof.Machine
end

section
/-! Dispatch and retirement (R44, R45, R306, R320, R327), and the starts of replays and nodes (R319, R325). -/

namespace Sys2Proof.Machine

open Sys2Proof

/-! ### Dispatch -/

/-- A candidate does not keep a core from a launch where its own workgroup would use up the reserve, or where it does not fit and has no
higher priority (R320, R327). -/
theorem keepsCore_eq_false {s : State} {l : Launch} {core : Nat} {x : Nat × Launch}
    (hreserve : ∀ ix y sl b, nextIndex s x.1 x.2 core = some (ix, y) → roomFor s x.1 x.2 core = some (sl, b) →
      leavesReserve s (dispatchTo s x.1 core ix y sl b) x.2 = false)
    (hpri : nextIndex s x.1 x.2 core = none ∨ roomFor s x.1 x.2 core = none → ¬ (s.queue l.q).pri < (s.queue x.2.q).pri) :
    keepsCore s l core x = false := by
  unfold keepsCore
  split
  · rename_i ix y sl b hix hroom
    exact hreserve ix y sl b hix hroom
  · rename_i hnone
    refine decide_eq_false (hpri ?_)
    cases hix : nextIndex s x.1 x.2 core with
    | none => exact .inl rfl
    | some p =>
      cases hroom : roomFor s x.1 x.2 core with
      | none => exact .inr rfl
      | some q => exact (hnone p.1 p.2 q.1 q.2 hix hroom).elim

/-- The dispatch of a launch's workgroup to a core that nobody offered it before keeps. -/
theorem execWorkgroupDispatch_of_offered {s : State} {lid core ix base : Nat} {l l1 : Launch} {slots : List Nat}
    (hl : (cutGrids s).launch? lid = some l) (hb : (cutGrids s).bootState = 4) (hc : core < 144)
    (hw : wants (cutGrids s) core (lid, l) = true) (hix : nextIndex (cutGrids s) lid l core = some (ix, l1))
    (hroom : roomFor (cutGrids s) lid l core = some (slots, base))
    (hothers : ∀ x ∈ (cutGrids s).launches, x.1 ≠ lid → wants (cutGrids s) core x = true →
      offeredBefore (cutGrids s) x (lid, l) = true → keepsCore (cutGrids s) l core x = false)
    (hreserve : leavesReserve (cutGrids s) (dispatchTo (cutGrids s) lid core ix l1 slots base) l = true) :
    execWorkgroupDispatch lid core s = .next (dispatchTo (cutGrids s) lid core ix l1 slots base) := by
  have hnone : ((cutGrids s).launches.filter fun x => x.1 != lid && wants (cutGrids s) core x && offeredBefore (cutGrids s) x (lid, l)).any
      (keepsCore (cutGrids s) l core) = false := by
    rw [List.any_eq_false]
    intro x hx
    obtain ⟨hmem, hcond⟩ := List.mem_filter.mp hx
    simp only [Bool.and_eq_true, bne_iff_ne] at hcond
    obtain ⟨⟨hne, hwx⟩, hoff⟩ := hcond
    exact Bool.eq_false_iff.mp (hothers x hmem hne hwx hoff)
  simp [execWorkgroupDispatch, hl, hb, Nat.not_le.mpr hc, hw, hix, hroom, hnone, hreserve]

/-! ### Retirement -/

/-- A workgroup has nothing outstanding when no operation is its own. -/
theorem wgBusy_eq_false {s : State} {wg : Nat} (h : ∀ o ∈ s.ops, o.wg ≠ wg) : wgBusy s wg = false := by
  rw [wgBusy, List.any_eq_false]
  simpa using h

/-- Every group of a workgroup has exited. -/
theorem groups_all_exited {s : State} {w : Wg} (h : ∀ sl ∈ w.slots, ∀ g, s.group? (gKey w.core sl) = some g → g.exited = true) :
    (w.slots.filterMap fun sl => s.group? (gKey w.core sl)).all (·.exited) = true := by
  rw [List.all_eq_true]
  intro g hg
  obtain ⟨sl, hsl, hgrp⟩ := List.mem_filterMap.mp hg
  exact h sl hsl g hgrp

theorem execWorkgroupRetire_of_exited {s : State} {wg : Nat} {w : Wg} {l : Launch} (hw : s.wg? wg = some w) (hl : s.launch? w.lnch = some l)
    (hsaved : w.saved = false) (hkilled : l.killed = false) (hfrozen : frozen s wg = false) (hops : ∀ o ∈ s.ops, o.wg ≠ wg)
    (hexit : ∀ sl ∈ w.slots, ∀ g, s.group? (gKey w.core sl) = some g → g.exited = true) (hnode : l.node = none) :
    let past := s.gathered (.exited wg)
    let s0 := (if l.k.deps = [] then s else s.post (.ret w.lnch w.ix) past).post (.ended w.lnch) past
    let s1 := if l.k.matrix = true then resetMx s0 w.core else s0
    execWorkgroupRetire wg s = .next (settleLaunch (((freeWg s1 wg).release (partySpool wg)).modLaunch w.lnch
      fun x => x.retire (dieOf w.core) w.ix) w.lnch w.ix) := by
  simp only [execWorkgroupRetire, hw, hl, hsaved, hkilled, hfrozen, wgBusy_eq_false hops, groups_all_exited hexit, hnode,
    List.isEmpty_iff]
  rfl

/-- A bit of the scoreboard set on another die reaches the copy of a die (R306). -/
theorem execScoreboardBitReceive_of_missing {s : State} {lid die ix : Nat} {l : Launch} (hl : s.launch? lid = some l) (hd : l.k.deps ≠ [])
    (hdone : ix ∈ l.done) (hdie : die < 3) (hcopy : ix ∉ l.copyOf die) : execScoreboardBitReceive lid die ix s =
    .next (s.modLaunch lid fun x => { x with
      die0 := if die = 0 then x.die0 ++ [ix] else x.die0, die1 := if die = 1 then x.die1 ++ [ix] else x.die1
      die2 := if die = 2 then x.die2 ++ [ix] else x.die2 }) := by
  have hdue : ¬ (l.k.deps.isEmpty || decide (3 ≤ die) || !decide (ix ∈ l.done) || decide (ix ∈ l.copyOf die)) = true := by
    simp [hd, hdone, hdie, hcopy]
  simp only [execScoreboardBitReceive, hl, if_neg hdue]
  have hcases : die = 0 ∨ die = 1 ∨ die = 2 := by omega
  rcases hcases with rfl | rfl | rfl <;> rfl

/-! ### Replays and nodes -/

theorem execGraphReplayStart_of_first {s : State} {gid : Nat} {g : Graph} (hg : Tab.find? s.graphs gid = some g) (hw : g.waiting = true)
    (hfirst : ∀ x ∈ s.graphs, x.2.obj = g.obj → x.2.ctx = g.ctx → ¬ x.2.order < g.order) :
    execGraphReplayStart gid s = .next (startReplay s gid g) := by
  have hnone : ((replaysOf s g.obj g.ctx).any fun x => x.2.order < g.order) = false := by
    rw [List.any_eq_false]
    intro x hx
    obtain ⟨hmem, hsame⟩ := List.mem_filter.mp hx
    simp only [Bool.and_eq_true, beq_iff_eq] at hsame
    obtain ⟨hobj, hctx⟩ := hsame
    simpa using hfirst x hmem hobj hctx
  simp [execGraphReplayStart, hg, hw, hnone]

/-- A node has begun as a launch, after what its replay and its producers did. -/
def nodeBegun (s : State) (gid : Nat) (g : Graph) (n : Nat) (s1 : State) (l : Launch) : State :=
  nodeStarted (launchStarts (addLaunch s1 { l with node := some (gid, n) }) s1.nextId (nodeFollows s gid g n)) gid n s1.nextId

/-- The launch of a grid node, and the binding table that its body names. -/
def gridLaunch (s : State) (gid : Nat) (g : Graph) (n : Nat) (x : Node) : Launch :=
  { bodyLaunch s g.q g.ctx (x.body.flatMap bytesOfWord) x.k with param := x.param, node := some (gid, n) }
def gridTable (x : Node) : DWord := BitVec.ofNat 64 (fieldAt (x.body.flatMap bytesOfWord) 0x60 8)

section
variable {s : State} {gid : Nat} {g : Graph} {n : Nat} {x : Node} (hg : Tab.find? s.graphs gid = some g) (hx : g.nodes[n]? = some x)
  (hwait : g.waiting = false) (hstart : x.started = false) (hdone : x.complete = false) (hmay : mayStartNode s g n = true)
include hg hx hwait hstart hdone hmay

theorem execGraphNodeStart_task (ht : x.task = true) :
    execGraphNodeStart gid n s = .next (settleGraph (nodeBegun s gid g n s (taskLaunch s g n x)) gid) := by
  simp only [execGraphNodeStart, hg, hx, hwait, hstart, hdone, hmay, ht]
  rfl

variable (ht : x.task = false) (hdev : devWaits s (gridLaunch s gid g n x).devKey = false)
include ht hdev

/-- A read of a peer module for a grid node's start that has failed kills the launch that begins (R438, log 43). -/
theorem execGraphNodeStart_devFault {m : MFault} (hf : devFault s (gridLaunch s gid g n x).devKey = some m) :
    let s0 := forgetDev s (gridLaunch s gid g n x).devKey
    execGraphNodeStart gid n s = .next (launchFault (nodeBegun s gid g n s0 (gridLaunch s gid g n x)) s0.nextId m 0 0) := by
  rw [gridLaunch] at hdev hf
  simp only [execGraphNodeStart, hg, hx, hwait, hstart, hdone, hmay, ht, hdev, hf]
  rfl

variable (hf : devFault s (gridLaunch s gid g n x).devKey = none)
include hf

theorem execGraphNodeStart_opened {l1 : Launch} {s1 : State} (ho : openLaunch s (gridLaunch s gid g n x) (gridTable x) = .ok (l1, s1)) :
    execGraphNodeStart gid n s = .next (nodeBegun s gid g n (forgetDev s1 (gridLaunch s gid g n x).devKey) l1) := by
  rw [gridLaunch] at hdev hf ho
  rw [gridTable] at ho
  simp only [execGraphNodeStart, hg, hx, hwait, hstart, hdone, hmay, ht, hdev, hf, ho]
  rfl

/-- A fault of the accesses of a grid node's start kills the launch that begins (R438, log 43). -/
theorem execGraphNodeStart_accessFault {m : MFault} (ho : openLaunch s (gridLaunch s gid g n x) (gridTable x) = .error (9, m))
    (hm : m.far = []) :
    let s0 := forgetDev s (gridLaunch s gid g n x).devKey
    execGraphNodeStart gid n s = .next (launchFault (nodeBegun s gid g n s0 (gridLaunch s gid g n x)) s0.nextId m 0 0) := by
  rw [gridLaunch] at hdev hf ho
  rw [gridTable] at ho
  simp only [execGraphNodeStart, hg, hx, hwait, hstart, hdone, hmay, ht, hdev, hf, ho, hm]
  rfl

/-- Bytes of peer modules that a grid node's start needs are asked for first (R373, log 16). -/
theorem execGraphNodeStart_far {e : Refused} (ho : openLaunch s (gridLaunch s gid g n x) (gridTable x) = .error e) (he : e.2.far ≠ []) :
    execGraphNodeStart gid n s = .next (askDev s (gridLaunch s gid g n x).devKey g.ctx.ns e.2.far) := by
  rw [gridLaunch] at hdev hf ho
  rw [gridTable] at ho
  have hne : ¬ e.2.far.isEmpty = true := fun h => he (List.isEmpty_iff.mp h)
  simp only [execGraphNodeStart, hg, hx, hwait, hstart, hdone, hmay, ht, hdev, hf, ho, if_neg hne]
  rfl

end

/-! ### The obligation -/

/-- Settles O38: dispatch, retirement and receipt by their laws, then the starts of a replay and of the two kinds of node. -/
theorem taskAndGraphEvents : Obligations.TaskAndGraphEvents := by
  refine ⟨?dispatch, fun s lid l hl => ⟨?retire, fun die ix hd hdone hdie hcopy =>
    execScoreboardBitReceive_of_missing hl hd hdone hdie hcopy⟩, fun s gid g hg => ⟨execGraphReplayStart_of_first hg, ?node⟩⟩
  case dispatch =>
    intro s lid l core ix l1 slots base c hl hb hc hw hix hroom hothers hreserve
    refine execWorkgroupDispatch_of_offered hl hb hc hw hix hroom (fun x hx hne hwx hoff => ?_) hreserve
    obtain ⟨hres, hpri⟩ := hothers x hx hne hwx hoff
    exact keepsCore_eq_false hres hpri
  case retire =>
    rintro wg w hw rfl hsaved hkilled hfrozen hops hexit hnode
    exact execWorkgroupRetire_of_exited hw hl hsaved hkilled hfrozen hops hexit hnode
  case node =>
    intro n x hx hwait hstart hdone hmay
    refine ⟨fun ht => ⟨taskLaunch s g n x, rfl, rfl, rfl, rfl, rfl, execGraphNodeStart_task hg hx hwait hstart hdone hmay ht⟩,
      fun ht hdev => ⟨fun m hf => execGraphNodeStart_devFault hg hx hwait hstart hdone hmay ht hdev hf, fun hf => ⟨fun l1 s1 ho =>
        execGraphNodeStart_opened hg hx hwait hstart hdone hmay ht hdev hf ho, fun m ho hm =>
        execGraphNodeStart_accessFault hg hx hwait hstart hdone hmay ht hdev hf ho hm, fun e ho he =>
        execGraphNodeStart_far hg hx hwait hstart hdone hmay ht hdev hf ho he⟩⟩⟩

end Sys2Proof.Machine
end

section
/-! The canonical form of memory (log 5) through every function that a step is made of, in the order of the model's files. A lemma
`f_mem` says that `f` changes no byte, `f_wf` that the memory after `f` is canonical when the one before was, and `f_memWf` the same
of what `f` comes to. -/

namespace Sys2Proof.Machine

open Sys2Proof

/-! ### What the form means of an effect and of an outcome -/

/-- A chain of updates that keep the canonical form keeps it. -/
theorem foldl_wf {α : Type} {f : State → α → State} (hf : ∀ s a, Memory.wf s.mem = true → Memory.wf (f s a).mem = true)
    (xs : List α) {s : State} (h : Memory.wf s.mem = true) : Memory.wf (xs.foldl f s).mem = true := by
  induction xs generalizing s with
  | nil => exact h
  | cons x xs ih => exact ih (hf s x h)

/-- The memory that an effect leaves is canonical. -/
def Eff.MemWf : Eff → Prop
  | .done s | .jump s | .wait s => Memory.wf s.mem = true
  | .trap _ => True

@[simp] theorem Eff.memWf_done (s : State) : (Eff.done s).MemWf ↔ Memory.wf s.mem = true := Iff.rfl
@[simp] theorem Eff.memWf_jump (s : State) : (Eff.jump s).MemWf ↔ Memory.wf s.mem = true := Iff.rfl
@[simp] theorem Eff.memWf_wait (s : State) : (Eff.wait s).MemWf ↔ Memory.wf s.mem = true := Iff.rfl
@[simp] theorem Eff.memWf_trap (t : Trap) : (Eff.trap t).MemWf := trivial

/-- An outcome that has a next state has one with canonical memory. -/
def NextMemWf : Host.Outcome State Fault Refusal → Prop
  | .next t => Memory.wf t.mem = true
  | _ => True

@[simp] theorem nextMemWf_next (s : State) : NextMemWf (.next s) ↔ Memory.wf s.mem = true := Iff.rfl
@[simp] theorem nextMemWf_fault (r : Fault) : NextMemWf (.fault r) := trivial
@[simp] theorem nextMemWf_refused (r : Refusal) : NextMemWf (.refused r) := trivial

end Sys2Proof.Machine
end

section
/-! Memory stays canonical: the functions of Machine/Mem. -/

namespace Sys2Proof.Machine

open Sys2Proof

theorem putByte_wf {s : State} (r : Wrec) (b : Byte) (h : Memory.wf s.mem = true) : Memory.wf (s.putByte r b).mem = true :=
  Tab.wf_set unwritten s.mem r.key b h

@[simp] theorem free_mem (s : State) : (s.free).2.mem = s.mem := rfl

@[simp] theorem push_mem (s : State) (c : Chan) (x : Clk) : (s.push c x).mem = s.mem := rfl

@[simp] theorem hear_mem (s : State) (me : Nat) (c : Chan) : (s.hear me c).mem = s.mem := by simp [State.hear]

@[simp] theorem pull_mem (s : State) (me : Nat) (c : Chan) : (s.pull me c).mem = s.mem := by simp [State.pull]

@[simp] theorem newLoad_mem (s : State) (me : Nat) : (s.newLoad me).mem = s.mem := by simp [State.newLoad]

@[simp] theorem newTag_mem (s : State) : (s.newTag).2.mem = s.mem := rfl

@[simp] theorem spendFence_mem (s : State) (w : Who) : (spendFence s w).mem = s.mem := by
  unfold spendFence
  split <;> simp

end Sys2Proof.Machine
end

section
/-! Memory stays canonical: the functions of Machine/Ops. -/

namespace Sys2Proof.Machine

open Sys2Proof

@[simp] theorem requestRun_mem (s : State) (ns : Bool) (id : Nat) (h : Hit) (n : Nat) (extra : List Byte) :
    (requestRun s ns id h n extra).2.mem = s.mem := by
  unfold requestRun
  dsimp only
  split <;> rfl

@[simp] theorem requestAll_mem (s : State) (ns : Bool) (id : Nat) (runs : List (Hit × Nat × List Byte)) : (requestAll s ns id runs).mem
    = s.mem :=
  List.foldlRecOn (motive := fun acc : State × List Nat => acc.1.mem = s.mem) runs _ rfl
    fun _ ha _ _ => (requestRun_mem _ _ _ _ _ _).trans ha

@[simp] theorem requestReads_mem (s : State) (ns : Bool) (id : Nat) (hs : List Hit) : (requestReads s ns id hs).mem = s.mem := by
  simp [requestReads]

@[simp] theorem keepFar_mem (s : State) (o : Op) : (keepFar s o).mem = s.mem := by
  unfold keepFar
  split <;> rfl

@[simp] theorem askFar_mem (s : State) (ag : Agent) (wg lnch : Nat) (ns : Bool) (t : Trap) : (askFar s ag wg lnch ns t).mem = s.mem := by
  unfold askFar
  split <;> simp

@[simp] theorem deferFar_mem (s : State) (ag : Agent) (wg lnch : Nat) (ns : Bool) (t : Trap) :
    (deferFar s ag wg lnch ns t).mem = s.mem := by
  unfold deferFar
  dsimp only
  split <;> simp

@[simp] theorem forgetFar_mem (s : State) (ag : Agent) : (forgetFar s ag).mem = s.mem := by
  unfold forgetFar
  split <;> rfl

@[simp] theorem counterPast_mem (s : State) (o : Op) : (counterPast s o).mem = s.mem := by
  unfold counterPast
  dsimp only
  repeat' split
  all_goals simp

@[simp] theorem forgetOpHb_mem (s : State) (ids : List Nat) : (forgetOpHb s ids).mem = s.mem := rfl

@[simp] theorem lowerCounters_mem (s : State) : (lowerCounters s).mem = s.mem := by
  grind [lowerCounters, State.modGroup_mem, State.release_mem, foldl_mem, counterPast_mem, forgetOpHb_mem]

@[simp] theorem arriveAt_mem (s : State) (wid n c : Nat) (past : Clk) : (s.arriveAt wid n c past).mem = s.mem := by
  unfold State.arriveAt
  dsimp only
  repeat' split
  all_goals simp

@[simp] theorem queueErr_mem (s : State) (q slot code : Nat) : (queueErr s q slot code).mem = s.mem := rfl

@[simp] theorem ringFail_mem (s : State) (q slot : Nat) : (ringFail s q slot).mem = s.mem := rfl

theorem writeEntry_wf {s : State} (qn : Nat) (ws : List Word) (h : Memory.wf s.mem = true) :
    Memory.wf (writeEntry s qn ws).1.mem = true := by
  unfold writeEntry
  dsimp only
  repeat' split
  all_goals simp [h, writeBytes_wf]

@[simp] theorem setTrapRegs_mem (s : State) (ag : Agent) (t : Trap) : (setTrapRegs s ag t).mem = s.mem := by
  unfold setTrapRegs
  split <;> rfl

theorem boardWrite_wf {s : State} {lid : Nat} {l : Launch} {ix : Nat} {bs : List Byte} {s1 : State}
    (hr : boardWrite s lid l ix bs = .ok s1) (h : Memory.wf s.mem = true) : Memory.wf s1.mem = true := by
  unfold boardWrite at hr
  grind [resolveAll_wf, writeHits_wf, keepFar_mem]

theorem maskWrite_wf {s : State} (g : Graph) (x : Nat) (h : Memory.wf s.mem = true) : Memory.wf (maskWrite s g x).mem = true := by
  grind [maskWrite, resolveAll_wf, writeHits_wf, keepFar_mem]

@[simp] theorem dropChans_mem (s : State) (p : Chan → Bool) : (s.dropChans p).mem = s.mem := rfl

theorem endReplay_wf {s : State} (gid : Nat) (g : Graph) (h : Memory.wf s.mem = true) : Memory.wf (endReplay s gid g).mem = true := by
  unfold endReplay
  dsimp only
  repeat' split
  all_goals simp [h, maskWrite_wf]

@[simp] theorem nodePast_mem (s : State) (lid gid n : Nat) : (nodePast s lid gid n).mem = s.mem := by simp [nodePast]

theorem settleGraph_wf {s : State} (gid : Nat) (h : Memory.wf s.mem = true) : Memory.wf (settleGraph s gid).mem = true := by
  unfold settleGraph
  dsimp only
  repeat' split
  all_goals simp [h, foldl_wf, endReplay_wf]

theorem boardOut_wf {s : State} {l ix : Nat} {s1 : State} (hr : boardOut s l ix = .ok s1) (h : Memory.wf s.mem = true) : Memory.wf
    s1.mem = true := by
  unfold boardOut at hr
  split at hr
  · cases hr; exact h
  · rename_i x _
    split at hr
    · cases hr; exact h
    · cases hb : boardWrite s l x ix x.boardBytes with
      | error m => rw [hb] at hr; cases hr
      | ok s2 => rw [hb] at hr; cases hr; exact (boardWrite_wf hb h :)

theorem closeLaunch_wf {s : State} (l : Nat) (h : Memory.wf s.mem = true) : Memory.wf (closeLaunch s l).mem = true := by
  unfold closeLaunch
  dsimp only
  repeat' split
  all_goals simp [h, settleGraph_wf]

theorem finishLaunch_wf {s : State} (l : Nat) (h : Memory.wf s.mem = true) : Memory.wf (finishLaunch s l).mem = true := by
  grind [finishLaunch, boardOut_wf, closeLaunch_wf]

@[simp] theorem bridleSettle_mem (s : State) : (bridleSettle s).mem = s.mem := rfl

@[simp] theorem forgetWgHb_mem (s : State) (w : Nat) : (forgetWgHb s w).mem = s.mem := rfl

@[simp] theorem freeWg_mem (s : State) (w : Nat) : (freeWg s w).mem = s.mem := by
  grind [freeWg, State.setCore_mem, State.release_mem, foldl_mem, bridleSettle_mem, forgetWgHb_mem]

@[simp] theorem freeHeld_mem (s : State) (lnch : Nat) (g : Group) : (freeHeld s lnch g).mem = s.mem := by
  unfold freeHeld
  repeat' split
  all_goals simp

@[simp] theorem resetMx_mem (s : State) (core : Nat) : (resetMx s core).mem = s.mem := rfl

@[simp] theorem dropReaders_mem (s : State) (gone : List Nat) : (dropReaders s gone).mem = s.mem := rfl

@[simp] theorem forgetOps_mem (s0 : State) (gone : List Nat) : (forgetOps s0 gone).mem = s0.mem := rfl

theorem reap_wf {s0 : State} (l : Nat) (h : Memory.wf s0.mem = true) : Memory.wf (reap s0 l).mem = true := by
  grind [reap, foldl_mem, foldl_wf, finishLaunch_wf, freeWg_mem, freeHeld_mem, resetMx_mem, forgetOps_mem]

theorem dropRecs_wf {s : State} (l : Nat) (sv : Save) (h : Memory.wf s.mem = true) : Memory.wf (dropRecs s l sv).mem = true := by
  grind [dropRecs, State.setByte_mem, setByte_wf, foldl_mem, foldl_wf]

theorem dropSaved_wf {s : State} (l : Nat) (h : Memory.wf s.mem = true) : Memory.wf (dropSaved s l).mem = true := by
  grind [dropSaved, foldl_mem, foldl_wf, bridleSettle_mem, dropRecs_wf]

theorem dropQueued_wf {s : State} (x : Launch) (h : Memory.wf s.mem = true) : Memory.wf (dropQueued s x).mem = true := by
  unfold dropQueued
  split <;> simp [h, settleGraph_wf]

theorem killLaunch_wf {s : State} (l : Nat) (h : Memory.wf s.mem = true) : Memory.wf (killLaunch s l).mem = true := by
  grind [killLaunch, State.modLaunch_mem, State.logErr_mem, forgetOps_mem, reap_wf, dropSaved_wf, dropQueued_wf]

theorem report_wf {s : State} (ag : Agent) (wid : Nat) (wg : Wg) (mask : Mask) (grp slot split : Nat) (t : Trap)
    (h : Memory.wf s.mem = true) : Memory.wf (report s ag wid wg mask grp slot split t).mem = true := by
  unfold report
  dsimp only
  repeat' split
  all_goals simp [h, killLaunch_wf]

theorem raise_wf {s : State} (ag : Agent) (t : Trap) (h : Memory.wf s.mem = true) : Memory.wf (raise s ag t).mem = true := by
  unfold raise
  dsimp only
  repeat' split
  all_goals simp [h, report_wf]

theorem flushList_wf {s : State} (qn : Nat) (ps : List Pend) (h : Memory.wf s.mem = true) :
    Memory.wf (flushList s qn ps).2.mem = true := by
  induction ps generalizing s with
  | nil => exact h
  | cons p ps ih =>
    have hw := writeEntry_wf qn p.entry h
    unfold flushList
    dsimp only
    split
    · split
      · exact h
      · split
        · rename_i hs1
          rw [hs1] at hw
          exact hw
        · rename_i hs1
          rw [hs1] at hw
          exact ih hw
    · exact ih h

theorem flushTraps_wf {s : State} (qn : Nat) (h : Memory.wf s.mem = true) : Memory.wf (flushTraps s qn).mem = true := by
  unfold flushTraps
  dsimp only
  split <;> simp [h, flushList_wf]

theorem flushAll_wf {s : State} (h : Memory.wf s.mem = true) : Memory.wf (flushAll s).mem = true := by
  grind [flushAll, foldl_mem, foldl_wf, flushTraps_wf]

@[simp] theorem passTurn_mem (s : State) (w : Nat) : (passTurn s w).mem = s.mem := by
  unfold passTurn
  split <;> rfl

end Sys2Proof.Machine
end

section
/-! Memory stays canonical: the functions of Machine/Waits. -/

namespace Sys2Proof.Machine

open Sys2Proof

@[simp] theorem correctRegs_mem (s : State) (key : Nat) (rs : List Ref) (reads : Ref → Nat → Bool) : (correctRegs s key rs reads).mem =
    s.mem := by grind [correctRegs, State.modGroup_mem, foldl_mem, corrected_mem]

@[simp] theorem correctSpool_mem (s : State) (wid : Nat) (rs : List Ref) : (correctSpool s wid rs).mem = s.mem := by
  grind [correctSpool, State.modWg_mem, foldl_mem, corrected_mem]

theorem mkCx_mem {s : State} {ag : Agent} {i : Instr} {cx : Cx} {s1 : State} (h : mkCx s ag i = some (cx, s1)) : s1.mem = s.mem :=
  (congrArg State.mem (mkCx_onlyLanded h).rest :)

theorem mkCx_wf {s : State} {ag : Agent} {i : Instr} {cx : Cx} {s1 : State} (hm : mkCx s ag i = some (cx, s1))
    (h : Memory.wf s.mem = true) : Memory.wf s1.mem = true := by rwa [mkCx_mem hm]

@[simp] theorem settleTurnN_mem (s : State) (w n : Nat) : (settleTurnN s w n).mem = s.mem :=
  (congrArg State.mem (settleTurnN_onlyTurn w n s).1 :)

@[simp] theorem settleTurn_mem (s : State) (w : Nat) : (settleTurn s w).mem = s.mem := (congrArg State.mem (settleTurn_onlyTurn w s).1 :)

end Sys2Proof.Machine
end

section
/-! Memory stays canonical: the functions of Machine/Access. -/

namespace Sys2Proof.Machine

open Sys2Proof

theorem readNum_wf {s : State} {w : Who} {k : AccK} {a : DWord} {n : Nat} {x : Nat} {s1 : State} (hr : readNum s w k a n = .ok (x, s1))
    (h : Memory.wf s.mem = true) : Memory.wf s1.mem = true := by
  unfold readNum at hr
  grind [readPlain_wf]

theorem spillOut_wf {w : Who} {g : Group} {es : List StackEnt} {i : Nat} {s s1 : State} (hr : spillOut s w g i es = .ok s1)
    (h : Memory.wf s.mem = true) : Memory.wf s1.mem = true := by
  induction es generalizing s i with
  | nil => cases hr; exact h
  | cons e es ih =>
    unfold spillOut at hr
    split at hr
    · cases hr
    · rename_i hw
      exact ih hr (writePlain_wf hw h)

theorem spillIn_wf {w : Who} {g : Group} {n i : Nat} {es : List StackEnt} {s s1 : State} (hr : spillIn s w g i n = .ok (es, s1))
    (h : Memory.wf s.mem = true) : Memory.wf s1.mem = true := by
  induction n generalizing s i es with
  | zero => cases hr; exact h
  | succ n ih =>
    unfold spillIn at hr
    split at hr
    · cases hr
    · rename_i hp
      split at hr
      · cases hr
      · rename_i hn
        cases hr
        exact ih hn (readPlain_wf hp h)

theorem spillBy_wf {s : State} {cx : Cx} {g : Group} {i : Nat} {es : List StackEnt} {s1 : State} (hr : spillBy s cx g i es = .ok s1)
    (h : Memory.wf s.mem = true) : Memory.wf s1.mem = true := by
  unfold spillBy at hr
  cases ho : spillOut s { cx.who with op := some s.nextId } g i es with
  | error m => rw [ho] at hr; cases hr
  | ok s2 => rw [ho] at hr; cases hr; simp [spillOut_wf ho h]

theorem pushEnt_wf {s : State} {cx : Cx} {e : StackEnt} {s1 : State} (hr : pushEnt s cx e = .ok s1) (h : Memory.wf s.mem = true) :
    Memory.wf s1.mem = true := by
  unfold pushEnt at hr
  grind [State.setGroup_mem, spillBy_wf]

theorem refill_wf {s : State} {cx : Cx} {s1 : State} (hr : refill s cx = .ok s1) (h : Memory.wf s.mem = true) :
    Memory.wf s1.mem = true := by
  unfold refill at hr
  grind [State.setGroup_mem, spillIn_wf]

theorem findSpilled_wf {w : Who} {g : Group} {k i : Nat} {above : List StackEnt} {x : Option (Nat × StackEnt × List StackEnt)}
    {s s1 : State} (hr : findSpilled s w g k i above = .ok (x, s1)) (h : Memory.wf s.mem = true) : Memory.wf s1.mem = true := by
  induction i generalizing s above with
  | zero => cases hr; exact h
  | succ i ih =>
    unfold findSpilled at hr
    split at hr
    · cases hr
    · rename_i hp
      dsimp only at hr
      split at hr
      · cases hr; exact readPlain_wf hp h
      · exact ih hr (readPlain_wf hp h)

theorem popEnt_wf {s : State} {cx : Cx} {k : Nat} {x : Option StackEnt} {s1 : State} (hr : popEnt s cx k = .ok (x, s1))
    (h : Memory.wf s.mem = true) : Memory.wf s1.mem = true := by
  unfold popEnt at hr
  split at hr
  · cases hr; exact h
  · split at hr
    · split at hr
      · cases hr
      · rename_i hf
        cases hr
        exact refill_wf hf h
    · split at hr
      · cases hr
      · rename_i hf
        cases hr
        exact findSpilled_wf hf h
      · rename_i hf
        split at hr
        · cases hr
        · rename_i hs
          cases hr
          exact (spillBy_wf hs (findSpilled_wf hf h) :)

@[simp] theorem splitHb_mem (s : State) (g : Group) (k k' : Nat) : (splitHb s g k k').mem = s.mem := rfl

theorem stackSep_wf {s : State} {cx : Cx} {k : Nat} {t r : Mask × BitVec 56} {jb : BitVec 56} {deferR : Bool} {g : Group} {sp : Split}
    {s1 : State} {k1 : Nat} (hr : separate.stackSep s cx k t r jb deferR g sp = .ok (s1, k1)) (h : Memory.wf s.mem = true) : Memory.wf
    s1.mem = true := by
  unfold separate.stackSep at hr
  dsimp only at hr
  split at hr
  · cases hr
  · rename_i hp
    split at hr
    · cases hr
    · rename_i hq
      cases hr
      exact (pushEnt_wf hq (pushEnt_wf hp h) :)

theorem separate_wf {s : State} {cx : Cx} {k : Nat} {t r : Mask × BitVec 56} {jb : BitVec 56} {deferR : Bool} {s1 : State} {k1 : Nat}
    (hr : separate s cx k t r jb deferR = .ok (s1, k1)) (h : Memory.wf s.mem = true) : Memory.wf s1.mem = true := by
  unfold separate at hr
  split at hr
  · cases hr; exact h
  · dsimp only at hr
    split at hr
    · split at hr
      · cases hr; simpa using h
      · exact stackSep_wf hr h
    · exact stackSep_wf hr h

@[simp] theorem joinHb_mem (s : State) (key : Nat) (g : Group) (k : Nat) : (joinHb s key g k).mem = s.mem := by
  unfold joinHb
  dsimp only
  split <;> rfl

@[simp] theorem expireHb_mem (s : State) (g g' : Group) : (expireHb s g g').mem = s.mem := by grind [expireHb, learn_mem, foldl_mem]

end Sys2Proof.Machine
end

section
/-! Memory stays canonical: the functions of Machine/Issue. -/

namespace Sys2Proof.Machine

open Sys2Proof

@[simp] theorem setBlock_mem (s : State) (ag : Agent) (b : Nat) : (setBlock s ag b).mem = s.mem := by
  unfold setBlock
  split <;> rfl

@[simp] theorem advance_mem (s : State) (cx : Cx) : (advance s cx).mem = s.mem := by
  unfold advance
  split <;> rfl

@[simp] theorem leave_mem (s : State) (cx : Cx) : (leave s cx).mem = s.mem := by
  unfold leave
  split <;> rfl

@[simp] theorem afterIssue_mem (s : State) (cx : Cx) : (afterIssue s cx).mem = s.mem := (congrArg State.mem (afterIssue_onlyTurn s cx).1 :)

theorem outcome_memWf {s1 : State} (cx : Cx) {e : Eff} (he : e.MemWf) (h : Memory.wf s1.mem = true) : NextMemWf (outcome s1 cx e) := by
  cases e with
  | done s2 => simpa [outcome] using he
  | jump s2 => simpa [outcome] using he
  | wait s2 => simpa [outcome] using he
  | trap t =>
    unfold outcome
    dsimp only
    split
    · simpa using h
    · split <;> simp [h, raise_wf]

theorem finish_memWf {s1 : State} (cx : Cx) {e : Eff} (he : e.MemWf) (h : Memory.wf s1.mem = true) : NextMemWf (finish s1 cx e) := by
  unfold finish
  split
  · exact outcome_memWf cx he h
  · split
    · exact outcome_memWf cx he h
    · simp [h, raise_wf]

/-- An instruction whose effect keeps the canonical form keeps it. -/
theorem issue_memWf {i : Instr} {s : State} {body : Cx → State → Eff} (h : Memory.wf s.mem = true)
    (hb : ∀ cx t, Memory.wf t.mem = true → (body cx t).MemWf) : NextMemWf (issue i s body) := by
  unfold issue
  split
  · trivial
  · rename_i cx s1 hm
    have h1 := mkCx_wf hm h
    split
    · simp [h1, raise_wf]
    · repeat' split
      · simp [h1, raise_wf]
      · simp [h1, raise_wf]
      · simpa using h1
      · exact finish_memWf cx (hb cx s1 h1) h1

@[simp] theorem keepIssued_mem (s : State) (ag : Agent) (t : State) : (keepIssued s ag t).mem = t.mem := by
  unfold keepIssued
  split <;> rfl

@[simp] theorem startHears_mem (s : State) (ag : Agent) (hdr : DWord) : (startHears s ag hdr).mem = s.mem := by
  unfold startHears
  split
  · split
    · rfl
    · exact foldl_mem _ (fun _ _ => hear_mem _ _ _) _ _
  · rfl

/-- A return whose effect keeps the canonical form keeps it. -/
theorem resume_memWf {name : String} {ag : Agent} {s : State} {mine : Instr → Bool} {body : Cx → State → Eff}
    (h : Memory.wf s.mem = true) (hb : ∀ cx t, Memory.wf t.mem = true → (body cx t).MemWf) : NextMemWf (resume name ag s mine body) := by
  unfold resume
  split
  · rename_i cl _
    split
    · trivial
    · split
      · trivial
      · rename_i cx s0 hm
        have h1 : Memory.wf (startHears s0 ag cl.hdr).mem = true := by rw [startHears_mem]; exact mkCx_wf hm h
        dsimp only
        split
        · have hf := finish_memWf cx (hb cx _ h1) h1
          split
          · rename_i hn
            rw [hn] at hf
            simpa using hf
          · exact hf
        · trivial
  · trivial

@[simp] theorem addFix_mem (s : State) (cx : Cx) (ws : List Wr) : (addFix s cx ws).mem = s.mem := by
  unfold addFix
  split <;> rfl

@[simp] theorem addFixTi_mem (s : State) (cx : Cx) (h : Nat) (r : List Word) : (addFixTi s cx h r).mem = s.mem := rfl

@[simp] theorem mergeFlags_mem (s : State) (key : Nat) (fl : BitVec 5) : (mergeFlags s key fl).mem = s.mem := rfl

@[simp] theorem addFixF_mem (s : State) (cx : Cx) (ws : List Wr) (fl : BitVec 5) : (addFixF s cx ws fl).mem = s.mem := by simp [addFixF]

@[simp] theorem startHb_mem (s : State) (cx : Cx) : (startHb s cx).mem = s.mem := by simp [startHb]

@[simp] theorem opDone_mem (s : State) (id : Nat) : (s.opDone id).mem = s.mem := rfl

@[simp] theorem opFollows_mem (s : State) (o : Op) : (opFollows s o).mem = s.mem := by simp [opFollows]

@[simp] theorem travHb_mem (s : State) (o : Op) : (travHb s o).mem = s.mem := by
  unfold travHb
  split <;> simp

@[simp] theorem completeHb_mem (s : State) (o : Op) : (completeHb s o).mem = s.mem := by
  unfold completeHb
  dsimp only
  repeat' split
  all_goals simp

theorem completeHere_wf {s0 : State} (o : Op) (h : Memory.wf s0.mem = true) : Memory.wf (completeHere s0 o).mem = true := by
  unfold completeHere
  dsimp only
  repeat' split
  all_goals simp [h, reap_wf]

theorem completeOp_wf {s : State} (o : Op) (h : Memory.wf s.mem = true) : Memory.wf (completeOp s o).mem = true := by
  unfold completeOp
  split <;> simp [h, completeHere_wf]

@[simp] theorem deferFault_mem (s : State) (id : Nat) (t : Trap) : (deferFault s id t).mem = s.mem := rfl

@[simp] theorem setPc_mem (s : State) (cx : Cx) (a : DWord) : (setPc s cx a).mem = s.mem := by
  unfold setPc
  split <;> rfl

theorem jumpTo_memWf {s : State} (cx : Cx) (a : DWord) (h : Memory.wf s.mem = true) : (jumpTo s cx a).MemWf := by
  unfold jumpTo
  split <;> simp [h]

@[simp] theorem releaseBy_mem (s : State) (cx : Cx) : (releaseBy s cx).mem = s.mem := by simp [releaseBy]

@[simp] theorem modEnt_mem (s : State) (wid i : Nat) (f : SEnt → SEnt) : (s.modEnt wid i f).mem = s.mem := rfl

@[simp] theorem takeEntry_mem (s : State) (wid key : Nat) : (takeEntry s wid key).mem = s.mem := by
  unfold takeEntry
  repeat' split
  all_goals simp

@[simp] theorem takeEntries_mem (s : State) (wid : Nat) : (takeEntries s wid).mem = s.mem := by
  grind [takeEntries, foldl_mem, takeEntry_mem]

@[simp] theorem finishIter_mem (s : State) (ag : Agent) (key : Nat) : (finishIter s ag key).mem = s.mem := by
  unfold finishIter
  dsimp only
  repeat' split
  all_goals simp

@[simp] theorem claimNext_mem (s : State) (wid key : Nat) (f : Fld) : (claimNext s wid key f).mem = s.mem := by
  unfold claimNext
  split <;> simp

@[simp] theorem claimWaiting_mem (s : State) (wid : Nat) : (claimWaiting s wid).mem = s.mem := by
  unfold claimWaiting
  split
  · rfl
  · refine foldl_mem _ (fun s sl => ?_) _ _
    split
    · split
      · split <;> simp
      · rfl
    · rfl

@[simp] theorem dropStages_mem (s : State) (wid : Nat) : (dropStages s wid).mem = s.mem := rfl

@[simp] theorem closeLoop_mem (s : State) (wid : Nat) : (closeLoop s wid).mem = s.mem := by
  unfold closeLoop
  dsimp only
  repeat' split
  all_goals simp

@[simp] theorem closeLoops_mem (s : State) : (closeLoops s).mem = s.mem := by grind [closeLoops, foldl_mem, closeLoop_mem]

@[simp] theorem leaveLoop_mem (s : State) (ag : Agent) (key : Nat) : (leaveLoop s ag key).mem = s.mem := by
  unfold leaveLoop
  dsimp only
  repeat' split
  all_goals simp

theorem fetchClause_wf {s : State} {w : Who} {k : KInfo} {pc : DWord} {x : Clause} {s1 : State}
    (hr : fetchClause s w k pc = .ok (x, s1)) (h : Memory.wf s.mem = true) : Memory.wf s1.mem = true := by
  unfold fetchClause at hr
  grind [readPlain_wf]

end Sys2Proof.Machine
end

section
/-! Memory stays canonical: the functions of Machine/Control. -/

namespace Sys2Proof.Machine

open Sys2Proof

theorem execNop_memWf (f : Fld) {s : State} (h : Memory.wf s.mem = true) : NextMemWf (execNop f s) := issue_memWf h fun _ _ ht => ht

theorem execYield_memWf (f : Fld) {s : State} (h : Memory.wf s.mem = true) : NextMemWf (execYield f s) := by
  refine issue_memWf h fun cx t ht => ?_
  grind [Eff.MemWf, State.modGroup_mem]

@[simp] theorem dropHeld_mem (s : State) (cx : Cx) : (dropHeld s cx).mem = s.mem := by simp [dropHeld]

theorem execExit_memWf (f : Fld) {s : State} (h : Memory.wf s.mem = true) : NextMemWf (execExit f s) := by
  refine issue_memWf h fun cx t ht => ?_
  grind [Eff.MemWf, State.modGroup_mem, State.modWg_mem, releaseTo_mem, leaveLoop_mem, dropHeld_mem]

theorem execRet_memWf (f : Fld) {s : State} (h : Memory.wf s.mem = true) : NextMemWf (execRet f s) := by
  refine issue_memWf h fun cx t ht => ?_
  simp [ht, jumpTo_memWf]

theorem joinBody_memWf (cx : Cx) {s : State} (timer : Option Nat) (h : Memory.wf s.mem = true) : (joinBody cx s timer).MemWf := by
  grind [joinBody, State.modGroup_mem, popEnt_wf, joinHb_mem, releaseBy_mem, Eff.MemWf]

theorem execJoin_memWf (f : Fld) {s : State} (h : Memory.wf s.mem = true) : NextMemWf (execJoin f s) := by
  refine issue_memWf h fun cx t ht => ?_
  simp [ht, joinBody_memWf]

theorem execJoinT_memWf (f : Fld) {s : State} (h : Memory.wf s.mem = true) : NextMemWf (execJoinT f s) := by
  refine issue_memWf h fun cx t ht => ?_
  simp [ht, joinBody_memWf]

theorem execJoinTimerExpiry_memWf (ag : Agent) {s : State} (h : Memory.wf s.mem = true) : NextMemWf (execJoinTimerExpiry ag s) := by
  unfold execJoinTimerExpiry
  split
  · split
    · trivial
    · split
      · simpa using h
      · trivial
  · trivial

theorem execTrap_memWf (f : Fld) {s : State} (h : Memory.wf s.mem = true) : NextMemWf (execTrap f s) := by
  refine issue_memWf h fun cx t ht => ?_
  simp

theorem execBra_memWf (f : Fld) {s : State} (h : Memory.wf s.mem = true) : NextMemWf (execBra f s) := by
  refine issue_memWf h fun cx t ht => ?_
  simp [ht, jumpTo_memWf]

theorem brpBody_memWf (take : Nat → Nat → Bool) (cx : Cx) {s : State} (h : Memory.wf s.mem = true) : (brpBody take cx s).MemWf := by
  unfold brpBody
  dsimp only
  split <;> simp [h, jumpTo_memWf]

theorem execBrpAll_memWf (f : Fld) {s : State} (h : Memory.wf s.mem = true) : NextMemWf (execBrpAll f s) := by
  refine issue_memWf h fun cx t ht => ?_
  simp [ht, brpBody_memWf]

theorem execBrpAny_memWf (f : Fld) {s : State} (h : Memory.wf s.mem = true) : NextMemWf (execBrpAny f s) := by
  refine issue_memWf h fun cx t ht => ?_
  simp [ht, brpBody_memWf]

theorem execBrpNone_memWf (f : Fld) {s : State} (h : Memory.wf s.mem = true) : NextMemWf (execBrpNone f s) := by
  refine issue_memWf h fun cx t ht => ?_
  simp [ht, brpBody_memWf]

theorem execBrv_memWf (f : Fld) {s : State} (h : Memory.wf s.mem = true) : NextMemWf (execBrv f s) := by
  refine issue_memWf h fun cx t ht => ?_
  grind [Eff.MemWf, separate_wf, jumpTo_memWf]

theorem tableTargets_wf {cx : Cx} {tab : DWord} {xs : List (Nat × Mask)} {ys : List (Mask × DWord)} {s s1 : State}
    (hr : tableTargets s cx tab xs = .ok (ys, s1)) (h : Memory.wf s.mem = true) : Memory.wf s1.mem = true := by
  induction xs generalizing s ys with
  | nil => cases hr; exact h
  | cons x xs ih =>
    unfold tableTargets at hr
    split at hr
    · cases hr
    · rename_i hp
      dsimp only at hr
      split at hr
      · cases hr
      · split at hr
        · cases hr
        · rename_i ht
          cases hr
          exact ih ht (readPlain_wf hp h)

theorem separateAll_wf {cx : Cx} {jb : BitVec 56} {ts : List (Mask × DWord)} {k : Nat} {s s1 : State}
    (hr : separateAll s cx jb k ts = .ok s1) (h : Memory.wf s.mem = true) : Memory.wf s1.mem = true := by
  induction ts generalizing s k with
  | nil => cases hr; exact h
  | cons t ts ih =>
    cases ts with
    | nil => cases hr; exact h
    | cons u us =>
      unfold separateAll at hr
      dsimp only at hr
      split at hr
      · cases hr
      · rename_i hs
        exact ih hr (separate_wf hs h)

theorem brxBody_memWf (cx : Cx) {s : State} (h : Memory.wf s.mem = true) : (brxBody cx s).MemWf := by
  unfold brxBody
  dsimp only
  repeat' split
  all_goals grind [readPlain_wf, tableTargets_wf, separateAll_wf, Eff.MemWf]

theorem execBrx_memWf (f : Fld) {s : State} (h : Memory.wf s.mem = true) : NextMemWf (execBrx f s) := by
  refine issue_memWf h fun cx t ht => ?_
  simp [ht, brxBody_memWf]

theorem execCall_memWf (f : Fld) {s : State} (h : Memory.wf s.mem = true) : NextMemWf (execCall f s) := by
  refine issue_memWf h fun cx t ht => ?_
  simp [ht, jumpTo_memWf]

theorem execCallx_memWf (f : Fld) {s : State} (h : Memory.wf s.mem = true) : NextMemWf (execCallx f s) := by
  refine issue_memWf h fun cx t ht => ?_
  simp [ht, brxBody_memWf]

theorem execSys_memWf (f : Fld) {s : State} (h : Memory.wf s.mem = true) : NextMemWf (execSys f s) := by
  refine issue_memWf h fun cx t ht => ?_
  simp [ht]

theorem execSysComplete_memWf (id : Nat) {s : State} (h : Memory.wf s.mem = true) : NextMemWf (execSysComplete id s) := by
  unfold execSysComplete
  split
  · trivial
  · split
    · exact completeOp_wf _ h
    · trivial

@[simp] theorem sysStatus_mem (s : State) (o : Op) (st : Word) : (sysStatus s o st).mem = s.mem := rfl

theorem readFor_memWf (name : String) {s bad : State} (o : Op) (a : DWord) (n : Nat) {go : List Byte → State → State}
    (h : Memory.wf s.mem = true) (hbad : Memory.wf bad.mem = true)
    (hgo : ∀ bs t, Memory.wf t.mem = true → Memory.wf (go bs t).mem = true) : NextMemWf (readFor name s o a n bad go) := by
  unfold readFor
  split
  · rename_i bs s1 hr
    exact hgo bs s1 (readPlain_wf hr h)
  · split
    · exact hbad
    · split
      · simpa using h
      · trivial

theorem service_memWf (name : String) (n len id : Nat) {s : State} {act : Op → List Byte → State → Host.Outcome State Fault Refusal}
    (h : Memory.wf s.mem = true) (hact : ∀ o bs t, Memory.wf t.mem = true → NextMemWf (act o bs t)) : NextMemWf
    (service name n len id s act) := by
  unfold service
  split
  · trivial
  · rename_i o _
    split
    · split
      · trivial
      · split
        · exact hact o [] s h
        · split
          · exact h
          · split
            · rename_i bs s1 hr
              exact hact o bs s1 (readPlain_wf hr h)
            · split
              · exact h
              · split
                · simpa using h
                · trivial
    · trivial

theorem execSysServiceNone_memWf (id : Nat) {s : State} (h : Memory.wf s.mem = true) : NextMemWf (execSysServiceNone id s) :=
  service_memWf _ 0 0 id h fun _ _ _ ht => ht

theorem appendLog_wf {s : State} (o : Op) (data : List Byte) (h : Memory.wf s.mem = true) : Memory.wf (appendLog s o data).mem = true := by
  unfold appendLog
  dsimp only
  repeat' split
  all_goals simp [h, writeBytes_wf]

theorem execSysServiceLog_memWf (id : Nat) {s : State} (h : Memory.wf s.mem = true) : NextMemWf (execSysServiceLog id s) := by
  refine service_memWf _ 1 12 id h fun o bs t ht => ?_
  dsimp only
  split
  · exact ht
  · split
    · exact appendLog_wf o [] ht
    · exact readFor_memWf _ o _ _ ht ht fun data _ hu => appendLog_wf o data hu

theorem execSysServiceRaiseVector_memWf (id : Nat) {s : State} (h : Memory.wf s.mem = true) :
    NextMemWf (execSysServiceRaiseVector id s) := service_memWf _ 2 4 id h fun _ _ _ ht => ht

theorem execSysServiceHostWrite_memWf (id : Nat) {s : State} (h : Memory.wf s.mem = true) : NextMemWf (execSysServiceHostWrite id s) :=
  service_memWf _ 3 16 id h fun _ _ _ ht => by simp [writeNat_wf, ht]

end Sys2Proof.Machine
end

section
/-! Memory stays canonical: the functions of Machine/Remote. -/

namespace Sys2Proof.Machine

open Sys2Proof

theorem withFar_memWf (name : String) {s : State} (o : Op) (ns : Bool) (hs : List Hit) {go : State → Host.Outcome State Fault Refusal}
    (h : Memory.wf s.mem = true) (hgo : NextMemWf (go s)) : NextMemWf (withFar name s o ns hs go) := by
  unfold withFar
  dsimp only
  split
  · exact hgo
  · split
    · simpa using h
    · trivial

end Sys2Proof.Machine
end

section
/-! Memory stays canonical: the functions of Machine/Memory. -/

namespace Sys2Proof.Machine

open Sys2Proof

@[simp] theorem stopPoison_mem (s : State) (id key : Nat) : (stopPoison s id key).mem = s.mem := by
  unfold stopPoison
  split <;> rfl

theorem loadEff_memWf {s : State} (cx : Cx) (marked : Bool) (ty d n : Nat) (hs : List (Req × List Hit)) (h : Memory.wf s.mem = true) :
    (loadEff s cx marked ty d n hs).MemWf := by
  unfold loadEff
  dsimp only
  repeat' split
  all_goals simp [h]

theorem completeNow_wf {s : State} (h : Memory.wf s.mem = true) : Memory.wf (completeNow s).mem = true := by
  unfold completeNow
  split <;> simp [h, completeOp_wf]

@[simp] theorem relIf_mem (s : State) (cx : Cx) : (relIf s cx).mem = s.mem := by
  unfold relIf
  split <;> simp

theorem execLd_memWf (f : Fld) {s : State} (h : Memory.wf s.mem = true) : NextMemWf (execLd f s) := by
  refine issue_memWf h fun cx t ht => ?_
  grind [Eff.MemWf, resolveAll_wf, startOp_mem, loadEff_memWf, completeNow_wf]

theorem execLds_memWf (f : Fld) {s : State} (h : Memory.wf s.mem = true) : NextMemWf (execLds f s) := by
  refine issue_memWf h fun cx t ht => ?_
  grind [Eff.MemWf, resolveAll_wf, loadEff_memWf]

@[simp] theorem afterStore_mem (s : State) (cx : Cx) : (afterStore s cx).mem = s.mem := by
  unfold afterStore
  split <;> simp

theorem storeEff_memWf {s : State} (cx : Cx) (rs : List Req) (data : Nat → List Byte) (h : Memory.wf s.mem = true) :
    (storeEff s cx rs data).MemWf := by grind [storeEff, resolveAll_wf, writeLanes_wf, startOp_mem, afterStore_mem, Eff.MemWf]

theorem execSt_memWf (f : Fld) {s : State} (h : Memory.wf s.mem = true) : NextMemWf (execSt f s) := by
  refine issue_memWf h fun cx t ht => ?_
  simp [ht, storeEff_memWf]

theorem execSts_memWf (f : Fld) {s : State} (h : Memory.wf s.mem = true) : NextMemWf (execSts f s) := by
  refine issue_memWf h fun cx t ht => ?_
  simp [ht, storeEff_memWf]

theorem atomLanes_wf (w : Who) (mn ty : Nat) (xs : List (Nat × List Hit × DWord × DWord)) {s : State} (h : Memory.wf s.mem = true) :
    Memory.wf (atomLanes s w mn ty xs).2.2.mem = true := by
  induction xs generalizing s with
  | nil => exact h
  | cons x xs ih => exact ih (writeHits_wf w true _ _ (by simpa using h))

theorem atomHere_wf (w : Who) (mn ty : Nat) (xs : List (Nat × List Hit × DWord × DWord × Nat)) {s : State} (h : Memory.wf s.mem = true)
    : Memory.wf (atomHere s w mn ty xs).2.2.mem = true := by
  induction xs generalizing s with
  | nil => exact h
  | cons x xs ih =>
    unfold atomHere
    split
    · exact ih h
    · exact ih (atomLanes_wf w mn ty [(x.1, x.2.1, x.2.2.1, x.2.2.2.1)] h)

/-- Asking for one lane's atomic, as `askAtoms` does in lane order. -/
def askAtom (o : Op) (ns : Bool) (mn ty : Nat) (ask : AtomLane → Bool) (acc : State × List Nat × List AtomLane) (x : AtomLane) :
    State × List Nat × List AtomLane :=
  match x.2.1 with
  | h :: _ =>
    if ask x then
      let (tag, s1) := requestRun acc.1 ns o.id h (tyBits ty / 8) (atomPayload mn ty x.2.2.1 x.2.2.2.1)
      (s1, acc.2.1 ++ [tag], acc.2.2 ++ [(x.1, x.2.1, x.2.2.1, x.2.2.2.1, tag)])
    else (acc.1, acc.2.1, acc.2.2 ++ [x])
  | [] => (acc.1, acc.2.1, acc.2.2 ++ [x])

theorem askAtom_mem (o : Op) (ns : Bool) (mn ty : Nat) (ask : AtomLane → Bool) (acc : State × List Nat × List AtomLane) (x : AtomLane) :
    (askAtom o ns mn ty ask acc x).1.mem = acc.1.mem := by
  unfold askAtom
  split
  · split <;> simp
  · rfl

@[simp] theorem askAtoms_mem (s : State) (o : Op) (ns : Bool) (mn ty d : Nat) (ret : Bool) (ask : AtomLane → Bool)
    (plan : List AtomLane) : (askAtoms s o ns mn ty d ret ask plan).mem = s.mem := by
  suffices hf : ∀ acc, (plan.foldl (askAtom o ns mn ty ask) acc).1.mem = acc.1.mem from hf (s, [], [])
  induction plan with
  | nil => exact fun _ => rfl
  | cons x xs ih => exact fun acc => (ih _).trans (askAtom_mem o ns mn ty ask acc x)

theorem atomGo_wf {s : State} (o : Op) (w : Who) (mn ty d : Nat) (ret : Bool) (plan : List AtomLane) (h : Memory.wf s.mem = true) :
    Memory.wf (atomGo s o w mn ty d ret plan).mem = true := by simp [atomGo, atomHere_wf, h]

theorem execAtom_memWf (f : Fld) {s : State} (h : Memory.wf s.mem = true) : NextMemWf (execAtom f s) := by
  refine issue_memWf h fun cx t ht => ?_
  grind [Eff.MemWf, resolveAll_wf, startOp_mem, startLater_mem, newLoad_mem, opFollows_mem, stopPoison_mem, afterStore_mem, atomLanes_wf, atomGo_wf]

theorem lcResolve_wf {s : State} {w : Who} {lanes : List (Nat × DWord × DWord × Nat × Nat)} {x : List (Req × List Hit)}
    {y : List (Req × List Hit)} {s1 : State} (hr : lcResolve s w lanes = .ok (x, y, s1)) (h : Memory.wf s.mem = true) : Memory.wf s1.mem
    = true := by
  unfold lcResolve at hr
  grind [resolveAll_wf]

theorem execLcopy_memWf (f : Fld) {s : State} (h : Memory.wf s.mem = true) : NextMemWf (execLcopy f s) := by
  refine issue_memWf h fun cx t ht => ?_
  grind [Eff.MemWf, startOp_mem, startHb_mem, completeNow_wf, lcResolve_wf]

@[simp] theorem movePoison_mem (old s : State) (pairs : List (Nat × Nat)) : (movePoison old s pairs).mem = s.mem := rfl

theorem lcMove_wf {s : State} (w : Who) (a b : List (Req × List Hit)) (h : Memory.wf s.mem = true) : Memory.wf (lcMove s w a b).mem =
    true := by
  simp [lcMove, writeLanes_wf, h]

theorem endEngine_wf {s : State} (o : Op) (h : Memory.wf s.mem = true) : Memory.wf (endEngine s o).mem = true := by
  unfold endEngine
  dsimp only
  split <;> simp [h, completeOp_wf]

theorem execLcopyComplete_memWf (id : Nat) {s : State} (h : Memory.wf s.mem = true) : NextMemWf (execLcopyComplete id s) := by
  unfold execLcopyComplete
  split
  · trivial
  · split
    · split
      · exact h
      · rename_i hr
        have h1 := lcResolve_wf hr h
        exact withFar_memWf _ _ _ _ h1 (endEngine_wf _ (lcMove_wf _ _ _ h1))
    · trivial

theorem waitfEff_memWf (cx : Cx) {s : State} (h : Memory.wf s.mem = true) : (waitfEff cx s).MemWf := by
  unfold waitfEff
  split <;> simp [h]

theorem execWaitf_memWf (f : Fld) {s : State} (h : Memory.wf s.mem = true) : NextMemWf (execWaitf f s) := by
  refine issue_memWf h fun cx t ht => ?_
  simp [ht, waitfEff_memWf]

theorem execWaitfReturn_memWf (ag : Agent) {s : State} (h : Memory.wf s.mem = true) : NextMemWf (execWaitfReturn ag s) := by
  refine resume_memWf h fun cx t ht => ?_
  simp [ht, waitfEff_memWf]

@[simp] theorem fenceAcq_mem (s : State) (w : Who) : (fenceAcq s w).mem = s.mem := by
  grind [fenceAcq, State.modOp_mem, learn_mem, foldl_mem]

@[simp] theorem fenceRel_mem (s : State) (cx : Cx) : (fenceRel s cx).mem = s.mem := by simp [fenceRel]

@[simp] theorem fencePaths_mem (s : State) (me : Nat) : (fencePaths s me).mem = s.mem := by simp [fencePaths]

@[simp] theorem fenceOrder_mem (s : State) (w : Who) : (fenceOrder s w).mem = s.mem := by simp [fenceOrder]

theorem execFence_memWf (f : Fld) {s : State} (h : Memory.wf s.mem = true) : NextMemWf (execFence f s) := by
  refine issue_memWf h fun cx t ht => ?_
  dsimp only
  repeat' split
  all_goals simp [ht]

@[simp] theorem widenRels_mem (s : State) (w : Who) (k : Nat) : (widenRels s w k).mem = s.mem := by
  unfold widenRels
  split <;> rfl

theorem execPromote_memWf (f : Fld) {s : State} (h : Memory.wf s.mem = true) : NextMemWf (execPromote f s) := by
  refine issue_memWf h fun cx t ht => ?_
  grind [Eff.MemWf, resolveAll_wf, loadEff_memWf, widenRels_mem]

end Sys2Proof.Machine
end

section
/-! Memory stays canonical: the functions of Machine/Vector. -/

namespace Sys2Proof.Machine

open Sys2Proof

@[simp] theorem vResultAs_mem (s : State) (cx : Cx) (ty : Nat) (f : Nat → Nat) : (vResultAs s cx ty f).mem = s.mem := by simp [vResultAs]

@[simp] theorem vResult_mem (s : State) (cx : Cx) (f : Nat → Nat) : (vResult s cx f).mem = s.mem := by simp [vResult]

@[simp] theorem pResult_mem (s : State) (cx : Cx) (f : Nat → Bool) : (pResult s cx f).mem = s.mem := by simp [pResult]

theorem vBin_memWf (op : Nat → Nat → Nat → Nat) (cx : Cx) {s : State} (h : Memory.wf s.mem = true) : (vBin op cx s).MemWf := by
  simp [vBin, h]

theorem vShift_memWf (op : Nat → Nat → Nat → Nat) (cx : Cx) {s : State} (h : Memory.wf s.mem = true) : (vShift op cx s).MemWf := by
  simp [vShift, h]

theorem vUn_memWf (op : Nat → Nat → Nat) (cx : Cx) {s : State} (h : Memory.wf s.mem = true) : (vUn op cx s).MemWf := by simp [vUn, h]

theorem vUn32_memWf (op : Nat → Nat → Nat) (cx : Cx) {s : State} (h : Memory.wf s.mem = true) : (vUn32 op cx s).MemWf := by
  simp [vUn32, h]

theorem vVar_memWf (op : Nat → Nat → Nat → Nat) (cx : Cx) {s : State} (h : Memory.wf s.mem = true) : (vVar op cx s).MemWf := by
  simp [vVar, h]

theorem execVadd_memWf (f : Fld) {s : State} (h : Memory.wf s.mem = true) : NextMemWf (execVadd f s) := by
  refine issue_memWf h fun cx t ht => ?_
  simp [ht, vBin_memWf]

theorem execVsub_memWf (f : Fld) {s : State} (h : Memory.wf s.mem = true) : NextMemWf (execVsub f s) := by
  refine issue_memWf h fun cx t ht => ?_
  simp [ht, vBin_memWf]

theorem execVmin_memWf (f : Fld) {s : State} (h : Memory.wf s.mem = true) : NextMemWf (execVmin f s) := by
  refine issue_memWf h fun cx t ht => ?_
  simp [ht, vBin_memWf]

theorem execVmax_memWf (f : Fld) {s : State} (h : Memory.wf s.mem = true) : NextMemWf (execVmax f s) := by
  refine issue_memWf h fun cx t ht => ?_
  simp [ht, vBin_memWf]

theorem execVand_memWf (f : Fld) {s : State} (h : Memory.wf s.mem = true) : NextMemWf (execVand f s) := by
  refine issue_memWf h fun cx t ht => ?_
  simp [ht, vBin_memWf]

theorem execVor_memWf (f : Fld) {s : State} (h : Memory.wf s.mem = true) : NextMemWf (execVor f s) := by
  refine issue_memWf h fun cx t ht => ?_
  simp [ht, vBin_memWf]

theorem execVxor_memWf (f : Fld) {s : State} (h : Memory.wf s.mem = true) : NextMemWf (execVxor f s) := by
  refine issue_memWf h fun cx t ht => ?_
  simp [ht, vBin_memWf]

theorem execVnot_memWf (f : Fld) {s : State} (h : Memory.wf s.mem = true) : NextMemWf (execVnot f s) := by
  refine issue_memWf h fun cx t ht => ?_
  simp [ht, vUn_memWf]

theorem execVshl_memWf (f : Fld) {s : State} (h : Memory.wf s.mem = true) : NextMemWf (execVshl f s) := by
  refine issue_memWf h fun cx t ht => ?_
  simp [ht, vShift_memWf]

theorem execVshr_memWf (f : Fld) {s : State} (h : Memory.wf s.mem = true) : NextMemWf (execVshr f s) := by
  refine issue_memWf h fun cx t ht => ?_
  simp [ht, vShift_memWf]

theorem execVabs_memWf (f : Fld) {s : State} (h : Memory.wf s.mem = true) : NextMemWf (execVabs f s) := by
  refine issue_memWf h fun cx t ht => ?_
  simp [ht, vUn_memWf]

theorem execVclz_memWf (f : Fld) {s : State} (h : Memory.wf s.mem = true) : NextMemWf (execVclz f s) := by
  refine issue_memWf h fun cx t ht => ?_
  simp [ht, vUn32_memWf]

theorem execVpop_memWf (f : Fld) {s : State} (h : Memory.wf s.mem = true) : NextMemWf (execVpop f s) := by
  refine issue_memWf h fun cx t ht => ?_
  simp [ht, vUn32_memWf]

theorem execVbrev_memWf (f : Fld) {s : State} (h : Memory.wf s.mem = true) : NextMemWf (execVbrev f s) := by
  refine issue_memWf h fun cx t ht => ?_
  simp [ht, vUn_memWf]

theorem execVmul_memWf (f : Fld) {s : State} (h : Memory.wf s.mem = true) : NextMemWf (execVmul f s) := by
  refine issue_memWf h fun cx t ht => ?_
  simp [ht, vBin_memWf]

theorem execVmulh_memWf (f : Fld) {s : State} (h : Memory.wf s.mem = true) : NextMemWf (execVmulh f s) := by
  refine issue_memWf h fun cx t ht => ?_
  simp [ht, vBin_memWf]

theorem execVmad_memWf (f : Fld) {s : State} (h : Memory.wf s.mem = true) : NextMemWf (execVmad f s) := by
  refine issue_memWf h fun cx t ht => ?_
  simp [ht]

theorem execVdiv_memWf (f : Fld) {s : State} (h : Memory.wf s.mem = true) : NextMemWf (execVdiv f s) := by
  refine issue_memWf h fun cx t ht => ?_
  simp [ht, vVar_memWf]

theorem execVrem_memWf (f : Fld) {s : State} (h : Memory.wf s.mem = true) : NextMemWf (execVrem f s) := by
  refine issue_memWf h fun cx t ht => ?_
  simp [ht, vVar_memWf]

theorem execVcmp_memWf (f : Fld) {s : State} (h : Memory.wf s.mem = true) : NextMemWf (execVcmp f s) := by
  refine issue_memWf h fun cx t ht => ?_
  simp [ht]

theorem execVsel_memWf (f : Fld) {s : State} (h : Memory.wf s.mem = true) : NextMemWf (execVsel f s) := by
  refine issue_memWf h fun cx t ht => ?_
  simp [ht]

theorem execVmov_memWf (f : Fld) {s : State} (h : Memory.wf s.mem = true) : NextMemWf (execVmov f s) := by
  refine issue_memWf h fun cx t ht => ?_
  simp [ht]

theorem execVli_memWf (f : Fld) {s : State} (h : Memory.wf s.mem = true) : NextMemWf (execVli f s) := by
  refine issue_memWf h fun cx t ht => ?_
  simp [ht]

theorem execVbfe_memWf (f : Fld) {s : State} (h : Memory.wf s.mem = true) : NextMemWf (execVbfe f s) := by
  refine issue_memWf h fun cx t ht => ?_
  simp [ht, vShift_memWf]

theorem execVbfi_memWf (f : Fld) {s : State} (h : Memory.wf s.mem = true) : NextMemWf (execVbfi f s) := by
  refine issue_memWf h fun cx t ht => ?_
  simp [ht]

theorem execVbrevFld_memWf (f : Fld) {s : State} (h : Memory.wf s.mem = true) : NextMemWf (execVbrevFld f s) := by
  refine issue_memWf h fun cx t ht => ?_
  simp [ht, vShift_memWf]

theorem pBin_memWf (op : Mask → Mask → Mask) (cx : Cx) {s : State} (h : Memory.wf s.mem = true) : (pBin op cx s).MemWf := by
  simp [pBin, h]

theorem execPand_memWf (f : Fld) {s : State} (h : Memory.wf s.mem = true) : NextMemWf (execPand f s) := by
  refine issue_memWf h fun cx t ht => ?_
  simp [ht, pBin_memWf]

theorem execPor_memWf (f : Fld) {s : State} (h : Memory.wf s.mem = true) : NextMemWf (execPor f s) := by
  refine issue_memWf h fun cx t ht => ?_
  simp [ht, pBin_memWf]

theorem execPxor_memWf (f : Fld) {s : State} (h : Memory.wf s.mem = true) : NextMemWf (execPxor f s) := by
  refine issue_memWf h fun cx t ht => ?_
  simp [ht, pBin_memWf]

theorem execPnot_memWf (f : Fld) {s : State} (h : Memory.wf s.mem = true) : NextMemWf (execPnot f s) := by
  refine issue_memWf h fun cx t ht => ?_
  simp [ht, pBin_memWf]

theorem execVoteAll_memWf (f : Fld) {s : State} (h : Memory.wf s.mem = true) : NextMemWf (execVoteAll f s) := by
  refine issue_memWf h fun cx t ht => ?_
  simp [ht]

theorem execVoteAny_memWf (f : Fld) {s : State} (h : Memory.wf s.mem = true) : NextMemWf (execVoteAny f s) := by
  refine issue_memWf h fun cx t ht => ?_
  simp [ht]

theorem execVoteBallot_memWf (f : Fld) {s : State} (h : Memory.wf s.mem = true) : NextMemWf (execVoteBallot f s) := by
  refine issue_memWf h fun cx t ht => ?_
  grind [Eff.MemWf, addFix_mem]

end Sys2Proof.Machine
end

section
/-! Memory stays canonical: the functions of Machine/Iterators. -/

namespace Sys2Proof.Machine

open Sys2Proof

theorem execTiset_memWf (f : Fld) {s : State} (h : Memory.wf s.mem = true) : NextMemWf (execTiset f s) := by
  refine issue_memWf h fun cx t ht => ?_
  dsimp only
  repeat' split
  all_goals simp [ht]

theorem execTiget_memWf (f : Fld) {s : State} (h : Memory.wf s.mem = true) : NextMemWf (execTiget f s) := by
  refine issue_memWf h fun cx t ht => ?_
  simp [ht]

@[simp] theorem tiAdvance_mem (s : State) (t : Tiop) (key : Nat) : (tiAdvance s t key).mem = s.mem := rfl

/-- What a part of an engine's work comes to keeps the canonical form, done or stopped. -/
def Stepped.MemWf : Stepped → Prop
  | .ok s | .stop s _ => Memory.wf s.mem = true

theorem Stepped.MemWf.of_ok {x : Stepped} {s : State} (h : x.MemWf) (hx : x = .ok s) : Memory.wf s.mem = true := by
  subst hx
  exact h

theorem Stepped.MemWf.of_stop {x : Stepped} {s : State} {m : MFault} (h : x.MemWf) (hx : x = .stop s m) : Memory.wf s.mem = true := by
  subst hx
  exact h

@[simp] theorem modTiop_mem (s : State) (id : Nat) (f : Tiop → Tiop) : (s.modTiop id f).mem = s.mem := rfl

theorem tiStep_memWf {s : State} (o : Op) (t : Tiop) (key k : Nat) (h : Memory.wf s.mem = true) : (tiStep s o t key k).MemWf := by
  unfold tiStep
  split
  · exact h
  · dsimp only
    split
    · exact h
    · split
      · exact h
      · split
        · exact h
        · rename_i hs s1 hr
          have h1 := resolveAll_wf hr h
          split
          · exact (writeLanes_wf hs (grpWho s o) false (tiBytes t k) h1 :)
          · split
            · exact h1
            · have h2 : Memory.wf (readByteLanes s1 (grpWho s o) false hs).2.mem = true := by simpa using h1
              split
              · exact h2
              · exact h2

theorem tiSteps_memWf (o : Op) (t : Tiop) (key : Nat) (n k : Nat) {s : State} (h : Memory.wf s.mem = true) :
    (tiSteps s o t key k n).MemWf := by
  induction n generalizing s k with
  | zero => exact h
  | succ n ih =>
    have h1 := tiStep_memWf o t key k h
    unfold tiSteps
    split
    · rename_i hx
      exact h1.of_stop hx
    · rename_i hx
      exact ih _ (h1.of_ok hx)

@[simp] theorem landSoFar_mem (s : State) (id key : Nat) : (landSoFar s id key).mem = s.mem := by
  unfold landSoFar
  split <;> rfl

theorem tiRun_memWf {s : State} (o : Op) (t : Tiop) (key : Nat) (h : Memory.wf s.mem = true) : (tiRun s o t key).MemWf := by
  unfold tiRun
  dsimp only
  split
  · rename_i hx
    exact (tiSteps_memWf o t key _ _ h).of_ok hx
  · rename_i hx
    exact (by simpa using (tiSteps_memWf o t key _ _ h).of_stop hx :
      Memory.wf (deferFault (landSoFar _ o.id key) o.id _).mem = true)

@[simp] theorem tiAsk_mem (s : State) (id : Nat) (ns : Bool) : (tiAsk s id ns).mem = s.mem := by
  unfold tiAsk
  split
  · rfl
  · split
    · split <;> simp
    · rfl

theorem tiopEff_memWf (mode : Nat) (cx : Cx) {s : State} (h : Memory.wf s.mem = true) : (tiopEff mode cx s).MemWf := by
  unfold tiopEff
  dsimp only
  split
  · simp [completeNow_wf, h]
  · split
    · trivial
    · split
      · simpa using h
      · rename_i o _
        split
        · rename_i hx
          simpa using (tiRun_memWf o _ cx.gk (by simpa using h)).of_ok hx
        · rename_i hx
          simpa using (tiRun_memWf o _ cx.gk (by simpa using h)).of_stop hx

theorem execTiopLd_memWf (f : Fld) {s : State} (h : Memory.wf s.mem = true) : NextMemWf (execTiopLd f s) := by
  refine issue_memWf h fun cx t ht => ?_
  simp [ht, tiopEff_memWf]

theorem execTiopSt_memWf (f : Fld) {s : State} (h : Memory.wf s.mem = true) : NextMemWf (execTiopSt f s) := by
  refine issue_memWf h fun cx t ht => ?_
  simp [ht, tiopEff_memWf]

theorem execTiopAdv_memWf (f : Fld) {s : State} (h : Memory.wf s.mem = true) : NextMemWf (execTiopAdv f s) := by
  refine issue_memWf h fun cx t ht => ?_
  simp [ht, tiopEff_memWf]

theorem tiopEnd_memWf {s : State} (o : Op) (t : Tiop) (key : Nat) (h : Memory.wf s.mem = true) : NextMemWf (tiopEnd s o t key) := by
  unfold tiopEnd
  split
  · simpa using h
  · split
    · exact h
    · exact completeOp_wf _ h

theorem tiopComplete_memWf {s : State} (o : Op) (t : Tiop) (h : Memory.wf s.mem = true) : NextMemWf (tiopComplete s o t) := by
  unfold tiopComplete
  split
  · exact h
  · rename_i key _
    split
    · trivial
    · refine withFar_memWf _ o _ _ h ?_
      split
      · rename_i hx
        simpa using (tiRun_memWf o t key h).of_stop hx
      · rename_i hx
        have h1 := (tiRun_memWf o t key h).of_ok hx
        split
        · exact h1
        · exact tiopEnd_memWf _ _ _ (by simpa using h1)

theorem slotResolve_wf {s : State} {w : Who} {k : AccK} {slot : DWord} {off n : Nat} {x : List (Req × List Hit)} {s1 : State}
    (hr : slotResolve s w k slot off n = .ok (x, s1)) (h : Memory.wf s.mem = true) : Memory.wf s1.mem = true := by
  unfold slotResolve at hr
  grind [resolveAll_wf]

theorem execSpill_memWf (f : Fld) {s : State} (h : Memory.wf s.mem = true) : NextMemWf (execSpill f s) := by
  refine issue_memWf h fun cx t ht => ?_
  grind [Eff.MemWf, writeLanes_wf, startOp_mem, slotResolve_wf]

/-- What reading a slot comes to keeps the canonical form. -/
def Filled.MemWf : Filled → Prop
  | .ok _ _ s | .poison _ s | .far _ s => Memory.wf s.mem = true
  | .bad _ => True

@[simp] theorem Filled.memWf_bad (m : MFault) : (Filled.bad m).MemWf := trivial
@[simp] theorem Filled.memWf_poison (k : Nat) (s : State) : (Filled.poison k s).MemWf ↔ Memory.wf s.mem = true := Iff.rfl
@[simp] theorem Filled.memWf_far (hs : List Hit) (s : State) : (Filled.far hs s).MemWf ↔ Memory.wf s.mem = true := Iff.rfl
@[simp] theorem Filled.memWf_ok (hdr data : List Byte) (s : State) : (Filled.ok hdr data s).MemWf ↔ Memory.wf s.mem = true := Iff.rfl

theorem fillRead_memWf {s : State} (w : Who) (act : Mask) (slot : DWord) (h : Memory.wf s.mem = true) : (fillRead s w act slot).MemWf := by
  unfold fillRead
  split
  · trivial
  · rename_i hs s1 hr
    have h1 := slotResolve_wf hr h
    dsimp only
    split
    · exact h1
    · split
      · exact h1
      · split
        · trivial
        · have h2 : Memory.wf (readHits s1 w false (hs.flatMap (·.2))).2.mem = true := by simpa using h1
          split
          · trivial
          · rename_i hr3
            have h3 := slotResolve_wf hr3 h2
            split
            · exact h2
            · split
              · exact h3
              · exact (by simpa using h3 : Memory.wf (readHits _ w false _).2.mem = true)

theorem execFill_memWf (f : Fld) {s : State} (h : Memory.wf s.mem = true) : NextMemWf (execFill f s) := by
  refine issue_memWf h fun cx t ht => ?_
  have hf := fillRead_memWf { cx.who with got := [] } cx.act cx.slot ht
  dsimp only
  split
  · trivial
  · rename_i hx
    rw [hx] at hf
    simpa using hf
  · rename_i hx
    rw [hx] at hf
    simpa using hf
  · rename_i hx
    rw [hx] at hf
    simpa using hf

end Sys2Proof.Machine
end

section
/-! Memory stays canonical: the functions of Machine/Scalar. -/

namespace Sys2Proof.Machine

open Sys2Proof

@[simp] theorem sResult_mem (s : State) (cx : Cx) (x : Nat) : (sResult s cx x).mem = s.mem := by simp [sResult]

@[simp] theorem sResult32_mem (s : State) (cx : Cx) (x : Nat) : (sResult32 s cx x).mem = s.mem := by simp [sResult32]

theorem sBin_memWf (op : Nat → Nat → Nat → Nat) (cx : Cx) {s : State} (h : Memory.wf s.mem = true) : (sBin op cx s).MemWf := by
  simp [sBin, h]

theorem sShift_memWf (op : Nat → Nat → Nat → Nat) (cx : Cx) {s : State} (h : Memory.wf s.mem = true) : (sShift op cx s).MemWf := by
  simp [sShift, h]

theorem sVar_memWf (op : Nat → Nat → Nat → Nat) (cx : Cx) {s : State} (h : Memory.wf s.mem = true) : (sVar op cx s).MemWf := by
  simp [sVar, h]

theorem execSadd_memWf (f : Fld) {s : State} (h : Memory.wf s.mem = true) : NextMemWf (execSadd f s) := by
  refine issue_memWf h fun cx t ht => ?_
  simp [ht, sBin_memWf]

theorem execSsub_memWf (f : Fld) {s : State} (h : Memory.wf s.mem = true) : NextMemWf (execSsub f s) := by
  refine issue_memWf h fun cx t ht => ?_
  simp [ht, sBin_memWf]

theorem execSmin_memWf (f : Fld) {s : State} (h : Memory.wf s.mem = true) : NextMemWf (execSmin f s) := by
  refine issue_memWf h fun cx t ht => ?_
  simp [ht, sBin_memWf]

theorem execSmax_memWf (f : Fld) {s : State} (h : Memory.wf s.mem = true) : NextMemWf (execSmax f s) := by
  refine issue_memWf h fun cx t ht => ?_
  simp [ht, sBin_memWf]

theorem execSand_memWf (f : Fld) {s : State} (h : Memory.wf s.mem = true) : NextMemWf (execSand f s) := by
  refine issue_memWf h fun cx t ht => ?_
  simp [ht, sBin_memWf]

theorem execSor_memWf (f : Fld) {s : State} (h : Memory.wf s.mem = true) : NextMemWf (execSor f s) := by
  refine issue_memWf h fun cx t ht => ?_
  simp [ht, sBin_memWf]

theorem execSxor_memWf (f : Fld) {s : State} (h : Memory.wf s.mem = true) : NextMemWf (execSxor f s) := by
  refine issue_memWf h fun cx t ht => ?_
  simp [ht, sBin_memWf]

theorem execSnot_memWf (f : Fld) {s : State} (h : Memory.wf s.mem = true) : NextMemWf (execSnot f s) := by
  refine issue_memWf h fun cx t ht => ?_
  simp [ht]

theorem execSshl_memWf (f : Fld) {s : State} (h : Memory.wf s.mem = true) : NextMemWf (execSshl f s) := by
  refine issue_memWf h fun cx t ht => ?_
  simp [ht, sShift_memWf]

theorem execSshr_memWf (f : Fld) {s : State} (h : Memory.wf s.mem = true) : NextMemWf (execSshr f s) := by
  refine issue_memWf h fun cx t ht => ?_
  simp [ht, sShift_memWf]

theorem execSclz_memWf (f : Fld) {s : State} (h : Memory.wf s.mem = true) : NextMemWf (execSclz f s) := by
  refine issue_memWf h fun cx t ht => ?_
  simp [ht]

theorem execSpop_memWf (f : Fld) {s : State} (h : Memory.wf s.mem = true) : NextMemWf (execSpop f s) := by
  refine issue_memWf h fun cx t ht => ?_
  simp [ht]

theorem execSmul_memWf (f : Fld) {s : State} (h : Memory.wf s.mem = true) : NextMemWf (execSmul f s) := by
  refine issue_memWf h fun cx t ht => ?_
  simp [ht, sBin_memWf]

theorem execSmulh_memWf (f : Fld) {s : State} (h : Memory.wf s.mem = true) : NextMemWf (execSmulh f s) := by
  refine issue_memWf h fun cx t ht => ?_
  simp [ht, sBin_memWf]

theorem execSmad_memWf (f : Fld) {s : State} (h : Memory.wf s.mem = true) : NextMemWf (execSmad f s) := by
  refine issue_memWf h fun cx t ht => ?_
  simp [ht]

theorem execSdiv_memWf (f : Fld) {s : State} (h : Memory.wf s.mem = true) : NextMemWf (execSdiv f s) := by
  refine issue_memWf h fun cx t ht => ?_
  simp [ht, sVar_memWf]

theorem execSrem_memWf (f : Fld) {s : State} (h : Memory.wf s.mem = true) : NextMemWf (execSrem f s) := by
  refine issue_memWf h fun cx t ht => ?_
  simp [ht, sVar_memWf]

theorem execScmp_memWf (f : Fld) {s : State} (h : Memory.wf s.mem = true) : NextMemWf (execScmp f s) := by
  refine issue_memWf h fun cx t ht => ?_
  simp [ht]

theorem execSsel_memWf (f : Fld) {s : State} (h : Memory.wf s.mem = true) : NextMemWf (execSsel f s) := by
  refine issue_memWf h fun cx t ht => ?_
  simp [ht]

theorem execSmov_memWf (f : Fld) {s : State} (h : Memory.wf s.mem = true) : NextMemWf (execSmov f s) := by
  refine issue_memWf h fun cx t ht => ?_
  simp [ht]

theorem execSli_memWf (f : Fld) {s : State} (h : Memory.wf s.mem = true) : NextMemWf (execSli f s) := by
  refine issue_memWf h fun cx t ht => ?_
  simp [ht]

theorem execSbfe_memWf (f : Fld) {s : State} (h : Memory.wf s.mem = true) : NextMemWf (execSbfe f s) := by
  refine issue_memWf h fun cx t ht => ?_
  simp [ht, sShift_memWf]

theorem execSbfi_memWf (f : Fld) {s : State} (h : Memory.wf s.mem = true) : NextMemWf (execSbfi f s) := by
  refine issue_memWf h fun cx t ht => ?_
  simp [ht]

theorem execGetsr_memWf (f : Fld) {s : State} (h : Memory.wf s.mem = true) : NextMemWf (execGetsr f s) := by
  refine issue_memWf h fun cx t ht => ?_
  simp [ht]

theorem execGetsrVector_memWf (f : Fld) {s : State} (h : Memory.wf s.mem = true) : NextMemWf (execGetsrVector f s) := by
  refine issue_memWf h fun cx t ht => ?_
  simp [ht]

theorem execSetsr_memWf (f : Fld) {s : State} (h : Memory.wf s.mem = true) : NextMemWf (execSetsr f s) := issue_memWf h fun _ _ ht => ht

end Sys2Proof.Machine
end

section
/-! Memory stays canonical: the functions of Machine/Sync. -/

namespace Sys2Proof.Machine

open Sys2Proof

@[simp] theorem expectAt_mem (s : State) (wid n x : Nat) : (s.expectAt wid n x).mem = s.mem := by
  unfold State.expectAt
  dsimp only
  repeat' split
  all_goals simp

theorem execBari_memWf (f : Fld) {s : State} (h : Memory.wf s.mem = true) : NextMemWf (execBari f s) := by
  refine issue_memWf h fun cx t ht => ?_
  dsimp only
  split <;> simp [ht]

theorem execBara_memWf (f : Fld) {s : State} (h : Memory.wf s.mem = true) : NextMemWf (execBara f s) := by
  refine issue_memWf h fun cx t ht => ?_
  dsimp only
  split <;> simp [ht]

theorem barwEff_memWf (cx : Cx) {s : State} (h : Memory.wf s.mem = true) : (barwEff cx s).MemWf := by
  unfold barwEff
  split <;> simp [h]

theorem execBarw_memWf (f : Fld) {s : State} (h : Memory.wf s.mem = true) : NextMemWf (execBarw f s) := by
  refine issue_memWf h fun cx t ht => ?_
  simp [ht, barwEff_memWf]

theorem execBarwReturn_memWf (ag : Agent) {s : State} (h : Memory.wf s.mem = true) : NextMemWf (execBarwReturn ag s) := by
  refine resume_memWf h fun cx t ht => ?_
  simp [ht, barwEff_memWf]

theorem execBart_memWf (f : Fld) {s : State} (h : Memory.wf s.mem = true) : NextMemWf (execBart f s) := by
  refine issue_memWf h fun cx t ht => ?_
  simp [ht]

@[simp] theorem popRow_mem (s : State) (cx : Cx) : (popRow s cx).mem = s.mem := by
  unfold popRow
  dsimp only
  repeat' split
  all_goals simp

@[simp] theorem endHold_mem (s : State) (cx : Cx) : (endHold s cx).mem = s.mem := by
  unfold endHold
  split <;> simp

theorem popTasks_wf {s : State} (cx : Cx) (barred : Bool) (h : Memory.wf s.mem = true) : Memory.wf (popTasks s cx barred).mem = true := by
  unfold popTasks
  dsimp only
  split
  · simpa using h
  · apply settleGraph_wf
    rw [startOp_mem, foldl_mem _ (fun _ _ => learn_mem _ _ _)]
    exact h

theorem qpopEff_memWf (cx : Cx) {s : State} (h : Memory.wf s.mem = true) : (qpopEff cx s).MemWf := by
  unfold qpopEff
  dsimp only
  repeat' split
  all_goals simp [h, popTasks_wf]

theorem execQpop_memWf (f : Fld) {s : State} (h : Memory.wf s.mem = true) : NextMemWf (execQpop f s) := by
  refine issue_memWf h fun cx t ht => ?_
  simp [ht, qpopEff_memWf]

theorem execQpopTry_memWf (f : Fld) {s : State} (h : Memory.wf s.mem = true) : NextMemWf (execQpopTry f s) := by
  refine issue_memWf h fun cx t ht => ?_
  grind [Eff.MemWf, startOp_mem, popRow_mem, endHold_mem, popTasks_wf]

theorem execQpopServe_memWf (ag : Agent) {s : State} (h : Memory.wf s.mem = true) : NextMemWf (execQpopServe ag s) := by
  refine resume_memWf h fun cx t ht => ?_
  simp [ht, qpopEff_memWf]

theorem execQpush_memWf (f : Fld) {s : State} (h : Memory.wf s.mem = true) : NextMemWf (execQpush f s) := by
  refine issue_memWf h fun cx t ht => ?_
  dsimp only
  split <;> simp [ht]

theorem execSpreq_memWf (f : Fld) {s : State} (h : Memory.wf s.mem = true) : NextMemWf (execSpreq f s) := by
  refine issue_memWf h fun cx t ht => ?_
  split
  · have h1 : Memory.wf (releaseBy (t.push (.mail cx.wid) (t.relClk cx.me)) cx).mem = true := by simpa using ht
    exact h1
  · simpa using ht

@[simp] theorem takeMail_mem (s : State) (cx : Cx) : (takeMail s cx).mem = s.mem := by simp [takeMail]

theorem sprecvEff_memWf (cx : Cx) {s : State} (h : Memory.wf s.mem = true) : (sprecvEff cx s).MemWf := by
  unfold sprecvEff
  split <;> simp [h]

theorem execSprecv_memWf (f : Fld) {s : State} (h : Memory.wf s.mem = true) : NextMemWf (execSprecv f s) := by
  refine issue_memWf h fun cx t ht => ?_
  simp [ht, sprecvEff_memWf]

theorem execSprecvTry_memWf (f : Fld) {s : State} (h : Memory.wf s.mem = true) : NextMemWf (execSprecvTry f s) := by
  refine issue_memWf h fun cx t ht => ?_
  dsimp only
  split <;> simp [ht]

theorem execSprecvReceive_memWf (ag : Agent) {s : State} (h : Memory.wf s.mem = true) : NextMemWf (execSprecvReceive ag s) := by
  refine resume_memWf h fun cx t ht => ?_
  simp [ht, sprecvEff_memWf]

@[simp] theorem modSite_mem (s : State) (lid site : Nat) (f : Site → Site) : (modSite s lid site f).mem = s.mem := rfl

theorem execAtomOrd_memWf (f : Fld) {s : State} (h : Memory.wf s.mem = true) : NextMemWf (execAtomOrd f s) := by
  refine issue_memWf h fun cx t ht => ?_
  grind [Eff.MemWf, State.modGroup_mem, resolveAll_wf, startLater_mem, afterStore_mem, fenceRel_mem, modSite_mem]

@[simp] theorem siteHear_mem (s : State) (st : Site) (before : List Contrib) (c : Contrib) : (siteHear s st before c).mem = s.mem := by
  grind [siteHear, learn_mem, foldl_mem, acquires_mem]

@[simp] theorem giveResult_mem (s0 : State) (st : Site) (c : Contrib) (acc : Nat) : (giveResult s0 st c acc).mem = s0.mem := by
  simp [giveResult]

@[simp] theorem giveResults_mem (st : Site) (cs : List Contrib) (s : State) (acc : Nat) : (giveResults s st cs acc).1.mem = s.mem := by
  induction cs generalizing s acc with
  | nil => rfl
  | cons c cs ih => exact (ih _ _).trans (giveResult_mem _ _ _ _)

theorem launchFault_wf {s : State} (lid : Nat) (m : MFault) (kind ix : Nat) (h : Memory.wf s.mem = true) : Memory.wf
    (launchFault s lid m kind ix).mem = true := by
  unfold launchFault
  split
  · exact h
  · dsimp only
    split <;> exact (killLaunch_wf lid h :)

theorem settleLaunch_wf {s : State} (lid ix : Nat) (h : Memory.wf s.mem = true) : Memory.wf (settleLaunch s lid ix).mem = true := by
  unfold settleLaunch
  split
  · exact h
  · dsimp only
    split_ifs
    · exact h
    · split
      · exact launchFault_wf _ _ _ _ h
      · rename_i hb
        exact finishLaunch_wf _ (boardOut_wf hb h)

theorem passageWrite_wf {s : State} {w : Who} {st' : Site} {mine : List Contrib} {s1 : State} (hr : passageWrite s w st' mine = .ok s1)
    (h : Memory.wf s.mem = true) : Memory.wf s1.mem = true := by
  unfold passageWrite at hr
  grind [resolveAll_wf, setHb_mem, bump_mem, writeHits_wf, writePlain_wf]

theorem execOrderedPassage_memWf (lnch site : Nat) {s : State} (h : Memory.wf s.mem = true) :
    NextMemWf (execOrderedPassage lnch site s) := by
  unfold execOrderedPassage
  split
  · trivial
  · split
    · trivial
    · split
      · trivial
      · dsimp only
        split
        · exact launchFault_wf _ _ _ _ (by simpa using h)
        · rename_i hp
          exact settleLaunch_wf _ _ (by simpa using passageWrite_wf hp (by simpa using h))

end Sys2Proof.Machine
end

section
/-! Memory stays canonical: the functions of Machine/Matrix. -/

namespace Sys2Proof.Machine

open Sys2Proof

theorem execObres_memWf (f : Fld) {s : State} (h : Memory.wf s.mem = true) : NextMemWf (execObres f s) := by
  refine issue_memWf h fun cx t ht => ?_
  dsimp only
  repeat' split
  all_goals simp [ht]

theorem execObrel_memWf (f : Fld) {s : State} (h : Memory.wf s.mem = true) : NextMemWf (execObrel f s) := by
  refine issue_memWf h fun cx t ht => ?_
  dsimp only
  repeat' split
  all_goals simp [ht]

theorem mloopEff_memWf (acc : Bool) (cx : Cx) {s : State} (h : Memory.wf s.mem = true) : (mloopEff acc cx s).MemWf := by
  unfold mloopEff
  dsimp only
  repeat' split
  all_goals simp [h]

theorem execMloopNew_memWf (f : Fld) {s : State} (h : Memory.wf s.mem = true) : NextMemWf (execMloopNew f s) := by
  refine issue_memWf h fun cx t ht => ?_
  simp [ht, mloopEff_memWf]

theorem execMloopAcc_memWf (f : Fld) {s : State} (h : Memory.wf s.mem = true) : NextMemWf (execMloopAcc f s) := by
  refine issue_memWf h fun cx t ht => ?_
  simp [ht, mloopEff_memWf]

theorem execMpub_memWf (f : Fld) {s : State} (h : Memory.wf s.mem = true) : NextMemWf (execMpub f s) := by
  refine issue_memWf h fun cx t ht => ?_
  simp [ht]

@[simp] theorem modMx_mem (s : State) (core : Nat) (f : Matrix → Matrix) : (s.modMx core f).mem = s.mem := rfl

@[simp] theorem lowerTok_mem (s : State) (o : Op) : (lowerTok s o).mem = s.mem := by
  unfold lowerTok
  split <;> simp

@[simp] theorem publish_mem (s : State) (core h : Nat) (m : Matrix) (o : Op) : (publish s core h m o).mem = s.mem := by simp [publish]

theorem execSequencerCommandStart_memWf (core : Nat) {s : State} (h : Memory.wf s.mem = true) : NextMemWf
    (execSequencerCommandStart core s) := by
  unfold execSequencerCommandStart
  dsimp only
  split
  · split
    · trivial
    · split
      · exact h
      · simpa using h
      · trivial
  · trivial

theorem execHeadTileTake_memWf (core : Nat) {s : State} (h : Memory.wf s.mem = true) : NextMemWf (execHeadTileTake core s) := by
  unfold execHeadTileTake
  dsimp only
  split
  · exact completeOp_wf _ h
  · trivial

theorem segHits_wf {s : State} {w : Who} {core : Nat} {rec_ : List Word} {str : Nat} {a : DWord} {n : Nat} {x : List Hit} {y : List Hit}
    {s1 : State} (hr : segHits s w core rec_ str a n = .ok (x, y, s1)) (h : Memory.wf s.mem = true) : Memory.wf s1.mem = true := by
  unfold segHits at hr
  grind [resolveAll_wf]

theorem readSeg_wf {s : State} {w : Who} {core : Nat} {f : MFmt} {rec_ : List Word} {str k : Nat} {a : DWord} {x : List FV} {s1 : State}
    (hr : readSeg s w core f rec_ str k a = .ok (x, s1)) (h : Memory.wf s.mem = true) : Memory.wf s1.mem = true := by
  unfold readSeg at hr
  grind [readHits_mem, segHits_wf]

theorem readSegs_wf {w : Who} {core : Nat} {f : MFmt} {rec_ : List Word} {str k : Nat} {addr : Nat → DWord} {n i : Nat}
    {vs : List (List FV)} {s s1 : State} (hr : readSegs s w core f rec_ str k addr i n = .ok (vs, s1)) (h : Memory.wf s.mem = true) :
    Memory.wf s1.mem = true := by
  induction n generalizing s i vs with
  | zero => cases hr; exact h
  | succ n ih =>
    unfold readSegs at hr
    split at hr
    · cases hr
    · rename_i hv
      split at hr
      · cases hr
      · rename_i hvs
        cases hr
        exact ih hvs (readSeg_wf hv h)

@[simp] theorem addFlags_mem (s : State) (id : Nat) (fl : BitVec 5) : (addFlags s id fl).mem = s.mem := rfl

theorem mRow_memWf {s : State} (r : MRun) (bss : List (List FV)) (st i : Nat) (h : Memory.wf s.mem = true) :
    (mRow s r bss st i).MemWf := by
  unfold mRow
  split
  · exact h
  · rename_i hr
    exact (readSeg_wf hr h :)

theorem mRows_memWf (r : MRun) (bss : List (List FV)) (st : Nat) (n i : Nat) {s : State} (h : Memory.wf s.mem = true) :
    (mRows s r bss st i n).MemWf := by
  induction n generalizing s i with
  | zero => exact h
  | succ n ih =>
    have h1 := mRow_memWf r bss st i h
    unfold mRows
    split
    · rename_i hx
      exact h1.of_stop hx
    · rename_i hx
      exact ih _ (h1.of_ok hx)

theorem mSteps_memWf (r : MRun) (n st i : Nat) {s : State} (h : Memory.wf s.mem = true) : (mSteps s r st i n).MemWf := by
  induction n generalizing s st i with
  | zero => exact h
  | succ n ih =>
    unfold mSteps
    split
    · exact h
    · rename_i bss s1 hr
      have h1 := mRows_memWf r bss st (64 - i) i (readSegs_wf hr h)
      split
      · rename_i hx
        exact h1.of_stop hx
      · rename_i hx
        exact ih _ _ (h1.of_ok hx)

theorem execMloopReadArrival_memWf (core : Nat) {s : State} (h : Memory.wf s.mem = true) : NextMemWf (execMloopReadArrival core s) := by
  unfold execMloopReadArrival
  dsimp only
  split
  · trivial
  · split
    · trivial
    · split
      · rename_i r _ _
        split
        · trivial
        · refine withFar_memWf _ _ _ _ h ?_
          have h1 := mSteps_memWf r (r.n - (s.core core).mx.step) (s.core core).mx.step (s.core core).mx.row h
          split
          · rename_i hx
            simpa using h1.of_stop hx
          · rename_i hx
            have h2 := h1.of_ok hx
            split <;> simpa using h2
      · trivial

theorem execMloopComplete_memWf (core : Nat) {s : State} (h : Memory.wf s.mem = true) : NextMemWf (execMloopComplete core s) := by
  unfold execMloopComplete
  dsimp only
  split
  · trivial
  · split
    · trivial
    · split
      · split
        · exact endEngine_wf _ h
        · trivial
      · trivial

end Sys2Proof.Machine
end

section
/-! Memory stays canonical: the functions of Machine/Rays. -/

namespace Sys2Proof.Machine

open Sys2Proof

theorem engRd_wf {s : State} {w : Who} {k : AccK} {marked : Bool} {al : Nat} {a : DWord} {n : Nat} {x : List Byte} {s1 : State}
    (hr : engRd s w k marked al a n = .ok (x, s1)) (h : Memory.wf s.mem = true) : Memory.wf s1.mem = true := by
  unfold engRd at hr
  grind [resolveAll_wf, readHits_mem]

theorem geo_wf {g : GCtx} {s : State} {hdr : Bool} {at_ : DWord} {off n : Nat} {x : List Byte} {s1 : State}
    (hr : geo g s hdr at_ off n = .ok (x, s1)) (h : Memory.wf s.mem = true) : Memory.wf s1.mem = true := by
  unfold geo at hr
  grind [engRd_wf]

theorem geoHdr_wf {g : GCtx} {s : State} {node : DWord} {x : DWord} {s1 : State} (hr : geoHdr g s node = .ok (x, s1))
    (h : Memory.wf s.mem = true) : Memory.wf s1.mem = true := by
  unfold geoHdr at hr
  grind [geo_wf]

theorem geoKids_wf {g : GCtx} {s : State} {node : DWord} {n : Nat} {x : List Nat} {s1 : State} (hr : geoKids g s node n = .ok (x, s1))
    (h : Memory.wf s.mem = true) : Memory.wf s1.mem = true := by
  unfold geoKids at hr
  grind [geo_wf]

theorem geoLeaf_wf {g : GCtx} {s : State} {node : DWord} {x : Option (Bool × Word × List Tri)} {s1 : State}
    (hr : geoLeaf g s node = .ok (x, s1)) (h : Memory.wf s.mem = true) : Memory.wf s1.mem = true := by
  unfold geoLeaf at hr
  grind [geo_wf]

theorem boxStep_wf {g : GCtx} {s : State} {r : Ray} {h : List Word} {x : Nat} {y : Entered} {s1 : State}
    (hr : boxStep g s r h = .ok (x, y, s1)) (h : Memory.wf s.mem = true) : Memory.wf s1.mem = true := by
  unfold boxStep at hr
  grind [geoKids_wf]

theorem enterNode_wf {g : GCtx} {s : State} {inp out : Ray} {x : Ray} {s1 : State} (hr : enterNode g s inp out = .ok (x, s1))
    (h : Memory.wf s.mem = true) : Memory.wf s1.mem = true := by
  unfold enterNode at hr
  grind [geoHdr_wf]

theorem descendStep_wf {g : GCtx} {s : State} {r : Ray} {c : Child} {at_ : DWord} {x : Ray} {s1 : State}
    (hr : descendStep g s r c at_ = .ok (x, s1)) (h : Memory.wf s.mem = true) : Memory.wf s1.mem = true := by
  unfold descendStep at hr
  grind [geo_wf, enterNode_wf]

theorem fdinStep_wf {g : GCtx} {s : State} {r : Ray} {b : Nat} {x : Ray} {s1 : State} (hr : fdinStep g s r b = .ok (x, s1))
    (h : Memory.wf s.mem = true) : Memory.wf s1.mem = true := by
  unfold fdinStep at hr
  grind [geoKids_wf, enterNode_wf, descendStep_wf]

theorem triStep_wf {g : GCtx} {s : State} {f : TFlags} {r : Ray} {h : List Word} {x : List Word} {y : Bool} {s1 : State}
    (hr : triStep g s f r h = .ok (x, y, s1)) (h : Memory.wf s.mem = true) : Memory.wf s1.mem = true := by
  unfold triStep at hr
  grind [geoLeaf_wf]

theorem execRcvt_memWf (f : Fld) {s : State} (h : Memory.wf s.mem = true) : NextMemWf (execRcvt f s) := by
  refine issue_memWf h fun cx t ht => ?_
  simp [ht]

theorem startTrav_memWf {s : State} (cx : Cx) (k : OpK) (n : Nat) (h : Memory.wf s.mem = true) : (startTrav s cx k n).MemWf := by
  unfold startTrav
  split
  · exact completeNow_wf (by simpa using h)
  · simpa using h

theorem execBoxt_memWf (f : Fld) {s : State} (h : Memory.wf s.mem = true) : NextMemWf (execBoxt f s) := by
  refine issue_memWf h fun cx t ht => ?_
  simp [ht, startTrav_memWf]

theorem execTrit_memWf (f : Fld) {s : State} (h : Memory.wf s.mem = true) : NextMemWf (execTrit f s) := by
  refine issue_memWf h fun cx t ht => ?_
  simp [ht, startTrav_memWf]

theorem execRtrace_memWf (f : Fld) {s : State} (h : Memory.wf s.mem = true) : NextMemWf (execRtrace f s) := by
  refine issue_memWf h fun cx t ht => ?_
  simp [ht, startTrav_memWf]

theorem execRhit_memWf (f : Fld) {s : State} (h : Memory.wf s.mem = true) : NextMemWf (execRhit f s) := by
  refine issue_memWf h fun cx t ht => ?_
  simp [ht]

theorem travLane_wf {g : GCtx} {s : State} {opc c : Nat} {blk second : List Word} {x : List Word} {s1 : State}
    (hr : travLane g s opc c blk second = .ok (x, s1)) (h : Memory.wf s.mem = true) : Memory.wf s1.mem = true := by
  unfold travLane at hr
  grind [boxStep_wf, fdinStep_wf, triStep_wf]

theorem visit_wf (g : GCtx) (f : TFlags) (n : Nat) (r : Ray) (opq : Bool) (pend : Nat) {t : Trace} (h : Memory.wf t.s.mem = true) :
    Memory.wf (visit g f n r opq pend t).s.mem = true := by
  induction n generalizing r opq pend t with
  | zero => exact h
  | succ n ih =>
    unfold visit
    split
    · exact h
    · split
      · split
        · exact h
        · rename_i ht
          exact triStep_wf ht h
      · split
        · exact h
        · rename_i hb
          have h1 := boxStep_wf hb h
          split
          · exact h1
          · split
            · exact h1
            · refine List.foldlRecOn (motive := fun t : Trace => Memory.wf t.s.mem = true) _ _ h1 fun t ht k _ => ?_
              split
              · exact ht
              · split
                · exact ht
                · rename_i hd
                  have h2 := fdinStep_wf hd ht
                  split
                  · exact h2
                  · exact ih _ _ _ h2

theorem traceRay_wf (g : GCtx) {s : State} (ws : List Word) (base : DWord) (f : TFlags) (h : Memory.wf s.mem = true) : Memory.wf
    (traceRay g s ws base f).s.mem = true := by
  unfold traceRay
  dsimp only
  split
  · exact h
  · split
    · exact h
    · rename_i hd
      have h1 := fdinStep_wf hd h
      split
      · exact h1
      · exact visit_wf g f _ _ _ _ h1

@[simp] theorem LaneRun.stopped_s (x : LaneRun) (l : Nat) (part : Option (List Word)) (e : GStop) : (x.stopped l part e).s = x.s := by
  cases e <;> rfl

theorem travLanes_wf (g : GCtx) (opc c : Nat) (lanes : List (Nat × List Word × List Word)) {s : State} (h : Memory.wf s.mem = true) :
    Memory.wf (travLanes g opc c lanes s).s.mem = true := by
  refine List.foldlRecOn (motive := fun x : LaneRun => Memory.wf x.s.mem = true) _ _ h fun x hx ln _ => ?_
  split
  · simpa using hx
  · rename_i ht
    exact travLane_wf ht hx

theorem traceLanes_wf (g : GCtx) (base : DWord) (flags : Nat) (rays : List (Nat × List Word)) {s : State} (h : Memory.wf s.mem = true) :
    Memory.wf (traceLanes g base flags rays s).s.mem = true := by
  refine List.foldlRecOn (motive := fun x : LaneRun => Memory.wf x.s.mem = true) _ _ h fun x hx ln _ => ?_
  dsimp only
  split
  · simpa using hx
  · exact traceRay_wf g _ _ _ hx

theorem endTrav_memWf (name : String) {s : State} (o : Op) (d n : Nat) {x : LaneRun} (h : Memory.wf s.mem = true)
    (hx : Memory.wf x.s.mem = true) : NextMemWf (endTrav name s o d n x) := by
  unfold endTrav
  split
  · exact withFar_memWf _ _ _ _ h h
  · split
    · exact h
    · exact endEngine_wf _ hx

theorem travComplete_memWf {s : State} (o : Op) (opc d c : Nat) (lanes : List (Nat × List Word × List Word))
    (h : Memory.wf s.mem = true) : NextMemWf (travComplete s o opc d c lanes) := by
  unfold travComplete
  split
  · exact endEngine_wf _ h
  · exact endTrav_memWf _ _ _ _ h (travLanes_wf _ _ _ _ h)

theorem travSkip_wf {s : State} (o : Op) (opc d c : Nat) (lanes : List (Nat × List Word × List Word)) (h : Memory.wf s.mem = true) :
    Memory.wf (travSkip s o opc d c lanes).mem = true := by
  unfold travSkip
  split
  · exact endEngine_wf _ h
  · exact endEngine_wf _ (travLanes_wf _ _ _ _ h)

theorem execFdin_memWf (f : Fld) {s : State} (h : Memory.wf s.mem = true) : NextMemWf (execFdin f s) := by
  refine issue_memWf h fun cx t ht => ?_
  dsimp only
  split
  · exact startTrav_memWf _ _ _ ht
  · have h1 := travLanes_wf { eng := cx.engWho t, grp := cx.who } 0x72 0
      ((lanesIn cx.act).map fun l => (l, cx.g.vWords cx.f.a.toNat 20 l, [BitVec.ofNat 32 (cx.b32 l)])) (s := (startHb t cx).newLoad cx.me)
      (by simpa using ht)
    simpa using h1

theorem execRtraceComplete_memWf (id : Nat) {s : State} (h : Memory.wf s.mem = true) : NextMemWf (execRtraceComplete id s) := by
  unfold execRtraceComplete
  split
  · trivial
  · split
    · exact endTrav_memWf _ _ _ _ h (traceLanes_wf _ _ _ _ h)
    · trivial

theorem execNswap_memWf (f : Fld) {s : State} (h : Memory.wf s.mem = true) : NextMemWf (execNswap f s) := by
  refine issue_memWf h fun cx t ht => ?_
  dsimp only
  split
  · trivial
  · split
    · trivial
    · rename_i hr
      simpa using writeLanes_wf _ _ _ _ (resolveAll_wf hr ht)

theorem gdrainEff_memWf (cx : Cx) {s : State} (h : Memory.wf s.mem = true) : (gdrainEff cx s).MemWf := by
  unfold gdrainEff
  dsimp only
  split
  · refine foldl_wf (fun s c hs => ?_) _ h
    rw [hear_mem]
    exact hs
  · exact h

theorem execGdrain_memWf (f : Fld) {s : State} (h : Memory.wf s.mem = true) : NextMemWf (execGdrain f s) := by
  refine issue_memWf h fun cx t ht => ?_
  simp [ht, gdrainEff_memWf]

theorem execGdrainReturn_memWf (ag : Agent) {s : State} (h : Memory.wf s.mem = true) : NextMemWf (execGdrainReturn ag s) := by
  refine resume_memWf h fun cx t ht => ?_
  simp [ht, gdrainEff_memWf]

end Sys2Proof.Machine
end

section
/-! Memory stays canonical: the functions of Machine/Raster. -/

namespace Sys2Proof.Machine

open Sys2Proof

theorem execDrawv_memWf (f : Fld) {s : State} (h : Memory.wf s.mem = true) : NextMemWf (execDrawv f s) := by
  refine issue_memWf h fun cx t ht => ?_
  simp [ht]

theorem readView_wf {s : State} {w : Who} {a : DWord} {x : List Word} {s1 : State} (hr : readView s w a = .ok (x, s1))
    (h : Memory.wf s.mem = true) : Memory.wf s1.mem = true := by
  unfold readView at hr
  grind [engRd_wf]

theorem passWrite_wf {s : State} {w : Who} {a : DWord} {n x : Nat} {s1 : State} (hr : passWrite s w a n x = .ok s1)
    (h : Memory.wf s.mem = true) : Memory.wf s1.mem = true := by
  unfold passWrite at hr
  grind [resolveAll_wf, writeLanes_wf]

theorem passRead_wf {s : State} {w : Who} {a : DWord} {x : Nat} {s1 : State} (hr : passRead s w a = .ok (x, s1))
    (h : Memory.wf s.mem = true) : Memory.wf s1.mem = true := by
  unfold passRead at hr
  grind [engRd_wf]

theorem passStore_wf {s : State} {w : Who} {va da : DWord} {entry depth : Nat} {s1 : State}
    (hr : passStore s w va da entry depth = .ok s1) (h : Memory.wf s.mem = true) : Memory.wf s1.mem = true := by
  unfold passStore at hr
  grind [passWrite_wf]

theorem composeSample_wf {s : State} {w : Who} {ws : List Word} {px py i : Nat} {hit : Bool} {entry depth : Nat} {s1 : State}
    (hr : composeSample s w ws px py i hit entry depth = .ok s1) (h : Memory.wf s.mem = true) : Memory.wf s1.mem = true := by
  unfold composeSample at hr
  grind [passRead_wf, passStore_wf]

@[simp] theorem modPass_mem (s : State) (id : Nat) (f : Pass → Pass) : (s.modPass id f).mem = s.mem := rfl

theorem passSample_wf (w : Who) (ws : List Word) (px py i : Nat) {r : RasterRun} (h : Memory.wf r.s.mem = true) : Memory.wf
    (passSample w ws px py i r).s.mem = true := by
  unfold passSample
  split
  · exact h
  · have h1 := fun ray base f => traceRay_wf (gctxFor w) ray base f h
    dsimp only
    split
    · exact h
    · split
      · exact h1 _ _ _
      · rename_i hc
        exact composeSample_wf hc (h1 _ _ _)

theorem endPass_wf {s : State} (o : Op) (d : Nat) (status : Nat) (h : Memory.wf s.mem = true) : Memory.wf (endPass s o d status).mem =
    true := endEngine_wf _ h

@[simp] theorem stopPass_mem (s : State) (o : Op) (die : Nat) (y0 : GStop) : (stopPass s o die y0).mem = s.mem := by
  unfold stopPass
  split <;> simp

theorem servePass_wf {s0 : State} (o : Op) (p : Pass) (ws : List Word) (die : Nat) (h : Memory.wf s0.mem = true) : Memory.wf
    (servePass s0 o p ws die).mem = true := by
  have h1 : Memory.wf (((dieSamples ws die).drop (Tab.get 0 p.pos die)).foldl
      (fun r x => passSample (passWho (s0.hear (opMe o.id) (.pass o.wg o.grp die)) o die) ws x.1 x.2.1 x.2.2 r)
      { s := s0.hear (opMe o.id) (.pass o.wg o.grp die), status := p.status.toNat, pos := Tab.get 0 p.pos die }).s.mem = true :=
    List.foldlRecOn (motive := fun r : RasterRun => Memory.wf r.s.mem = true) _ _ (by simpa using h)
      fun r hr x _ => passSample_wf _ _ _ _ _ hr
  unfold servePass
  dsimp only
  split
  · simpa using h1
  · split
    · exact endPass_wf _ _ _ (by simpa using h1)
    · simpa using h1

theorem execDrawvPassComplete_memWf (id : Nat) {s : State} (h : Memory.wf s.mem = true) : NextMemWf (execDrawvPassComplete id s) := by
  unfold execDrawvPassComplete
  split
  · split
    · split
      · split
        · trivial
        · exact servePass_wf _ _ _ _ h
      · split
        · exact endPass_wf _ _ _ h
        · split
          · simpa using h
          · rename_i hv
            have h1 := readView_wf hv h
            split
            · exact h1
            · exact endPass_wf _ _ _ h1
    · trivial
  · trivial

end Sys2Proof.Machine
end

section
/-! Memory stays canonical: the functions of Machine/SpoolOps. -/

namespace Sys2Proof.Machine

open Sys2Proof

theorem execTcopy_memWf (f : Fld) {s : State} (h : Memory.wf s.mem = true) : NextMemWf (execTcopy f s) := by
  refine issue_memWf h fun cx t ht => ?_
  dsimp only
  split <;> simp [ht]

theorem tcElem_memWf {s : State} (w : Who) (t : TC) (e : Nat) (h : Memory.wf s.mem = true) : (tcElem s w t e).MemWf := by
  unfold tcElem
  dsimp only
  split
  · exact h
  · split
    · exact h
    · rename_i ha
      split
      · exact h
      · rename_i hd
        have h2 := resolveAll_wf hd (resolveAll_wf ha h)
        refine (?_ : Memory.wf (movePoison _ _ _).mem = true)
        rw [movePoison_mem]
        exact writeLanes_wf _ _ _ _ (by simpa using h2)

theorem tcRun_memWf {s : State} (o : Op) (w : Who) (t : TC) (e n : Nat) (h : Memory.wf s.mem = true) : (tcRun s o w t e n).MemWf := by
  induction n generalizing s e with
  | zero => exact h
  | succ n ih =>
    have h1 := tcElem_memWf w t e h
    unfold tcRun
    split
    · rename_i hx
      exact ih _ (h1.of_ok hx)
    · rename_i hx
      have h2 := h1.of_stop hx
      exact h2

theorem execTcopyComplete_memWf (id : Nat) {s : State} (h : Memory.wf s.mem = true) : NextMemWf (execTcopyComplete id s) := by
  unfold execTcopyComplete
  split
  · trivial
  · split
    · rename_i o _ _ _ _ fc fd blk c _ _ _
      refine withFar_memWf _ _ _ _ h ?_
      have h1 := fun w e n => tcRun_memWf o w ⟨fc, fd, blk⟩ e n h
      dsimp only
      split
      · rename_i hx
        exact endEngine_wf _ ((h1 _ _ _).of_ok hx)
      · rename_i hx
        have h2 := (h1 _ _ _).of_stop hx
        exact h2
    · trivial

@[simp] theorem failMembers_mem (s : State) (comm seq : Nat) (ms : List Member) : (failMembers s comm seq ms).mem = s.mem := by
  refine foldl_mem _ (fun s m => ?_) _ _
  split <;> rfl

@[simp] theorem recordFailed_mem (s : State) (c : Collective) (ranks : List Nat) : (recordFailed s c ranks).mem = s.mem := by
  unfold recordFailed
  dsimp only
  split <;> rfl

@[simp] theorem setColl_mem (s : State) (c : Collective) : (setColl s c).mem = s.mem := rfl

@[simp] theorem breakColl_mem (s : State) (c : Collective) (ms : List Member) (ranks : List Nat) :
    (breakColl s c ms ranks).mem = s.mem := by
  simp [breakColl]

@[simp] theorem sendColl_mem (s : State) (ns : Bool) (id : Nat) (table : List (Nat × Nat)) (payload : List Byte) :
    (sendColl s ns id table payload).mem = s.mem := by grind [sendColl, foldl_mem, sendFlit_mem]

@[simp] theorem sendPieces_mem (s : State) (ns : Bool) (id : Nat) (c : Collective) (rank : Nat) (bs : List Byte) (bad : List Nat) :
    (sendPieces s ns id c rank bs bad).mem = s.mem := by grind [sendPieces, foldl_mem, sendColl_mem]

@[simp] theorem collOver_mem (s : State) (c : Collective) : (collOver s c).mem = s.mem := by
  unfold collOver
  split <;> rfl

@[simp] theorem joinColl_open_mem (o : Op) (key : List Nat) (comm seq : Nat) (s : State) (table : List (Nat × Nat)) (r : Nat)
    (x : Option Collective) : (joinColl.open_ o key comm seq s table r x).mem = s.mem := by
  cases x with
  | none => rfl
  | some c => simp only [joinColl.open_, apply_ite State.mem, setColl_mem, breakColl_mem, ite_self]

@[simp] theorem joinColl_mem (s : State) (o : Op) (slice : Nat) (key : List Nat) (comm seq : Nat) :
    (joinColl s o slice key comm seq).mem = s.mem := by
  unfold joinColl
  split
  · rfl
  · split
    · rfl
    · rfl
    · dsimp only
      split
      · split <;> simp
      · simp

@[simp] theorem callArrives_open_mem (s : State) (comm rank seq : Nat) (key : List Nat) (table : List (Nat × Nat))
    (x : Option Collective) : (callArrives.open_ s comm rank seq key table x).mem = s.mem := by
  cases x with
  | none => rfl
  | some c => simp only [callArrives.open_, apply_ite State.mem, setColl_mem, breakColl_mem, ite_self]

@[simp] theorem callArrives_mem (s : State) (comm rank seq : Nat) (key : List Nat) : (callArrives s comm rank seq key).mem = s.mem := by
  unfold callArrives
  split
  · rfl
  · split
    · split <;> simp
    · simp

@[simp] theorem doneArrives_mem (s : State) (comm rank seq : Nat) : (doneArrives s comm rank seq).mem = s.mem := by
  unfold doneArrives
  split <;> simp

theorem execColl_memWf (f : Fld) {s : State} (h : Memory.wf s.mem = true) : NextMemWf (execColl f s) := by
  refine issue_memWf h fun cx t ht => ?_
  dsimp only
  repeat' split
  all_goals simp [ht]

@[simp] theorem stopAt_mem (s : State) (o : Op) (m : MFault) : (stopAt s o m).mem = s.mem := rfl

@[simp] theorem nameBufs_mem (s : State) (c : Collective) (ks : List Nat) : (nameBufs s c ks).mem = s.mem := rfl

theorem collRead_memWf {s : State} (c : Collective) (r : Nat) (o : Op) (src dst : DWord) (h : Memory.wf s.mem = true) : NextMemWf
    (collRead s c r o src dst) := by
  unfold collRead
  split
  · exact h
  · rename_i hr
    have h1 := resolveAll_wf hr h
    exact withFar_memWf _ _ _ _ h1 (by simpa using h1)

@[simp] theorem collHears_mem (s : State) (c : Collective) (id : Nat) : (collHears s c id).mem = s.mem := by
  grind [collHears, learn_mem, foldl_mem]

theorem collWrite_wf {s : State} (c : Collective) (r : Nat) (o : Op) (dst : DWord) (h : Memory.wf s.mem = true) : Memory.wf
    (collWrite s c r o dst).mem = true := by
  unfold collWrite
  dsimp only
  split
  · exact h
  · rename_i hr
    have h1 := resolveAll_wf hr h
    exact endEngine_wf _ (by simpa using writeLanes_wf _ _ _ _ (by simpa using h1))

theorem execCollComplete_memWf (id : Nat) {s : State} (h : Memory.wf s.mem = true) : NextMemWf (execCollComplete id s) := by
  unfold execCollComplete
  split
  · split
    · split
      · exact collRead_memWf _ _ _ _ _ h
      · split
        · trivial
        · exact collWrite_wf _ _ _ _ h
    · trivial
  · trivial

end Sys2Proof.Machine
end

section
/-! Memory stays canonical: the functions of Machine/Sweeps. -/

namespace Sys2Proof.Machine

open Sys2Proof

theorem execSlbegin_memWf (f : Fld) {s : State} (h : Memory.wf s.mem = true) : NextMemWf (execSlbegin f s) := by
  refine issue_memWf h fun cx t ht => ?_
  dsimp only
  repeat' split
  all_goals simp [ht]

theorem execSlend_memWf (f : Fld) {s : State} (h : Memory.wf s.mem = true) : NextMemWf (execSlend f s) := by
  refine issue_memWf h fun cx t ht => ?_
  simp [ht]

theorem slTake_memWf {s : State} (cx : Cx) (k : Nat) (h : Memory.wf s.mem = true) : (slTake s cx k).MemWf := by
  unfold slTake
  dsimp only
  repeat' split
  all_goals simp [h]

theorem slnextEff_memWf (cx : Cx) {s : State} (h : Memory.wf s.mem = true) : (slnextEff cx s).MemWf := by
  unfold slnextEff
  dsimp only
  repeat' split
  all_goals simp [h, slTake_memWf]

theorem execSlnext_memWf (f : Fld) {s : State} (h : Memory.wf s.mem = true) : NextMemWf (execSlnext f s) := by
  refine issue_memWf h fun cx t ht => ?_
  simp [ht, slnextEff_memWf]

theorem execSlnextWaitEnd_memWf (ag : Agent) {s : State} (h : Memory.wf s.mem = true) : NextMemWf (execSlnextWaitEnd ag s) := by
  refine resume_memWf h fun cx t ht => ?_
  simp [ht, slnextEff_memWf]

@[simp] theorem setStage_mem (s : State) (cx : Cx) (x : Nat) : (setStage s cx x).mem = s.mem := by simp [setStage]

theorem execStadv_memWf (f : Fld) {s : State} (h : Memory.wf s.mem = true) : NextMemWf (execStadv f s) := by
  refine issue_memWf h fun cx t ht => ?_
  grind [Eff.MemWf, setStage_mem]

theorem execStjmp_memWf (f : Fld) {s : State} (h : Memory.wf s.mem = true) : NextMemWf (execStjmp f s) := by
  refine issue_memWf h fun cx t ht => ?_
  grind [Eff.MemWf, setStage_mem]

theorem waitlEff_memWf (cx : Cx) {s : State} (h : Memory.wf s.mem = true) : (waitlEff cx s).MemWf := by
  unfold waitlEff
  repeat' split
  all_goals simp [h]

theorem execWaitl_memWf (f : Fld) {s : State} (h : Memory.wf s.mem = true) : NextMemWf (execWaitl f s) := by
  refine issue_memWf h fun cx t ht => ?_
  simp [ht, waitlEff_memWf]

theorem execWaitlReturn_memWf (ag : Agent) {s : State} (h : Memory.wf s.mem = true) : NextMemWf (execWaitlReturn ag s) := by
  refine resume_memWf h fun cx t ht => ?_
  simp [ht, waitlEff_memWf]

@[simp] theorem launchLanes_mem (s : State) (cx : Cx) (gid node : Nat) (x : Node) (ls : List Nat) : (launchLanes s cx gid node x ls).mem
    = s.mem := by simp [launchLanes]

theorem launchEff_memWf (cx : Cx) {s : State} (h : Memory.wf s.mem = true) : (launchEff cx s).MemWf := by
  unfold launchEff
  dsimp only
  repeat' split
  all_goals simp [h]

theorem execLaunch_memWf (f : Fld) {s : State} (h : Memory.wf s.mem = true) : NextMemWf (execLaunch f s) := by
  refine issue_memWf h fun cx t ht => ?_
  simp [ht, launchEff_memWf]

theorem execLaunchPoolWaitEnd_memWf (ag : Agent) {s : State} (h : Memory.wf s.mem = true) : NextMemWf (execLaunchPoolWaitEnd ag s) := by
  refine resume_memWf h fun cx t ht => ?_
  simp [ht, launchEff_memWf]

theorem execLaunchTry_memWf (f : Fld) {s : State} (h : Memory.wf s.mem = true) : NextMemWf (execLaunchTry f s) := by
  refine issue_memWf h fun cx t ht => ?_
  dsimp only
  repeat' split
  all_goals simp [ht]

theorem execTstat_memWf (f : Fld) {s : State} (h : Memory.wf s.mem = true) : NextMemWf (execTstat f s) := by
  refine issue_memWf h fun cx t ht => ?_
  split
  · trivial
  · split
    · trivial
    · split
      · trivial
      · simpa using ht

end Sys2Proof.Machine
end

section
/-! Memory stays canonical: the functions of Machine/Engine. -/

namespace Sys2Proof.Machine

open Sys2Proof

@[simp] theorem setClause_mem (s : State) (ag : Agent) (c : Clause) : (setClause s ag c).mem = s.mem := by
  unfold setClause
  split <;> rfl

theorem reachHeader_memWf {s : State} (ag : Agent) (pc : DWord) (h : Memory.wf s.mem = true) : NextMemWf (reachHeader s ag pc) := by
  unfold reachHeader
  split
  · trivial
  · split
    · trivial
    · split
      · trivial
      · split
        · rename_i hf
          have h1 := fetchClause_wf hf h
          simpa using h1
        · split_ifs
          · trivial
          · simpa using h
          · exact raise_wf _ _ (by simpa using h)
          · simpa using h

theorem execClauseStart_memWf (ag : Agent) {s : State} (h : Memory.wf s.mem = true) : NextMemWf (execClauseStart ag s) := by
  unfold execClauseStart
  split
  · trivial
  · split
    · exact reachHeader_memWf _ _ h
    · split
      · trivial
      · simpa using h
    · trivial

theorem execIssueHoldRelease_memWf (ag : Agent) {s : State} (h : Memory.wf s.mem = true) : NextMemWf (execIssueHoldRelease ag s) := by
  unfold execIssueHoldRelease
  split
  · split
    · trivial
    · simpa using h
  · trivial

@[simp] theorem lateLane_mem (s : State) (o : Op) (w : Who) (marked : Bool) (hs : List (Hit × Byte)) : (lateLane s o w marked hs).2.mem
    = s.mem := by
  unfold lateLane
  dsimp only
  split
  · rfl
  · split
    · split
      · simp
      · dsimp only
        split <;> simp
    · refine List.foldlRecOn (motive := fun x : List Byte × State => x.2.mem = s.mem) _ _ rfl fun x hx y _ => ?_
      simpa using hx

@[simp] theorem lateLanes_mem (s : State) (o : Op) (w : Who) (marked : Bool) (plan : List (Nat × List (Hit × Byte))) :
    (lateLanes s o w marked plan).2.mem = s.mem := by
  refine List.foldlRecOn (motive := fun x : List (Nat × Nat) × State => x.2.mem = s.mem) _ _ rfl fun x hx y _ => ?_
  dsimp only
  split <;> simpa using hx

theorem loadComplete_memWf {s : State} (o : Op) (ty d n : Nat) (marked read : Bool) (plan : List (Nat × List (Hit × Byte)))
    (h : Memory.wf s.mem = true) : NextMemWf (loadComplete s o ty d n marked read plan) := by
  unfold loadComplete
  dsimp only
  refine withFar_memWf _ _ _ _ h ?_
  split
  · exact completeOp_wf _ (by simpa using h)
  · split
    · exact h
    · simpa using h
    · exact completeOp_wf _ (by simpa using h)

theorem atomFarHb_wf {s : State} (o : Op) (w : Who) (mn ty : Nat) (plan : List AtomLane) (olds : List (Nat × Nat))
    (h : Memory.wf s.mem = true) : Memory.wf (atomFarHb s o w mn ty plan olds).mem = true := by
  unfold atomFarHb
  refine foldl_wf (fun s p hs => ?_) _ h
  dsimp only
  exact foldl_wf (fun t x ht => putByte_wf _ _ ht) _ (by simpa using hs)

theorem atomComplete_memWf {s : State} (o : Op) (mn ty d : Nat) (ret sent : Bool) (plan : List AtomLane) (h : Memory.wf s.mem = true) :
    NextMemWf (atomComplete s o mn ty d ret sent plan) := by
  unfold atomComplete
  split
  · split
    · trivial
    · split
      · simpa using h
      · exact completeOp_wf _ (atomFarHb_wf _ _ _ _ _ _ h)
  · split
    · exact h
    · simpa using h
    · simpa using atomGo_wf _ _ _ _ _ _ _ h

theorem fillComplete_memWf {s : State} (o : Op) (d : Nat) (act : Mask) (slot : DWord) (h : Memory.wf s.mem = true) : NextMemWf
    (fillComplete s o d act slot) := by
  have hf := fillRead_memWf (grpWho s o) act slot h
  unfold fillComplete
  split
  · rename_i hx
    rw [hx] at hf
    exact completeOp_wf _ hf
  · exact h
  · rename_i hx
    rw [hx, Filled.memWf_poison] at hf
    simpa using hf
  · rename_i hx
    rw [hx] at hf
    exact withFar_memWf _ _ _ _ hf hf

theorem ordLand_memWf {s : State} (o : Op) (site d : Nat) (ret : Bool) (h : Memory.wf s.mem = true) :
    NextMemWf (ordLand s o site d ret) := by
  unfold ordLand
  split
  · trivial
  · split
    · trivial
    · split
      · trivial
      · split
        · trivial
        · dsimp only
          split <;> simpa using h

theorem devDone_wf {s0 : State} (o : Op) (d : DevK) (h : Memory.wf s0.mem = true) : Memory.wf (devDone s0 o d).mem = true := by
  cases d with
  | passage _ ix => exact reap_wf _ (settleLaunch_wf _ _ h)
  | board ix => exact reap_wf _ (settleLaunch_wf _ _ h)
  | mask c => exact h
  | completion _ _ => exact h
  | read _ => exact h

theorem execVariableLatencyComplete_memWf (id : Nat) {s : State} (h : Memory.wf s.mem = true) : NextMemWf
    (execVariableLatencyComplete id s) := by
  unfold execVariableLatencyComplete
  dsimp only
  split
  · trivial
  · split
    · trivial
    · split
      · split
        · trivial
        · exact completeOp_wf _ h
      · split
        · trivial
        · exact completeOp_wf _ h
      · split
        · trivial
        · exact devDone_wf _ _ h
      · exact loadComplete_memWf _ _ _ _ _ _ _ h
      · exact atomComplete_memWf _ _ _ _ _ _ _ h
      · exact fillComplete_memWf _ _ _ _ h
      · exact tiopComplete_memWf _ _ h
      · exact travComplete_memWf _ _ _ _ _ h
      · exact ordLand_memWf _ _ _ _ h
      · simpa using h
      all_goals trivial

theorem execPageWalkComplete_memWf (die lnch : Nat) (va : DWord) {s : State} (h : Memory.wf s.mem = true) : NextMemWf
    (execPageWalkComplete die lnch va s) := by
  unfold execPageWalkComplete
  split
  · trivial
  · dsimp only
    split
    · trivial
    · split
      · trivial
      · exact touch_wf _ _ _ h

end Sys2Proof.Machine
end

section
/-! Memory stays canonical: the functions of Machine/Tasks. -/

namespace Sys2Proof.Machine

open Sys2Proof

@[simp] theorem cutGrid_mem (s : State) (lid : Nat) : (cutGrid s lid).mem = s.mem := by
  unfold cutGrid
  dsimp only
  repeat' split
  all_goals simp

@[simp] theorem cutGrids_mem (s : State) : (cutGrids s).mem = s.mem := by grind [cutGrids, foldl_mem, cutGrid_mem]

theorem clearCore_wf {s : State} (core : Nat) (h : Memory.wf s.mem = true) : Memory.wf (clearCore s core).mem = true :=
  Tab.wf_filter _ _ _ h

@[simp] theorem startWgHb_mem (s : State) (lid : Nat) (l : Launch) (wid ix : Nat) : (startWgHb s lid l wid ix).mem = s.mem := by
  grind [startWgHb, setHb_mem, foldl_mem]

theorem place_wf {s0 : State} (lid : Nat) (l : Launch) (core ix : Nat) (slots : List Nat) (base : Nat) (helpers : List Mask)
    (h : Memory.wf s0.mem = true) : Memory.wf (place s0 lid l core ix slots base helpers).mem = true := by
  unfold place
  split
  · simpa using clearCore_wf core h
  · simpa using h

@[simp] theorem tookTurn_mem (s : State) (q : Nat) : (tookTurn s q).mem = s.mem := rfl

theorem dispatchTo_wf {s : State} (lid core ix : Nat) (l : Launch) (slots : List Nat) (base : Nat) (h : Memory.wf s.mem = true) :
    Memory.wf (dispatchTo s lid core ix l slots base).mem = true := by
  have h1 (b : Bool) (hs : List Mask) : Memory.wf (if b then
      settleLaunch { s with launches := Tab.put s.launches lid (l.retire (dieOf core) ix) } lid ix
      else place s lid l core ix slots base hs).mem = true := by
    split
    · exact settleLaunch_wf _ _ h
    · exact place_wf _ _ _ _ _ _ _ h
  unfold dispatchTo
  dsimp only
  split
  · exact settleGraph_wf _ (h1 _ _)
  · exact h1 _ _

theorem execWorkgroupDispatch_memWf (lnch core : Nat) {s0 : State} (h : Memory.wf s0.mem = true) : NextMemWf
    (execWorkgroupDispatch lnch core s0) := by
  unfold execWorkgroupDispatch
  dsimp only
  split
  · trivial
  · split
    · trivial
    · split
      · split
        · trivial
        · exact dispatchTo_wf _ _ _ _ _ _ (by simpa using h)
      · trivial

theorem execWorkgroupRetire_memWf (wg : Nat) {s : State} (h : Memory.wf s.mem = true) : NextMemWf (execWorkgroupRetire wg s) := by
  unfold execWorkgroupRetire
  split
  · trivial
  · split
    · trivial
    · dsimp only
      split_ifs
      · trivial
      all_goals
        split
        · exact settleGraph_wf _ (settleLaunch_wf _ _ (by simpa using h))
        · exact settleLaunch_wf _ _ (by simpa using h)

theorem execScoreboardBitReceive_memWf (lnch die wgix : Nat) {s : State} (h : Memory.wf s.mem = true) : NextMemWf
    (execScoreboardBitReceive lnch die wgix s) := by
  unfold execScoreboardBitReceive
  split
  · trivial
  · split_ifs
    · trivial
    all_goals simpa using h

end Sys2Proof.Machine
end

section
/-! Memory stays canonical: the functions of Machine/Queues. -/

namespace Sys2Proof.Machine

open Sys2Proof

@[simp] theorem consume_mem (s : State) (q n : Nat) : (consume s q n).mem = s.mem := rfl

@[simp] theorem forgetDev_mem (s : State) (n : Nat) : (forgetDev s n).mem = s.mem := rfl

@[simp] theorem askDev_mem (s : State) (n : Nat) (ns : Bool) (far : List Hit) : (askDev s n ns far).mem = s.mem := by
  unfold askDev
  split <;> simp

@[simp] theorem rejectCmd_mem (s : State) (q n code : Nat) : (rejectCmd s q n code).mem = s.mem := rfl

@[simp] theorem refuse_mem (s : State) (q n : Nat) (ns : Bool) (e : Refused) : (refuse s q n ns e).mem = s.mem := by
  unfold refuse
  split <;> simp

@[simp] theorem startCmd_mem (s0 : State) (c : CmdIn) (k : CmdK) (ready : Bool) : (startCmd s0 c k ready).mem = s0.mem := by
  unfold startCmd
  split <;> simp

theorem serveCmd_memWf (name : String) (op q : Nat) {s : State} {body : CmdIn → State → State} (h : Memory.wf s.mem = true)
    (hb : ∀ c, Memory.wf (body c s).mem = true) : NextMemWf (serveCmd name op q s body) := by
  unfold serveCmd
  split
  · split
    · simpa using h
    · trivial
  · split
    · trivial
    · split
      · simpa using h
      · exact hb _
  · trivial

@[simp] theorem dropCmd_mem (s : State) (id : Nat) (c : Cmd) : (dropCmd s id c).mem = s.mem := rfl

@[simp] theorem rejectAll_mem (s : State) (q : Nat) (n : Nat) : (rejectAll s q n).mem = s.mem := by
  induction n generalizing s with
  | zero => rfl
  | succ n ih =>
    unfold rejectAll
    simp only [apply_ite State.mem, ih, rejectCmd_mem, ite_self]

@[simp] theorem rejectPending_mem (s : State) (q : Nat) : (rejectPending s q).mem = s.mem := by simp [rejectPending]

theorem execQtailWrite_memWf (q : Nat) (value : Word) {s : State} (h : Memory.wf s.mem = true) : NextMemWf (execQtailWrite q value s) := by
  unfold execQtailWrite
  dsimp only
  split <;> simp [h]

theorem execQctlWrite_memWf (q : Nat) (value : Word) {s : State} (h : Memory.wf s.mem = true) : NextMemWf (execQctlWrite q value s) := by
  simp [execQctlWrite, h]

theorem execQsizeWrite_memWf (q : Nat) (value : Word) {s : State} (h : Memory.wf s.mem = true) : NextMemWf (execQsizeWrite q value s) := by
  unfold execQsizeWrite
  dsimp only
  split <;> simp [h]

theorem execQueueNop_memWf (q : Nat) {s : State} (h : Memory.wf s.mem = true) : NextMemWf (execQueueNop q s) := by
  unfold execQueueNop
  split
  · trivial
  · simpa using h
  · split
    · simpa using h
    · trivial
  · split
    · simpa using h
    · trivial

@[simp] theorem waitvHears_mem (s : State) (q : Nat) (c : Ctx) (addr : DWord) : (waitvHears s q c addr).mem = s.mem := by
  grind [waitvHears, post_mem, foldl_mem]

theorem execWaitv_memWf (q : Nat) {s : State} (h : Memory.wf s.mem = true) : NextMemWf (execWaitv q s) := by
  refine serveCmd_memWf _ _ _ h fun c => ?_
  dsimp only
  split
  · simpa using h
  · rename_i hr
    have h1 := readNum_wf hr h
    split <;> simpa using h1

theorem execWaitvSatisfied_memWf (q : Nat) {s : State} (h : Memory.wf s.mem = true) : NextMemWf (execWaitvSatisfied q s) := by
  unfold execWaitvSatisfied
  split
  · trivial
  · dsimp only
    split
    · trivial
    · split
      · simpa using h
      · split
        · split <;> simpa using h
        · rename_i hr
          have h1 := readNum_wf hr h
          split_ifs
          · simpa using h1
          · simpa using h
          · trivial

theorem execFrame_memWf (q : Nat) {s : State} (h : Memory.wf s.mem = true) : NextMemWf (execFrame q s) := by
  refine serveCmd_memWf _ _ _ h fun c => ?_
  dsimp only
  split
  · simpa using h
  · split
    · simpa using h
    · rename_i hr
      have h1 := readPlain_wf hr h
      split
      · simpa using h
      · simpa using h1

theorem execFrameEncodeComplete_memWf (id : Nat) {s : State} (h : Memory.wf s.mem = true) : NextMemWf (execFrameEncodeComplete id s) := by
  unfold execFrameEncodeComplete
  split
  · trivial
  · split
    · split
      · trivial
      · dsimp only
        split
        · trivial
        · split
          · simpa using h
          · split
            · simpa using h
            · rename_i hw
              have h1 := writePlain_wf hw h
              split_ifs <;> simpa using h1
    · trivial

theorem execInval_memWf (q : Nat) {s : State} (h : Memory.wf s.mem = true) : NextMemWf (execInval q s) := by
  refine serveCmd_memWf _ _ _ h fun c => ?_
  split <;> simpa using h

theorem execInvalComplete_memWf (id : Nat) {s : State} (h : Memory.wf s.mem = true) : NextMemWf (execInvalComplete id s) := by
  unfold execInvalComplete
  split
  · trivial
  · split
    · split
      · trivial
      · simpa using h
    · trivial

theorem execComm_memWf (q : Nat) {s : State} (h : Memory.wf s.mem = true) : NextMemWf (execComm q s) := by
  refine serveCmd_memWf _ _ _ h fun c => ?_
  dsimp only
  split
  · simpa using h
  · split
    · simpa using h
    · rename_i hr
      have h1 := readPlain_wf hr h
      split
      · simpa using h
      · simpa using h1

theorem execBridle_memWf (q : Nat) {s : State} (h : Memory.wf s.mem = true) : NextMemWf (execBridle q s) := by
  refine serveCmd_memWf _ _ _ h fun c => ?_
  dsimp only
  split <;> simpa using h

theorem execRegion_memWf (q : Nat) {s : State} (h : Memory.wf s.mem = true) : NextMemWf (execRegion q s) := by
  refine serveCmd_memWf _ _ _ h fun c => ?_
  dsimp only
  split_ifs <;> simpa using h

end Sys2Proof.Machine
end

section
/-! Memory stays canonical: the functions of Machine/Launches. -/

namespace Sys2Proof.Machine

open Sys2Proof

theorem readKernel_wf {s : State} {q : Nat} {ctx : Ctx} {kdesc : DWord} {x : Kernel} {s1 : State}
    (hr : readKernel s q ctx kdesc = .ok (x, s1)) (h : Memory.wf s.mem = true) : Memory.wf s1.mem = true := by
  unfold readKernel at hr
  grind [readPlain_wf]

theorem openShade_wf {s : State} {l x : Launch} {s1 : State} (hr : openShade s l = .ok (x, s1)) (h : Memory.wf s.mem = true) : Memory.wf
    s1.mem = true := by
  unfold openShade at hr
  split at hr
  · cases hr
    exact h
  · split at hr
    · cases hr
    · rename_i hv
      have h1 := readNum_wf hv h
      split at hr
      · cases hr
      · rename_i hp
        have h2 := readPlain_wf hp h1
        dsimp only at hr
        split at hr
        · cases hr
        · cases hr
          exact h2

theorem openSites_wf {s : State} {l : Launch} {tbl : DWord} {is : List Nat} {x : List Site} {s1 : State}
    (hr : openSites s l tbl is = .ok (x, s1)) (h : Memory.wf s.mem = true) : Memory.wf s1.mem = true := by
  induction is generalizing s x with
  | nil =>
    cases hr
    exact h
  | cons i is ih =>
    unfold openSites at hr
    split at hr
    · cases hr
    · rename_i hp
      have h1 := readPlain_wf hp h
      dsimp only at hr
      split at hr
      · cases hr
      · split at hr
        · cases hr
        · rename_i hn
          have h2 := readNum_wf hn h1
          split at hr
          · cases hr
          · rename_i ho
            cases hr
            exact ih ho h2

theorem accessed_ok {α : Type} {x : Except MFault α} {a : α} : accessed x = .ok a ↔ x = .ok a := by
  cases x <;> simp [accessed]

theorem openLaunch_wf {s : State} {l : Launch} {tbl : DWord} {x : Launch} {s1 : State} (hr : openLaunch s l tbl = .ok (x, s1))
    (h : Memory.wf s.mem = true) : Memory.wf s1.mem = true := by
  unfold openLaunch at hr
  split at hr
  · cases hr
  · rename_i ho
    have h1 := openShade_wf ho h
    split at hr
    · cases hr
    · rename_i hs
      have h2 := openSites_wf hs h1
      split at hr
      · cases hr
      · rename_i hb
        cases hr
        exact boardWrite_wf (accessed_ok.1 hb) h2

@[simp] theorem addLaunch_mem (s : State) (l : Launch) : (addLaunch s l).mem = s.mem := rfl

@[simp] theorem launchStarts_mem (s : State) (lid : Nat) (past : Clk) : (launchStarts s lid past).mem = s.mem := by simp [launchStarts]

theorem execLaunchCommand_memWf (q : Nat) {s : State} (h : Memory.wf s.mem = true) : NextMemWf (execLaunchCommand q s) := by
  refine serveCmd_memWf _ _ _ h fun c => ?_
  dsimp only
  split
  · simpa using h
  · split
    · simpa using h
    · rename_i hk
      have h1 := readKernel_wf hk h
      split
      · simpa using h
      · split
        · simpa using h
        · split
          · simpa using h
          · rename_i ho
            simpa using openLaunch_wf ho h1

theorem readNode_wf {s : State} {q : Nat} {ctx : Ctx} {bs : List Byte} {x : Node} {s1 : State} (hr : readNode s q ctx bs = .ok (x, s1))
    (h : Memory.wf s.mem = true) : Memory.wf s1.mem = true := by
  unfold readNode at hr
  grind [readPlain_wf, readKernel_wf]

theorem readNodes_wf {s : State} {q : Nat} {ctx : Ctx} {bs : List Byte} {is : List Nat} {x : List Node} {s1 : State}
    (hr : readNodes s q ctx bs is = .ok (x, s1)) (h : Memory.wf s.mem = true) : Memory.wf s1.mem = true := by
  induction is generalizing s x with
  | nil =>
    cases hr
    exact h
  | cons i is ih =>
    unfold readNodes at hr
    split at hr
    · cases hr
    · rename_i hn
      split at hr
      · cases hr
      · rename_i hs
        cases hr
        exact ih hs (readNode_wf hn h)

theorem copyBlocks_wf {s : State} {q : Nat} {ctx : Ctx} {pool : DWord} {place : Nat} {ps : List Patch} {xs : List (Node × Nat)}
    {ys : List Node} {s1 : State} (hr : copyBlocks s q ctx pool place ps xs = .ok (ys, s1)) (h : Memory.wf s.mem = true) : Memory.wf
    s1.mem = true := by
  induction xs generalizing s ys with
  | nil =>
    cases hr
    exact h
  | cons x xs ih =>
    unfold copyBlocks at hr
    dsimp only at hr
    split at hr
    · cases hr
    · rename_i s2 hb
      split at hr
      · cases hr
      · rename_i hs
        cases hr
        refine ih hs ?_
        grind [readPlain_wf, writePlain_wf]

theorem readPlain_unless_wf {p : Prop} [Decidable p] {s s1 : State} {w : Who} {k : AccK} {a : DWord} {n al : Nat} {bs : List Byte}
    (hr : (if p then .ok ([], s) else readPlain s w k a n al) = .ok (bs, s1)) (h : Memory.wf s.mem = true) : Memory.wf s1.mem = true := by
  split at hr
  · cases hr
    exact h
  · exact readPlain_wf hr h

theorem readGraph_wf {s : State} {c : CmdIn} {x : Graph} {s1 : State} (hr : readGraph s c = .ok (x, s1)) (h : Memory.wf s.mem = true) :
    Memory.wf s1.mem = true := by
  unfold readGraph at hr
  dsimp only at hr
  split at hr
  · cases hr
  · rename_i hh
    have h1 := readPlain_wf hh h
    split at hr
    · cases hr
    · split at hr
      · cases hr
      · rename_i hnb
        have h2 := readPlain_wf hnb h1
        split at hr
        · cases hr
        · rename_i heb
          have h3 := readPlain_unless_wf heb h2
          split at hr
          · cases hr
          · rename_i hns
            have h4 := readNodes_wf hns h3
            split at hr
            · cases hr
            · split at hr
              · cases hr
              · rename_i hpb
                have h5 := readPlain_unless_wf hpb h4
                split at hr
                · cases hr
                · split at hr
                  · cases hr
                  · split at hr
                    · cases hr
                    · rename_i hcb
                      cases hr
                      exact copyBlocks_wf hcb h5

theorem startReplay_wf {s : State} (gid : Nat) (g : Graph) (h : Memory.wf s.mem = true) :
    Memory.wf (startReplay s gid g).mem = true := settleGraph_wf _ (maskWrite_wf _ _ (by simpa using h))

theorem execGraphCommand_memWf (q : Nat) {s : State} (h : Memory.wf s.mem = true) : NextMemWf (execGraphCommand q s) := by
  refine serveCmd_memWf _ _ _ h fun c => ?_
  dsimp only
  split
  · simpa using h
  · rename_i hg
    have h1 := readGraph_wf hg h
    split
    · simpa using h1
    · exact startReplay_wf _ _ (by simpa using h1)

theorem execGraphReplayStart_memWf (graph : Nat) {s : State} (h : Memory.wf s.mem = true) : NextMemWf (execGraphReplayStart graph s) := by
  unfold execGraphReplayStart
  split
  · trivial
  · split
    · trivial
    · exact startReplay_wf _ _ h

@[simp] theorem nodeStarted_mem (s : State) (gid n lid : Nat) : (nodeStarted s gid n lid).mem = s.mem := rfl

theorem execGraphNodeStart_memWf (graph node : Nat) {s : State} (h : Memory.wf s.mem = true) : NextMemWf
    (execGraphNodeStart graph node s) := by
  unfold execGraphNodeStart
  split
  · trivial
  · split
    · trivial
    · split
      · trivial
      · dsimp only
        split
        · exact settleGraph_wf _ (by simpa using h)
        · have hb (p : Bool) (m : MFault) {t : State} (n ix : Nat) (ht : Memory.wf t.mem = true) :
              Memory.wf (if p then launchFault t n m 0 ix else killLaunch t n).mem = true := by
            split
            · exact launchFault_wf _ _ _ _ ht
            · exact killLaunch_wf _ ht
          split
          · trivial
          · split
            · exact launchFault_wf _ _ _ _ (by simpa using h)
            · split
              · rename_i ho
                simpa using openLaunch_wf ho h
              · split
                · split
                  · exact launchFault_wf _ _ _ _ (by simpa using h)
                  · exact killLaunch_wf _ (by simpa using h)
                · simpa using h

end Sys2Proof.Machine
end

section
/-! Memory stays canonical: the functions of Machine/Ready. -/

namespace Sys2Proof.Machine

open Sys2Proof

@[simp] theorem noteAct_mem (s t : State) (ag : Agent) (i : Instr) : (noteAct s t ag i).mem = t.mem := by
  unfold noteAct
  split
  · dsimp only
    split <;> rfl
  · rfl

@[simp] theorem expireAll_mem (s : State) : (expireAll s).mem = s.mem := by
  refine foldl_mem _ (fun s e => ?_) _ _
  split <;> simp

end Sys2Proof.Machine
end

section
/-! Memory stays canonical: the functions of Machine/Bridle. -/

namespace Sys2Proof.Machine

open Sys2Proof

theorem execGroupSwapStart_memWf (core : Nat) {s : State} (h : Memory.wf s.mem = true) : NextMemWf (execGroupSwapStart core s) := by
  unfold execGroupSwapStart
  dsimp only
  split
  · trivial
  · split
    · trivial
    · exact h

theorem execGroupSwapEnd_memWf (core : Nat) {s : State} (h : Memory.wf s.mem = true) : NextMemWf (execGroupSwapEnd core s) := by
  unfold execGroupSwapEnd
  dsimp only
  split
  · trivial
  · split
    · trivial
    · exact h

theorem execBridleEvaluate_memWf (slice : Nat) {s : State} (h : Memory.wf s.mem = true) : NextMemWf (execBridleEvaluate slice s) := by
  unfold execBridleEvaluate
  split
  · trivial
  · split
    · trivial
    · simpa using h

end Sys2Proof.Machine
end

section
/-! Memory stays canonical: the functions of Machine/Drogue. -/

namespace Sys2Proof.Machine

open Sys2Proof

@[simp] theorem haltResumes_mem (s : State) : (haltResumes s).mem = s.mem := by grind [haltResumes, State.cmdReady_mem, foldl_mem]

@[simp] theorem haltCores_mem (s : State) (cores : List Nat) (h : Bool) : (haltCores s cores h).mem = s.mem := by
  grind [haltCores, State.setCore_mem, foldl_mem]

theorem execPreempt_memWf (q : Nat) {s : State} (h : Memory.wf s.mem = true) : NextMemWf (execPreempt q s) := by
  refine serveCmd_memWf _ _ _ h fun c => ?_
  dsimp only
  split
  · simpa using h
  · split
    · simpa using h
    · split <;> simpa using h

theorem writeArea_wf {s : State} (tier addr : Nat) (bs : List Byte) (h : Memory.wf s.mem = true) : Memory.wf
    (writeArea s tier addr bs).mem = true := by simp [writeArea, writeBytes_wf, h]

theorem backBoards_wf {s : State} (sv : Save) (h : Memory.wf s.mem = true) : Memory.wf (backBoards s sv).mem = true := by
  unfold backBoards
  split
  · exact h
  · refine foldl_wf (fun s l hs => ?_) _ h
    split
    · exact launchFault_wf _ _ _ _ hs
    · rename_i hb
      have h1 := boardWrite_wf hb hs
      exact h1

@[simp] theorem stopPasses_mem (s : State) (slice : Nat) (stop : Bool) : (stopPasses s slice stop).mem = s.mem := rfl

@[simp] theorem moveTiles_mem (s : State) (a b : Nat) : (moveTiles s a b).mem = s.mem := rfl

@[simp] theorem settleOps_mem (s : State) (wid : Nat) : (settleOps s wid).mem = s.mem := by
  unfold settleOps
  rw [forgetOpHb_mem]
  refine (foldl_mem _ (fun s o => counterPast_mem s o) _ _).trans (foldl_mem _ (fun s o => ?_) _ _)
  split
  · split <;> simp
  · rfl

@[simp] theorem setAside_mem (s0 : State) (svId : Nat) (wid off : Nat) (w : Wg) (l : Launch) : (setAside s0 svId wid off w l).mem =
    s0.mem := by
  unfold setAside
  split <;> simp

theorem writeRecord_wf {s : State} (svId wid off : Nat) (p : Parts) (h : Memory.wf s.mem = true) : Memory.wf
    (writeRecord s svId wid off p).mem = true := by
  unfold writeRecord
  repeat' split
  all_goals simp [h, writeArea_wf]

theorem saveAll_wf {s : State} (svId : Nat) (slice : Bool) (xs : List (Nat × Wg × Launch × Parts)) (off : Nat)
    (h : Memory.wf s.mem = true) : Memory.wf (saveAll s svId slice xs off).mem = true := by
  induction xs generalizing s off with
  | nil => exact h
  | cons x xs ih => exact ih _ (writeRecord_wf _ _ _ _ (by simpa using h))

@[simp] theorem saveCmds_mem (s : State) (sv : Save) : (saveCmds s sv).mem = s.mem := by grind [saveCmds, State.cmdReady_mem, foldl_mem]

theorem mergedHeaders_wf {s : State} (sv : Save) (ovf : Bool) (h : Memory.wf s.mem = true) : Memory.wf (mergedHeaders s sv ovf).mem =
    true := foldl_wf (fun _ _ hs => writeArea_wf _ _ _ hs) _ h

@[simp] theorem releaseCores_mem (s : State) (sv : Save) : (releaseCores s sv).mem = s.mem := by simp [releaseCores]

@[simp] theorem goResume_mem (s : State) (id : Nat) (c : Cmd) (tier area : Nat) : (goResume s id c tier area).mem = s.mem := by
  unfold goResume
  dsimp only
  repeat' split
  all_goals simp

@[simp] theorem goResumes_mem (s : State) : (goResumes s).mem = s.mem := by grind [goResumes, foldl_mem, goResume_mem]

theorem saveEnds_wf {s : State} (saves : Tab Save) (sv : Save) (ovf : Bool) (h : Memory.wf s.mem = true) : Memory.wf
    (goResumes (releaseCores (saveCmds (mergedHeaders { s with saves := saves } sv ovf) sv) sv)).mem = true := by
  rw [goResumes_mem, releaseCores_mem, saveCmds_mem]
  have h1 : Memory.wf { s with saves := saves }.mem = true := h
  exact mergedHeaders_wf _ _ h1

theorem nextMemWf_ite {p : Prop} [Decidable p] {a b : Host.Outcome State Fault Refusal} (ha : NextMemWf a) (hb : NextMemWf b) :
    NextMemWf (if p then a else b) := by
  split
  · exact ha
  · exact hb

theorem execContextSave_memWf (save : Nat) {s : State} (h : Memory.wf s.mem = true) : NextMemWf (execContextSave save s) := by
  have hif (p : Prop) [Decidable p] {t t' : State} (ht : Memory.wf t.mem = true) (ht' : Memory.wf t'.mem = true) :
      Memory.wf (if p then t else t').mem = true := by
    split
    · exact ht
    · exact ht'
  unfold execContextSave
  split
  · trivial
  · rename_i sv _
    split
    · trivial
    · dsimp only
      refine nextMemWf_ite ?_ ?_
      · exact saveEnds_wf _ _ _ (writeArea_wf _ _ _ h)
      · have h1 := backBoards_wf sv h
        refine saveEnds_wf _ _ _ (writeArea_wf _ _ _ ?_)
        have h2 := saveAll_wf save (sv.kind == 2) (recordsOf (backBoards s sv) sv) 0x1000
          (hif (sv.kind == 2 && s.passes.any fun p => p.slice == sv.slice) (t := stopPasses (backBoards s sv) sv.slice true) h1 h1)
        exact hif _ (writeArea_wf _ _ _ h2) h2

theorem leaveDropped_wf {s : State} (wid : Nat) (h : Memory.wf s.mem = true) : Memory.wf (leaveDropped s wid).mem = true := by
  unfold leaveDropped
  split
  · exact h
  · split
    · exact reap_wf _ (by simpa using h)
    · exact h

theorem execLateCompletionApply_memWf (id : Nat) {s : State} (h : Memory.wf s.mem = true) : NextMemWf (execLateCompletionApply id s) := by
  unfold execLateCompletionApply
  split
  · trivial
  · split
    · split
      · trivial
      · dsimp only
        split
        · repeat' split
          all_goals exact h
        · refine leaveDropped_wf _ ?_
          rw [goResumes_mem]
          refine writeRecord_wf _ _ _ _ ?_
          repeat' split
          all_goals exact h
    · trivial

theorem execResume_memWf (q : Nat) {s : State} (h : Memory.wf s.mem = true) : NextMemWf (execResume q s) := by
  refine serveCmd_memWf _ _ _ h fun c => ?_
  dsimp only
  split <;> simpa using h

theorem putBack_wf {s : State} (k : Nat) (sv : Save) (wid off : Nat) (w : Wg) (l : Launch) (h : Memory.wf s.mem = true) : Memory.wf
    (putBack s k sv wid off w l).mem = true := by
  grind [putBack, State.setByte_mem, setByte_wf, foldl_mem, restoreBytes_wf, clearCore_wf, moveTiles_mem]

theorem execWorkgroupRestore_memWf (save record : Nat) {s : State} (h : Memory.wf s.mem = true) : NextMemWf
    (execWorkgroupRestore save record s) := by
  unfold execWorkgroupRestore
  split
  · trivial
  · split
    · split
      · trivial
      · split
        · trivial
        · dsimp only
          split
          · trivial
          · have h1 := fun k sv wid off w l => putBack_wf (s := s) k sv wid off w l h
            split <;> simpa using h1 _ _ _ _ _ _
    · trivial

theorem completionWrite_wf {s : State} {c : Cmd} {past : Clk} {s1 : State} (hr : completionWrite s c past = .ok s1)
    (h : Memory.wf s.mem = true) : Memory.wf s1.mem = true := by
  unfold completionWrite at hr
  split at hr
  · cases hr
  · rename_i hw
    have h1 := writePlain_wf hw h
    cases hr
    simpa using h1

theorem completeCmd_wf {s0 : State} (id : Nat) (c : Cmd) (h : Memory.wf s0.mem = true) : Memory.wf (completeCmd s0 id c).mem = true := by
  unfold completeCmd
  dsimp only
  split
  · split <;> simpa using h
  · split
    · simpa using h
    · rename_i hw
      have h1 := completionWrite_wf hw (by simpa using h)
      split <;> simpa using h1

theorem execCommandComplete_memWf (id : Nat) {s : State} (h : Memory.wf s.mem = true) : NextMemWf (execCommandComplete id s) := by
  unfold execCommandComplete
  split
  · trivial
  · split
    · exact completeCmd_wf _ _ h
    · split
      · split
        · simpa using h
        · trivial
      · trivial

end Sys2Proof.Machine
end

section
/-! Memory stays canonical: the functions of Machine/Traps. -/

namespace Sys2Proof.Machine

open Sys2Proof

@[simp] theorem leaveColl_mem (s : State) (id : Nat) : (leaveColl s id).mem = s.mem := rfl

theorem skipOp_wf {s : State} (o0 : Op) (h : Memory.wf s.mem = true) : Memory.wf (skipOp s o0).mem = true := by
  unfold skipOp
  dsimp only
  split
  · refine endEngine_wf _ ?_
    rw [dropReaders_mem]
    split
    · exact h
    · split <;> exact h
  · split
    · exact completeOp_wf _ h
    · exact completeOp_wf _ (by simpa using h)
  · exact endEngine_wf _ h
  · exact travSkip_wf _ _ _ _ _ h
  · exact endPass_wf _ _ _ h
  · exact endEngine_wf _ h
  · exact endEngine_wf _ h
  · exact endEngine_wf _ h
  · simpa using h
  all_goals exact completeOp_wf _ h

theorem devFails_wf {s0 : State} (o : Op) (d : DevK) (t : Trap) (h : Memory.wf s0.mem = true) :
    Memory.wf (devFails s0 o d t).mem = true := by
  cases d with
  | passage _ ix => exact launchFault_wf _ _ _ _ h
  | board ix =>
    unfold devFails
    dsimp only
    split
    · exact reap_wf _ h
    · exact launchFault_wf _ _ _ _ h
  | mask c => exact h
  | completion q slot => simpa [devFails] using h
  | read _ => exact h

theorem execEngineFault_memWf (id : Nat) {s : State} (h : Memory.wf s.mem = true) : NextMemWf (execEngineFault id s) := by
  unfold execEngineFault
  split
  · trivial
  · split
    · trivial
    · split
      · trivial
      · split
        · trivial
        · exact devFails_wf _ _ _ h
        · split
          · exact skipOp_wf _ h
          · split
            · trivial
            · exact raise_wf _ _ h

@[simp] theorem retryOp_mem (s : State) (o : Op) : (retryOp s o).mem = s.mem := by
  unfold retryOp
  dsimp only
  repeat' split
  all_goals simp

@[simp] theorem moveTo_mem (s : State) (ag : Agent) (pc : DWord) : (moveTo s ag pc).mem = s.mem := by
  unfold moveTo
  split <;> rfl

@[simp] theorem setAgain_mem (s : State) (ag : Agent) (n : Nat) : (setAgain s ag n).mem = s.mem := by
  unfold setAgain
  split <;> rfl

theorem passOver_wf {s : State} (ag : Agent) (h : Memory.wf s.mem = true) : Memory.wf (passOver s ag).mem = true := by
  unfold passOver
  dsimp only
  repeat' split
  all_goals simp [h]

theorem skipAgent_wf {s : State} (t : Trap) (ag : Agent) (h : Memory.wf s.mem = true) : Memory.wf (skipAgent t s ag).mem = true := by
  unfold skipAgent
  split
  · split
    · exact passOver_wf _ (by simpa using h)
    · exact skipOp_wf _ h
  · exact passOver_wf _ h

@[simp] theorem retryAgent_mem (t : Trap) (s : State) (ag : Agent) : (retryAgent t s ag).mem = s.mem := by
  unfold retryAgent
  split <;> simp

@[simp] theorem unfreeze_mem (s : State) (ag : Agent) : (unfreeze s ag).mem = s.mem := by
  unfold unfreeze
  split
  · rfl
  · split
    · rfl
    · split
      · rfl
      · simp only [settleTurn_mem, State.modWg_mem]
        refine foldl_mem _ (fun s sl => ?_) _ _
        rfl

theorem actOn_wf {s : State} (q : Nat) (serial : Word) {act : Trap → State → Agent → State}
    (hact : ∀ t s ag, Memory.wf s.mem = true → Memory.wf (act t s ag).mem = true) (h : Memory.wf s.mem = true) : Memory.wf
    (actOn s q serial act).mem = true := by
  unfold actOn
  split
  · exact h
  · split
    · exact killLaunch_wf _ h
    · refine foldl_wf (fun s ag hs => ?_) _ (foldl_wf (fun s ag hs => hact _ _ _ hs) _ h)
      rwa [unfreeze_mem]

theorem execTractSkip_memWf (q : Nat) (serial : Word) {s : State} (h : Memory.wf s.mem = true) :
    NextMemWf (execTractSkip q serial s) := actOn_wf _ _ (fun t _ ag hs => skipAgent_wf t ag hs) h

theorem execTractRetry_memWf (q : Nat) (serial : Word) {s : State} (h : Memory.wf s.mem = true) :
    NextMemWf (execTractRetry q serial s) := actOn_wf _ _ (fun t s ag hs => by rwa [retryAgent_mem]) h

theorem execTractKill_memWf (q : Nat) (serial : Word) {s : State} (h : Memory.wf s.mem = true) : NextMemWf (execTractKill q serial s) := by
  unfold execTractKill
  split
  · exact h
  · exact killLaunch_wf _ h

theorem execTrkill_memWf (q : Nat) (lid : Word) {s : State} (h : Memory.wf s.mem = true) : NextMemWf (execTrkill q lid s) :=
  foldl_wf (fun _ l hs => killLaunch_wf l hs) _ h

theorem execTrheadWrite_memWf (q : Nat) (value : Word) {s : State} (h : Memory.wf s.mem = true) :
    NextMemWf (execTrheadWrite q value s) := h

theorem execTrbaseWrite_memWf (q : Nat) (value : DWord) {s : State} (h : Memory.wf s.mem = true) :
    NextMemWf (execTrbaseWrite q value s) := by
  unfold execTrbaseWrite
  dsimp only
  split <;> simp [h]

end Sys2Proof.Machine
end

section
/-! Memory stays canonical: the functions of Machine/Boot. -/

namespace Sys2Proof.Machine

open Sys2Proof

theorem cleared_wf {s : State} (h : Memory.wf s.mem = true) : Memory.wf (cleared s).mem = true := Tab.wf_filter _ _ _ h

@[simp] theorem bootFrom_mem (s : State) : (bootFrom s).mem = s.mem := by
  unfold bootFrom
  split <;> rfl

theorem startModule_wf {s : State} (h : Memory.wf s.mem = true) : Memory.wf (startModule s).mem = true := by
  rw [startModule, bootFrom_mem]
  exact cleared_wf h

theorem failStart_wf {s : State} (reason : BitVec 8) (h : Memory.wf s.mem = true) : Memory.wf (failStart s reason).mem = true := by
  rw [failStart, bootFrom_mem]
  exact cleared_wf h

theorem bootAdvance_wf {s : State} (h : Memory.wf s.mem = true) : Memory.wf (bootAdvance s).mem = true := by
  unfold bootAdvance
  split
  · split
    · exact failStart_wf _ h
    · exact h
  · exact h
  · exact failStart_wf _ h
  · exact h
  · exact h

theorem bootTick_wf {s : State} (h : Memory.wf s.mem = true) : Memory.wf (bootTick s).mem = true := by
  unfold bootTick
  split
  · exact failStart_wf _ h
  · split
    · split
      · exact bootAdvance_wf h
      · exact h
    · exact h

theorem execModuleReset_memWf {s : State} (h : Memory.wf s.mem = true) : NextMemWf (execModuleReset s) := startModule_wf h

theorem execRestart_memWf (value : BitVec 16) {s : State} (h : Memory.wf s.mem = true) : NextMemWf (execRestart value s) := by
  unfold execRestart
  split
  · exact startModule_wf h
  · exact h

theorem execStartTimeout_memWf {s : State} (h : Memory.wf s.mem = true) : NextMemWf (execStartTimeout s) := by
  unfold execStartTimeout
  split
  · exact failStart_wf _ h
  · trivial

@[simp] theorem trained_mem (s : State) (r : ConfigRecord) : (trained s r).mem = s.mem := rfl

theorem execTrainingComplete_memWf (reason : BitVec 8) {s : State} (h : Memory.wf s.mem = true) : NextMemWf
    (execTrainingComplete reason s) := by
  unfold execTrainingComplete
  split
  · trivial
  · split
    · split
      · exact h
      · trivial
    · split
      · exact failStart_wf _ h
      · trivial

theorem execThermalTrip_memWf {s : State} (h : Memory.wf s.mem = true) : NextMemWf (execThermalTrip s) := by
  have h1 : Memory.wf { s with
    bootReason := 0x0C, skipCheck := false, temp := if s.temp.toNat < 110 then 110 else s.temp }.mem = true := h
  exact cleared_wf h1

theorem execPowerLimit_memWf (reached : Bool) {s : State} (h : Memory.wf s.mem = true) : NextMemWf (execPowerLimit reached s) := h

theorem execFlashctlWrite_memWf (value : Word) {s : State} (h : Memory.wf s.mem = true) : NextMemWf (execFlashctlWrite value s) := h

theorem execFlashWindowWrite_memWf (off : Nat) (value : Word) {s : State} (h : Memory.wf s.mem = true) : NextMemWf
    (execFlashWindowWrite off value s) := by
  unfold execFlashWindowWrite
  split <;> simp [h]

theorem execFlashWriteComplete_memWf (off : Nat) {s : State} (h : Memory.wf s.mem = true) : NextMemWf (execFlashWriteComplete off s) := by
  unfold execFlashWriteComplete
  split
  · trivial
  · rename_i e _
    have h1 : Memory.wf { s with flashBusy := s.flashBusy.erase e }.mem = true := h
    exact writeNat_wf _ _ _ h1

theorem execIrqstatWrite_memWf (value : DWord) {s : State} (h : Memory.wf s.mem = true) : NextMemWf (execIrqstatWrite value s) := h

theorem execErrlogWrite_memWf (value : Word) {s : State} (h : Memory.wf s.mem = true) : NextMemWf (execErrlogWrite value s) := h

theorem execUestatWrite_memWf (value : Word) {s : State} (h : Memory.wf s.mem = true) : NextMemWf (execUestatWrite value s) := h

theorem after_wf {s : State} {o : Host.Outcome State Fault Refusal} (ho : NextMemWf o) (h : Memory.wf s.mem = true) : Memory.wf
    (after s o).mem = true := by
  cases o with
  | next t => exact ho
  | fault _ => exact h
  | refused _ => exact h

theorem writeReg_wf {s : State} (reg : HostReg) (value : DWord) (h : Memory.wf s.mem = true) : Memory.wf (writeReg s reg value).mem =
    true := by
  unfold writeReg
  dsimp only
  split
  case h_3 | h_4 | h_5 => split <;> exact h
  case h_8 => exact after_wf (execRestart_memWf _ h) h
  case h_13 => exact after_wf (execQsizeWrite_memWf _ _ h) h
  case h_14 => exact after_wf (execQctlWrite_memWf _ _ h) h
  case h_15 => exact after_wf (execQtailWrite_memWf _ _ h) h
  case h_16 => exact after_wf (execTrbaseWrite_memWf _ _ h) h
  case h_18 =>
    split
    · exact after_wf (execTractSkip_memWf _ _ h) h
    · exact after_wf (execTractRetry_memWf _ _ h) h
    · exact after_wf (execTractKill_memWf _ _ h) h
    · exact h
  case h_19 => exact after_wf (execTrkill_memWf _ _ h) h
  case h_20 => exact after_wf (execFlashWindowWrite_memWf _ _ h) h
  all_goals exact h

theorem execRegisterWrite_memWf (reg : HostReg) (value : DWord) {s : State} (h : Memory.wf s.mem = true) : NextMemWf
    (execRegisterWrite reg value s) := by simp [execRegisterWrite, writeReg_wf, h]

@[simp] theorem readClears_mem (s : State) (reg : HostReg) : (readClears s reg).mem = s.mem := by
  unfold readClears
  split <;> rfl

@[simp] theorem hostRead_mem (s : State) (reg : HostReg) : (hostRead s reg).mem = s.mem := by simp [hostRead]

theorem execCecntRead_memWf {s : State} (h : Memory.wf s.mem = true) : NextMemWf (execCecntRead s) := h

theorem execQerrRead_memWf (q : Nat) {s : State} (h : Memory.wf s.mem = true) : NextMemWf (execQerrRead q s) := h

theorem execPortstatRead_memWf (port : Nat) {s : State} (h : Memory.wf s.mem = true) : NextMemWf (execPortstatRead port s) := by
  unfold execPortstatRead
  split
  · trivial
  · exact h

theorem execDlstatRead_memWf (link : Nat) {s : State} (h : Memory.wf s.mem = true) : NextMemWf (execDlstatRead link s) := by
  unfold execDlstatRead
  split
  · trivial
  · exact h

theorem execApertureAccess_memWf (write : Bool) (off size : Nat) (value : DWord) {s : State} (h : Memory.wf s.mem = true) : NextMemWf
    (execApertureAccess write off size value s) := by
  unfold execApertureAccess
  dsimp only
  split
  · trivial
  · split
    · split <;> exact h
    · split
      · split <;> exact h
      · have h1 (b : Bool) : Memory.wf (if b then s.logErr 0 else s).mem = true := by split <;> exact h
        split
        · exact extWrite_wf _ _ (h1 _)
        · split
          · exact h1 _
          · simpa using h1 _

end Sys2Proof.Machine
end

section
/-! Memory stays canonical: the functions of Machine/CrossLane. -/

namespace Sys2Proof.Machine

open Sys2Proof

theorem execShfl_memWf (f : Fld) {s : State} (h : Memory.wf s.mem = true) : NextMemWf (execShfl f s) := by
  refine issue_memWf h fun cx t ht => ?_
  simp [ht]

theorem execQswz_memWf (f : Fld) {s : State} (h : Memory.wf s.mem = true) : NextMemWf (execQswz f s) := by
  refine issue_memWf h fun cx t ht => ?_
  simp [ht]

theorem execQbc_memWf (f : Fld) {s : State} (h : Memory.wf s.mem = true) : NextMemWf (execQbc f s) := by
  refine issue_memWf h fun cx t ht => ?_
  simp [ht]

theorem execVreadl_memWf (f : Fld) {s : State} (h : Memory.wf s.mem = true) : NextMemWf (execVreadl f s) := by
  refine issue_memWf h fun cx t ht => ?_
  rw [Eff.memWf_done]
  split
  · exact ht
  · simpa using ht

theorem execVwritel_memWf (f : Fld) {s : State} (h : Memory.wf s.mem = true) : NextMemWf (execVwritel f s) := by
  refine issue_memWf h fun cx t ht => ?_
  simp [ht]

theorem execVred_memWf (f : Fld) {s : State} (h : Memory.wf s.mem = true) : NextMemWf (execVred f s) := by
  refine issue_memWf h fun cx t ht => ?_
  simp [ht]

theorem execVscan_memWf (f : Fld) {s : State} (h : Memory.wf s.mem = true) : NextMemWf (execVscan f s) := by
  refine issue_memWf h fun cx t ht => ?_
  simp [ht]

theorem execRand_memWf (f : Fld) {s : State} (h : Memory.wf s.mem = true) : NextMemWf (execRand f s) := by
  refine issue_memWf h fun cx t ht => ?_
  simp [ht]

end Sys2Proof.Machine
end

section
/-! Memory stays canonical: the functions of Machine/Fabric. -/

namespace Sys2Proof.Machine

open Sys2Proof

@[simp] theorem sendAck_mem (s : State) (p : Nat) (resend : Bool) : (sendAck s p resend).mem = s.mem := rfl

theorem receive_memWf (name : String) (type p : Nat) (flit : List Byte) {s : State} {serve : State → State}
    (hs : ∀ t, Memory.wf t.mem = true → Memory.wf (serve t).mem = true) (h : Memory.wf s.mem = true) : NextMemWf
    (receive name type p flit s serve) := by
  unfold receive
  dsimp only
  split
  · trivial
  · split
    · simpa using h
    · rw [nextMemWf_next, sendAck_mem]
      split
      · exact hs _ h
      · exact h

@[simp] theorem answer_mem (s : State) (p : Nat) (flit bs : List Byte) : (answer s p flit bs).mem = s.mem := rfl

theorem execFabricWrite_memWf (port : Nat) (flit : List Byte) {s : State} (h : Memory.wf s.mem = true) : NextMemWf
    (execFabricWrite port flit s) := by
  refine receive_memWf _ _ _ _ (fun t ht => ?_) h
  dsimp only
  split
  · exact extWrite_wf _ _ ht
  · simpa using ht

@[simp] theorem peerBytes_mem (s : State) (w : Who) (off n : Nat) : (peerBytes s w off n).2.mem = s.mem := by simp [peerBytes]

theorem peerAtomic_wf {s : State} (w : Who) (off n : Nat) (old : List Byte) (req : List Byte) (h : Memory.wf s.mem = true) : Memory.wf
    (peerAtomic s w off n old req).mem = true := by simp [peerAtomic, extWrite_wf, h]

theorem execFabricReadRequest_memWf (port : Nat) (flit : List Byte) {s : State} (h : Memory.wf s.mem = true) : NextMemWf
    (execFabricReadRequest port flit s) := by
  refine receive_memWf _ _ _ _ (fun t ht => ?_) h
  dsimp only
  split
  · rw [answer_mem]
    split
    · simpa using ht
    · exact peerAtomic_wf _ _ _ _ _ (by simpa using ht)
  · simpa using ht

@[simp] theorem strike_mem (s : State) (id cause : Nat) (aux : DWord) : (strike s id cause aux).mem = s.mem := by
  unfold strike
  dsimp only
  repeat' split
  all_goals simp

@[simp] theorem failReq_mem (s : State) (r : FarReq) (write : Bool) (cause : Nat) : (failReq s r write cause).mem = s.mem := by
  simp [failReq]

@[simp] theorem readArrives_mem (s : State) (tag : Nat) (data : List Byte) : (readArrives s tag data).mem = s.mem := by
  unfold readArrives
  dsimp only
  repeat' split
  all_goals simp

theorem execFabricReadData_memWf (port : Nat) (flit : List Byte) {s : State} (h : Memory.wf s.mem = true) : NextMemWf
    (execFabricReadData port flit s) := receive_memWf _ _ _ _ (fun t ht => by rwa [readArrives_mem]) h

@[simp] theorem dataArrives_mem (s : State) (comm rank seq : Nat) (key : List Nat) (off poison : Nat) (data : List Byte) :
    (dataArrives s comm rank seq key off poison data).mem = s.mem := by
  unfold dataArrives
  dsimp only
  repeat' split
  all_goals simp

theorem execFabricCollectiveData_memWf (port : Nat) (flit : List Byte) {s : State} (h : Memory.wf s.mem = true) : NextMemWf
    (execFabricCollectiveData port flit s) := by
  refine receive_memWf _ _ _ _ (fun t ht => ?_) h
  dsimp only
  split_ifs <;> simpa using ht

theorem execFabricAcknowledge_memWf (port : Nat) (flit : List Byte) {s : State} (h : Memory.wf s.mem = true) : NextMemWf
    (execFabricAcknowledge port flit s) := by
  unfold execFabricAcknowledge
  dsimp only
  split
  · trivial
  · split
    · simpa using h
    · exact h

@[simp] theorem linkResend_mem (s : State) (k : Nat) : (linkResend s k).mem = s.mem := rfl

theorem execReplayTimeout_memWf (port : Nat) {s : State} (h : Memory.wf s.mem = true) : NextMemWf (execReplayTimeout port s) := by
  unfold execReplayTimeout
  dsimp only
  split
  · split
    · simpa using h
    · trivial
  · split
    · trivial
    · exact h

theorem execLaneLockLoss_memWf (port : Nat) {s : State} (h : Memory.wf s.mem = true) : NextMemWf (execLaneLockLoss port s) := by
  unfold execLaneLockLoss
  dsimp only
  split
  · split
    · exact h
    · trivial
  · split
    · trivial
    · exact h

@[simp] theorem reroute_mem (s : State) (waits : Nat → Bool) (req : Option FarReq) (flit : List Byte) : (reroute s waits req flit).mem =
    s.mem := by
  unfold reroute
  repeat' split
  all_goals simp

@[simp] theorem failColl_mem (s : State) (port : Nat) (c : Collective) : (failColl s port c).mem = s.mem := by
  unfold failColl
  rw [recordFailed_mem]
  exact foldl_mem _ (fun s m => strike_mem _ _ _ _) _ _

@[simp] theorem portDown_mem (s : State) (port : Nat) : (portDown s port).mem = s.mem := by
  unfold portDown
  dsimp only
  rw [foldl_mem _ (fun s r => failReq_mem _ _ _ _)]
  rw [foldl_mem _ (fun s w => by split <;> rfl)]
  rw [foldl_mem _ (fun s f => reroute_mem _ _ _ _)]
  exact foldl_mem _ (fun s c => failColl_mem _ _ _) _ _

theorem execPortRetrainComplete_memWf (port : Nat) (ok : Bool) {s : State} (h : Memory.wf s.mem = true) : NextMemWf
    (execPortRetrainComplete port ok s) := by
  unfold execPortRetrainComplete
  dsimp only
  split_ifs
  · trivial
  · exact h
  · simpa using h
  · exact h

theorem execDieLinkRetrainComplete_memWf (link : Nat) (ok : Bool) {s : State} (h : Memory.wf s.mem = true) : NextMemWf
    (execDieLinkRetrainComplete link ok s) := by
  unfold execDieLinkRetrainComplete
  dsimp only
  split
  · trivial
  · split
    · exact h
    · split
      · exact h
      · refine foldl_wf (fun t q ht => ?_) _ (foldl_wf (fun t l ht => killLaunch_wf l ht) _ h)
        rwa [rejectPending_mem]

theorem execScrubPatrol_memWf (loc : Nat) {s : State} (h : Memory.wf s.mem = true) : NextMemWf (execScrubPatrol loc s) := by
  unfold execScrubPatrol
  dsimp only
  repeat' split
  all_goals simp [h]

@[simp] theorem poisonUnit_mem (s : State) (k : Nat) : (poisonUnit s k).mem = s.mem := by
  unfold poisonUnit
  split <;> rfl

@[simp] theorem poisonWord_mem (s : State) (k : Nat) : (poisonWord s k).mem = s.mem := by
  unfold poisonWord
  split <;> rfl

@[simp] theorem flawUnit_mem (s : State) (k : Nat) : (flawUnit s k).mem = s.mem := by
  unfold flawUnit
  split <;> rfl

@[simp] theorem flawWord_mem (s : State) (k : Nat) : (flawWord s k).mem = s.mem := by
  unfold flawWord
  split <;> rfl

theorem loseLine_wf {s : State} (h : Memory.wf s.mem = true) : Memory.wf (loseLine s).mem = true := by
  have h1 : Memory.wf { s with freeCtr := s.freeCtr + 130 }.mem = true := h
  exact writeBytes_wf _ h1

@[simp] theorem regError_mem (s : State) (core slot r lane : Nat) : (regError s core slot r lane).mem = s.mem := rfl

@[simp] theorem regFault_mem (s : State) (core slot r lane : Nat) : (regFault s core slot r lane).mem = s.mem := rfl

@[simp] theorem spoolError_mem (s : State) (wg r : Nat) (worse : Bool) : (spoolError s wg r worse).mem = s.mem := rfl

theorem execSoftError_memWf (err : SoftErr) {s : State} (h : Memory.wf s.mem = true) : NextMemWf (execSoftError err s) := by
  cases err with
  | l1 _ => exact h
  | tlb die =>
    unfold execSoftError
    dsimp only
    split <;> exact h
  | l2tag die dirty worse =>
    unfold execSoftError
    dsimp only
    split
    · simpa using h
    · split
      · exact h
      · exact loseLine_wf (foldl_wf (fun t l ht => killLaunch_wf l ht) _ (by simpa using h))
  | reg core slot r lane worse =>
    unfold execSoftError
    dsimp only
    split <;> exact h
  | spoolReg wg r worse => exact h
  | sramWord key worse =>
    unfold execSoftError
    dsimp only
    split_ifs <;> simpa using h
  | accWord core tile row worse =>
    unfold execSoftError
    dsimp only
    split <;> simpa using h
  | dramUnit key worse =>
    unfold execSoftError
    dsimp only
    split <;> simpa using h

end Sys2Proof.Machine
end

section
/-! Memory stays canonical: the functions of Machine/Float. -/

namespace Sys2Proof.Machine

open Sys2Proof

@[simp] theorem fResult_mem (s : State) (cx : Cx) (ty : Nat) (f : Nat → FR) : (fResult s cx ty f).mem = s.mem := by simp [fResult]

@[simp] theorem fVarResult_mem (s : State) (cx : Cx) (f : Nat → FR) : (fVarResult s cx f).mem = s.mem := by simp [fVarResult]

theorem fBin_memWf (op : Fmt → Nat → Nat → Nat → FR) (cx : Cx) {s : State} (h : Memory.wf s.mem = true) : (fBin op cx s).MemWf := by
  simp [fBin, h]

theorem fUnVar_memWf (op : Fmt → Nat → Nat → FR) (cx : Cx) {s : State} (h : Memory.wf s.mem = true) : (fUnVar op cx s).MemWf := by
  simp [fUnVar, h]

theorem execFadd_memWf (f : Fld) {s : State} (h : Memory.wf s.mem = true) : NextMemWf (execFadd f s) := by
  refine issue_memWf h fun cx t ht => ?_
  simp [ht, fBin_memWf]

theorem execFsub_memWf (f : Fld) {s : State} (h : Memory.wf s.mem = true) : NextMemWf (execFsub f s) := by
  refine issue_memWf h fun cx t ht => ?_
  simp [ht, fBin_memWf]

theorem execFmul_memWf (f : Fld) {s : State} (h : Memory.wf s.mem = true) : NextMemWf (execFmul f s) := by
  refine issue_memWf h fun cx t ht => ?_
  simp [ht, fBin_memWf]

theorem execFmin_memWf (f : Fld) {s : State} (h : Memory.wf s.mem = true) : NextMemWf (execFmin f s) := by
  refine issue_memWf h fun cx t ht => ?_
  simp [ht, fBin_memWf]

theorem execFmax_memWf (f : Fld) {s : State} (h : Memory.wf s.mem = true) : NextMemWf (execFmax f s) := by
  refine issue_memWf h fun cx t ht => ?_
  simp [ht, fBin_memWf]

theorem execFldexp_memWf (f : Fld) {s : State} (h : Memory.wf s.mem = true) : NextMemWf (execFldexp f s) := by
  refine issue_memWf h fun cx t ht => ?_
  simp [ht]

theorem execFfma_memWf (f : Fld) {s : State} (h : Memory.wf s.mem = true) : NextMemWf (execFfma f s) := by
  refine issue_memWf h fun cx t ht => ?_
  simp [ht]

theorem execFcmp_memWf (f : Fld) {s : State} (h : Memory.wf s.mem = true) : NextMemWf (execFcmp f s) := by
  refine issue_memWf h fun cx t ht => ?_
  simp [ht]

theorem execFrcp_memWf (f : Fld) {s : State} (h : Memory.wf s.mem = true) : NextMemWf (execFrcp f s) := by
  refine issue_memWf h fun cx t ht => ?_
  simp [ht, fUnVar_memWf]

theorem execFrsq_memWf (f : Fld) {s : State} (h : Memory.wf s.mem = true) : NextMemWf (execFrsq f s) := by
  refine issue_memWf h fun cx t ht => ?_
  simp [ht, fUnVar_memWf]

theorem execFsqrt_memWf (f : Fld) {s : State} (h : Memory.wf s.mem = true) : NextMemWf (execFsqrt f s) := by
  refine issue_memWf h fun cx t ht => ?_
  simp [ht, fUnVar_memWf]

theorem execFdiv_memWf (f : Fld) {s : State} (h : Memory.wf s.mem = true) : NextMemWf (execFdiv f s) := by
  refine issue_memWf h fun cx t ht => ?_
  simp [ht]

theorem execFexp2_memWf (f : Fld) {s : State} (h : Memory.wf s.mem = true) : NextMemWf (execFexp2 f s) := by
  refine issue_memWf h fun cx t ht => ?_
  simp [ht, fUnVar_memWf]

theorem execFlog2_memWf (f : Fld) {s : State} (h : Memory.wf s.mem = true) : NextMemWf (execFlog2 f s) := by
  refine issue_memWf h fun cx t ht => ?_
  simp [ht, fUnVar_memWf]

theorem execFsin_memWf (f : Fld) {s : State} (h : Memory.wf s.mem = true) : NextMemWf (execFsin f s) := by
  refine issue_memWf h fun cx t ht => ?_
  simp [ht, fUnVar_memWf]

theorem execFcos_memWf (f : Fld) {s : State} (h : Memory.wf s.mem = true) : NextMemWf (execFcos f s) := by
  refine issue_memWf h fun cx t ht => ?_
  simp [ht, fUnVar_memWf]

theorem execFrnd_memWf (f : Fld) {s : State} (h : Memory.wf s.mem = true) : NextMemWf (execFrnd f s) := by
  refine issue_memWf h fun cx t ht => ?_
  simp [ht]

theorem execFclass_memWf (f : Fld) {s : State} (h : Memory.wf s.mem = true) : NextMemWf (execFclass f s) := by
  refine issue_memWf h fun cx t ht => ?_
  simp [ht]

theorem execCvt_memWf (f : Fld) {s : State} (h : Memory.wf s.mem = true) : NextMemWf (execCvt f s) := by
  refine issue_memWf h fun cx t ht => ?_
  simp [ht]

theorem execCvtkb_memWf (f : Fld) {s : State} (h : Memory.wf s.mem = true) : NextMemWf (execCvtkb f s) := by
  refine issue_memWf h fun cx t ht => ?_
  simp [ht]

theorem execUnpkb_memWf (f : Fld) {s : State} (h : Memory.wf s.mem = true) : NextMemWf (execUnpkb f s) := by
  refine issue_memWf h fun cx t ht => ?_
  simp [ht]

theorem execPack2_memWf (f : Fld) {s : State} (h : Memory.wf s.mem = true) : NextMemWf (execPack2 f s) := by
  refine issue_memWf h fun cx t ht => ?_
  simp [ht]

theorem execUnpk2_memWf (f : Fld) {s : State} (h : Memory.wf s.mem = true) : NextMemWf (execUnpk2 f s) := by
  refine issue_memWf h fun cx t ht => ?_
  simp [ht]

end Sys2Proof.Machine
end

section
/-! Memory stays canonical: instructions and events, cycles, acts, and the step. -/

namespace Sys2Proof.Machine

open Sys2Proof

/-- Every instruction and every event keeps the canonical form, by the lemma about the function that gives it its meaning. -/
theorem exec_memWf (i : Instr) {s : State} (h : Memory.wf s.mem = true) : NextMemWf (exec i s) :=
  match i with
  | .nop f => execNop_memWf f h
  | .yield f => execYield_memWf f h
  | .exit f => execExit_memWf f h
  | .ret f => execRet_memWf f h
  | .join f => execJoin_memWf f h
  | .joinT f => execJoinT_memWf f h
  | .joinTimerExpiry ag => execJoinTimerExpiry_memWf ag h
  | .trap f => execTrap_memWf f h
  | .sys f => execSys_memWf f h
  | .sysComplete id => execSysComplete_memWf id h
  | .sysServiceNone id => execSysServiceNone_memWf id h
  | .sysServiceLog id => execSysServiceLog_memWf id h
  | .sysServiceRaiseVector id => execSysServiceRaiseVector_memWf id h
  | .sysServiceHostWrite id => execSysServiceHostWrite_memWf id h
  | .bra f => execBra_memWf f h
  | .brpAll f => execBrpAll_memWf f h
  | .brpAny f => execBrpAny_memWf f h
  | .brpNone f => execBrpNone_memWf f h
  | .brv f => execBrv_memWf f h
  | .brx f => execBrx_memWf f h
  | .call f => execCall_memWf f h
  | .callx f => execCallx_memWf f h
  | .sadd f => execSadd_memWf f h
  | .ssub f => execSsub_memWf f h
  | .smin f => execSmin_memWf f h
  | .smax f => execSmax_memWf f h
  | .sand f => execSand_memWf f h
  | .sor f => execSor_memWf f h
  | .sxor f => execSxor_memWf f h
  | .snot f => execSnot_memWf f h
  | .sshl f => execSshl_memWf f h
  | .sshr f => execSshr_memWf f h
  | .sclz f => execSclz_memWf f h
  | .spop f => execSpop_memWf f h
  | .smul f => execSmul_memWf f h
  | .smulh f => execSmulh_memWf f h
  | .smad f => execSmad_memWf f h
  | .sdiv f => execSdiv_memWf f h
  | .srem f => execSrem_memWf f h
  | .scmp f => execScmp_memWf f h
  | .ssel f => execSsel_memWf f h
  | .smov f => execSmov_memWf f h
  | .sli f => execSli_memWf f h
  | .sbfe f => execSbfe_memWf f h
  | .sbfi f => execSbfi_memWf f h
  | .getsr f => execGetsr_memWf f h
  | .getsrVector f => execGetsrVector_memWf f h
  | .setsr f => execSetsr_memWf f h
  | .vadd f => execVadd_memWf f h
  | .vsub f => execVsub_memWf f h
  | .vmin f => execVmin_memWf f h
  | .vmax f => execVmax_memWf f h
  | .vand f => execVand_memWf f h
  | .vor f => execVor_memWf f h
  | .vxor f => execVxor_memWf f h
  | .vnot f => execVnot_memWf f h
  | .vshl f => execVshl_memWf f h
  | .vshr f => execVshr_memWf f h
  | .vabs f => execVabs_memWf f h
  | .vclz f => execVclz_memWf f h
  | .vpop f => execVpop_memWf f h
  | .vbrev f => execVbrev_memWf f h
  | .vmul f => execVmul_memWf f h
  | .vmulh f => execVmulh_memWf f h
  | .vmad f => execVmad_memWf f h
  | .vdiv f => execVdiv_memWf f h
  | .vrem f => execVrem_memWf f h
  | .vcmp f => execVcmp_memWf f h
  | .vsel f => execVsel_memWf f h
  | .vmov f => execVmov_memWf f h
  | .vli f => execVli_memWf f h
  | .vbfe f => execVbfe_memWf f h
  | .vbfi f => execVbfi_memWf f h
  | .vbrevFld f => execVbrevFld_memWf f h
  | .fadd f => execFadd_memWf f h
  | .fsub f => execFsub_memWf f h
  | .fmul f => execFmul_memWf f h
  | .fmin f => execFmin_memWf f h
  | .fmax f => execFmax_memWf f h
  | .fldexp f => execFldexp_memWf f h
  | .ffma f => execFfma_memWf f h
  | .fcmp f => execFcmp_memWf f h
  | .frcp f => execFrcp_memWf f h
  | .frsq f => execFrsq_memWf f h
  | .fsqrt f => execFsqrt_memWf f h
  | .fdiv f => execFdiv_memWf f h
  | .fexp2 f => execFexp2_memWf f h
  | .flog2 f => execFlog2_memWf f h
  | .fsin f => execFsin_memWf f h
  | .fcos f => execFcos_memWf f h
  | .frnd f => execFrnd_memWf f h
  | .fclass f => execFclass_memWf f h
  | .cvt f => execCvt_memWf f h
  | .cvtkb f => execCvtkb_memWf f h
  | .unpkb f => execUnpkb_memWf f h
  | .pack2 f => execPack2_memWf f h
  | .unpk2 f => execUnpk2_memWf f h
  | .pand f => execPand_memWf f h
  | .por f => execPor_memWf f h
  | .pxor f => execPxor_memWf f h
  | .pnot f => execPnot_memWf f h
  | .voteAll f => execVoteAll_memWf f h
  | .voteAny f => execVoteAny_memWf f h
  | .voteBallot f => execVoteBallot_memWf f h
  | .shfl f => execShfl_memWf f h
  | .vred f => execVred_memWf f h
  | .vscan f => execVscan_memWf f h
  | .qswz f => execQswz_memWf f h
  | .qbc f => execQbc_memWf f h
  | .vreadl f => execVreadl_memWf f h
  | .vwritel f => execVwritel_memWf f h
  | .rand f => execRand_memWf f h
  | .tiset f => execTiset_memWf f h
  | .tiopLd f => execTiopLd_memWf f h
  | .tiopSt f => execTiopSt_memWf f h
  | .tiopAdv f => execTiopAdv_memWf f h
  | .tiget f => execTiget_memWf f h
  | .spill f => execSpill_memWf f h
  | .fill f => execFill_memWf f h
  | .ld f => execLd_memWf f h
  | .st f => execSt_memWf f h
  | .lds f => execLds_memWf f h
  | .sts f => execSts_memWf f h
  | .atom f => execAtom_memWf f h
  | .atomOrd f => execAtomOrd_memWf f h
  | .orderedPassage lnch site => execOrderedPassage_memWf lnch site h
  | .lcopy f => execLcopy_memWf f h
  | .lcopyComplete id => execLcopyComplete_memWf id h
  | .waitf f => execWaitf_memWf f h
  | .waitfReturn ag => execWaitfReturn_memWf ag h
  | .fence f => execFence_memWf f h
  | .promote f => execPromote_memWf f h
  | .bari f => execBari_memWf f h
  | .bara f => execBara_memWf f h
  | .barw f => execBarw_memWf f h
  | .barwReturn ag => execBarwReturn_memWf ag h
  | .bart f => execBart_memWf f h
  | .qpop f => execQpop_memWf f h
  | .qpopTry f => execQpopTry_memWf f h
  | .qpopServe ag => execQpopServe_memWf ag h
  | .qpush f => execQpush_memWf f h
  | .obres f => execObres_memWf f h
  | .obrel f => execObrel_memWf f h
  | .mloopNew f => execMloopNew_memWf f h
  | .mloopAcc f => execMloopAcc_memWf f h
  | .sequencerCommandStart core => execSequencerCommandStart_memWf core h
  | .mloopReadArrival core => execMloopReadArrival_memWf core h
  | .mloopComplete core => execMloopComplete_memWf core h
  | .mpub f => execMpub_memWf f h
  | .headTileTake core => execHeadTileTake_memWf core h
  | .spreq f => execSpreq_memWf f h
  | .sprecv f => execSprecv_memWf f h
  | .sprecvTry f => execSprecvTry_memWf f h
  | .sprecvReceive ag => execSprecvReceive_memWf ag h
  | .tcopy f => execTcopy_memWf f h
  | .tcopyComplete id => execTcopyComplete_memWf id h
  | .coll f => execColl_memWf f h
  | .collComplete id => execCollComplete_memWf id h
  | .rcvt f => execRcvt_memWf f h
  | .boxt f => execBoxt_memWf f h
  | .fdin f => execFdin_memWf f h
  | .trit f => execTrit_memWf f h
  | .rhit f => execRhit_memWf f h
  | .rtrace f => execRtrace_memWf f h
  | .rtraceComplete id => execRtraceComplete_memWf id h
  | .nswap f => execNswap_memWf f h
  | .gdrain f => execGdrain_memWf f h
  | .gdrainReturn ag => execGdrainReturn_memWf ag h
  | .drawv f => execDrawv_memWf f h
  | .drawvPassComplete id => execDrawvPassComplete_memWf id h
  | .slbegin f => execSlbegin_memWf f h
  | .slend f => execSlend_memWf f h
  | .slnext f => execSlnext_memWf f h
  | .slnextWaitEnd ag => execSlnextWaitEnd_memWf ag h
  | .stadv f => execStadv_memWf f h
  | .stjmp f => execStjmp_memWf f h
  | .waitl f => execWaitl_memWf f h
  | .waitlReturn ag => execWaitlReturn_memWf ag h
  | .launch f => execLaunch_memWf f h
  | .launchTry f => execLaunchTry_memWf f h
  | .launchPoolWaitEnd ag => execLaunchPoolWaitEnd_memWf ag h
  | .tstat f => execTstat_memWf f h
  | .clauseStart ag => execClauseStart_memWf ag h
  | .issueHoldRelease ag => execIssueHoldRelease_memWf ag h
  | .variableLatencyComplete id => execVariableLatencyComplete_memWf id h
  | .pageWalkComplete die lnch va => execPageWalkComplete_memWf die lnch va h
  | .engineFault id => execEngineFault_memWf id h
  | .tractSkip q serial => execTractSkip_memWf q serial h
  | .tractRetry q serial => execTractRetry_memWf q serial h
  | .tractKill q serial => execTractKill_memWf q serial h
  | .trkill q lid => execTrkill_memWf q lid h
  | .trheadWrite q value => execTrheadWrite_memWf q value h
  | .trbaseWrite q value => execTrbaseWrite_memWf q value h
  | .workgroupDispatch lnch core => execWorkgroupDispatch_memWf lnch core h
  | .workgroupRetire wg => execWorkgroupRetire_memWf wg h
  | .scoreboardBitReceive lnch die wgix => execScoreboardBitReceive_memWf lnch die wgix h
  | .graphNodeStart graph node => execGraphNodeStart_memWf graph node h
  | .graphReplayStart graph => execGraphReplayStart_memWf graph h
  | .groupSwapStart core => execGroupSwapStart_memWf core h
  | .groupSwapEnd core => execGroupSwapEnd_memWf core h
  | .bridleEvaluate slice => execBridleEvaluate_memWf slice h
  | .contextSave save => execContextSave_memWf save h
  | .lateCompletionApply id => execLateCompletionApply_memWf id h
  | .workgroupRestore save record => execWorkgroupRestore_memWf save record h
  | .qtailWrite q value => execQtailWrite_memWf q value h
  | .qctlWrite q value => execQctlWrite_memWf q value h
  | .qsizeWrite q value => execQsizeWrite_memWf q value h
  | .qerrRead q => execQerrRead_memWf q h
  | .queueNop q => execQueueNop_memWf q h
  | .launchCommand q => execLaunchCommand_memWf q h
  | .graphCommand q => execGraphCommand_memWf q h
  | .waitv q => execWaitv_memWf q h
  | .waitvSatisfied q => execWaitvSatisfied_memWf q h
  | .frame q => execFrame_memWf q h
  | .frameEncodeComplete id => execFrameEncodeComplete_memWf id h
  | .inval q => execInval_memWf q h
  | .invalComplete id => execInvalComplete_memWf id h
  | .preempt q => execPreempt_memWf q h
  | .resume q => execResume_memWf q h
  | .comm q => execComm_memWf q h
  | .bridle q => execBridle_memWf q h
  | .region q => execRegion_memWf q h
  | .commandComplete id => execCommandComplete_memWf id h
  | .restart value => execRestart_memWf value h
  | .irqstatWrite value => execIrqstatWrite_memWf value h
  | .errlogWrite value => execErrlogWrite_memWf value h
  | .flashctlWrite value => execFlashctlWrite_memWf value h
  | .flashWindowWrite off value => execFlashWindowWrite_memWf off value h
  | .apertureAccess write off size value => execApertureAccess_memWf write off size value h
  | .cecntRead => execCecntRead_memWf h
  | .uestatWrite value => execUestatWrite_memWf value h
  | .portstatRead port => execPortstatRead_memWf port h
  | .dlstatRead link => execDlstatRead_memWf link h
  | .registerWrite reg value => execRegisterWrite_memWf reg value h
  | .moduleReset => execModuleReset_memWf h
  | .startTimeout => execStartTimeout_memWf h
  | .thermalTrip => execThermalTrip_memWf h
  | .powerLimit reached => execPowerLimit_memWf reached h
  | .fabricWrite port flit => execFabricWrite_memWf port flit h
  | .fabricReadRequest port flit => execFabricReadRequest_memWf port flit h
  | .fabricReadData port flit => execFabricReadData_memWf port flit h
  | .fabricCollectiveData port flit => execFabricCollectiveData_memWf port flit h
  | .fabricAcknowledge port flit => execFabricAcknowledge_memWf port flit h
  | .replayTimeout port => execReplayTimeout_memWf port h
  | .laneLockLoss port => execLaneLockLoss_memWf port h
  | .portRetrainComplete port ok => execPortRetrainComplete_memWf port ok h
  | .dieLinkRetrainComplete link ok => execDieLinkRetrainComplete_memWf link ok h
  | .scrubPatrol loc => execScrubPatrol_memWf loc h
  | .softError err => execSoftError_memWf err h
  | .trainingComplete reason => execTrainingComplete_memWf reason h
  | .flashWriteComplete off => execFlashWriteComplete_memWf off h

theorem tick_wf {s : State} (h : Memory.wf s.mem = true) : Memory.wf (tick s).mem = true := by
  have hflush {t u : State} (ht : Memory.wf t.mem = true) (hu : u.mem = t.mem) : Memory.wf (flushAll u).mem = true :=
    flushAll_wf (by rwa [hu])
  have hreap {t : State} (ht : Memory.wf t.mem = true) :
      Memory.wf (t.launches.foldl (fun (s : State) l => reap s l.1) t).mem = true :=
    foldl_wf (fun _ l hs => reap_wf l.1 hs) _ ht
  unfold tick
  refine foldl_wf (fun t w ht => ?_) _ ?_
  · rwa [settleTurn_mem]
  · refine bootTick_wf ?_
    rw [cutGrids_mem, closeLoops_mem]
    exact hreap (hflush (by rwa [expireAll_mem]) rfl)

theorem ordered_memWf {s : State} {note : State → State} {o : Host.Outcome State Fault Refusal}
    (hn : ∀ t, Memory.wf t.mem = true → Memory.wf (note t).mem = true) (ho : NextMemWf o) : NextMemWf (ordered s note o) := by
  cases o with
  | next t =>
    unfold ordered
    dsimp only
    split
    · exact hn t ho
    · trivial
  | fault _ => trivial
  | refused _ => trivial

theorem issueNow_memWf {s : State} (ag : Agent) (i : Instr) (h : Memory.wf s.mem = true) : NextMemWf (issueNow s ag i) := by
  have h1 : Memory.wf { s with cur := ag }.mem = true := h
  exact ordered_memWf (fun t ht => by rwa [noteAct_mem]) (exec_memWf i h1)

theorem issueWithin_memWf (ag : Agent) (n : Nat) {s : State} (h : Memory.wf s.mem = true) : NextMemWf (issueWithin ag n s) := by
  induction n generalizing s with
  | zero =>
    unfold issueWithin
    split
    · exact issueNow_memWf _ _ h
    · trivial
  | succ n ih =>
    unfold issueWithin
    split
    · exact issueNow_memWf _ _ h
    · split
      · exact ih (tick_wf h)
      · trivial

@[simp] theorem noteEvent_mem (s : State) (e : Instr) (t : State) : (noteEvent s e t).mem = t.mem := by
  unfold noteEvent
  split
  · split <;> simp
  · split <;> simp
  · split <;> simp
  · rfl

theorem runAct_memWf {s : State} (a : Act) (h : Memory.wf s.mem = true) : NextMemWf (runAct s a) := by
  cases a with
  | tick =>
    unfold runAct
    dsimp only
    split
    · exact tick_wf h
    · trivial
  | issue c sl k => exact issueWithin_memWf _ _ h
  | spool w => exact issueWithin_memWf _ _ h
  | event i =>
    unfold runAct
    dsimp only
    split
    · exact ordered_memWf (fun t ht => by rwa [noteEvent_mem]) (exec_memWf i h)
    · trivial

theorem firstAct_memWf {s : State} (as : List Act) (h : Memory.wf s.mem = true) : NextMemWf (firstAct s as) := by
  induction as with
  | nil => exact tick_wf h
  | cons a as ih =>
    have h1 := runAct_memWf a h
    unfold firstAct
    split
    · rename_i hr
      rwa [hr] at h1
    · exact ih

theorem step_memWf {s : State} (h : Memory.wf s.mem = true) : NextMemWf (step s) := by
  unfold step stepOnce
  split
  · rename_i a rest _
    have h1 : Memory.wf { s with agenda := rest }.mem = true := h
    exact runAct_memWf a h1
  · exact firstAct_memWf _ h

/-- Settles O53: no function that the step is made of leaves the canonical form of the memory. -/
theorem memoryStaysCanonical : Obligations.MemoryStaysCanonical := by
  unfold Obligations.MemoryStaysCanonical
  intro s t h hs
  have h1 := step_memWf h
  rwa [hs] at h1

end Sys2Proof.Machine
end

section
/-! Barriers and the mailbox of the spool processor (R235 to R238, R263, R264). -/

namespace Sys2Proof.Machine

open Sys2Proof

/-! ### The return of a wait -/

/-- A wait returns only where its condition holds, and of the instruction that the event names. -/
theorem returnable_met {ag : Agent} {mine : Instr → Bool} {s : State} {cx : Cx} {s1 : State} (h : returnable ag mine s = some (cx, s1)) :
    mine cx.i = true ∧ waitMet s1 cx = true := by
  unfold returnable at h
  split at h
  · split at h
    · cases h
    · split at h
      · cases h
      · rename_i hm
        obtain ⟨-, hi, -⟩ := mkCx_row hm
        simp only [Option.ite_none_right_eq_some, Bool.and_eq_true, Option.some.injEq, Prod.mk.injEq] at h
        obtain ⟨⟨⟨⟨⟨⟨hmine, -⟩, -⟩, hmet⟩, -⟩, -⟩, rfl, rfl⟩ := h
        exact ⟨hi ▸ hmine, hmet⟩
  · cases h

/-! ### Barrier registers -/

/-- Arrivals taken off one expected count at a time leave the remainder, and one flip for each (R236). -/
theorem barFlip_eq (b : Bar) {n : Nat} (h0 : 0 < b.exp) (hn : b.arr ≤ n) :
    barFlip n b = { ph := b.ph ^^ decide (b.arr / b.exp % 2 = 1), arr := b.arr % b.exp, exp := b.exp } := by
  induction n generalizing b with
  | zero =>
    obtain ⟨ph, arr, exp⟩ := b
    obtain rfl : arr = 0 := by simpa using hn
    simp [barFlip]
  | succ n ih =>
    unfold barFlip
    split
    · rename_i h
      have hd : b.arr / b.exp = (b.arr - b.exp) / b.exp + 1 := by rw [← Nat.sub_add_cancel h.1, Nat.add_div_right _ h0]; simp
      rw [ih { b with arr := b.arr - b.exp, ph := !b.ph } h0 (by simp only; omega)]
      simp only [Bar.mk.injEq, and_true]
      refine ⟨?_, (Nat.mod_eq_sub_mod h.1).symm⟩
      rw [hd]
      generalize (b.arr - b.exp) / b.exp = q
      rcases Nat.mod_two_eq_zero_or_one q with hq | hq <;> cases b.ph <;> simp [hq, Nat.add_mod]
    · rename_i h
      have hlt : b.arr < b.exp := by omega
      simp [Nat.div_eq_of_lt hlt, Nat.mod_eq_of_lt hlt]

theorem Bar.expect_eq (b : Bar) {x : Nat} (hx : 0 < x) :
    b.expect x = { ph := b.ph ^^ decide (b.arr / x % 2 = 1), arr := b.arr % x, exp := x } := barFlip_eq { b with exp := x } hx le_rfl

theorem Bar.arrive_eq (b : Bar) (c : Nat) (h0 : 0 < b.exp) :
    b.arrive c = { ph := b.ph ^^ decide ((b.arr + c) / b.exp % 2 = 1), arr := (b.arr + c) % b.exp, exp := b.exp } :=
  barFlip_eq { b with arr := b.arr + c } h0 le_rfl

theorem post_wg (s : State) (c : Chan) (x : Clk) (w : Nat) : (s.post c x).wg? w = s.wg? w := by
  unfold State.post
  split <;> rfl

/-- What a completed phase lets be acquired changes no workgroup. -/
theorem phaseEnds_wg (s : State) (flips : Bool) (w n : Nat) (past : Clk) :
    (if flips then (s.post (.bar w n) past).setChan (.barNow w n) [] else s).wg? w = s.wg? w := by
  split
  · exact post_wg _ _ _ _
  · rfl

theorem expectAt_wg (s : State) (w n x : Nat) :
    (s.expectAt w n x).wg? w = (s.wg? w).map fun y => { y with bars := Tab.put y.bars n ((y.bar n).expect x) } :=
  (phaseEnds_wg _ _ w n _).trans (State.modWg_wg_self _ _ _)

theorem arriveAt_wg (s : State) (w n c : Nat) (past : Clk) : (s.arriveAt w n c past).wg? w = (s.wg? w).map (·.arrive n c) := by
  rw [← post_wg s (.barNow w n) past, ← State.modWg_wg_self]
  exact phaseEnds_wg _ _ w n _

/-! ### The instructions on barriers -/

theorem barwEff_of_met {cx : Cx} {s : State} (h : waitMet s cx = true) : barwEff cx s = .done (s.hear cx.me (.bar cx.wid cx.bn)) :=
  if_pos h

theorem waitMet_barw {cx : Cx} (hi : cx.i = .barw cx.f) (s : State) :
    waitMet s cx = true ↔ (cx.w.bar cx.bn).ph ≠ decide (cx.b32 0 % 2 = 1) := by
  simp [waitMet, hi, bit, Cx.bn]

/-- A count that BARI and BARA take. -/
theorem barCount_iff {n : Nat} : ¬ (n = 0 ∨ 4095 < n) ↔ 1 ≤ n ∧ n ≤ 4095 := by omega

/-! ### The mailbox -/

theorem sprecvEff_of_cons {cx : Cx} {x : Word} {xs : List Word} (h : cx.w.mbox = x :: xs) (s : State) :
    sprecvEff cx s = .done (addFix (takeMail s cx) cx [.s cx.f.d.toNat x]) := by
  unfold sprecvEff
  rw [h]

theorem sprecvEff_of_nil {cx : Cx} (h : cx.w.mbox = []) (s : State) : sprecvEff cx s = .wait s := by
  unfold sprecvEff
  rw [h]

/-! ### The obligation -/

/-- Settles O24: the count decides BARI and BARA, the phase BARW, the word at the head of the mailbox SPRECV; the flips of a barrier
register are counted by division. -/
theorem barrierAndMailboxResults : Obligations.BarrierAndMailboxResults := by
  intro f
  refine ⟨⟨?bari, ?expect, ?bariTrap, ?bara, ?arrive, ?baraTrap, ?barw, ?barwWait, ?barwReturn, ?bart⟩,
    ⟨?spreq, ?spreqNone, ?sprecv, ?sprecvWait, ?sprecvReceive, ?tryTakes, ?tryNone⟩⟩
  case bari => exact Does.of_effect (fun _ => rfl) rfl fun cx s _ _ _ h => if_neg (barCount_iff.2 h)
  case expect =>
    intro s w n x hx
    rw [expectAt_wg]
    exact congrArg (Option.map · _) (funext fun y => by rw [Bar.expect_eq _ hx]; rfl)
  case bariTrap =>
    exact Traps.of_effect (fun _ => rfl) rfl (fun cx s _ _ _ h => if_pos (not_not.1 (mt barCount_iff.1 h))) (fun _ _ => rfl) fun _ _ => rfl
  case bara => exact Does.of_effect (fun _ => rfl) rfl fun cx s _ _ _ h => if_neg (barCount_iff.2 h)
  case arrive =>
    intro s w n c past hexp
    rw [arriveAt_wg]
    refine Option.map_congr fun y hy => ?_
    exact congrArg (fun b => { y with bars := Tab.put y.bars n b }) (Bar.arrive_eq (y.bar n) c (hexp y hy))
  case baraTrap =>
    exact Traps.of_effect (fun _ => rfl) rfl (fun cx s _ _ _ h => if_pos (not_not.1 (mt barCount_iff.1 h))) (fun _ _ => rfl) fun _ _ => rfl
  case barw => exact Does.of_effect (fun _ => rfl) rfl fun cx s hf _ hi h => if_pos ((waitMet_barw (by rw [hi, hf]) s).2 h)
  case barwWait =>
    exact Waits.of_effect (fun _ => rfl) rfl fun cx s hf _ hi h => if_neg fun hm => (waitMet_barw (by rw [hi, hf]) s).1 hm h
  case barwReturn => exact fun s ag cx s1 h => resume_done h (barwEff_of_met (returnable_met h).2)
  case bart => exact Does.of_effect (fun _ => rfl) rfl fun _ _ _ _ _ _ => rfl
  case spreq =>
    refine Does.of_effect (fun _ => rfl) rfl fun cx s _ _ _ ⟨p, hp, hrun⟩ => ?_
    have hr : cx.w.spool.any (·.run) = true := by simp [hp, hrun]
    rw [if_pos hr]
    rfl
  case spreqNone =>
    refine Does.of_effect (fun _ => rfl) rfl fun cx s _ _ _ h => ?_
    have hr : ¬ cx.w.spool.any (·.run) = true := by
      rw [Option.any_eq_true]
      rintro ⟨p, hp, hrun⟩
      simp [h p hp] at hrun
    rw [if_neg hr]
    rfl
  case sprecv => exact fun s cx s1 x xs h hm => issue_done h (sprecvEff_of_cons hm s1)
  case sprecvWait => exact Waits.of_effect (fun _ => rfl) rfl fun cx s _ _ _ h => sprecvEff_of_nil h s
  case sprecvReceive => exact fun s ag cx s1 x xs h hm => resume_done h (sprecvEff_of_cons hm s1)
  case tryTakes => exact fun s cx s1 x xs h hm => issue_done h (by simp only [hm]; rfl)
  case tryNone => exact Does.of_effect (fun _ => rfl) rfl fun cx s _ _ _ h => by simp only [h]

end Sys2Proof.Machine
end

section
/-! Device launch: records enqueued at a task node, and what TSTAT reads (R322 to R324). -/

namespace Sys2Proof.Machine

open Sys2Proof

/-- One record enters the queue for each lane that launches, and takes one slot of the pool (R322). -/
theorem launchLanes_eq (s : State) (cx : Cx) (gid n : Nat) (x : Node) (ls : List Nat) :
    launchLanes s cx gid n x ls =
      ({ releaseBy s cx with graphs := Tab.modify s.graphs gid fun y => { y with nodes := y.nodes.modify (cx.b32 0) fun z =>
          { z with queue := enqueue cx.l.det z.queue (ls.map (launchRec cx (s.relClk cx.me) n x.rw)), used := z.used + ls.length } } } :
        State).modGroup cx.gk fun g => { g with launches := Tab.put g.launches (cx.b32 0) (Tab.get 0 g.launches (cx.b32 0) + 1) } := by
  simp only [launchLanes, List.length_map]

section
variable {cx : Cx} {s : State} {gid n : Nat} {x : Node}

theorem launchEff_noLane (h : launchTarget s cx = some (gid, n, x)) (hl : lanesIn cx.actNH = []) : launchEff cx s = .done s := by
  simp [launchEff, h, hl]

theorem launchEff_room (h : launchTarget s cx = some (gid, n, x)) (hl : lanesIn cx.actNH ≠ [])
    (hr : (lanesIn cx.actNH).length ≤ x.cap - x.used) :
    launchEff cx s = .done (launchLanes s cx gid n x (lanesIn cx.actNH)) := by
  simp [launchEff, h, hl, hr]

/-- A pool without room holds fewer records than there are lanes, so there is a lane. -/
theorem launchEff_full (h : launchTarget s cx = some (gid, n, x)) (hr : x.cap - x.used < (lanesIn cx.actNH).length) :
    launchEff cx s = if cx.l.det = true then .trap cx.graphTrap else .wait s := by
  have hl : lanesIn cx.actNH ≠ [] := List.ne_nil_of_length_pos (Nat.zero_lt_of_lt hr)
  simp [launchEff, h, hl, Nat.not_le.2 hr]

theorem launchEff_noTarget (h : launchTarget s cx = none) : launchEff cx s = .trap cx.graphTrap := by
  simp [launchEff, h]

end

/-- Settles O33: the target decides whether LAUNCH traps, the room in its pool how many records enter its queue. -/
theorem deviceLaunchResults : Obligations.DeviceLaunchResults := by
  intro f
  refine ⟨?launch, ?launchTrap, ?launchReturn, ?launchTry, ?tryTrap, ?tstat⟩
  case launch =>
    intro s cx s1 gid n x h ht
    refine ⟨fun hl => issue_done h (launchEff_noLane ht hl), fun hl hr => ?_, fun hr hd => ?_, fun hr hd => ?_⟩
    · exact issue_done h ((launchEff_room ht hl hr).trans (congrArg Eff.done (launchLanes_eq ..)))
    · exact issue_wait h ((launchEff_full ht hr).trans (if_neg (by simp [hd])))
    · exact issue_trap h ((launchEff_full ht hr).trans (if_pos hd)) rfl rfl
  case launchTrap => exact Traps.of_effect (fun _ => rfl) rfl (fun cx s _ _ _ h => launchEff_noTarget h) (fun _ _ => rfl) fun _ _ => rfl
  case launchReturn =>
    intro s ag cx s1 gid n x h _ ht hl hr
    exact resume_done h ((launchEff_room ht hl hr).trans (congrArg Eff.done (launchLanes_eq ..)))
  case launchTry =>
    intro s cx s1 gid n x h ht
    obtain ⟨-, hrow, -⟩ := issuable_row (i := .launchTry f) rfl h
    have hlat : latOf cx = 2 := by rw [latOf, hrow]
    refine issue_done h ?_
    simp only [ht, List.isEmpty_iff, addFix_eq_fixAfter hlat, launchLanes_eq]
    rfl
  case tryTrap =>
    exact Traps.of_effect (fun _ => rfl) rfl (fun cx s _ _ _ h => by simp only [h]; rfl) (fun _ _ => rfl) fun _ _ => rfl
  case tstat =>
    intro s cx s1 gid g n y x h hn hx
    obtain ⟨-, hrow, -⟩ := issuable_row (i := .tstat f) rfl h
    have hlat : latOf cx = 2 := by rw [latOf, hrow]
    refine ⟨fun ht => issue_done h ?_, fun ht => issue_trap h (by simp only [hn, hx, ht]; rfl) rfl rfl⟩
    simp only [hn, hx, ht, addFix_eq_fixAfter hlat]
    rfl

end Sys2Proof.Machine
end

section
/-! Lane copies, counters and fences (R230 to R233). -/

namespace Sys2Proof.Machine

open Sys2Proof

/-! ### Operations by their number, and bytes that lie here -/

theorem op?_some_id {s : State} {id : Nat} {o : Op} (h : s.op? id = some o) : o.id = id := by
  simpa using List.find?_some h

theorem farHits_eq_nil {hs : List Hit} (h : ∀ x ∈ hs, keyCode x.key ≠ 3) (got : Tab Byte) : farHits got hs = [] := by
  simp only [farHits, List.filter_eq_nil_iff, Bool.and_eq_true, beq_iff_eq, not_and]
  exact fun x hx hc => absurd hc (h x hx)

/-- An operation that asks no peer module for a byte does its work. -/
theorem withFar_of_none {name : String} {s : State} {o : Op} {ns : Bool} {hs : List Hit} {go : State → Host.Outcome State Fault Refusal}
    (h : farHits o.got hs = []) : withFar name s o ns hs go = go s := by
  simp [withFar, h]

/-! ### Lane copies -/

theorem lcSrc_eq (cx : Cx) (l : Nat) : cx.lcSrc l = baseAddr cx (bit cx.f.mn.toNat 0) 0 l := (baseAddr_zero cx _ l).symm

/-- A lane copy with nothing left to do completes once peer modules have accepted its writes (R231, R373). -/
theorem endEngine_lcopy {s : State} {o : Op} {lanes : List (Nat × DWord × DWord × Nat × Nat)} (hk : o.k = .lcopy lanes)
    (hu : unackedOp (s.release (partyOp o.id)) o.id = false) : endEngine s o = completeOp (s.release (partyOp o.id)) o := by
  have ht : travHb (s.release (partyOp o.id)) o = s.release (partyOp o.id) := by simp only [travHb, hk]
  simp [endEngine, ht, hu]

/-! ### Counters and fences -/

theorem waitfEff_of_met {cx : Cx} {s : State} (h : waitMet s cx = true) :
    waitfEff cx s = .done (s.hear cx.me (.cnt cx.wid cx.g.grp (cx.f.d.toNat % 8))) := if_pos h

theorem waitMet_waitf {cx : Cx} (hi : cx.i = .waitf cx.f) (s : State) :
    waitMet s cx = true ↔ cx.g.cnt (cx.f.d.toNat % 8) ≤ min (cx.b32 0) 255 := by
  simp [waitMet, hi]

theorem fence_acq {cx : Cx} (hi : cx.i = .fence cx.f) : cx.who.acq = true ↔ cx.f.c.toNat % 8 = 2 ∨ cx.f.c.toNat % 8 = 4 := by
  simp [Cx.who, hi, ordOf]

theorem fence_ar {cx : Cx} (hi : cx.i = .fence cx.f) : cx.who.ar = true ↔ cx.f.c.toNat % 8 = 4 := by
  simp [Cx.who, hi, ordOf]

theorem cx_rel_iff {cx : Cx} : cx.rel = true ↔ cx.f.c.toNat % 8 = 3 ∨ cx.f.c.toNat % 8 = 4 := by
  simp [Cx.rel, Cx.ord]

/-! ### The obligation -/

/-- Settles O20: the addresses resolve or not, as LCOPY starts and as its copy is made; the counter decides WAITF, and ORD
which of a fence's parts are made. -/
theorem laneCopyAndFenceResults : Obligations.LaneCopyAndFenceResults := by
  intro f
  refine ⟨⟨?start, ?complete, ?stop⟩, ?waitf, ?waitfWait, ?waitfReturn, ?acquire, ?release, ?both⟩
  case start =>
    intro s cx s1 a b s2 h lanes hres
    have hlanes : ((lanesIn cx.actNH).map fun l => (l, cx.lcSrc l, cx.lcDst l, cx.lcN l, cx.lcLen)) = lanes :=
      List.map_congr_left fun l _ => by rw [lcSrc_eq]; rfl
    refine ⟨fun hne => issue_done h ?_, fun he => issue_done h ?_⟩
    · simp only [hlanes, hres, List.isEmpty_iff, if_neg hne]
    · rw [he] at hlanes hres
      simp only [hlanes, hres, List.isEmpty_nil, if_true]
  case complete =>
    intro s id o lanes a b s1 ho hk hf hd hres hfar s2 hun
    obtain rfl := op?_some_id ho
    have hnear : farHits o.got (a.flatMap (·.2)) = [] := farHits_eq_nil hfar o.got
    have hend := endEngine_lcopy (s := lcMove s1 (engWho s o) a b) hk hun
    simp only [exec, execLcopyComplete, ho, hk, hf, hd, hres, withFar_of_none hnear, hend, s2]
  case stop =>
    intro s id o lanes m ho hk hf hd hres
    refine ⟨{ opTrap o m.cause m.aux with walk := m.page.map fun p => ((engWho s o).die, p) }, rfl, rfl, rfl, ?_⟩
    simp only [exec, execLcopyComplete, ho, hk, hf, hd, hres]
  case waitf =>
    exact Does.of_effect (fun _ => rfl) rfl fun cx s hf _ hi h => waitfEff_of_met ((waitMet_waitf (by rw [hi, hf]) s).2 h)
  case waitfWait =>
    exact Waits.of_effect (fun _ => rfl) rfl fun cx s hf _ hi h => if_neg fun hm => h ((waitMet_waitf (by rw [hi, hf]) s).1 hm)
  case waitfReturn => exact fun s ag cx s1 h => resume_done h (waitfEff_of_met (returnable_met h).2)
  case acquire =>
    refine Does.of_effect (fun _ => rfl) rfl fun cx s hf _ hi h => ?_
    have hi' : cx.i = .fence cx.f := by rw [hi, hf]
    simp [fence_acq hi', fence_ar hi', cx_rel_iff, h]
  case release =>
    refine Does.of_effect (fun _ => rfl) rfl fun cx s hf _ hi h => ?_
    have hi' : cx.i = .fence cx.f := by rw [hi, hf]
    simp [fence_acq hi', fence_ar hi', cx_rel_iff, h]
  case both =>
    refine Does.of_effect (fun _ => rfl) rfl fun cx s hf _ hi h => ?_
    have hi' : cx.i = .fence cx.f := by rw [hi, hf]
    simp [fence_acq hi', fence_ar hi', cx_rel_iff, h]

end Sys2Proof.Machine
end

section
/-! The events of outstanding operations: completion, page walks, deferred faults (R137, R401, R402). -/

namespace Sys2Proof.Machine

open Sys2Proof

/-- An operation of a workgroup that is not saved completes here and now (R137). -/
theorem completeOp_of_here {s : State} {o : Op} (h : opSaved s o = false) : completeOp s o = completeHere s o := by
  simp [completeOp, h]

section
variable {s : State} {id : Nat} {o : Op} {t : Trap}

/-- A deferred fault of an operation that is not the device's own: it ends in a killed launch, else waits for its agent (R395, R402). -/
theorem exec_engineFault (ho : s.op? id = some o) (hf : o.fault = some t) (hr : o.raised = false) (hd : o.done = false)
    (hk : ∀ d, o.k ≠ .device d) :
    exec (.engineFault id) s =
      if (s.launch? o.lnch).any (·.killed) = true then .next (skipOp s o)
      else if (opSaved s o || !mayTrap s o.ag) = true then notNow "ENGINE_FAULT"
      else .next (raise (s.modOp id fun x => { x with raised := true }) o.ag t) := by
  simp only [exec, execEngineFault, ho, hf, hr, hd, Bool.or_self, Bool.false_eq_true, if_false]
  split
  · rename_i h; exact absurd h (hk _)
  · rename_i h; exact absurd h (hk _)
  · rfl

/-- A fault of one of the device's own writes is never a trap (R404). -/
theorem exec_engineFault_device {d : DevK} (ho : s.op? id = some o) (hf : o.fault = some t) (hr : o.raised = false)
    (hd : o.done = false) (hk : o.k = .device d) (hn : ∀ x, d ≠ .read x) : exec (.engineFault id) s = .next (devFails s o d t) := by
  simp only [exec, execEngineFault, ho, hf, hr, hd, hk, Bool.or_self, Bool.false_eq_true, if_false]

end

/-- Settles O35: the operation's kind, its token and arrival, and the state of its launch decide each event. -/
theorem operationEvents : Obligations.OperationEvents := by
  refine ⟨?complete, ?lands, ?walk, ?device, ?fault⟩
  case complete =>
    intro s id o ho hd hf hs hk hu hw
    have hwaits : o.waits.any (fun p => (s.op? p).isSome) = false := by
      cases h : o.waits with
      | none => rfl
      | some p => simp [hw p h]
    rcases hk with hk | hk <;> simp [exec, execVariableLatencyComplete, ho, hd, hf, hs, hk, hu, hwaits]
  case lands =>
    intro s o c sl k x hag hg hs
    rw [completeOp_of_here hs]
    cases htok : o.tok <;> cases hbar : o.bar <;> simp only [completeHere, completeHb, hag, htok, hbar, hg] <;> rfl
  case walk =>
    intro s die lnch va l e loc hl hdie hva htlb hleaf
    simp [exec, execPageWalkComplete, hl, Nat.not_le.2 hdie, Nat.not_lt.2 hva, htlb, hleaf]
  case device => exact fun s id o t d ho hf hr hd hk hn => exec_engineFault_device ho hf hr hd hk hn
  case fault =>
    intro s id o t ho hf hr hd hs hk
    rw [exec_engineFault ho hf hr hd hk]
    refine ⟨fun hlive hmay => ?_, fun l hl hkill => ?_⟩
    · have hrun : (s.launch? o.lnch).any (·.killed) = false := by
        cases h : s.launch? o.lnch with
        | none => rfl
        | some l => exact hlive l h
      simp [hrun, hs, hmay]
    · simp [hl, hkill]

end Sys2Proof.Machine
end

section
/-! The tensor iterators: records, and the operations that advance them (R206 to R210). -/

namespace Sys2Proof.Machine

open Sys2Proof

/-! ### Starting an operation -/

theorem setHb_nextId (s : State) (me : Nat) (a : AgHb) : (s.setHb me a).nextId = s.nextId := by
  unfold State.setHb
  split <;> rfl

theorem startHb_nextId (s : State) (cx : Cx) : (startHb s cx).nextId = s.nextId := (setHb_nextId ..).trans (setHb_nextId ..)

theorem startOp_nextId (s : State) (cx : Cx) (k : OpK) (ws : List Wr) (fl : BitVec 5) (bar : Option Nat) :
    (startOp s cx k ws fl bar).nextId = s.nextId + 1 := by
  rw [← startHb_nextId s cx]
  unfold startOp
  cases cx.onSpool <;> rfl

theorem startLater_lastId (s : State) (cx : Cx) (k : OpK) (refs : List Ref) : lastId (startLater s cx k refs) = s.nextId := by
  simp [lastId, startLater, startOp_nextId]

/-! ### The operation of a TIOP -/

/-- The TIOP that an instruction of a mode starts: 0 loads, 1 stores, 2 advances (R208). -/
def tiopStart (mode : Nat) (cx : Cx) : Tiop :=
  { mode := mode, ty := cx.ty, reg := cx.f.d.toNat, n := cx.b32 0, hnd := cx.f.a.toNat % 4
    act := if mode = 1 then cx.actNH else cx.act
    ofs := lanesOf fun l => if cx.f.c = 384 then 0 else BitVec.ofNat 32 (cx.c32 l)
    data := if mode = 1 then (List.range (cx.b32 0 * regsOf cx.ty)).map fun k => lanesOf fun l => cx.g.rv (cx.f.d.toNat + k) l else [] }

/-- The state in which a TIOP has started its operation and made no access. -/
def tiopStarted (mode : Nat) (cx : Cx) (s : State) : State :=
  startLater (s.modGroup cx.gk (·.dropTiset (cx.f.a.toNat % 4))) cx (.tiop (tiopStart mode cx))
    (if mode = 0 then vRefs cx.f.d.toNat (cx.b32 0 * regsOf cx.ty) else [])

/-- Whether the count of a TIOP lies in 1 to 32, its registers lie in the group's, and a load's offsets lie outside those (R208). -/
def TiopFits (mode : Nat) (cx : Cx) : Prop :=
  1 ≤ cx.b32 0 ∧ cx.b32 0 ≤ 32 ∧ (mode = 2 ∨ cx.f.d.toNat + cx.b32 0 * regsOf cx.ty ≤ cx.l.k.regs) ∧
  ¬ (mode = 0 ∧ cx.f.c.toNat < 256 ∧ cx.f.d.toNat ≤ cx.f.c.toNat ∧ cx.f.c.toNat < cx.f.d.toNat + cx.b32 0 * regsOf cx.ty)

section
variable {mode : Nat} {cx : Cx} {s s3 : State} {o : Op}

theorem tiopFits_iff : TiopFits mode cx ↔ ¬ (cx.b32 0 = 0 ∨ 32 < cx.b32 0 ∨
    (mode ≠ 2 ∧ cx.l.k.regs < cx.f.d.toNat + cx.b32 0 * regsOf cx.ty) ∨
    (mode == 0 && cx.f.c.toNat < 256 && cx.f.d.toNat ≤ cx.f.c.toNat &&
      cx.f.c.toNat < cx.f.d.toNat + cx.b32 0 * regsOf cx.ty) = true) := by
  simp only [TiopFits, Bool.and_eq_true, beq_iff_eq, decide_eq_true_eq]
  omega

theorem tiopEff_noLane (ha : cx.act = 0) : tiopEff mode cx s = .done (completeNow (startOp s cx .reg [])) := if_pos ha

theorem tiopEff_misfit (ha : cx.act ≠ 0) (hn : ¬ TiopFits mode cx) :
    tiopEff mode cx s = .trap (cx.trap 0x0007 (BitVec.ofNat 64 (cx.f.a.toNat % 4))) :=
  (if_neg ha).trans (if_pos (not_not.1 (mt tiopFits_iff.2 hn)))

/-- A TIOP that fits starts its operation, and makes its accesses at once (R208). -/
theorem tiopEff_fits (ha : cx.act ≠ 0) (hf : TiopFits mode cx) (ho : (tiopStarted mode cx s).op? s.nextId = some o) :
    tiopEff mode cx s = match tiRun (tiopStarted mode cx s) o (tiopStart mode cx) cx.gk with
      | .ok s2 => .done (tiAsk (opFollows s2 o) o.id cx.l.ctx.ns)
      | .stop s2 _ => .done (opFollows s2 o) := by
  have hlast : lastId (tiopStarted mode cx s) = s.nextId := startLater_lastId ..
  have hop : (tiopStarted mode cx s).op? (lastId (tiopStarted mode cx s)) = some o := hlast ▸ ho
  refine ((if_neg ha).trans (if_neg (tiopFits_iff.1 hf))).trans ?_
  change (match (tiopStarted mode cx s).op? (lastId (tiopStarted mode cx s)) with
    | none => Eff.done (tiopStarted mode cx s)
    | some o => match tiRun (tiopStarted mode cx s) o (tiopStart mode cx) cx.gk with
      | .ok s2 => .done (tiAsk (opFollows s2 o) o.id cx.l.ctx.ns)
      | .stop s2 _ => .done (opFollows s2 o)) = _
  rw [hop]

end

/-- The three TIOP forms share one effect, by their mode. -/
theorem exec_tiop {f : Fld} {e : Nat × Instr} (he : e ∈ [(0, Instr.tiopLd f), (1, .tiopSt f), (2, .tiopAdv f)]) (s : State) :
    exec e.2 s = issue e.2 s (tiopEff e.1) := by
  simp only [List.mem_cons, List.not_mem_nil, or_false] at he
  rcases he with rfl | rfl | rfl <;> rfl

/-- What is issuable its role admits (R386). -/
theorem issuable_roleAdmits {i : Instr} {s : State} {cx : Cx} {s1 : State} (h : issuable i s = some (cx, s1)) :
    roleAdmits cx = true := by
  have hu := (issuable_mkCx h).2
  simp only [unstopped, Bool.and_eq_true] at hu
  exact hu.1.1.1.2

/-! ### The obligation -/

/-- Settles O23: TISET goes by its counters, a TIOP by its lanes, its count and what its accesses come to. -/
theorem tensorIteratorResults : Obligations.TensorIteratorResults := by
  intro f
  refine ⟨?tiset, ?tisetNone, ?tisetTrap, ?tiget, ?tiop, ?completes⟩
  case tiset =>
    refine Does.of_effect (fun _ => rfl) rfl fun cx s _ hr _ ⟨ha, hok⟩ => (if_neg ha).trans ((if_neg (by rw [hok]; decide)).trans ?_)
    have hlat : latOf cx = 4 := by rw [latOf, hr]
    rw [addFixTi, hlat]
  case tisetNone => exact Does.of_effect (fun _ => rfl) rfl fun cx s _ _ _ h => if_pos h
  case tisetTrap =>
    exact Traps.of_effect (fun _ => rfl) rfl (fun cx s _ _ _ ⟨ha, hok⟩ => (if_neg ha).trans (if_pos (by rw [hok]; rfl)))
      (fun _ _ => rfl) fun _ _ => rfl
  case tiget => exact Does.of_effect (fun _ => rfl) rfl fun _ _ _ _ _ _ => rfl
  case tiop =>
    intro e he s cx s1 h
    refine ⟨fun _ => issuable_roleAdmits h, fun ha => ?_, fun ha hn => ?_, fun o s3 ha hf ho hrun => ?_, fun o s3 m ha hf ho hrun => ?_⟩
    · exact (exec_tiop he s).trans (issue_done h (tiopEff_noLane ha))
    · exact (exec_tiop he s).trans (issue_trap h (tiopEff_misfit ha hn) rfl rfl)
    · have hrun' : tiRun (tiopStarted e.1 cx s1) o (tiopStart e.1 cx) cx.gk = .ok s3 := hrun
      exact (exec_tiop he s).trans (issue_done h ((tiopEff_fits ha hf ho).trans (by rw [hrun'])))
    · have hrun' : tiRun (tiopStarted e.1 cx s1) o (tiopStart e.1 cx) cx.gk = .stop s3 m := hrun
      exact (exec_tiop he s).trans (issue_done h ((tiopEff_fits ha hf ho).trans (by rw [hrun'])))
  case completes =>
    intro s id o x key s1 o1 ho hd hf hs hk hag hu hfar hrun ho1 hfar1 hu1
    simp only [exec, execVariableLatencyComplete, ho, hd, hf, hs, hk, tiopComplete, hag, hu, withFar, hfar, hrun, ho1, tiopEnd, hfar1, hu1]
    rfl

end Sys2Proof.Machine
end

section
/-! Changing a scene, and the passes of the raster unit (R291 to R300). -/

namespace Sys2Proof.Machine

open Sys2Proof

/-! ### Paths of one access -/

theorem badPath_of_path0 {a : DWord} (h : pathOf a = 0) : badPath [0] [a] = none := by
  simp [badPath, h]

theorem badPath_of_other {a : DWord} (h : pathOf a ∈ [1, 8, 9, 12, 14]) :
    badPath [0] [a] = some { cause := 0x41, aux := a, page := none } := by
  have ha : assigned (pathOf a) = true := decide_eq_true (List.mem_cons_of_mem 0 h)
  have h0 : pathOf a ≠ 0 := fun h0 => absurd (h0 ▸ h) (by decide)
  simp [badPath, ha, h0]

/-! ### GDRAIN -/

/-- Whether an operation is a traversal or a pass whose generation precedes another (R118). -/
def OpK.precedesGen (k : OpK) (g : Word) : Bool := match k with
  | .rtrace _ _ _ _ gen => precedes gen g
  | .drawv _ gen => precedes gen g
  | _ => false

theorem precedesGen_eq_false {k : OpK} {g : Word} : k.precedesGen g = false ↔
    ∀ gen, ((∃ d rays base fl, k = .rtrace d rays base fl gen) ∨ ∃ a, k = .drawv a gen) → precedes gen g = false := by
  cases k with
  | rtrace d rays base fl gen =>
    exact ⟨fun h _ hk => by simp only [OpK.rtrace.injEq, reduceCtorEq, exists_false, or_false] at hk
                            obtain ⟨_, _, _, _, _, _, _, _, rfl⟩ := hk
                            exact h, fun h => h gen (.inl ⟨_, _, _, _, rfl⟩)⟩
  | drawv a gen =>
    exact ⟨fun h _ hk => by simp only [OpK.drawv.injEq, reduceCtorEq, exists_false, false_or] at hk
                            obtain ⟨_, _, rfl⟩ := hk
                            exact h, fun h => h gen (.inr ⟨_, rfl⟩)⟩
  | _ => simp [OpK.precedesGen]

/-- GDRAIN waits for the traversals and passes of its slice of earlier generations, and for nothing else (R292). -/
theorem waitMet_gdrain {cx : Cx} {f : Fld} (hi : cx.i = .gdrain f) (s : State) :
    waitMet s cx = true ↔ ∀ o ∈ s.ops, o.done = false →
      (∃ l, s.launch? o.lnch = some l ∧ l.ctx.slice = cx.l.ctx.slice) → ∀ gen,
      ((∃ d rays base fl, o.k = .rtrace d rays base fl gen) ∨ ∃ a, o.k = .drawv a gen) →
      precedes gen (BitVec.ofNat 32 (cx.b32 0)) = false := by
  have hw : waitMet s cx = !(s.ops.any fun o => !o.done && ((s.launch? o.lnch).any fun l => l.ctx.slice == cx.l.ctx.slice) &&
      o.k.precedesGen (BitVec.ofNat 32 (cx.b32 0))) := by
    simp only [waitMet, hi]
    rfl
  simp only [hw, Bool.not_eq_true', List.any_eq_false, Bool.and_eq_true, Option.any_eq_true, beq_iff_eq, not_and, Bool.not_eq_true,
    precedesGen_eq_false, and_imp]

theorem gdrainEff_of_met {cx : Cx} {s : State} (h : waitMet s cx = true) :
    gdrainEff cx s = .done (((s.hb.chans.map (·.1)).filter fun c => match c with
      | .trav sl gen => sl == cx.l.ctx.slice && precedes (BitVec.ofNat 32 gen) (BitVec.ofNat 32 (cx.b32 0))
      | _ => false).foldl (fun (s : State) c => s.hear cx.me c) s) :=
  (if_pos h).trans rfl

/-! ### Passes -/

theorem unackedOp_post (s : State) (c : Chan) (x : Clk) (id : Nat) : unackedOp (s.post c x) id = unackedOp s id := by
  unfold State.post
  split <;> rfl

/-- A pass that ends lands its status and completes, and its traversals go to the GDRAINs and to the end of its launch (R300). -/
theorem endPass_eq {s : State} {o : Op} {a : DWord} {gen : Word} (hk : o.k = .drawv a gen) (d status : Nat)
    (hu : unackedOp s o.id = false) :
    let s1 := ({ s with passes := s.passes.filter fun p => p.op != o.id } : State).release (partyOp o.id)
    let past := s1.relClk (opMe o.id)
    endPass s o d status = completeOp ((s1.post (.trav ((s1.launch? o.lnch).elim 0 (·.ctx.slice)) gen.toNat) past).post (.ended o.lnch) past)
      { o with wrs := [.s d (BitVec.ofNat 32 status)] } := by
  intro s1 past
  have ht : travHb s1 { o with wrs := [.s d (BitVec.ofNat 32 status)] } =
      (s1.post (.trav ((s1.launch? o.lnch).elim 0 (·.ctx.slice)) gen.toNat) past).post (.ended o.lnch) past := by
    simp only [travHb, hk, past]
  have hun : unackedOp (travHb s1 { o with wrs := [.s d (BitVec.ofNat 32 status)] }) o.id = false := by
    rw [ht, unackedOp_post, unackedOp_post]
    exact hu
  exact (if_neg (by rw [hun]; decide)).trans (by rw [ht])

section
variable {s : State} {id : Nat} {o : Op} {p : Pass} {a : DWord} {gen : Word}

/-- What the next event of a running pass does (R293, R295, R297). -/
theorem exec_drawvPass (ho : s.op? id = some o) (hp : s.passes.find? (fun p => p.op == id) = some p) (hk : o.k = .drawv a gen)
    (hf : o.fault = none) (hd : o.done = false) (ht : o.tags = []) (hs : p.stopped = false) :
    exec (.drawvPassComplete id) s =
      if !p.view.isEmpty then match passDie s o p with
        | none => notNow "DRAWV_PASS_COMPLETE"
        | some die => .next (servePass s o p p.view die)
      else if 1 < pathOf a ∨ a.toNat % 128 ≠ 0 then .next (endPass s o o.statusReg 1)
      else match readView s (passWho s o 0) a with
        | .error e => .next (stopPass s o 0 e)
        | .ok (ws, s1) =>
          if viewOk ws then .next (s1.modPass id fun q => { q with view := ws, dies := diesOf (viewWidth ws) (viewHeight ws) })
          else .next (endPass s1 o o.statusReg 1) := by
  simp only [exec, execDrawvPassComplete, ho, hp, hk, hf, hd, ht, hs]
  rfl

theorem viewAddr_iff : (1 < pathOf a ∨ a.toNat % 128 ≠ 0) ↔ ¬ (pathOf a ≤ 1 ∧ a.toNat % 128 = 0) := by omega

/-- A die serves the samples of its tiles that it has not done, then the pass goes on to the next die or ends (R296, R297, R300, R404). -/
theorem servePass_eq (s : State) (o : Op) (p : Pass) (ws : List Word) (die : Nat) :
    let sh := s.hear (opMe o.id) (.pass o.wg o.grp die)
    let pos := Tab.get 0 p.pos die
    let r := ((dieSamples ws die).drop pos).foldl (fun r x => passSample (passWho sh o die) ws x.1 x.2.1 x.2.2 r)
      { s := sh, status := p.status.toNat, pos := pos }
    let served := r.s.post (.pass o.wg o.grp die) (r.s.relClk (opMe o.id))
    servePass s o p ws die = match r.stop with
      | some e =>
        stopPass (r.s.modPass o.id fun q => { q with pos := Tab.put q.pos die r.pos, status := BitVec.ofNat 32 r.status }) o die e
      | none =>
        if (p.dies.filter (· != die)).isEmpty then endPass served o o.statusReg r.status
        else (served.bump (opMe o.id)).modPass o.id fun q =>
          { q with dies := p.dies.filter (· != die), status := BitVec.ofNat 32 r.status } := rfl

end

theorem otherDies_isEmpty_iff {dies : List Nat} {die : Nat} : (dies.filter (· != die)).isEmpty = true ↔ ∀ d ∈ dies, d = die := by
  simp [List.filter_eq_nil_iff]

/-- Settles O30: NSWAP goes by its path and its bytes, GDRAIN by the traversals that run, and a pass by its view record, its dies and what
stops a sample. -/
theorem sceneAndRasterResults : Obligations.SceneAndRasterResults := by
  intro f
  refine ⟨⟨?nswap, ?nswapTrap, ?gdrain, ?gdrainWait, ?gdrainReturn⟩, ?drawv, ?pass⟩
  case nswap =>
    intro s cx s1 hs s2 h a hpath hres
    simp only [a] at hpath hres
    refine issue_done h ?_
    simp only [badPath_of_path0 hpath, hres]
    rfl
  case nswapTrap =>
    intro s cx s1 h hpath
    refine ⟨cx.mtrap { cause := 0x41, aux := cx.g.rs2 cx.f.a.toNat, page := none }, rfl, rfl, rfl, issue_trap h ?_ rfl rfl⟩
    simp only [badPath_of_other hpath]
  case gdrain => exact Does.of_effect (fun _ => rfl) rfl fun cx s _ _ hi h => gdrainEff_of_met ((waitMet_gdrain hi s).2 h)
  case gdrainWait => exact Waits.of_effect (fun _ => rfl) rfl fun cx s _ _ hi h => if_neg fun hm => h ((waitMet_gdrain hi s).1 hm)
  case gdrainReturn => exact fun s ag cx s1 h _ => resume_done h (gdrainEff_of_met (returnable_met h).2)
  case drawv => exact Does.of_effect (fun _ => rfl) rfl fun _ _ _ _ _ _ => rfl
  case pass =>
    intro s id o p a gen ho hp hk hf hd ht hs sound
    obtain rfl := op?_some_id ho
    have hexec := exec_drawvPass ho hp hk hf hd ht hs
    refine ⟨fun hv hbad => ?bad, fun ws s1 hv hok hread hw => ?broken, fun ws s1 hv hok hread hw => ?reads,
      fun m hv hok hread => ?faults, fun hs hv hok hread => ?asks, fun die hv hdie => ?serve, fun t st hu => endPass_eq hk _ _ hu⟩
    case bad => rw [hexec, hv]; exact (if_neg (by decide)).trans (if_pos (viewAddr_iff.2 hbad))
    case broken =>
      rw [hexec, hv, hread]
      exact (if_neg (by decide)).trans ((if_neg (mt viewAddr_iff.1 (not_not.2 hok))).trans (if_neg (by rw [hw]; decide)))
    case reads =>
      rw [hexec, hv, hread]
      exact (if_neg (by decide)).trans ((if_neg (mt viewAddr_iff.1 (not_not.2 hok))).trans (if_pos hw))
    case faults =>
      refine ⟨{ opTrap o m.cause m.aux with walk := m.page.map fun x => (0, x) }, rfl, rfl, rfl, ?_⟩
      rw [hexec, hv, hread]
      exact (if_neg (by decide)).trans (if_neg (mt viewAddr_iff.1 (not_not.2 hok)))
    case asks =>
      rw [hexec, hv, hread]
      exact (if_neg (by decide)).trans (if_neg (mt viewAddr_iff.1 (not_not.2 hok)))
    case serve =>
      intro sh pos r kept served
      have hview : p.view.isEmpty = false := by simpa using hv
      have hserve : exec (.drawvPassComplete o.id) s = .next (servePass s o p p.view die) := by rw [hexec, hview, hdie]; rfl
      rw [hserve, servePass_eq]
      refine ⟨fun hstop hall => ?_, fun hstop ⟨d, hmem, hne⟩ => ?_, fun m hstop => ?_, fun hs hstop => ?_⟩
      · simp only [r, sh, pos] at hstop
        simp only [hstop, otherDies_isEmpty_iff.2 hall, if_true]
        rfl
      · simp only [r, sh, pos] at hstop
        have hrest : (p.dies.filter (· != die)).isEmpty ≠ true := fun he => hne (otherDies_isEmpty_iff.1 he d hmem)
        simp only [hstop, if_neg hrest]
        rfl
      · refine ⟨{ opTrap o m.cause m.aux with walk := m.page.map fun x => (die, x) }, rfl, rfl, rfl, ?_⟩
        simp only [r, sh, pos] at hstop
        simp only [hstop]
        rfl
      · simp only [r, sh, pos] at hstop
        simp only [hstop]
        rfl

end Sys2Proof.Machine
end

section
/-! What a memory access and the start of an operation may move (R53, R55, R57): neither groups nor workgroups, nor the rest of the
machine. -/

namespace Sys2Proof.Machine

open Sys2Proof

/-! ### The part of a state that accesses move -/

/-- A state with everything that an access or a started operation may move as it is in another. -/
def accessAs (s t : State) : State :=
  { t with
    ops := s.ops, nextId := s.nextId, mem := s.mem, hist := s.hist, histLen := s.histLen, tlbs := s.tlbs, tags := s.tags
    regions := s.regions, freeCtr := s.freeCtr, poison := s.poison, flaws := s.flaws, l2flaws := s.l2flaws, ceCnt := s.ceCnt
    errLog := s.errLog, ports := s.ports, hb := s.hb, l2poison := s.l2poison }

/-- Nothing else differs between two states. -/
def AccessOnly (s t : State) : Prop := accessAs s t = s

namespace AccessOnly

variable {s t u : State}

theorem refl (s : State) : AccessOnly s s := rfl

theorem trans (h : AccessOnly s t) (k : AccessOnly t u) : AccessOnly s u :=
  calc accessAs s u = accessAs s (accessAs t u) := rfl
    _ = accessAs s t := by rw [k]
    _ = s := h

theorem groups (h : AccessOnly s t) : t.groups = s.groups := (congrArg State.groups (id h : accessAs s t = s) :)
theorem wgs (h : AccessOnly s t) : t.wgs = s.wgs := (congrArg State.wgs (id h : accessAs s t = s) :)

/-- A chain of steps, each of which moves only that part of the state that it carries, moves only that. -/
theorem foldl_of {α β : Type} (p : β → State) {f : β → α → β} (hf : ∀ b x, AccessOnly (p b) (p (f b x))) (xs : List α) (b : β) :
    AccessOnly (p b) (p (xs.foldl f b)) := by
  induction xs generalizing b with
  | nil => exact refl _
  | cons x xs ih => exact (hf b x).trans (ih _)

theorem foldl {α : Type} {f : State → α → State} (hf : ∀ s x, AccessOnly s (f s x)) (xs : List α) (s : State) :
    AccessOnly s (xs.foldl f s) := foldl_of id hf xs s

theorem ite {c : Prop} [Decidable c] (h : AccessOnly s t) (k : AccessOnly s u) : AccessOnly s (if c then t else u) := by
  split
  · exact h
  · exact k

end AccessOnly

/-! ### Agents and carriers -/

theorem setHb_accessOnly (s : State) (me : Nat) (a : AgHb) : AccessOnly s (s.setHb me a) := .ite rfl rfl

theorem post_accessOnly (s : State) (c : Chan) (x : Clk) : AccessOnly s (s.post c x) := .ite rfl rfl

theorem acquires_accessOnly (s : State) (me : Nat) : AccessOnly s (s.acquires me) := .ite (setHb_accessOnly _ _ _) rfl

theorem readFrom_accessOnly (s : State) (w : Who) (rs : List Rel) : AccessOnly s (s.readFrom w rs) := by
  refine .ite ?_ (setHb_accessOnly _ _ _)
  exact ((setHb_accessOnly _ _ _).trans (acquires_accessOnly _ _)).trans (.foldl (fun _ _ => setHb_accessOnly _ _ _) _ _)

theorem releaseTo_accessOnly (s : State) (ag : Agent) (cs : List Chan) : AccessOnly s (releaseTo s ag cs) := by
  have h : AccessOnly s (cs.foldl (fun (t : State) c => t.post c (s.relClk (agentMe s ag))) s) :=
    .foldl (fun _ _ => post_accessOnly _ _ _) _ _
  exact (h.trans (setHb_accessOnly _ _ _)).trans rfl

theorem spendFence_accessOnly (s : State) (w : Who) : AccessOnly s (spendFence s w) := .ite rfl (setHb_accessOnly _ _ _)

theorem afterStore_accessOnly (s : State) (cx : Cx) : AccessOnly s (afterStore s cx) := by
  have h : AccessOnly s (relIf s cx) := .ite (releaseTo_accessOnly _ _ _) rfl
  exact h.trans (.ite (spendFence_accessOnly _ _) rfl)

/-! ### Reads -/

theorem touchAll_accessOnly (s : State) (w : Who) (b : Bool) (ts : List Touch) : AccessOnly s (touchAll s w b ts) := by
  refine .foldl (fun s x => ?_) _ _
  exact .ite rfl rfl

theorem resolveAll_accessOnly {s : State} {w : Who} {k : AccK} {m : Bool} {al : DWord → Nat → Nat} {rs : List Req}
    {hs : List (Req × List Hit)} {s1 : State} (h : resolveAll s w k m al rs = .ok (hs, s1)) : AccessOnly s s1 := by
  obtain ⟨ys, -, -, rfl⟩ := resolveAll_ok h
  exact touchAll_accessOnly _ _ _ _

theorem correctAt_accessOnly (s : State) (k : Nat) : AccessOnly s (correctAt s k) := by
  unfold correctAt
  dsimp only
  split <;> exact .ite rfl rfl

theorem pickInstant_accessOnly (s : State) (ns : List Nat) : AccessOnly s (pickInstant s ns).2 := by
  unfold pickInstant
  split <;> rfl

theorem readEach_accessOnly (hs : List Hit) (s : State) (w : Who) (m : Bool) : AccessOnly s (readEach s w m hs).2 := by
  induction hs generalizing s with
  | nil => exact .refl _
  | cons h hs ih => exact (pickInstant_accessOnly _ _).trans (ih _)

theorem recordReads_accessOnly (s : State) (w : Who) (m : Bool) (hs : List Hit) : AccessOnly s (recordReads s w m hs) := by
  refine .foldl (fun s h => ?_) _ _
  exact .ite rfl rfl

theorem readHits_accessOnly (s : State) (w : Who) (m : Bool) (hs : List Hit) : AccessOnly s (readHits s w m hs).2 := by
  have hc : AccessOnly s (hs.foldl (fun s h => correctAt s h.key) s) := .foldl (fun _ _ => correctAt_accessOnly _ _) _ _
  refine hc.trans ?_
  unfold readHits
  generalize hs.foldl (fun s h => correctAt s h.key) s = t
  dsimp only
  split
  · have h := (pickInstant_accessOnly t (instants t w hs)).trans (recordReads_accessOnly _ w m hs)
    exact .ite h (h.trans (readFrom_accessOnly _ _ _))
  · have h := (readEach_accessOnly hs t w m).trans (recordReads_accessOnly _ w m hs)
    exact .ite (h.trans (readFrom_accessOnly _ _ _)) h

theorem readByteLanes_accessOnly (hs : List (Req × List Hit)) (s : State) (w : Who) (m : Bool) :
    AccessOnly s (readByteLanes s w m hs).2 := by
  induction hs generalizing s with
  | nil => exact .refl _
  | cons x hs ih => exact (readHits_accessOnly _ _ _ _).trans (ih _)

theorem widenRels_accessOnly (s : State) (w : Who) (k : Nat) : AccessOnly s (widenRels s w k) := by
  unfold widenRels
  split <;> rfl

/-! ### Requests to peer modules -/

theorem sendWrites_accessOnly (s : State) (w : Who) (xs : List (Hit × Byte)) : AccessOnly s (sendWrites s w xs) := by
  refine .foldl (fun s run => ?_) _ _
  split
  · exact .refl _
  · split <;> rfl

theorem requestRun_accessOnly (s : State) (ns : Bool) (id : Nat) (h : Hit) (n : Nat) (xs : List Byte) :
    AccessOnly s (requestRun s ns id h n xs).2 := by
  unfold requestRun
  dsimp only
  split <;> rfl

theorem requestReads_accessOnly (s : State) (ns : Bool) (id : Nat) (hs : List Hit) : AccessOnly s (requestReads s ns id hs) := by
  unfold requestReads requestAll
  exact (AccessOnly.foldl_of Prod.fst (fun _ _ => requestRun_accessOnly _ _ _ _ _ _) _ (s, [])).trans rfl

theorem askAtom_accessOnly (o : Op) (ns : Bool) (mn ty : Nat) (ask : AtomLane → Bool) (acc : State × List Nat × List AtomLane)
    (x : AtomLane) : AccessOnly acc.1 (askAtom o ns mn ty ask acc x).1 := by
  unfold askAtom
  split
  · split
    · exact requestRun_accessOnly _ _ _ _ _ _
    · exact .refl _
  · exact .refl _

theorem askAtoms_accessOnly (s : State) (o : Op) (ns : Bool) (mn ty d : Nat) (ret : Bool) (ask : AtomLane → Bool) (plan : List AtomLane) :
    AccessOnly s (askAtoms s o ns mn ty d ret ask plan) :=
  (AccessOnly.foldl_of Prod.fst (askAtom_accessOnly o ns mn ty ask) plan (s, [], [])).trans rfl

/-! ### Writes -/

theorem writeOnce_accessOnly (s : State) (w : Who) (m : Bool) (xs : List (Hit × Byte)) : AccessOnly s (writeOnce s w m xs) := by
  have h : AccessOnly s (xs.foldl (fun (t : State) x => t.putByte (wrecOf s w m x.1) x.2) s) := by
    refine .foldl (fun t x => ?_) _ _
    rfl
  exact h.trans rfl

theorem writeHits_accessOnly (s : State) (w : Who) (m : Bool) (hs : List Hit) (bs : List Byte) : AccessOnly s (writeHits s w m hs bs) := by
  have h1 : AccessOnly s (hs.foldl (fun s h => if h.tracked then record s w true m h.key else s) s) := by
    refine .foldl (fun s h => ?_) _ _
    exact .ite rfl rfl
  have h2 := h1.trans (writeOnce_accessOnly _ w m ((hs.zip bs).take 8))
  have h3 := AccessOnly.ite (c := 8 < (hs.zip bs).length) (h2.trans (writeOnce_accessOnly _ w m ((hs.zip bs).drop 8))) h2
  refine h3.trans (.trans ?_ (sendWrites_accessOnly _ _ _))
  rfl

theorem writeLanes_accessOnly (s : State) (w : Who) (m : Bool) (hs : List (Req × List Hit)) (d : Nat → List Byte) :
    AccessOnly s (writeLanes s w m hs d) :=
  (AccessOnly.foldl (fun _ _ => writeHits_accessOnly _ _ _ _ _) hs s).trans rfl

theorem atomLanes_accessOnly (w : Who) (mn ty : Nat) (xs : List (Nat × List Hit × DWord × DWord)) (s : State) :
    AccessOnly s (atomLanes s w mn ty xs).2.2 := by
  induction xs generalizing s with
  | nil => exact .refl _
  | cons x xs ih => exact ((readHits_accessOnly _ _ _ _).trans (writeHits_accessOnly _ _ _ _ _)).trans (ih _)

theorem atomHere_accessOnly (w : Who) (mn ty : Nat) (xs : List AtomLane) (s : State) : AccessOnly s (atomHere s w mn ty xs).2.2 := by
  induction xs generalizing s with
  | nil => exact .refl _
  | cons x xs ih =>
    unfold atomHere
    split
    · exact ih s
    · exact (atomLanes_accessOnly w mn ty [(x.1, x.2.1, x.2.2.1, x.2.2.2.1)] s).trans (ih _)

theorem atomGo_accessOnly (s : State) (o : Op) (w : Who) (mn ty d : Nat) (ret : Bool) (plan : List AtomLane) :
    AccessOnly s (atomGo s o w mn ty d ret plan) := by
  refine (atomHere_accessOnly w mn ty plan s).trans (.trans ?_ (askAtoms_accessOnly _ _ _ _ _ _ _ _ _))
  rfl

/-! ### Operations -/

theorem opFollows_accessOnly (s : State) (o : Op) : AccessOnly s (opFollows s o) :=
  (setHb_accessOnly _ _ _).trans (setHb_accessOnly _ _ _)

theorem stopPoison_accessOnly (s : State) (id key : Nat) : AccessOnly s (stopPoison s id key) := by
  unfold stopPoison
  split <;> rfl

theorem forgetFar_accessOnly (s : State) (ag : Agent) : AccessOnly s (forgetFar s ag) := by
  unfold forgetFar
  split <;> rfl

end Sys2Proof.Machine
end

section
/-! What the issue of a memory instruction leaves alone (R53, R220 to R226, R234). -/

namespace Sys2Proof.Machine

open Sys2Proof

/-! ### The frame of an issue -/

/-- Everything of a state but what `sameMachine` leaves open, as it is in another. -/
def otherParts (s t : State) : State := { accessAs s t with groups := s.groups, wgs := s.wgs }

/-- What the issue of a memory instruction may not move: the rest of the machine, other groups and workgroups, and of its own group the
registers and the results on their way. -/
def IssueFrame (cx : Cx) (s t : State) : Prop :=
  sameMachine s t ∧ sameOthers cx s t ∧ (cx.onSpool = false → ∀ g, s.group? cx.gk = some g → ∃ h, t.group? cx.gk = some h ∧
    h.fixes = g.fixes ∧ sameRegisters g h ∧ sameSplits cx.k g.splits h.splits)

theorem sameMachine_iff {s t : State} : sameMachine s t ↔ otherParts s t = s := Iff.rfl

theorem sameMachine.trans {s t u : State} (h : sameMachine s t) (k : sameMachine t u) : sameMachine s u :=
  calc otherParts s u = otherParts s (otherParts t u) := rfl
    _ = otherParts s t := by rw [sameMachine_iff.1 k]
    _ = s := h

theorem sameOthers.refl (cx : Cx) (s : State) : sameOthers cx s s :=
  ⟨fun _ _ => rfl, fun _ _ => rfl, fun w hw => ⟨w, hw, rfl, fun _ => rfl⟩⟩

theorem sameOthers.trans {cx : Cx} {s t u : State} (h : sameOthers cx s t) (k : sameOthers cx t u) : sameOthers cx s u := by
  obtain ⟨hg, hw, hown⟩ := h
  obtain ⟨kg, kw, kown⟩ := k
  refine ⟨fun j hj => (kg j hj).trans (hg j hj), fun w hne => (kw w hne).trans (hw w hne), fun w hs => ?_⟩
  obtain ⟨w1, h1, hrest, hspool⟩ := hown w hs
  obtain ⟨w2, h2, krest, kspool⟩ := kown w1 h1
  refine ⟨w2, h2, ?_, fun hn => (kspool hn).trans (hspool hn)⟩
  rw [← hrest, ← krest]

theorem sameRegisters.trans {g h i : Group} (hh : sameRegisters g h) (hi : sameRegisters h i) : sameRegisters g i := by
  unfold sameRegisters at *
  rw [← hh, ← hi]

theorem sameSplits.refl (k : Nat) (xs : List Split) : sameSplits k xs xs :=
  ⟨rfl, fun _ _ => rfl, fun x y hx hy => by obtain rfl := Option.some.inj (hx.symm.trans hy); rfl⟩

theorem sameSplits.trans {k : Nat} {xs ys zs : List Split} (h : sameSplits k xs ys) (i : sameSplits k ys zs) : sameSplits k xs zs := by
  obtain ⟨hlen, hne, hk⟩ := h
  obtain ⟨ilen, ine, ik⟩ := i
  refine ⟨ilen.trans hlen, fun j hj => (ine j hj).trans (hne j hj), fun x z hx hz => ?_⟩
  have hlt : k < ys.length := by
    rw [← ilen]
    exact (List.getElem?_eq_some_iff.1 hz).1
  have hy : ys[k]? = some ys[k] := List.getElem?_eq_getElem hlt
  rw [← hk x _ hx hy, ← ik _ z hy hz]

/-- A change of the clause stream of split `k` leaves the other splits, and of split `k` the rest. -/
theorem sameSplits_modify (k : Nat) (xs : List Split) {f : Split → Split} (hf : ∀ x : Split, { f x with
    pc := x.pc, cl := x.cl, age := x.age, block := x.block, since := x.since, again := x.again, notBefore := x.notBefore } = x) :
    sameSplits k xs (xs.modify k f) := by
  refine ⟨List.length_modify _ _ _, fun j hj => ?_, fun x y hx hy => ?_⟩
  · rw [List.getElem?_modify_ne _ _ hj.symm]
  · rw [List.getElem?_modify_eq, hx] at hy
    obtain rfl := Option.some.inj hy
    exact hf x

namespace IssueFrame

variable {cx : Cx} {s t u : State}

theorem trans (h : IssueFrame cx s t) (k : IssueFrame cx t u) : IssueFrame cx s u := by
  obtain ⟨hm, ho, hg⟩ := h
  obtain ⟨km, ko, kg⟩ := k
  refine ⟨hm.trans km, ho.trans ko, fun hn g hgs => ?_⟩
  obtain ⟨g1, h1, hfix, hreg, hspl⟩ := hg hn g hgs
  obtain ⟨g2, h2, kfix, kreg, kspl⟩ := kg hn g1 h1
  exact ⟨g2, h2, kfix.trans hfix, hreg.trans kreg, hspl.trans kspl⟩

theorem of_accessOnly (cx : Cx) (h : AccessOnly s t) : IssueFrame cx s t := by
  have hgroup (j : Nat) : t.group? j = s.group? j := by rw [State.group?, State.group?, h.groups]
  have hwg (w : Nat) : t.wg? w = s.wg? w := by rw [State.wg?, State.wg?, h.wgs]
  refine ⟨?_, ⟨fun j _ => hgroup j, fun w _ => hwg w, fun w hw => ⟨w, (hwg _).trans hw, rfl, fun _ => rfl⟩⟩, fun _ g hg => ?_⟩
  · exact (congrArg (otherParts s) h :)
  · exact ⟨g, (hgroup _).trans hg, rfl, rfl, .refl _ _⟩

theorem of_onlyTurn (h : OnlyTurn cx.wid s t) : IssueFrame cx s t := by
  obtain ⟨hrest, hne, hown⟩ := h
  have hgroups : t.groups = s.groups := (congrArg State.groups hrest :)
  have hgroup (j : Nat) : t.group? j = s.group? j := by rw [State.group?, State.group?, hgroups]
  refine ⟨(congrArg (otherParts s) hrest :), ⟨fun j _ => hgroup j, hne, fun w hw => ?_⟩,
    fun _ g hg => ⟨g, (hgroup _).trans hg, rfl, rfl, .refl _ _⟩⟩
  obtain ⟨w', hw', hturn⟩ := hown w hw
  refine ⟨w', hw', ?_, fun _ => ?_⟩
  · exact (congrArg (fun x : Wg => { x with spool := w.spool }) hturn :)
  · exact (congrArg Wg.spool hturn :)

/-- A change of the issuing split's group that keeps its registers and results on their way, and of its splits all but the clause stream. -/
theorem of_modGroup (hs : cx.onSpool = false) (f : Group → Group)
    (hf : ∀ g, (f g).fixes = g.fixes ∧ sameRegisters g (f g) ∧ sameSplits cx.k g.splits (f g).splits) :
    IssueFrame cx s (s.modGroup cx.gk f) := by
  refine ⟨rfl, ⟨fun j hj => ?_, fun _ _ => rfl, fun w hw => ⟨w, hw, rfl, fun _ => rfl⟩⟩, fun _ g hg => ⟨f g, ?_, hf g⟩⟩
  · exact State.modGroup_group_of_ne s f (hj.resolve_right (by simp [hs]))
  · rw [State.modGroup_group_self, hg]
    rfl

/-- A change of the issuing spool processor. -/
theorem of_spool (hs : cx.onSpool = true) (f : Option Spool → Option Spool) :
    IssueFrame cx s (s.modWg cx.wid fun x => { x with spool := f x.spool }) := by
  refine ⟨rfl, ⟨fun _ _ => rfl, fun w hw => State.modWg_wg_of_ne s _ hw, fun w hw => ?_⟩, fun hn => absurd hs (by simp [hn])⟩
  refine ⟨{ w with spool := f w.spool }, ?_, rfl, fun hn => absurd hs (by simp [hn])⟩
  rw [State.modWg_wg_self, hw]
  rfl

end IssueFrame

/-! ### The parts of an issue -/

theorem startOp_frame (s : State) (cx : Cx) (k : OpK) (ws : List Wr) (fl : BitVec 5) (bar : Option Nat) :
    IssueFrame cx s (startOp s cx k ws fl bar) := by
  have hstart : AccessOnly s (startHb s cx) := (setHb_accessOnly _ _ _).trans (setHb_accessOnly _ _ _)
  have hops : AccessOnly s { startHb s cx with ops := (startHb s cx).ops ++ [mkOp s cx k ws fl bar], nextId := (startHb s cx).nextId + 1 } :=
    hstart.trans rfl
  have hacc := IssueFrame.of_accessOnly cx hops
  unfold startOp
  dsimp only
  split
  · exact hacc
  · rename_i hs
    refine hacc.trans (.of_modGroup (by simpa using hs) _ fun g => ?_)
    cases (mkOp s cx k ws fl bar).tok <;> cases (mkOp s cx k ws fl bar).cnt <;> exact ⟨rfl, rfl, .refl _ _⟩

/-- The context of an issue names the agent's own group and split, or its own workgroup. -/
theorem issuable_agent {i : Instr} {s : State} {cx : Cx} {s1 : State} (h : issuable i s = some (cx, s1)) :
    (∃ c sl, cx.ag = .group c sl cx.k ∧ cx.onSpool = false) ∨ (cx.ag = .spool cx.wid ∧ cx.onSpool = true) := by
  have hm := (issuable_mkCx h).1
  cases hcur : s.cur with
  | none => rw [hcur, mkCx_agent_none] at hm; cases hm
  | group c sl k =>
    rw [hcur] at hm
    obtain ⟨-, -, hag, -, rfl, -⟩ := mkCx_group hm
    exact .inl ⟨c, sl, hag, by rw [Cx.onSpool, hag]⟩
  | spool w =>
    rw [hcur] at hm
    obtain ⟨-, -, hag, -, rfl, -⟩ := mkCx_spool hm
    exact .inr ⟨hag, by rw [Cx.onSpool, hag]⟩

theorem split_advance_stream (x : Split) (n t nb : Nat) : { x.advance n t nb with
    pc := x.pc, cl := x.cl, age := x.age, block := x.block, since := x.since, again := x.again, notBefore := x.notBefore } = x := by
  unfold Split.advance
  split
  · rfl
  · split <;> rfl

theorem advance_frame {i : Instr} {s : State} {cx : Cx} {s1 : State} (h : issuable i s = some (cx, s1)) (t : State) :
    IssueFrame cx t (advance t cx) := by
  rcases issuable_agent h with ⟨c, sl, hag, hs⟩ | ⟨hag, hs⟩
  · unfold advance
    simp only [hag]
    refine .of_modGroup hs _ fun g => ⟨rfl, rfl, ?_⟩
    exact sameSplits_modify cx.k g.splits fun x => split_advance_stream x _ _ _
  · unfold advance
    simp only [hag]
    exact .of_spool hs _

theorem completed_frame {i : Instr} {s : State} {cx : Cx} {s1 : State} (h : issuable i s = some (cx, s1)) (t : State) :
    IssueFrame cx t (completed t cx) :=
  ((IssueFrame.of_accessOnly cx (forgetFar_accessOnly t cx.ag)).trans (advance_frame h _)).trans (.of_onlyTurn (afterIssue_onlyTurn _ _))

theorem completed_mem (t : State) (cx : Cx) : (completed t cx).mem = t.mem := by simp [completed]

/-! ### Bytes -/

theorem byte_of_mem {s t : State} (h : t.mem = s.mem) (k : Nat) : t.byte k = s.byte k := by rw [State.byte, State.byte, h]

theorem atomLanes_byte_of_notMem (w : Who) (mn ty : Nat) {xs : List (Nat × List Hit × DWord × DWord)} {j : Nat}
    (h : ∀ x ∈ xs, j ∉ x.2.1.map (·.key)) (s : State) : (atomLanes s w mn ty xs).2.2.byte j = s.byte j := by
  induction xs generalizing s with
  | nil => rfl
  | cons x xs ih =>
    refine (ih (fun y hy => h y (List.mem_cons_of_mem _ hy)) _).trans ?_
    exact (writeHits_byte_of_notMem _ w true _ _ (h x List.mem_cons_self)).trans (byte_of_mem (readHits_mem _ _ _ _) j)

theorem atomHere_byte_of_notMem (w : Who) (mn ty : Nat) {xs : List AtomLane} {j : Nat} (h : ∀ x ∈ xs, j ∉ x.2.1.map (·.key)) (s : State) :
    (atomHere s w mn ty xs).2.2.byte j = s.byte j := by
  induction xs generalizing s with
  | nil => rfl
  | cons x xs ih =>
    have hrest : ∀ y ∈ xs, j ∉ y.2.1.map (·.key) := fun y hy => h y (List.mem_cons_of_mem _ hy)
    unfold atomHere
    split
    · exact ih hrest s
    · refine (ih hrest _).trans (atomLanes_byte_of_notMem w mn ty (xs := [(x.1, x.2.1, x.2.2.1, x.2.2.2.1)]) ?_ s)
      simpa using h x List.mem_cons_self

theorem atomGo_byte_of_notMem (s : State) (o : Op) (w : Who) (mn ty d : Nat) (ret : Bool) {plan : List AtomLane} {j : Nat}
    (h : ∀ x ∈ plan, j ∉ x.2.1.map (·.key)) : (atomGo s o w mn ty d ret plan).byte j = s.byte j :=
  (byte_of_mem (askAtoms_mem _ _ _ _ _ _ _ _ _) j).trans (atomHere_byte_of_notMem w mn ty h s)

/-- What a collection gathers comes from the answers that succeed. -/
theorem mem_of_collect {ε α : Type} {xs : List (Except ε α)} {ys : List α} (h : collect xs = .ok ys) : ∀ y ∈ ys, .ok y ∈ xs := by
  induction xs generalizing ys with
  | nil => cases h; simp
  | cons x xs ih =>
    cases x with
    | error e => cases h
    | ok a =>
      unfold collect at h
      split at h
      · cases h
      · rename_i as has
        cases h
        rintro y (_ | ⟨_, hy⟩)
        · exact List.mem_cons_self
        · exact List.mem_cons_of_mem _ (ih has y hy)

/-- A resolution changes only the bytes that it marks as used (R55, R57). -/
theorem resolveAll_byte {s : State} {w : Who} {k : AccK} {m : Bool} {al : DWord → Nat → Nat} {rs : List Req} {hs : List (Req × List Hit)}
    {s1 : State} (h : resolveAll s w k m al rs = .ok (hs, s1)) {j : Nat} (hj : j ∉ markBytes s w k al rs) : s1.byte j = s.byte j := by
  obtain ⟨ys, hys, -, rfl⟩ := resolveAll_ok h
  refine touchAll_byte_of_notMem _ _ _ _ fun hmem => hj ?_
  simp only [List.mem_map, List.mem_flatMap] at hmem
  obtain ⟨t, ⟨y, hy, ht⟩, rfl⟩ := hmem
  obtain ⟨r, hr, hres⟩ := List.mem_map.1 (mem_of_collect hys y hy)
  refine List.mem_flatMap.2 ⟨r, hr, ?_⟩
  rw [hres]
  exact List.mem_map_of_mem ht

theorem notMem_hits {hs : List (Req × List Hit)} {j : Nat} (h : j ∉ (allHits hs).map (·.key)) : ∀ x ∈ hs, j ∉ x.2.map (·.key) := by
  intro x hx hj
  obtain ⟨a, ha, rfl⟩ := List.mem_map.1 hj
  exact h (List.mem_map_of_mem (List.mem_flatMap.2 ⟨x, hx, ha⟩))

/-! ### Effects -/

theorem startLater_frame (s : State) (cx : Cx) (k : OpK) (rs : List Ref) : IssueFrame cx s (startLater s cx k rs) :=
  startOp_frame s cx k _ _ _

theorem loadStart_accessOnly (s : State) (cx : Cx) (marked : Bool) (hs : List (Req × List Hit)) :
    AccessOnly s (readByteLanes (if marked then s.newLoad cx.me else s) cx.who marked hs).2 :=
  (AccessOnly.ite (setHb_accessOnly _ _ _) (.refl _)).trans (readByteLanes_accessOnly _ _ _ _)

/-- A load of resolved bytes is issued in every case, and changes no byte (R220). -/
theorem loadEff_frame (s : State) (cx : Cx) (marked : Bool) (ty d n : Nat) (hs : List (Req × List Hit)) :
    ∃ t, loadEff s cx marked ty d n hs = .done t ∧ IssueFrame cx s t ∧ t.mem = s.mem := by
  have hread := IssueFrame.of_accessOnly cx (loadStart_accessOnly s cx marked hs)
  have hmem : (readByteLanes (if marked then s.newLoad cx.me else s) cx.who marked hs).2.mem = s.mem := by split <;> simp
  unfold loadEff
  dsimp only
  split
  · exact ⟨_, rfl, (startLater_frame _ _ _ _).trans (.of_accessOnly cx (stopPoison_accessOnly _ _ _)), by simp⟩
  · split
    · exact ⟨_, rfl, hread.trans (startOp_frame _ _ _ _ _ _), by rw [startOp_mem, hmem]⟩
    · exact ⟨_, rfl, (hread.trans (startLater_frame _ _ _ _)).trans (.of_accessOnly cx (requestReads_accessOnly _ _ _ _)), by
        rw [requestReads_mem, startLater_mem, hmem]⟩

/-- A store of resolved bytes is issued, and changes those alone (R221). -/
theorem storeEff_frame {s : State} {cx : Cx} {rs : List Req} {hs : List (Req × List Hit)} {s2 : State} (data : Nat → List Byte)
    (hr : resolveAll s cx.who .store cx.marked (alignFor cx.marked) rs = .ok (hs, s2)) :
    ∃ t, storeEff s cx rs data = .done t ∧ IssueFrame cx s2 t ∧ ∀ j, j ∉ (allHits hs).map (·.key) → t.byte j = s2.byte j := by
  unfold storeEff
  rw [hr]
  refine ⟨_, rfl, ?_, fun j hj => ?_⟩
  · exact (IssueFrame.of_accessOnly cx ((writeLanes_accessOnly _ _ _ _ _).trans (afterStore_accessOnly _ _))).trans (startOp_frame _ _ _ _ _ _)
  · exact (byte_of_mem (by rw [startOp_mem, afterStore_mem]) j).trans (writeLanes_byte_of_notMem hs s2 _ _ data (notMem_hits hj))

/-- The lanes of an ATOM with their bytes, operands and comparands. -/
def atomPlan (cx : Cx) (hs : List (Req × List Hit)) : List AtomLane :=
  hs.map fun x => (laneOf x.1, x.2, (cx.atomOpd (laneOf x.1)).1, (cx.atomOpd (laneOf x.1)).2, 0)

theorem notMem_atomPlan (cx : Cx) {hs : List (Req × List Hit)} {j : Nat} (h : j ∉ (allHits hs).map (·.key)) :
    ∀ x ∈ atomPlan cx hs, j ∉ x.2.1.map (·.key) := by
  intro x hx
  obtain ⟨y, hy, rfl⟩ := List.mem_map.1 hx
  exact notMem_hits h y hy

/-- What an ATOM does whose requests resolve (R225 to R227). -/
def atomEff (cx : Cx) (s : State) (hs : List (Req × List Hit)) : Eff :=
  let s1 := s.newLoad cx.me
  let refs := if bit cx.m 0 then vRefs cx.f.d.toNat (regsOf cx.ty) else []
  let later := atomPlan cx hs
  let k : OpK := .atom cx.f.mn.toNat cx.ty cx.f.d.toNat (bit cx.m 0) false later
  match anyPoison s1 (allHits hs) with
  | some key =>
    let s2 := startLater (afterStore s1 cx) cx k refs
    .done (stopPoison s2 (lastId s2) key)
  | none =>
    if !isFar (allHits hs) then
      let (olds, fl, s2) := atomLanes s1 (cx.whoOp s1) cx.f.mn.toNat cx.ty (later.map fun p => (p.1, p.2.1, p.2.2.1, p.2.2.2.1))
      .done (startOp (afterStore s2 cx) cx .reg (if bit cx.m 0 then loadWrs cx.ty cx.f.d.toNat (tyBits cx.ty / 8) olds else []) fl)
    else
      let s2 := startLater s1 cx k refs
      match s2.op? (lastId s2) with
      | none => .done s2
      | some o =>
        .done (afterStore (opFollows (atomGo s2 o (cx.whoOp s1) cx.f.mn.toNat cx.ty cx.f.d.toNat (bit cx.m 0) later) o) cx)

/-- An ATOM of resolved bytes is issued in every case, and changes those alone (R226). -/
theorem atomEff_frame (cx : Cx) (s : State) (hs : List (Req × List Hit)) :
    ∃ t, atomEff cx s hs = .done t ∧ IssueFrame cx s t ∧ ∀ j, j ∉ (allHits hs).map (·.key) → t.byte j = s.byte j := by
  have hnew : AccessOnly s (s.newLoad cx.me) := setHb_accessOnly _ _ _
  have hnewMem : (s.newLoad cx.me).mem = s.mem := newLoad_mem _ _
  unfold atomEff
  dsimp only
  split
  · refine ⟨_, rfl, ?_, fun j _ => byte_of_mem (by simp) j⟩
    exact ((IssueFrame.of_accessOnly cx (hnew.trans (afterStore_accessOnly _ _))).trans (startLater_frame _ _ _ _)).trans
      (.of_accessOnly cx (stopPoison_accessOnly _ _ _))
  · split
    · refine ⟨_, rfl, ?_, fun j hj => ?_⟩
      · exact (IssueFrame.of_accessOnly cx ((hnew.trans (atomLanes_accessOnly _ _ _ _ _)).trans (afterStore_accessOnly _ _))).trans
          (startOp_frame _ _ _ _ _ _)
      · have hplan : ∀ x ∈ (atomPlan cx hs).map fun p => (p.1, p.2.1, p.2.2.1, p.2.2.2.1), j ∉ x.2.1.map (·.key) := by
          intro x hx
          obtain ⟨y, hy, rfl⟩ := List.mem_map.1 hx
          exact notMem_atomPlan cx hj y hy
        exact ((byte_of_mem (by rw [startOp_mem, afterStore_mem]) j).trans (atomLanes_byte_of_notMem _ _ _ hplan _)).trans (byte_of_mem hnewMem j)
    · have hlater := (IssueFrame.of_accessOnly cx hnew).trans (startLater_frame (s.newLoad cx.me) cx
        (.atom cx.f.mn.toNat cx.ty cx.f.d.toNat (bit cx.m 0) false (atomPlan cx hs))
        (if bit cx.m 0 then vRefs cx.f.d.toNat (regsOf cx.ty) else []))
      split
      · exact ⟨_, rfl, hlater, fun j _ => byte_of_mem (by rw [startLater_mem, hnewMem]) j⟩
      · refine ⟨_, rfl, hlater.trans (.of_accessOnly cx ?_), fun j hj => ?_⟩
        · exact ((atomGo_accessOnly _ _ _ _ _ _ _ _).trans (opFollows_accessOnly _ _)).trans (afterStore_accessOnly _ _)
        · refine (byte_of_mem (by rw [afterStore_mem, opFollows_mem]) j).trans
            ((atomGo_byte_of_notMem _ _ _ _ _ _ _ (notMem_atomPlan cx hj)).trans (byte_of_mem ?_ j))
          rw [startLater_mem, hnewMem]

/-! ### The frame of a whole issue -/

section
variable {i : Instr} {s : State} {cx : Cx} {s1 s2 t u : State} {k : AccK} {m : Bool} {al : DWord → Nat → Nat} {rs : List Req}
  {hs : List (Req × List Hit)}

/-- The frame of an instruction whose requests resolve: bytes, machine, other agents, registers. -/
def MemoryFrame (cx : Cx) (s t : State) (k : AccK) (al : DWord → Nat → Nat) (rs : List Req) (hs : List (Req × List Hit)) : Prop :=
  (∀ key, key ∉ markBytes s cx.who k al rs → (k.writes = true → key ∉ (allHits hs).map (·.key)) → t.byte key = s.byte key) ∧
  IssueFrame cx s t

theorem memoryFrame_of_done (h : issuable i s = some (cx, s1)) (hr : resolveAll s1 cx.who k m al rs = .ok (hs, s2))
    (hx : exec i s = .next (completed u cx)) (hu : IssueFrame cx s2 u)
    (hb : ∀ j, (k.writes = true → j ∉ (allHits hs).map (·.key)) → u.byte j = s2.byte j) (ht : exec i s = .next t) :
    MemoryFrame cx s1 t k al rs hs := by
  rw [hx] at ht
  obtain rfl := Host.Outcome.next.inj ht
  refine ⟨fun j hmark hhit => ?_, ((IssueFrame.of_accessOnly cx (resolveAll_accessOnly hr)).trans hu).trans (completed_frame h u)⟩
  exact (byte_of_mem (completed_mem u cx) j).trans ((hb j hhit).trans (resolveAll_byte hr hmark))

theorem loadFrame (h : issuable i s = some (cx, s1)) (hr : resolveAll s1 cx.who .load m al rs = .ok (hs, s2)) {marked : Bool}
    {ty d n : Nat} {p : State} (hp : AccessOnly s2 p) (hpm : p.mem = s2.mem) {body : Cx → State → Eff} (hi : exec i s = issue i s body)
    (hbody : body cx s1 = loadEff p cx marked ty d n hs) (ht : exec i s = .next t) : MemoryFrame cx s1 t .load al rs hs := by
  obtain ⟨u, hu, hframe, hmem⟩ := loadEff_frame p cx marked ty d n hs
  exact memoryFrame_of_done h hr (hi.trans (issue_done h (hbody.trans hu))) ((IssueFrame.of_accessOnly cx hp).trans hframe)
    (fun j _ => byte_of_mem (hmem.trans hpm) j) ht

theorem storeFrame (h : issuable i s = some (cx, s1)) (hr : resolveAll s1 cx.who .store cx.marked (alignFor cx.marked) rs = .ok (hs, s2))
    {data : Nat → List Byte} {body : Cx → State → Eff} (hi : exec i s = issue i s body) (hbody : body cx s1 = storeEff s1 cx rs data)
    (ht : exec i s = .next t) : MemoryFrame cx s1 t .store (alignFor cx.marked) rs hs := by
  obtain ⟨u, hu, hframe, hbytes⟩ := storeEff_frame data hr
  exact memoryFrame_of_done h hr (hi.trans (issue_done h (hbody.trans hu))) hframe (fun j hj => hbytes j (hj rfl)) ht

end

/-! ### The words of the statement -/

theorem marked_eq (cx : Cx) : decide (cx.f.c.toNat % 8 ≠ 0) = cx.marked := by
  simp [Cx.marked, Cx.ord, bne, Bool.beq_eq_decide_eq]

theorem size_eq (cx : Cx) : (if cx.f.mn.toNat / 2 % 2 = 1 then 16 else tyBits cx.ty / 8) = cx.size := by
  simp [Cx.size, sizeOf, bit]

theorem uniform_eq (cx : Cx) : decide (cx.f.mn.toNat % 2 = 1) = bit cx.f.mn.toNat 0 := by
  simp [bit]

theorem requests_lanes (cx : Cx) (m : Mask) (u : Bool) (n : Nat) :
    requests cx (some m) (fun l => baseAddr cx u (offsetB cx l) l) n = (lanesIn m).map fun l => (some l, cx.addr u l, n) := by
  simp only [requests, addr_eq_baseAddr]

theorem requests_scalar (cx : Cx) (u : Bool) (n : Nat) :
    requests cx none (fun l => baseAddr cx u (offsetB cx l) l) n = [(none, cx.addr u 0, n)] := by
  simp only [requests, addr_eq_baseAddr]

theorem requests_atom (cx : Cx) (m : Mask) (u : Bool) (n : Nat) : requests cx (some m) (baseAddr cx u 0) n =
    (lanesIn m).map fun l => (some l, if u then cx.g.rs2 cx.f.a.toNat else cx.g.rv2 cx.f.a.toNat l, n) := by
  simp only [requests, baseAddr_zero]

theorem lanesIn_ne_nil {m : Mask} (h : m ≠ 0) : lanesIn m ≠ [] := by
  intro hn
  refine h (BitVec.eq_of_getLsbD_eq fun l hl => ?_)
  have hnot : l ∉ lanesIn m := by rw [hn]; exact List.not_mem_nil
  simpa [lanesIn, hl] using hnot

/-! ### The obligation -/

/-- Settles O60: each of the six instructions resolves its requests and then goes on to a load, a store or an atomic, and ends
its issue in its own clause stream. -/
theorem memoryInstructionFrame : Obligations.MemoryInstructionFrame := by
  intro f s cx s1 t hs s2 size marked a frame
  refine ⟨fun hact h hr ht => ?ld, fun h hr ht => ?lds, fun hpath h hr ht => ?promote, fun h hr ht => ?st, fun h hr ht => ?sts,
    fun h hr ht => ?atom⟩
  case ld =>
    obtain ⟨rfl, -, -⟩ := issuable_row (i := .ld f) rfl h
    simp only [size, marked, a, marked_eq, size_eq, uniform_eq, requests_lanes] at hr ⊢
    have hne : ((lanesIn cx.act).map fun l => ((some l, cx.addr (bit cx.f.mn.toNat 0) l, cx.size) : Req)).isEmpty = false := by
      simpa using lanesIn_ne_nil hact
    exact loadFrame h hr (.refl s2) rfl rfl (by simp only [hne, hr]; rfl) ht
  case lds =>
    obtain ⟨rfl, -, -⟩ := issuable_row (i := .lds f) rfl h
    simp only [size, marked, a, marked_eq, size_eq, requests_scalar] at hr ⊢
    exact loadFrame h hr (.refl s2) rfl rfl (by simp only [hr]; rfl) ht
  case promote =>
    obtain ⟨rfl, -, -⟩ := issuable_row (i := .promote f) rfl h
    simp only [a, ← addr_eq_baseAddr] at hpath
    simp only [a, requests_scalar] at hr ⊢
    exact loadFrame h hr (widenRels_accessOnly _ _ _) (widenRels_mem _ _ _) rfl (by simp only [badPath_of_path0 hpath, hr]; rfl) ht
  case st =>
    obtain ⟨rfl, -, -⟩ := issuable_row (i := .st f) rfl h
    simp only [size, marked, a, marked_eq, size_eq, uniform_eq, requests_lanes] at hr ⊢
    exact storeFrame h hr rfl rfl ht
  case sts =>
    obtain ⟨rfl, -, -⟩ := issuable_row (i := .sts f) rfl h
    simp only [size, marked, a, marked_eq, size_eq, requests_scalar] at hr ⊢
    exact storeFrame h hr rfl rfl ht
  case atom =>
    obtain ⟨rfl, -, -⟩ := issuable_row (i := .atom f) rfl h
    simp only [requests_atom] at hr ⊢
    obtain ⟨u, hu, hframe, hbytes⟩ := atomEff_frame cx s2 hs
    refine memoryFrame_of_done h hr (issue_done h (Eq.trans ?_ hu)) hframe (fun j hj => hbytes j (hj rfl)) ht
    simp only [hr]
    rfl

end Sys2Proof.Machine
end

section
/-! The finite values of a format in the order of their encodings (R74). -/

namespace Sys2Proof.Machine

open Sys2Proof

/-! ### Magnitudes -/

/-- The exponent of the last place of the subnormals. -/
def Fmt.qmin (f : Fmt) : Int := f.emin - f.mb

/-- The magnitude that an encoding without its sign stands for, counted on beyond the largest finite value. -/
def Fmt.mag (f : Fmt) (x : Nat) : Rat :=
  if x < 2 ^ f.mb then x * 2 ^ f.qmin
  else (2 ^ f.mb + x % 2 ^ f.mb : Nat) * 2 ^ (f.qmin + (x / 2 ^ f.mb - 1 : Nat))

/-- The sign of a value as a factor. -/
def signOf (neg : Bool) : Rat := if neg then -1 else 1

@[simp] theorem signOf_true : signOf true = -1 := rfl
@[simp] theorem signOf_false : signOf false = 1 := rfl

/-- The exact value of a finite number taken apart. -/
def finVal (neg : Bool) (m : Nat) (e : Int) : Rat := signOf neg * (m * 2 ^ e)

theorem two_zpow_pos (q : Int) : (0 : Rat) < 2 ^ q := zpow_pos (by norm_num) q

theorem two_zpow_add_nat (q : Int) (n : Nat) : (2 : Rat) ^ (q + n) = 2 ^ q * 2 ^ n := by
  rw [zpow_add₀ two_ne_zero, zpow_natCast]

/-- A multiple of the last place of a binade, from its least value to the next binade's, is encoded by adding up. -/
theorem Fmt.mag_add (f : Fmt) {j n : Nat} (hn : n ≤ 2 ^ (f.mb + 1)) (hj : j = 0 ∨ 2 ^ f.mb ≤ n) :
    f.mag (j * 2 ^ f.mb + n) = n * 2 ^ (f.qmin + j) := by
  have hpos : 0 < 2 ^ f.mb := Nat.two_pow_pos _
  rw [pow_succ] at hn
  unfold Fmt.mag
  rcases Nat.lt_or_ge n (2 ^ f.mb) with hlt | hge
  · obtain rfl : j = 0 := hj.resolve_right (by omega)
    simp [hlt]
  · obtain ⟨r, rfl⟩ := Nat.exists_eq_add_of_le hge
    have hx : ¬ j * 2 ^ f.mb + (2 ^ f.mb + r) < 2 ^ f.mb := by
      have := Nat.zero_le (j * 2 ^ f.mb)
      omega
    rw [if_neg hx]
    rcases Nat.lt_or_ge r (2 ^ f.mb) with hr | hr
    · have hsum : j * 2 ^ f.mb + (2 ^ f.mb + r) = r + (j + 1) * 2 ^ f.mb := by ring
      rw [hsum, Nat.add_mul_mod_self_right, Nat.add_mul_div_right _ _ hpos, Nat.mod_eq_of_lt hr, Nat.div_eq_of_lt hr]
      simp
    · obtain rfl : r = 2 ^ f.mb := by omega
      have hsum : j * 2 ^ f.mb + (2 ^ f.mb + 2 ^ f.mb) = 0 + (j + 2) * 2 ^ f.mb := by ring
      rw [hsum, Nat.add_mul_mod_self_right, Nat.add_mul_div_right _ _ hpos]
      have hexp : f.qmin + ((0 / 2 ^ f.mb + (j + 2) - 1 : Nat) : Int) = f.qmin + j + (1 : Nat) := by
        rw [Nat.zero_div, Nat.zero_add, Nat.add_sub_assoc (by decide)]
        push_cast
        ring
      rw [hexp, two_zpow_add_nat]
      push_cast
      simp only [Nat.zero_mod]
      push_cast
      ring

/-- Every encoding is a multiple of the last place of some binade. -/
theorem exists_binade (p x : Nat) : ∃ j n, x = j * 2 ^ p + n ∧ n < 2 ^ (p + 1) ∧ (j = 0 ∨ 2 ^ p ≤ n) := by
  have hpos : 0 < 2 ^ p := Nat.two_pow_pos _
  rw [pow_succ]
  rcases Nat.lt_or_ge x (2 ^ p) with hlt | hge
  · exact ⟨0, x, by simp, by omega, .inl rfl⟩
  · have hdiv : 1 ≤ x / 2 ^ p := (Nat.one_le_div_iff hpos).2 hge
    have hmod := Nat.mod_lt x hpos
    refine ⟨x / 2 ^ p - 1, 2 ^ p + x % 2 ^ p, ?_, by omega, .inr (by omega)⟩
    have hsplit := Nat.div_add_mod' x (2 ^ p)
    have hstep : (x / 2 ^ p - 1) * 2 ^ p + 2 ^ p = x / 2 ^ p * 2 ^ p := by rw [← Nat.succ_mul, Nat.succ_eq_add_one, Nat.sub_add_cancel hdiv]
    omega

theorem Fmt.mag_lt_succ (f : Fmt) (x : Nat) : f.mag x < f.mag (x + 1) := by
  obtain ⟨j, n, rfl, hn, hj⟩ := exists_binade f.mb x
  rw [Nat.add_assoc, f.mag_add hn.le hj, f.mag_add hn (hj.imp_right fun h => h.trans (Nat.le_succ n))]
  have := two_zpow_pos (f.qmin + j)
  push_cast
  nlinarith

theorem Fmt.mag_strictMono (f : Fmt) : StrictMono f.mag := strictMono_nat_of_lt_succ f.mag_lt_succ

@[simp] theorem Fmt.mag_zero (f : Fmt) : f.mag 0 = 0 := by simp [Fmt.mag]

theorem Fmt.mag_nonneg (f : Fmt) (x : Nat) : 0 ≤ f.mag x := by
  rw [← f.mag_zero]
  exact f.mag_strictMono.monotone x.zero_le

/-! ### Finite encodings -/

/-- An encoding is finite where its magnitude lies below the infinity's, and its value is that magnitude with its sign. -/
theorem unpack_of_lt_inf {f : Fmt} {y : Nat} (h : y % f.sign < f.inf) :
    ∃ m e, unpack f y = .fin (bit y (f.eb + f.mb)) m e ∧ (m : Rat) * 2 ^ e = f.mag (y % f.sign) := by
  have hpos : 0 < 2 ^ f.mb := Nat.two_pow_pos _
  have hsign : f.sign = 2 ^ f.mb * 2 ^ f.eb := by rw [Fmt.sign, Nat.add_comm, pow_add]
  have hdiv : y % f.sign / 2 ^ f.mb = y / 2 ^ f.mb % 2 ^ f.eb := by rw [hsign, Nat.mod_mul_right_div_self]
  have hmod : y % f.sign % 2 ^ f.mb = y % 2 ^ f.mb := by rw [hsign, Nat.mod_mul_right_mod]
  have hlt : y / 2 ^ f.mb % 2 ^ f.eb < 2 ^ f.eb - 1 := hdiv ▸ (Nat.div_lt_iff_lt_mul hpos).2 h
  have hsub : y % f.sign < 2 ^ f.mb ↔ y / 2 ^ f.mb % 2 ^ f.eb = 0 := by rw [← Nat.div_eq_zero_iff_lt hpos, hdiv]
  unfold unpack Fmt.mag
  dsimp only
  rw [if_neg hlt.ne, hdiv, hmod]
  by_cases h0 : y / 2 ^ f.mb % 2 ^ f.eb = 0
  · rw [if_pos h0, if_pos (hsub.2 h0)]
    refine ⟨_, _, rfl, ?_⟩
    have hself : y % f.sign = y % 2 ^ f.mb := by rw [← hmod, Nat.mod_eq_of_lt (hsub.2 h0)]
    rw [hself, Fmt.qmin]
  · rw [if_neg h0, if_neg (mt hsub.1 h0)]
    refine ⟨_, _, rfl, ?_⟩
    have hexp : ((y / 2 ^ f.mb % 2 ^ f.eb : Nat) : Int) - f.bias - f.mb = f.qmin + (y / 2 ^ f.mb % 2 ^ f.eb - 1 : Nat) := by
      rw [Fmt.qmin, Fmt.emin, Nat.cast_sub (Nat.one_le_iff_ne_zero.2 h0)]
      ring
    rw [hexp]

theorem isFinite_of_lt_inf {f : Fmt} {y : Nat} (h : y % f.sign < f.inf) : isFinite f y := by
  obtain ⟨m, e, hu, -⟩ := unpack_of_lt_inf h
  exact ⟨_, m, e, hu⟩

theorem fval_of_fin {f : Fmt} {y : Nat} {neg : Bool} {m : Nat} {e : Int} (h : unpack f y = .fin neg m e) :
    fval f y = finVal neg m e := by
  rw [fval, h, finVal, signOf]
  ring

theorem fval_of_lt_inf {f : Fmt} {y : Nat} (h : y % f.sign < f.inf) : fval f y = signOf (bit y (f.eb + f.mb)) * f.mag (y % f.sign) := by
  obtain ⟨m, e, hu, hm⟩ := unpack_of_lt_inf h
  rw [fval_of_fin hu, finVal, hm]

theorem lt_inf_of_isFinite {f : Fmt} {y : Nat} (h : isFinite f y) : y % f.sign < f.inf := by
  obtain ⟨neg, m, e, hu⟩ := h
  have hpos : 0 < 2 ^ f.mb := Nat.two_pow_pos _
  have hsign : f.sign = 2 ^ f.mb * 2 ^ f.eb := by rw [Fmt.sign, Nat.add_comm, pow_add]
  rw [Fmt.inf, ← Nat.div_lt_iff_lt_mul hpos, hsign, Nat.mod_mul_right_div_self]
  have hlt := Nat.mod_lt (y / 2 ^ f.mb) (Nat.two_pow_pos f.eb)
  have hne : y / 2 ^ f.mb % 2 ^ f.eb ≠ 2 ^ f.eb - 1 := by
    intro he
    unfold unpack at hu
    dsimp only at hu
    rw [if_pos he] at hu
    split at hu <;> cases hu
  omega

theorem Fmt.inf_lt_sign (f : Fmt) : f.inf < f.sign := by
  rw [Fmt.inf, Fmt.sign, pow_add]
  exact Nat.mul_lt_mul_of_pos_right (Nat.sub_lt (Nat.two_pow_pos _) Nat.one_pos) (Nat.two_pow_pos _)

/-- An encoding below the infinity's, with a sign, is finite and has its magnitude with that sign. -/
theorem fval_signed {f : Fmt} {x : Nat} (neg : Bool) (h : x < f.inf) :
    isFinite f (f.signed neg x) ∧ fval f (f.signed neg x) = signOf neg * f.mag x := by
  have hx : x < f.sign := h.trans f.inf_lt_sign
  have hmod : f.signed neg x % f.sign = x := by
    cases neg
    · exact Nat.mod_eq_of_lt hx
    · exact (Nat.add_mod_left _ _).trans (Nat.mod_eq_of_lt hx)
  have hbit : bit (f.signed neg x) (f.eb + f.mb) = neg := by
    unfold bit
    change decide (f.signed neg x / f.sign % 2 = 1) = neg
    cases neg
    · have hdiv : f.signed false x / f.sign = 0 := Nat.div_eq_of_lt hx
      simp [hdiv]
    · have hdiv : f.signed true x / f.sign = 1 := by
        show (f.sign + x) / f.sign = 1
        rw [Nat.add_div_left _ (Nat.zero_lt_of_lt hx), Nat.div_eq_of_lt hx]
      simp [hdiv]
  have hlt : f.signed neg x % f.sign < f.inf := hmod.symm ▸ h
  refine ⟨isFinite_of_lt_inf hlt, ?_⟩
  rw [fval_of_lt_inf hlt, hmod, hbit]

/-- A finite value is a magnitude below the infinity's, with a sign. -/
theorem exists_mag_of_isFinite {f : Fmt} {y : Nat} (h : isFinite f y) : ∃ neg, ∃ x < f.inf, fval f y = signOf neg * f.mag x :=
  ⟨_, _, lt_inf_of_isFinite h, fval_of_lt_inf (lt_inf_of_isFinite h)⟩

end Sys2Proof.Machine
end

section
/-! Rounding a magnitude once to a format (R76, R77). -/

namespace Sys2Proof.Machine

open Sys2Proof

/-! ### A magnitude as units of one size -/

/-- A magnitude is `m` units of 2^e and less than a unit more, which is not nothing exactly where `sticky`. -/
def Held (m : Nat) (e : Int) (sticky : Bool) (V : Rat) : Prop :=
  (m : Rat) * 2 ^ e ≤ V ∧ V < (m + 1) * 2 ^ e ∧ (sticky = true ↔ (m : Rat) * 2 ^ e ≠ V)

theorem held_exact (m : Nat) (e : Int) : Held m e false (m * 2 ^ e) := by
  have := two_zpow_pos e
  exact ⟨le_rfl, by nlinarith, by simp⟩

/-- Below, at or above the middle of two values: 0, 1, 2. -/
def halfCmp (lo V hi : Rat) : Nat := if 2 * V < lo + hi then 0 else if 2 * V = lo + hi then 1 else 2

theorem halfCmp_mul (lo V hi : Rat) {u : Rat} (hu : 0 < u) : halfCmp (lo * u) (V * u) (hi * u) = halfCmp lo V hi := by
  have hlt : 2 * (V * u) < lo * u + hi * u ↔ 2 * V < lo + hi := by rw [← add_mul, ← mul_assoc, mul_lt_mul_iff_left₀ hu]
  have heq : 2 * (V * u) = lo * u + hi * u ↔ 2 * V = lo + hi := by rw [← add_mul, ← mul_assoc, mul_left_inj' hu.ne']
  simp only [halfCmp, hlt, heq]

/-- Whether a magnitude between two neighbours, of which the lower's last bit is `odd`, is rounded to the upper one (R76). -/
def goesUp (mode : Nat) (neg odd : Bool) (lo V hi : Rat) : Bool := decide (lo ≠ V) && roundsAway mode neg odd (halfCmp lo V hi)

section
variable {m n r k : Nat} {sticky : Bool} {T : Rat} (hlo : (m : Rat) ≤ T) (hhi : T < m + 1) (hst : sticky = true ↔ (m : Rat) ≠ T)
include hlo hst

/-- What is left of a magnitude below a multiple of 2^k is nothing only where the bits below and the sticky bit are. -/
theorem units_ne_iff (hm : 2 ^ k * n + r = m) : (n : Rat) * 2 ^ k ≠ T ↔ (r != 0 || sticky) = true := by
  have hcast : (m : Rat) = n * 2 ^ k + r := by
    rw [← hm]
    push_cast
    ring
  have hr0 : (0 : Rat) ≤ r := Nat.cast_nonneg r
  rw [Bool.or_eq_true, bne_iff_ne, hst]
  constructor
  · intro hne
    by_contra hc
    push Not at hc
    obtain ⟨rfl, hmt⟩ := hc
    exact hne (by rw [← hmt, hcast]; simp)
  · rintro (hr | hne) heq
    · have : (0 : Rat) < r := Nat.cast_pos.2 (Nat.pos_of_ne_zero hr)
      linarith
    · exact hne (by linarith)

include hhi

/-- The bits below, and the sticky bit where they are just one half, tell on which side of the middle a magnitude lies. -/
theorem halfCmp_units (hm : 2 ^ (k + 1) * n + r = m) : halfCmp (n * 2 ^ (k + 1)) T ((n + 1) * 2 ^ (k + 1)) =
    if r < 2 ^ k then 0 else if (r = 2 ^ k && !sticky) = true then 1 else 2 := by
  have hcast : (m : Rat) = n * (2 * 2 ^ k) + r := by
    rw [← hm]
    push_cast
    ring
  rw [halfCmp, pow_succ, mul_comm ((2 : Rat) ^ k) 2]
  by_cases hlt : r < 2 ^ k
  · have hlt' : (r : Rat) + 1 ≤ 2 ^ k := by exact_mod_cast hlt
    rw [if_pos hlt, if_pos (by linarith)]
  · have hge : (2 : Rat) ^ k ≤ r := by exact_mod_cast Nat.not_lt.1 hlt
    rw [if_neg hlt, if_neg (by linarith)]
    have hmid : 2 * T = n * (2 * 2 ^ k) + (n + 1) * (2 * 2 ^ k) ↔ (r = 2 ^ k && !sticky) = true := by
      simp only [Bool.and_eq_true, decide_eq_true_eq, Bool.not_eq_true', ← Bool.not_eq_true, hst, not_not]
      constructor
      · intro heq
        have hr : (r : Rat) = 2 ^ k := by linarith
        exact ⟨by exact_mod_cast hr, by linarith⟩
      · rintro ⟨rfl, heq⟩
        push_cast at hcast
        linarith
    simp only [hmid]

end

/-- Units no larger than those asked for are counted exactly. -/
theorem roundAt_of_le {m : Nat} {e q : Int} (h : q ≤ e) (mode : Nat) (neg sticky : Bool) :
    ∃ n : Nat, (n : Rat) * 2 ^ q = m * 2 ^ e ∧ roundAt mode neg m e sticky q = (n, sticky) := by
  refine ⟨m * 2 ^ (e - q).toNat, ?_, by rw [roundAt, if_pos h]⟩
  obtain ⟨d, rfl⟩ : ∃ d : Nat, e = q + d := ⟨(e - q).toNat, by omega⟩
  rw [two_zpow_add_nat, add_sub_cancel_left, Int.toNat_natCast]
  push_cast
  ring

/-- `roundAt` takes a magnitude to one of the two multiples of 2^q around it, and says whether it is the magnitude. -/
theorem roundAt_eq {m : Nat} {e q : Int} {sticky : Bool} {V : Rat} (h : Held m e sticky V) (hs : sticky = true → e < q) (mode : Nat)
    (neg : Bool) : ∃ n : Nat, (n : Rat) * 2 ^ q ≤ V ∧ V < (n + 1) * 2 ^ q ∧ roundAt mode neg m e sticky q =
      (if goesUp mode neg (n % 2 = 1) (n * 2 ^ q) V ((n + 1) * 2 ^ q) then n + 1 else n, decide ((n : Rat) * 2 ^ q ≠ V)) := by
  obtain ⟨hlo, hhi, hst⟩ := h
  rcases le_or_gt q e with hq | hq
  · have hsf : sticky = false := by simpa using mt hs (not_lt.2 hq)
    have hV : (m : Rat) * 2 ^ e = V := by simpa [hsf] using hst
    obtain ⟨n, hn, hround⟩ := roundAt_of_le (m := m) hq mode neg sticky
    rw [hV] at hn
    have hup := two_zpow_pos q
    exact ⟨n, hn.le, by linarith, by rw [hround, hsf]; simp [goesUp, hn]⟩
  · obtain ⟨k, hk⟩ : ∃ k : Nat, q = e + (k + 1 : Nat) := ⟨(q - e).toNat - 1, by omega⟩
    have hu := two_zpow_pos e
    obtain ⟨T, rfl⟩ : ∃ T, V = T * 2 ^ e := ⟨V / 2 ^ e, by field_simp⟩
    have hmT : (m : Rat) ≤ T := le_of_mul_le_mul_right hlo hu
    have hTm : T < m + 1 := lt_of_mul_lt_mul_right hhi hu.le
    have hstT : sticky = true ↔ (m : Rat) ≠ T := by rw [hst, Ne, mul_left_inj' hu.ne']
    have hscale (x : Rat) : x * 2 ^ q = x * 2 ^ (k + 1) * 2 ^ e := by
      rw [hk, two_zpow_add_nat]
      ring
    have hm := Nat.div_add_mod m (2 ^ (k + 1))
    have hr : ((m % 2 ^ (k + 1) : Nat) : Rat) + 1 ≤ 2 ^ (k + 1) := by exact_mod_cast Nat.mod_lt m (Nat.two_pow_pos (k + 1))
    have hsh : (q - e).toNat = k + 1 := by omega
    have hcast : (m : Rat) = (m / 2 ^ (k + 1) : Nat) * 2 ^ (k + 1) + (m % 2 ^ (k + 1) : Nat) := by
      exact_mod_cast ((Nat.mul_comm _ _ ▸ hm).symm : m = m / 2 ^ (k + 1) * 2 ^ (k + 1) + m % 2 ^ (k + 1))
    simp only [roundAt, if_neg (not_le.2 hq), hsh, Nat.add_sub_cancel, goesUp, hscale, halfCmp_mul _ _ _ hu, ne_eq, mul_left_inj' hu.ne']
    refine ⟨m / 2 ^ (k + 1), ?_, ?_, ?_⟩
    · exact mul_le_mul_of_nonneg_right (by linarith [(Nat.cast_nonneg (m % 2 ^ (k + 1)) : (0 : Rat) ≤ _)]) hu.le
    · exact mul_lt_mul_of_pos_right (by linarith) hu
    · have hne : decide ((m / 2 ^ (k + 1) : Nat) * 2 ^ (k + 1) ≠ T) = (m % 2 ^ (k + 1) != 0 || sticky) :=
        Bool.eq_iff_iff.2 (decide_eq_true_iff.trans (units_ne_iff hmT hstT hm))
      rw [halfCmp_units hmT hTm hstT hm]
      simp only [ne_eq] at hne
      rw [hne]

/-! ### Rounding to a format -/

/-- The encoding to which a magnitude is rounded that lies between those of `x` and `x + 1`. -/
def roundedEnc (f : Fmt) (mode : Nat) (neg : Bool) (x : Nat) (V : Rat) : Nat :=
  if goesUp mode neg (x % 2 = 1) (f.mag x) V (f.mag (x + 1)) then x + 1 else x

/-- A result is a magnitude with a sign, rounded once: the encodings around it, the one to which it is rounded, and what is delivered in
its place from the infinity's on, with the flags of R79. -/
def RoundedOnce (f : Fmt) (mode : Nat) (neg : Bool) (V : Rat) (r : FR) : Prop :=
  ∃ x, f.mag x ≤ V ∧ V < f.mag (x + 1) ∧
    r.1 = f.signed neg (if f.inf ≤ roundedEnc f mode neg x V then (if roundsAway mode neg false 2 then f.inf else f.maxFin)
      else roundedEnc f mode neg x V) ∧
    (r.2 &&& fOF ≠ 0 ↔ f.inf ≤ roundedEnc f mode neg x V) ∧
    (r.2 &&& fIX ≠ 0 ↔ f.inf ≤ roundedEnc f mode neg x V ∨ f.mag x ≠ V)

theorem held_binade {m : Nat} {e : Int} {sticky : Bool} {V : Rat} (h : Held m e sticky V) (hm : m ≠ 0) :
    2 ^ (e + m.log2) ≤ V ∧ V < 2 ^ (e + m.log2 + 1) := by
  obtain ⟨hlo, hhi, -⟩ := h
  have hu := two_zpow_pos e
  have hle : (2 : Rat) ^ m.log2 ≤ m := by exact_mod_cast Nat.log2_self_le hm
  have hlt : (m : Rat) + 1 ≤ 2 ^ (m.log2 + 1) := by exact_mod_cast Nat.lt_log2_self
  have hsucc : (2 : Rat) ^ (e + m.log2 + 1) = 2 ^ e * 2 ^ (m.log2 + 1) := by rw [add_assoc]; exact two_zpow_add_nat e (m.log2 + 1)
  rw [two_zpow_add_nat, hsucc]
  constructor <;> nlinarith

/-- The multiples of the last place around a magnitude are neighbours in the order of the encodings: the last place is that of its
binade, or of the subnormals. -/
theorem binade_units {f : Fmt} {ex : Int} {V : Rat} (hlo : 2 ^ ex ≤ V) (hhi : V < 2 ^ (ex + 1)) {n : Nat}
    (hn : (n : Rat) * 2 ^ max (ex - f.mb) f.qmin ≤ V) (hn1 : V < (n + 1) * 2 ^ max (ex - f.mb) f.qmin) :
    n < 2 ^ (f.mb + 1) ∧ ((max (ex - f.mb) f.qmin - f.qmin).toNat = 0 ∨ 2 ^ f.mb ≤ n) := by
  have hpow (q : Int) : (2 : Rat) ^ (q + f.mb) = 2 ^ f.mb * 2 ^ q := by rw [two_zpow_add_nat, mul_comm]
  constructor
  · have htop : (2 : Rat) ^ (ex + 1) ≤ 2 ^ (f.mb + 1) * 2 ^ max (ex - f.mb) f.qmin := by
      rw [mul_comm, ← two_zpow_add_nat]
      exact zpow_le_zpow_right₀ (by norm_num) (by have := le_max_left (ex - f.mb) f.qmin; push_cast; omega)
    have hlt : (n : Rat) < 2 ^ (f.mb + 1) := lt_of_mul_lt_mul_right (hn.trans_lt (hhi.trans_le htop)) (two_zpow_pos _).le
    exact_mod_cast hlt
  · rcases le_total (ex - f.mb) f.qmin with hq | hq
    · left
      rw [max_eq_right hq, sub_self]
      rfl
    · right
      rw [max_eq_left hq] at hn1
      have hbot : (2 : Rat) ^ f.mb * 2 ^ (ex - f.mb) < (n + 1) * 2 ^ (ex - f.mb) := by
        rw [← hpow, sub_add_cancel]
        exact hlo.trans_lt hn1
      have hlt : (2 : Rat) ^ f.mb < n + 1 := lt_of_mul_lt_mul_right hbot (two_zpow_pos _).le
      exact Nat.lt_succ_iff.1 (by exact_mod_cast hlt)

theorem overflowFlags : (fOF ||| fIX) &&& fOF ≠ 0 ∧ (fOF ||| fIX) &&& fIX ≠ 0 := by decide

theorem inexactFlags (inexact tiny : Bool) : (if inexact then (if tiny then fUF ||| fIX else fIX) else 0) &&& fOF = 0 ∧
    ((if inexact then (if tiny then fUF ||| fIX else fIX) else 0) &&& fIX ≠ 0 ↔ inexact = true) := by
  revert inexact tiny
  decide

theorem roundTo_eq (f : Fmt) (mode : Nat) (neg : Bool) (m : Nat) (e : Int) (sticky : Bool) :
    let q := max (e + m.log2 - f.mb) f.qmin
    let r := roundAt mode neg m e sticky q
    let x := (q - f.qmin).toNat * 2 ^ f.mb + r.1
    let tiny := if f.emin ≤ e + m.log2 - f.mb then false
      else decide ((roundAt mode neg m e sticky (e + m.log2 - f.mb)).1 < 2 ^ (f.emin - (e + m.log2 - f.mb)).toNat)
    roundTo f mode neg m e sticky =
      if f.inf ≤ x then (f.signed neg (if roundsAway mode neg false 2 then f.inf else f.maxFin), fOF ||| fIX)
      else (f.signed neg x, if r.2 then (if tiny then fUF ||| fIX else fIX) else 0) := by
  match mode with
  | 0 | 1 | 2 | 3 | _ + 4 => rfl

/-- R76, R77: `roundTo` rounds a magnitude once; with a sticky bit it needs more bits than the fraction has. -/
theorem roundTo_rounded {f : Fmt} (hf : 0 < f.mb) {m : Nat} {e : Int} {sticky : Bool} {V : Rat} (h : Held m e sticky V) (hm : m ≠ 0)
    (hs : sticky = true → f.mb < m.log2) (mode : Nat) (neg : Bool) : RoundedOnce f mode neg V (roundTo f mode neg m e sticky) := by
  obtain ⟨hbot, htop⟩ := held_binade h hm
  obtain ⟨q, hq⟩ : ∃ q, q = max (e + m.log2 - f.mb) f.qmin := ⟨_, rfl⟩
  have hfine : sticky = true → e < q := fun hst => by
    have := hs hst
    have := le_max_left (e + m.log2 - f.mb) f.qmin
    omega
  obtain ⟨n, hlo, hhi, hround⟩ := roundAt_eq h hfine mode neg
  obtain ⟨hn, hj⟩ := binade_units hbot htop (hq ▸ hlo) (hq ▸ hhi)
  rw [← hq] at hj
  obtain ⟨j, hjq⟩ : ∃ j, j = (q - f.qmin).toNat := ⟨_, rfl⟩
  have hplace : f.qmin + j = q := by
    have := le_max_right (e + m.log2 - f.mb) f.qmin
    omega
  rw [← hjq] at hj
  have hmag : f.mag (j * 2 ^ f.mb + n) = n * 2 ^ q := by rw [f.mag_add hn.le hj, hplace]
  have hmag1 : f.mag (j * 2 ^ f.mb + n + 1) = (n + 1) * 2 ^ q := by
    rw [Nat.add_assoc, f.mag_add hn (hj.imp_right fun h => h.trans n.le_succ), hplace]
    push_cast
    rfl
  have hodd : (j * 2 ^ f.mb + n) % 2 = n % 2 := by
    obtain ⟨p, hp⟩ := Nat.exists_eq_add_of_lt hf
    rw [hp, pow_succ, ← Nat.mul_assoc, Nat.add_comm, Nat.add_mul_mod_self_right]
  have henc : roundedEnc f mode neg (j * 2 ^ f.mb + n) V = j * 2 ^ f.mb + (roundAt mode neg m e sticky q).1 := by
    rw [roundedEnc, hround, hmag, hmag1, hodd]
    split <;> rfl
  refine ⟨j * 2 ^ f.mb + n, hmag ▸ hlo, hmag1 ▸ hhi, ?_⟩
  rw [henc, hmag, roundTo_eq]
  simp only [← hq, ← hjq]
  split
  · rename_i hinf
    exact ⟨rfl, iff_of_true overflowFlags.1 hinf, iff_of_true overflowFlags.2 (.inl hinf)⟩
  · rename_i hinf
    refine ⟨rfl, iff_of_false (not_not.2 (inexactFlags _ _).1) hinf, (inexactFlags _ _).2.trans ?_⟩
    rw [show (roundAt mode neg m e sticky q).2 = decide ((n : Rat) * 2 ^ q ≠ V) by rw [hround], decide_eq_true_iff]
    exact (or_iff_right hinf).symm

end Sys2Proof.Machine
end

section
/-! What a magnitude rounded once is among the finite values (R76, R77). -/

namespace Sys2Proof.Machine

open Sys2Proof

/-! ### The three directions -/

/-- The last encoding whose magnitude does not exceed `V`. -/
def IsDown (f : Fmt) (V : Rat) (k : Nat) : Prop := ∀ y, f.mag y ≤ V ↔ y ≤ k
/-- The first encoding whose magnitude is not below `V`. -/
def IsUp (f : Fmt) (V : Rat) (k : Nat) : Prop := ∀ y, V ≤ f.mag y ↔ k ≤ y
/-- An encoding whose magnitude is as near to `V` as any, the even one of two. -/
def IsNearest (f : Fmt) (V : Rat) (k : Nat) : Prop :=
  ∀ y, |f.mag k - V| ≤ |f.mag y - V| ∧ (|f.mag k - V| = |f.mag y - V| → y ≠ k → k % 2 = 0)

section
variable {f : Fmt} {V : Rat} {x : Nat} (hlo : f.mag x ≤ V) (hhi : V < f.mag (x + 1))
include hlo hhi

theorem isDown_of_between : IsDown f V x := fun y => by
  constructor
  · intro h
    exact Nat.lt_succ_iff.1 (f.mag_strictMono.lt_iff_lt.1 (h.trans_lt hhi))
  · exact fun h => (f.mag_strictMono.monotone h).trans hlo

theorem isUp_of_between {mode : Nat} {neg : Bool} (h : ∀ odd cmp, roundsAway mode neg odd cmp = true) :
    IsUp f V (roundedEnc f mode neg x V) := fun y => by
  unfold roundedEnc goesUp
  by_cases heq : f.mag x = V
  · simp only [heq, ne_eq, not_true_eq_false, decide_false, Bool.false_and, Bool.false_eq_true, if_false]
    rw [← heq, f.mag_strictMono.le_iff_le]
  · have hlt : f.mag x < V := lt_of_le_of_ne hlo heq
    simp only [h, ne_eq, heq, not_false_eq_true, decide_true, Bool.and_true, if_true]
    constructor
    · exact fun hy => f.mag_strictMono.lt_iff_lt.1 (hlt.trans_le hy)
    · exact fun hy => hhi.le.trans (f.mag_strictMono.monotone hy)

omit hlo in
/-- Rounding to nearest takes the nearer neighbour, and in the middle the even one. -/
theorem roundedEnc_nearest (neg : Bool) :
    (roundedEnc f 0 neg x V = x ∧ V - f.mag x ≤ f.mag (x + 1) - V ∧ (V - f.mag x = f.mag (x + 1) - V → x % 2 = 0)) ∨
    (roundedEnc f 0 neg x V = x + 1 ∧ f.mag (x + 1) - V ≤ V - f.mag x ∧ (V - f.mag x = f.mag (x + 1) - V → (x + 1) % 2 = 0)) := by
  unfold roundedEnc goesUp halfCmp
  by_cases heq : f.mag x = V
  · exact .inl ⟨by simp [heq], by linarith, fun h => absurd h (by linarith)⟩
  rcases lt_trichotomy (2 * V) (f.mag x + f.mag (x + 1)) with h | h | h
  · exact .inl ⟨by simp [h, roundsAway], by linarith, fun h' => absurd h' (by linarith)⟩
  · by_cases hodd : x % 2 = 1
    · exact .inr ⟨by simp [heq, h, hodd, roundsAway], by linarith, fun _ => by omega⟩
    · exact .inl ⟨by simp [h, hodd, roundsAway], by linarith, fun _ => by omega⟩
  · exact .inr ⟨by simp [heq, h.not_gt, h.ne', roundsAway], by linarith, fun h' => absurd h' (by linarith)⟩

theorem isNearest_of_between (neg : Bool) : IsNearest f V (roundedEnc f 0 neg x V) := fun y => by
  have hdx : |f.mag x - V| = V - f.mag x := by rw [abs_sub_comm, abs_of_nonneg (sub_nonneg.2 hlo)]
  have hdx1 : |f.mag (x + 1) - V| = f.mag (x + 1) - V := abs_of_nonneg (sub_nonneg.2 hhi.le)
  have hcases : (y < x ∧ V - f.mag x < |f.mag y - V|) ∨ y = x ∨ y = x + 1 ∨ (x + 1 < y ∧ f.mag (x + 1) - V < |f.mag y - V|) := by
    rcases lt_trichotomy y x with h | h | h
    · have := f.mag_strictMono h
      exact .inl ⟨h, lt_of_lt_of_le (by linarith) (neg_le_abs _)⟩
    · exact .inr (.inl h)
    · rcases (Nat.succ_le_of_lt h).eq_or_lt with h1 | h1
      · exact .inr (.inr (.inl h1.symm))
      · have := f.mag_strictMono h1
        exact .inr (.inr (.inr ⟨h1, lt_of_lt_of_le (by simpa using this) (le_abs_self _)⟩))
  rcases roundedEnc_nearest hhi neg with ⟨hk, hle, heven⟩ | ⟨hk, hle, heven⟩
  · rw [hk, hdx]
    rcases hcases with ⟨-, hd⟩ | rfl | rfl | ⟨-, hd⟩
    · exact ⟨hd.le, fun h => absurd h hd.ne⟩
    · exact ⟨hdx.ge, fun _ h => absurd rfl h⟩
    · rw [hdx1]
      exact ⟨hle, fun h _ => heven h⟩
    · exact ⟨(hle.trans_lt hd).le, fun h => absurd h (hle.trans_lt hd).ne⟩
  · rw [hk, hdx1]
    rcases hcases with ⟨-, hd⟩ | rfl | rfl | ⟨-, hd⟩
    · exact ⟨(hle.trans_lt hd).le, fun h => absurd h (hle.trans_lt hd).ne⟩
    · rw [hdx]
      exact ⟨hle, fun h _ => heven h.symm⟩
    · exact ⟨hdx1.ge, fun _ h => absurd rfl h⟩
    · exact ⟨hd.le, fun h => absurd h hd.ne⟩

end

/-! ### The values delivered within the range -/

theorem abs_signOf_mul (b : Bool) (a : Rat) : |signOf b * a| = |a| := by cases b <;> simp

theorem signOf_mul_mul (b : Bool) (a c : Rat) : signOf b * a * (signOf b * c) = a * c := by cases b <;> simp

theorem abs_signOf_sub (b : Bool) (a c : Rat) : |signOf b * a - signOf b * c| = |a - c| := by rw [← mul_sub, abs_signOf_mul]

theorem abs_signOf_sub_of_ne {b c : Bool} (h : b ≠ c) (x y : Rat) : |signOf b * x - signOf c * y| = |x + y| := by
  obtain rfl : c = !b := Bool.eq_not.2 h.symm
  have hsum : signOf b * x - signOf (!b) * y = signOf b * (x + y) := by cases b <;> simp [sub_eq_add_neg, add_comm]
  rw [hsum, abs_signOf_mul]

theorem signed_parity {f : Fmt} (hf : 0 < f.mb) (neg : Bool) (x : Nat) : f.signed neg x % 2 = x % 2 := by
  obtain ⟨p, hp⟩ := Nat.exists_eq_add_of_lt hf
  cases neg
  · rfl
  · show (f.sign + x) % 2 = x % 2
    rw [Fmt.sign, hp, ← Nat.add_assoc, pow_succ, Nat.mul_comm, Nat.mul_add_mod]

/-- A finite value, seen from one sign, is a magnitude or at most zero. -/
theorem exists_mag_or_nonpos {f : Fmt} {y : Nat} (neg : Bool) (h : isFinite f y) :
    (∃ x, signOf neg * fval f y = f.mag x) ∨ signOf neg * fval f y ≤ 0 := by
  obtain ⟨s, x, -, hx⟩ := exists_mag_of_isFinite h
  have hx0 := f.mag_nonneg x
  rw [hx]
  cases neg <;> cases s <;> simp [hx0]

section
variable {f : Fmt} {V : Rat} {k y : Nat} {neg : Bool}

/-- No finite value on the side of `V` lies between `V` and the last not beyond it. -/
theorem le_mag_of_isDown (h : IsDown f V k) (hy : isFinite f y) (hyV : signOf neg * fval f y ≤ V) : signOf neg * fval f y ≤ f.mag k := by
  rcases exists_mag_or_nonpos neg hy with ⟨x, hx⟩ | h0
  · rw [hx] at hyV ⊢
    exact f.mag_strictMono.monotone ((h x).1 hyV)
  · exact h0.trans (f.mag_nonneg k)

/-- No finite value lies between `V` and the first not below it. -/
theorem mag_le_of_isUp (hV : 0 < V) (h : IsUp f V k) (hy : isFinite f y) (hyV : V ≤ signOf neg * fval f y) :
    f.mag k ≤ signOf neg * fval f y := by
  rcases exists_mag_or_nonpos neg hy with ⟨x, hx⟩ | h0
  · rw [hx] at hyV ⊢
    exact f.mag_strictMono.monotone ((h x).1 hyV)
  · exact absurd (hV.trans_le hyV) (not_lt.2 h0)

variable (hk : k < f.inf)
include hk

theorem roundsTo_up_neg (h : IsDown f V k) : RoundsTo f 2 (signOf true * V) (f.signed true k) := by
  show signOf true * V ≤ fval f _ ∧ ∀ y, isFinite f y → signOf true * V ≤ fval f y → fval f _ ≤ fval f y
  rw [(fval_signed true hk).2]
  have hle := (h k).2 le_rfl
  have hdown (y : Nat) (hy : isFinite f y) := le_mag_of_isDown (neg := true) h hy
  simp only [signOf_true, neg_one_mul] at hdown ⊢
  exact ⟨neg_le_neg hle, fun y hy hyV => neg_le.1 (hdown y hy (neg_le.1 hyV))⟩

theorem roundsTo_down_pos (h : IsDown f V k) : RoundsTo f 3 (signOf false * V) (f.signed false k) := by
  show fval f _ ≤ signOf false * V ∧ ∀ y, isFinite f y → fval f y ≤ signOf false * V → fval f y ≤ fval f _
  rw [(fval_signed false hk).2]
  have hdown (y : Nat) (hy : isFinite f y) := le_mag_of_isDown (neg := false) h hy
  simp only [signOf_false, one_mul] at hdown ⊢
  exact ⟨(h k).2 le_rfl, hdown⟩

variable (hV : 0 < V)
include hV

theorem roundsTo_up_pos (h : IsUp f V k) : RoundsTo f 2 (signOf false * V) (f.signed false k) := by
  show signOf false * V ≤ fval f _ ∧ ∀ y, isFinite f y → signOf false * V ≤ fval f y → fval f _ ≤ fval f y
  rw [(fval_signed false hk).2]
  have hup (y : Nat) (hy : isFinite f y) := mag_le_of_isUp (neg := false) hV h hy
  simp only [signOf_false, one_mul] at hup ⊢
  exact ⟨(h k).2 le_rfl, hup⟩

theorem roundsTo_down_neg (h : IsUp f V k) : RoundsTo f 3 (signOf true * V) (f.signed true k) := by
  show fval f _ ≤ signOf true * V ∧ ∀ y, isFinite f y → fval f y ≤ signOf true * V → fval f y ≤ fval f _
  rw [(fval_signed true hk).2]
  have hle := (h k).2 le_rfl
  have hup (y : Nat) (hy : isFinite f y) := mag_le_of_isUp (neg := true) hV h hy
  simp only [signOf_true, neg_one_mul] at hup ⊢
  exact ⟨neg_le_neg hle, fun y hy hyV => le_neg.1 (hup y hy (le_neg.1 hyV))⟩

theorem roundsTo_zero (h : IsDown f V k) : RoundsTo f 1 (signOf neg * V) (f.signed neg k) := by
  have hk0 := f.mag_nonneg k
  show |fval f _| ≤ |signOf neg * V| ∧ 0 ≤ fval f _ * (signOf neg * V) ∧ _
  rw [(fval_signed neg hk).2, abs_signOf_mul, abs_signOf_mul, signOf_mul_mul, abs_of_nonneg hk0, abs_of_pos hV]
  refine ⟨(h k).2 le_rfl, mul_nonneg hk0 hV.le, fun y hy _ hyV => ?_⟩
  obtain ⟨s, x, -, hx⟩ := exists_mag_of_isFinite hy
  rw [hx, abs_signOf_mul, abs_of_nonneg (f.mag_nonneg x)] at hyV ⊢
  exact f.mag_strictMono.monotone ((h x).1 hyV)

/-- A value of the other sign is no nearer than zero. -/
theorem roundsTo_nearest (hf : 0 < f.mb) (h : IsNearest f V k) : RoundsTo f 0 (signOf neg * V) (f.signed neg k) := by
  intro y hy
  obtain ⟨s, x, -, hx⟩ := exists_mag_of_isFinite hy
  rw [(fval_signed neg hk).2, abs_signOf_sub, signed_parity hf, hx]
  by_cases hs : s = neg
  · subst hs
    rw [abs_signOf_sub]
    exact ⟨(h x).1, fun heq hne => (h x).2 heq fun hxk => hne (hxk ▸ rfl)⟩
  · have hx0 := f.mag_nonneg x
    rw [abs_signOf_sub_of_ne hs, abs_of_nonneg (add_nonneg hx0 hV.le)]
    obtain ⟨hzero, heven⟩ := h 0
    rw [f.mag_zero, zero_sub, abs_neg, abs_of_pos hV] at hzero heven
    refine ⟨by linarith, fun heq _ => ?_⟩
    rcases k.eq_zero_or_pos with rfl | hpos
    · rfl
    · exact heven (by linarith) hpos.ne

end

/-! ### The range of a format -/

/-- A format with an exponent and a fraction. -/
def Fmt.Proper (f : Fmt) : Prop := 0 < f.eb ∧ 0 < f.mb

namespace Fmt.Proper

variable {f : Fmt} (hf : f.Proper)
include hf

theorem two_pow_eb : 2 ^ f.eb = 2 * (f.bias + 1) := by
  obtain ⟨p, hp⟩ := Nat.exists_eq_add_of_lt hf.1
  have := Nat.two_pow_pos p
  rw [Fmt.bias, hp, pow_succ]
  simp only [Nat.zero_add, Nat.add_sub_cancel]
  omega

/-- The infinity's encoding is even, so that the largest finite value's is odd. -/
theorem maxFin_parity : f.inf = f.maxFin + 1 ∧ f.maxFin % 2 = 1 := by
  obtain ⟨p, hp⟩ := Nat.exists_eq_add_of_lt hf.2
  have hbias := hf.two_pow_eb
  have hpos : 0 < (2 ^ f.eb - 1) * 2 ^ p := Nat.mul_pos (by omega) (Nat.two_pow_pos p)
  have hinf : f.inf = 2 * ((2 ^ f.eb - 1) * 2 ^ p) := by
    rw [Fmt.inf, hp, pow_succ]
    simp only [Nat.zero_add]
    ring
  rw [Fmt.maxFin, hinf]
  omega

theorem mag_inf : f.mag f.inf = 2 ^ (f.bias + 1) := by
  have hbias := hf.two_pow_eb
  have hinf : f.inf = 2 * f.bias * 2 ^ f.mb + 2 ^ f.mb := by
    rw [Fmt.inf, hbias, show 2 * (f.bias + 1) - 1 = 2 * f.bias + 1 by omega]
    ring
  rw [hinf, f.mag_add (Nat.pow_le_pow_right (by decide) (Nat.le_succ _)) (.inr le_rfl)]
  have hexp : f.qmin + ((2 * f.bias : Nat) : Int) + f.mb = (f.bias + 1 : Nat) := by
    rw [Fmt.qmin, Fmt.emin]
    push_cast
    ring
  rw [← zpow_natCast, ← hexp, two_zpow_add_nat (f.qmin + ((2 * f.bias : Nat) : Int)) f.mb, mul_comm, Nat.cast_pow]
  rfl

theorem fval_maxFin : fval f f.maxFin = f.mag f.maxFin := by
  obtain ⟨hinf, -⟩ := hf.maxFin_parity
  exact (fval_signed (x := f.maxFin) false (by omega)).2.trans (one_mul _)

/-! ### Overflow -/

variable {V : Rat} {k : Nat}

theorem inf_le_of_isDown (h : IsDown f V k) : f.inf ≤ k ↔ 2 ^ (f.bias + 1) ≤ V := by rw [← hf.mag_inf, h]

theorem inf_le_of_isUp (h : IsUp f V k) : f.inf ≤ k ↔ fval f f.maxFin < V := by
  obtain ⟨hinf, -⟩ := hf.maxFin_parity
  rw [hf.fval_maxFin, hinf, ← not_le (a := V), h, not_le]
  rfl

/-- To nearest, the middle between the largest finite value and the next power overflows: the largest finite encoding is odd. -/
theorem inf_le_of_isNearest (h : IsNearest f V k) : f.inf ≤ k ↔ (fval f f.maxFin + 2 ^ (f.bias + 1)) / 2 ≤ V := by
  obtain ⟨hinf, hodd⟩ := hf.maxFin_parity
  have hstep : f.mag f.maxFin < f.mag f.inf := by rw [hinf]; exact f.mag_lt_succ _
  rw [hf.fval_maxFin, ← hf.mag_inf]
  constructor
  · intro hk
    have hmono := f.mag_strictMono.monotone hk
    by_contra hlt
    have hnear := (h f.maxFin).1
    rw [abs_of_nonneg (by linarith)] at hnear
    rcases abs_cases (f.mag f.maxFin - V) with ⟨habs, -⟩ | ⟨habs, -⟩ <;> linarith
  · intro hV
    by_contra hk
    have hmono := f.mag_strictMono.monotone (show k ≤ f.maxFin by omega)
    obtain ⟨hnear, htie⟩ := h f.inf
    rw [abs_sub_comm, abs_of_nonneg (show 0 ≤ V - f.mag k by linarith)] at hnear htie
    rcases abs_cases (f.mag f.inf - V) with ⟨habs, -⟩ | ⟨habs, -⟩
    · have hkmax : k = f.maxFin := f.mag_strictMono.injective (by linarith)
      have := htie (by linarith) (by omega)
      omega
    · linarith

end Fmt.Proper

end Sys2Proof.Machine
end

section
/-! Sum, difference, product, fused product-sum and quotient are the exact value rounded once (R76, R77, R79, R81). -/

namespace Sys2Proof.Machine

open Sys2Proof

/-! ### A magnitude rounded once is the correct result -/

section
variable {f : Fmt} {V : Rat} {x mode : Nat} {neg : Bool}

theorem signOf_mul_pos_iff (hV : 0 < V) : 0 < signOf neg * V ↔ neg = false := by cases neg <;> simp [hV, hV.le]

/-- What is delivered beyond the range: the infinity where the mode rounds away from zero (R77). -/
theorem overflowTo_eq (f : Fmt) (hV : 0 < V) (hmode : mode < 4) :
    overflowTo f mode (signOf neg * V) = f.signed neg (if roundsAway mode neg false 2 then f.inf else f.maxFin) := by
  simp only [overflowTo, signOf_mul_pos_iff hV]
  interval_cases mode <;> cases neg <;> rfl

/-- A magnitude that lies on an encoding is rounded to it, and no other is rounded to its own value. -/
theorem mag_roundedEnc_eq_iff (hhi : V < f.mag (x + 1)) : f.mag (roundedEnc f mode neg x V) = V ↔ f.mag x = V := by
  unfold roundedEnc
  split
  · rename_i h
    simp only [goesUp, Bool.and_eq_true, decide_eq_true_eq] at h
    exact iff_of_false hhi.ne' h.1
  · rfl

theorem roundedEnc_eq_self (h : ∀ odd cmp, roundsAway mode neg odd cmp = false) : roundedEnc f mode neg x V = x := by
  simp [roundedEnc, goesUp, h]

theorem overflows_down_iff (f : Fmt) (v : Rat) : Overflows f 3 v ↔ v < -fval f f.maxFin ∨ 2 ^ (f.bias + 1) ≤ v := Iff.rfl

/-- In each mode and for each sign: the result overflows just where R77 says, and is rounded as R76 says elsewhere. -/
theorem roundedEnc_correct (hf : f.Proper) (hV : 0 < V) (hmode : mode < 4) (hlo : f.mag x ≤ V) (hhi : V < f.mag (x + 1)) :
    (Overflows f mode (signOf neg * V) ↔ f.inf ≤ roundedEnc f mode neg x V) ∧
    (roundedEnc f mode neg x V < f.inf → RoundsTo f mode (signOf neg * V) (f.signed neg (roundedEnc f mode neg x V))) := by
  have hdown := isDown_of_between hlo hhi
  have hnext : (0 : Rat) < 2 ^ (f.bias + 1) := by positivity
  have hbig : 0 ≤ fval f f.maxFin := hf.fval_maxFin ▸ f.mag_nonneg _
  match mode, neg with
  | 0, neg =>
    have h := isNearest_of_between hlo hhi neg
    refine ⟨?_, fun hk => roundsTo_nearest hk hV hf.2 h⟩
    rw [hf.inf_le_of_isNearest h, Overflows, abs_signOf_mul, abs_of_pos hV]
  | 1, neg =>
    rw [roundedEnc_eq_self fun _ _ => rfl, hf.inf_le_of_isDown hdown, Overflows, abs_signOf_mul, abs_of_pos hV]
    exact ⟨Iff.rfl, fun hk => roundsTo_zero hk hV hdown⟩
  | 2, false =>
    have h := isUp_of_between hlo hhi (mode := 2) (neg := false) fun _ _ => rfl
    refine ⟨?_, fun hk => roundsTo_up_pos hk hV h⟩
    rw [hf.inf_le_of_isUp h, Overflows, signOf_false, one_mul]
    exact or_iff_left (by linarith)
  | 2, true =>
    rw [roundedEnc_eq_self fun _ _ => rfl, hf.inf_le_of_isDown hdown, Overflows, signOf_true, neg_one_mul, neg_le_neg_iff]
    exact ⟨or_iff_right (by linarith), fun hk => neg_one_mul V ▸ roundsTo_up_neg hk hdown⟩
  | 3, false =>
    rw [roundedEnc_eq_self fun _ _ => rfl, hf.inf_le_of_isDown hdown, overflows_down_iff, signOf_false, one_mul]
    exact ⟨or_iff_right (by linarith), fun hk => one_mul V ▸ roundsTo_down_pos hk hdown⟩
  | 3, true =>
    have h := isUp_of_between hlo hhi (mode := 3) (neg := true) fun _ _ => rfl
    refine ⟨?_, fun hk => roundsTo_down_neg hk hV h⟩
    rw [hf.inf_le_of_isUp h, overflows_down_iff, signOf_true, neg_one_mul, neg_lt_neg_iff]
    exact or_iff_left (by linarith)

theorem correctFR_of_rounded (hf : f.Proper) (hV : 0 < V) (hmode : mode < 4) {r : FR} (h : RoundedOnce f mode neg V r) :
    CorrectFR f mode (signOf neg * V) r := by
  obtain ⟨x, hlo, hhi, hval, hof, hix⟩ := h
  obtain ⟨hover, hround⟩ := roundedEnc_correct (neg := neg) hf hV hmode hlo hhi
  refine ⟨fun ho => ?_, fun hn => ?_⟩
  · have hinf := hover.1 ho
    exact ⟨by rw [hval, if_pos hinf, overflowTo_eq f hV hmode], hof.2 hinf, hix.2 (.inl hinf)⟩
  · have hinf := mt hover.2 hn
    rw [if_neg hinf] at hval
    obtain ⟨hfin, hvalue⟩ := fval_signed neg (not_le.1 hinf)
    rw [hval, hvalue]
    refine ⟨hfin, hround (not_le.1 hinf), not_not.1 (mt hof.1 hinf), hix.trans ?_⟩
    have hne : signOf neg ≠ 0 := by cases neg <;> simp
    rw [or_iff_right hinf, Ne, Ne, mul_right_inj' hne, mag_roundedEnc_eq_iff hhi]
end

/-! ### The operations -/

theorem finVal_ne_zero_iff {neg : Bool} {m : Nat} {e : Int} : finVal neg m e ≠ 0 ↔ m ≠ 0 := by
  have hne : signOf neg ≠ 0 := by cases neg <;> simp
  simp [finVal, hne, (two_zpow_pos e).ne']

theorem finVal_neg (neg : Bool) (m : Nat) (e : Int) : finVal (!neg) m e = -finVal neg m e := by cases neg <;> simp [finVal]

theorem finVal_mul (n1 n2 : Bool) (m1 m2 : Nat) (e1 e2 : Int) : finVal (n1 != n2) (m1 * m2) (e1 + e2) = finVal n1 m1 e1 * finVal n2 m2 e2 := by
  have hsign : signOf (n1 != n2) = signOf n1 * signOf n2 := by cases n1 <;> cases n2 <;> simp
  rw [finVal, finVal, finVal, hsign, zpow_add₀ two_ne_zero]
  push_cast
  ring

theorem finVal_div (n1 n2 : Bool) (m1 m2 : Nat) (e1 e2 : Int) :
    finVal n1 m1 e1 / finVal n2 m2 e2 = signOf (n1 != n2) * (m1 * 2 ^ e1 / (m2 * 2 ^ e2)) := by
  have hsign : signOf n1 / signOf n2 = signOf (n1 != n2) := by cases n1 <;> cases n2 <;> simp
  rw [finVal, finVal, mul_div_mul_comm, hsign]

/-- The quotient of two significands in whole units, the rest in the sticky bit. -/
theorem quotient_held {m1 m2 : Nat} {e1 e2 : Int} (h2 : m2 ≠ 0) (k : Nat) :
    Held (m1 * 2 ^ k / m2) (e1 - e2 - k) (m1 * 2 ^ k % m2 != 0) (m1 * 2 ^ e1 / (m2 * 2 ^ e2)) := by
  have hm2 : (0 : Rat) < m2 := Nat.cast_pos.2 (Nat.pos_of_ne_zero h2)
  have hu := two_zpow_pos (e1 - e2 - k)
  have hsplit : (m1 : Rat) * 2 ^ k = m2 * (m1 * 2 ^ k / m2 : Nat) + (m1 * 2 ^ k % m2 : Nat) := by
    exact_mod_cast (Nat.div_add_mod (m1 * 2 ^ k) m2).symm
  have hr : ((m1 * 2 ^ k % m2 : Nat) : Rat) < m2 := Nat.cast_lt.2 (Nat.mod_lt _ (Nat.pos_of_ne_zero h2))
  have hr0 : (0 : Rat) ≤ (m1 * 2 ^ k % m2 : Nat) := Nat.cast_nonneg _
  have hV : (m1 : Rat) * 2 ^ e1 / (m2 * 2 ^ e2) = ((m1 * 2 ^ k / m2 : Nat) + (m1 * 2 ^ k % m2 : Nat) / m2) * 2 ^ (e1 - e2 - k) := by
    have hexp : (2 : Rat) ^ e1 = 2 ^ (e1 - e2 - k) * 2 ^ k * 2 ^ e2 := by
      rw [← two_zpow_add_nat, ← zpow_add₀ two_ne_zero, sub_add_cancel, sub_add_cancel]
    have hne := (two_zpow_pos e2).ne'
    rw [hexp, div_eq_iff (mul_ne_zero hm2.ne' hne)]
    field_simp
    rw [hsplit, mul_comm]
  rw [hV]
  refine ⟨mul_le_mul_of_nonneg_right ?_ hu.le, mul_lt_mul_of_pos_right ?_ hu, ?_⟩
  · simpa using div_nonneg hr0 hm2.le
  · simpa using (div_lt_one hm2).2 hr
  · rw [Ne, mul_left_inj' hu.ne']
    simp [hm2.ne']

/-- The whole units of a quotient have at least two bits more than the fraction (R81). -/
theorem quotient_bits {m1 m2 : Nat} (h1 : m1 ≠ 0) (h2 : m2 ≠ 0) (p : Nat) : p < (m1 * 2 ^ (p + 4 + m2.log2) / m2).log2 := by
  have hle : 2 ^ (p + 3) ≤ m1 * 2 ^ (p + 4 + m2.log2) / m2 := by
    rw [Nat.le_div_iff_mul_le (Nat.pos_of_ne_zero h2)]
    calc 2 ^ (p + 3) * m2 ≤ 2 ^ (p + 3) * 2 ^ (m2.log2 + 1) := Nat.mul_le_mul_left _ Nat.lt_log2_self.le
      _ = 2 ^ (p + 4 + m2.log2) := by rw [← pow_add]; congr 1; omega
      _ ≤ m1 * 2 ^ (p + 4 + m2.log2) := Nat.le_mul_of_pos_left _ (Nat.pos_of_ne_zero h1)
  have hne : m1 * 2 ^ (p + 4 + m2.log2) / m2 ≠ 0 := (lt_of_lt_of_le (Nat.two_pow_pos _) hle).ne'
  have := (Nat.le_log2 hne).2 hle
  omega

theorem scaled_mul (neg : Bool) (m : Nat) {e q : Int} (h : q ≤ e) : (scaled neg m e q : Rat) * 2 ^ q = finVal neg m e := by
  obtain ⟨d, rfl⟩ : ∃ d : Nat, e = q + d := ⟨(e - q).toNat, by omega⟩
  unfold scaled finVal
  rw [two_zpow_add_nat, add_sub_cancel_left, Int.toNat_natCast]
  cases neg <;> simp <;> ring

section
variable {f : Fmt} (hf : f.Proper) {mode : Nat} (hmode : mode < 4)
include hf hmode

theorem roundTo_correct {neg : Bool} {m : Nat} {e : Int} (hm : m ≠ 0) : CorrectFR f mode (finVal neg m e) (roundTo f mode neg m e false) :=
  correctFR_of_rounded hf (mul_pos (Nat.cast_pos.2 (Nat.pos_of_ne_zero hm)) (two_zpow_pos e)) hmode
    (roundTo_rounded hf.2 (held_exact m e) hm (by simp) mode neg)

theorem roundFV_correct {neg : Bool} {m : Nat} {e : Int} (hm : m ≠ 0) (iv : Bool) :
    CorrectFR f mode (finVal neg m e) (roundFV f mode (.fin neg m e) iv) := by
  rw [roundFV, if_neg hm]
  exact roundTo_correct hf hmode hm

theorem roundInt_correct {x q : Int} (hx : x ≠ 0) : CorrectFR f mode (x * 2 ^ q) (roundInt f mode x q) := by
  have hval : (x : Rat) * 2 ^ q = finVal (x < 0) x.natAbs q := by
    unfold finVal signOf
    rcases lt_or_gt_of_ne hx with h | h
    · simp [h, Nat.cast_natAbs, abs_of_neg h]
    · simp [h.not_gt, Nat.cast_natAbs, abs_of_pos h]
  rw [hval]
  exact roundTo_correct hf hmode (Int.natAbs_ne_zero.2 hx)

theorem sumFin_correct {a b : Bool × Nat × Int} (h : finVal a.1 a.2.1 a.2.2 + finVal b.1 b.2.1 b.2.2 ≠ 0) :
    CorrectFR f mode (finVal a.1 a.2.1 a.2.2 + finVal b.1 b.2.1 b.2.2) (sumFin f mode a b) := by
  have hval : (((scaled a.1 a.2.1 a.2.2 (min a.2.2 b.2.2) + scaled b.1 b.2.1 b.2.2 (min a.2.2 b.2.2) : Int)) : Rat) *
      2 ^ min a.2.2 b.2.2 = finVal a.1 a.2.1 a.2.2 + finVal b.1 b.2.1 b.2.2 := by
    rw [Int.cast_add, add_mul, scaled_mul _ _ (min_le_left _ _), scaled_mul _ _ (min_le_right _ _)]
  have hne : scaled a.1 a.2.1 a.2.2 (min a.2.2 b.2.2) + scaled b.1 b.2.1 b.2.2 (min a.2.2 b.2.2) ≠ 0 := by
    intro h0
    rw [h0, Int.cast_zero, zero_mul] at hval
    exact h hval.symm
  unfold sumFin
  dsimp only
  rw [if_neg hne, ← hval]
  exact roundInt_correct hf hmode hne

theorem fDiv_correct {a b : Nat} {n1 n2 : Bool} {m1 m2 : Nat} {e1 e2 : Int} (ha : unpack f a = .fin n1 m1 e1)
    (hb : unpack f b = .fin n2 m2 e2) (h1 : m1 ≠ 0) (h2 : m2 ≠ 0) :
    CorrectFR f mode (finVal n1 m1 e1 / finVal n2 m2 e2) (fDiv f mode a b) := by
  have hbits := quotient_bits h1 h2 f.mb
  have hfin {m : Nat} (h : m ≠ 0) (e : Int) : (0 : Rat) < m * 2 ^ e := mul_pos (Nat.cast_pos.2 (Nat.pos_of_ne_zero h)) (two_zpow_pos e)
  have hpos : (0 : Rat) < m1 * 2 ^ e1 / (m2 * 2 ^ e2) := div_pos (hfin h1 e1) (hfin h2 e2)
  have hround := roundTo_rounded hf.2 (quotient_held h2 (f.mb + 4 + m2.log2) (m1 := m1) (e1 := e1) (e2 := e2))
    (fun h0 => by simp [h0] at hbits) (fun _ => hbits) mode (n1 != n2)
  rw [finVal_div, fDiv, ha, hb]
  simp only [if_neg h1, if_neg h2]
  exact correctFR_of_rounded hf hpos hmode hround

end

/-- The fused product-sum of finite values is a sum, of which the exact product is one addend. -/
theorem fFma_of_fin {f : Fmt} {mode a b c : Nat} {n1 n2 n3 : Bool} {m1 m2 m3 : Nat} {e1 e2 e3 : Int} (ha : unpack f a = .fin n1 m1 e1)
    (hb : unpack f b = .fin n2 m2 e2) (hc : unpack f c = .fin n3 m3 e3) :
    fFma f mode a b c = sumFin f mode (n1 != n2, m1 * m2, e1 + e2) (n3, m3, e3) := by
  rw [fFma, ha, hb, hc]
  exact Prod.ext rfl BitVec.or_zero

theorem proper_of_mem {f : Fmt} (h : f ∈ [f16, bf16, f32, f64]) : f.Proper := by
  simp only [List.mem_cons, List.not_mem_nil, or_false] at h
  rcases h with rfl | rfl | rfl | rfl <;> exact ⟨by decide, by decide⟩

/-- Settles O6: each operation rounds the exact value, taken as an integer multiple of a power of two or as a quotient with a sticky
bit, once to a neighbour in the order of the encodings. -/
theorem floatCorrectlyRounded : Obligations.FloatCorrectlyRounded := by
  intro f hmem mode hmode a b c ⟨n1, m1, e1, ha⟩ ⟨n2, m2, e2, hb⟩ ⟨n3, m3, e3, hc⟩
  have hf := proper_of_mem hmem
  rw [fval_of_fin ha, fval_of_fin hb, fval_of_fin hc]
  refine ⟨fun h => ?add, fun h => ?sub, fun h => ?mul, fun h => ?fma, fun h1 h2 => ?div⟩
  case add =>
    rw [fAdd, ha, hb]
    exact sumFin_correct hf hmode (a := (n1, m1, e1)) (b := (n2, m2, e2)) h
  case sub =>
    rw [fSub, ha, hb]
    rw [sub_eq_add_neg, ← finVal_neg] at h ⊢
    exact sumFin_correct hf hmode (a := (n1, m1, e1)) (b := (!n2, m2, e2)) h
  case mul =>
    rw [fMul, ha, hb]
    rw [← finVal_mul] at h ⊢
    exact roundFV_correct hf hmode (finVal_ne_zero_iff.1 h) _
  case fma =>
    rw [fFma_of_fin ha hb hc]
    rw [← finVal_mul] at h ⊢
    exact sumFin_correct hf hmode (a := (n1 != n2, m1 * m2, e1 + e2)) (b := (n3, m3, e3)) h
  case div => exact fDiv_correct hf hmode ha hb (finVal_ne_zero_iff.1 h1) (finVal_ne_zero_iff.1 h2)

end Sys2Proof.Machine
end

section
/-! Reductions, scans and random draws (R92, R93, R201, R202, R205). -/

namespace Sys2Proof.Machine

open Sys2Proof

/-- The fourth bit of the minor tells an exclusive scan from an inclusive one (R202). -/
theorem scanMinor_exclusive {n : Nat} (h : n < 16) : bit n 3 = true ↔ ¬ n < 8 := by
  rw [bit, decide_eq_true_iff]
  omega

/-- An exclusive scan gives each lane what the inclusive one gives the lane before it, and the identity to the first (R93). -/
theorem scanOut_getD {n : Nat} (h : n < 16) (e : Nat) (ys : List Nat) (l : Nat) :
    (if bit n 3 then e :: ys else ys).getD l 0 = if n < 8 then ys.getD l 0 else if l = 0 then e else ys.getD (l - 1) 0 := by
  by_cases hn : n < 8
  · rw [if_neg (mt (scanMinor_exclusive h).1 (not_not.2 hn)), if_pos hn]
  · rw [if_pos ((scanMinor_exclusive h).2 hn), if_neg hn]
    cases l <;> simp

/-- The global lane index of R94, in the two ways of counting the groups before. -/
theorem globalLane_eq (ix grp l : Nat) : ix * 16 * W + grp * W + l = 1024 * ix + 64 * grp + l := by
  simp only [W]
  omega

/-- VSCAN starts with the scan's values, moved on by a lane where it is exclusive (R202). -/
theorem vscan_does (f : Fld) : Does (.vscan f) always fun cx s =>
    let op := cx.f.mn.toNat % 8
    let r := scanTree (combine cx.ty op cx.m) 6 1 (redInput cx op) 0
    startOp s cx .reg (vWrite cx.ty cx.f.d.toNat cx.act fun l =>
      if cx.f.mn.toNat < 8 then r.1.getD l 0 else if l = 0 then identity cx.ty op cx.m else r.1.getD (l - 1) 0) r.2 := by
  refine Does.of_effect (fun _ => rfl) rfl fun cx s _ _ _ _ => ?_
  dsimp only
  generalize scanTree (combine cx.ty (cx.f.mn.toNat % 8) cx.m) 6 1 (redInput cx (cx.f.mn.toNat % 8)) 0 = r
  exact congrArg (fun out => Eff.done (startOp s cx .reg (vWrite cx.ty cx.f.d.toNat cx.act out) r.2))
    (funext (scanOut_getD cx.f.mn.isLt (identity cx.ty (cx.f.mn.toNat % 8) cx.m) r.1))

/-- Settles O9: VRED and VSCAN start with the tree's value over the contributing lanes, which a scan's exclusive form shifts by a lane;
RAND's effect is its draws and the counters' advance. -/
theorem reductionAndRandomResults : Obligations.ReductionAndRandomResults := by
  intro f ins
  refine ⟨?vred, ?vscan, ?rand⟩
  case vred => exact Does.of_effect (fun _ => rfl) rfl fun _ _ _ _ _ _ => rfl
  case vscan => exact vscan_does f
  case rand =>
    refine Does.of_effect (fun _ => rfl) rfl fun cx s hf hr _ _ => ?_
    simp only [globalLane_eq]
    rw [addFix_eq_fixAfter (by rw [latOf, hr])]

end Sys2Proof.Machine
end

section
/-! What an instruction of fixed latency that writes registers leaves alone (R72, R80, R132, R136, R153). -/

namespace Sys2Proof.Machine

open Sys2Proof

/-! ### The frames -/

/-- What has changed of the issuing group: results of its split for some registers are on their way, its clause stream has moved, flags
have merged only where `fl`, draw counters have moved only where `dr`. -/
structure GroupFrame (k : Nat) (rs : List Ref) (fl dr : Prop) (g h : Group) : Prop where
  fixes : ∃ added, h.fixes = g.fixes ++ added ∧ ∀ x ∈ added, x.split = k ∧ ∀ w ∈ x.wrs, w.ref ∈ rs
  counts : h.tk = g.tk ∧ h.f = g.f
  splits : sameSplits k g.splits h.splits
  registers : sameRegisters g { h with fpstat := g.fpstat, draw := g.draw }
  flags : ¬ fl → h.fpstat = g.fpstat
  draws : ¬ dr → h.draw = g.draw
  merged : h.fpstat ||| g.fpstat = h.fpstat

/-- What has changed of the issuing spool processor: some s registers and its clause stream. -/
structure SpoolFrame (rs : List Ref) (p q : Spool) : Prop where
  regs : ∀ r, Ref.s r ∉ rs → Tab.get 0 q.s r = Tab.get 0 p.s r
  rest : { q with
    s := p.s, regErr := p.regErr, regFlaw := p.regFlaw, pc := p.pc, cl := p.cl, block := p.block, notBefore := p.notBefore
    issued := p.issued } = p

/-- Everything else is as before. -/
structure ResultFrame (cx : Cx) (rs : List Ref) (fl dr : Prop) (s t : State) : Prop where
  rest : { t with groups := s.groups, wgs := s.wgs } = s
  others : sameOthers cx s t
  group : cx.onSpool = false → ∀ g, s.group? cx.gk = some g → ∃ h, t.group? cx.gk = some h ∧ GroupFrame cx.k rs fl dr g h
  spool : cx.onSpool = true → ∀ w p, s.wg? cx.wid = some w → w.spool = some p →
    ∃ w' p', t.wg? cx.wid = some w' ∧ w'.spool = some p' ∧ SpoolFrame rs p p'

section
variable {k : Nat} {rs : List Ref} {fl dr fl' dr' : Prop}

namespace GroupFrame

variable {g h i : Group}

/-- A change of the clause stream of split `k` alone. -/
theorem of_stream (hfix : h.fixes = g.fixes) (hcount : h.tk = g.tk ∧ h.f = g.f) (hspl : sameSplits k g.splits h.splits)
    (hreg : sameRegisters g { h with fpstat := g.fpstat, draw := g.draw }) (hfp : h.fpstat = g.fpstat) (hdraw : h.draw = g.draw) :
    GroupFrame k rs fl dr g h :=
  ⟨⟨[], by simp [hfix], by simp⟩, hcount, hspl, hreg, fun _ => hfp, fun _ => hdraw, by rw [hfp, BitVec.or_self]⟩

theorem refl (g : Group) : GroupFrame k rs fl dr g g := of_stream rfl ⟨rfl, rfl⟩ (.refl _ _) rfl rfl rfl

theorem trans (a : GroupFrame k rs fl dr g h) (b : GroupFrame k rs fl dr h i) : GroupFrame k rs fl dr g i := by
  obtain ⟨xs, hxs, hx⟩ := a.fixes
  obtain ⟨ys, hys, hy⟩ := b.fixes
  refine ⟨⟨xs ++ ys, by rw [hys, hxs, List.append_assoc], fun x hmem => (List.mem_append.1 hmem).elim (hx x) (hy x)⟩,
    ⟨b.counts.1.trans a.counts.1, b.counts.2.trans a.counts.2⟩, a.splits.trans b.splits, ?_,
    fun n => (b.flags n).trans (a.flags n), fun n => (b.draws n).trans (a.draws n), ?_⟩
  · exact a.registers.trans (congrArg (fun x : Group => { x with fpstat := g.fpstat, draw := g.draw }) b.registers :)
  · rw [← b.merged, BitVec.or_assoc, a.merged]

theorem mono (a : GroupFrame k rs fl dr g h) (hfl : fl → fl') (hdr : dr → dr') : GroupFrame k rs fl' dr' g h :=
  { a with flags := fun n => a.flags (mt hfl n), draws := fun n => a.draws (mt hdr n) }

end GroupFrame

namespace SpoolFrame

variable {p q r : Spool}

theorem trans (a : SpoolFrame rs p q) (b : SpoolFrame rs q r) : SpoolFrame rs p r := by
  refine ⟨fun n hn => (b.regs n hn).trans (a.regs n hn), ?_⟩
  rw [← a.rest, ← b.rest]

end SpoolFrame

namespace ResultFrame

variable {cx : Cx} {s t u : State}

theorem trans (a : ResultFrame cx rs fl dr s t) (b : ResultFrame cx rs fl dr t u) : ResultFrame cx rs fl dr s u := by
  refine ⟨?_, a.others.trans b.others, fun hn g hg => ?_, fun hs w p hw hp => ?_⟩
  · calc { u with groups := s.groups, wgs := s.wgs }
        = { { u with groups := t.groups, wgs := t.wgs } with groups := s.groups, wgs := s.wgs } := rfl
      _ = { t with groups := s.groups, wgs := s.wgs } := by rw [b.rest]
      _ = s := a.rest
  · obtain ⟨h, hh, hgh⟩ := a.group hn g hg
    obtain ⟨i, hi, hhi⟩ := b.group hn h hh
    exact ⟨i, hi, hgh.trans hhi⟩
  · obtain ⟨w1, p1, hw1, hp1, h1⟩ := a.spool hs w p hw hp
    obtain ⟨w2, p2, hw2, hp2, h2⟩ := b.spool hs w1 p1 hw1 hp1
    exact ⟨w2, p2, hw2, hp2, h1.trans h2⟩

theorem mono (a : ResultFrame cx rs fl dr s t) (hfl : fl → fl') (hdr : dr → dr') : ResultFrame cx rs fl' dr' s t :=
  { a with group := fun hn g hg => (a.group hn g hg).imp fun _ h => ⟨h.1, h.2.mono hfl hdr⟩ }

theorem of_onlyTurn (h : OnlyTurn cx.wid s t) : ResultFrame cx rs fl dr s t := by
  obtain ⟨-, hothers, -⟩ := IssueFrame.of_onlyTurn h
  obtain ⟨hrest, -, hown⟩ := h
  have hgroups : t.groups = s.groups := (congrArg State.groups hrest :)
  refine ⟨(congrArg (fun x : State => { x with groups := s.groups }) hrest :), hothers, fun _ g hg => ⟨g, ?_, .refl g⟩,
    fun _ w p hw hp => ?_⟩
  · rwa [State.group?, hgroups]
  · obtain ⟨w', hw', hturn⟩ := hown w hw
    exact ⟨w', p, hw', (congrArg Wg.spool hturn :).trans hp, fun _ _ => rfl, rfl⟩

theorem refl (s : State) : ResultFrame cx rs fl dr s s := of_onlyTurn (.refl _ _)

/-- A change of the issuing group. -/
theorem of_modGroup (hn : cx.onSpool = false) {f : Group → Group} (hf : ∀ g, GroupFrame cx.k rs fl dr g (f g)) :
    ResultFrame cx rs fl dr s (s.modGroup cx.gk f) := by
  refine ⟨rfl, ⟨fun j hj => ?_, fun _ _ => rfl, fun w hw => ⟨w, hw, rfl, fun _ => rfl⟩⟩, fun _ g hg => ⟨f g, ?_, hf g⟩,
    fun hs => absurd hs (by simp [hn])⟩
  · exact State.modGroup_group_of_ne s f (hj.resolve_right (by simp [hn]))
  · rw [State.modGroup_group_self, hg]
    rfl

/-- A change of the issuing spool processor. -/
theorem of_modSpool (hs : cx.onSpool = true) {f : Spool → Spool} (hf : ∀ p, SpoolFrame rs p (f p)) :
    ResultFrame cx rs fl dr s (s.modWg cx.wid fun x => { x with spool := x.spool.map f }) := by
  obtain ⟨-, hothers, -⟩ := IssueFrame.of_spool (s := s) hs (Option.map f)
  refine ⟨rfl, hothers, fun hn => absurd hs (by simp [hn]), fun _ w p hw hp => ?_⟩
  refine ⟨{ w with spool := w.spool.map f }, f p, ?_, by rw [hp]; rfl, hf p⟩
  rw [State.modWg_wg_self, hw]
  rfl

end ResultFrame

end

/-! ### The parts of an issue -/

/-- The context names the agent's own split, or its own workgroup. -/
def Cx.NamesAgent (cx : Cx) : Prop :=
  (∃ c sl, cx.ag = .group c sl cx.k ∧ cx.onSpool = false) ∨ (cx.ag = .spool cx.wid ∧ cx.onSpool = true)

theorem Group.writes_s_of_notMem {r : Nat} {ws : List Wr} (h : ∀ w ∈ ws, w.ref ≠ .s r) (g : Group) :
    Tab.get 0 (g.writes ws).s r = Tab.get 0 g.s r := by
  induction ws generalizing g with
  | nil => rfl
  | cons w ws ih =>
    refine (ih (fun x hx => h x (List.mem_cons_of_mem _ hx)) _).trans ?_
    have hw := h w List.mem_cons_self
    cases w with
    | s j x => exact Tab.get_put_of_ne 0 g.s x fun hr => hw (congrArg Ref.s hr.symm)
    | v j m xs => rfl
    | p j m x =>
      by_cases hj : j = 0 <;> simp [Group.write, hj]

theorem Spool.writes_frame {rs : List Ref} {ws : List Wr} (h : ∀ w ∈ ws, w.ref ∈ rs) (p : Spool) : SpoolFrame rs p (p.writes ws) :=
  ⟨fun _ hr => Group.writes_s_of_notMem (fun w hw heq => hr (heq ▸ h w hw)) _, rfl⟩

section
variable {cx : Cx} {rs : List Ref} {fl dr : Prop} (hcx : cx.NamesAgent) (s : State)
include hcx

theorem addFix_frame {ws : List Wr} (h : ∀ w ∈ ws, w.ref ∈ rs) : ResultFrame cx rs fl dr s (addFix s cx ws) := by
  rcases hcx with ⟨c, sl, hag, hn⟩ | ⟨hag, hs⟩
  · unfold addFix
    simp only [hag]
    refine .of_modGroup hn fun g =>
      ⟨⟨_, rfl, fun x hx => ?_⟩, ⟨rfl, rfl⟩, .refl _ _, rfl, fun _ => rfl, fun _ => rfl, BitVec.or_self⟩
    obtain rfl := List.mem_singleton.1 hx
    exact ⟨rfl, h⟩
  · unfold addFix
    simp only [hag]
    exact .of_modSpool hs (Spool.writes_frame h)

theorem advance_resultFrame : ResultFrame cx rs fl dr s (advance s cx) := by
  rcases hcx with ⟨c, sl, hag, hn⟩ | ⟨hag, hs⟩
  · unfold advance
    simp only [hag]
    refine .of_modGroup hn fun g => .of_stream rfl ⟨rfl, rfl⟩ ?_ rfl rfl rfl
    exact sameSplits_modify cx.k g.splits fun x => split_advance_stream x _ _ _
  · unfold advance
    simp only [hag]
    refine .of_modSpool hs fun p => ?_
    split
    · exact ⟨fun _ _ => rfl, rfl⟩
    · split <;> exact ⟨fun _ _ => rfl, rfl⟩

end

section
variable {cx : Cx} {rs : List Ref} {fl dr : Prop} (hn : cx.onSpool = false) (s : State)
include hn

theorem mergeFlags_frame (hfl : fl) (x : BitVec 5) : ResultFrame cx rs fl dr s (mergeFlags s cx.gk x) :=
  .of_modGroup hn fun g => ⟨⟨[], by simp, by simp⟩, ⟨rfl, rfl⟩, .refl _ _, rfl, fun n => absurd hfl n, fun _ => rfl, by
    rw [BitVec.or_assoc, BitVec.or_comm x, ← BitVec.or_assoc, BitVec.or_self]⟩

theorem draws_frame (hdr : dr) (f : Group → Tab Word) : ResultFrame cx rs fl dr s (s.modGroup cx.gk fun g => { g with draw := f g }) :=
  .of_modGroup hn fun g => ⟨⟨[], by simp, by simp⟩, ⟨rfl, rfl⟩, .refl _ _, rfl, fun _ => rfl, fun n => absurd hdr n, BitVec.or_self⟩

end

/-- What an agent has asked for concerns neither groups nor workgroups. -/
theorem forgetFar_with_groups (s : State) (ag : Agent) (gs : Tab Group) (ws : Tab Wg) :
    forgetFar { s with groups := gs, wgs := ws } ag = { forgetFar s ag with groups := gs, wgs := ws } := by
  unfold forgetFar
  change (match farOp? s ag with | some o => _ | none => _) = _
  cases farOp? s ag <;> rfl

theorem forgetFar_group (s : State) (ag : Agent) (k : Nat) : (forgetFar s ag).group? k = s.group? k := by
  rw [State.group?, (forgetFar_accessOnly s ag).groups, State.group?]

theorem forgetFar_wg (s : State) (ag : Agent) (w : Nat) : (forgetFar s ag).wg? w = s.wg? w := by
  rw [State.wg?, (forgetFar_accessOnly s ag).wgs, State.wg?]

theorem ResultFrame.forgetFar {cx : Cx} {rs : List Ref} {fl dr : Prop} {s t : State} (h : ResultFrame cx rs fl dr s t) (ag : Agent) :
    ResultFrame cx rs fl dr (forgetFar s ag) (forgetFar t ag) := by
  obtain ⟨hrest, ⟨hg, hw, hown⟩, hgroup, hspool⟩ := h
  refine ⟨?_, ?_, ?_, ?_⟩
  · rw [(forgetFar_accessOnly s ag).groups, (forgetFar_accessOnly s ag).wgs, ← forgetFar_with_groups, hrest]
  · simpa only [sameOthers, forgetFar_group, forgetFar_wg] using ⟨hg, hw, hown⟩
  · simpa only [forgetFar_group] using hgroup
  · simpa only [forgetFar_wg] using hspool

theorem completed_resultFrame {cx : Cx} (hcx : cx.NamesAgent) {rs : List Ref} {fl dr : Prop} {s u : State}
    (h : ResultFrame cx rs fl dr s u) : ResultFrame cx rs fl dr (forgetFar s cx.ag) (completed u cx) :=
  ((h.forgetFar cx.ag).trans (advance_resultFrame hcx _)).trans (.of_onlyTurn (afterIssue_onlyTurn _ _))

end Sys2Proof.Machine
end

section
/-! The register instructions one class after another, and their frame (R72, R80, R132, R136, R153, R261). -/

namespace Sys2Proof.Machine

open Sys2Proof

/-! ### What an instruction delivers -/

/-- An instruction whose effect is at most a result for some registers, with flags where it is a float instruction and draws where it is
RAND. -/
def Delivers (f : Fld) (i : Instr) (rs : List Ref) : Prop :=
  ∃ body r, (∀ s, exec i s = issue i s body) ∧ enc i = some (f, r) ∧
    ∀ cx s, cx.f = f → cx.NamesAgent → (cx.onSpool = true → i ∉ floatForms f ∧ i ≠ .rand f) →
      ∃ u, body cx s = .done u ∧ ResultFrame cx rs (i ∈ floatForms f) (i = .rand f) s u

namespace Delivers

variable {f : Fld} {i : Instr} {rs : List Ref} {body : Cx → State → Eff} {r : Row}

/-- A result on its way. -/
theorem fixed (hx : ∀ s, exec i s = issue i s body) (he : enc i = some (f, r))
    (hb : ∀ cx s, cx.f = f → ∃ ws, body cx s = .done (addFix s cx ws) ∧ ∀ w ∈ ws, w.ref ∈ rs) : Delivers f i rs := by
  refine ⟨body, r, hx, he, fun cx s hf hcx _ => ?_⟩
  obtain ⟨ws, hws, href⟩ := hb cx s hf
  exact ⟨_, hws, addFix_frame hcx s href⟩

/-- A result on its way, or without an active lane none (R180). -/
theorem fixedIfActive (hx : ∀ s, exec i s = issue i s body) (he : enc i = some (f, r))
    (hb : ∀ cx s, cx.f = f → ∃ ws, body cx s = .done (if cx.act = 0 then s else addFix s cx ws) ∧ ∀ w ∈ ws, w.ref ∈ rs) :
    Delivers f i rs := by
  refine ⟨body, r, hx, he, fun cx s hf hcx _ => ?_⟩
  obtain ⟨ws, hws, href⟩ := hb cx s hf
  refine ⟨_, hws, ?_⟩
  split
  · exact .refl s
  · exact addFix_frame hcx s href

theorem not_onSpool_of_float {cx : Cx} (hi : i ∈ floatForms f) (h : cx.onSpool = true → i ∉ floatForms f ∧ i ≠ .rand f) :
    cx.onSpool = false :=
  Bool.eq_false_iff.2 fun hs => (h hs).1 hi

/-- A result on its way, with flags. -/
theorem float (hi : i ∈ floatForms f) (hx : ∀ s, exec i s = issue i s body) (he : enc i = some (f, r))
    (hb : ∀ cx s, cx.f = f → ∃ ws fl, body cx s = .done (addFixF s cx ws fl) ∧ ∀ w ∈ ws, w.ref ∈ rs) : Delivers f i rs := by
  refine ⟨body, r, hx, he, fun cx s hf hcx hs => ?_⟩
  obtain ⟨ws, fl, hws, href⟩ := hb cx s hf
  exact ⟨_, hws, (addFix_frame hcx s href).trans (mergeFlags_frame (not_onSpool_of_float hi hs) _ hi fl)⟩

end Delivers

/-! ### The registers that results name -/

theorem refs_singleton {w : Wr} {rs : List Ref} (h : w.ref ∈ rs) : ∀ x ∈ [w], x.ref ∈ rs := List.forall_mem_singleton.2 h

/-- The 64-bit types are those with a register pair (R72). -/
theorem tyBits_eq_64_iff (ty : Nat) : tyBits ty = 64 ↔ wideTy ty = true := by
  unfold tyBits
  constructor
  · intro h
    split at h
    · omega
    · split at h
      · omega
      · split at h
        · assumption
        · omega
  · intro h
    have hty : ty = 9 ∨ ty = 10 ∨ ty = 11 := by simpa [wideTy, or_assoc] using h
    rcases hty with rfl | rfl | rfl <;> rfl

section
variable {f : Fld} {cx : Cx} (hf : cx.f = f)
include hf

theorem sWrite_refs (x : Nat) : ∀ w ∈ sWrite cx.ty cx.f.d.toNat x, w.ref ∈ sPlace f.ty.toNat f.d.toNat := by
  subst hf
  unfold sWrite sPlace
  by_cases h : wideTy cx.f.ty.toNat = true <;> simp [tyBits_eq_64_iff, Cx.ty, h, Wr.ref]

theorem vWrite_refs (m : Mask) (x : Nat → Nat) : ∀ w ∈ vWrite cx.ty cx.f.d.toNat m x, w.ref ∈ vPlace f.ty.toNat f.d.toNat := by
  subst hf
  unfold vWrite vPlace
  by_cases h : wideTy cx.f.ty.toNat = true <;> simp [tyBits_eq_64_iff, Cx.ty, h, Wr.ref]

theorem recWrs_refs {n : Nat} (h : n ≤ 20) (xs : List (Nat × List Word)) :
    ∀ w ∈ recWrs cx.f.d.toNat n xs, w.ref ∈ (List.range 20).map fun j => Ref.v (f.d.toNat + j) := by
  subst hf
  intro w hw
  obtain ⟨j, hj, rfl⟩ := List.mem_map.1 hw
  exact List.mem_map.2 ⟨j, List.mem_range.2 ((List.mem_range.1 hj).trans_le h), rfl⟩

end

/-! ### The classes -/

/-- The scalar forms that write their result whatever lanes are active. -/
def plainScalarForms (f : Fld) : List Instr :=
  [.sadd f, .ssub f, .smin f, .smax f, .sand f, .sor f, .sxor f, .snot f, .sshl f, .sshr f, .smul f, .smulh f, .smad f, .ssel f, .sli f,
   .sbfe f, .sbfi f, .getsr f]
/-- The vector forms without flags. -/
def plainVectorForms (f : Fld) : List Instr :=
  [.vadd f, .vsub f, .vmin f, .vmax f, .vabs f, .vmul f, .vmulh f, .vmad f, .vand f, .vor f, .vxor f, .vnot f, .vshl f, .vshr f, .vbrev f,
   .vsel f, .vli f, .vbfe f, .vbfi f, .vbrevFld f, .getsrVector f, .vwritel f]
/-- The vector forms with flags. -/
def floatVectorForms (f : Fld) : List Instr :=
  [.fadd f, .fsub f, .fmul f, .fmin f, .fmax f, .fldexp f, .ffma f, .frnd f, .cvt f]

theorem scalarForms_eq (f : Fld) : scalarForms f = plainScalarForms f ++ [.vreadl f] := rfl

theorem vectorForms_eq (f : Fld) : vectorForms f = plainVectorForms f ++ floatVectorForms f ++ [.shfl f, .qswz f, .qbc f] := rfl

theorem floatVectorForms_subset (f : Fld) : floatVectorForms f ⊆ floatForms f := by
  simp [floatVectorForms, floatForms]

section
variable {f : Fld} {i : Instr}

theorem plainScalarForms_deliver (h : i ∈ plainScalarForms f) : Delivers f i (sPlace f.ty.toNat f.d.toNat) := by
  simp only [plainScalarForms, List.mem_cons, List.not_mem_nil, or_false] at h
  rcases h with rfl | rfl | rfl | rfl | rfl | rfl | rfl | rfl | rfl | rfl | rfl | rfl | rfl | rfl | rfl | rfl | rfl | rfl
  all_goals exact .fixed (fun _ => rfl) rfl fun cx s hf => ⟨_, rfl, sWrite_refs hf _⟩

theorem scalarForms_deliver (h : i ∈ scalarForms f) : Delivers f i (sPlace f.ty.toNat f.d.toNat) := by
  rw [scalarForms_eq, List.mem_append] at h
  rcases h with h | h
  · exact plainScalarForms_deliver h
  · obtain rfl := List.mem_singleton.1 h
    exact .fixedIfActive (fun _ => rfl) rfl fun cx s hf => ⟨_, rfl, sWrite_refs hf _⟩

theorem plainVectorForms_deliver (h : i ∈ plainVectorForms f) : Delivers f i (vPlace f.ty.toNat f.d.toNat) := by
  simp only [plainVectorForms, List.mem_cons, List.not_mem_nil, or_false] at h
  rcases h with rfl | rfl | rfl | rfl | rfl | rfl | rfl | rfl | rfl | rfl | rfl | rfl | rfl | rfl | rfl | rfl | rfl | rfl | rfl | rfl |
    rfl | rfl
  all_goals exact .fixed (fun _ => rfl) rfl fun cx s hf => ⟨_, rfl, vWrite_refs hf _ _⟩

theorem floatVectorForms_deliver (h : i ∈ floatVectorForms f) : Delivers f i (vPlace f.ty.toNat f.d.toNat) := by
  have hfloat := floatVectorForms_subset f h
  simp only [floatVectorForms, List.mem_cons, List.not_mem_nil, or_false] at h
  rcases h with rfl | rfl | rfl | rfl | rfl | rfl | rfl | rfl | rfl
  all_goals exact .float hfloat (fun _ => rfl) rfl fun cx s hf => ⟨_, _, rfl, vWrite_refs hf _ _⟩

theorem vectorForms_deliver (h : i ∈ vectorForms f) : Delivers f i (vPlace f.ty.toNat f.d.toNat) := by
  rw [vectorForms_eq, List.mem_append, List.mem_append] at h
  rcases h with (h | h) | h
  · exact plainVectorForms_deliver h
  · exact floatVectorForms_deliver h
  · simp only [List.mem_cons, List.not_mem_nil, or_false] at h
    rcases h with rfl | rfl | rfl
    all_goals exact .fixed (fun _ => rfl) rfl fun cx s hf => ⟨_, rfl, vWrite_refs hf _ _⟩

theorem fcmp_delivers (f : Fld) : Delivers f (.fcmp f) [.p (f.d.toNat % 8)] :=
  .float (by simp [floatForms]) (fun _ => rfl) rfl fun cx s hf => ⟨_, _, rfl, by subst hf; exact refs_singleton List.mem_cons_self⟩

theorem predicateForms_deliver (h : i ∈ predicateForms f) : Delivers f i [.p (f.d.toNat % 8)] := by
  simp only [predicateForms, List.mem_cons, List.not_mem_nil, or_false] at h
  rcases h with rfl | rfl | rfl | rfl | rfl | rfl | rfl | rfl
  case inr.inl => exact fcmp_delivers f
  all_goals exact .fixed (fun _ => rfl) rfl fun cx s hf => ⟨_, rfl, by subst hf; exact refs_singleton List.mem_cons_self⟩

theorem scalar32_delivers (h : i ∈ [Instr.sclz f, .spop f, .scmp f, .smov f]) : Delivers f i [.s f.d.toNat] := by
  simp only [List.mem_cons, List.not_mem_nil, or_false] at h
  rcases h with rfl | rfl | rfl | rfl
  all_goals exact .fixed (fun _ => rfl) rfl fun cx s hf => ⟨_, rfl, by subst hf; exact refs_singleton List.mem_cons_self⟩

theorem vector32_delivers (h : i ∈ [Instr.vclz f, .vpop f, .vmov f, .fclass f]) : Delivers f i [.v f.d.toNat] := by
  simp only [List.mem_cons, List.not_mem_nil, or_false] at h
  rcases h with rfl | rfl | rfl | rfl
  all_goals exact .fixed (fun _ => rfl) rfl fun cx s hf => ⟨_, rfl, by subst hf; exact refs_singleton List.mem_cons_self⟩

theorem float32_delivers (h : i ∈ [Instr.pack2 f, .rhit f]) : Delivers f i [.v f.d.toNat] := by
  have hfloat : i ∈ floatForms f := by
    simp only [List.mem_cons, List.not_mem_nil, or_false] at h
    rcases h with rfl | rfl <;> simp [floatForms]
  simp only [List.mem_cons, List.not_mem_nil, or_false] at h
  rcases h with rfl | rfl
  all_goals exact .float hfloat (fun _ => rfl) rfl fun cx s hf => ⟨_, _, rfl, by subst hf; exact refs_singleton List.mem_cons_self⟩

end

theorem rand_delivers (f : Fld) : Delivers f (.rand f) [.v f.d.toNat] := by
  refine ⟨_, _, fun _ => rfl, rfl, fun cx s hf hcx hs => ?_⟩
  subst hf
  have hn : cx.onSpool = false := Bool.eq_false_iff.2 fun h => (hs h).2 rfl
  refine ⟨_, rfl, (addFix_frame hcx s (refs_singleton ?_)).trans (draws_frame hn _ rfl _)⟩
  exact List.mem_cons_self

theorem voteBallot_delivers (f : Fld) : Delivers f (.voteBallot f) [.s f.d.toNat, .s (f.d.toNat + 1)] :=
  .fixedIfActive (fun _ => rfl) rfl fun cx s hf => ⟨_, rfl, by subst hf; simp [sWrite, wideTy, Wr.ref]⟩

theorem unpk2_delivers (f : Fld) : Delivers f (.unpk2 f) [.v f.d.toNat, .v (f.d.toNat + 1)] :=
  .float (by simp [floatForms]) (fun _ => rfl) rfl fun cx s hf => ⟨_, _, rfl, by subst hf; simp [vWrite32, vWrite, wideTy, Wr.ref]⟩

theorem rcvt_delivers (f : Fld) : Delivers f (.rcvt f) ((List.range 20).map fun j => .v (f.d.toNat + j)) :=
  .fixed (fun _ => rfl) rfl fun cx s hf => ⟨_, rfl, recWrs_refs hf (by split <;> decide) _⟩

/-- Every instruction of fixed latency that writes registers delivers a result for the registers that D names. -/
theorem registerForms_deliver {f : Fld} {e : Instr × List Ref} (h : e ∈ registerForms f) : Delivers f e.1 e.2 := by
  simp only [registerForms, List.flatten_cons, List.flatten_nil, List.append_nil, List.mem_append, List.mem_map] at h
  rcases h with ⟨i, hi, rfl⟩ | ⟨i, hi, rfl⟩ | ⟨i, hi, rfl⟩ | ⟨i, hi, rfl⟩ | ⟨i, hi, rfl⟩ | h
  · exact scalarForms_deliver hi
  · exact vectorForms_deliver hi
  · exact predicateForms_deliver hi
  · exact scalar32_delivers hi
  · have hsplit : i ∈ [Instr.vclz f, .vpop f, .vmov f, .fclass f] ∨ i ∈ [Instr.pack2 f, .rhit f] ∨ i = .rand f := by
      simp only [List.mem_cons, List.not_mem_nil, or_false] at hi ⊢
      tauto
    rcases hsplit with hi | hi | rfl
    · exact vector32_delivers hi
    · exact float32_delivers hi
    · exact rand_delivers f
  · simp only [List.mem_cons, List.not_mem_nil, or_false] at h
    rcases h with rfl | rfl | rfl
    · exact voteBallot_delivers f
    · exact unpk2_delivers f
    · exact rcvt_delivers f

/-! ### The obligation -/

/-- The whole issue of a register instruction moves only what its result does. -/
theorem issue_resultFrame {f : Fld} {i : Instr} {rs : List Ref} (hd : Delivers f i rs) {s : State} {cx : Cx} {s1 t : State}
    (h : issuable i s = some (cx, s1)) (hs : cx.onSpool = true → i ∉ floatForms f ∧ i ≠ .rand f) (ht : exec i s = .next t) :
    ResultFrame cx rs (i ∈ floatForms f) (i = .rand f) (forgetFar s1 cx.ag) t := by
  obtain ⟨body, r, hx, he, hbody⟩ := hd
  have hcx : cx.NamesAgent := issuable_agent h
  obtain ⟨u, hu, hframe⟩ := hbody cx s1 (issuable_row he h).1 hcx hs
  rw [hx, issue_done h hu] at ht
  obtain rfl := Host.Outcome.next.inj ht
  exact completed_resultFrame hcx hframe

/-- Settles O58: each of the instructions delivers at most a result, flags and draws, and the rest of its issue moves its own clause
stream and the turn. -/
theorem registerInstructionFrame : Obligations.RegisterInstructionFrame := by
  intro f e he s cx s1 t h hs ht
  obtain ⟨hrest, hothers, hgroup, hspool⟩ := issue_resultFrame (registerForms_deliver he) h hs ht
  simp only [forgetFar_group, forgetFar_wg, sameOthers, (forgetFar_accessOnly s1 cx.ag).groups, (forgetFar_accessOnly s1 cx.ag).wgs] at *
  have hmem : t.mem = s1.mem := (congrArg State.mem hrest :).trans (forgetFar_mem s1 cx.ag)
  refine ⟨hrest, byte_of_mem hmem, hothers, fun hn g hg => ?_, fun hsp w p w' p' hw hp hw' hp' => ?_⟩
  · obtain ⟨i, hi, ⟨added, hadd, hrefs⟩, ⟨htk, hf⟩, hsplits, hregs, hflags, hdraws, hmerged⟩ := hgroup hn g hg
    refine ⟨i, added, hi, hadd, hrefs, htk, hf, hsplits, ?_, hmerged⟩
    rw [ite_eq_left_iff.2 hflags, ite_eq_left_iff.2 hdraws]
    exact hregs
  · obtain ⟨w1, p1, hw1, hp1, hregs, hkeep⟩ := hspool hsp w p hw hp
    obtain rfl := Option.some.inj (hw'.symm.trans hw1)
    obtain rfl := Option.some.inj (hp'.symm.trans hp1)
    exact ⟨hregs, hkeep⟩

end Sys2Proof.Machine
end

section
/-! Decoding an encoding gives the instruction back (R127 to R131). -/

namespace Sys2Proof

open Sys2Proof.Machine

/-! ### The opcode map -/

/-- The opcode map leads from every row back to its instruction: by their own laws the rows with several minors or variants. -/
theorem opcodeMap (i : Instr) : Laws.OpcodeMap.Statement i := by
  cases i with
  | scmp f => exact Laws.OpcodeMap.scmp f
  | vadd f => exact Laws.OpcodeMap.vadd f
  | vsub f => exact Laws.OpcodeMap.vsub f
  | vcmp f => exact Laws.OpcodeMap.vcmp f
  | fadd f => exact Laws.OpcodeMap.fadd f
  | fsub f => exact Laws.OpcodeMap.fsub f
  | fmul f => exact Laws.OpcodeMap.fmul f
  | fldexp f => exact Laws.OpcodeMap.fldexp f
  | ffma f => exact Laws.OpcodeMap.ffma f
  | fcmp f => exact Laws.OpcodeMap.fcmp f
  | frcp f => exact Laws.OpcodeMap.frcp f
  | frsq f => exact Laws.OpcodeMap.frsq f
  | fsqrt f => exact Laws.OpcodeMap.fsqrt f
  | fdiv f => exact Laws.OpcodeMap.fdiv f
  | fexp2 f => exact Laws.OpcodeMap.fexp2 f
  | flog2 f => exact Laws.OpcodeMap.flog2 f
  | fsin f => exact Laws.OpcodeMap.fsin f
  | fcos f => exact Laws.OpcodeMap.fcos f
  | frnd f => exact Laws.OpcodeMap.frnd f
  | cvt f => exact Laws.OpcodeMap.cvt f
  | cvtkb f => exact Laws.OpcodeMap.cvtkb f
  | pack2 f => exact Laws.OpcodeMap.pack2 f
  | pand f => exact Laws.OpcodeMap.pand f
  | por f => exact Laws.OpcodeMap.por f
  | pxor f => exact Laws.OpcodeMap.pxor f
  | pnot f => exact Laws.OpcodeMap.pnot f
  | shfl f => exact Laws.OpcodeMap.shfl f
  | vred f => exact Laws.OpcodeMap.vred f
  | vscan f => exact Laws.OpcodeMap.vscan f
  | tiget f => exact Laws.OpcodeMap.tiget f
  | ld f => exact Laws.OpcodeMap.ld f
  | st f => exact Laws.OpcodeMap.st f
  | lds f => exact Laws.OpcodeMap.lds f
  | sts f => exact Laws.OpcodeMap.sts f
  | atom f => exact Laws.OpcodeMap.atom f
  | atomOrd f => exact Laws.OpcodeMap.atomOrd f
  | lcopy f => exact Laws.OpcodeMap.lcopy f
  | coll f => exact Laws.OpcodeMap.coll f
  | rcvt f => exact Laws.OpcodeMap.rcvt f
  | rhit f => exact Laws.OpcodeMap.rhit f
  | tstat f => exact Laws.OpcodeMap.tstat f
  | _ => first | exact opcodeMap_event rfl | exact opcodeMap_single rfl rfl rfl rfl

/-- The one-parcel rows are those of the one-parcel opcodes (R146), which have no variant. -/
theorem row_oneParcel {i : Instr} {f : Fld} {r : Row} (he : enc i = some (f, r)) :
    oneParcel r.op.toNat = decide (r.len = .one) ∧ (r.len = .one → r.ms = [0]) := by
  cases i with
  | _ =>
    first
    | cases (show none = some (f, r) from he)
    | obtain ⟨rfl, rfl⟩ := Prod.mk.inj (Option.some.inj he)
      exact ⟨rfl, by decide⟩

/-! ### What the clause check leaves -/

theorem lowest_eq_none {l : List Nat} (h : lowest l = none) : l = [] := by
  cases l with
  | nil => rfl
  | cons x xs =>
    rw [lowest] at h
    split at h <;> cases h

theorem failIf_eq_nil {c : Bool} {n : Nat} : failIf c n = [] ↔ c = false := by
  cases c <;> simp [failIf]

/-- The check of field M (R383): a form of more than one parcel against which there is no reason is one of its row's variants. -/
theorem variant_of_noReason {i : Instr} {f : Fld} {r : Row} (he : enc i = some (f, r)) (hp : oneParcel r.op.toNat = false)
    (hl : lenCode r f ≠ 0) (h : encReason i (lenCode r f) {} = none) : f.m.toNat ∈ r.ms := by
  have hr := lowest_eq_none h
  simp only [reasons, he, hp, hl, List.append_eq_nil_iff, failIf_eq_nil, ne_eq, not_false_eq_true, decide_true, Bool.not_false,
    Bool.and_self, if_true] at hr
  obtain ⟨-, ⟨⟨-, hzero⟩, hlisted⟩, -⟩ := hr
  by_cases hs : r.ms = [0]
  · have hm : f.m = 0 := by simpa [hs] using hzero
    simp [hs, hm]
  · simpa [hs] using hlisted

/-- Fields that the parcels of a row's instruction carry: minor and variant are the row's, and where R129 gives no literal or no second
parcel, the fields it would hold are zero. -/
structure Encodable (f : Fld) (r : Row) : Prop where
  minor : f.mn.toNat ∈ r.mins
  variant : f.m.toNat ∈ r.ms
  literal : lenCode r f ≠ 2 → f.lit = 0
  second : r.len = .one → f.b = 0 ∧ f.c = 0 ∧ f.mn = 0 ∧ f.ty = 0 ∧ f.tk = 0 ∧ f.m = 0

theorem lenCode_eq_zero {r : Row} {f : Fld} : lenCode r f = 0 ↔ r.len = .one := by
  unfold lenCode
  cases r.len with
  | lit => simp; split <;> decide
  | _ => simp

theorem lenCode_cases (r : Row) (f : Fld) : lenCode r f = 0 ∨ lenCode r f = 1 ∨ lenCode r f = 2 := by
  unfold lenCode
  cases r.len with
  | lit => dsimp only; split <;> decide
  | _ => simp

theorem encodable_of_wellFormed {i : Instr} {f : Fld} {r : Row} (he : enc i = some (f, r)) (h : i.wellFormed = true) :
    Encodable f r ∧ encReason i (lenCode r f) {} = none := by
  simp only [Instr.wellFormed, Instr.absentZero, Instr.noReason, he, Bool.and_eq_true, Bool.or_eq_true, decide_eq_true_eq,
    beq_iff_eq, bne_iff_ne, Option.isNone_iff_eq_none] at h
  obtain ⟨⟨⟨⟨hmn, hlit⟩, hone⟩, hr⟩, -⟩ := h
  have hsecond (ho : r.len = .one) : f.b = 0 ∧ f.c = 0 ∧ f.mn = 0 ∧ f.ty = 0 ∧ f.tk = 0 ∧ f.m = 0 := by
    simpa [ho, and_assoc] using hone
  refine ⟨⟨hmn, ?_, hlit.resolve_left, hsecond⟩, hr⟩
  by_cases ho : r.len = .one
  · simp [(row_oneParcel he).2 ho, (hsecond ho).2.2.2.2.2]
  · refine variant_of_noReason he ?_ (mt lenCode_eq_zero.1 ho) hr
    simp [(row_oneParcel he).1, ho]

/-! ### Parcels and bytes -/

/-- A literal or a second parcel that is not there reads as zero, as the fields it would carry are. -/
theorem rawFld_encoding {i : Instr} {f : Fld} {r : Row} (he : enc i = some (f, r)) (h : Encodable f r) (l : BitVec 2) (p1 p2 : Word)
    (hl : l.toNat = lenCode r f) (h1 : l.toNat ≠ 0 → p1 = parcel1 f) (h2 : l.toNat = 2 → p2 = f.lit) :
    rawFld (parcel0 f r.op l) (if l.toNat = 0 ∨ oneParcel r.op.toNat then 0 else p1)
      (if l.toNat = 2 ∧ oneParcel r.op.toNat = false then p2 else 0) = f := by
  have hp : oneParcel r.op.toNat = decide (l.toNat = 0) := by
    rw [(row_oneParcel he).1, hl]
    simp only [lenCode_eq_zero]
  rcases lenCode_cases r f with hc | hc | hc <;> rw [hc] at hl
  · obtain ⟨hb, hcc, hmn, hty, htk, hm⟩ := h.second (lenCode_eq_zero.1 hc)
    have hlit := h.literal (by omega)
    rw [if_pos (Or.inl hl), if_neg (by simp [hl]), rawFld_parcel0]
    cases f
    simp_all only
  · have hlit := h.literal (by omega)
    rw [if_neg (by simp [hp, hl]), if_neg (by simp [hl]), h1 (by simp [hl]), rawFld_parcels, ← hlit]
  · rw [if_neg (by simp [hp, hl]), if_pos (by simp [hp, hl]), h1 (by simp [hl]), h2 hl, rawFld_parcels]

/-- The parcels of an encoding, read as L says, name the instruction before its checks. -/
theorem rawDecode_parcels {i : Instr} {f : Fld} {r : Row} (he : enc i = some (f, r)) (h : Encodable f r) (l : BitVec 2) (p1 p2 : Word)
    (hl : l.toNat = lenCode r f) (h1 : l.toNat ≠ 0 → p1 = parcel1 f) (h2 : l.toNat = 2 → p2 = f.lit) :
    rawDecode (parcel0 f r.op l) p1 p2 = .ok i := by
  have hf := rawFld_encoding he h l p1 p2 hl h1 h2
  have hl3 : l.toNat ≠ 3 := by rcases lenCode_cases r f with hc | hc | hc <;> omega
  simp only [rawDecode, lenOf_parcel0, opOf_parcel0, hl3, if_false, hf]
  exact opcodeMap i f r he h.minor h.variant

theorem decodeParcels_parcels {i : Instr} {f : Fld} {r : Row} (he : enc i = some (f, r)) (h : i.wellFormed = true) (l : BitVec 2)
    (p1 p2 : Word) (hl : l.toNat = lenCode r f) (h1 : l.toNat ≠ 0 → p1 = parcel1 f) (h2 : l.toNat = 2 → p2 = f.lit) :
    decodeParcels {} (parcel0 f r.op l) p1 p2 = .ok i := by
  obtain ⟨henc, hr⟩ := encodable_of_wellFormed he h
  simp only [decodeParcels, rawDecode_parcels he henc l p1 p2 hl h1 h2, lenOf_parcel0, hl, hr]

/-- Bytes whose parcels give an instruction decode to it. -/
theorem decode_of_parcels {i : Instr} {p0 p1 p2 : Word} {bs rest : List Byte} (ht : takeRest (lenOf p0) bs = some (p1, p2, rest))
    (h3 : lenOf p0 ≠ 3) (hd : decodeParcels {} p0 p1 p2 = .ok i) : decode (bytesOfWord p0 ++ bs) = .ok (i, rest) := by
  simp only [decode, takeWord_bytesOfWord, h3, if_false, ht, hd]

/-- Settles O52: the parcels that L counts are read back, their fields are the instruction's, the opcode map leads back to it and no
reason stands against it. -/
theorem decodeEncodeRoundTrip : Obligations.DecodeEncodeRoundTrip := by
  intro i rest hw hs
  obtain ⟨⟨f, r⟩, he⟩ := Option.isSome_iff_exists.1 hs
  have hd := decodeParcels_parcels he hw
  rcases lenCode_cases r f with hc | hc | hc
  · have hb : encodeBytes i = bytesOfWord (parcel0 f r.op 0) := by simp [encodeBytes, encode, he, hc]
    rw [hb]
    exact decode_of_parcels (by simp [takeRest]) (by simp) (hd 0 0 0 hc.symm (by simp) (by simp))
  · have hb : encodeBytes i ++ rest = bytesOfWord (parcel0 f r.op 1) ++ (bytesOfWord (parcel1 f) ++ rest) := by
      simp [encodeBytes, encode, he, hc]
    rw [hb]
    exact decode_of_parcels (by simp [takeRest, takeWord_bytesOfWord]) (by simp) (hd 1 _ 0 hc.symm (fun _ => rfl) (by simp))
  · have hb : encodeBytes i ++ rest = bytesOfWord (parcel0 f r.op 2) ++ (bytesOfWord (parcel1 f) ++ (bytesOfWord f.lit ++ rest)) := by
      simp [encodeBytes, encode, he, hc]
    rw [hb]
    exact decode_of_parcels (by simp [takeRest, takeWord_bytesOfWord]) (by simp) (hd 2 _ _ hc.symm (fun _ => rfl) (fun _ => rfl))

/-! ### Words of the encoding tables -/

/-- Bytes that are an encoding decode to what they encode. -/
theorem decode_of_eq_encodeBytes {bs : List Byte} {i : Instr} (hb : bs = encodeBytes i) (hw : i.wellFormed = true)
    (hs : (enc i).isSome = true) : decode bs = .ok (i, []) := by
  rw [hb, ← List.append_nil (encodeBytes i)]
  exact decodeEncodeRoundTrip i [] hw hs

/-- Settles O51: the words are the encodings of their instructions; the last one has L = 3. -/
theorem decodesSpecWords : Obligations.DecodesSpecWords := by
  refine ⟨?_, ?_, ?_, ?_, ?_, ?_, ?_, by decide⟩
  all_goals exact decode_of_eq_encodeBytes (by decide) (by decide) (by decide)

end Sys2Proof
end

section
/-! Jumps, calls and branches on a predicate (R155, R156, R160). -/

namespace Sys2Proof.Machine

open Sys2Proof

/-! ### A transfer to an address -/

theorem jumpTo_of_fetchable {s : State} {cx : Cx} {a : DWord} (h : targetOk s cx a = none) : jumpTo s cx a = .jump (atAddr s cx a) := by
  rw [jumpTo, h, setPc_eq_atAddr]

theorem jumpTo_of_fault {s : State} {cx : Cx} {a : DWord} {x : Trap} (h : targetOk s cx a = some x) : jumpTo s cx a = .trap x := by
  rw [jumpTo, h]

/-- An instruction whose effect is the fault of a fetch raises it. -/
theorem exec_of_fetchFault {i : Instr} {s : State} {cx : Cx} {s1 s2 : State} {a : DWord} {x : Trap} {body : Cx → State → Eff}
    (hx : exec i s = issue i s body) (h : issuable i s = some (cx, s1)) (ht : targetOk s2 cx a = some x)
    (hb : body cx s1 = jumpTo s2 cx a) : exec i s = .next (trappedAt s1 cx x) := by
  obtain ⟨hfar, hlate⟩ := targetOk_some ht
  rw [hx]
  exact issue_trap h (hb.trans (jumpTo_of_fault ht)) hfar hlate

/-! ### Calls -/

/-- The result of a CALL: the next header's address is on its way to D, with latency 2 (R160). -/
theorem addFix_linkWrites {f : Fld} {s : State} {cx : Cx} {s1 : State} (h : issuable (.call f) s = some (cx, s1)) :
    addFix s1 cx (linkWrites cx) = fixAfter 2 s1 cx (sWrite 10 cx.f.d.toNat cx.next.toNat) := by
  obtain ⟨-, hr, -⟩ := issuable_row (i := .call f) rfl h
  exact addFix_eq_fixAfter (by rw [latOf, hr]) s1 _

/-! ### Branches on a predicate -/

/-- The lanes of a split that are no helper lanes, and those of them in which the predicate holds. -/
theorem popMask_eq_lanesWith (cx : Cx) : popMask (cx.sp.mask &&& ~~~cx.g.helper) = (lanesWith cx).1 ∧
    popMask (cx.sp.mask &&& ~~~cx.g.helper &&& cx.g.rp (cx.f.a.toNat % 8)) = (lanesWith cx).2 := by
  constructor <;>
  · simp only [popMask, lanesIn, lanesWith, W]
    congr 1
    refine List.filter_congr fun l hl => ?_
    have hlt : l < 64 := List.mem_range.1 hl
    simp [hlt]

theorem brpBody_eq (take : Nat → Nat → Bool) (cx : Cx) (s : State) : brpBody take cx s =
    if take (lanesWith cx).2 (lanesWith cx).1 then jumpTo s cx (target cx cx.f.lit) else .done s := by
  rw [← (popMask_eq_lanesWith cx).1, ← (popMask_eq_lanesWith cx).2]
  rfl

section
variable {i : Instr} {f : Fld} {r : Row} {take : Nat → Nat → Bool} {P : Cx → Prop} (hx : ∀ s, exec i s = issue i s (brpBody take))
include hx

theorem brp_does (he : enc i = some (f, r)) (hP : ∀ cx, P cx → take (lanesWith cx).2 (lanesWith cx).1 = false) :
    Does i (fun cx _ => P cx) fun _ s => s :=
  Does.of_effect hx he fun cx s _ _ _ hp => by simp [brpBody_eq, hP cx hp]

theorem brp_moves (he : enc i = some (f, r)) (hP : ∀ cx, P cx → take (lanesWith cx).2 (lanesWith cx).1 = true) :
    Moves i (fun cx s => P cx ∧ fetchable (fun cx => target cx cx.f.lit) cx s) fun cx s => atAddr s cx (target cx cx.f.lit) :=
  Moves.of_effect hx he fun cx s _ _ _ ⟨hp, ht⟩ => by rw [brpBody_eq, if_pos (hP cx hp), jumpTo_of_fetchable ht]

theorem brp_faults {s : State} {cx : Cx} {s1 : State} {x : Trap} (h : issuable i s = some (cx, s1))
    (hp : take (lanesWith cx).2 (lanesWith cx).1 = true) (ht : targetOk s1 cx (target cx cx.f.lit) = some x) :
    exec i s = .next (trappedAt s1 cx x) :=
  exec_of_fetchFault (hx s) h ht (by rw [brpBody_eq, if_pos hp])

end

/-! ### The obligation -/

/-- Settles O11: the fetch at the target decides a jump, and the lanes with the predicate whether a BRP makes one. -/
theorem jumpAndBranchResults : Obligations.JumpAndBranchResults := by
  refine fun f => ⟨⟨Moves.of_effect (fun _ => rfl) rfl fun _ _ _ _ _ ht => jumpTo_of_fetchable ht,
    Moves.of_effect (fun _ => rfl) rfl fun _ _ _ _ _ ht => jumpTo_of_fetchable ht, ?call, ?braFault, ?retFault, ?callFault⟩,
    ?all, ?notAll, ?any, ?notAny,
    ?none, ?notNone, fun s cx s1 x => ?allFault, fun s cx s1 x => ?anyFault, fun s cx s1 x => ?noneFault⟩
  case braFault => exact fun s cx s1 x h ht => exec_of_fetchFault rfl h ht rfl
  case retFault => exact fun s cx s1 x h ht => exec_of_fetchFault rfl h ht rfl
  case call =>
    intro s cx s1 h s2 ht
    exact issue_jump h ((congrArg (jumpTo · cx _) (addFix_linkWrites h)).trans (jumpTo_of_fetchable ht))
  case callFault =>
    intro s cx s1 x h ht
    exact exec_of_fetchFault rfl h ht (congrArg (jumpTo · cx _) (addFix_linkWrites h))
  case all => exact brp_moves (fun _ => rfl) rfl fun cx h => by simp [h]
  case notAll => exact brp_does (fun _ => rfl) rfl fun cx h => by simp [h]
  case allFault => exact fun h hp => brp_faults (fun _ => rfl) h (by simp [hp])
  case any => exact brp_moves (fun _ => rfl) rfl fun cx h => by simp [Nat.pos_iff_ne_zero, h]
  case notAny => exact brp_does (fun _ => rfl) rfl fun cx h => by simp [h]
  case anyFault => exact fun h hp => brp_faults (fun _ => rfl) h (by simp [Nat.pos_iff_ne_zero, hp])
  case none => exact brp_moves (fun _ => rfl) rfl fun cx h => by simp [h]
  case notNone => exact brp_does (fun _ => rfl) rfl fun cx h => by simp [h]
  case noneFault => exact fun h hp => brp_faults (fun _ => rfl) h (by simp [hp])

end Sys2Proof.Machine
end

section
/-! Special registers: GETSR and SETSR (R142, R143, R175, R176, R261). -/

namespace Sys2Proof.Machine

open Sys2Proof

/-! ### What a special register reads as -/

/-- What a flag adds to a register: its weight where it is set. -/
def flagAt (b : Bool) (n : Nat) : Nat := if b then n else 0

/-- The special registers that read alike wherever they are read, with their values in a lane (R142, R143). -/
def srPlain (s : State) (cx : Cx) (l : Nat) : List (Nat × Nat) :=
  [(0x00, l), (0x01, l / 4), (0x02, flagAt (cx.g.helper.getLsbD l) 1), (0x08, cx.g.grp), (0x09, cx.w.wx), (0x0A, cx.w.wy),
   (0x0B, cx.w.wz), (0x0C, cx.w.ix), (0x0D, cx.l.gx), (0x0E, cx.l.gy), (0x0F, cx.l.gz), (0x10, 64), (0x11, cx.w.core),
   (0x12, cx.w.core / 48), (0x13, cx.l.ctx.slice), (0x14, s.clock % 2 ^ 64), (0x15, (cx.g.iter.getD 0xFFFFFFFF).toNat),
   (0x16, cx.g.stage.toNat),
   (0x17, flagAt (if cx.onSpool then cx.l.chksb else cx.g.chksb) 1 + flagAt cx.l.det 2 + flagAt cx.l.ctx.ns 4),
   (0x18, cx.g.fpstat.toNat), (0x19, if cx.onSpool then cx.l.agemax else cx.g.agemax), (0x1C, cx.w.vwbase),
   (0x1D, cx.w.vwsize), (0x1E, cx.l.k.priv), (0x1F, cx.l.seed.toNat), (0x20, cx.l.lid.toNat), (0x21, cx.l.l),
   (0x22, cx.w.ngrp)]

/-- The trap registers of the issuing group (R143). -/
def srTraps (cx : Cx) : List (Nat × Nat) := if cx.onSpool then [] else [(0x1A, cx.g.trapCause.toNat), (0x1B, cx.g.trapAddr.toNat)]

theorem two_mul_flag (b : Bool) (n : Nat) : n * (if b then 1 else 0) = flagAt b n := by cases b <;> simp [flagAt]

theorem srValue_of_plain {s : State} {cx : Cx} {l : Nat} {e : Nat × Nat} (h : e ∈ srPlain s cx l) : srValue s cx e.1 l = e.2 := by
  revert e
  simp only [srPlain, List.forall_mem_cons]
  refine ⟨rfl, rfl, rfl, rfl, rfl, rfl, rfl, rfl, rfl, rfl, rfl, rfl, rfl, rfl, rfl, rfl, rfl, rfl, ?mode, rfl, rfl, rfl, rfl, rfl, rfl, rfl,
    rfl, rfl, fun e he => nomatch he⟩
  case mode =>
    simp only [← two_mul_flag]
    simp [srValue]

theorem srValue_of_traps {s : State} {cx : Cx} {l : Nat} {e : Nat × Nat} (h : e ∈ srTraps cx) : srValue s cx e.1 l = e.2 := by
  unfold srTraps at h
  split at h
  · cases h
  · rename_i hs
    simp only [List.mem_cons, List.not_mem_nil, or_false] at h
    rcases h with rfl | rfl <;> simp [srValue, hs]

theorem srValue_of_mem {s : State} {cx : Cx} {n l x : Nat} (h : (n, x) ∈ srPlain s cx l ++ srTraps cx) : srValue s cx n l = x :=
  (List.mem_append.1 h).elim srValue_of_plain srValue_of_traps

/-- On the spool processor the trap registers are its own (R261). -/
theorem srValue_spoolTraps {s : State} {cx : Cx} {p : Spool} (hs : cx.onSpool = true) (hp : cx.w.spool = some p) (l : Nat) :
    srValue s cx 0x1A l = p.trapCause.toNat ∧ srValue s cx 0x1B l = p.trapAddr.toNat := by
  simp [srValue, hs, hp]

/-! ### GETSR -/

section
variable {f : Fld} {s : State} {cx : Cx} {s1 : State}

theorem exec_getsr (h : issuable (.getsr f) s = some (cx, s1)) {n x : Nat} (hn : cx.f.a.toNat = n) (hx : srValue s1 cx n 0 = x) :
    exec (.getsr f) s = .next (completed (fixAfter 2 s1 cx (sWrite cx.ty cx.f.d.toNat x)) cx) := by
  obtain ⟨-, hr, -⟩ := issuable_row (i := .getsr f) rfl h
  rw [← hx, ← hn, ← addFix_eq_fixAfter (cx := cx) (by rw [latOf, hr])]
  exact issue_done h rfl

theorem exec_getsrVector (h : issuable (.getsrVector f) s = some (cx, s1)) {n : Nat} {x : Nat → Nat} (hn : cx.f.a.toNat = n)
    (hx : ∀ l, srValue s1 cx n l = x l) :
    exec (.getsrVector f) s = .next (completed (fixAfter 2 s1 cx (vWrite cx.ty cx.f.d.toNat cx.act x)) cx) := by
  obtain ⟨-, hr, -⟩ := issuable_row (i := .getsrVector f) rfl h
  rw [← funext hx, ← hn, ← addFix_eq_fixAfter (cx := cx) (by rw [latOf, hr])]
  exact issue_done h rfl

end

/-! ### SETSR -/

/-- What SETSR leaves: registers of the group written at once by `h`, and a result of latency 2 that holds a value of AGEMAX or
nothing (R176). -/
def srWritten (age : Option Nat) (h : Group → Group) (cx : Cx) (s : State) : State := s.modGroup cx.gk fun g =>
  { h g with fixes := g.fixes ++ [{ ready := s.clock + 2, split := cx.k, wrs := [], age := age }] }

theorem ofNat5_mod (x : Nat) : BitVec.ofNat 5 x = BitVec.ofNat 5 (x % 32) := by
  apply BitVec.eq_of_toNat_eq
  simp

theorem setsr_does (f : Fld) :
    Does (.setsr f) (fun cx _ => cx.f.a.toNat = 0x17) (fun cx => srWritten none (fun g => { g with chksb := decide (cx.b32 0 % 2 = 1) }) cx) ∧
    Does (.setsr f) (fun cx _ => cx.f.a.toNat = 0x18)
      (fun cx => srWritten none (fun g => { g with fpstat := BitVec.ofNat 5 (cx.b32 0 % 32) }) cx) ∧
    Does (.setsr f) (fun cx _ => cx.f.a.toNat = 0x19) (fun cx => srWritten (some (max 1 (min 4094 (cx.b32 0)))) id cx) ∧
    Does (.setsr f) (fun cx _ => cx.f.a.toNat ∉ [0x17, 0x18, 0x19]) (fun cx => srWritten none id cx) := by
  refine ⟨.of_effect (fun _ => rfl) rfl fun cx s _ hr _ ha => ?_, .of_effect (fun _ => rfl) rfl fun cx s _ hr _ ha => ?_,
    .of_effect (fun _ => rfl) rfl fun cx s _ hr _ ha => ?_, .of_effect (fun _ => rfl) rfl fun cx s _ hr _ ha => ?_⟩
  all_goals
    have hlat : latOf cx = 2 := by rw [latOf, hr]
  · simp [ha, hlat, srWritten, bit]
  · simp [ha, hlat, srWritten, ofNat5_mod (cx.b32 0)]
  · simp [ha, hlat, srWritten, clampAge, min_comm]
  · simp only [List.mem_cons, List.not_mem_nil, or_false, not_or] at ha
    simp [ha, hlat, srWritten]

/-! ### The obligation -/

/-- Settles O16: GETSR by the values of the special registers, SETSR by the register that A names. -/
theorem specialRegisterResults : Obligations.SpecialRegisterResults := by
  intro f
  obtain ⟨hmode, hflags, hage, hother⟩ := setsr_does f
  refine ⟨⟨fun n s cx s1 x h hn hx => exec_getsr h hn (srValue_of_mem hx),
    fun n s cx s1 x h hn hx => exec_getsrVector h hn fun l => srValue_of_mem (hx l),
    fun s cx s1 p h hs hp hn => exec_getsr h hn (srValue_spoolTraps hs hp 0).1,
    fun s cx s1 p h hs hp hn => exec_getsr h hn (srValue_spoolTraps hs hp 0).2⟩, hmode, hflags, hage, hother, ?landed⟩
  case landed =>
    intro e g x he
    unfold Fix.land
    split <;> simp [he]

end Sys2Proof.Machine
end

section
/-! Steps that issue, that perform an event, and that let a cycle pass (R125, R237, R316, R331, R332). -/

namespace Sys2Proof.Machine

open Sys2Proof

/-! ### The instruction in a clause -/

/-- The opcode map names an instruction by its own row. -/
theorem enc_of_ofOp {op mn m : Nat} {f : Fld} {i : Instr} (h : ofOp op mn m f = .ok i) : ∃ r, enc i = some (f, r) ∧ r.op.toNat = op := by
  unfold ofOp at h
  split at h
  all_goals
    first
    | (split at h
       all_goals
         first
         | (cases h; exact ⟨_, rfl, rfl⟩)
         | cases h
         | (split at h <;> (cases h; exact ⟨_, rfl, rfl⟩)))
    | cases h

/-- What parcels decode to is of the opcode that parcel 0 holds. -/
theorem enc_of_decodeParcels {k : KInfo} {p0 p1 p2 : Word} {i : Instr} (h : decodeParcels k p0 p1 p2 = .ok i) :
    ∃ f r, enc i = some (f, r) ∧ r.op.toNat = opOf p0 := by
  unfold decodeParcels at h
  split at h
  · cases h
  · rename_i i' hraw
    split at h
    · cases h
    · cases h
      unfold rawDecode at hraw
      dsimp only at hraw
      split at hraw
      · cases hraw
      · obtain ⟨r, he, hop⟩ := enc_of_ofOp hraw
        exact ⟨_, r, he, hop⟩

theorem enc_of_headInstr {cl : Clause} {i : Instr} (h : headInstr cl = some i) : ∃ f r, enc i = some (f, r) := by
  unfold headInstr at h
  split at h
  · cases h
  · split at h
    · rename_i hd
      cases h
      obtain ⟨f, r, he, -⟩ := enc_of_decodeParcels hd
      exact ⟨f, r, he⟩
    · cases h

section
variable {s : State} {ag : Agent} {cl : Clause} {i : Instr} {f : Fld} {r : Row} (hc : clauseOf s ag = some (cl, 0))
  (hi : headInstr cl = some i) (he : enc i = some (f, r))
include hc hi he

/-- What lets an agent issue the instruction at which it stands. -/
theorem mayIssue_of_ready (hst : cl.started = true) (hat : cl.issueAt ≤ s.clock) (hb : barred s ag = false)
    (hhdr : cl.inside = true ∨ headerReady s ag cl = true)
    (hret : atUnmetWait s ag cl = true ∨ nextHeld s ag cl = true → mayReturn s ag = true)
    (hslot : atUnmetWait s ag cl = false → nextHeld s ag cl = false → hasSlot s ag r.op.toNat = true) : mayIssue s ag = some i := by
  have hgo : (if atUnmetWait s ag cl || nextHeld s ag cl then mayReturn s ag else hasSlot s ag r.op.toNat) = true := by
    cases hw : atUnmetWait s ag cl <;> cases hn : nextHeld s ag cl
    · exact hslot hw hn
    all_goals exact hret (by simp [hw, hn])
  have hopen : (cl.inside || headerReady s ag cl) = true := Bool.or_eq_true_iff.2 hhdr
  simp only [mayIssue, hc, hi, he, hst, hat, hb, hopen, hgo, decide_true, Bool.not_false, Bool.and_self, if_true]

theorem mayIssue_of_early (hat : s.clock < cl.issueAt) : mayIssue s ag = none := by
  simp [mayIssue, hc, hi, he, Nat.not_le.2 hat]

end

/-! ### Issues -/

theorem step_of_issueAct {s : State} {a : Act} {ag : Agent} {rest : List Act} (hs : s.agenda = a :: rest) (ha : issueAct ag = some a) :
    step s = issueWithin ag maxStall { s with agenda := rest } := by
  simp only [step, stepOnce, hs]
  cases ag with
  | none => cases ha
  | group c sl k => obtain rfl := Option.some.inj ha; rfl
  | spool w => obtain rfl := Option.some.inj ha; rfl

theorem issueWithin_of_mayIssue {s : State} {ag : Agent} {i : Instr} (n : Nat) (h : mayIssue s ag = some i) :
    issueWithin ag n s = issueNow s ag i := by
  cases n <;> rw [issueWithin, h]

theorem issueWithin_of_tickOk {s : State} {ag : Agent} (n : Nat) (h : mayIssue s ag = none) (ht : tickOk s = true) :
    issueWithin ag (n + 1) s = issueWithin ag n (tick s) := by
  rw [issueWithin, h]
  exact if_pos ht

/-- The first cycle in which an agent may issue is the one in which it does. -/
theorem issueWithin_of_iterate {ag : Agent} {i : Instr} {k n : Nat} (hk : k ≤ n) {s : State}
    (hearly : ∀ j < k, mayIssue (tick^[j] s) ag = none ∧ tickOk (tick^[j] s) = true) (h : mayIssue (tick^[k] s) ag = some i) :
    issueWithin ag n s = issueNow (tick^[k] s) ag i := by
  induction k generalizing s n with
  | zero => exact issueWithin_of_mayIssue n h
  | succ k ih =>
    obtain ⟨n, rfl⟩ : ∃ m, n = m + 1 := ⟨n - 1, by omega⟩
    obtain ⟨hnone, ht⟩ : mayIssue s ag = none ∧ tickOk s = true := hearly 0 (Nat.succ_pos k)
    rw [issueWithin_of_tickOk n hnone ht]
    exact ih (Nat.le_of_succ_le_succ hk) (fun j hj => hearly (j + 1) (Nat.succ_lt_succ hj)) h

/-! ### What an act settles -/

theorem noteAct_sealed (s t : State) (ag : Agent) (i : Instr) : { noteAct s t ag i with sealed := t.sealed } = t := by
  unfold noteAct
  split
  · dsimp only
    split <;> rfl
  · rfl

theorem noteEvent_sealed (s : State) (e : Instr) (t : State) : { noteEvent s e t with sealed := t.sealed } = t := by
  unfold noteEvent
  split
  · split
    · exact noteAct_sealed _ _ _ _
    · rfl
  · split
    · exact noteAct_sealed _ _ _ _
    · rfl
  · split
    · exact noteAct_sealed _ _ _ _
    · rfl
  · rfl

theorem ordered_next {s t : State} (note : State → State) (h : sealKept s t = true) : ordered s note (.next t) = .next (note t) :=
  if_pos h

theorem ordered_broken {s t : State} (note : State → State) (h : sealKept s t = false) :
    ordered s note (.next t) = .fault (.notEnabled "CYCLE_ORDER") := by
  rw [ordered, h]
  rfl

theorem step_of_event {s t : State} {i : Instr} {rest : List Act} (hs : s.agenda = .event i :: rest) (he : enc i = none)
    (hx : exec i { s with agenda := rest } = .next t) (hk : sealKept { s with agenda := rest } t = true) :
    step s = .next (noteEvent { s with agenda := rest } i t) := by
  simp only [step, stepOnce, hs, runAct, he, hx]
  exact ordered_next _ hk

theorem step_of_tick {s : State} {rest : List Act} (hs : s.agenda = .tick :: rest) (ht : tickOk { s with agenda := rest } = true) :
    step s = .next (tick { s with agenda := rest }) := by
  simp only [step, stepOnce, hs, runAct]
  exact if_pos ht

end Sys2Proof.Machine
end

section
/-! A single instruction laid before a resident agent: the cycles of its stall count pass, and it is issued (R125, R136). -/

namespace Sys2Proof.Machine

open Sys2Proof

/-! ### The words of a clause -/

/-- The parcels of the first instruction of some bytes are those from which it decodes. -/
theorem headInstr_firstParcels {bs rest : List Byte} {i : Instr} (h : decode bs = .ok (i, rest)) (clock : Nat) :
    headInstr (oneClause (firstParcels bs) clock) = some i := by
  unfold decode at h
  split at h
  · cases h
  · rename_i p0 bs0 h0
    split at h
    · cases h
    · rename_i hl3
      split at h
      · cases h
      · rename_i p1 p2 bs1 hrest
        split at h
        · cases h
        · rename_i i' hd
          cases h
          have hlen : lenOf p0 ≤ 2 := by
            have := (Word.fld p0 0 2).isLt
            rw [lenOf] at hl3 ⊢
            omega
          have hps : firstParcels bs = (p0 :: [p1, p2]).take (lenOf p0 + 1) := by
            rw [firstParcels, h0]
            simp only [Nat.min_eq_left hlen, hrest]
          have habsent : ([p1, p2].take (lenOf p0)).getD 0 0 = p1 ∧ ([p1, p2].take (lenOf p0)).getD 1 0 = p2 := by
            obtain hl | hl | hl : lenOf p0 = 0 ∨ lenOf p0 = 1 ∨ lenOf p0 = 2 := by omega
            all_goals rw [hl] at hrest ⊢
            · cases hrest
              exact ⟨rfl, rfl⟩
            · rw [takeRest] at hrest
              split at hrest <;> cases hrest
              exact ⟨rfl, rfl⟩
            · exact ⟨rfl, rfl⟩
          simp only [headInstr, oneClause, hps, List.take_succ_cons, habsent, hd]

/-! ### Where nothing ages or times out -/

theorem ageGroup_of_not_ready {s : State} {key : Nat} (h : ∀ k, splitReady s (key / 48) (key % 48) k = false) (g : Group) :
    ageGroup s key g = g := by
  have hmap : g.splits.zipIdx.map (fun xi => xi.1) = g.splits := List.zipIdx_map_fst 0 g.splits
  simp only [ageGroup, h, Bool.and_false, Bool.false_eq_true, if_false, hmap]

theorem Group.countDown_of_no_timer {g : Group} (h : ∀ x ∈ g.splits, x.st ≠ 2) : g.countDown = g := by
  have hmap : g.splits.map (fun x => if x.v && x.st == 2 then { x with timer := x.timer - 1 } else x) = g.splits :=
    (List.map_congr_left fun x hx => by simp [h x hx]).trans (List.map_id' _)
  rw [Group.countDown, hmap]

/-! ### The laid state -/

/-- The group in whose split 0 an instruction stands. -/
def laidGroup (sp : Split) : Group :=
  { wg := 0, grp := 0, splits := [sp, {}, {}, {}], joins := [{}, {}, {}], lmask := BitVec.allOnes 64 }
/-- Its workgroup. -/
def laidWg (p : Spool) : Wg := { lnch := 0, core := 0, ix := 0, slots := [0], spool := some p }
/-- The state in which one instruction stands before a split of a group, or before a spool processor: launch `x`, split 0 `sp`, the
processor `p`, cycle `n`. -/
def laid (x : Launch) (sp : Split) (p : Spool) (n : Nat) : State :=
  { State.reset with launches := [(0, x)], wgs := [(0, laidWg p)], groups := [(0, laidGroup sp)], cores := [(0, { active := [0] })], clock := n }

/-- A launch that neither is deterministic nor has been killed. -/
def Launch.Plain (x : Launch) : Prop := x.det = false ∧ x.killed = false

section
variable {x : Launch} (hx : x.Plain) {sp : Split} {p : Spool} {n : Nat}

theorem laid_groups : (laid x sp p n).groups = [(0, laidGroup sp)] := rfl
theorem laid_wgs : (laid x sp p n).wgs = [(0, laidWg p)] := rfl
theorem laid_launches : (laid x sp p n).launches = [(0, x)] := rfl
theorem laid_group : (laid x sp p n).group? 0 = some (laidGroup sp) := rfl
theorem laid_wg : (laid x sp p n).wg? 0 = some (laidWg p) := rfl
theorem laid_launch : (laid x sp p n).launch? 0 = some x := rfl
theorem laid_core : (laid x sp p n).core 0 = { active := [0] } := rfl
theorem laid_clock : (laid x sp p n).clock = n := rfl

/-- No split but the first is there to be ready. -/
theorem laid_splitReady (h0 : splitReady (laid x sp p n) 0 0 0 = false) (k : Nat) : splitReady (laid x sp p n) 0 0 k = false := by
  match k with
  | 0 => exact h0
  | 1 | 2 | 3 | k + 4 => rfl

theorem laid_ageAt (h0 : splitReady (laid x sp p n) 0 0 0 = false) :
    (laid x sp p n).groups.map (ageAt (laid x sp p n)) = (laid x sp p n).groups := by
  have hage : ageGroup (laid x sp p n) 0 (laidGroup sp) = laidGroup sp := ageGroup_of_not_ready (laid_splitReady h0) _
  rw [laid_groups, List.map_cons, List.map_nil, ageAt, hage, ite_self]

section
variable (hst : sp.st = 0)
include hst

theorem laid_countAt : (laid x sp p n).groups.map (countAt (laid x sp p n)) = (laid x sp p n).groups := by
  rw [laid_groups, List.map_cons, List.map_nil, countAt, Group.countDown_of_no_timer (by simp [laidGroup, hst]), ite_self]

theorem laid_expireAll : expireAll (laid x sp p n) = laid x sp p n := by
  have hexp : (laidGroup sp).splits.any Split.expired = false := by simp [laidGroup, Split.expired, hst]
  rw [expireAll, laid_groups, List.foldl_cons, List.foldl_nil, hexp]
  rfl

end

include hx

theorem laid_cutGrids : ∃ y : Launch, y.Plain ∧ cutGrids (laid x sp p n) = laid y sp p n := by
  obtain ⟨hd, hk⟩ := hx
  unfold cutGrids
  cases hc : x.cut with
  | true => exact ⟨x, ⟨hd, hk⟩, by simp [laid_launches, hc]⟩
  | false =>
    have hl : (laid x sp p n).launches.filter (fun l => !l.2.cut) = [(0, x)] := by simp [laid_launches, hc]
    rw [hl, List.foldl_cons, List.foldl_nil]
    simp only [cutGrid, laid_launch]
    split
    · exact ⟨x, ⟨hd, hk⟩, rfl⟩
    · exact ⟨{ x with cut := true, ranges := cutRanges x.n _ }, ⟨hd, hk⟩, rfl⟩

theorem laid_reap : reap (laid x sp p n) 0 = laid x sp p n := by
  simp [reap, laid_launch, hx.2]

theorem laid_settleTurn : settleTurn (laid x sp p n) 0 = laid x sp p n := by
  have hl : (laidWg p).lnch = 0 := rfl
  simp [settleTurn, laid_wg, hl, laid_launch, hx.1]

/-- A cycle in which no split is ready leaves what stands there where it stands; the launch's grid may be cut (R328). -/
theorem laid_tick (hst : sp.st = 0) (h0 : splitReady (laid x sp p n) 0 0 0 = false) :
    ∃ y : Launch, y.Plain ∧ tick (laid x sp p n) = laid y sp p (n + 1) := by
  obtain ⟨y, hy, hcut⟩ := laid_cutGrids hx (sp := sp) (p := p) (n := n)
  refine ⟨y, hy, ?_⟩
  have hages : expireAll { laid x sp p n with groups := (laid x sp p n).groups.map (ageAt (laid x sp p n)) } = laid x sp p n := by
    rw [laid_ageAt h0]
    exact laid_expireAll hst
  have htimers : flushAll { laid x sp p n with groups := (laid x sp p n).groups.map (countAt (laid x sp p n)), sealed := [] } =
      laid x sp p n := by
    rw [laid_countAt hst]
    rfl
  have hkilled : (laid x sp p n).launches.foldl (fun (s : State) l => reap s l.1) (laid x sp p n) = laid x sp p n := laid_reap hx
  have hgrids : bootTick (cutGrids (closeLoops (laid x sp p n))) = laid y sp p n := by
    have hloops : closeLoops (laid x sp p n) = laid x sp p n := rfl
    rw [hloops, hcut]
    rfl
  simp only [tick, hages, htimers, hkilled, hgrids]
  exact laid_settleTurn hy

end

end Sys2Proof.Machine
end

section
/-! The agent before which an instruction has been laid issues it once its stall count has passed (R125, R136, R332). -/

namespace Sys2Proof.Machine

open Sys2Proof

/-! ### Readiness and turns -/

/-- Readiness of an agent within a clause, or at a waiting instruction before one, as R331 gives it. -/
theorem peekReady_of_started {s : State} {ag : Agent} {c : Clause} (hc : clauseOf s ag = some (c, 0)) (hs : c.started = true) :
    peekReady s ag = (decide (c.issueAt ≤ s.clock) &&
      if c.inside then !nextHeld s ag c else headerReady s ag c && !atUnmetWait s ag c) := by
  have hp : peek s ag = .clause s c := by rw [peek, hc]
  rw [peekReady, hp]
  by_cases hin : c.inside = true <;> simp [hin, hs, hc, Bool.and_assoc]

theorem Cand.not_before_self (c : Cand) : c.before c = false := by
  unfold Cand.before
  split <;> simp [Cand.older]

/-- The only candidate of a core has its turn. -/
theorem inTurn_of_only {s : State} {core : Nat} {c : Cand} (h : candsOf s core = [c]) : inTurn s core c.ag = true := by
  simp [inTurn, h, Cand.not_before_self]

/-! ### The laid state -/

/-- A split that stands before a clause. -/
def standing (cl : Clause) : Split := { v := true, mask := BitVec.allOnes 64, cl := some cl }
/-- A split that is not there. -/
def noSplit : Split := {}
/-- A spool processor that stands before a clause. -/
def standingSpool (cl : Clause) : Spool := { cl := some cl }

section
variable {x : Launch} (hx : x.Plain) {sp : Split} {p : Spool} {n : Nat}

theorem laid_coreGroups : coreGroups (laid x sp p n) 0 = [(0, laidGroup sp)] := by
  simp [coreGroups, laid_groups]

theorem laid_readySplits_nil (h0 : splitReady (laid x sp p n) 0 0 0 = false) (g : Group) : readySplits (laid x sp p n) 0 0 g = [] := by
  simp [readySplits, laid_splitReady h0]

/-- Nothing is settled in the cycle, and no group of a lower slot claims. -/
theorem laid_barred {ag : Agent} {cl : Clause} {b : Nat} (hc : clauseOf (laid x sp p n) ag = some (cl, b))
    (hlow : lowerClaims (laid x sp p n) ag = false) : barred (laid x sp p n) ag = false := by
  have hseal : (laid x sp p n).sealed = [] := rfl
  simp only [barred, hc, hseal, hlow, List.any_nil, Bool.false_or]
  split
  · split <;> rfl
  · rfl

theorem laid_hasTurn (hx : x.Plain) {ag : Agent} (hwg : agentWg (laid x sp p n) ag = some 0) : hasTurn (laid x sp p n) ag = true := by
  have hl : (laidWg p).lnch = 0 := rfl
  simp [hasTurn, hwg, laid_wg, hl, laid_launch, hx.1]

theorem laid_swapDue : swapDue (laid x sp p n) 0 = false := by
  simp [swapDue, swapChoice, laid_core, laid_coreGroups, firstRanked]

include hx

theorem laid_wgDet : wgDet (laid x sp p n) 0 = false := by
  have hl : (laidWg p).lnch = 0 := rfl
  simp [wgDet, laid_wg, hl, laid_launch, hx.1]

theorem laid_heldBack : heldBack (laid x sp p n) 0 0 = false := by
  have hf : frozen (laid x sp p n) 0 = false := rfl
  have hl : (laidWg p).lnch = 0 ∧ (laidWg p).saved = false := ⟨rfl, rfl⟩
  simp [heldBack, laid_wg, hl, laid_launch, hx.2, hf, laid_core]

theorem laid_readySpools : readySpools (laid x sp p n) 0 = [] := by
  simp [readySpools, laid_wgs, laid_wgDet hx]

theorem laid_tickOk (h0 : splitReady (laid x sp p n) 0 0 0 = false) : tickOk (laid x sp p n) = true := by
  have hc : candsOf (laid x sp p n) 0 = [] := by simp [candsOf, laid_coreGroups, laid_readySplits_nil h0, laid_readySpools hx]
  have hcores : ((laid x sp p n).groups.map fun e => e.1 / 48).eraseDups = [0] := by
    simp [laid_groups, List.eraseDups_cons]
  simp [tickOk, hcores, hc, laid_swapDue]

end

/-! ### A split before its clause -/

/-- The agent that the split is. -/
def laidSplit : Agent := .group 0 0 0

section
variable {x : Launch} (hx : x.Plain) {p : Spool} {n : Nat} {cl : Clause} (hst : cl.started = true)

theorem laidSplit_clauseOf : clauseOf (laid x (standing cl) p n) laidSplit = some (cl, 0) := rfl

theorem laidSplit_headerReady : headerReady (laid x (standing cl) p n) laidSplit cl = true := by
  have hh : (laidGroup (standing cl)).headerMet cl.hdr = true := by
    simp [Group.headerMet, Group.tok, Group.cnt, laidGroup, Tab.get, Tab.find?]
  have hg : (laid x (standing cl) p n).group? (gKey 0 0) = some (laidGroup (standing cl)) := laid_group
  simp [headerReady, laidSplit, hg, hh]

theorem laidSplit_splitReady : splitReady (laid x (standing cl) p n) 0 0 0 = peekReady (laid x (standing cl) p n) laidSplit := rfl

theorem laidSplit_barred : barred (laid x (standing cl) p n) laidSplit = false :=
  laid_barred rfl rfl

include hx

theorem laidSplit_mayReturn : mayReturn (laid x (standing cl) p n) laidSplit = true := by
  have hg : (laid x (standing cl) p n).group? (gKey 0 0) = some (laidGroup (standing cl)) := laid_group
  have hturn : hasTurn (laid x (standing cl) p n) laidSplit = true := laid_hasTurn hx rfl
  have hback := laid_heldBack hx (sp := standing cl) (p := p) (n := n)
  have hothers : ((laidGroup (standing cl)).splits.zipIdx.any fun xi => xi.2 != 0 && xi.1.within) = false := rfl
  have hsplit : (laidGroup (standing cl)).splits.getD 0 {} = standing cl := rfl
  have hstands : (standing cl).v = true ∧ (standing cl).st = 0 := ⟨rfl, rfl⟩
  have hstate : (laidGroup (standing cl)).exited = false ∧ (laidGroup (standing cl)).trapped = false ∧ (laidGroup (standing cl)).wg = 0 :=
    ⟨rfl, rfl, rfl⟩
  rw [laidSplit] at hturn ⊢
  simp only [mayReturn, hg, hothers, hsplit, hstands, hstate, laid_core, hback, hturn]
  simp

include hst

theorem laidSplit_mayGo {c : Cand} (hc : c.ag = laidSplit) : mayGo (laid x (standing cl) p n) c = true := by
  have hkey : agentKey laidSplit = some 0 := rfl
  have hissued : (laidGroup (standing cl)).issued = 0 := rfl
  simp [mayGo, hc, laidSplit_clauseOf, hst, laidSplit_mayReturn hx, hkey, laid_group, hissued, laidSplit_barred]

theorem laidSplit_candsOf (hready : splitReady (laid x (standing cl) p n) 0 0 0 = true) :
    ∃ c : Cand, c.ag = laidSplit ∧ candsOf (laid x (standing cl) p n) 0 = [c] := by
  have hback := laid_heldBack hx (sp := standing cl) (p := p) (n := n)
  have hother (k : Nat) : splitReady (laid x (standing cl) p n) 0 0 (k + 1) = false := by
    match k with
    | 0 | 1 | 2 | k + 3 => rfl
  have hwg : (laidGroup (standing cl)).wg = 0 := rfl
  obtain ⟨c, hc, hreadies⟩ : ∃ c : Cand, c.ag = laidSplit ∧
      readySplits (laid x (standing cl) p n) 0 0 (laidGroup (standing cl)) = [c] := by
    simp only [readySplits, List.range_succ_eq_map, List.range_zero, List.map_cons, List.map_nil, List.filterMap_cons, List.filterMap_nil,
      hready, hother, hwg, hback]
    simp [laidSplit]
  refine ⟨c, hc, ?_⟩
  simp [candsOf, laid_coreGroups, hreadies, laid_readySpools hx, laidSplit_mayGo hx hst hc]

theorem laidSplit_hasSlot (hready : splitReady (laid x (standing cl) p n) 0 0 0 = true) (op : Nat) :
    hasSlot (laid x (standing cl) p n) laidSplit op = true := by
  obtain ⟨c, hc, hcands⟩ := laidSplit_candsOf hx hst hready
  have hturn : inTurn (laid x (standing cl) p n) 0 laidSplit = true := hc ▸ inTurn_of_only hcands
  have hg : (laid x (standing cl) p n).group? (gKey 0 0) = some (laidGroup (standing cl)) := laid_group
  have hissued : (laidGroup (standing cl)).issued = 0 := rfl
  have hpipe (q : Nat) : pipeFree (laid x (standing cl) p n) 0 q = true := by
    simp [pipeFree, laid_groups, hissued]
    split <;> decide
  have hret := laidSplit_mayReturn hx (p := p) (n := n) (cl := cl)
  rw [laidSplit] at hret hturn ⊢
  simp [hasSlot, canRun, hret, hg, hissued, hpipe, hturn]

omit hx in
theorem laidSplit_early (hn : n < cl.issueAt) : splitReady (laid x (standing cl) p n) 0 0 0 = false := by
  rw [laidSplit_splitReady, peekReady_of_started laidSplit_clauseOf hst, laid_clock]
  simp [Nat.not_le.2 hn]

theorem laidSplit_mayIssue {i : Instr} {f : Fld} {r : Row} (hi : headInstr cl = some i) (he : enc i = some (f, r))
    (hn : cl.issueAt ≤ n) : mayIssue (laid x (standing cl) p n) laidSplit = some i :=
  mayIssue_of_ready laidSplit_clauseOf hi he hst hn laidSplit_barred (.inr laidSplit_headerReady) (fun _ => laidSplit_mayReturn hx)
    fun hmet hfree => laidSplit_hasSlot hx hst (by
      rw [laidSplit_splitReady, peekReady_of_started laidSplit_clauseOf hst, laid_clock]
      simp [hn, hmet, hfree, laidSplit_headerReady]) _

end

/-! ### A spool processor before its clause -/

/-- The agent that the processor is. -/
def laidSpool : Agent := .spool 0

section
variable {x : Launch} (hx : x.Plain) {n : Nat} {cl : Clause} (hst : cl.started = true)

theorem laidSpool_clauseOf : clauseOf (laid x noSplit (standingSpool cl) n) laidSpool = some (cl, 0) := rfl

include hx

theorem laidSpool_mayReturn : mayReturn (laid x noSplit (standingSpool cl) n) laidSpool = true := by
  have hturn : hasTurn (laid x noSplit (standingSpool cl) n) laidSpool = true := laid_hasTurn hx rfl
  have hback := laid_heldBack hx (sp := noSplit) (p := standingSpool cl) (n := n)
  have hproc : (laidWg (standingSpool cl)).spool = some (standingSpool cl) ∧ (laidWg (standingSpool cl)).saved = false ∧
      (laidWg (standingSpool cl)).core = 0 := ⟨rfl, rfl, rfl⟩
  have hruns : (standingSpool cl).run = true ∧ (standingSpool cl).trapped = false := ⟨rfl, rfl⟩
  rw [laidSpool] at hturn ⊢
  simp [mayReturn, laid_wg, hproc, hruns, hturn, hback]

theorem laidSpool_hasSlot (op : Nat) : hasSlot (laid x noSplit (standingSpool cl) n) laidSpool op = true := by
  have hret := laidSpool_mayReturn hx (n := n) (cl := cl)
  have hproc : (laidWg (standingSpool cl)).spool = some (standingSpool cl) := rfl
  have hissued : (standingSpool cl).issued = 0 := rfl
  rw [laidSpool] at hret ⊢
  simp [hasSlot, canRun, hret, laid_wg, hproc, hissued, laid_wgDet hx]

include hst

theorem laidSpool_mayIssue {i : Instr} {f : Fld} {r : Row} (hi : headInstr cl = some i) (he : enc i = some (f, r))
    (hn : cl.issueAt ≤ n) : mayIssue (laid x noSplit (standingSpool cl) n) laidSpool = some i :=
  mayIssue_of_ready laidSpool_clauseOf hi he hst hn (laid_barred laidSpool_clauseOf rfl) (.inr rfl) (fun _ => laidSpool_mayReturn hx)
    fun _ _ => laidSpool_hasSlot hx _

end

/-! ### The issue -/

/-- While no split is ready, cycles pass and the instruction stands where it stands. -/
theorem laid_iterate {x : Launch} (hx : x.Plain) {sp : Split} {p : Spool} (hst : sp.st = 0) {k : Nat}
    (hearly : ∀ y : Launch, ∀ n < k, splitReady (laid y sp p n) 0 0 0 = false) :
    ∃ y : Launch, y.Plain ∧ tick^[k] (laid x sp p 0) = laid y sp p k := by
  induction k with
  | zero => exact ⟨x, hx, rfl⟩
  | succ k ih =>
    obtain ⟨y, hy, hk⟩ := ih fun y n hn => hearly y n (Nat.lt_succ_of_lt hn)
    rw [Function.iterate_succ_apply', hk]
    exact laid_tick hy hst (hearly y k (Nat.lt_succ_self k))

/-- An agent that stands before a clause issues its instruction in the first cycle that its stall count allows. -/
theorem laid_issueWithin {x : Launch} (hx : x.Plain) {sp : Split} {p : Spool} (hst : sp.st = 0) {ag : Agent} {cl : Clause} {i : Instr}
    {f : Fld} {r : Row} (hc : ∀ y n, clauseOf (laid y sp p n) ag = some (cl, 0)) (hi : headInstr cl = some i)
    (he : enc i = some (f, r)) (hearly : ∀ y : Launch, ∀ n < cl.issueAt, splitReady (laid y sp p n) 0 0 0 = false)
    (hgo : ∀ y : Launch, y.Plain → mayIssue (laid y sp p cl.issueAt) ag = some i) (hmax : cl.issueAt ≤ maxStall) :
    issueWithin ag maxStall (laid x sp p 0) = issueNow (tick^[cl.issueAt] (laid x sp p 0)) ag i := by
  refine issueWithin_of_iterate hmax (fun j hj => ?_) ?_
  · obtain ⟨y, hy, hj'⟩ := laid_iterate hx hst fun y n hn => hearly y n (hn.trans hj)
    rw [hj']
    exact ⟨mayIssue_of_early (hc y j) hi he hj, laid_tickOk hy (hearly y j hj)⟩
  · obtain ⟨y, hy, hk⟩ := laid_iterate hx hst hearly
    rw [hk]
    exact hgo y hy

/-- The launch of a laid instruction. -/
def laidLaunch : Launch := { q := 0, lid := 0, k := { regs := 256, staged := true, nsite := 8 } }

theorem laidLaunch_plain : laidLaunch.Plain := ⟨rfl, rfl⟩

theorem oneClause_issueAt_le (ps : List Word) : (oneClause ps 0).issueAt ≤ 7 := by
  have h : (oneClause ps 0).issueAt = bits (ps.headD 0).toNat 2 3 := Nat.zero_add _
  rw [h, bits]
  omega

section
variable {nbits w : Nat} {i : Instr}

/-- The clause in which the instruction of a table word is laid. -/
def wordClause (nbits w : Nat) : Clause := oneClause (firstParcels (tableBytes nbits w)) 0
/-- Whether it is laid before the spool processor. -/
def wordOnSpool (nbits w : Nat) : Bool := decide (opOf ((firstParcels (tableBytes nbits w)).headD 0) ∈ [0x68, 0x69, 0x6A])

theorem placed_spool (h : wordOnSpool nbits w = true) : (State.reset.withFetchWord nbits w).agenda = [.spool 0] ∧
    { State.reset.withFetchWord nbits w with agenda := [] } = laid laidLaunch noSplit (standingSpool (wordClause nbits w)) 0 := by
  simp only [wordOnSpool] at h
  simp only [State.withFetchWord, placeWord, h]
  exact ⟨rfl, rfl⟩

theorem placed_split (h : wordOnSpool nbits w = false) : (State.reset.withFetchWord nbits w).agenda = [.issue 0 0 0] ∧
    { State.reset.withFetchWord nbits w with agenda := [] } = laid laidLaunch (standing (wordClause nbits w)) {} 0 := by
  simp only [wordOnSpool] at h
  simp only [State.withFetchWord, placeWord, h]
  exact ⟨rfl, rfl⟩

/-- A word of the opcode table, laid where the step fetches, is issued once its stall count has passed. -/
theorem step_withFetchWord (h : decodeTableWord nbits w = some i) :
    ∃ n ag, n ≤ 7 ∧ ag ≠ .none ∧ step (State.reset.withFetchWord nbits w) =
      issueNow (tick^[n] { State.reset.withFetchWord nbits w with agenda := [] }) ag i := by
  obtain ⟨rest, hd⟩ : ∃ rest, decode (tableBytes nbits w) = .ok (i, rest) := by
    unfold decodeTableWord at h
    split at h
    · cases h
      exact ⟨_, by assumption⟩
    · cases h
  have hi : headInstr (wordClause nbits w) = some i := headInstr_firstParcels hd 0
  have hst : (wordClause nbits w).started = true := rfl
  have h7 : (wordClause nbits w).issueAt ≤ 7 := oneClause_issueAt_le _
  have hmax : (wordClause nbits w).issueAt ≤ maxStall := h7.trans (by decide)
  obtain ⟨f, r, he⟩ : ∃ f r, enc i = some (f, r) := enc_of_headInstr hi
  cases hs : wordOnSpool nbits w with
  | true =>
    obtain ⟨hag, hlaid⟩ := placed_spool hs
    refine ⟨_, laidSpool, h7, nofun, ?_⟩
    rw [step_of_issueAct (ag := laidSpool) hag rfl, hlaid]
    exact laid_issueWithin laidLaunch_plain rfl (fun _ _ => laidSpool_clauseOf) hi he (fun _ _ _ => rfl)
      (fun y hy => laidSpool_mayIssue hy hst hi he le_rfl) hmax
  | false =>
    obtain ⟨hag, hlaid⟩ := placed_split hs
    refine ⟨_, laidSplit, h7, nofun, ?_⟩
    rw [step_of_issueAct (ag := laidSplit) hag rfl, hlaid]
    exact laid_issueWithin laidLaunch_plain rfl (fun _ _ => laidSplit_clauseOf) hi he (fun _ _ hn => laidSplit_early hst hn)
      (fun y hy => laidSplit_mayIssue hy hst hi he le_rfl) hmax

end

/-- Settles O50: the conditions of an issue, the acts of the agenda by their laws, and the laid instruction. -/
theorem stepRunsDecodedInstruction : Obligations.StepRunsDecodedInstruction := by
  refine ⟨?ready, ?issue, ?settled, ?event, fun s rest => step_of_tick, fun nbits w i => step_withFetchWord⟩
  case ready =>
    intro s ag cl p0 ps i hc hst hps hd hat hb hhdr hret hslot
    obtain ⟨f, r, he, hop⟩ := enc_of_decodeParcels hd
    have hi : headInstr cl = some i := by rw [headInstr, hps]; simp only [hd]
    exact mayIssue_of_ready hc hi he hst hat hb hhdr hret (hop ▸ hslot)
  case issue =>
    intro s a ag rest i hs ha s0
    rw [step_of_issueAct hs ha]
    refine ⟨issueWithin_of_mayIssue _, fun hnone ht h => ?_⟩
    exact (issueWithin_of_tickOk _ hnone ht).trans (issueWithin_of_mayIssue _ h)
  case settled =>
    intro s ag i t hx
    rw [issueNow, hx]
    exact ⟨fun hk => ⟨ordered_next _ hk, noteAct_sealed s t ag i⟩, ordered_broken _⟩
  case event =>
    intro s i rest t hs he s0 hx hk
    exact ⟨step_of_event hs he hx hk, noteEvent_sealed s0 i t⟩

end Sys2Proof.Machine
end

section
/-! What the issue of a control, barrier, counter or staged-loop instruction leaves alone (R140, R155, R156, R162 to R164, R176, R231,
R233, R236, R263, R309 to R315). -/

namespace Sys2Proof.Machine

open Sys2Proof

/-! ### The part of a state that control may move -/

/-- A state with operations, race regions, graphs, free choices and the order of events as they are in another. -/
def orderAs (s t : State) : State :=
  { t with ops := s.ops, nextId := s.nextId, regions := s.regions, graphs := s.graphs, freeCtr := s.freeCtr, hb := s.hb }

/-- Nothing else differs between two states. -/
def OrderOnly (s t : State) : Prop := orderAs s t = s

namespace OrderOnly

variable {s t u : State}

theorem refl (s : State) : OrderOnly s s := rfl

theorem trans (h : OrderOnly s t) (k : OrderOnly t u) : OrderOnly s u :=
  calc orderAs s u = orderAs s (orderAs t u) := rfl
    _ = orderAs s t := by rw [k]
    _ = s := h

theorem groups (h : OrderOnly s t) : t.groups = s.groups := (congrArg State.groups (id h : orderAs s t = s) :)
theorem wgs (h : OrderOnly s t) : t.wgs = s.wgs := (congrArg State.wgs (id h : orderAs s t = s) :)

theorem foldl {α : Type} {f : State → α → State} (hf : ∀ s x, OrderOnly s (f s x)) (xs : List α) (s : State) :
    OrderOnly s (xs.foldl f s) := by
  induction xs generalizing s with
  | nil => exact refl _
  | cons x xs ih => exact (hf s x).trans (ih _)

theorem ite {c : Prop} [Decidable c] (h : OrderOnly s t) (k : OrderOnly s u) : OrderOnly s (if c then t else u) := by
  split
  · exact h
  · exact k

end OrderOnly

theorem setHb_orderOnly (s : State) (me : Nat) (a : AgHb) : OrderOnly s (s.setHb me a) := .ite rfl rfl

theorem post_orderOnly (s : State) (c : Chan) (x : Clk) : OrderOnly s (s.post c x) := .ite rfl rfl

theorem releaseTo_orderOnly (s : State) (ag : Agent) (cs : List Chan) : OrderOnly s (releaseTo s ag cs) := by
  have h : OrderOnly s (cs.foldl (fun (t : State) c => t.post c (s.relClk (agentMe s ag))) s) :=
    .foldl (fun _ _ => post_orderOnly _ _ _) _ _
  exact (h.trans (setHb_orderOnly _ _ _)).trans rfl

theorem forgetFar_orderOnly (s : State) (ag : Agent) : OrderOnly s (forgetFar s ag) := by
  unfold forgetFar
  split <;> rfl

theorem freeHeld_orderOnly (s : State) (l : Nat) (g : Group) : OrderOnly s (freeHeld s l g) := by
  unfold freeHeld
  split
  · rfl
  · split <;> rfl

/-! ### Fences -/

theorem fenceAcq_orderOnly (s : State) (w : Who) : OrderOnly s (fenceAcq s w) := by
  have hread (f : Op → Op) : OrderOnly s (s.modOp (s.agHb w.me).readOp f) := rfl
  exact (hread _).trans (.foldl (fun _ _ => setHb_orderOnly _ _ _) _ _)

theorem fenceOrder_orderOnly (s : State) (w : Who) : OrderOnly s (fenceOrder s w) := (setHb_orderOnly _ _ _).trans rfl

theorem fenceRel_orderOnly (s : State) (cx : Cx) : OrderOnly s (fenceRel s cx) := (setHb_orderOnly _ _ _).trans (releaseTo_orderOnly _ _ _)

/-! ### Registers that control keeps -/

/-- The registers, iterators, draw counters, trap registers and stack of a group. -/
def Group.kept (g : Group) : Tab Word × Tab Lanes × Tab Mask × Tab (List Word) × Tab Word × Word × DWord × List StackEnt :=
  (g.s, g.v, g.p, g.ti, g.draw, g.trapCause, g.trapAddr, g.stack)

/-- The registers that SETSR may write (R176). -/
def Group.settable (g : Group) : BitVec 5 × Bool × Nat := (g.fpstat, g.chksb, g.agemax)

/-- The registers of a spool processor. -/
def Spool.kept (p : Spool) : Tab Word × Word × DWord := (p.s, p.trapCause, p.trapAddr)

/-- The registers of a workgroup's spool processor. -/
def Wg.kept (w : Wg) : Option (Tab Word × Word × DWord) := w.spool.map Spool.kept

/-- What a control instruction leaves: the rest of the machine, every group's registers, where `P` those of SETSR too, and every spool
processor's. -/
structure ControlFrame (P : Prop) (s t : State) : Prop where
  rest : { orderAs s t with groups := s.groups, wgs := s.wgs } = s
  group : ∀ k, (t.group? k).map Group.kept = (s.group? k).map Group.kept
  settable : P → ∀ k, (t.group? k).map Group.settable = (s.group? k).map Group.settable
  spool : ∀ w x, s.wg? w = some x → ∃ y, t.wg? w = some y ∧ y.kept = x.kept

/-- A change of one group that keeps a value keeps it in every group. -/
theorem modGroup_map {β : Type} {v : Group → β} (s : State) (key : Nat) {f : Group → Group} (hf : ∀ g, v (f g) = v g) (k : Nat) :
    ((s.modGroup key f).group? k).map v = (s.group? k).map v := by
  have hcomp : v ∘ f = v := funext hf
  by_cases hk : k = key
  · rw [hk, State.modGroup_group_self, Option.map_map, hcomp]
  · rw [State.modGroup_group_of_ne s f hk]

theorem setGroup_map {β : Type} {v : Group → β} {s : State} {key : Nat} {g h : Group} (hg : s.group? key = some g) (hv : v h = v g)
    (k : Nat) : ((s.setGroup key h).group? k).map v = (s.group? k).map v := by
  by_cases hk : k = key
  · rw [hk, State.setGroup_group_self, hg, Option.map_some, Option.map_some, hv]
  · rw [State.setGroup_group_of_ne s h hk]

namespace ControlFrame

variable {P : Prop} {s t u : State}

theorem trans (h : ControlFrame P s t) (i : ControlFrame P t u) : ControlFrame P s u where
  rest := calc { orderAs s u with groups := s.groups, wgs := s.wgs }
        = { orderAs s { orderAs t u with groups := t.groups, wgs := t.wgs } with groups := s.groups, wgs := s.wgs } := rfl
      _ = { orderAs s t with groups := s.groups, wgs := s.wgs } := by rw [i.rest]
      _ = s := h.rest
  group k := (i.group k).trans (h.group k)
  settable hp k := (i.settable hp k).trans (h.settable hp k)
  spool w x hx := by
    obtain ⟨y, hy, hyx⟩ := h.spool w x hx
    obtain ⟨z, hz, hzy⟩ := i.spool w y hy
    exact ⟨z, hz, hzy.trans hyx⟩

theorem of_orderOnly (h : OrderOnly s t) : ControlFrame P s t where
  rest := (congrArg (fun x : State => { x with groups := s.groups, wgs := s.wgs }) h :)
  group k := by rw [State.group?, h.groups, State.group?]
  settable _ k := by rw [State.group?, h.groups, State.group?]
  spool w x hx := ⟨x, by rwa [State.wg?, h.wgs], rfl⟩

theorem refl (s : State) : ControlFrame P s s := of_orderOnly rfl

theorem foldl {α : Type} {f : State → α → State} (hf : ∀ s x, ControlFrame P s (f s x)) (xs : List α) (s : State) :
    ControlFrame P s (xs.foldl f s) := by
  induction xs generalizing s with
  | nil => exact refl _
  | cons x xs ih => exact (hf s x).trans (ih _)

theorem ite {c : Prop} [Decidable c] (h : ControlFrame P s t) (k : ControlFrame P s u) : ControlFrame P s (if c then t else u) := by
  split
  · exact h
  · exact k

/-- A change of one group that keeps its registers. -/
theorem modGroup (s : State) (key : Nat) {f : Group → Group} (hf : ∀ g, (f g).kept = g.kept := by exact fun _ => rfl)
    (hset : P → ∀ g, (f g).settable = g.settable := by exact fun _ _ => rfl) : ControlFrame P s (s.modGroup key f) :=
  ⟨rfl, modGroup_map s key hf, fun hp => modGroup_map s key (hset hp), fun _ x hx => ⟨x, hx, rfl⟩⟩

theorem setGroup {s : State} {key : Nat} {g h : Group} (hg : s.group? key = some g) (hk : h.kept = g.kept)
    (hset : h.settable = g.settable) : ControlFrame P s (s.setGroup key h) :=
  ⟨rfl, setGroup_map hg hk, fun _ => setGroup_map hg hset, fun _ x hx => ⟨x, hx, rfl⟩⟩

/-- A change of one workgroup that keeps its spool processor's registers. -/
theorem modWg (s : State) (wid : Nat) {f : Wg → Wg} (hf : ∀ w, (f w).kept = w.kept := by exact fun _ => rfl) :
    ControlFrame P s (s.modWg wid f) := by
  refine ⟨rfl, fun k => rfl, fun _ k => rfl, fun w x hx => ?_⟩
  by_cases hw : w = wid
  · rw [hw] at hx ⊢
    exact ⟨f x, by rw [State.modWg_wg_self, hx]; rfl, hf x⟩
  · exact ⟨x, by rwa [State.modWg_wg_of_ne s f hw], rfl⟩

/-- A change of a workgroup's spool processor that keeps its registers. -/
theorem modSpool (s : State) (wid : Nat) {f : Spool → Spool} (hf : ∀ p, (f p).kept = p.kept := by exact fun _ => rfl) :
    ControlFrame P s (s.modWg wid fun x => { x with spool := x.spool.map f }) := by
  refine modWg s wid fun w => ?_
  have hcomp : Spool.kept ∘ f = Spool.kept := funext hf
  rw [Wg.kept, Option.map_map, hcomp, Wg.kept]

theorem of_onlyTurn {w : Nat} (h : OnlyTurn w s t) : ControlFrame P s t := by
  obtain ⟨hrest, hne, hown⟩ := h
  have hgroups : t.groups = s.groups := (congrArg State.groups hrest :)
  refine ⟨(congrArg (fun x : State => { orderAs s x with groups := s.groups }) hrest :), fun k => ?_, fun _ k => ?_, fun j x hx => ?_⟩
  · rw [State.group?, hgroups, State.group?]
  · rw [State.group?, hgroups, State.group?]
  · by_cases hj : j = w
    · rw [hj] at hx ⊢
      obtain ⟨y, hy, hyx⟩ := hown x hx
      exact ⟨y, hy, (congrArg Wg.kept hyx :)⟩
    · exact ⟨x, (hne j hj).trans hx, rfl⟩

theorem thenGroup (h : ControlFrame P s t) {key : Nat} {f : Group → Group} (hf : ∀ g, (f g).kept = g.kept := by exact fun _ => rfl)
    (hset : P → ∀ g, (f g).settable = g.settable := by exact fun _ _ => rfl) :
    ControlFrame P s (t.modGroup key f) := h.trans (modGroup t key hf hset)

theorem thenWg (h : ControlFrame P s t) {wid : Nat} {f : Wg → Wg}
    (hf : ∀ w, (f w).kept = w.kept := by exact fun _ => rfl) :
    ControlFrame P s (t.modWg wid f) :=
  h.trans (modWg t wid hf)

theorem thenOrder (h : ControlFrame P s t) (k : OrderOnly t u) : ControlFrame P s u := h.trans (of_orderOnly k)

end ControlFrame

/-! ### The end of an issue -/

theorem advance_controlFrame (P : Prop) (s : State) (cx : Cx) : ControlFrame P s (advance s cx) := by
  unfold advance
  dsimp only
  split
  · exact .refl s
  · exact .modGroup s _
  · refine .modSpool s _ fun p => ?_
    split
    · rfl
    · split <;> rfl

theorem leave_controlFrame (P : Prop) (s : State) (cx : Cx) : ControlFrame P s (leave s cx) := by
  unfold leave
  split
  · exact .refl s
  · exact .modGroup s _
  · exact .modSpool s _

theorem setBlock_controlFrame (P : Prop) (s : State) (ag : Agent) (b : Nat) : ControlFrame P s (setBlock s ag b) := by
  unfold setBlock
  split
  · exact .refl s
  · exact .modGroup s _
  · exact .modSpool s _

theorem setPc_controlFrame (P : Prop) (s : State) (cx : Cx) (a : DWord) : ControlFrame P s (setPc s cx a) := by
  unfold setPc
  split
  · exact .refl s
  · exact .modGroup s _
  · exact .modSpool s _

theorem startOp_controlFrame (P : Prop) (s : State) (cx : Cx) (k : OpK) (ws : List Wr) (fl : BitVec 5) (bar : Option Nat) :
    ControlFrame P s (startOp s cx k ws fl bar) := by
  have hstart : OrderOnly s (startHb s cx) := (setHb_orderOnly _ _ _).trans (setHb_orderOnly _ _ _)
  have hops : ControlFrame P s { startHb s cx with ops := (startHb s cx).ops ++ [mkOp s cx k ws fl bar], nextId := (startHb s cx).nextId + 1 } :=
    .of_orderOnly (hstart.trans rfl)
  unfold startOp
  dsimp only
  split
  · exact hops
  · refine hops.trans (.modGroup _ _ (fun g => ?_) fun _ g => ?_)
    all_goals cases (mkOp s cx k ws fl bar).tok <;> cases (mkOp s cx k ws fl bar).cnt <;> rfl

theorem ControlFrame.thenStart {P : Prop} {s t : State} (h : ControlFrame P s t) {cx : Cx} {k : OpK} {ws : List Wr} :
    ControlFrame P s (startOp t cx k ws) := h.trans (startOp_controlFrame P t cx k ws _ _)

/-! ### Effects -/

/-- An effect that leaves what control leaves, and whose trap is raised at once. -/
def Eff.Framed (P : Prop) (s : State) : Eff → Prop
  | .done t | .jump t | .wait t => ControlFrame P s t
  | .trap t => t.far = [] ∧ t.late = false

theorem outcome_controlFrame {P : Prop} {s1 t : State} {cx : Cx} {e : Eff} (he : e.Framed P s1) (h : outcome s1 cx e = .next t) :
    (∃ x, t = trappedAt s1 cx x) ∨ ControlFrame P s1 t := by
  have hend (u : State) : ControlFrame P u (afterIssue u cx) := .of_onlyTurn (afterIssue_onlyTurn u cx)
  have hfar (u : State) : ControlFrame P u (forgetFar u cx.ag) := .of_orderOnly (forgetFar_orderOnly u cx.ag)
  cases e with
  | done u =>
    obtain rfl := Host.Outcome.next.inj h
    exact .inr (((ControlFrame.trans he (hfar u)).trans (advance_controlFrame P _ cx)).trans (hend _))
  | jump u =>
    obtain rfl := Host.Outcome.next.inj h
    exact .inr (((ControlFrame.trans he (hfar u)).trans (leave_controlFrame P _ cx)).trans (hend _))
  | wait u =>
    obtain rfl := Host.Outcome.next.inj h
    exact .inr ((ControlFrame.trans he (setBlock_controlFrame P u cx.ag 1)).trans (hend _))
  | trap x =>
    rw [outcome_trap s1 cx he.1 he.2] at h
    exact .inl ⟨x, (Host.Outcome.next.inj h).symm⟩

theorem jumpTo_framed (P : Prop) (s : State) (cx : Cx) (a : DWord) : (jumpTo s cx a).Framed P s := by
  unfold jumpTo
  split
  · exact targetOk_some (by assumption)
  · exact setPc_controlFrame P s cx a

end Sys2Proof.Machine
end

section
/-! The frame of the control, barrier, counter and staged-loop instructions, one class after another (R140, R155, R156, R162 to R164,
R176, R231, R233, R236, R263, R309 to R315). -/

namespace Sys2Proof.Machine

open Sys2Proof

/-! ### Staged loops -/

section
variable (P : Prop) (s : State)

theorem modEnt_controlFrame (wid i : Nat) (f : SEnt → SEnt) : ControlFrame P s (s.modEnt wid i f) := .modWg s wid

theorem takeEntry_controlFrame (wid key : Nat) : ControlFrame P s (takeEntry s wid key) := by
  unfold takeEntry
  split
  · exact .ite (modEnt_controlFrame P s _ _ _) (.refl s)
  · exact .refl s

theorem takeEntries_controlFrame (wid : Nat) : ControlFrame P s (takeEntries s wid) := by
  unfold takeEntries
  split
  · exact .refl s
  · exact .foldl (fun s _ => takeEntry_controlFrame P s _ _) _ _

theorem finishIter_controlFrame (ag : Agent) (key : Nat) : ControlFrame P s (finishIter s ag key) := by
  unfold finishIter
  split
  · exact .refl s
  · rename_i g hg
    refine .ite (.refl s) ?_
    have hent := modEnt_controlFrame P s g.wg (g.iter.getD 0).toNat fun e => { e with stg := 0xFFFF }
    have hgroup : ControlFrame P (s.modEnt g.wg (g.iter.getD 0).toNat fun e => { e with stg := 0xFFFF }) _ :=
      .setGroup (h := { g with hold := false, iter := none, stage := 0 }) hg rfl rfl
    exact .trans (.thenOrder (hent.trans hgroup) (releaseTo_orderOnly _ _ _)) (takeEntries_controlFrame P _ _)

theorem claimNext_controlFrame (wid key : Nat) (f : Fld) : ControlFrame P s (claimNext s wid key f) := by
  unfold claimNext
  split
  · exact .refl s
  · refine ControlFrame.trans ?_ (takeEntry_controlFrame P _ _ _)
    exact .thenGroup (.modWg s wid)

theorem leaveLoop_controlFrame (ag : Agent) (key : Nat) : ControlFrame P s (leaveLoop s ag key) := by
  unfold leaveLoop
  split
  · exact .refl s
  · refine .ite (.refl s) ?_
    refine .thenWg (.thenGroup (finishIter_controlFrame P s ag key)) fun w => ?_
    split <;> rfl

theorem setStage_controlFrame (cx : Cx) (x : Nat) : ControlFrame P s (setStage s cx x) := by
  unfold setStage
  exact .thenGroup (.thenWg (.of_orderOnly (releaseTo_orderOnly _ _ _)))

theorem slTake_framed {s : State} {t : State} (h : ControlFrame P s t) (cx : Cx) (k : Nat) : (slTake t cx k).Framed P s := by
  unfold slTake
  split
  · exact h
  · split
    · exact .thenStart (.thenGroup h)
    · exact h

theorem slnextEff_framed (cx : Cx) : (slnextEff cx s).Framed P s := by
  have hfin := finishIter_controlFrame P s cx.ag cx.gk
  unfold slnextEff
  split
  · exact ⟨rfl, rfl⟩
  · dsimp only
    split
    · split
      · exact slTake_framed P hfin cx _
      · split
        · exact hfin.thenStart
        · exact slTake_framed P (hfin.trans (claimNext_controlFrame P _ _ _ _)) cx _
    · exact hfin

/-! ### Barriers, the mailbox and waits -/

theorem hear_orderOnly (me : Nat) (c : Chan) : OrderOnly s (s.hear me c) := setHb_orderOnly _ _ _

/-- The arrivals of a completed phase go from one carrier to another. -/
theorem flip_orderOnly {c : Prop} [Decidable c] (a b : Chan) (x : Clk) :
    OrderOnly s (if c then (s.post a x).setChan b [] else s) := .ite ((post_orderOnly _ _ _).trans rfl) rfl

theorem expectAt_controlFrame (wid n x : Nat) : ControlFrame P s (s.expectAt wid n x) := by
  unfold State.expectAt
  exact .thenOrder (.modWg s wid) (flip_orderOnly _ _ _ _)

theorem arriveAt_controlFrame (wid n c : Nat) (past : Clk) : ControlFrame P s (s.arriveAt wid n c past) := by
  unfold State.arriveAt
  exact .thenOrder (.thenWg (.of_orderOnly (post_orderOnly _ _ _))) (flip_orderOnly _ _ _ _)

theorem waitEff_framed {s : State} {c : Prop} [Decidable c] {t : State} (h : OrderOnly s t) :
    (if c then Eff.done t else .wait s).Framed P s := by
  split
  · exact .of_orderOnly h
  · exact .refl s

end

/-! ### The instructions -/

/-- An instruction whose effect is framed in every context and state of its issue. -/
def Confined (P : Prop) (i : Instr) : Prop :=
  ∃ body, (∀ s, exec i s = issue i s body) ∧ ∀ cx s, (body cx s).Framed P s

section
variable (P : Prop) (f : Fld)

theorem nop_confined : Confined P (.nop f) := ⟨_, fun _ => rfl, fun _ s => .refl s⟩

theorem yield_confined : Confined P (.yield f) :=
  ⟨_, fun _ => rfl, fun _ s => .ite (.refl s) (.modGroup s _)⟩

theorem exit_confined : Confined P (.exit f) := by
  refine ⟨_, fun _ => rfl, fun cx s => ?_⟩
  split
  · exact .trans (.of_orderOnly (releaseTo_orderOnly s _ _)) (.modSpool _ _)
  · split
    · exact ⟨rfl, rfl⟩
    · have hdrop (t : State) : ControlFrame P t (dropHeld t cx) :=
        .thenGroup (.of_orderOnly (freeHeld_orderOnly _ _ _))
      exact .thenOrder (.thenGroup ((leaveLoop_controlFrame P s _ _).trans (hdrop _))) (releaseTo_orderOnly _ _ _)

theorem bra_confined : Confined P (.bra f) := ⟨_, fun _ => rfl, fun cx s => jumpTo_framed P s cx _⟩
theorem ret_confined : Confined P (.ret f) := ⟨_, fun _ => rfl, fun cx s => jumpTo_framed P s cx _⟩

theorem brp_confined : Confined P (.brpAll f) ∧ Confined P (.brpAny f) ∧ Confined P (.brpNone f) := by
  have hbody (take : Nat → Nat → Bool) (cx : Cx) (s : State) : (brpBody take cx s).Framed P s := by
    rw [brpBody_eq]
    split
    · exact jumpTo_framed P s cx _
    · exact .refl s
  exact ⟨⟨_, fun _ => rfl, hbody _⟩, ⟨_, fun _ => rfl, hbody _⟩, ⟨_, fun _ => rfl, hbody _⟩⟩

theorem fence_confined : Confined P (.fence f) := by
  refine ⟨_, fun _ => rfl, fun cx s => .of_orderOnly ?_⟩
  have h1 := OrderOnly.ite (c := cx.who.acq = true) (fenceAcq_orderOnly s cx.who) (.refl s)
  have h2 (t : State) := OrderOnly.ite (c := cx.who.ar = true) (fenceOrder_orderOnly t cx.who) (.refl t)
  have h3 (t : State) := OrderOnly.ite (c := cx.rel = true) (fenceRel_orderOnly t cx) (.refl t)
  exact ((h1.trans (h2 _)).trans (h3 _)).trans (setHb_orderOnly _ _ _)

theorem waitf_confined : Confined P (.waitf f) := ⟨_, fun _ => rfl, fun _ s => waitEff_framed P (hear_orderOnly s _ _)⟩
theorem barw_confined : Confined P (.barw f) := ⟨_, fun _ => rfl, fun _ s => waitEff_framed P (hear_orderOnly s _ _)⟩

theorem bari_confined : Confined P (.bari f) := by
  refine ⟨_, fun _ => rfl, fun cx s => ?_⟩
  dsimp only
  split
  · exact ⟨rfl, rfl⟩
  · exact expectAt_controlFrame P s _ _ _

theorem bara_confined : Confined P (.bara f) := by
  refine ⟨_, fun _ => rfl, fun cx s => ?_⟩
  dsimp only
  split
  · exact ⟨rfl, rfl⟩
  · exact (arriveAt_controlFrame P s _ _ _ _).thenOrder (releaseTo_orderOnly _ _ _)

theorem spreq_confined : Confined P (.spreq f) := by
  refine ⟨_, fun _ => rfl, fun cx s => ?_⟩
  split
  · have hpush : OrderOnly s (releaseBy (s.push (.mail cx.wid) (s.relClk cx.me)) cx) :=
      OrderOnly.trans (t := s.push (.mail cx.wid) (s.relClk cx.me)) rfl (releaseTo_orderOnly _ _ _)
    exact .thenWg (.of_orderOnly hpush)
  · exact .of_orderOnly (releaseTo_orderOnly _ _ _)

theorem slbegin_confined : Confined P (.slbegin f) := by
  refine ⟨_, fun _ => rfl, fun cx s => ?_⟩
  dsimp only
  generalize (if cx.f.d.toNat / 8 = 0 then cx.w.ngrp else cx.f.d.toNat / 8) = m
  split
  · exact ⟨rfl, rfl⟩
  · split
    · exact ⟨rfl, rfl⟩
    · exact .thenGroup (.modWg s _)

theorem slend_confined : Confined P (.slend f) := ⟨_, fun _ => rfl, fun _ s => leaveLoop_controlFrame P s _ _⟩
theorem slnext_confined : Confined P (.slnext f) := ⟨_, fun _ => rfl, fun cx s => slnextEff_framed P s cx⟩

theorem stadv_confined : Confined P (.stadv f) := by
  refine ⟨_, fun _ => rfl, fun cx s => ?_⟩
  split
  · exact ⟨rfl, rfl⟩
  · exact setStage_controlFrame P s cx _

theorem stjmp_confined : Confined P (.stjmp f) := by
  refine ⟨_, fun _ => rfl, fun cx s => ?_⟩
  split
  · exact ⟨rfl, rfl⟩
  · exact setStage_controlFrame P s cx _

theorem waitl_confined : Confined P (.waitl f) := by
  refine ⟨_, fun _ => rfl, fun cx s => ?_⟩
  unfold waitlEff
  split
  · exact ⟨rfl, rfl⟩
  · exact waitEff_framed P (.ite rfl (hear_orderOnly s _ _))

/-- SETSR may write FPSTAT and CHKSB, and has AGEMAX on its way (R176). -/
theorem setsr_confined : Confined False (.setsr f) := by
  refine ⟨_, fun _ => rfl, fun cx s => .modGroup s _ (fun g => ?_) nofun⟩
  dsimp only
  split <;> rfl

end

/-! ### The obligation -/

/-- The instructions of the statement; only SETSR is confined to less. -/
theorem control_confined {f : Fld} {i : Instr} (h : i ∈ [Instr.nop f, .yield f, .exit f, .bra f, .ret f, .brpAll f, .brpAny f, .brpNone f,
    .setsr f, .waitf f, .fence f, .bari f, .bara f, .barw f, .spreq f, .slbegin f, .slend f, .slnext f, .stadv f, .stjmp f, .waitl f]) :
    Confined (i ≠ .setsr f) i := by
  obtain ⟨hall, hany, hnone⟩ := brp_confined (i ≠ .setsr f) f
  simp only [List.mem_cons, List.not_mem_nil, or_false] at h
  rcases h with rfl | rfl | rfl | rfl | rfl | rfl | rfl | rfl | rfl | rfl | rfl | rfl | rfl | rfl | rfl | rfl | rfl | rfl | rfl | rfl | rfl
  · exact nop_confined _ f
  · exact yield_confined _ f
  · exact exit_confined _ f
  · exact bra_confined _ f
  · exact ret_confined _ f
  · exact hall
  · exact hany
  · exact hnone
  · simpa using setsr_confined f
  · exact waitf_confined _ f
  · exact fence_confined _ f
  · exact bari_confined _ f
  · exact bara_confined _ f
  · exact barw_confined _ f
  · exact spreq_confined _ f
  · exact slbegin_confined _ f
  · exact slend_confined _ f
  · exact slnext_confined _ f
  · exact stadv_confined _ f
  · exact stjmp_confined _ f
  · exact waitl_confined _ f

theorem exec_controlFrame {P : Prop} {i : Instr} (hc : Confined P i) {s : State} {cx : Cx} {s1 t : State}
    (h : issuable i s = some (cx, s1)) (ht : exec i s = .next t) : (∃ x, t = trappedAt s1 cx x) ∨ ControlFrame P s1 t := by
  obtain ⟨body, hx, hb⟩ := hc
  rw [hx, issue_outcome h] at ht
  exact outcome_controlFrame (hb cx s1) ht

/-- Settles O59: the effect of each of the instructions traps or moves only control state, as does the end of its issue. -/
theorem controlInstructionFrame : Obligations.ControlInstructionFrame := by
  intro f i hi s cx s1 t h ht
  refine (exec_controlFrame (control_confined hi) h ht).imp_right fun hframe => ?_
  have hmem : t.mem = s1.mem := (congrArg State.mem hframe.rest :)
  refine ⟨hframe.rest, byte_of_mem hmem, fun k g hg => ?_, fun w x p hw hp => ?_⟩
  · have hkept := hframe.group k
    rw [hg, Option.map_some, Option.map_eq_some_iff] at hkept
    obtain ⟨h, hh, hkept⟩ := hkept
    simp only [Group.kept, Prod.mk.injEq] at hkept
    obtain ⟨hs, hv, hp, hti, hdraw, hcause, haddr, hstack⟩ := hkept
    refine ⟨h, hh, hs, hv, hp, hti, hdraw, hcause, haddr, hstack, fun hne => ?_⟩
    have hset := hframe.settable hne k
    rw [hg, hh, Option.map_some, Option.map_some, Option.some.injEq] at hset
    simpa only [Group.settable, Prod.mk.injEq] using hset
  · obtain ⟨y, hy, hkept⟩ := hframe.spool w x hw
    rw [Wg.kept, Wg.kept, hp, Option.map_some, Option.map_eq_some_iff] at hkept
    obtain ⟨q, hq, hkept⟩ := hkept
    simp only [Spool.kept, Prod.mk.injEq] at hkept
    exact ⟨y, q, hy, hq, hkept⟩

end Sys2Proof.Machine
end

section
/-! Integers of a type as patterns: what a result comes to, exactly narrowed or bit by bit (R72, R73, R167 to R174). The laws are about the
operations of Machine/Ints, for scalar and vector instructions alike. -/

namespace Sys2Proof.Machine

open Sys2Proof

/-! ### Narrowing (R73) -/

theorem tyBits_pos (ty : Nat) : 0 < tyBits ty := by
  unfold tyBits
  split
  · decide
  · split
    · decide
    · split <;> decide

theorem two_pow_tyBits (ty : Nat) : 2 * 2 ^ (tyBits ty - 1) = 2 ^ tyBits ty := by
  rw [← Nat.pow_succ', Nat.succ_eq_add_one, Nat.sub_add_cancel (tyBits_pos ty)]

theorem ofInt_natCast (n x : Nat) : ofInt n x = x % 2 ^ n := by
  rw [ofInt, ← Int.natCast_emod, Int.toNat_natCast]

theorem ofInt_congr {n : Nat} {x y : Int} (h : x ≡ y [ZMOD (2 ^ n : Nat)]) : ofInt n x = ofInt n y := congrArg Int.toNat h

theorem ofInt_mod (n : Nat) (x : Int) : ofInt n x % 2 ^ n = ofInt n x := by
  have h0 : (0 : Int) < (2 ^ n : Nat) := by positivity
  apply Nat.mod_eq_of_lt
  have := Int.emod_lt_of_pos x h0
  have := Int.emod_nonneg x h0.ne'
  rw [ofInt]
  omega

/-- A pattern of `n` bits in two's complement is a bit vector read as a signed number. -/
theorem toSigned_eq_toInt (n x : Nat) : toSigned n x = (BitVec.ofNat n x).toInt := by
  rw [toSigned, BitVec.toInt_eq_toNat_cond, BitVec.toNat_ofNat]
  cases n with
  | zero => simp [Nat.mod_one]
  | succ n =>
    rw [Nat.add_sub_cancel, Nat.pow_succ']
    simp only [Nat.mul_lt_mul_left Nat.two_pos]

/-- The number that a pattern is differs from the pattern by a multiple of 2ⁿ. -/
theorem tyVal_modEq (ty x : Nat) : tyVal ty x ≡ x [ZMOD (2 ^ tyBits ty : Nat)] := by
  have hx : ((x % 2 ^ tyBits ty : Nat) : Int) ≡ x [ZMOD (2 ^ tyBits ty : Nat)] := by
    rw [Int.natCast_emod]
    exact Int.mod_modEq _ _
  unfold tyVal toSigned
  split
  · split
    · exact hx
    · exact (Int.modEq_sub_modulus_iff.2 hx.symm).symm
  · exact hx

theorem ofInt_tyVal (ty x : Nat) : ofInt (tyBits ty) (tyVal ty x) = x % 2 ^ tyBits ty :=
  (ofInt_congr (tyVal_modEq ty x)).trans (ofInt_natCast _ x)

/-! ### What is written of a value -/

theorem toSigned_mod (n x : Nat) : toSigned n (x % 2 ^ n) = toSigned n x := by
  rw [toSigned, Nat.mod_mod, toSigned]

/-- Only the bits of the type count in what is written (R72). -/
theorem widen_mod (ty x : Nat) : widen ty (x % 2 ^ tyBits ty) = widen ty x := by
  rw [widen, toSigned_mod, Nat.mod_mod, widen]

theorem widen_congr {ty x y : Nat} (h : x % 2 ^ tyBits ty = y % 2 ^ tyBits ty) : widen ty x = widen ty y := by
  rw [← widen_mod, h, widen_mod]

theorem sWrite_congr {ty x y : Nat} (h : x % 2 ^ tyBits ty = y % 2 ^ tyBits ty) (d : Nat) : sWrite ty d x = sWrite ty d y := by
  rw [sWrite, widen_congr h, sWrite]

theorem vWrite_congr {ty : Nat} {x y : Nat → Nat} (h : ∀ l, x l % 2 ^ tyBits ty = y l % 2 ^ tyBits ty) (d : Nat) (m : Mask) :
    vWrite ty d m x = vWrite ty d m y := by
  simp only [vWrite, fun l => widen_congr (h l)]

/-! ### Arithmetic (R167 to R169) -/

theorem mod_of_eq_ofInt {n x : Nat} {v : Int} (h : x = ofInt n v) : x % 2 ^ n = ofInt n v := h ▸ ofInt_mod n v

theorem iAdd_eq (ty a b : Nat) : iAdd ty a b = ofInt (tyBits ty) (tyVal ty a + tyVal ty b) := by
  rw [ofInt_congr ((tyVal_modEq ty a).add (tyVal_modEq ty b)), ← Int.natCast_add, ofInt_natCast, iAdd]

theorem iSub_eq (ty a b : Nat) : iSub ty a b = ofInt (tyBits ty) (tyVal ty a - tyVal ty b) :=
  (ofInt_congr ((tyVal_modEq ty a).sub (tyVal_modEq ty b))).symm

theorem iMul_eq (ty a b : Nat) : iMul ty a b = ofInt (tyBits ty) (tyVal ty a * tyVal ty b) := by
  rw [ofInt_congr ((tyVal_modEq ty a).mul (tyVal_modEq ty b)), ← Int.natCast_mul, ofInt_natCast, iMul]

theorem iMad_eq (ty a b c : Nat) : iMad ty a b c = ofInt (tyBits ty) (tyVal ty a * tyVal ty b + tyVal ty c) := by
  rw [ofInt_congr (((tyVal_modEq ty a).mul (tyVal_modEq ty b)).add (tyVal_modEq ty c)), ← Int.natCast_mul, ← Int.natCast_add,
    ofInt_natCast, iMad]

theorem iMulh_eq (ty a b : Nat) : iMulh ty a b = ofInt (tyBits ty) (Int.fdiv (tyVal ty a * tyVal ty b) (2 ^ tyBits ty)) := by
  rw [Int.fdiv_eq_ediv_of_nonneg _ (by positivity), iMulh, Nat.cast_pow, Nat.cast_ofNat]

theorem iMin_mod (ty a b : Nat) : iMin ty a b % 2 ^ tyBits ty = ofInt (tyBits ty) (min (tyVal ty a) (tyVal ty b)) := by
  rw [iMin, min_def]
  split <;> rename_i h
  · rw [if_neg (not_le.2 h), ofInt_tyVal]
  · rw [if_pos (not_lt.1 h), ofInt_tyVal]

theorem iMax_mod (ty a b : Nat) : iMax ty a b % 2 ^ tyBits ty = ofInt (tyBits ty) (max (tyVal ty a) (tyVal ty b)) := by
  rw [iMax, max_def]
  split <;> rename_i h
  · rw [if_pos h.le, ofInt_tyVal]
  · split <;> rename_i h'
    · rw [← le_antisymm h' (not_lt.1 h), ofInt_tyVal]
    · rw [ofInt_tyVal]

theorem ofInt_neg_one (n : Nat) : ofInt n (-1) = 2 ^ n - 1 := by
  have h0 : (0 : Int) < (2 ^ n : Nat) := by positivity
  have h : (-1 : Int) % (2 ^ n : Nat) = (2 ^ n : Nat) - 1 := by
    rw [Int.emod_def, Int.ediv_eq_neg_one_of_neg_of_le (by omega) (by omega)]
    ring
  rw [ofInt, h]
  omega

/-- Division narrows the quotient of R169, the corners included. -/
theorem iDiv_eq (ty a b : Nat) : iDiv ty a b = ofInt (tyBits ty) (quotient ty (tyVal ty a) (tyVal ty b)) := by
  rw [iDiv, quotient]
  split
  · cases tySigned ty
    · exact (ofInt_neg_one _).symm
    · rfl
  · rfl

theorem iRem_mod (ty a b : Nat) : iRem ty a b % 2 ^ tyBits ty = ofInt (tyBits ty) (remainder (tyVal ty a) (tyVal ty b)) := by
  rw [iRem, remainder]
  split
  · exact (ofInt_tyVal ty a).symm
  · rw [ofInt_mod, Int.tmod_def]

/-- Each of the six comparisons by its number (R170). -/
theorem iCmp_eq (ty cond a b : Nat) : iCmp ty cond a b = relates cond (tyVal ty a) (tyVal ty b) := by
  match cond with
  | 0 | 1 | 2 | 3 | 4 | 5 => rfl
  | _ + 6 => rfl

/-! ### Shifts to the right -/

theorem tyVal_signed_bounds {ty : Nat} (hs : tySigned ty = true) (x : Nat) :
    -(2 ^ (tyBits ty - 1) : Nat) ≤ tyVal ty x ∧ tyVal ty x < (2 ^ (tyBits ty - 1) : Nat) := by
  have hp := two_pow_tyBits ty
  have hx : x % 2 ^ tyBits ty < 2 ^ tyBits ty := Nat.mod_lt _ (by positivity)
  rw [tyVal, if_pos hs, toSigned]
  split <;> omega

/-- A number from −M to M − 1 divided by M or more is 0 or −1, by its sign. -/
theorem ediv_of_bounds {t M N : Int} (hlo : -M ≤ t) (hhi : t < M) (hN : M ≤ N) : t / N = if 0 ≤ t then 0 else -1 := by
  split <;> rename_i h
  · exact Int.ediv_eq_zero_of_lt h (by omega)
  · exact Int.ediv_eq_neg_one_of_neg_of_le (by omega) (by omega)

/-- A shift to the right is a floor division: beyond the width a signed number leaves its sign, an unsigned one nothing. -/
theorem iShr_mod {ty a : Nat} (ha : a < 2 ^ tyBits ty) (k : Nat) :
    iShr ty a k % 2 ^ tyBits ty = ofInt (tyBits ty) (Int.fdiv (tyVal ty a) (2 ^ k)) := by
  rw [Int.fdiv_eq_ediv_of_nonneg _ (by positivity), iShr]
  split <;> rename_i hs
  · obtain ⟨hlo, hhi⟩ := tyVal_signed_bounds hs a
    have hk : tyVal ty a / (2 ^ min k (tyBits ty - 1) : Nat) = tyVal ty a / (2 ^ k : Nat) := by
      rcases Nat.le_total k (tyBits ty - 1) with h | h
      · rw [Nat.min_eq_left h]
      · have hpow : (2 ^ (tyBits ty - 1) : Nat) ≤ (2 ^ k : Nat) := Nat.pow_le_pow_right Nat.two_pos h
        rw [Nat.min_eq_right h, ediv_of_bounds hlo hhi le_rfl, ediv_of_bounds hlo hhi (Int.ofNat_le.2 hpow)]
    rw [ofInt_mod, hk, Nat.cast_pow, Nat.cast_ofNat]
  · have hval : tyVal ty a / 2 ^ k = ((a / 2 ^ k : Nat) : Int) := by
      rw [tyVal, if_neg hs, Nat.mod_eq_of_lt ha]
      norm_cast
    rw [hval, ofInt_natCast]
    split <;> rename_i h
    · rw [Nat.div_eq_of_lt (ha.trans_le (Nat.pow_le_pow_right Nat.two_pos h))]
    · rfl

/-! ### Bits -/

theorem bit_eq_testBit (x i : Nat) : bit x i = x.testBit i := Nat.testBit_eq_decide_div_mod_eq.symm

theorem natOfBits_succ (n : Nat) (f : Nat → Bool) : natOfBits (n + 1) f = natOfBits n f + if f n then 2 ^ n else 0 := by
  rw [natOfBits, List.range_succ, List.foldl_append, List.foldl_cons, List.foldl_nil, ← natOfBits]
  split <;> simp

/-- A number is made of its bits. -/
theorem natOfBits_eq_mod {n x : Nat} {f : Nat → Bool} (h : ∀ j < n, bit x j = f j) : natOfBits n f = x % 2 ^ n := by
  induction n with
  | zero => simp [natOfBits, Nat.mod_one]
  | succ n ih =>
    rw [natOfBits_succ, ih fun j hj => h j (Nat.lt_succ_of_lt hj), ← h n (Nat.lt_succ_self n), Nat.mod_pow_succ, bit]
    rcases Nat.mod_two_eq_zero_or_one (x / 2 ^ n) with hb | hb <;> simp [hb]

theorem natOfBits_lt (n : Nat) (f : Nat → Bool) : natOfBits n f < 2 ^ n := by
  induction n with
  | zero => exact Nat.one_pos
  | succ n ih =>
    rw [natOfBits_succ, Nat.pow_succ]
    split <;> omega

theorem natOfBits_bit {n j : Nat} (hj : j < n) (f : Nat → Bool) : bit (natOfBits n f) j = f j := by
  induction n with
  | zero => omega
  | succ n ih =>
    rw [bit_eq_testBit] at *
    rw [natOfBits_succ, Nat.add_comm]
    rcases Nat.lt_succ_iff_lt_or_eq.1 hj with h | rfl
    · rw [← ih h]
      split
      · exact Nat.testBit_two_pow_add_gt h _
      · rw [Nat.zero_add]
    · have hlow : (natOfBits j f).testBit j = false := Nat.testBit_lt_two_pow (natOfBits_lt j f)
      split <;> rename_i hf
      · rw [Nat.testBit_two_pow_add_eq, hlow, hf, Bool.not_false]
      · rw [Nat.zero_add, hlow, Bool.eq_false_of_not_eq_true hf]

theorem iNot_bit {ty j : Nat} (hj : j < tyBits ty) (a : Nat) : bit (iNot ty a) j = !bit a j := by
  have ha : a % 2 ^ tyBits ty < 2 ^ tyBits ty := Nat.mod_lt _ (by positivity)
  rw [bit_eq_testBit, iNot, Nat.sub_sub, Nat.add_comm, Nat.testBit_two_pow_sub_succ ha]
  simp [hj, bit_eq_testBit]

theorem iAnd_bit (ty a b j : Nat) : bit (iAnd ty a b) j = (bit a j && bit b j) := by
  simp only [bit_eq_testBit, iAnd, Nat.testBit_and]

theorem iOr_bit (ty a b j : Nat) : bit (iOr ty a b) j = (bit a j || bit b j) := by
  simp only [bit_eq_testBit, iOr, Nat.testBit_or]

theorem iXor_bit (ty a b j : Nat) : bit (iXor ty a b) j = (bit a j ^^ bit b j) := by
  simp only [bit_eq_testBit, iXor, Nat.testBit_xor]

theorem iShl_bit {ty j : Nat} (hj : j < tyBits ty) (a k : Nat) : bit (iShl ty a k) j = (decide (k ≤ j) && bit a (j - k)) := by
  simp only [bit_eq_testBit, iShl]
  split <;> rename_i h
  · rw [Nat.zero_testBit, decide_eq_false (by omega), Bool.false_and]
  · rw [Nat.testBit_mod_two_pow, Nat.testBit_mul_two_pow, decide_eq_true hj, Bool.true_and]

/-! ### Counts -/

theorem leadingZeros_succ (n x : Nat) : leadingZeros (n + 1) x = if bit x n then 0 else leadingZeros n x + 1 := by
  simp only [leadingZeros, List.range_succ, List.reverse_append, List.reverse_singleton, List.singleton_append, List.takeWhile_cons]
  cases bit x n <;> rfl

theorem leadingZeros_zero (n : Nat) : leadingZeros n 0 = n := by
  induction n with
  | zero => rfl
  | succ n ih => rw [leadingZeros_succ, bit_eq_testBit, Nat.zero_testBit, ih]; rfl

/-- Above the highest 1 of a number stand zeros alone. -/
theorem leadingZeros_eq {n x : Nat} (h0 : x ≠ 0) (hx : x < 2 ^ n) : leadingZeros n x = n - 1 - Nat.log2 x := by
  induction n with
  | zero => omega
  | succ n ih =>
    rw [leadingZeros_succ, bit_eq_testBit]
    by_cases hlow : x < 2 ^ n
    · have hlog : x.log2 < n := (Nat.log2_lt h0).2 hlow
      rw [Nat.testBit_lt_two_pow hlow, ih hlow, if_neg Bool.false_ne_true]
      omega
    · obtain rfl : x.log2 = n := (Nat.log2_eq_iff h0).2 ⟨not_lt.1 hlow, hx⟩
      rw [Nat.testBit_log2 h0, if_pos rfl]
      omega

theorem iClz_eq {ty a : Nat} (ha : a < 2 ^ tyBits ty) : iClz ty a = leadingZeros (tyBits ty) a := by
  rw [iClz]
  split <;> rename_i h
  · rw [h, leadingZeros_zero]
  · rw [leadingZeros_eq h ha]

theorem length_filter_eq_sum {α : Type} (p : α → Bool) (xs : List α) :
    (xs.filter p).length = (xs.map fun x => if p x then 1 else 0).sum := by
  induction xs with
  | nil => rfl
  | cons x xs ih =>
    rw [List.filter_cons, List.map_cons, List.sum_cons, ← ih]
    split
    · rw [List.length_cons, Nat.add_comm]
    · rw [Nat.zero_add]

theorem iPop_eq (ty a : Nat) : iPop ty a = onesIn (tyBits ty) a := length_filter_eq_sum _ _

/-! ### Bit fields (R174) -/

/-- A signed number of `v` bits in `n` bits: above its own bits stands its sign. -/
theorem ofInt_toSigned_bit {v n j : Nat} (hv : 0 < v) (hj : j < n) (x : Nat) :
    bit (ofInt n (toSigned v x)) j = bit x (if j < v then j else v - 1) := by
  have hext : ofInt n (toSigned v x) = ((BitVec.ofNat v x).signExtend n).toNat := by
    rw [toSigned_eq_toInt, BitVec.signExtend, BitVec.toNat_ofInt, ofInt]
  rw [bit_eq_testBit, bit_eq_testBit, hext, BitVec.testBit_toNat, BitVec.getLsbD_signExtend, decide_eq_true hj, Bool.true_and]
  split <;> rename_i h
  · rw [BitVec.getLsbD_ofNat, decide_eq_true h, Bool.true_and]
  · rw [BitVec.msb_eq_getLsbD_last, BitVec.getLsbD_ofNat, decide_eq_true (Nat.sub_lt hv Nat.one_pos), Bool.true_and]

/-- The bits of a field of a pattern. -/
theorem field_bit (n a o v j : Nat) : bit (a % 2 ^ n / 2 ^ o % 2 ^ v) j = (decide (j < v) && (decide (o + j < n) && bit a (o + j))) := by
  simp only [bit_eq_testBit, Nat.testBit_mod_two_pow, Nat.testBit_div_two_pow, Nat.add_comm j o]

theorem iBfe_bit {ty j : Nat} (hj : j < tyBits ty) (a desc : Nat) :
    bit (iBfe ty a desc) j = bfeBit (tySigned ty) (tyBits ty) a desc j := by
  simp only [iBfe, bfeBit, bits_zero, show bits desc 8 8 = desc / 256 % 256 from rfl, show (2 ^ 8 : Nat) = 256 from rfl]
  generalize min (desc / 256 % 256) (tyBits ty) = v
  generalize desc % 256 = o
  split <;> rename_i hv
  · simp [hv, bit_eq_testBit]
  · have hv : 0 < v := Nat.pos_of_ne_zero hv
    cases tySigned ty
    · rw [if_neg Bool.false_ne_true, field_bit]
      split <;> rename_i h <;> simp [h]
    · rw [if_pos rfl, ofInt_toSigned_bit hv hj, field_bit]
      split <;> rename_i h <;> simp [h, hv]

theorem iBfi_bit {ty j : Nat} (hj : j < tyBits ty) (a desc c : Nat) : bit (iBfi ty a desc c) j = bfiBit a desc c j := by
  rw [iBfi, natOfBits_bit hj, bfiBit, bits_zero]
  rfl

end Sys2Proof.Machine
end

section
/-! The scalar integer instructions, and division in scalar and vector form (R167 to R174, R184). -/

namespace Sys2Proof.Machine

open Sys2Proof

/-! ### Patterns that registers hold -/

theorem Group.sVal_lt (g : Group) (ty r : Nat) : g.sVal ty r < 2 ^ tyBits ty := Nat.mod_lt _ (by positivity)

theorem Cx.sa_lt (cx : Cx) : cx.sa < 2 ^ tyBits cx.ty := cx.g.sVal_lt _ _

/-! ### From the result of an operation to what the instruction gives -/

section
variable {i : Instr} {f : Fld} {r : Row} {n : Nat} {op : Cx → Nat}

/-- An instruction of latency `n` that writes `ws`. -/
theorem does_fixAfter {ws ws' : Cx → List Wr} (hx : ∀ s, exec i s = issue i s fun cx s => .done (addFix s cx (ws cx)))
    (he : enc i = some (f, r)) (hl : r.lat = .fix n) (hw : ∀ cx, ws cx = ws' cx) :
    Does i always fun cx s => fixAfter n s cx (ws' cx) := by
  refine Does.of_effect hx he fun cx s _ hr _ _ => ?_
  rw [addFix_eq_fixAfter (n := n) (by rw [latOf, hr, hl]), hw]

theorem givesS_of_op {v : Cx → Int} (hx : ∀ s, exec i s = issue i s fun cx s => .done (sResult s cx (op cx)))
    (he : enc i = some (f, r)) (hl : r.lat = .fix n)
    (hv : ∀ cx, op cx % 2 ^ tyBits cx.ty = ofInt (tyBits cx.ty) (v cx)) : GivesS n i v :=
  does_fixAfter hx he hl fun cx => sWrite_congr ((hv cx).trans (ofInt_mod _ _).symm) _

theorem givesS32_of_op {v : Cx → Nat} (hx : ∀ s, exec i s = issue i s fun cx s => .done (sResult32 s cx (op cx)))
    (he : enc i = some (f, r)) (hl : r.lat = .fix n) (hv : ∀ cx, op cx = v cx) : GivesS32 n i v :=
  does_fixAfter hx he hl fun cx => by rw [hv]

theorem bitsS_of_op {b : Cx → Nat → Bool} (hx : ∀ s, exec i s = issue i s fun cx s => .done (sResult s cx (op cx)))
    (he : enc i = some (f, r)) (hl : r.lat = .fix n) (hb : ∀ cx, ∀ j < tyBits cx.ty, bit (op cx) j = b cx j) : BitsS n i b :=
  does_fixAfter hx he hl fun cx => sWrite_congr (by rw [natOfBits_eq_mod (hb cx), Nat.mod_mod]) _

/-- An instruction of variable latency whose scalar result is the number `v`, narrowed. -/
theorem startsS_of_op {op : Nat → Nat → Nat → Nat} {v : Cx → Int} (hx : ∀ s, exec i s = issue i s (sVar op)) (he : enc i = some (f, r))
    (hv : ∀ cx, op cx.ty cx.sa (cx.b 0) % 2 ^ tyBits cx.ty = ofInt (tyBits cx.ty) (v cx)) :
    Does i always fun cx s => startOp s cx .reg (sWrite cx.ty cx.f.d.toNat (ofInt (tyBits cx.ty) (v cx))) :=
  .of_effect hx he fun cx _ _ _ _ _ => by rw [sVar, sWrite_congr ((hv cx).trans (ofInt_mod _ _).symm)]

/-- The same of a vector result, in every active lane. -/
theorem startsV_of_op {op : Nat → Nat → Nat → Nat} {v : Cx → Nat → Int} (hx : ∀ s, exec i s = issue i s (vVar op))
    (he : enc i = some (f, r)) (hv : ∀ cx l, op cx.ty (cx.va l) (cx.b l) % 2 ^ tyBits cx.ty = ofInt (tyBits cx.ty) (v cx l)) :
    Does i always fun cx s => startOp s cx .reg (vWrite cx.ty cx.f.d.toNat cx.act fun l => ofInt (tyBits cx.ty) (v cx l)) :=
  .of_effect hx he fun cx _ _ _ _ _ => by rw [vVar, vWrite_congr fun l => (hv cx l).trans (ofInt_mod _ _).symm]

end

/-! ### The obligations -/

/-- Settles O1: each result is the operation's, which the laws of integers give exactly narrowed or bit by bit. -/
theorem scalarIntegerResults : Obligations.ScalarIntegerResults := by
  intro f
  refine ⟨⟨?sadd, ?ssub, ?smin, ?smax, ?smul, ?smulh, ?smad⟩,
    ?sand, ?sor, ?sxor, ?snot, ?sshl, ?sshr, ?sclz, ?spop, ?scmp, ?ssel, ?smov, ?sli, ?sbfe, ?sbfi⟩
  case sadd => exact givesS_of_op (fun _ => rfl) rfl rfl fun _ => mod_of_eq_ofInt (iAdd_eq _ _ _)
  case ssub => exact givesS_of_op (fun _ => rfl) rfl rfl fun _ => mod_of_eq_ofInt (iSub_eq _ _ _)
  case smin => exact givesS_of_op (fun _ => rfl) rfl rfl fun _ => iMin_mod _ _ _
  case smax => exact givesS_of_op (fun _ => rfl) rfl rfl fun _ => iMax_mod _ _ _
  case smul => exact givesS_of_op (fun _ => rfl) rfl rfl fun _ => mod_of_eq_ofInt (iMul_eq _ _ _)
  case smulh => exact givesS_of_op (fun _ => rfl) rfl rfl fun _ => mod_of_eq_ofInt (iMulh_eq _ _ _)
  case smad => exact givesS_of_op (fun _ => rfl) rfl rfl fun _ => mod_of_eq_ofInt (iMad_eq _ _ _ _)
  case sand => exact bitsS_of_op (fun _ => rfl) rfl rfl fun _ _ _ => iAnd_bit _ _ _ _
  case sor => exact bitsS_of_op (fun _ => rfl) rfl rfl fun _ _ _ => iOr_bit _ _ _ _
  case sxor => exact bitsS_of_op (fun _ => rfl) rfl rfl fun _ _ _ => iXor_bit _ _ _ _
  case snot => exact bitsS_of_op (fun _ => rfl) rfl rfl fun _ _ hj => iNot_bit hj _
  case sshl => exact bitsS_of_op (fun _ => rfl) rfl rfl fun _ _ hj => iShl_bit hj _ _
  case sshr => exact givesS_of_op (fun _ => rfl) rfl rfl fun cx => iShr_mod cx.sa_lt _
  case sclz => exact givesS32_of_op (fun _ => rfl) rfl rfl fun cx => iClz_eq cx.sa_lt
  case spop => exact givesS32_of_op (fun _ => rfl) rfl rfl fun _ => iPop_eq _ _
  case scmp => exact givesS32_of_op (fun _ => rfl) rfl rfl fun _ => congrArg (if · then 1 else 0) (iCmp_eq _ _ _ _)
  case ssel =>
    refine bitsS_of_op (fun _ => rfl) rfl rfl fun cx j _ => ?_
    rw [ite_not, apply_ite (bit · j)]
  case smov => exact does_fixAfter (fun _ => rfl) rfl rfl fun _ => rfl
  case sli => exact bitsS_of_op (fun _ => rfl) rfl rfl fun _ _ _ => rfl
  case sbfe => exact bitsS_of_op (fun _ => rfl) rfl rfl fun _ _ hj => iBfe_bit hj _ _
  case sbfi => exact bitsS_of_op (fun _ => rfl) rfl rfl fun _ _ hj => iBfi_bit hj _ _ _

/-- Settles O2: the operation that each of the four starts writes the quotient or the remainder, narrowed. -/
theorem divisionResults : Obligations.DivisionResults := by
  intro f
  refine ⟨?sdiv, ?srem, ?vdiv, ?vrem⟩
  case sdiv => exact startsS_of_op (fun _ => rfl) rfl fun _ => mod_of_eq_ofInt (iDiv_eq _ _ _)
  case srem => exact startsS_of_op (fun _ => rfl) rfl fun _ => iRem_mod _ _ _
  case vdiv => exact startsV_of_op (fun _ => rfl) rfl fun _ _ => mod_of_eq_ofInt (iDiv_eq _ _ _)
  case vrem => exact startsV_of_op (fun _ => rfl) rfl fun _ _ => iRem_mod _ _ _

end Sys2Proof.Machine
end

section
/-! NOP, YIELD and TRAP (R163 to R165, R261). -/

namespace Sys2Proof.Machine

open Sys2Proof

/-- Settles O10: the effects of the three instructions; YIELD goes by the kind of its agent. -/
theorem nopYieldTrapResults : Obligations.NopYieldTrapResults := by
  intro f
  refine ⟨⟨?nop, ?spool, ?split⟩, ?trap⟩
  case nop => exact Does.of_effect (fun _ => rfl) rfl fun _ _ _ _ _ _ => rfl
  case spool => exact Does.of_effect (fun _ => rfl) rfl fun _ _ _ _ _ hs => congrArg Eff.done (if_pos hs)
  case split => exact Does.of_effect (fun _ => rfl) rfl fun _ _ _ _ _ hs => congrArg Eff.done (if_neg (Bool.eq_false_iff.1 hs))
  case trap => exact Traps.of_effect (fun _ => rfl) rfl (fun _ _ _ _ _ _ => rfl) (fun _ _ => rfl) fun _ _ => rfl

end Sys2Proof.Machine
end

section
/-! System calls: the request, its services and its status (R166, R371, R372). -/

namespace Sys2Proof.Machine

open Sys2Proof

/-! ### Services (R371) -/

section
variable {name : String} {n len id : Nat} {s : State} {o : Op} {a : DWord}
  (act : Op → List Byte → State → Host.Outcome State Fault Refusal) (ho : s.op? id = some o) (hk : o.k = .sys n a none)
include ho hk

/-- A service without an argument block acts at once. -/
theorem service_noBlock : service name n 0 id s act = act o [] s := by
  simp [service, ho, hk]

variable (hlen : len ≠ 0)
include hlen

/-- An argument block on another path than 0x00 gives status 2. -/
theorem service_otherPath (hp : pathOf a ≠ 0) : service name n len id s act = .next (sysStatus s o 2) := by
  simp [service, ho, hk, hlen, hp]

/-- A service whose argument block reads acts on its bytes. -/
theorem service_block (hp : pathOf a = 0) {bs : List Byte} {s1 : State}
    (hr : readPlain s { opWho s o with asks := true } .load a len 1 = .ok (bs, s1)) : service name n len id s act = act o bs s1 := by
  simp [service, ho, hk, hlen, hp, hr]

end

theorem readFor_ok {name : String} {s : State} {o : Op} {a : DWord} {n : Nat} {bad : State} {go : List Byte → State → State}
    {bs : List Byte} {s1 : State} (hr : readPlain s { opWho s o with asks := true } .load a n 1 = .ok (bs, s1)) :
    readFor name s o a n bad go = .next (go bs s1) := by
  simp [readFor, hr]

/-! ### The bytes of a log, and the status -/

/-- A number below 2⁵⁶ is an address on path 0x00. -/
theorem pathOf_of_lt {x : Nat} (h : x < 2 ^ 56) : pathOf (BitVec.ofNat 64 x) = 0 := by
  rw [pathOf, bits, BitVec.toNat_ofNat, Nat.mod_eq_of_lt (h.trans (by decide)), Nat.div_eq_of_lt h, Nat.zero_mod]

/-- A log whose block and bytes read is a record of the bytes, cut at 4,096 (log 66). -/
theorem execSysServiceLog_of_reads {s : State} {id : Nat} {o : Op} {a : DWord} (ho : s.op? id = some o) (hk : o.k = .sys 1 a none)
    (hp : pathOf a = 0) {bs data : List Byte} {s1 s2 : State}
    (hb : readPlain s { opWho s o with asks := true } .load a 12 1 = .ok (bs, s1)) (haddr : natOfBytes (bs.take 8) < 2 ^ 56)
    (hlen : 0 < natOfBytes ((bs.drop 8).take 4))
    (hd : readPlain s1 { opWho s1 o with asks := true } .load (BitVec.ofNat 64 (natOfBytes (bs.take 8)))
      (min (natOfBytes ((bs.drop 8).take 4)) 4096) 1 = .ok (data, s2)) :
    execSysServiceLog id s = .next (appendLog s2 o data) := by
  rw [execSysServiceLog, service_block _ ho hk (by decide) hp hb]
  dsimp only
  rw [if_neg (not_not_intro (pathOf_of_lt haddr)), if_neg (by omega), readFor_ok hd]

theorem execSysComplete_of_status {s : State} {id : Nat} {o : Op} {v : Nat} {a : DWord} {st : Word} {d : Nat} {x : Word}
    (ho : s.op? id = some o) (hk : o.k = .sys v a (some st)) (hw : o.wrs = [.s d x]) :
    execSysComplete id s = .next (completeOp s { o with wrs := [.s d st] }) := by
  simp only [execSysComplete, ho, hk, hw]

/-! ### The obligation -/

/-- Settles O15: SYS starts a request; its service goes by its number, and by the path and the bytes of its argument block. -/
theorem systemCallResults : Obligations.SystemCallResults := by
  refine ⟨fun f => ⟨?request, fun s id o v a st d x => execSysComplete_of_status⟩, fun s id o a ho => ?services⟩
  case request => exact Does.of_effect (fun _ => rfl) rfl fun _ _ _ _ _ _ => rfl
  case services =>
    refine ⟨fun hk => ?none, fun hp hk => ?logPath, fun hp hk => ?vectorPath, fun hp hk => ?writePath, fun bs s1 hp hk hr => ?vector,
      fun bs s1 hp hk hr => ?write, fun bs s1 data s2 hp hk => execSysServiceLog_of_reads ho hk hp⟩
    case' none => change execSysServiceNone id s = _
    case' logPath => change execSysServiceLog id s = _
    case' vectorPath | vector => change execSysServiceRaiseVector id s = _
    case' writePath | write => change execSysServiceHostWrite id s = _
    case none => rw [execSysServiceNone, service_noBlock _ ho hk]
    case logPath => rw [execSysServiceLog, service_otherPath _ ho hk (by decide) hp]
    case vectorPath => rw [execSysServiceRaiseVector, service_otherPath _ ho hk (by decide) hp]
    case writePath => rw [execSysServiceHostWrite, service_otherPath _ ho hk (by decide) hp]
    case vector => rw [execSysServiceRaiseVector, service_block _ ho hk (by decide) hp hr]
    case write => rw [execSysServiceHostWrite, service_block _ ho hk (by decide) hp hr]

end Sys2Proof.Machine
end

section
/-! The vector integer instructions (R182, R183, R185 to R188). -/

namespace Sys2Proof.Machine

open Sys2Proof

/-! ### Patterns that lanes hold -/

theorem Group.vVal_lt (g : Group) (ty r l : Nat) : g.vVal ty r l < 2 ^ tyBits ty := Nat.mod_lt _ (by positivity)

theorem Cx.va_lt (cx : Cx) (l : Nat) : cx.va l < 2 ^ tyBits cx.ty := cx.g.vVal_lt _ _ _

/-! ### Saturation, magnitude and reversal (R182, R188) -/

theorem tyMin_le_tyMax (ty : Nat) : tyMin ty ≤ tyMax ty := by
  have h (n : Nat) : 0 < 2 ^ n := by positivity
  have := h (tyBits ty)
  have := h (tyBits ty - 1)
  unfold tyMin tyMax
  split <;> omega

/-- A saturated number is the number held between the least and the largest one of its type. -/
theorem tySat_eq_clamp (ty : Nat) (x : Int) : tySat ty x = max (tyMin ty) (min (tyMax ty) x) := by
  have := tyMin_le_tyMax ty
  unfold tySat
  split
  · omega
  · split <;> omega

theorem iAddSat_eq (ty a b : Nat) :
    iAddSat ty a b = ofInt (tyBits ty) (max (tyMin ty) (min (tyMax ty) (tyVal ty a + tyVal ty b))) := by
  rw [iAddSat, tySat_eq_clamp]

theorem iSubSat_eq (ty a b : Nat) :
    iSubSat ty a b = ofInt (tyBits ty) (max (tyMin ty) (min (tyMax ty) (tyVal ty a - tyVal ty b))) := by
  rw [iSubSat, tySat_eq_clamp]

theorem iAbs_eq (ty a : Nat) : iAbs ty a = ofInt (tyBits ty) |tyVal ty a| := by rw [iAbs, Int.natCast_natAbs]

theorem iBrev_bit {ty j : Nat} (hj : j < tyBits ty) (a : Nat) : bit (iBrev ty a) j = bit a (tyBits ty - 1 - j) := natOfBits_bit hj _

theorem iBrevFld_bit {ty j : Nat} (hj : j < tyBits ty) (a desc : Nat) :
    bit (iBrevFld ty a desc) j = brevBit (tyBits ty) a desc j := by
  rw [iBrevFld, natOfBits_bit hj, brevBit, bits_zero, show bits desc 8 8 = desc / 256 % 256 from rfl, show (2 ^ 8 : Nat) = 256 from rfl]
  generalize min (desc / 256 % 256) (tyBits ty - desc % 256) = w
  split <;> rename_i h
  · rw [show desc % 256 + (w - 1 - (j - desc % 256)) = 2 * (desc % 256) + w - 1 - j by omega]
  · rfl

/-! ### From the result of an operation to what the instruction gives -/

/-- A lane's n32 value as it is written. -/
theorem widen_word (v : Word) : (widen 1 v.toNat).extractLsb' 0 32 = v := by
  have hv : v.toNat % 2 ^ tyBits 1 = v.toNat := Nat.mod_eq_of_lt v.isLt
  rw [widen, if_neg (by decide), hv, extractLsb'_zero_eq_setWidth]
  simp

theorem vWrite_word (d : Nat) (m : Mask) (v : Nat → Word) : vWrite 1 d m (fun l => (v l).toNat) = [.v d m (lanesOf v)] := by
  rw [vWrite, if_neg (by decide)]
  simp only [widen_word]

section
variable {i : Instr} {f : Fld} {r : Row} {n : Nat} {op : Cx → Nat → Nat}

theorem latOf_fix (hr : r.lat = .fix n) {cx : Cx} (h : cx.r = r) : latOf cx = n := by rw [latOf, h, hr]

theorem givesV_of_op {v : Cx → Nat → Int} (hx : ∀ s, exec i s = issue i s fun cx s => .done (vResult s cx (op cx)))
    (he : enc i = some (f, r)) (hl : r.lat = .fix n)
    (hv : ∀ cx l, op cx l % 2 ^ tyBits cx.ty = ofInt (tyBits cx.ty) (v cx l)) : GivesV n i v :=
  does_fixAfter hx he hl fun cx => vWrite_congr (fun l => (hv cx l).trans (ofInt_mod _ _).symm) _ _

theorem givesV32_of_op {v : Cx → Nat → Nat} (hx : ∀ s, exec i s = issue i s fun cx s => .done (vResultAs s cx 1 (op cx)))
    (he : enc i = some (f, r)) (hl : r.lat = .fix n) (hv : ∀ cx l, op cx l = v cx l) : GivesV32 n i v :=
  does_fixAfter hx he hl fun cx => congrArg (vWrite 1 cx.f.d.toNat cx.act) (funext (hv cx))

theorem bitsV_of_op {b : Cx → Nat → Nat → Bool} (hx : ∀ s, exec i s = issue i s fun cx s => .done (vResult s cx (op cx)))
    (he : enc i = some (f, r)) (hl : r.lat = .fix n)
    (hb : ∀ cx l, ∀ j < tyBits cx.ty, bit (op cx l) j = b cx l j) : BitsV n i b :=
  does_fixAfter hx he hl fun cx => vWrite_congr (fun l => by rw [natOfBits_eq_mod (hb cx l), Nat.mod_mod]) _ _

theorem givesP_of_op {op v : Cx → Nat → Bool} (hx : ∀ s, exec i s = issue i s fun cx s => .done (pResult s cx (op cx)))
    (he : enc i = some (f, r)) (hl : r.lat = .fix n) (hv : ∀ cx l, op cx l = v cx l) : GivesP n i v :=
  does_fixAfter hx he hl fun cx => by rw [funext (hv cx)]

end

/-! ### The obligation -/

/-- Settles O3: in each lane the result is the operation's, which the laws of integers give exactly narrowed, saturated or bit by bit. -/
theorem vectorIntegerResults : Obligations.VectorIntegerResults := by
  intro f
  refine ⟨⟨fun hm => ?vadd, fun hm => ?vaddSat, fun hm => ?vsub, fun hm => ?vsubSat, ?vmin, ?vmax, ?vabs, ?vmul, ?vmulh, ?vmad⟩,
    ?vand, ?vor, ?vxor, ?vnot, ?vshl, ?vshr, ?vclz, ?vpop, ?vbrev, ?vcmp, ?vsel, ?vmov, ?vli, ?vbfe, ?vbfi, ?vbrevFld⟩
  case vadd =>
    refine givesV_of_op (fun _ => rfl) rfl rfl fun cx l => ?_
    rw [if_neg hm]
    exact mod_of_eq_ofInt (iAdd_eq _ _ _)
  case vaddSat =>
    refine givesV_of_op (fun _ => rfl) rfl rfl fun cx l => ?_
    rw [if_pos hm]
    exact mod_of_eq_ofInt (iAddSat_eq _ _ _)
  case vsub =>
    refine givesV_of_op (fun _ => rfl) rfl rfl fun cx l => ?_
    rw [if_neg hm]
    exact mod_of_eq_ofInt (iSub_eq _ _ _)
  case vsubSat =>
    refine givesV_of_op (fun _ => rfl) rfl rfl fun cx l => ?_
    rw [if_pos hm]
    exact mod_of_eq_ofInt (iSubSat_eq _ _ _)
  case vmin => exact givesV_of_op (fun _ => rfl) rfl rfl fun _ _ => iMin_mod _ _ _
  case vmax => exact givesV_of_op (fun _ => rfl) rfl rfl fun _ _ => iMax_mod _ _ _
  case vabs => exact givesV_of_op (fun _ => rfl) rfl rfl fun _ _ => mod_of_eq_ofInt (iAbs_eq _ _)
  case vmul => exact givesV_of_op (fun _ => rfl) rfl rfl fun _ _ => mod_of_eq_ofInt (iMul_eq _ _ _)
  case vmulh => exact givesV_of_op (fun _ => rfl) rfl rfl fun _ _ => mod_of_eq_ofInt (iMulh_eq _ _ _)
  case vmad => exact givesV_of_op (fun _ => rfl) rfl rfl fun _ _ => mod_of_eq_ofInt (iMad_eq _ _ _ _)
  case vand => exact bitsV_of_op (fun _ => rfl) rfl rfl fun _ _ _ _ => iAnd_bit _ _ _ _
  case vor => exact bitsV_of_op (fun _ => rfl) rfl rfl fun _ _ _ _ => iOr_bit _ _ _ _
  case vxor => exact bitsV_of_op (fun _ => rfl) rfl rfl fun _ _ _ _ => iXor_bit _ _ _ _
  case vnot => exact bitsV_of_op (fun _ => rfl) rfl rfl fun _ _ _ hj => iNot_bit hj _
  case vshl => exact bitsV_of_op (fun _ => rfl) rfl rfl fun _ _ _ hj => iShl_bit hj _ _
  case vshr => exact givesV_of_op (fun _ => rfl) rfl rfl fun cx l => iShr_mod (cx.va_lt l) _
  case vclz => exact givesV32_of_op (fun _ => rfl) rfl rfl fun cx l => iClz_eq (cx.va_lt l)
  case vpop => exact givesV32_of_op (fun _ => rfl) rfl rfl fun _ _ => iPop_eq _ _
  case vbrev => exact bitsV_of_op (fun _ => rfl) rfl rfl fun _ _ _ hj => iBrev_bit hj _
  case vcmp => exact givesP_of_op (fun _ => rfl) rfl rfl fun _ _ => iCmp_eq _ _ _ _
  case vsel => exact bitsV_of_op (fun _ => rfl) rfl rfl fun _ _ j _ => apply_ite (bit · j) _ _ _
  case vmov => exact does_fixAfter (fun _ => rfl) rfl rfl fun _ => vWrite_word _ _ _
  case vli => exact bitsV_of_op (fun _ => rfl) rfl rfl fun _ _ _ _ => rfl
  case vbfe => exact bitsV_of_op (fun _ => rfl) rfl rfl fun _ _ _ hj => iBfe_bit hj _ _
  case vbfi => exact bitsV_of_op (fun _ => rfl) rfl rfl fun _ _ _ hj => iBfi_bit hj _ _ _
  case vbrevFld => exact bitsV_of_op (fun _ => rfl) rfl rfl fun _ _ _ hj => iBrevFld_bit hj _ _

end Sys2Proof.Machine
end

section
/-! Predicates, votes and movement across lanes (R198 to R200, R203, R204). -/

namespace Sys2Proof.Machine

open Sys2Proof

/-! ### Predicates -/

theorem eq_maskOf {m : Mask} {p : Nat → Bool} (h : ∀ l < 64, m.getLsbD l = p l) : m = maskOf p :=
  BitVec.eq_of_getLsbD_eq fun l hl => (h l hl).trans (maskOf_getLsbD p hl).symm

/-- A predicate source is inverted by its bit of M (R198). -/
theorem Cx.pSrc_getLsbD (cx : Cx) (r m : Nat) {l : Nat} (hl : l < 64) :
    (cx.pSrc r m).getLsbD l = ((cx.g.rp r).getLsbD l ^^ bit cx.m m) := by
  unfold Cx.pSrc
  cases bit cx.m m <;> simp [hl]

theorem givesP_of_mask {i : Instr} {f : Fld} {r : Row} {n : Nat} {x : Cx → Mask} {v : Cx → Nat → Bool}
    (hx : ∀ s, exec i s = issue i s fun cx s => .done (addFix s cx [.p (cx.f.d.toNat % 8) cx.act (x cx)]))
    (he : enc i = some (f, r)) (hl : r.lat = .fix n) (hv : ∀ cx, ∀ l < 64, (x cx).getLsbD l = v cx l) : GivesP n i v :=
  does_fixAfter hx he hl fun cx => by rw [eq_maskOf (hv cx)]

/-! ### Votes -/

theorem votes_getLsbD (cx : Cx) (l : Nat) :
    (votes cx).2.getLsbD l = (cx.actNH.getLsbD l && (cx.g.rp (cx.f.a.toNat % 8)).getLsbD l) := BitVec.getLsbD_and

/-- All voting lanes hold the predicate where those that hold it are all that vote. -/
theorem votes_all (cx : Cx) : ((votes cx).1 == (votes cx).2) =
    (List.range 64).all fun l => !cx.actNH.getLsbD l || (cx.actNH.getLsbD l && (cx.g.rp (cx.f.a.toNat % 8)).getLsbD l) := by
  rw [Bool.eq_iff_iff, beq_iff_eq, BitVec.eq_of_getLsbD_eq_iff, List.all_eq_true]
  refine forall_congr' fun l => ?_
  rw [votes_getLsbD, List.mem_range, votes]
  cases cx.actNH.getLsbD l <;> simp

/-- Some voting lane holds the predicate where those that hold it are not none. -/
theorem votes_any (cx : Cx) : ((votes cx).2 != 0) =
    (List.range 64).any fun l => cx.actNH.getLsbD l && (cx.g.rp (cx.f.a.toNat % 8)).getLsbD l := by
  rw [Bool.eq_iff_iff, bne_iff_ne, ne_eq, BitVec.eq_of_getLsbD_eq_iff, List.any_eq_true, not_forall]
  refine exists_congr fun l => ?_
  rw [votes_getLsbD, List.mem_range, show (0 : Mask).getLsbD l = false from BitVec.getLsbD_zero, Classical.not_imp, Bool.not_eq_false]

theorem votes_natOfBits (cx : Cx) : (votes cx).2.toNat % 2 ^ 64 =
    natOfBits 64 fun l => cx.actNH.getLsbD l && (cx.g.rp (cx.f.a.toNat % 8)).getLsbD l :=
  (natOfBits_eq_mod fun l _ => by rw [bit_toNat, votes_getLsbD]).symm

/-! ### Movement across lanes -/

theorem inGroup_natCast (x l : Nat) : (if x < W then x else l) = if 0 ≤ (x : Int) ∧ (x : Int) < 64 then (x : Int).toNat else l := by
  simp [W]

/-- The lane that SHFL reads, as the table of R200 names it: its own where that is out of range. -/
theorem shflSrc_eq (mode k l : Nat) :
    let src : Int := [(l : Int) - k, (l : Int) + k, ((l ^^^ k : Nat) : Int), (k : Int)].getD mode k
    shflSrc mode k l = if 0 ≤ src ∧ src < 64 then src.toNat else l := by
  match mode with
  | 0 =>
    change shflSrc 0 k l = if 0 ≤ (l : Int) - k ∧ (l : Int) - k < 64 then ((l : Int) - k).toNat else l
    rcases Nat.lt_or_ge l k with h | h
    · rw [if_neg (by omega)]
      simp [shflSrc, h.not_ge]
    · rw [← Int.natCast_sub h, ← inGroup_natCast]
      simp [shflSrc, h]
  | 1 => exact inGroup_natCast (l + k) l
  | 2 => exact inGroup_natCast (l ^^^ k) l
  | 3 | _ + 4 => exact inGroup_natCast k l

/-- A value that moves to a lane is the number it is there, narrowed. -/
theorem va_mod_eq_ofInt (cx : Cx) (l : Nat) : cx.vaAt l % 2 ^ tyBits cx.ty = ofInt (tyBits cx.ty) (tyVal cx.ty (cx.va l)) :=
  (ofInt_tyVal _ _).symm

/-! ### The obligation -/

/-- Settles O8: predicates and votes lane by lane, and each moved value from the lane that its table names. -/
theorem predicateAndLaneResults : Obligations.PredicateAndLaneResults := by
  intro f
  refine ⟨⟨?pand, ?por, ?pxor, ?pnot, ?voteAll, ?voteAny, ?ballot, ?ballotNone⟩, ?shfl, ?qswz, ?qbc, ?vreadl, ?vreadlNone, ?vwritel⟩
  case pand =>
    refine givesP_of_mask (fun _ => rfl) rfl rfl fun cx l hl => ?_
    rw [BitVec.getLsbD_and, cx.pSrc_getLsbD _ _ hl, cx.pSrc_getLsbD _ _ hl]
  case por =>
    refine givesP_of_mask (fun _ => rfl) rfl rfl fun cx l hl => ?_
    rw [BitVec.getLsbD_or, cx.pSrc_getLsbD _ _ hl, cx.pSrc_getLsbD _ _ hl]
  case pxor =>
    refine givesP_of_mask (fun _ => rfl) rfl rfl fun cx l hl => ?_
    rw [BitVec.getLsbD_xor, cx.pSrc_getLsbD _ _ hl, cx.pSrc_getLsbD _ _ hl]
  case pnot =>
    refine givesP_of_mask (fun _ => rfl) rfl rfl fun cx l hl => ?_
    rw [BitVec.getLsbD_not, decide_eq_true hl, Bool.true_and, cx.pSrc_getLsbD _ _ hl]
  case voteAll => exact givesP_of_op (fun _ => rfl) rfl rfl fun cx _ => votes_all cx
  case voteAny => exact givesP_of_op (fun _ => rfl) rfl rfl fun cx _ => votes_any cx
  case ballot =>
    refine Does.of_effect (fun _ => rfl) rfl fun cx s _ hr _ h => ?_
    rw [if_neg h, addFix_eq_fixAfter (latOf_fix rfl hr),
      sWrite_congr ((votes_natOfBits cx).trans (Nat.mod_eq_of_lt (natOfBits_lt _ _)).symm)]
  case ballotNone => exact Does.of_effect (fun _ => rfl) rfl fun _ _ _ _ _ h => congrArg Eff.done (if_pos h)
  case shfl =>
    refine givesV_of_op (fun _ => rfl) rfl rfl fun cx l => ?_
    rw [shflSrc_eq]
    exact va_mod_eq_ofInt cx _
  case qswz =>
    refine givesV_of_op (fun _ => rfl) rfl rfl fun cx l => ?_
    rw [Nat.mul_comm (l / 4), bits, Nat.pow_mul]
    exact va_mod_eq_ofInt cx _
  case qbc =>
    refine givesV_of_op (fun _ => rfl) rfl rfl fun cx l => ?_
    rw [Nat.mul_comm (l / 4)]
    exact va_mod_eq_ofInt cx _
  case vreadl =>
    refine Does.of_effect (fun _ => rfl) rfl fun cx s _ hr _ h => ?_
    rw [if_neg h, addFix_eq_fixAfter (latOf_fix rfl hr)]
    rfl
  case vreadlNone => exact Does.of_effect (fun _ => rfl) rfl fun _ _ _ _ _ h => congrArg Eff.done (if_pos h)
  case vwritel => exact does_fixAfter (fun _ => rfl) rfl rfl fun _ => rfl

end Sys2Proof.Machine
end

section
/-! Floating-point instructions and conversions (R189 to R197). -/

namespace Sys2Proof.Machine

open Sys2Proof

/-! ### From the result of an operation to what the instruction gives -/

section
variable {i : Instr} {f : Fld} {r : Row} {n : Cx → Nat}

/-- An instruction of fixed latency that writes `ws` and raises `fl`. -/
theorem does_fixAfter_flags {ws ws' : Cx → List Wr} {fl fl' : Cx → BitVec 5}
    (hx : ∀ s, exec i s = issue i s fun cx s => .done (addFixF s cx (ws cx) (fl cx))) (he : enc i = some (f, r))
    (hl : ∀ cx : Cx, cx.r = r → latOf cx = n cx) (hw : ∀ cx, ws cx = ws' cx) (hfl : ∀ cx, fl cx = fl' cx) :
    Does i always fun cx s => mergeFlags (fixAfter (n cx) s cx (ws' cx)) cx.gk (fl' cx) :=
  .of_effect hx he fun cx s _ hr _ _ => by rw [addFixF, addFix_eq_fixAfter (hl cx hr), hw, hfl]

theorem givesF_of_op {ty : Cx → Nat} {op v : Cx → Nat → FR}
    (hx : ∀ s, exec i s = issue i s fun cx s => .done (fResult s cx (ty cx) (op cx))) (he : enc i = some (f, r))
    (hl : ∀ cx : Cx, cx.r = r → latOf cx = n cx) (hv : ∀ cx l, op cx l = v cx l) : GivesF n i ty v :=
  funext₂ hv ▸ does_fixAfter_flags hx he hl (fun _ => rfl) fun _ => rfl

/-- The latency of a float row is that of its type (R189, R190, R193). -/
theorem latOf_fixF (hr : r.lat = .fixF) {cx : Cx} (h : cx.r = r) : latOf cx = floatLat cx := by
  rw [latOf, h, hr, floatLat]

/-- A float instruction of the row latency of its type. -/
theorem givesFloat {op : Cx → Nat → FR} (hx : ∀ s, exec i s = issue i s fun cx s => .done (fResult s cx cx.ty (op cx)))
    (he : enc i = some (f, r)) (hl : r.lat = .fixF) : GivesF floatLat i (·.ty) op :=
  givesF_of_op hx he (fun _ => latOf_fixF hl) fun _ _ => rfl

/-- A float instruction of variable latency. -/
theorem startsF_of_op {op : Cx → Nat → FR} (hx : ∀ s, exec i s = issue i s fun cx s => .done (fVarResult s cx (op cx)))
    (he : enc i = some (f, r)) : StartsF i op :=
  .of_effect hx he fun _ _ _ _ _ _ => rfl

end

/-! ### Fixed and variable latency -/

/-- Settles O4: each instruction delivers its operation's value and flags with the latency of its row. -/
theorem floatFixedResults : Obligations.FloatFixedResults := by
  intro f
  refine ⟨?fadd, ?fsub, ?fmul, ?fmin, ?fmax, ?fldexp, ?ffma, ?frnd, ?fclass, ?fcmp⟩
  case fadd | fsub | fmul | fmin | fmax | fldexp | ffma | frnd => exact givesFloat (fun _ => rfl) rfl rfl
  case fclass =>
    refine Does.of_effect (fun _ => rfl) rfl fun cx s _ hr _ _ => ?_
    rw [vResultAs, addFix_eq_fixAfter (latOf_fixF rfl hr)]
  case fcmp => exact does_fixAfter_flags (fun _ => rfl) rfl (fun _ => latOf_fix rfl) (fun _ => rfl) fun _ => rfl

/-- Settles O5: the operation of each function starts with the function's value and flags. -/
theorem floatFunctionResults : Obligations.FloatFunctionResults := by
  intro f
  refine ⟨?frcp, ?frsq, ?fsqrt, ?fdiv, ?fexp2, ?flog2, ?fsin, ?fcos⟩
  case frcp | frsq | fsqrt | fdiv | fexp2 | flog2 | fsin | fcos => exact startsF_of_op (fun _ => rfl) rfl

/-! ### Conversions -/

/-- A conversion by the kinds of its two types (R194). -/
theorem convert_eq (td ts mode x : Nat) : convert td ts mode x =
    if tyFloat td then (if tyFloat ts then cvtFF (fmtOf ts) (fmtOf td) mode x else cvtIF (fmtOf td) mode (tyVal ts x))
    else if tyFloat ts then cvtFI (fmtOf ts) td mode x
    else (cvtII td (tyVal ts x), 0) := by
  unfold convert
  cases tyFloat td <;> cases tyFloat ts <;> rfl

/-- The halves of a packed pair (R75). -/
theorem low_half (v : Word) : v.toNat / 2 ^ (16 * 0) % 2 ^ 16 = v.toNat % 65536 := by omega

theorem high_half (v : Word) : v.toNat / 2 ^ (16 * 1) % 2 ^ 16 = v.toNat / 65536 := by
  have := v.isLt
  omega

/-- Settles O7: the conversions by the kinds of their types, and the halves of a packed pair. -/
theorem conversionResults : Obligations.ConversionResults := by
  intro f
  refine ⟨?cvt, ?pack2, ?unpk2, ?cvtkb, ?unpkb⟩
  case cvt => exact givesF_of_op (fun _ => rfl) rfl (fun _ => latOf_fix rfl) fun _ _ => convert_eq _ _ _ _
  case pack2 => exact givesF_of_op (ty := fun _ => 1) (fun _ => rfl) rfl (fun _ => latOf_fix rfl) fun _ _ => rfl
  case unpk2 =>
    refine Does.of_effect (fun _ => rfl) rfl fun cx s _ hr _ _ => ?_
    simp only [low_half, high_half]
    rw [addFixF, addFix_eq_fixAfter (latOf_fix rfl hr)]
    rfl
  case cvtkb => exact Does.of_effect (fun _ => rfl) rfl fun _ _ _ _ _ _ => rfl
  case unpkb => exact Does.of_effect (fun _ => rfl) rfl fun _ _ _ _ _ _ => rfl

end Sys2Proof.Machine
end

section
/-! The slot of a spilled register (R211 to R213). -/

namespace Sys2Proof.Machine

open Sys2Proof

/-! ### Numbers among bytes -/

@[simp] theorem length_bytesOfNat (n x : Nat) : (bytesOfNat n x).length = n := by simp [bytesOfNat]

theorem bytesOfNat_succ (n x : Nat) : bytesOfNat (n + 1) x = BitVec.ofNat 8 x :: bytesOfNat n (x / 256) := by
  simp only [bytesOfNat, List.range_succ_eq_map, List.map_cons, List.map_map, Nat.pow_zero, Nat.div_one, List.cons.injEq, true_and]
  refine List.map_congr_left fun i _ => ?_
  rw [Function.comp_apply, Nat.succ_eq_add_one, Nat.pow_succ', Nat.div_div_eq_div_mul]

theorem natOfBytes_bytesOfNat (n x : Nat) : natOfBytes (bytesOfNat n x) = x % 256 ^ n := by
  induction n generalizing x with
  | zero => rw [Nat.pow_zero, Nat.mod_one]; rfl
  | succ n ih => rw [bytesOfNat_succ, natOfBytes, ih, Nat.pow_succ', Nat.mod_mul, BitVec.toNat_ofNat]

/-- One part of a row of parts of `n` bytes each. -/
theorem part_flatMap {n : Nat} {g : Nat → List Byte} (hg : ∀ x, (g x).length = n) (xs : List Nat) {l : Nat} (hl : l < xs.length) :
    ((xs.flatMap g).drop (n * l)).take n = g xs[l] := by
  induction xs generalizing l with
  | nil => exact absurd hl (Nat.not_lt_zero l)
  | cons x xs ih =>
    rw [List.flatMap_cons]
    cases l with
    | zero => exact List.take_left' (hg x)
    | succ l =>
      rw [Nat.mul_succ, Nat.add_comm, ← hg x, List.drop_length_add_append, hg x, ih (Nat.lt_of_succ_lt_succ hl)]
      rfl

/-- DATA with `n` bytes for each lane. -/
def laneParts (n : Nat) (x : Nat → Word) : List Byte := (List.range W).flatMap fun l => bytesOfNat n (x l).toNat

theorem natOfBytes_lanePart (n : Nat) (x : Nat → Word) {l : Nat} (hl : l < 64) :
    natOfBytes (((laneParts n x).drop (n * l)).take n) = (x l).toNat % 256 ^ n := by
  have hr : l < (List.range W).length := by rwa [List.length_range]
  rw [laneParts, part_flatMap (fun _ => length_bytesOfNat n _) _ hr, natOfBytes_bytesOfNat, List.getElem_range]

/-! ### What a slot holds -/

/-- The header of a slot (R211). -/
def spillHeader (lm : Mask) (v : Nat → Word) : List Byte :=
  bytesOfNat 4 (spillFmt lm v).1 ++ bytesOfNat 4 (spillFmt lm v).2.toNat ++ List.replicate 8 0

/-- The value of a lane of the launch mask, less the base. -/
def spillDelta (lm : Mask) (v : Nat → Word) (l : Nat) : Word := if lm.getLsbD l then v l - (spillFmt lm v).2 else 0

/-- DATA of a slot by its format. -/
def spillData (lm : Mask) (v : Nat → Word) : List Byte := match (spillFmt lm v).1 with
  | 0 => laneParts 4 fun l => if lm.getLsbD l then v l else 0
  | 1 => []
  | 2 => laneParts 1 (spillDelta lm v)
  | _ => laneParts 2 (spillDelta lm v)

theorem spillBytes_eq (lm : Mask) (v : Nat → Word) : spillBytes lm v = spillHeader lm v ++ spillData lm v := rfl

theorem length_spillHeader (lm : Mask) (v : Nat → Word) : (spillHeader lm v).length = 16 := by simp [spillHeader]

theorem spillHeader_base (lm : Mask) (v : Nat → Word) :
    natOfBytes (((spillHeader lm v).drop 4).take 4) = (spillFmt lm v).2.toNat := by
  rw [spillHeader, List.append_assoc, List.drop_left' (length_bytesOfNat 4 _), List.take_left' (length_bytesOfNat 4 _),
    natOfBytes_bytesOfNat]
  exact Nat.mod_eq_of_lt (BitVec.isLt _)

/-- What each format says of the lanes of the launch mask (R212). -/
theorem spillFmt_cases (lm : Mask) (v : Nat → Word) :
    (spillFmt lm v).1 = 0 ∨
    ((spillFmt lm v).1 = 1 ∧ ∀ l ∈ lanesIn lm, (v l - (spillFmt lm v).2).toInt = 0) ∨
    ((spillFmt lm v).1 = 2 ∧ ∀ l ∈ lanesIn lm, -128 ≤ (v l - (spillFmt lm v).2).toInt ∧ (v l - (spillFmt lm v).2).toInt ≤ 127) ∨
    ((spillFmt lm v).1 = 3 ∧ ∀ l ∈ lanesIn lm, -32768 ≤ (v l - (spillFmt lm v).2).toInt ∧ (v l - (spillFmt lm v).2).toInt ≤ 32767) := by
  simp only [spillFmt]
  split
  case isTrue h => exact .inr (.inl ⟨rfl, fun l hl => by simpa using List.all_eq_true.1 h l hl⟩)
  case isFalse =>
    split
    case isTrue h => exact .inr (.inr (.inl ⟨rfl, fun l hl => by simpa using List.all_eq_true.1 h l hl⟩))
    case isFalse =>
      split
      case isTrue h => exact .inr (.inr (.inr ⟨rfl, fun l hl => by simpa using List.all_eq_true.1 h l hl⟩))
      case isFalse => exact .inl rfl

theorem spillFmt_le (lm : Mask) (v : Nat → Word) : (spillFmt lm v).1 ≤ 3 := by
  rcases spillFmt_cases lm v with h | ⟨h, -⟩ | ⟨h, -⟩ | ⟨h, -⟩ <;> omega

theorem spillHeader_fmt (lm : Mask) (v : Nat → Word) : natOfBytes ((spillHeader lm v).take 4) = (spillFmt lm v).1 := by
  have := spillFmt_le lm v
  rw [spillHeader, List.append_assoc, List.take_left' (length_bytesOfNat 4 _), natOfBytes_bytesOfNat]
  omega

/-! ### A value from its base -/

/-- A word whose number `k` bits hold is that number when its low `k` bits are read in two's complement. -/
theorem toSigned_low {k : Nat} (hk : k ≤ 32) {d : Word} (hlo : -((2 ^ k : Nat) / 2 : Int) ≤ d.toInt)
    (hhi : d.toInt < ((2 ^ k : Nat) + 1 : Int) / 2) : toSigned k (d.toNat % 2 ^ k) = d.toInt := by
  rw [toSigned_mod, toSigned_eq_toInt, BitVec.ofNat_toNat, BitVec.toInt_setWidth, ← Int.bmod_bmod_of_dvd (pow_dvd_pow 2 hk),
    ← BitVec.toInt_eq_toNat_bmod, Int.bmod_eq_of_le hlo hhi]

theorem ofInt_base_add (base v : Word) : ofInt 32 (base.toNat + (v - base).toInt) = v.toNat := by
  rw [ofInt, ← BitVec.toNat_ofInt, BitVec.ofInt_add, BitVec.ofInt_natCast, BitVec.ofNat_toNat, BitVec.setWidth_eq, BitVec.ofInt_toInt,
    BitVec.add_comm, BitVec.sub_add_cancel]

/-! ### What is read of a slot -/

theorem fillLane_spilled {lm : Mask} {v : Nat → Word} {l : Nat} (hl : l < 64) (hm : lm.getLsbD l = true) :
    fillLane (spillHeader lm v) (spillData lm v) l = (v l).toNat := by
  have hmem : l ∈ lanesIn lm := List.mem_filter.2 ⟨List.mem_range.2 hl, hm⟩
  have hd : spillDelta lm v l = v l - (spillFmt lm v).2 := if_pos hm
  simp only [fillLane, spillHeader_fmt, spillHeader_base, spillData]
  rcases spillFmt_cases lm v with h | ⟨h, hx⟩ | ⟨h, hx⟩ | ⟨h, hx⟩ <;> simp only [h]
  · change natOfBytes _ = _
    rw [natOfBytes_lanePart _ _ hl, if_pos hm]
    exact Nat.mod_eq_of_lt (v l).isLt
  · have hv : v l - (spillFmt lm v).2 = 0 := BitVec.toInt_inj.1 ((hx l hmem).trans BitVec.toInt_zero.symm)
    rw [sub_eq_zero.1 hv]
  · obtain ⟨hlo, hhi⟩ := hx l hmem
    rw [natOfBytes_lanePart _ _ hl, hd, show 256 ^ 1 = 2 ^ 8 from rfl, toSigned_low (by decide) (by omega) (by omega), ofInt_base_add]
  · obtain ⟨hlo, hhi⟩ := hx l hmem
    rw [natOfBytes_lanePart _ _ hl, hd, show 256 ^ 2 = 2 ^ 16 from rfl, toSigned_low (by decide) (by omega) (by omega), ofInt_base_add]

/-- Settles O22: the header gives back the format and the base, DATA the lane's part, and the base with the part the value. -/
theorem spilledRegisterFillsBack : Obligations.SpilledRegisterFillsBack := by
  intro lm v _ l hl hm
  have htake : (spillBytes lm v).take 16 = spillHeader lm v := List.take_left' (length_spillHeader lm v)
  have hdrop : (spillBytes lm v).drop 16 = spillData lm v := List.drop_left' (length_spillHeader lm v)
  have hfmt : (spillBytes lm v).take 4 = (spillHeader lm v).take 4 := by rw [← htake, List.take_take]; rfl
  rw [htake, hdrop, hfmt, spillHeader_fmt]
  exact ⟨spillFmt_le lm v, fillLane_spilled hl hm⟩

end Sys2Proof.Machine
end

section
/-! SPILL and FILL (R211 to R213). -/

namespace Sys2Proof.Machine

open Sys2Proof

/-! ### The faults of a slot's accesses -/

/-- A fault that traps at once: nothing is left to ask peer modules, nothing is deferred. -/
def MFault.immediate (m : MFault) : Prop := m.far = [] ∧ m.late = false

theorem mtrap_noPage (cx : Cx) (cause : Nat) (aux : DWord) :
    cx.mtrap { cause := cause, aux := aux, page := none } = cx.trap cause aux := rfl

theorem issue_mtrap {i : Instr} {s : State} {cx : Cx} {s1 : State} {m : MFault} {body : Cx → State → Eff}
    (h : issuable i s = some (cx, s1)) (hb : body cx s1 = .trap (cx.mtrap m)) (hm : m.immediate) :
    issue i s body = .next (trappedAt s1 cx (cx.mtrap m)) := issue_trap h hb hm.1 hm.2

theorem resolveAll_error {s : State} {w : Who} {k : AccK} {marked : Bool} {al : DWord → Nat → Nat} {rs : List Req} {m : MFault}
    (h : resolveAll s w k marked al rs = .error m) : m.immediate := by
  unfold resolveAll at h
  dsimp only at h
  split at h
  · cases h; exact ⟨rfl, rfl⟩
  · split at h
    · cases h; exact ⟨rfl, rfl⟩
    · split at h
      · cases h; exact ⟨rfl, rfl⟩
      · cases h

theorem worstOf_some {s : State} {w : Who} {cs : List Check} {m : MFault} (h : worstOf s w cs = some m) : m.immediate := by
  obtain ⟨x, -, rfl⟩ := Option.map_eq_some_iff.1 h
  exact ⟨rfl, rfl⟩

theorem slotResolve_error {s : State} {w : Who} {k : AccK} {slot : DWord} {off n : Nat} {m : MFault}
    (h : slotResolve s w k slot off n = .error m) : m.immediate := by
  unfold slotResolve at h
  split at h
  · rename_i hw
    cases h
    exact worstOf_some hw
  · exact resolveAll_error h

/-- A slot that cannot be read faults at its header's access, at its format or at its DATA's access. -/
theorem fillRead_bad {s : State} {w : Who} {act : Mask} {slot : DWord} {m : MFault} (h : fillRead s w act slot = .bad m) :
    m.immediate := by
  unfold fillRead at h
  split at h
  · rename_i hr
    cases h
    exact slotResolve_error hr
  · dsimp only at h
    split at h
    · cases h
    · split at h
      · cases h
      · split at h
        · cases h; exact ⟨rfl, rfl⟩
        · split at h
          · rename_i hr
            cases h
            exact slotResolve_error hr
          · split at h
            · cases h
            · split at h <;> cases h

/-! ### A slot's format -/

theorem anyPoison_eq_none {s : State} {hs : List Hit} (h : ∀ x ∈ hs, s.poisoned x.key = false) : anyPoison s hs = none := by
  rw [anyPoison, Option.map_eq_none_iff, List.find?_eq_none]
  exact fun x hx => Bool.eq_false_iff.1 (h x hx)

/-- A sound slot of this module with an unassigned format faults with cause 0x004C (R213). -/
theorem fillRead_of_format {s : State} {w : Who} {act : Mask} {slot : DWord} {hs : List (Req × List Hit)} {s2 : State}
    (hr : slotResolve s w .load slot 0 16 = .ok (hs, s2)) (hsound : soundHere s2 hs)
    (hfmt : 3 < natOfBytes ((readHits s2 w false (allHits hs)).1.take 4) % 256) :
    fillRead s w act slot = .bad { cause := 0x4C, aux := slot, page := none } := by
  obtain ⟨hpoison, hhere⟩ := hsound
  have hp : anyPoison s2 (if act = 0 then [] else (hs.flatMap (·.2)).take 8) = none := by
    refine anyPoison_eq_none fun x hx => hpoison x ?_
    split at hx
    · exact absurd hx List.not_mem_nil
    · exact List.mem_of_mem_take hx
  have hf : farHits w.got (hs.flatMap (·.2)) = [] := farHits_eq_nil hhere w.got
  rw [allHits] at hfmt
  simp only [fillRead, hr, hp, hf, hfmt, List.isEmpty_nil, Bool.not_true, Bool.false_eq_true, if_false, if_true]

/-! ### What the instructions do -/

section
variable {f : Fld} {s s1 : State} {cx : Cx}

theorem execSpill_of_ok (h : issuable (.spill f) s = some (cx, s1)) {hs : List (Req × List Hit)} {s2 : State}
    (hr : slotResolve s1 cx.who .store cx.slot 0 (spillBytes cx.g.lmask (cx.g.rv cx.f.a.toNat)).length = .ok (hs, s2)) :
    exec (.spill f) s = .next (completed (startOp
      (writeLanes s2 (cx.whoOp s2) false hs fun _ => spillBytes cx.g.lmask (cx.g.rv cx.f.a.toNat)) cx .store []) cx) :=
  issue_done h (by simp only [hr])

theorem execSpill_of_error (h : issuable (.spill f) s = some (cx, s1)) {m : MFault}
    (hr : slotResolve s1 cx.who .store cx.slot 0 (spillBytes cx.g.lmask (cx.g.rv cx.f.a.toNat)).length = .error m) :
    exec (.spill f) s = .next (trappedAt s1 cx (cx.mtrap m)) :=
  issue_mtrap h (by simp only [hr]) (slotResolve_error hr)

variable (h : issuable (.fill f) s = some (cx, s1))
include h

theorem execFill_of_ok {hdr data : List Byte} {s2 : State} (hr : fillRead s1 { cx.who with got := [] } cx.act cx.slot = .ok hdr data s2) :
    exec (.fill f) s = .next (completed (startOp s2 cx .reg (vWrite 1 cx.f.d.toNat cx.act (fillLane hdr data))) cx) :=
  issue_done h (by simp only [hr, fillWrs])

theorem execFill_of_bad {m : MFault} (hr : fillRead s1 { cx.who with got := [] } cx.act cx.slot = .bad m) :
    exec (.fill f) s = .next (trappedAt s1 cx (cx.mtrap m)) :=
  issue_mtrap h (by simp only [hr]) (fillRead_bad hr)

theorem execFill_of_format {hs : List (Req × List Hit)} {s2 : State}
    (hr : slotResolve s1 { cx.who with got := [] } .load cx.slot 0 16 = .ok (hs, s2)) (hsound : soundHere s2 hs)
    (hfmt : 3 < natOfBytes ((readHits s2 { cx.who with got := [] } false (allHits hs)).1.take 4) % 256) :
    exec (.fill f) s = .next (trappedAt s1 cx (cx.trap 0x004C cx.slot)) := by
  rw [execFill_of_bad h (fillRead_of_format hr hsound hfmt), mtrap_noPage]

end

/-- Settles O21: SPILL goes by whether its slot resolves, FILL by what reading its slot comes to. -/
theorem spillFillResults : Obligations.SpillFillResults := by
  intro f slot
  refine ⟨?spill, ?spillFault, ?fill, ?fillFault, ?format⟩
  case spill => exact fun _ _ _ _ _ h => execSpill_of_ok h
  case spillFault => exact fun _ _ _ _ h => execSpill_of_error h
  case fill => exact fun _ _ _ _ _ _ h => execFill_of_ok h
  case fillFault => exact fun _ _ _ _ h => execFill_of_bad h
  case format => exact fun _ _ _ _ _ h hr hsound hfmt => execFill_of_format h hr hsound hfmt

end Sys2Proof.Machine
end

section
/-! Loads, stores and PROMOTE (R215, R217, R220, R221, R223, R234). -/

namespace Sys2Proof.Machine

open Sys2Proof

/-! ### What a load of resolved requests comes to -/

theorem isFar_eq_true_iff {hs : List Hit} : isFar hs = true ↔ ∃ x ∈ hs, keyCode x.key = 3 := by
  simp only [isFar, List.any_eq_true, beq_iff_eq]

theorem isFar_eq_false {hs : List Hit} (h : ∀ x ∈ hs, keyCode x.key ≠ 3) : isFar hs = false := by
  refine Bool.eq_false_iff.2 fun hf => ?_
  obtain ⟨x, hx, hk⟩ := isFar_eq_true_iff.1 hf
  exact h x hx hk

section
variable {s : State} {hs : List (Req × List Hit)} (cx : Cx) (marked : Bool) (n : Nat)

theorem loadEff_of_soundHere (h : soundHere s hs) :
    loadEff s cx marked cx.ty cx.f.d.toNat n hs = .done (loadStarted s cx marked n hs) := by
  have hp : anyPoison s (hs.flatMap (·.2)) = none := anyPoison_eq_none h.1
  have hf : isFar (hs.flatMap (·.2)) = false := isFar_eq_false h.2
  simp only [loadEff, hp, hf, Bool.not_false, if_true, loadStarted]

theorem loadEff_of_poisoned {key : Nat} (h : anyPoison s (allHits hs) = some key) :
    loadEff s cx marked cx.ty cx.f.d.toNat n hs = .done (loadPoisoned s cx marked n hs key) := by
  rw [allHits] at h
  simp only [loadEff, h, loadPoisoned, loadRefs]

theorem loadEff_of_far (hp : ∀ x ∈ allHits hs, s.poisoned x.key = false) (hf : ∃ x ∈ allHits hs, keyCode x.key = 3) :
    loadEff s cx marked cx.ty cx.f.d.toNat n hs = .done (loadAsking s cx marked n hs) := by
  have hp' : anyPoison s (hs.flatMap (·.2)) = none := anyPoison_eq_none hp
  have hf' : isFar (hs.flatMap (·.2)) = true := isFar_eq_true_iff.2 hf
  simp only [loadEff, hp', hf', Bool.not_true, Bool.false_eq_true, if_false, loadAsking, loadRefs, allHits]

end

/-- An instruction whose effect is `loadEff` once its requests resolve does what a load instruction does. -/
theorem Loads.of_loadEff {i : Instr} {body : Cx → State → Eff} {f : Fld} {r : Row} {P : Cx → Prop} {marked : Cx → Bool}
    {al : Cx → DWord → Nat → Nat} {n : Cx → Nat} {rs : Cx → List Req} {prep : Cx → List (Req × List Hit) → State → State}
    (hx : ∀ s, exec i s = issue i s body) (he : enc i = some (f, r))
    (hb : ∀ cx s1 hs s2, cx.f = f → P cx → resolveAll s1 cx.who .load (marked cx) (al cx) (rs cx) = .ok (hs, s2) →
      body cx s1 = loadEff (prep cx hs s2) cx (marked cx) cx.ty cx.f.d.toNat (n cx) hs) : Loads i P marked al n rs prep := by
  intro s cx s1 hs s2 h hP hr t
  have hbody : body cx s1 = loadEff t cx (marked cx) cx.ty cx.f.d.toNat (n cx) hs := hb cx s1 hs s2 (issuable_row he h).1 hP hr
  rw [hx]
  exact ⟨fun hsound => issue_done h (hbody.trans (loadEff_of_soundHere cx _ _ hsound)),
    fun key hk => issue_done h (hbody.trans (loadEff_of_poisoned cx _ _ hk)),
    fun hp hf => issue_done h (hbody.trans (loadEff_of_far cx _ _ hp hf))⟩

/-! ### What a store of resolved requests comes to -/

/-- After an access: ORD decides whether it releases, and a marked or atomic access spends the release of a fence before it (R59, R61). -/
theorem afterStore_eq (s : State) (cx : Cx) : afterStore s cx = afterAccess (cx.marked || isAtomic cx.i) cx s := by
  simp only [afterStore, relIf, cx_rel_iff]
  rfl

theorem storeEff_of_ok {s s2 : State} {cx : Cx} {rs : List Req} {hs : List (Req × List Hit)} (data : Nat → List Byte)
    (ha : isAtomic cx.i = false) (hr : resolveAll s cx.who .store cx.marked (alignFor cx.marked) rs = .ok (hs, s2)) :
    storeEff s cx rs data =
      .done (startOp (afterAccess cx.marked cx (writeLanes s2 (cx.whoOp s2) cx.marked hs data)) cx .store []) := by
  simp only [storeEff, hr, afterStore_eq, ha, Bool.or_false]

/-! ### LD, PROMOTE -/

/-- LD without an active lane makes no request, and completes at once (R218). -/
theorem execLd_noLane {f : Fld} {s : State} {cx : Cx} {s1 : State} (h : issuable (.ld f) s = some (cx, s1)) (hact : cx.act = 0) :
    exec (.ld f) s = .next (completed (completeNow (startOp s1 cx .reg [])) cx) := by
  have hlanes : lanesIn cx.act = [] := by simp [hact, lanesIn]
  exact issue_done h (by simp only [hlanes, List.map_nil, List.isEmpty_nil, if_true])

/-- PROMOTE on another assigned path than 0x00 (R234). -/
theorem execPromote_badPath {f : Fld} {s : State} {cx : Cx} {s1 : State} (h : issuable (.promote f) s = some (cx, s1))
    (hp : pathOf (baseAddr cx true (offsetB cx 0) 0) ∈ [1, 8, 9, 12, 14]) :
    exec (.promote f) s = .next (trappedAt s1 cx (cx.trap 0x0041 (baseAddr cx true (offsetB cx 0) 0))) := by
  rw [← addr_eq_baseAddr] at hp ⊢
  exact issue_trap h (by simp only [badPath_of_other hp, mtrap_noPage]) rfl rfl

/-! ### The obligation -/

/-- Settles O17: each instruction resolves its requests and goes on to a load or a store, apart from an LD without a lane and a
PROMOTE on a path it does not take. -/
theorem loadStoreResults : Obligations.LoadStoreResults := by
  intro f
  refine ⟨?loads, ?stores⟩
  case loads =>
    intro size marked same
    refine ⟨fun s cx s1 h hact => execLd_noLane h hact, ?ld, ?lds, ?promote, fun s cx s1 h hp => execPromote_badPath h hp⟩
    case ld =>
      refine Loads.of_loadEff (fun _ => rfl) rfl fun cx s1 hs s2 hf hact hr => ?_
      subst hf
      simp only [size, marked, marked_eq, size_eq, uniform_eq, requests_lanes] at hr ⊢
      simp only [List.isEmpty_iff, List.map_eq_nil_iff, if_neg (lanesIn_ne_nil hact), hr]
      rfl
    case lds =>
      refine Loads.of_loadEff (fun _ => rfl) rfl fun cx s1 hs s2 hf _ hr => ?_
      subst hf
      simp only [size, marked, marked_eq, size_eq, requests_scalar] at hr ⊢
      simp only [hr]
      rfl
    case promote =>
      refine Loads.of_loadEff (fun _ => rfl) rfl fun cx s1 hs s2 _ hpath hr => ?_
      simp only [← addr_eq_baseAddr] at hpath
      simp only [requests_scalar] at hr
      simp only [badPath_of_path0 hpath, hr]
      rfl
  case stores =>
    intro size marked
    refine ⟨fun s cx s1 hs s2 h hr => ?st, fun s cx s1 hs s2 h hr => ?sts⟩
    case st =>
      obtain ⟨rfl, -, hi⟩ := issuable_row (i := .st f) rfl h
      simp only [size, marked, marked_eq, size_eq, uniform_eq, requests_lanes] at hr ⊢
      exact issue_done h (storeEff_of_ok _ (by rw [hi]; rfl) hr)
    case sts =>
      obtain ⟨rfl, -, hi⟩ := issuable_row (i := .sts f) rfl h
      simp only [size, marked, marked_eq, size_eq, requests_scalar] at hr ⊢
      exact issue_done h (storeEff_of_ok _ (by rw [hi]; rfl) hr)

end Sys2Proof.Machine
end

section
/-! Atomics, and ordered atomics with their passages (R225 to R229). -/

namespace Sys2Proof.Machine

open Sys2Proof

/-! ### ATOM -/

theorem newLoad_poisoned (s : State) (me k : Nat) : (s.newLoad me).poisoned k = s.poisoned k := by
  unfold State.newLoad State.setHb
  split <;> rfl

theorem soundHere_newLoad {s : State} {hs : List (Req × List Hit)} (h : soundHere s hs) (me : Nat) : soundHere (s.newLoad me) hs :=
  ⟨fun x hx => (newLoad_poisoned s me x.key).trans (h.1 x hx), h.2⟩

/-- An ATOM of sound words of this module performs its lanes at its issue (R225, log 11). -/
theorem execAtom_of_soundHere {f : Fld} {s : State} {cx : Cx} {s1 s2 : State} {hs : List (Req × List Hit)}
    (h : issuable (.atom f) s = some (cx, s1))
    (hr : resolveAll s1 cx.who .atomic true natural
      (requests cx (some cx.actNH) (baseAddr cx (bit cx.m 1) 0) (tyBits cx.ty / 8)) = .ok (hs, s2)) (hsound : soundHere s2 hs) :
    let r := atomLanes (s2.newLoad cx.me) (cx.whoOp (s2.newLoad cx.me)) cx.f.mn.toNat cx.ty
      (hs.map fun x => (laneOf x.1, x.2, (cx.atomOpd (laneOf x.1)).1, (cx.atomOpd (laneOf x.1)).2))
    exec (.atom f) s = .next (completed (startOp (afterAccess true cx r.2.2) cx .reg
      (if bit cx.m 0 then loadWrs cx.ty cx.f.d.toNat (tyBits cx.ty / 8) r.1 else []) r.2.1) cx) := by
  intro r
  obtain ⟨-, -, hi⟩ := issuable_row (i := .atom f) rfl h
  have hatomic : isAtomic cx.i = true := by rw [hi]; rfl
  obtain ⟨hpoison, hhere⟩ := soundHere_newLoad hsound cx.me
  have hp : anyPoison (s2.newLoad cx.me) (hs.flatMap (·.2)) = none := anyPoison_eq_none hpoison
  have hf : isFar (hs.flatMap (·.2)) = false := isFar_eq_false hhere
  rw [requests_atom] at hr
  refine issue_done h ?_
  simp only [hr, hp, hf, Bool.not_false, if_true, afterStore_eq, hatomic, Bool.or_true, List.map_map, r]
  rfl

/-! ### ATOM.ord -/

/-- The site that an ATOM.ord names (R228). -/
def Cx.site (cx : Cx) : Nat := cx.f.c.toNat / 64 % 8

/-- Whether a site does not take the ATOM.ord of a group: launch, address, type, or an earlier one of the group (R228). -/
def siteRefuses (cx : Cx) (st : Site) : Bool :=
  !cx.l.det || st.addr != cx.g.rs2 cx.f.a.toNat || st.ty != cx.ty || decide (cx.site ∈ cx.g.sites)

theorem siteRefuses_iff {cx : Cx} {st : Site} : siteRefuses cx st = true ↔
    cx.l.det = false ∨ st.addr ≠ cx.g.rs2 cx.f.a.toNat ∨ st.ty ≠ cx.ty ∨ cx.site ∈ cx.g.sites := by
  simp [siteRefuses, or_assoc]

section
variable {f : Fld} {s : State} {cx : Cx} {s1 : State} (h : issuable (.atomOrd f) s = some (cx, s1))
include h

theorem execAtomOrd_of_refused (hno : ∀ st, cx.l.sites[cx.site]? = some st → siteRefuses cx st = true) :
    exec (.atomOrd f) s = .next (trappedAt s1 cx (cx.trap 0x000D (BitVec.ofNat 64 cx.site))) := by
  unfold Cx.site at hno ⊢
  refine issue_trap h ?_ rfl rfl
  cases hst : cx.l.sites[cx.f.c.toNat / 64 % 8]? with
  | none => simp only [hst]
  | some st =>
    simp only [hst]
    exact if_pos (hno st hst)

/-- An ATOM.ord that its site takes enters the site's sequence as its group's contribution (R228). -/
theorem execAtomOrd_of_ok {st : Site} {hs : List (Req × List Hit)} {s2 : State} (hst : cx.l.sites[cx.site]? = some st)
    (hok : siteRefuses cx st = false)
    (hr : resolveAll s1 cx.who .atomic true natural [(none, cx.g.rs2 cx.f.a.toNat, tyBits cx.ty / 8)] = .ok (hs, s2)) :
    let s3 := startLater (afterAccess true cx s2) cx (.atomOrd cx.site cx.f.d.toNat (bit cx.m 0) false)
      (if bit cx.m 0 then vRefs cx.f.d.toNat (regsOf cx.ty) else [])
    let mine : Contrib := { wg := cx.w.ix, grp := cx.g.grp, op := s3.nextId - 1, opn := cx.f.mn.toNat, ord := cx.f.c.toNat % 8
                            scp := cx.f.c.toNat / 8 % 8, lanes := (lanesIn cx.actNH).map fun l => (l, BitVec.ofNat 64 (cx.b l))
                            place := cx.place, fence := (s2.agHb cx.me).fenceRel, clk := s2.relClk cx.me }
    exec (.atomOrd f) s = .next (completed ((modSite s3 cx.lid cx.site fun x =>
      { x with waiting := insertContrib mine x.waiting }).modGroup cx.gk fun g => { g with sites := g.sites ++ [cx.site] }) cx) := by
  intro s3 mine
  obtain ⟨-, -, hi⟩ := issuable_row (i := .atomOrd f) rfl h
  have hatomic : isAtomic cx.i = true := by rw [hi]; rfl
  unfold Cx.site at hst
  refine issue_done h ?_
  simp only [hst]
  refine (if_neg (Bool.eq_false_iff.1 hok)).trans ?_
  simp only [hr, afterStore_eq, hatomic, Bool.or_true]
  rfl

end

/-! ### The passage of a workgroup -/

theorem passed_of_ne_nil (st : Site) {mine : List Contrib} (h : mine ≠ []) (acc : Nat) : st.passed mine acc =
    { st with acc := BitVec.ofNat 64 acc, next := st.next + 1, waiting := st.waiting.filter (·.wg != st.next), ord := passOrd mine
              scp := passScp mine, rels := passRels st.rels mine } := by
  simp only [Site.passed, List.isEmpty_iff, if_neg h]

/-- When the next workgroup passes a site: the launch is deterministic and runs, the workgroup exists and all its groups have
contributed or exited (R229). -/
theorem passageGuard_eq_false {s : State} {lid site : Nat} {l : Launch} {st : Site} (hdet : l.det = true) (hnext : st.next < l.n)
    (hkilled : l.killed = false) (hsettled : siteSettled s lid l site st.next 32 = true) :
    (!l.det || decide (l.n ≤ st.next) || l.killed || !siteSettled s lid l site st.next 32) = false := by
  simp [hdet, hnext, hkilled, hsettled]

/-! ### The obligation -/

/-- Settles O19: ATOM on sound words of this module, ATOM.ord by whether its site takes it, and the passage of a workgroup that has
contributed. -/
theorem atomicResults : Obligations.AtomicResults := by
  intro f
  refine ⟨fun s cx s1 hs s2 h hr hsound => execAtom_of_soundHere h hr hsound, ?takes, ?refused, ?passage⟩
  case takes =>
    intro s cx s1 st hs s2 h site hst hdet haddr hty hsite hr
    have hok : siteRefuses cx st = false := by
      refine Bool.eq_false_iff.2 (mt siteRefuses_iff.1 ?_)
      rintro (hd | ha | ht | hm)
      · exact Bool.false_ne_true (hd.symm.trans hdet)
      · exact ha haddr
      · exact ht hty
      · exact hsite hm
    rw [haddr] at hr
    exact execAtomOrd_of_ok h hst hok hr
  case refused =>
    intro s cx s1 h site hno
    exact execAtomOrd_of_refused h fun st hst => siteRefuses_iff.2 (hno st hst)
  case passage =>
    intro s lid site l st s2 hl hst hdet hnext hkilled hsettled mine hmine r st' hw s3 wait
    have hgive : giveResults s st mine st.acc.toNat = (r.1, r.2) := rfl
    have hpassed : st.passed mine r.2 = st' := passed_of_ne_nil st hmine r.2
    simp only [exec, execOrderedPassage, hl, hst, passageGuard_eq_false hdet hnext hkilled hsettled, Bool.false_eq_true, if_false]
    simp only [mine] at hgive hpassed hw
    simp only [hgive, hpassed, hw]
    rfl

end Sys2Proof.Machine
end

section
/-! Pops of the matrix queue and of a task queue, and what a group pushes back (R239 to R243, R258). -/

namespace Sys2Proof.Machine

open Sys2Proof

/-! ### The next row of the matrix queue -/

section
variable (s : State) (cx : Cx)

/-- The matrix unit of the core of an issue. -/
def matrixOf : Matrix := (s.core cx.core).mx

/-- What a pop that takes its row leaves, its operation started (R240, R258). -/
def rowPopped (k : OpK) : State :=
  let c := s.core cx.core
  let pasts := s.chan (.tile cx.core)
  let t := s.learn cx.me (pasts.headD [])
  startOp ((if c.mx.nextRow = 63 then t.setChan (.tile cx.core) pasts.tail else t).setCore cx.core { c with mx := c.mx.popped }) cx k
    [.v cx.f.d.toNat cx.act (Tab.get [] c.mx.acc c.mx.popKey), .p cx.pd cx.act (BitVec.allOnes 64)]

/-- The key of the next row in the accumulator memory of its core. -/
def rowKey : Nat := accKey cx.core ((matrixOf s cx).popKey / 64) ((matrixOf s cx).popKey % 64)

variable {s cx}

theorem popRow_of_sound (h : (matrixOf s cx).popKey ∉ (matrixOf s cx).bad) : popRow s cx = rowPopped s cx .reg :=
  if_neg (mt of_decide_eq_true h)

theorem popRow_of_poisoned (h : (matrixOf s cx).popKey ∈ (matrixOf s cx).bad) : popRow s cx =
    stopPoison (rowPopped s cx (.badRow (rowKey s cx))) ((rowPopped s cx (.badRow (rowKey s cx))).nextId - 1) (rowKey s cx) :=
  if_pos (decide_eq_true h)

/-! ### When a pop of the matrix queue is served -/

theorem qpopEff_of_q0_met (ha : cx.f.a = 0) (hw : waitMet s cx = true) : qpopEff cx s = .done (popRow s cx) :=
  (if_pos ha).trans (if_pos hw)

theorem qpopEff_of_q0_unmet (ha : cx.f.a = 0) (hw : waitMet s cx = false) : qpopEff cx s = .wait s :=
  (if_pos ha).trans (if_neg (Bool.eq_false_iff.1 hw))

theorem qpopEff_of_q1_met (ha : cx.f.a ≠ 0) (hw : waitMet (endHold s cx) cx = true) :
    qpopEff cx s = .done (popTasks (endHold s cx) cx) :=
  (if_neg ha).trans (if_pos hw)

theorem qpopEff_of_q1_unmet (ha : cx.f.a ≠ 0) (hw : waitMet (endHold s cx) cx = false) : qpopEff cx s = .wait (endHold s cx) :=
  (if_neg ha).trans (if_neg (Bool.eq_false_iff.1 hw))

/-- A QPOP of q0 waits for a published tile and for the pops before it (R240, R242). -/
theorem waitMet_qpop_q0 (hi : cx.i = .qpop cx.f) (ha : cx.f.a = 0) :
    waitMet s cx = true ↔ (matrixOf s cx).pub ≠ [] ∧ earlierPop s cx true = false := by
  simp [waitMet, hi, ha, matrixOf, and_comm]

theorem waitMet_qpop_q0_eq_false (hi : cx.i = .qpop cx.f) (ha : cx.f.a = 0) :
    waitMet s cx = false ↔ (matrixOf s cx).pub = [] ∨ ¬ earlierPop s cx true = false := by
  rw [← Bool.not_eq_true, waitMet_qpop_q0 hi ha, not_and_or, not_not]

end

/-! ### QPOP.TRY of the matrix queue -/

/-- Whether a QPOP.TRY of q0 gets no row: none is there, or it belongs to an earlier pop (R242). -/
theorem noRow_iff {s : State} {cx : Cx} : ((s.core cx.core).mx.pub.isEmpty || earlierPop s cx true) = true ↔
    (matrixOf s cx).pub = [] ∨ ¬ earlierPop s cx true = false := by
  simp [matrixOf]

/-! ### The obligation -/

/-- Settles O25: the queue that A names, then for q0 the next row and the pops before it, for q1 whether the wait is over. -/
theorem queuePopResults : Obligations.QueuePopResults := by
  intro f
  refine ⟨?matrix, ?tasks⟩
  case matrix =>
    intro mx key sound first popAs pop row popBad poisoned
    have hmet {s : State} {cx : Cx} (hf : cx.f = f) (hi : cx.i = .qpop f) (ha : cx.f.a = 0) (hpub : (mx cx s).pub ≠ [])
        (h1 : first cx s) : waitMet s cx = true := (waitMet_qpop_q0 (hf ▸ hi) ha).2 ⟨hpub, h1⟩
    have hrow {s : State} {cx : Cx} (hpub : (mx cx s).pub ≠ []) (h1 : first cx s) :
        ¬ ((s.core cx.core).mx.pub.isEmpty || earlierPop s cx true) = true :=
      mt noRow_iff.1 (not_or.2 ⟨hpub, not_not.2 h1⟩)
    refine ⟨?qpop, ?qpopTry, ?qpopBad, ?tryBad, ?waits, ?tryNone, ?serve⟩
    case qpop =>
      refine Does.of_effect (fun _ => rfl) rfl fun cx s hf _ hi ⟨ha, ⟨hpub, hbad⟩, h1⟩ => ?_
      exact (qpopEff_of_q0_met ha (hmet hf hi ha hpub h1)).trans (congrArg Eff.done (popRow_of_sound hbad))
    case qpopTry =>
      refine Does.of_effect (fun _ => rfl) rfl fun cx s _ _ _ ⟨ha, ⟨hpub, hbad⟩, h1⟩ => ?_
      exact (if_pos ha).trans ((if_neg (hrow hpub h1)).trans (congrArg Eff.done (popRow_of_sound hbad)))
    case qpopBad =>
      refine Does.of_effect (fun _ => rfl) rfl fun cx s hf _ hi ⟨ha, ⟨hpub, hbad⟩, h1⟩ => ?_
      exact (qpopEff_of_q0_met ha (hmet hf hi ha hpub h1)).trans (congrArg Eff.done (popRow_of_poisoned hbad))
    case tryBad =>
      refine Does.of_effect (fun _ => rfl) rfl fun cx s _ _ _ ⟨ha, ⟨hpub, hbad⟩, h1⟩ => ?_
      exact (if_pos ha).trans ((if_neg (hrow hpub h1)).trans (congrArg Eff.done (popRow_of_poisoned hbad)))
    case waits =>
      refine Waits.of_effect (fun _ => rfl) rfl fun cx s hf _ hi ⟨ha, hno⟩ => ?_
      exact qpopEff_of_q0_unmet ha ((waitMet_qpop_q0_eq_false (hf ▸ hi) ha).2 hno)
    case tryNone =>
      refine Does.of_effect (fun _ => rfl) rfl fun cx s _ _ _ ⟨ha, hno⟩ => ?_
      exact (if_pos ha).trans (if_pos (noRow_iff.2 hno))
    case serve =>
      intro s ag cx s1 h ha _ hsound
      exact resume_done h ((qpopEff_of_q0_met ha (returnable_met h).2).trans (congrArg Eff.done (popRow_of_sound hsound.2)))
  case tasks =>
    refine ⟨?qpop, ?waits, ?qpopTry, ?serve, ?push, ?pushNone⟩
    case qpop => exact Does.of_effect (fun _ => rfl) rfl fun cx s _ _ _ ⟨ha, hw⟩ => qpopEff_of_q1_met ha hw
    case waits => exact Waits.of_effect (fun _ => rfl) rfl fun cx s _ _ _ ⟨ha, hw⟩ => qpopEff_of_q1_unmet ha hw
    case qpopTry => exact Does.of_effect (fun _ => rfl) rfl fun cx s _ _ _ ha => if_neg ha
    case serve => exact fun s ag cx s1 h ha hw => resume_done h (qpopEff_of_q1_met ha hw)
    case push => exact fun s cx s1 gid g n x h hn => issue_done h (by simp only [hn])
    case pushNone => exact fun s cx s1 h hn => issue_done h (by simp only [hn])

end Sys2Proof.Machine
end

section
/-! The sequencer of the matrix unit: the start of its commands, the head tile, the running MLOOP (R246, R253 to R258). -/

namespace Sys2Proof.Machine

open Sys2Proof

/-! ### The end of an engine's operation -/

/-- The engines but for the traversals: what has been done goes to no later GDRAIN (R292), and the operation completes once peer modules
have accepted what it wrote (R373). -/
theorem endEngine_of_acked {s : State} {o : Op} (ht : ∀ t, travHb t o = t) (hu : unackedOp s o.id = false) :
    endEngine s o = completeOp (s.release (partyOp o.id)) o := by
  have hu' : unackedOp (s.release (partyOp o.id)) o.id = false := hu
  simp only [endEngine, ht, hu', Bool.false_eq_true, if_false]

/-! ### The publication of the head -/

theorem AccessOnly.cores {s t : State} (h : AccessOnly s t) : t.cores = s.cores :=
  (congrArg State.cores (id h : accessAs s t = s) :)

theorem completeHb_accessOnly (s : State) (o : Op) : AccessOnly s (completeHb s o) := by
  unfold completeHb
  split
  · split
    · exact .ite (post_accessOnly _ _ _) ((post_accessOnly _ _ _).trans rfl)
    · exact .refl s
  · exact .refl s

@[simp] theorem lowerTok_core (s : State) (o : Op) (j : Nat) : (lowerTok s o).core j = s.core j := by
  have hcores : (completeHb s o).core j = s.core j := congrArg (Tab.get ({} : CoreSt) · j) (completeHb_accessOnly s o).cores
  unfold lowerTok
  split
  · exact hcores
  · rfl

/-- The token of an operation of a group falls there (R137). -/
theorem lowerTok_group_self {s : State} {o : Op} {c sl k n : Nat} {g : Group} (hag : o.ag = .group c sl k) (htok : o.tok = some n)
    (hg : s.group? (gKey c sl) = some g) : (lowerTok s o).group? (gKey c sl) = some (g.tokDown n) := by
  have hgroup : (completeHb s o).group? (gKey c sl) = some g :=
    (congrArg (Tab.find? · (gKey c sl)) (completeHb_accessOnly s o).groups).trans hg
  simp only [lowerTok, hag, htok, agentKey, State.modOp_groupOf, State.modGroup_group_self, hgroup, Option.map_some]

/-- The matrix unit after a publication: the head has joined the published queue, and the sequencer waits for a tile (R257). -/
theorem publish_core_self (s : State) (core h : Nat) (m : Matrix) (o : Op) : ((publish s core h m o).core core).mx =
    { m with pub := m.pub ++ [h], head := none, opened := false, busy := true } := by
  have hcore (t : State) (ch : Chan) (x : Clk) : (t.push ch x).core core = t.core core := rfl
  simp only [publish, lowerTok_core, hcore, State.modMx, State.setCore_core_self]

theorem publish_group_self {s : State} {core h : Nat} {m : Matrix} {o : Op} {c sl k n : Nat} {g : Group} (hag : o.ag = .group c sl k)
    (htok : o.tok = some n) (hg : s.group? (gKey c sl) = some g) :
    (publish s core h m o).group? (gKey c sl) = some (g.tokDown n) := lowerTok_group_self hag htok hg

/-! ### The start of a command -/

/-- The head of a matrix unit that has one, zeroed. -/
theorem zeroHead_of_head {m : Matrix} {h : Nat} (hh : m.head = some h) (i32 : Bool) : m.zeroHead i32 =
    { m with acc := m.acc.filter (fun e => e.1 / 64 != h), bad := m.bad.filter (fun k => k / 64 != h), opened := true, i32 := i32 } := by
  simp only [Matrix.zeroHead, hh]

section
variable {s : State} {core id h : Nat} {o : Op} (ho : s.op? id = some o) (hb : (s.core core).mx.busy = false)
  (hq : (s.core core).mx.queue.head? = some id) (hh : (s.core core).mx.head = some h)
include ho hb hq hh

theorem exec_sequencerCommandStart_mpub (hk : o.k = .mpub) : exec (.sequencerCommandStart core) s =
    .next (publish s core h (if (s.core core).mx.opened then (s.core core).mx else (s.core core).mx.zeroHead false) o) := by
  simp only [exec, execSequencerCommandStart, hb, hq, hh, ho, hk]

variable {acc : Bool} {blk : List Word} {n fa fb : Nat} {ra rb : List Word} (hk : o.k = .mloop acc blk n fa fb ra rb)
include hk

/-- An MLOOP.acc goes on with a head that is open (R253). -/
theorem exec_sequencerCommandStart_continues (hacc : acc = true) (hop : (s.core core).mx.opened = true) :
    exec (.sequencerCommandStart core) s =
      .next (s.modMx core fun m => { m with busy := true, step := 0, row := 0 }) := by
  simp only [exec, execSequencerCommandStart, hb, hq, hh, ho, hk, hacc, hop, Bool.and_self, if_true,
    State.modMx]

/-- Any other MLOOP opens the head at zero, for the accumulation of its pairing (R253). -/
theorem exec_sequencerCommandStart_opens {k : Nat} {i32 : Bool} (hno : acc = false ∨ (s.core core).mx.opened = false)
    (hp : pairing (fmtFor fa ra) (fmtFor fb rb) = some (k, i32)) : exec (.sequencerCommandStart core) s =
      .next (s.modMx core fun m => { m.zeroHead i32 with busy := true, step := 0, row := 0 }) := by
  have hopens : (acc && (s.core core).mx.opened) = false := Bool.and_eq_false_iff.2 hno
  simp only [exec, execSequencerCommandStart, hb, hq, hh, ho, hk, hopens, hp, Option.elim_some, Bool.false_eq_true, if_false,
    State.modMx]

end

/-! ### The running command -/

/-- A module without peers asks none for an operand. -/
theorem farHits_mFar_of_noPeers {s : State} (h : s.peers = []) (r : MRun) (got : Tab Byte) : farHits got (mFar s r) = [] := by
  simp [mFar, h, farHits]

/-- The state after the read arrival of an MLOOP: its barrier arrival is made, and ranges that it alone still held are free (R249,
R255). -/
def readArrived (s : State) (id : Nat) (o : Op) : State :=
  (dropReaders ((o.bar.elim s fun b => s.arriveAt o.wg b 1 (s.relClk (opMe id))).modOp id fun o => { o with bar := none })
    [id]).release (partyOp id)

section
variable {s : State} {core id : Nat} {o : Op} (ho : s.op? id = some o) (hb : (s.core core).mx.busy = true)
  (hq : (s.core core).mx.queue.head? = some id)
include ho hb hq

theorem exec_headTileTake {t : Nat} (hh : (s.core core).mx.head = none) (ht : (s.core core).mx.freeTile = some t) :
    exec (.headTileTake core) s = .next (completeOp (s.modMx core fun m =>
      { m with head := some t, opened := false, busy := false, queue := m.queue.tail }) o) := by
  simp only [exec, execHeadTileTake, Matrix.running, hb, hq, if_true, Option.bind_some, ho, hh, ht]

variable (hf : o.fault = none)
include hf

theorem exec_mloopReadArrival {r : MRun} {s1 : State} (hr : mRun s core o = some r) (hn : (s.core core).mx.step < r.n)
    (hp : s.peers = [])
    (hs : mSteps s r (s.core core).mx.step (s.core core).mx.row (r.n - (s.core core).mx.step) = .ok s1) :
    exec (.mloopReadArrival core) s = .next (readArrived s1 id o) := by
  simp only [exec, execMloopReadArrival, Matrix.running, hb, hq, if_true, ho, hr, hf, if_neg (Nat.not_le.2 hn),
    withFar_of_none (farHits_mFar_of_noPeers hp r o.got), hs, readArrived]
  cases o.bar <;> rfl

theorem exec_mloopComplete {acc : Bool} {blk : List Word} {n fa fb : Nat} {ra rb : List Word} (hk : o.k = .mloop acc blk n fa fb ra rb)
    (hn : n ≤ (s.core core).mx.step) (hu : unackedOp s id = false) :
    exec (.mloopComplete core) s = .next (completeOp ((dropReaders (s.modMx core fun m =>
      { m with busy := false, step := 0, row := 0, queue := m.queue.tail }) [id]).release (partyOp id)) o) := by
  obtain rfl := op?_some_id ho
  simp only [exec, execMloopComplete, Matrix.running, hb, hq, if_true, ho, hk, hf, if_pos hn]
  exact congrArg _ (endEngine_of_acked (fun t => by simp only [travHb, hk]) hu)

end

/-! ### The obligation -/

/-- Settles O27: the kind of the command at the queue's head decides its start; a free tile ends an MPUB, the last step an MLOOP. -/
theorem sequencerResults : Obligations.SequencerResults := by
  intro s core id o c m ho
  refine ⟨?mpub, ?continues, ?opens, ?tile, ?arrival, ?complete⟩
  case mpub =>
    intro h hb hq hh hk m1 t
    exact ⟨exec_sequencerCommandStart_mpub ho hb hq hh hk, publish_core_self s core h m1 o,
      fun _ _ _ _ _ hag htok hg => publish_group_self hag htok hg⟩
  case continues =>
    exact fun h acc blk n fa fb ra rb hb hq hh hk hacc hop => exec_sequencerCommandStart_continues ho hb hq hh hk hacc hop
  case opens =>
    intro h acc blk n fa fb ra rb k i32 hb hq hh hk hno hp
    rw [exec_sequencerCommandStart_opens ho hb hq hh hk hno hp, State.modMx, zeroHead_of_head hh]
  case tile => exact fun t hh hb hq ht => exec_headTileTake ho hb hq hh ht
  case arrival =>
    intro r s1 hb hq hf hr hn hp hs s2
    rw [exec_mloopReadArrival ho hb hq hf hr hn hp hs]
    simp only [readArrived, s2]
    cases o.bar <;> rfl
  case complete =>
    exact fun acc blk n fa fb ra rb hb hq hf hk hn hu => exec_mloopComplete ho hb hq hf hk hn hu

end Sys2Proof.Machine
end

section
/-! The issue of the matrix unit's instructions: reservations of the operand buffer, and the commands of the sequencer queue (R247 to
R250, R253, R257, R259). -/

namespace Sys2Proof.Machine

open Sys2Proof

/-! ### Reservations -/

/-- The record that an OBRES names (R247). -/
def Cx.obRec (cx : Cx) : List Word := (List.range 4).map fun k => cx.g.rs (cx.f.a.toNat + k)

/-- Whether an OBRES is misused: its record or its handle is bad (R248). -/
def obRefuses (cx : Cx) : Bool := !obOk cx.obRec || 7 < cx.b32 0

/-- Whether the range of the record that an OBRES names overlaps one that a workgroup holds. -/
def obMeets (cx : Cx) (w : Wg) : Bool := w.heldRanges.any fun r => overlap r.1 r.2 (obBase cx.obRec) (obSize cx.obRec)

/-- Whether that range overlaps one of another workgroup of the core. -/
def obMeetsOther (cx : Cx) (s : State) : Bool :=
  (s.wgs.filter fun e => e.1 != cx.wid && e.2.core == cx.core && !e.2.saved).any fun e => obMeets cx e.2

/-- The answer of an OBRES (R248). -/
def obStatus (cx : Cx) (s : State) : Nat :=
  if (Tab.find? cx.w.obr (cx.b32 0)).isSome then 1 else if obMeets cx cx.w then 2 else if obMeetsOther cx s then 3 else 0

/-- The record that an OBRES names, held under its handle. -/
def obHold (cx : Cx) (w : Wg) : Wg := { w with obr := Tab.put w.obr (cx.b32 0) cx.obRec }

theorem obRefuses_eq_false_iff {cx : Cx} : obRefuses cx = false ↔ obOk cx.obRec = true ∧ cx.b32 0 ≤ 7 := by
  simp [obRefuses]

theorem obRefuses_iff {cx : Cx} : obRefuses cx = true ↔ ¬ (obOk cx.obRec = true ∧ cx.b32 0 ≤ 7) := by
  rw [← obRefuses_eq_false_iff, Bool.not_eq_false]

theorem obBase_obRec (cx : Cx) : obBase cx.obRec = (cx.g.rs cx.f.a.toNat).toNat % 2 ^ 20 := bits_zero _ _

theorem obSize_obRec (cx : Cx) : obSize cx.obRec = (cx.g.rs (cx.f.a.toNat + 1)).toNat % 2 ^ 21 := bits_zero _ _

theorem obMeets_iff {cx : Cx} {w : Wg} : obMeets cx w = true ↔
    ∃ r ∈ w.heldRanges, r.1 < (cx.g.rs cx.f.a.toNat).toNat % 2 ^ 20 + (cx.g.rs (cx.f.a.toNat + 1)).toNat % 2 ^ 21 ∧
      (cx.g.rs cx.f.a.toNat).toNat % 2 ^ 20 < r.1 + r.2 := by
  simp only [obMeets, overlap, obBase_obRec, obSize_obRec, List.any_eq_true, Bool.and_eq_true, decide_eq_true_eq]

theorem obMeetsOther_iff {cx : Cx} {s : State} : obMeetsOther cx s = true ↔
    ∃ e ∈ s.wgs, e.1 ≠ cx.wid ∧ e.2.core = cx.w.core ∧ e.2.saved = false ∧ obMeets cx e.2 = true := by
  simp only [obMeetsOther, Cx.core, List.any_filter, List.any_eq_true, Bool.and_eq_true, bne_iff_ne, beq_iff_eq, Bool.not_eq_true',
    and_assoc]

section
variable {cx : Cx} {s : State}

theorem obStatus_of_taken (h : (Tab.find? cx.w.obr (cx.b32 0)).isSome = true) : obStatus cx s = 1 := if_pos h

variable (h : Tab.find? cx.w.obr (cx.b32 0) = none)
include h

theorem obStatus_of_meets (hm : obMeets cx cx.w = true) : obStatus cx s = 2 := by
  simp [obStatus, h, hm]

variable (hm : obMeets cx cx.w ≠ true)
include hm

theorem obStatus_of_meetsOther (ho : obMeetsOther cx s = true) : obStatus cx s = 3 := by
  simp [obStatus, h, hm, ho]

theorem obStatus_of_free (ho : obMeetsOther cx s ≠ true) : obStatus cx s = 0 := by
  simp [obStatus, h, hm, ho]

end

section
variable {f : Fld} {s : State} {cx : Cx} {s1 : State} (h : issuable (.obres f) s = some (cx, s1)) (hr : obRefuses cx = false)
include h hr

/-- An OBRES that is not misused answers its status, and holds its record where that is 0 (R248). -/
theorem exec_obres {n : Nat} (hn : obStatus cx s1 = n) : exec (.obres f) s = .next (completed
    (startOp (if n = 0 then s1.modWg cx.wid (obHold cx) else s1) cx .reg (sWrite 1 cx.f.d.toNat n)) cx) := by
  subst hn
  exact issue_done h (if_neg (Bool.eq_false_iff.1 hr))

theorem exec_obres_of_free (hn : obStatus cx s1 = 0) : exec (.obres f) s = .next (completed
    (startOp (s1.modWg cx.wid (obHold cx)) cx .reg (sWrite 1 cx.f.d.toNat 0)) cx) := by
  rw [exec_obres h hr hn, if_pos rfl]

/-- An OBRES that gets no reservation changes no record (R248). -/
theorem exec_obres_of_denied {n : Nat} (hn : obStatus cx s1 = n) (h0 : n ≠ 0) :
    exec (.obres f) s = .next (completed (startOp s1 cx .reg (sWrite 1 cx.f.d.toNat n)) cx) := by
  rw [exec_obres h hr hn, if_neg h0]

end

/-! ### Commands of the sequencer queue -/

/-- An instruction's operation has started and stands last in its core's sequencer queue. -/
def enqueued (s : State) (cx : Cx) (k : OpK) (bar : Option Nat) : State :=
  let s1 := startOp s cx k [] 0 bar
  s1.modMx cx.core fun m => { m with queue := m.queue ++ [lastId s1] }

/-- The operand block of an MLOOP (R250). -/
def Cx.mxBlk (cx : Cx) : List Word := (List.range 8).map fun k => cx.g.rs (cx.f.a.toNat + k)

/-- The format field of an MLOOP's operand A. -/
def Cx.fmtA (cx : Cx) : Nat := cx.f.c.toNat % 16

/-- The format field of operand B. -/
def Cx.fmtB (cx : Cx) : Nat := cx.f.c.toNat / 16 % 16

/-- The barrier at which an operation of an engine makes its arrival, if D asks for one (R236). -/
def Cx.arrivalBar (cx : Cx) : Option Nat := if bit cx.f.d.toNat 4 then some (cx.f.d.toNat % 16) else none

/-- Whether an MLOOP whose operands pair is misused: too many steps, a stride that does not keep to its blocks, a head of another type
that an MLOOP.acc would go on with (R250, R253). -/
def mloopRefuses (acc : Bool) (cx : Cx) (s : State) (ra rb : List Word) (i32 : Bool) : Bool :=
  65535 < cx.b32 0 || !strideOk ra (blkInt cx.mxBlk 2) || !strideOk rb (blkInt cx.mxBlk 6) ||
    (acc && (prospective s cx.core).any (· != i32))

/-- An option that holds nothing but one value, as a test of each value and as a statement. -/
theorem any_bne_eq_false_iff {o : Option Bool} {b : Bool} : o.any (· != b) = false ↔ ∀ t, o = some t → t = b := by
  cases o <;> simp

theorem mloopRefuses_eq_false_iff {acc : Bool} {cx : Cx} {s : State} {ra rb : List Word} {i32 : Bool} :
    mloopRefuses acc cx s ra rb i32 = false ↔ cx.b32 0 ≤ 65535 ∧ strideOk ra (blkInt cx.mxBlk 2) = true ∧
      strideOk rb (blkInt cx.mxBlk 6) = true ∧ (acc = true → ∀ t, prospective s cx.core = some t → t = i32) := by
  simp only [mloopRefuses, Bool.or_eq_false_iff, decide_eq_false_iff_not, Nat.not_lt, Bool.not_eq_false', Bool.and_eq_false_imp,
    any_bne_eq_false_iff, and_assoc]

/-- The operands of an MLOOP and their pairing, where there are some (R90, R250). -/
def mloopPairs (cx : Cx) (ra rb : List Word) (kp : Nat × Bool) : Prop :=
  operandRec cx.w (blkAddr cx.mxBlk 0) cx.fmtA = some ra ∧ operandRec cx.w (blkAddr cx.mxBlk 4) cx.fmtB = some rb ∧
  pairing (fmtFor cx.fmtA ra) (fmtFor cx.fmtB rb) = some kp

section
variable {acc : Bool} {cx : Cx} {s : State}

theorem mloopEff_of_pairs {ra rb : List Word} {kp : Nat × Bool} (h : mloopPairs cx ra rb kp) : mloopEff acc cx s =
    if mloopRefuses acc cx s ra rb kp.2 then .trap cx.mxTrap
    else .done (enqueued s cx (.mloop acc cx.mxBlk (cx.b32 0) cx.fmtA cx.fmtB ra rb) cx.arrivalBar) := by
  obtain ⟨ha, hb, hp⟩ := h
  simp only [Cx.mxBlk, Cx.fmtA, Cx.fmtB] at ha hb hp
  cases hh : prospective s cx.core <;> simp only [mloopEff, ha, hb, hp, mloopRefuses, hh] <;> rfl

theorem mloopEff_of_ok {ra rb : List Word} {kp : Nat × Bool}
    (h : mloopPairs cx ra rb kp ∧ mloopRefuses acc cx s ra rb kp.2 = false) :
    mloopEff acc cx s = .done (enqueued s cx (.mloop acc cx.mxBlk (cx.b32 0) cx.fmtA cx.fmtB ra rb) cx.arrivalBar) :=
  (mloopEff_of_pairs h.1).trans (if_neg (Bool.eq_false_iff.1 h.2))

/-- An MLOOP without operands, without their pairing, or misused in another way (R250, R253). -/
theorem mloopEff_of_refused (h : ∀ ra rb kp, ¬ (mloopPairs cx ra rb kp ∧ mloopRefuses acc cx s ra rb kp.2 = false)) :
    mloopEff acc cx s = .trap cx.mxTrap := by
  by_cases hex : ∃ ra rb kp, mloopPairs cx ra rb kp
  · obtain ⟨ra, rb, kp, hp⟩ := hex
    exact (mloopEff_of_pairs hp).trans (if_pos (eq_true_of_ne_false fun hr => h ra rb kp ⟨hp, hr⟩))
  · simp only [mloopEff]
    split
    · rename_i ra rb ha hb
      split
      · rfl
      · rename_i hp
        exact absurd ⟨ra, rb, _, ha, hb, hp⟩ hex
    · rfl

end

/-! ### The obligation -/

/-- Settles O26: the status of an OBRES, whether OBREL finds its record, and the checks of MLOOP; MPUB has none. -/
theorem matrixUnitIssueResults : Obligations.MatrixUnitIssueResults := by
  intro f
  refine ⟨?reservations, ?commands⟩
  case reservations =>
    intro rec4 base size meets other good answer
    have hmeets (cx : Cx) (w : Wg) : obMeets cx w = true ↔ meets cx w := obMeets_iff
    have hother (cx : Cx) (s : State) : obMeetsOther cx s = true ↔ other cx s := by
      simp only [obMeetsOther_iff, hmeets, other]
    refine ⟨?taken, ?own, ?others, ?held, ?bad, ?badRelease, ?noRecord, ?release⟩
    case taken =>
      rintro s cx s1 h ⟨hg, ht⟩
      exact exec_obres_of_denied h (obRefuses_eq_false_iff.2 hg) (obStatus_of_taken ht) (by decide)
    case own =>
      rintro s cx s1 h ⟨hg, hfree, hm⟩
      exact exec_obres_of_denied h (obRefuses_eq_false_iff.2 hg) (obStatus_of_meets hfree ((hmeets _ _).2 hm)) (by decide)
    case others =>
      rintro s cx s1 h ⟨hg, hfree, hm, ho⟩
      exact exec_obres_of_denied h (obRefuses_eq_false_iff.2 hg)
        (obStatus_of_meetsOther hfree (mt (hmeets _ _).1 hm) ((hother _ _).2 ho)) (by decide)
    case held =>
      rintro s cx s1 h ⟨hg, hfree, hm, ho⟩
      exact exec_obres_of_free h (obRefuses_eq_false_iff.2 hg)
        (obStatus_of_free hfree (mt (hmeets _ _).1 hm) (mt (hother _ _).1 ho))
    case bad =>
      exact Traps.of_effect (fun _ => rfl) rfl (fun cx s _ _ _ hg => if_pos (obRefuses_iff.2 hg)) (fun _ _ => rfl) fun _ _ => rfl
    case badRelease =>
      exact Traps.of_effect (fun _ => rfl) rfl (fun cx s _ _ _ hb => if_pos hb) (fun _ _ => rfl) fun _ _ => rfl
    case noRecord =>
      refine Does.of_effect (fun _ => rfl) rfl fun cx s _ _ _ ⟨hb, hnone⟩ => ?_
      simp only [if_neg (Nat.not_lt.2 hb), hnone]
    case release =>
      intro s cx s1 ws h hb hws
      refine issue_done h ?_
      simp only [if_neg (Nat.not_lt.2 hb), hws, List.isEmpty_iff]
      rfl
  case commands =>
    intro blk fa fb enqueue bar ok
    have hok (acc : Bool) {cx : Cx} {s : State} {ra rb : List Word} {kp : Nat × Bool} :
        (ok cx ra rb kp ∧ (acc = true → ∀ t, prospective s cx.core = some t → t = kp.2)) ↔
          mloopPairs cx ra rb kp ∧ mloopRefuses acc cx s ra rb kp.2 = false := by
      rw [mloopRefuses_eq_false_iff]
      constructor
      · rintro ⟨⟨ha, hb, hp, hn, hsa, hsb⟩, hacc⟩
        exact ⟨⟨ha, hb, hp⟩, hn, hsa, hsb, hacc⟩
      · rintro ⟨⟨ha, hb, hp⟩, hn, hsa, hsb, hacc⟩
        exact ⟨⟨ha, hb, hp, hn, hsa, hsb⟩, hacc⟩
    refine ⟨?new, ?acc, ?newBad, ?accBad, ?mpub⟩
    case new =>
      intro s cx s1 ra rb kp h hk
      exact issue_done h (mloopEff_of_ok ((hok false).1 ⟨hk, nofun⟩))
    case acc =>
      intro s cx s1 ra rb kp h hk hacc
      exact issue_done h (mloopEff_of_ok ((hok true).1 ⟨hk, fun _ => hacc⟩))
    case newBad =>
      refine Traps.of_effect (fun _ => rfl) rfl (fun cx s _ _ _ hno => ?_) (fun _ _ => rfl) fun _ _ => rfl
      exact mloopEff_of_refused fun ra rb kp hp => hno ra rb kp ((hok false).2 hp).1
    case accBad =>
      refine Traps.of_effect (fun _ => rfl) rfl (fun cx s _ _ _ hno => ?_) (fun _ _ => rfl) fun _ _ => rfl
      refine mloopEff_of_refused fun ra rb kp hp => ?_
      obtain ⟨hk, hacc⟩ := (hok true).2 hp
      exact hno ra rb kp ⟨hk, hacc rfl⟩
    case mpub => exact Does.of_effect (fun _ => rfl) rfl fun cx s _ _ _ _ => rfl

end Sys2Proof.Machine
end

section
/-! Bulk copies and collectives of the spool processor (R265 to R274, R412, R424). -/

namespace Sys2Proof.Machine

open Sys2Proof

/-! ### TCOPY -/

/-- A module without peers asks none for an element. -/
theorem farHits_tcFar_of_noPeers {s : State} (h : s.peers = []) (w : Who) (t : TC) (e n : Nat) (got : Tab Byte) :
    farHits got (tcFar s w t e n) = [] := by
  simp [tcFar, h, farHits]

/-- What a TCOPY has still to copy, from its counters on (R268, R271). -/
def tcRest (s : State) (o : Op) (t : TC) (c : List Nat) : Stepped :=
  tcRun s o { opWho s o with copy := true } t (t.pos c) (t.count - t.pos c)

section
variable {s : State} {id : Nat} {o : Op} {fc fd : Nat} {blk : List Word} {c : List Nat} {s1 : State} (ho : s.op? id = some o)
  (hk : o.k = .tcopy fc fd blk c) (hf : o.fault = none) (hd : o.done = false) (hs : opSaved s o = false) (hp : s.peers = [])
include ho hk hf hd hs hp

/-- A copy of bytes of this module completes once all is copied and accepted (R270). -/
theorem exec_tcopyComplete_of_ok (hrun : tcRest s o ⟨fc, fd, blk⟩ c = .ok s1) (hu : unackedOp s1 id = false) :
    exec (.tcopyComplete id) s = .next (completeOp (s1.release (partyOp o.id)) o) := by
  obtain rfl := op?_some_id ho
  simp only [tcRest] at hrun
  simp only [exec, execTcopyComplete, ho, hk, hf, hd, hs, Bool.or_self, withFar_of_none (farHits_tcFar_of_noPeers hp _ _ _ _ _), hrun]
  exact congrArg _ (endEngine_of_acked (fun t => by simp only [travHb, hk]) hu)

/-- A copy that cannot go on stops at a deferred fault, its counters kept (R271, R404). -/
theorem exec_tcopyComplete_of_stop {m : MFault} (hrun : tcRest s o ⟨fc, fd, blk⟩ c = .stop s1 m) :
    exec (.tcopyComplete id) s = .next (deferFault s1 id
      { opTrap o m.cause m.aux with walk := m.page.map fun p => ((opWho s o).die, p) }) := by
  simp only [tcRest] at hrun
  simp only [exec, execTcopyComplete, ho, hk, hf, hd, hs, Bool.or_self, withFar_of_none (farHits_tcFar_of_noPeers hp _ _ _ _ _), hrun]
  rfl

end

/-! ### COLL at issue -/

/-- A word of a COLL's block. -/
def Cx.collWord (cx : Cx) (k : Nat) : Word := cx.g.rs (cx.f.a.toNat + k)

/-- The communicator that a COLL names. -/
def Cx.collComm (cx : Cx) : Nat := (cx.collWord 5).toNat % 65536

/-- The ROOT of a COLL. -/
def Cx.collRoot (cx : Cx) : Nat := (cx.collWord 5).toNat / 65536

/-- When a COLL is misused: its count, a reduction that its MIN lacks, a path, its last word (R272). -/
def collRefuses (cx : Cx) : Prop :=
  (cx.collWord 4).toNat = 0 ∨ 2 ^ 31 ≤ (cx.collWord 4).toNat ∨ (2 ≤ cx.f.mn.toNat ∧ cx.f.c.toNat % 4 ≠ 0) ∨
    pathOf (cx.collWord 1 ++ cx.collWord 0) ≠ 0 ∨ pathOf (cx.collWord 3 ++ cx.collWord 2) ≠ 0 ∨ cx.collWord 7 ≠ 0

/-- The operation of a COLL has started. -/
def collStarted (s : State) (cx : Cx) : State :=
  startOp s cx (.coll cx.f.mn.toNat (cx.f.c.toNat % 4) cx.ty (cx.g.rs2 cx.f.a.toNat) (cx.g.rs2 (cx.f.a.toNat + 2))
    (cx.collWord 4).toNat cx.collComm cx.collRoot (cx.collWord 6).toNat) [] 0 cx.arrivalBar

theorem not_collRefuses_iff {cx : Cx} : ¬ collRefuses cx ↔ 1 ≤ (cx.collWord 4).toNat ∧ (cx.collWord 4).toNat < 2 ^ 31 ∧
    (cx.f.mn.toNat < 2 ∨ cx.f.c.toNat % 4 = 0) ∧ pathOf (cx.collWord 1 ++ cx.collWord 0) = 0 ∧
    pathOf (cx.collWord 3 ++ cx.collWord 2) = 0 ∧ cx.collWord 7 = 0 := by
  simp only [collRefuses, not_or, not_and_or, not_le, not_not, Nat.one_le_iff_ne_zero, ne_eq]

/-- The upper half of a word. -/
theorem bits_upper_half (w : Word) : bits w.toNat 16 16 = w.toNat / 65536 := by
  have := w.isLt
  rw [bits]
  omega

section
variable {f : Fld} {s : State} {cx : Cx} {s1 : State} (h : issuable (.coll f) s = some (cx, s1))
include h

theorem exec_coll_of_ok (hr : ¬ collRefuses cx) {o : Op} (ho : (collStarted s1 cx).op? (lastId (collStarted s1 cx)) = some o) :
    exec (.coll f) s = .next (completed (joinColl (collStarted s1 cx) o cx.l.ctx.slice
      [cx.f.mn.toNat, cx.f.c.toNat % 4, cx.ty, (cx.collWord 4).toNat, cx.collRoot] cx.collComm (cx.collWord 6).toNat) cx) := by
  have hcomm : bits (cx.g.rs (cx.f.a.toNat + 5)).toNat 0 16 = cx.collComm := bits_zero _ _
  have hroot : bits (cx.g.rs (cx.f.a.toNat + 5)).toNat 16 16 = cx.collRoot := bits_upper_half _
  refine issue_done h ((if_neg hr).trans ?_)
  rw [hcomm, hroot]
  simp only [collStarted, Cx.collWord, Cx.arrivalBar] at ho
  simp only [ho]
  rfl

theorem exec_coll_of_refused (hr : collRefuses cx) : exec (.coll f) s = .next (trappedAt s1 cx (cx.trap 0x000A 0)) :=
  issue_trap h (if_pos hr) rfl rfl

end

/-! ### The completion of a COLL -/

/-- The bytes of a member's result (R273). -/
def Collective.resultBytes (c : Collective) (r : Nat) : List Byte :=
  (c.result r).flatMap (bytesOfNat (if c.key.getD 2 0 = 4 then 2 else 4))

/-- A member's result is written to its DST, after what the other members here have done, and the peers are told so (R62, R273, R274). -/
def collWritten (s s1 : State) (c : Collective) (r : Nat) (o : Op) (hs : List (Req × List Hit)) : State :=
  sendColl (writeLanes (collHears s1 c o.id) (opWho s o) false hs fun _ => c.resultBytes r) (opNs s o) o.id c.table
    (collFlit c.comm r c.seq c.key true 0 0 [1])

theorem badOut_of_clean {c : Collective} (h : c.bad = []) (r : Nat) : c.badOut r = [] := by
  simp [Collective.badOut, h]

theorem collWrite_of_clean {s s1 : State} {c : Collective} {r : Nat} {o : Op} {dst : DWord} {hs : List (Req × List Hit)}
    (hbad : c.bad = [])
    (hr : resolveAll s (opWho s o) .engWrite false (fun _ _ => 1) [(none, dst, (c.resultBytes r).length)] = .ok (hs, s1)) :
    collWrite s c r o dst = endEngine (collOver (collWritten s s1 c r o hs) { c with done := c.done ++ [r] }) o := by
  simp only [Collective.resultBytes] at hr
  simp only [collWrite, hr, badOut_of_clean hbad, List.map_nil, List.eraseDups_nil, List.filter_nil, List.append_nil]
  rfl

theorem collOver_of_last {s : State} {c : Collective} (h : ∀ q < c.table.length, q ∈ c.done) : collOver s c =
    { s with colls := s.colls.filter fun x => !(x.comm == c.comm && x.seq == c.seq && !x.failed) } :=
  if_pos (by simpa using h)

theorem collOver_of_waiting {s : State} {c : Collective} (h : ¬ ∀ q < c.table.length, q ∈ c.done) : collOver s c = setColl s c :=
  if_neg (by simpa using h)

theorem unackedOp_collOver (s : State) (c : Collective) (id : Nat) : unackedOp (collOver s c) id = unackedOp s id := by
  unfold collOver
  split <;> rfl

section
variable {s : State} {id : Nat} {o : Op} {c : Collective} {r mn red ty : Nat} {src dst : DWord} {count comm root sq : Nat}
  (ho : s.op? id = some o) (hc : collOf s id = some (c, r)) (hk : o.k = .coll mn red ty src dst count comm root sq)
  (hf : o.fault = none)
include ho hc hk hf

theorem exec_collComplete_of_unread (hd : Tab.find? c.data r = none) : exec (.collComplete id) s = collRead s c r o src dst := by
  simp only [exec, execCollComplete, ho, hc, hk, hf, hd, Option.isNone_none, if_true]

theorem exec_collComplete_of_full (hd : (Tab.find? c.data r).isSome = true) (hfull : c.full s.moduleNo = true)
    (hu : unackedOp s id = false) : exec (.collComplete id) s = .next (collWrite s c r o dst) := by
  have hread : (Tab.find? c.data r).isNone = false := by rw [← Option.not_isSome, hd]; rfl
  simp only [exec, execCollComplete, ho, hc, hk, hf, hread, hfull, hu, Bool.not_true, Bool.or_self, Bool.false_eq_true, if_false]

/-- A member of a full collective completes, its result written (R274). -/
theorem exec_collComplete_writes (hd : (Tab.find? c.data r).isSome = true) (hfull : c.full s.moduleNo = true)
    (hu : unackedOp s id = false) (hbad : c.bad = []) {hs : List (Req × List Hit)} {s1 : State}
    (hr : resolveAll s (opWho s o) .engWrite false (fun _ _ => 1) [(none, dst, (c.resultBytes r).length)] = .ok (hs, s1))
    (hacked : unackedOp (collWritten s s1 c r o hs) id = false) : exec (.collComplete id) s = .next (completeOp
      ((collOver (collWritten s s1 c r o hs) { c with done := c.done ++ [r] }).release (partyOp id)) o) := by
  rw [exec_collComplete_of_full ho hc hk hf hd hfull hu, collWrite_of_clean hbad hr]
  obtain rfl := op?_some_id ho
  exact congrArg _ (endEngine_of_acked (fun t => by simp only [travHb, hk]) ((unackedOp_collOver _ _ _).trans hacked))

end

/-! ### The obligation -/

/-- Settles O28: the checks of a TCOPY and of a COLL at issue; a copy's run; a collective's data, that is read or that is all here. -/
theorem bulkTransferResults : Obligations.BulkTransferResults := by
  intro f
  refine ⟨⟨?copy, ?copyBad, ?copied, ?stopped⟩, ?joins, ?misused, ?reads, ?writes⟩
  case copy => exact Does.of_effect (fun _ => rfl) rfl fun cx s _ _ _ h => if_neg (by simpa using h)
  case copyBad =>
    exact Traps.of_effect (fun _ => rfl) rfl (fun cx s _ _ _ h => if_pos (by simpa using h)) (fun _ _ => rfl) fun _ _ => rfl
  case copied =>
    exact fun s id o fc fd blk c s1 ho hk hf hd hs hp hrun hu => exec_tcopyComplete_of_ok ho hk hf hd hs hp hrun hu
  case stopped =>
    exact fun s id o fc fd blk c s1 m ho hk hf hd hs hp hrun =>
      ⟨_, rfl, rfl, rfl, exec_tcopyComplete_of_stop ho hk hf hd hs hp hrun⟩
  case joins =>
    intro s cx s1 h hok comm root k s2 o ho
    exact exec_coll_of_ok h (not_collRefuses_iff.2 hok) ho
  case misused =>
    exact fun s cx s1 h hno => exec_coll_of_refused h (not_not.1 (mt not_collRefuses_iff.1 hno))
  case reads =>
    intro s id o c rank mn red ty a d count comm root sq xs s2 ho hc hk hf hdata hr hfar read bad named
    have hnear : farHits o.got (xs.flatMap (·.2)) = [] := hfar
    rw [exec_collComplete_of_unread ho hc hk hf hdata]
    simp only [collRead, hr, withFar_of_none hnear]
    rfl
  case writes =>
    intro s id o c rank mn red ty a d count comm root sq hs s3 ho hc hk hf hdata hfull hu hbad bs hr s4 s5 c2 last hacked
    obtain rfl := op?_some_id ho
    rw [exec_collComplete_writes ho hc hk hf hdata hfull hu hbad hr hacked]
    exact ⟨fun hl => by rw [collOver_of_last hl]; rfl, fun hl => by rw [collOver_of_waiting hl]; rfl⟩

end Sys2Proof.Machine
end

section
/-! Rays: what RCVT and RHIT deliver, and the traversals that BOXT, FDIN, TRIT and RTRACE start (R282 to R289, R402, R404). -/

namespace Sys2Proof.Machine

open Sys2Proof

/-! ### Records in registers -/

/-- The four bytes of a word are its number (R3). -/
theorem natOfBytes_bytesOfWord (w : Word) : natOfBytes (bytesOfWord w) = w.toNat := by
  have hlt := w.isLt
  simp only [bytesOfWord, natOfBytes, BitVec.extractLsb'_toNat, Nat.shiftRight_eq_div_pow]
  omega

/-- A word of a record that stands in registers is its register's. -/
theorem recNum_vWords (g : Group) (r l : Nat) {k n : Nat} (h : k < n) : recNum (g.vWords r n l) k 1 = (g.rv (r + k) l).toNat := by
  have hword : ((g.vWords r n l).drop k).take 1 = [g.rv (r + k) l] := by
    simp [Group.vWords, List.take_one, h]
  rw [recNum, hword, List.flatMap_singleton]
  exact natOfBytes_bytesOfWord _

/-- VALID of a hit record that stands in registers (R279). -/
theorem hitValid_vWords (g : Group) (r l : Nat) : hitValid (g.vWords r 16 l) = bit (g.rv (r + 2) l).toNat 0 := by
  rw [hitValid, recNum_vWords g r l (by decide)]

/-! ### The start of a traversal -/

section
variable {cx : Cx} {s : State} {k : OpK} {n : Nat}

theorem startTrav_of_noLane (h : cx.act = 0) : startTrav s cx k n = .done (completeNow (startOp s cx k [])) := if_pos h

theorem startTrav_of_lanes (h : cx.act ≠ 0) : startTrav s cx k n = .done (startLater s cx k (vRefs cx.f.d.toNat n)) := if_neg h

end

section
variable {i : Instr} {f : Fld} {r : Row} {k : Cx → State → OpK} {n : Nat}
  (hx : ∀ s, exec i s = issue i s fun cx s => startTrav s cx (k cx s) n) (he : enc i = some (f, r))
include hx he

/-- An instruction that only starts a traversal completes at once where no lane is active (R289). -/
theorem does_nothing_of_startTrav : Does i (fun cx _ => cx.act = 0) fun cx s => completeNow (startOp s cx (k cx s) []) :=
  .of_effect hx he fun _ _ _ _ _ h => startTrav_of_noLane h

/-- Where lanes are active its operation starts, whose registers are undefined until they land (R138, R289). -/
theorem does_start_of_startTrav :
    Does i (fun cx _ => cx.act ≠ 0) fun cx s => startLater s cx (k cx s) (vRefs cx.f.d.toNat n) :=
  .of_effect hx he fun _ _ _ _ _ h => startTrav_of_lanes h

end

/-- When an FDIN makes its reads only at its completion: no lane is active, or not all of them succeed here as it issues (log 11). -/
theorem fdinLater_iff {cx : Cx} {x : LaneRun} : (decide (cx.act = 0) || !x.faults.isEmpty || !x.far.isEmpty) = true ↔
    cx.act = 0 ∨ ¬ (x.faults = [] ∧ x.far = []) := by
  simp only [Bool.or_eq_true, decide_eq_true_eq, Bool.not_eq_true', List.isEmpty_eq_false_iff, not_and_or, or_assoc, ne_eq]

/-! ### The end of a traversal -/

/-- The deferred fault of a traversal that a memory fault stops. -/
def travTrap (s : State) (o : Op) (m : MFault) : Trap :=
  { opTrap o m.cause m.aux with walk := m.page.map fun p => ((opWho s o).die, p) }

section
variable {name : String} {s : State} {o : Op} {d n : Nat} {x : LaneRun}

theorem endTrav_of_done (hf : x.faults = []) (hr : x.far = []) :
    endTrav name s o d n x = .next (endEngine x.s { o with wrs := recWrs d n x.done }) := by
  simp only [endTrav, hf, hr, worstFault, List.isEmpty_nil, Bool.not_true, Bool.false_eq_true, if_false]

theorem endTrav_of_fault {m : MFault} (hr : x.far = []) (hm : worstFault x.faults = some m) : endTrav name s o d n x =
    .next (deferFault (s.modOp o.id fun y => { y with skip := recWrs d n x.skip }) o.id (travTrap s o m)) := by
  simp only [endTrav, hr, hm, List.isEmpty_nil, Bool.not_true, Bool.false_eq_true, if_false, travTrap]

end

theorem travHb_trav {o : Op} {opc d c : Nat} {lanes : List (Nat × List Word × List Word)} (hk : o.k = .trav opc d c lanes)
    (s : State) : travHb s o = s := by
  simp only [travHb, hk]

/-- A hardware traversal that ends goes to the GDRAINs of later generations (R292), and completes once peer modules have accepted what
it did there (R373). -/
theorem endEngine_rtrace {s : State} {o : Op} {d : Nat} {rays : List (Nat × List Word)} {base : DWord} {fl : Nat} {gen : Word}
    (hk : o.k = .rtrace d rays base fl gen) (hu : unackedOp s o.id = false) :
    let s1 := s.release (partyOp o.id)
    endEngine s o =
      completeOp (s1.post (.trav ((s1.launch? o.lnch).elim 0 (·.ctx.slice)) gen.toNat) (s1.relClk (opMe o.id))) o := by
  intro s1
  have ht : travHb s1 o = s1.post (.trav ((s1.launch? o.lnch).elim 0 (·.ctx.slice)) gen.toNat) (s1.relClk (opMe o.id)) := by
    simp only [travHb, hk]
  have hacked : unackedOp (travHb s1 o) o.id = false := by rw [ht, unackedOp_post]; exact hu
  exact (if_neg (by rw [hacked]; decide)).trans (by rw [ht])

section
variable {s : State} {id : Nat} {o : Op} (ho : s.op? id = some o) (hd : o.done = false) (hf : o.fault = none)
  (hs : opSaved s o = false)
include ho hd hf hs

theorem exec_variableLatencyComplete_trav {opc d c : Nat} {lanes : List (Nat × List Word × List Word)}
    (hk : o.k = .trav opc d c lanes) : exec (.variableLatencyComplete id) s = travComplete s o opc d c lanes := by
  simp only [exec, execVariableLatencyComplete, ho, hd, hf, hs, hk, Option.isSome_none, Bool.or_self, Bool.false_eq_true, if_false]

theorem exec_rtraceComplete {d : Nat} {rays : List (Nat × List Word)} {base : DWord} {fl : Nat} {gen : Word}
    (hk : o.k = .rtrace d rays base fl gen) : exec (.rtraceComplete id) s =
      endTrav "RTRACE_COMPLETE" s o d 16 (traceLanes (gctxOf s o) base fl rays s) := by
  simp only [exec, execRtraceComplete, ho, hd, hf, hs, hk, Bool.or_self]

end

/-- The completion of a traversal of BOXT, FDIN or TRIT that has lanes left. -/
theorem travComplete_of_lanes {s : State} {o : Op} {opc d c : Nat} {lanes : List (Nat × List Word × List Word)} (h : lanes ≠ []) :
    travComplete s o opc d c lanes =
      endTrav "VARIABLE_LATENCY_COMPLETE" s o d (travRegs opc) (travLanes (gctxOf s o) opc c lanes s) :=
  if_neg (by simpa using h)

/-! ### The obligation -/

/-- Settles O29: the records that RCVT and RHIT form, whether a lane is active as a traversal starts, and for its completion what its
lanes come to. -/
theorem rayTraversalResults : Obligations.RayTraversalResults := by
  refine ⟨fun f => ?issue, fun s id o ho hd hf hs => ?complete⟩
  case issue =>
    intro ws each nothing start pair trace
    refine ⟨?rcvtRay, ?rcvtHit, ?boxtNone, ?boxt, ?fdinNone, ⟨?fdinFound, ?fdin⟩, ?tritNone, ?trit, ?rtraceNone, ?rtrace, ?rhit⟩
    case rcvtRay =>
      refine Does.of_effect (fun _ => rfl) rfl fun cx s _ hr _ h => ?_
      simp only [h, if_true, addFix_eq_fixAfter (latOf_fix rfl hr)]
      rfl
    case rcvtHit =>
      refine Does.of_effect (fun _ => rfl) rfl fun cx s _ hr _ h => ?_
      simp only [if_neg h, addFix_eq_fixAfter (latOf_fix rfl hr)]
      rfl
    case boxtNone | tritNone | rtraceNone => exact does_nothing_of_startTrav (fun _ => rfl) rfl
    case boxt | trit | rtrace => exact does_start_of_startTrav (fun _ => rfl) rfl
    case fdinNone =>
      refine Does.of_effect (fun _ => rfl) rfl fun cx s _ _ _ h => ?_
      exact (if_pos (fdinLater_iff.2 (.inl h))).trans (startTrav_of_noLane h)
    case fdinFound =>
      refine Does.of_effect (fun _ => rfl) rfl fun cx s _ _ _ ⟨ha, hfound⟩ => ?_
      exact if_neg (mt fdinLater_iff.1 (not_or.2 ⟨ha, not_not.2 hfound⟩))
    case fdin =>
      refine Does.of_effect (fun _ => rfl) rfl fun cx s _ _ _ ⟨ha, hno⟩ => ?_
      exact (if_pos (fdinLater_iff.2 (.inr hno))).trans (startTrav_of_lanes ha)
    case rhit =>
      refine does_fixAfter_flags (fun _ => rfl) rfl (fun _ => latOf_fix rfl) (fun cx => ?_) fun cx => ?_ <;>
        simp (disch := decide) only [hitValid_vWords, recNum_vWords]
  case complete =>
    obtain rfl := op?_some_id ho
    refine ⟨fun opc d c lanes hk => ?trav, fun d rays base fl gen hk => ?rtrace⟩
    case trav =>
      intro r n
      rw [exec_variableLatencyComplete_trav ho hd hf hs hk]
      refine ⟨?nothing, fun hl hfaults hfar hu => ?lands, fun m hl hfar hm => ?stops⟩
      case nothing =>
        rintro rfl hu
        exact congrArg _ (endEngine_of_acked (travHb_trav hk) hu)
      case lands =>
        rw [travComplete_of_lanes hl, endTrav_of_done hfaults hfar]
        exact congrArg _ (endEngine_of_acked (travHb_trav hk) hu)
      case stops =>
        exact ⟨travTrap s o m, rfl, rfl, rfl, (travComplete_of_lanes hl).trans (endTrav_of_fault hfar hm)⟩
    case rtrace =>
      intro r s1
      rw [exec_rtraceComplete ho hd hf hs hk]
      refine ⟨fun hfaults hfar hu => ?_, fun m hfar hm => ⟨travTrap s o m, rfl, rfl, rfl, endTrav_of_fault hfar hm⟩⟩
      rw [endTrav_of_done hfaults hfar]
      exact congrArg _ (endEngine_rtrace hk hu)

end Sys2Proof.Machine
end

section
/-! The drogue's events: a save, the completions that come late, and the return of saved workgroups (R300, R308, R339 to R345). -/

namespace Sys2Proof.Machine

open Sys2Proof

/-! ### The save -/

/-- Whether a save writes a raster checkpoint: it is one of a slice in which passes run (R300). -/
def savesPasses (s : State) (sv : Save) : Bool := sv.kind == 2 && s.passes.any fun p => p.slice == sv.slice

/-- The offset after the last of some records. -/
def recordsEnd (xs : List (Nat × Wg × Launch × Parts)) : Nat := 0x1000 + (xs.map fun x => recordLen x.2.2.1 x.2.2.2).sum

/-- USED of a header: what the records and the raster checkpoint take, or the header alone (R341). -/
def areaUsed (rast : Bool) (xs : List (Nat × Wg × Launch × Parts)) : Nat :=
  if rast then recordsEnd xs + privateLen else if xs.isEmpty then 256 else recordsEnd xs

/-- A save ends: with its records written, or with OVF; its commands complete, its cores are released, and what waits for it goes on. -/
def saveEnds (s : State) (k : Nat) (sv : Save) (ok : Bool) : State :=
  let t : State := { s with saves := Tab.modify s.saves k fun x => { x with halting := false, done := ok, ovf := !ok, histAt := s.histLen } }
  goResumes (releaseCores (saveCmds (mergedHeaders t sv (!ok)) sv) sv)

/-- The records of a save and its raster checkpoint have been written (R342 to R344). -/
def recordsSaved (s : State) (k : Nat) (sv : Save) : State :=
  let rast := savesPasses s sv
  let s1 := backBoards s sv
  let xs := recordsOf s1 sv
  let s2 := saveAll (if rast then stopPasses s1 sv.slice true else s1) k (sv.kind == 2) xs 0x1000
  if rast then writeArea s2 sv.tier (sv.area + recordsEnd xs) ((List.range privateLen).map fun i => Config.privateByte i) else s2

section
variable {s : State} {k : Nat} {sv : Save} (hsv : Tab.find? s.saves k = some sv) (hready : saveReady s sv = true)
include hsv hready

/-- Records that fit in their area are written, then its header (R339, R341). -/
theorem exec_contextSave_of_fits (h : areaFits sv.tier sv.area sv.size (areaUsed (savesPasses s sv) (recordsOf s sv)) = true) :
    exec (.contextSave k) s =
      let rast := savesPasses s sv
      let xs := recordsOf (backBoards s sv) sv
      .next (saveEnds (writeArea (recordsSaved s k sv) sv.tier sv.area
        (headerBytes xs.length true false rast (areaUsed rast xs) (if rast then recordsEnd xs else 0))) k sv true) := by
  change execContextSave k s = _
  rw [execContextSave, hsv]
  exact (if_neg (by rw [hready]; decide)).trans (if_neg (Bool.eq_false_iff.1 (congrArg Bool.not h)))

/-- An area that is too small receives OVF, and nothing else of the save is done (R341). -/
theorem exec_contextSave_of_overflow
    (h : areaFits sv.tier sv.area sv.size (areaUsed (savesPasses s sv) (recordsOf s sv)) = false) : exec (.contextSave k) s =
      .next (saveEnds (writeArea s sv.tier sv.area (headerBytes 0 false true false 256 0)) k sv false) := by
  change execContextSave k s = _
  rw [execContextSave, hsv]
  exact (if_neg (by rw [hready]; decide)).trans (if_pos (congrArg Bool.not h))

end

/-! ### Late completions -/

/-- The record of a saved workgroup is written again for what a late completion has changed: its operand buffer and vault go by the area
as it stands; what waited for that completion goes on (R340, R345, R395). -/
def lateRecord (t : State) (k : Nat) (sv : Save) (wid off : Nat) (w : Wg) (l : Launch) : State :=
  let p := partsOf t w wid (Tab.find? sv.mxs wid) (sv.kind == 2)
  let os := partOffsets l p
  let area (x n : Nat) : List Byte := (List.range n).map fun i => t.byte (mKey sv.tier (sv.area + off + x + i))
  leaveDropped (goResumes (writeRecord t k wid off { p with ob := area os.2.1 p.ob.length, vlt := area os.2.2.1 p.vlt.length })) wid

/-- A late completion has been applied to group `g` of its workgroup, as it is saved (R340). -/
def lateInGroup (s : State) (k : Nat) (o : Op) (g : Nat) : State :=
  { s with
    ops := s.ops.filter fun x => x.id != o.id
    saves := Tab.modify s.saves k fun x => { x with saved := Tab.modify x.saved (savedKey o.wg g) (·.applyLate o) } }

/-- A late completion has been applied to the spool processor of its workgroup (R340). -/
def lateInSpool (s : State) (o : Op) : State :=
  ({ s with ops := s.ops.filter fun x => x.id != o.id } : State).modWg o.wg (·.spoolWrites o.wrs)

/-- A late completion makes its barrier arrival (R236). -/
def lateArrival (t : State) (o : Op) : State := match o.bar with
  | some b => t.modWg o.wg (·.arrive b 1)
  | none => t

theorem lateArrival_launch (t : State) (o : Op) (j : Nat) : (lateArrival t o).launch? j = t.launch? j := by
  unfold lateArrival
  split <;> rfl

/-- What follows once a late completion has reached the image of its workgroup: its barrier arrival, and the record where the launch
still stands. -/
def lateFollows (t : State) (k : Nat) (sv : Save) (o : Op) (off : Nat) (w : Wg) : Host.Outcome State Fault Refusal :=
  match (lateArrival t o).launch? w.lnch with
  | none => .next (lateArrival t o)
  | some l => .next (lateRecord (lateArrival t o) k sv o.wg off w l)

theorem lateFollows_of_launch {t : State} {w : Wg} {l : Launch} (hl : t.launch? w.lnch = some l) (k : Nat) (sv : Save) (o : Op)
    (off : Nat) : lateFollows t k sv o off w = .next (lateRecord (lateArrival t o) k sv o.wg off w l) := by
  rw [lateFollows, lateArrival_launch, hl]

section
variable {s : State} {id : Nat} {o : Op} {k off : Nat} {sv : Save} {w : Wg} (ho : s.op? id = some o)
  (hsv : saveOf s o.wg = some (k, sv, off)) (hw : s.wg? o.wg = some w) (hk : o.k = .reg) (hsaved : w.saved = true)
include ho hsv hw hk hsaved

theorem exec_lateCompletionApply_group {c sl x g : Nat} (hag : o.ag = .group c sl x) (hg : w.slots.findIdx? (· == sl) = some g) :
    exec (.lateCompletionApply id) s = lateFollows (lateInGroup s k o g) k sv o off w := by
  obtain rfl := op?_some_id ho
  simp only [exec, execLateCompletionApply, ho, hsv, hw, hk, hsaved, hag, hg, bne_self_eq_false, Bool.not_true, Bool.or_self,
    Bool.false_eq_true, if_false, Option.isNone_some]
  rfl

theorem exec_lateCompletionApply_spool {h : Nat} (hag : o.ag = .spool h) :
    exec (.lateCompletionApply id) s = lateFollows (lateInSpool s o) k sv o off w := by
  obtain rfl := op?_some_id ho
  simp only [exec, execLateCompletionApply, ho, hsv, hw, hk, hsaved, hag, bne_self_eq_false, Bool.not_true, Bool.or_self,
    Bool.false_eq_true, if_false, Option.isNone_none, if_true]
  rfl

end

/-! ### The return of workgroups -/

section
variable {s : State} {k cmd off wid : Nat} {sv : Save} {w : Wg} {l : Launch}

/-- Whether a workgroup of the same launch with a lower WGINDEX can return as well (R345). -/
def lowerReturns (s : State) (sv : Save) (w : Wg) (l : Launch) : Bool := sv.recs.any fun r => !restored s sv r.1 && (s.wg? r.2).any fun x =>
  x.lnch == w.lnch && x.ix < w.ix && x.saved && canRestore s x l

theorem lowerReturns_eq_false (h : ∀ r ∈ sv.recs, restored s sv r.1 = false → ∀ y, s.wg? r.2 = some y → y.lnch = w.lnch → y.ix < w.ix →
    y.saved = true → canRestore s y l = false) : lowerReturns s sv w l = false := by
  simp only [lowerReturns, List.any_eq_false, Bool.and_eq_true, Bool.not_eq_true', Option.any_eq_true, beq_iff_eq, decide_eq_true_eq,
    not_and, not_exists, Bool.not_eq_true, and_imp]
  exact h

/-- A saved workgroup returns; once all of its save have, the RESUME command completes (R345). -/
theorem exec_workgroupRestore (hsv : Tab.find? s.saves k = some sv) (hres : sv.resuming = some cmd)
    (hrec : (sv.recs.find? fun r => r.1 == off) = some (off, wid)) (hw : s.wg? wid = some w) (hl : s.launch? w.lnch = some l)
    (hsaved : w.saved = true) (hnot : restored s sv off = false) (hcan : canRestore s w l = true)
    (hlow : lowerReturns s sv w l = false) :
    let s1 := settleTurn (putBack s k sv wid off w l) wid
    exec (.workgroupRestore k off) s = if (sv.recs.all fun r => restored s1 sv r.1) = true then
      .next ({ s1 with saves := Tab.modify s1.saves k fun x => { x with resuming := none } }.cmdReady cmd) else .next s1 := by
  simp only [lowerReturns] at hlow
  simp only [exec, execWorkgroupRestore, hsv, hres, hrec, hw, hl, hsaved, hnot, hcan, hlow, Bool.not_true, Bool.or_self,
    Bool.false_eq_true, if_false]

end

/-! ### The obligation -/

/-- Settles O40: whether the records fit decides a save, the agent of its operation a late completion, and a return ends the RESUME
command when no record is left. -/
theorem contextSaveEvents : Obligations.ContextSaveEvents := by
  refine fun s => ⟨fun k sv hsv hready => ?save, fun id o k sv off w l ho hsv hw hk hsaved hl => ?late,
    fun k sv cmd off wid w l hsv hres hrec hw hl hsaved hnot hcan hlow => ?returns⟩
  case save =>
    intro raster last used ends s1 xs s2 s3
    have hused (ys : List (Nat × Wg × Launch × Parts)) : used ys = areaUsed raster ys := by
      simp only [used, areaUsed, List.isEmpty_iff]
      rfl
    refine ⟨fun hfits => ?_, fun hover => ?_⟩
    · rw [hused] at hfits
      rw [exec_contextSave_of_fits hsv hready hfits, hused]
      rfl
    · rw [hused] at hover
      exact exec_contextSave_of_overflow hsv hready hover
  case late =>
    intro image gone
    obtain rfl := op?_some_id ho
    refine ⟨fun c sl x g hag hg => ?_, fun h hag => ?_⟩
    · rw [exec_lateCompletionApply_group ho hsv hw hk hsaved hag hg, lateFollows_of_launch (t := lateInGroup s k o g) hl]
      rfl
    · rw [exec_lateCompletionApply_spool ho hsv hw hk hsaved hag, lateFollows_of_launch (t := lateInSpool s o) hl]
      rfl
  case returns =>
    intro s1
    rw [exec_workgroupRestore hsv hres hrec hw hl hsaved hnot hcan (lowerReturns_eq_false hlow)]
    refine ⟨fun ⟨r, hr, hleft⟩ => if_neg fun hall => ?_, fun hall => if_pos (List.all_eq_true.2 hall)⟩
    exact absurd (List.all_eq_true.1 hall r hr) (by rw [hleft]; decide)

end Sys2Proof.Machine
end

section
/-! Staged loops: who enters one, and who leaves it (R311, R315). -/

namespace Sys2Proof.Machine

open Sys2Proof

/-! ### The loop that a member enters -/

section
variable {o p : SLoop} {id t m : Nat} {n : Word}

/-- A loop whose one member is the one that opens it. -/
def SLoop.fresh (id : Nat) (n : Word) (t m : Nat) : SLoop := { id := id, n := n, t := t, mem := m, joined := 1 }

theorem SLoop.admits_iff : o.admits id = true ↔ o.id = id ∧ o.joined < o.mem := by
  simp [SLoop.admits]

theorem SLoop.agrees_iff : o.agrees n t m = true ↔ o.n = n ∧ o.t = t ∧ o.mem = m := by
  simp [SLoop.agrees, and_assoc]

variable (pd : Option SLoop)

theorem enterLoop_open : enterLoop none pd id n t m = some (some (.fresh id n t m), pd, 1) := rfl

theorem enterLoop_join (ha : o.admits id = true) (hg : o.agrees n t m = true) :
    enterLoop (some o) pd id n t m = some (some o.join, pd, 1) := by
  simp [enterLoop, ha, hg]

theorem enterLoop_disagree (ha : o.admits id = true) (hg : ¬ o.agrees n t m = true) : enterLoop (some o) pd id n t m = none := by
  simp [enterLoop, ha, hg]

theorem enterLoop_pending (ha : ¬ o.admits id = true) :
    enterLoop (some o) none id n t m = some (some o, some (.fresh id n t m), 2) := by
  simp [enterLoop, ha, SLoop.fresh]

theorem enterLoop_joinPending (ha : ¬ o.admits id = true) (hp : p.admits id = true) (hg : p.agrees n t m = true) :
    enterLoop (some o) (some p) id n t m = some (some o, some p.join, 2) := by
  simp [enterLoop, ha, hp, hg]

theorem enterLoop_full (ha : ¬ o.admits id = true) (hp : ¬ (p.admits id = true ∧ p.agrees n t m = true)) :
    enterLoop (some o) (some p) id n t m = none := by
  simp only [enterLoop, if_neg ha, Bool.and_eq_true, if_neg hp]

end

/-! ### SLBEGIN -/

/-- The members that a SLBEGIN names, all groups of the workgroup for 0. -/
def Cx.slMembers (cx : Cx) : Nat := if cx.f.d.toNat / 8 = 0 then cx.w.ngrp else cx.f.d.toNat / 8
/-- Whether the operands of a SLBEGIN keep their limits, by a group in no loop. -/
def Cx.slValid (cx : Cx) : Prop := cx.g.lp = 0 ∧ cx.slMembers ≤ cx.w.ngrp ∧ 1 ≤ cx.b32 0 ∧ cx.b32 0 ≤ 32
/-- The loops of the workgroup once a SLBEGIN has entered one, with the loop that it is in. -/
def Cx.slEnter (cx : Cx) : Option (Option SLoop × Option SLoop × Nat) :=
  enterLoop cx.w.loop cx.w.pendLoop (cx.f.d.toNat % 8) (cx.g.rs cx.f.a.toNat) (cx.b32 0) cx.slMembers
theorem Cx.slEnter_eq (cx : Cx) {op pd : Option SLoop} {r : Option (Option SLoop × Option SLoop × Nat)} (ho : cx.w.loop = op)
    (hp : cx.w.pendLoop = pd) (he : enterLoop op pd (cx.f.d.toNat % 8) (cx.g.rs cx.f.a.toNat) (cx.b32 0) cx.slMembers = r) :
    cx.slEnter = r := by
  rw [Cx.slEnter, ho, hp, he]

/-- A group that has entered a loop of its workgroup. -/
def slEntered (r : Option SLoop × Option SLoop × Nat) (cx : Cx) (s : State) : State :=
  (s.modWg cx.wid fun w => { w with loop := r.1, pendLoop := r.2.1 }).modGroup cx.gk fun g => { g with lp := r.2.2 }

theorem Cx.slValid_iff {cx : Cx} :
    cx.slValid ↔ ¬ (cx.g.lp ≠ 0 ∨ cx.w.ngrp < cx.slMembers ∨ cx.b32 0 = 0 ∨ 32 < cx.b32 0) := by
  unfold Cx.slValid
  omega

theorem Cx.not_slValid_iff {cx : Cx} :
    ¬ cx.slValid ↔ cx.g.lp ≠ 0 ∨ cx.w.ngrp < cx.slMembers ∨ cx.b32 0 = 0 ∨ 32 < cx.b32 0 := by
  rw [Cx.slValid_iff, not_not]

section
variable {f : Fld} {s s1 : State} {cx : Cx} (h : issuable (.slbegin f) s = some (cx, s1))
include h

theorem exec_slbegin_enters (hv : cx.slValid) {r : Option SLoop × Option SLoop × Nat} (he : cx.slEnter = some r) :
    exec (.slbegin f) s = .next (completed (slEntered r cx s1) cx) := by
  refine issue_done h ((if_neg (Cx.slValid_iff.1 hv)).trans ?_)
  simp only [Cx.slEnter, Cx.slMembers] at he
  simp only [he]
  rfl

theorem exec_slbegin_invalid (hv : ¬ cx.slValid) : exec (.slbegin f) s = .next (trappedAt s1 cx cx.stagedTrap) := by
  have hbad := Cx.not_slValid_iff.1 hv
  exact issue_trap h (if_pos hbad) rfl rfl

theorem exec_slbegin_misfit (hv : cx.slValid) (he : cx.slEnter = none) :
    exec (.slbegin f) s = .next (trappedAt s1 cx cx.stagedTrap) := by
  refine issue_trap h ((if_neg (Cx.slValid_iff.1 hv)).trans ?_) rfl rfl
  simp only [Cx.slEnter, Cx.slMembers] at he
  simp only [he]

end

/-! ### SLEND -/

theorem leaveLoop_outside {s : State} (ag : Agent) {key : Nat} {g : Group} (hg : s.group? key = some g) (hlp : g.lp = 0) :
    leaveLoop s ag key = s := by
  simp [leaveLoop, hg, hlp]

/-! ### The obligation -/

/-- Settles O31: the loop that a member enters decides what SLBEGIN does. -/
theorem stagedLoopMembership : Obligations.StagedLoopMembership := by
  intro f
  refine ⟨?opens, fun s cx s1 o h hv ho => ⟨fun hr hs => ?joins, fun hr hs => ?disagrees, fun hr hp => ?pends,
    fun p hr hp hrp hsp => ?joinsPending, fun p hr hp hrp => ?full⟩, ?invalid, ?outside, ?leaves⟩
  case opens =>
    intro s cx s1 h ⟨hv, ho⟩
    have he := enterLoop_open cx.w.pendLoop (id := cx.f.d.toNat % 8) (t := cx.b32 0) (m := cx.slMembers) (n := cx.g.rs cx.f.a.toNat)
    rw [exec_slbegin_enters h hv (cx.slEnter_eq ho rfl he)]
    rfl
  case joins =>
    have he := enterLoop_join cx.w.pendLoop (SLoop.admits_iff.2 hr) (SLoop.agrees_iff.2 hs)
    rw [exec_slbegin_enters h hv (cx.slEnter_eq ho rfl he)]
    rfl
  case disagrees =>
    have he := enterLoop_disagree cx.w.pendLoop (SLoop.admits_iff.2 hr) (mt SLoop.agrees_iff.1 hs)
    exact exec_slbegin_misfit h hv (cx.slEnter_eq ho rfl he)
  case pends =>
    have he := enterLoop_pending (t := cx.b32 0) (m := cx.slMembers) (n := cx.g.rs cx.f.a.toNat) (mt SLoop.admits_iff.1 hr)
    rw [exec_slbegin_enters h hv (cx.slEnter_eq ho hp he)]
    rfl
  case joinsPending =>
    have he := enterLoop_joinPending (mt SLoop.admits_iff.1 hr) (SLoop.admits_iff.2 hrp) (SLoop.agrees_iff.2 hsp)
    rw [exec_slbegin_enters h hv (cx.slEnter_eq ho hp he)]
    rfl
  case full =>
    have he := enterLoop_full (mt SLoop.admits_iff.1 hr) (mt (And.imp SLoop.admits_iff.1 SLoop.agrees_iff.1) hrp)
    exact exec_slbegin_misfit h hv (cx.slEnter_eq ho hp he)
  case invalid => exact fun s cx s1 h hv => exec_slbegin_invalid h hv
  case outside =>
    refine Does.of_effect (fun _ => rfl) rfl fun cx s _ _ _ ⟨g, hg, hlp⟩ => ?_
    rw [leaveLoop_outside cx.ag hg hlp]
  case leaves => exact Does.of_effect (fun _ => rfl) rfl fun _ _ _ _ _ _ => rfl

end Sys2Proof.Machine
end

section
/-! Staged loops: the claim of an iteration, the stage counter and the wait for the iteration before (R309, R312 to R314). -/

namespace Sys2Proof.Machine

open Sys2Proof

/-! ### What finishing an iteration keeps -/

/-- Every workgroup's open loop is as in another state. -/
def SameLoops (s t : State) : Prop := ∀ w, (t.wg? w).map Wg.loop = (s.wg? w).map Wg.loop

namespace SameLoops

variable {s t u : State}

theorem of_wgs (h : t.wgs = s.wgs) : SameLoops s t := fun w => by rw [State.wg?, h, State.wg?]

theorem trans (h : SameLoops s t) (k : SameLoops t u) : SameLoops s u := fun w => (k w).trans (h w)

theorem foldl {α : Type} {f : State → α → State} (hf : ∀ s x, SameLoops s (f s x)) (xs : List α) (s : State) :
    SameLoops s (xs.foldl f s) := by
  induction xs generalizing s with
  | nil => exact of_wgs rfl
  | cons x xs ih => exact (hf s x).trans (ih _)

theorem modEnt (s : State) (wid i : Nat) (f : SEnt → SEnt) : SameLoops s (s.modEnt wid i f) := by
  intro w
  rw [State.modEnt]
  by_cases hw : w = wid
  · rw [hw, State.modWg_wg_self, Option.map_map]
    rfl
  · rw [State.modWg_wg_of_ne _ _ hw]

theorem takeEntry (s : State) (wid key : Nat) : SameLoops s (takeEntry s wid key) := by
  unfold Machine.takeEntry
  split
  · split
    · exact modEnt _ _ _ _
    · exact of_wgs rfl
  · exact of_wgs rfl

theorem takeEntries (s : State) (wid : Nat) : SameLoops s (takeEntries s wid) := by
  unfold Machine.takeEntries
  split
  · exact of_wgs rfl
  · exact foldl (fun s _ => takeEntry s _ _) _ _

theorem finishIter (s : State) (ag : Agent) (key : Nat) : SameLoops s (finishIter s ag key) := by
  unfold Machine.finishIter
  split
  · exact of_wgs rfl
  · rename_i g hg
    split
    · exact of_wgs rfl
    · have hent := modEnt s g.wg (g.iter.getD 0).toNat fun e => { e with stg := 0xFFFF }
      refine trans (hent.trans (of_wgs ?_)) (takeEntries _ _)
      exact (releaseTo_orderOnly _ _ _).wgs

/-- A workgroup's open loop. -/
theorem loop_eq (h : SameLoops s t) {wid : Nat} {w : Wg} {o : SLoop} (hw : s.wg? wid = some w) (ho : w.loop = some o) :
    (t.wg? wid).bind (·.loop) = some o := by
  have hloop : (t.wg? wid).map Wg.loop = some (some o) := by rw [h wid, hw, Option.map_some, ho]
  obtain ⟨x, hx, hxo⟩ := Option.map_eq_some_iff.1 hloop
  rw [hx, Option.bind_some, hxo]

end SameLoops

theorem finishIter_group_isSome (s : State) (ag : Agent) (key k : Nat) :
    ((finishIter s ag key).group? k).isSome = (s.group? k).isSome := by
  simpa using congrArg Option.isSome ((finishIter_controlFrame True s ag key).group k)

/-! ### The group that issues -/

/-- A spool processor stands in no staged loop. -/
theorem mkCx_spool_lp {s : State} {w : Nat} {i : Instr} {cx : Cx} {s1 : State} (h : mkCx s (.spool w) i = some (cx, s1)) :
    cx.g.lp = 0 := by
  unfold mkCx at h
  split at h
  · cases h
  · cases h
  · rename_i hag
    cases hag
  · split at h
    · cases h
    · split at h
      · split at h
        · simp only [Option.some.injEq, Prod.mk.injEq] at h
          obtain ⟨rfl, -⟩ := h
          rfl
        · cases h
      · cases h

/-- What stands in a staged loop is a group, which the state of its issue holds, with its workgroup. -/
theorem mkCx_member {s : State} {ag : Agent} {i : Instr} {cx : Cx} {s1 : State} (h : mkCx s ag i = some (cx, s1))
    (hlp : cx.g.lp ≠ 0) : (s1.group? cx.gk).isSome = true ∧ s1.wg? cx.wid = some cx.w := by
  cases ag with
  | none => rw [mkCx_agent_none] at h; cases h
  | spool w => exact absurd (mkCx_spool_lp h) hlp
  | group c sl k =>
    obtain ⟨-, -, hag, hgk, -, g0, -, hg0, -, hw, -⟩ := mkCx_group h
    obtain ⟨hwgs, hgroup⟩ := (mkCx_onlyLanded h).ofGroup (by rw [Cx.onSpool, hag])
    obtain ⟨-, x, hx, -⟩ := hgroup g0 (hgk ▸ hg0)
    exact ⟨by rw [hx]; rfl, by rw [State.wg?, hwgs]; exact hw⟩

/-! ### The claim -/

/-- A group's claim of iteration k takes its entry of the stage table, where that is free (R312). -/
def takeFree (wid : Nat) (k : Word) (s : State) : State :=
  match s.wg? wid with
  | some w => if w.entryFree k.toNat then s.modEnt wid k.toNat fun _ => ⟨true, k, 0⟩ else s
  | none => s

/-- The next index of a loop goes to a group, whose claim remembers the register and token of its SLNEXT. -/
def claimed (cx : Cx) (o : SLoop) (s : State) : State :=
  takeFree cx.wid o.next ((s.modWg cx.wid fun w => { w with loop := some { o with next := o.next + 1 } }).modGroup cx.gk fun g =>
    { g with claim := some o.next, claimReg := cx.f.d.toNat, claimTok := cx.f.tk.toNat })

theorem claimNext_eq {s : State} {cx : Cx} {o : SLoop} (ho : (s.wg? cx.wid).bind (·.loop) = some o)
    (hg : (s.group? cx.gk).isSome = true) : claimNext s cx.wid cx.gk cx.f = claimed cx o s := by
  obtain ⟨g, hg⟩ := Option.isSome_iff_exists.1 hg
  let s1 := s.modWg cx.wid fun w => { w with loop := some { o with next := o.next + 1 } }
  let s2 := s1.modGroup cx.gk fun g => { g with claim := some o.next, claimReg := cx.f.d.toNat, claimTok := cx.f.tk.toNat }
  have hclaim : (s2.group? cx.gk).bind (·.claim) = some o.next := by
    rw [State.modGroup_group_self, show s1.group? cx.gk = some g from hg]
    rfl
  have hnext : claimNext s cx.wid cx.gk cx.f = takeEntry s2 cx.wid cx.gk := by
    unfold claimNext
    rw [ho]
  rw [hnext, takeEntry, hclaim, claimed, takeFree]
  cases s2.wg? cx.wid <;> rfl

/-- Whether a claim of iteration k has its entry, and the window admits it (R312). -/
def Wg.admits (w : Wg) (k : Word) : Bool := (w.ent k.toNat).v && (w.ent k.toNat).it.toNat == k.toNat && w.windowOpen k.toNat

theorem Wg.windowOpen_iff {w : Wg} {k : Nat} :
    w.windowOpen k = true ↔ ∃ o, w.loop = some o ∧ (k < o.t ∨ w.finished (k - o.t) = true) := by
  unfold Wg.windowOpen
  cases w.loop <;> simp

theorem Wg.admits_iff {w : Wg} {k : Word} : w.admits k = true ↔ (w.ent k.toNat).v = true ∧ (w.ent k.toNat).it = k ∧
    ∃ o, w.loop = some o ∧ (k.toNat < o.t ∨ w.finished (k.toNat - o.t) = true) := by
  rw [Wg.admits, Bool.and_eq_true, Bool.and_eq_true, Wg.windowOpen_iff, beq_iff_eq, BitVec.toNat_inj, and_assoc]

/-- Iteration k goes to a group, whose SLNEXT returns its index (R312). -/
def given (cx : Cx) (k : Word) (s : State) : State :=
  startOp (s.modGroup cx.gk fun g => { g with hold := true, iter := some k, stage := 0, claim := none }) cx .reg [.s cx.f.d.toNat k]

section
variable {s : State} {cx : Cx} {k : Word} {w : Wg} (hw : s.wg? cx.wid = some w)
include hw

theorem slTake_of_admits (h : w.admits k = true) : slTake s cx k.toNat = .done (given cx k s) := by
  simp only [Wg.admits] at h
  simp only [slTake, hw, if_pos h, BitVec.ofNat_toNat, BitVec.setWidth_eq, given]

theorem slTake_of_not_admits (h : ¬ w.admits k = true) : slTake s cx k.toNat = .wait s := by
  simp only [slTake, hw]
  exact if_neg h

end

/-! ### SLNEXT -/

section
variable {s : State} {cx : Cx}

theorem slnextEff_outside (hlp : cx.g.lp = 0) : slnextEff cx s = .trap cx.stagedTrap := if_pos hlp

theorem slnextEff_pending (hlp : cx.g.lp = 2) : slnextEff cx s = .wait (finishIter s cx.ag cx.gk) := by
  simp [slnextEff, hlp]

variable {o : SLoop} (hlp : cx.g.lp = 1) (ho : cx.w.loop = some o)
include hlp ho

theorem slnextEff_over (hc : cx.g.claim = none) (hover : o.n ≤ o.next) :
    slnextEff cx s = .done (startOp (finishIter s cx.ag cx.gk) cx .reg [.s cx.f.d.toNat 0xFFFFFFFF]) := by
  simp [slnextEff, hlp, ho, hc, hover]

theorem slnextEff_claims (hc : cx.g.claim = none) (hmore : o.next < o.n) (hw : s.wg? cx.wid = some cx.w)
    (hg : (s.group? cx.gk).isSome = true) :
    slnextEff cx s = slTake (claimed cx o (finishIter s cx.ag cx.gk)) cx o.next.toNat := by
  have hclaim := claimNext_eq (cx := cx) ((SameLoops.finishIter s cx.ag cx.gk).loop_eq hw ho)
    ((finishIter_group_isSome s cx.ag cx.gk cx.gk).trans hg)
  simp [slnextEff, hlp, ho, hc, BitVec.not_le.2 hmore, hclaim]

theorem slnextEff_claimed {k : Word} (hc : cx.g.claim = some k) :
    slnextEff cx s = slTake (finishIter s cx.ag cx.gk) cx k.toNat := by
  simp [slnextEff, hlp, ho, hc]

end

/-! ### The stage counter and WAITL -/

theorem waitMet_waitl {cx : Cx} {f : Fld} (hi : cx.i = .waitl f) (hh : cx.g.hold = true) (s : State) :
    waitMet s cx = true ↔ cx.g.iter = none ∨ (cx.g.iter.getD 0).toNat = 0 ∨ cx.w.finished ((cx.g.iter.getD 0).toNat - 1) = true ∨
      min (cx.b32 0) 0xFFFF ≤ cx.w.stageOf ((cx.g.iter.getD 0).toNat - 1) := by
  unfold waitMet
  rw [hi]
  cases hit : cx.g.iter with
  | none => simp
  | some i =>
    have h0 : i = 0 ↔ i.toNat = 0 := by rw [← BitVec.toNat_inj]; rfl
    simp only [Option.getD_some, ← h0]
    simp [hh, or_assoc]

section
variable {cx : Cx} {s : State} (hh : cx.g.hold = true)
include hh

theorem waitlEff_of_met (hm : waitMet s cx = true) : waitlEff cx s =
    .done (if cx.g.iter.getD 0 = 0 then s else s.hear cx.me (stageChan s cx.wid (cx.g.iter.map (· - 1)))) := by
  simp [waitlEff, hh, hm]

theorem waitlEff_of_unmet (hm : ¬ waitMet s cx = true) : waitlEff cx s = .wait s := by
  simp [waitlEff, hh, hm]

end

/-! ### The obligation -/

/-- Settles O32: the loop and the claim decide SLNEXT, the held iteration the stage instructions. -/
theorem stagedLoopAdvance : Obligations.StagedLoopAdvance := by
  refine fun f => ⟨⟨?outside, ?pending, fun s cx s1 o h hlp ho hc => ⟨fun hover => ?ended, fun w hmore hw hr => ?takes,
    fun w hmore hw hr => ?waits⟩, fun s ag cx s1 o h hi hlp ho => ⟨fun k w hc hw hr => ?returns, fun hc hover => ?returnsOver⟩⟩,
    ?stadv, ?stadvTrap, ?stjmp, ?stjmpTrap, ?waitl, ?waitlWaits, ?waitlTrap, fun s ag cx s1 h hi hh => ?waitlReturn⟩
  case outside => exact Traps.of_effect (fun _ => rfl) rfl (fun cx s _ _ _ h => slnextEff_outside h) (fun _ _ => rfl) fun _ _ => rfl
  case pending => exact Waits.of_effect (fun _ => rfl) rfl fun cx s _ _ _ h => slnextEff_pending h
  case ended => exact issue_done h (slnextEff_over hlp ho hc hover)
  case takes =>
    obtain ⟨hg, hwg⟩ := mkCx_member (issuable_mkCx h).1 (by rw [hlp]; decide)
    exact issue_done h ((slnextEff_claims hlp ho hc hmore hwg hg).trans (slTake_of_admits hw (Wg.admits_iff.2 hr)))
  case waits =>
    obtain ⟨hg, hwg⟩ := mkCx_member (issuable_mkCx h).1 (by rw [hlp]; decide)
    exact issue_wait h ((slnextEff_claims hlp ho hc hmore hwg hg).trans (slTake_of_not_admits hw (mt Wg.admits_iff.1 hr)))
  case returns => exact resume_done h ((slnextEff_claimed hlp ho hc).trans (slTake_of_admits hw (Wg.admits_iff.2 hr)))
  case returnsOver => exact resume_done h (slnextEff_over hlp ho hc hover)
  case stadv => exact Does.of_effect (fun _ => rfl) rfl fun cx s _ _ _ hh => if_neg (by simp [hh])
  case stadvTrap =>
    exact Traps.of_effect (fun _ => rfl) rfl (fun cx s _ _ _ hh => if_pos (by simp [hh])) (fun _ _ => rfl) fun _ _ => rfl
  case stjmp =>
    refine Does.of_effect (fun _ => rfl) rfl fun cx s _ _ _ ⟨hh, hle⟩ => if_neg ?_
    rintro (hn | hlt)
    · simp [hh] at hn
    · exact absurd hlt (Nat.not_lt.2 hle)
  case stjmpTrap =>
    refine Traps.of_effect (fun _ => rfl) rfl (fun cx s _ _ _ h => if_pos (h.imp_left fun hh => ?_)) (fun _ _ => rfl) fun _ _ => rfl
    simp [hh]
  case waitl => exact Does.of_effect (fun _ => rfl) rfl fun cx s _ _ hi ⟨hh, hp⟩ => waitlEff_of_met hh ((waitMet_waitl hi hh s).2 hp)
  case waitlWaits =>
    exact Waits.of_effect (fun _ => rfl) rfl fun cx s _ _ hi ⟨hh, hp⟩ => waitlEff_of_unmet hh (mt (waitMet_waitl hi hh s).1 hp)
  case waitlTrap =>
    exact Traps.of_effect (fun _ => rfl) rfl (fun cx s _ _ _ hh => if_pos (by simp [hh])) (fun _ _ => rfl) fun _ _ => rfl
  case waitlReturn => exact resume_done h (waitlEff_of_met hh (returnable_met h).2)

end Sys2Proof.Machine
end

section
/-! The state after reset (R363, R365, R377, R392, R413, R428). -/

namespace Sys2Proof.Machine

open Sys2Proof

/-- No queue is listed after a reset, so that each holds the reset values of its registers (R365, R392). -/
theorem reset_queue (q : Nat) : State.reset.queue q = {} := rfl

/-- No port is listed after a reset (R428). -/
theorem reset_port (p : Nat) : State.reset.port p = {} := rfl

theorem reset_memWf : Memory.wf State.reset.mem = true := rfl

/-- Settles O55: the tables of the reset state are empty, so that each register holds the default of its structure. -/
theorem resetState : Obligations.ResetState := by
  refine ⟨rfl, rfl, rfl, rfl, rfl, rfl, rfl, rfl, rfl, rfl, rfl, rfl, rfl, rfl, rfl, rfl, rfl, fun q => ?queues, fun p => ?ports,
    reset_memWf⟩
  case queues =>
    rw [reset_queue]
    exact ⟨rfl, rfl, rfl, rfl, rfl, rfl, rfl, rfl⟩
  case ports =>
    rw [reset_port]
    exact ⟨rfl, rfl, rfl⟩

end Sys2Proof.Machine
end

section
/-! Memory faults at issue (R399 to R401). -/

namespace Sys2Proof.Machine

open Sys2Proof

/-- The trap of a memory fault that names its instruction; a fault of one walk names the die and page that it is shared on (R399, R403). -/
def memoryTrap (cx : Cx) (m : MFault) : Trap :=
  { cause := BitVec.ofNat 16 m.cause, info := infoOf cx.r.op.toNat cx.cl.idx 0, addr := cx.cl.at_, aux := m.aux, atIssue := true
    walk := m.page.map fun p => (cx.w.core / 48, p) }

theorem mtrap_of_immediate (cx : Cx) {m : MFault} (hm : m.immediate) : cx.mtrap m = memoryTrap cx m := by
  obtain ⟨hfar, hlate⟩ := hm
  simp only [Cx.mtrap, Cx.trap, Cx.core, dieOf, hfar, hlate, memoryTrap]

/-- An instruction whose effect is the fault of accesses that do not resolve. -/
theorem issue_unresolved {i : Instr} {s : State} {cx : Cx} {s1 : State} {m : MFault} {body : Cx → State → Eff} {k : AccK}
    {marked : Bool} {al : DWord → Nat → Nat} {rs : List Req} (h : issuable i s = some (cx, s1))
    (hr : resolveAll s1 cx.who k marked al rs = .error m) (hb : body cx s1 = .trap (cx.mtrap m)) :
    issue i s body = .next (trappedAt s1 cx (memoryTrap cx m)) := by
  rw [issue_mtrap h hb (resolveAll_error hr), mtrap_of_immediate cx (resolveAll_error hr)]

theorem storeEff_of_error {s : State} {cx : Cx} {rs : List Req} {m : MFault} (data : Nat → List Byte)
    (hr : resolveAll s cx.who .store cx.marked (alignFor cx.marked) rs = .error m) : storeEff s cx rs data = .trap (cx.mtrap m) := by
  simp only [storeEff, hr]

/-- Settles O18: each of the five instructions resolves its requests before all else, and ends at the fault that this gives. -/
theorem memoryFaultsRaise : Obligations.MemoryFaultsRaise := by
  intro f s cx s1 m size marked a flt
  refine ⟨fun h hact hr => ?ld, fun h hr => ?lds, fun h hr => ?st, fun h hr => ?sts, fun h hr => ?atom⟩
  case ld =>
    obtain ⟨rfl, -, -⟩ := issuable_row (i := .ld f) rfl h
    simp only [size, marked, a, marked_eq, size_eq, uniform_eq, requests_lanes] at hr
    refine issue_unresolved h hr ?_
    simp only [List.isEmpty_iff, List.map_eq_nil_iff, if_neg (lanesIn_ne_nil hact), hr]
  case lds =>
    obtain ⟨rfl, -, -⟩ := issuable_row (i := .lds f) rfl h
    simp only [size, marked, a, marked_eq, size_eq, requests_scalar] at hr
    exact issue_unresolved h hr (by simp only [hr])
  case st =>
    obtain ⟨rfl, -, -⟩ := issuable_row (i := .st f) rfl h
    simp only [size, marked, a, marked_eq, size_eq, uniform_eq, requests_lanes] at hr
    exact issue_unresolved h hr (storeEff_of_error _ hr)
  case sts =>
    obtain ⟨rfl, -, -⟩ := issuable_row (i := .sts f) rfl h
    simp only [size, marked, a, marked_eq, size_eq, requests_scalar] at hr
    exact issue_unresolved h hr (storeEff_of_error _ hr)
  case atom =>
    rw [requests_atom] at hr
    exact issue_unresolved h hr (by simp only [hr])

end Sys2Proof.Machine
end

section
/-! Group swaps and the evaluation of the bridle (R330, R333, R338). -/

namespace Sys2Proof.Machine

open Sys2Proof

/-! ### Swaps -/

section
variable {s : State} {core i : Nat} {o : Option Nat}

theorem exec_groupSwapStart (hswap : (s.core core).swap = none) (hhalt : (s.core core).halted = false)
    (hc : swapChoice s core = some (i, o)) :
    exec (.groupSwapStart core) s = .next (s.setCore core { s.core core with swap := some (i, o, s.clock + 3) }) := by
  simp only [exec, execGroupSwapStart, hswap, hhalt, hc, Option.isSome_none, Bool.or_self, Bool.false_eq_true, if_false]

theorem exec_groupSwapEnd {last : Nat} (hswap : (s.core core).swap = some (i, o, last)) (hlast : last < s.clock) :
    exec (.groupSwapEnd core) s = .next (s.setCore core { s.core core with
      swap := none, active := ((s.core core).active.filter fun k => o != some k) ++ [i] }) := by
  simp only [exec, execGroupSwapEnd, hswap, if_neg (Nat.not_le.2 hlast)]

end

theorem bne_some_eq_decide (o : Option Nat) : (fun k => o != some k) = fun k => decide (o ≠ some k) :=
  funext fun k => by rw [Bool.eq_iff_iff, bne_iff_ne, decide_eq_true_eq]

/-! ### The bridle -/

theorem bridleMark_eq (x : Slice) (wg wc : Nat) : bridleMark x wg wc =
    if x.fix = true ∨ x.marked ≠ none then none
    else if 2 * wg * (x.cores - x.bound) < wc * x.bound ∧ x.minG < x.bound then some (x.core0 + x.bound - 1)
    else if 2 * wc * x.bound < wg * (x.cores - x.bound) ∧ x.minC < x.cores - x.bound then some (x.core0 + x.bound)
    else none := by
  simp only [bridleMark, Bool.or_eq_true, Option.isSome_iff_ne_none, Bool.and_eq_true, decide_eq_true_eq]

theorem exec_bridleEvaluate {s : State} {n : Nat} {x : Slice} (hx : s.slices[n]? = some x) (hdue : x.lastEval + 25000 ≤ s.clock) :
    let m := bridleMark x (waitingOf s n true) (waitingOf s n false)
    exec (.bridleEvaluate n) s = .next (bridleSettle (s.modSlice n fun y =>
      { y with lastEval := s.clock, marked := if m.isSome then m else y.marked })) := by
  simp only [exec, execBridleEvaluate, hx, if_neg (Nat.not_lt.2 hdue)]

/-! ### The obligation -/

/-- Settles O39: a swap starts on a choice and ends after its last cycle; the bridle marks by the figures of the two partitions. -/
theorem swapAndBridleEvents : Obligations.SwapAndBridleEvents := by
  refine fun s => ⟨fun core i o hswap hhalt hc => exec_groupSwapStart hswap hhalt hc, fun core i o last hswap hlast => ?ends,
    fun n x hx hdue => ?bridle⟩
  case ends => rw [exec_groupSwapEnd hswap hlast, bne_some_eq_decide]
  case bridle =>
    intro wg wc c m
    rw [exec_bridleEvaluate hx hdue, bridleMark_eq]

end Sys2Proof.Machine
end

section
/-! Taking a trap: the entry that it leaves, and the writes of entries to the ring (R380, R390, R391, R393, R403). -/

namespace Sys2Proof.Machine

open Sys2Proof

/-! ### The record of a trap -/

/-- The entry that a trap records for an agent (R393). -/
def trapPend (s : State) (ag : Agent) (wid : Nat) (w : Wg) (l : Launch) (mask : Mask) (grp slot split : Nat) (t : Trap) : Pend where
  q := l.q
  serial := 0
  lnch := w.lnch
  lid := l.lid
  trap := t
  joined := [ag]
  entry := entryWords 0 t l.lid w.ix w.core slot grp split mask s.clock
  written := false
  at_ := s.clock
  wg := wid
  slot := if grp = 16 then 64 else slot

section
variable {s : State} {ag : Agent} {wid : Nat} {w : Wg} {l : Launch} {mask : Mask} {grp slot split : Nat} {t : Trap}
  (hl : s.launch? w.lnch = some l) (hk : l.killed = false)
include hl hk

theorem report_joins {i : Nat} (hj : joinable s w.lnch t = some i) : report s ag wid w mask grp slot split t =
    { s with pend := s.pend.modify i fun x => { x with joined := x.joined ++ [ag] } } := by
  simp [report, hl, hk, hj]

theorem report_noRing (hj : joinable s w.lnch t = none) (hr : (s.queue l.q).trLog = 0) :
    report s ag wid w mask grp slot split t = killLaunch (s.logErr 4) w.lnch := by
  simp [report, hl, hk, hj, hr]

theorem report_records (hj : joinable s w.lnch t = none) (hr : (s.queue l.q).trLog ≠ 0) :
    report s ag wid w mask grp slot split t =
      { s with pend := insertPend (trapPend s ag wid w l mask grp slot split t) s.pend } := by
  simp [report, hl, hk, hj, hr, trapPend]

end

theorem raise_group {s : State} {c sl k : Nat} {g : Group} {w : Wg} (hg : s.group? (gKey c sl) = some g) (hw : s.wg? g.wg = some w)
    (t : Trap) : raise s (.group c sl k) t =
      report (setTrapRegs s (.group c sl k) t) (.group c sl k) g.wg w (g.splits.getD k {}).mask g.grp sl k t := by
  simp [raise, agentWg, hg, hw]

/-! ### The place of an entry -/

/-- Whether an entry that stands gives way to a new one: of its cycle, workgroup and queue, of a higher slot, and not written (R391). -/
def Pend.behind (p x : Pend) : Prop := x.at_ = p.at_ ∧ x.wg = p.wg ∧ x.q = p.q ∧ p.slot < x.slot ∧ x.written = false

theorem insertPend_cons_of_behind {p x : Pend} (h : p.behind x) (xs : List Pend) : insertPend p (x :: xs) = p :: x :: xs := by
  obtain ⟨hat, hwg, hq, hslot, hwr⟩ := h
  simp [insertPend, hat, hwg, hq, hslot, hwr]

theorem insertPend_cons_of_not_behind {p x : Pend} (h : ¬ p.behind x) (xs : List Pend) :
    insertPend p (x :: xs) = x :: insertPend p xs := by
  unfold Pend.behind at h
  simp only [insertPend, Bool.not_eq_true', if_neg h]

theorem insertPend_append {p : Pend} {xs : List Pend} (h : ∀ x ∈ xs, ¬ p.behind x) (ys : List Pend) :
    insertPend p (xs ++ ys) = xs ++ insertPend p ys := by
  induction xs with
  | nil => rfl
  | cons x xs ih =>
    obtain ⟨hx, hxs⟩ := List.forall_mem_cons.1 h
    rw [List.cons_append, insertPend_cons_of_not_behind hx, ih hxs, List.cons_append]

theorem mem_insertPend (p : Pend) (xs : List Pend) : p ∈ insertPend p xs := by
  induction xs with
  | nil => exact List.mem_singleton_self p
  | cons x xs ih =>
    by_cases h : p.behind x
    · rw [insertPend_cons_of_behind h]
      exact List.mem_cons_self
    · rw [insertPend_cons_of_not_behind h]
      exact List.mem_cons_of_mem _ ih

/-- An entry that has been recorded for an agent freezes the agent's workgroup (R390). -/
theorem frozen_of_mem {s : State} {p : Pend} {ag : Agent} {wid : Nat} (hp : p ∈ s.pend) (hag : ag ∈ p.joined)
    (hw : agentWg s ag = some wid) : frozen s wid = true :=
  List.any_eq_true.2 ⟨p, hp, List.any_eq_true.2 ⟨ag, hag, by rw [hw]; exact beq_self_eq_true _⟩⟩

theorem setTrapRegs_agentWg {s : State} {c sl k : Nat} {g : Group} (hg : s.group? (gKey c sl) = some g) (t : Trap) :
    agentWg (setTrapRegs s (.group c sl k) t) (.group c sl k) = some g.wg := by
  simp [agentWg, setTrapRegs, hg]

/-! ### Writes to the ring -/

/-- Whether an entry awaits no place in a queue's ring. -/
def Pend.settledFor (qn : Nat) (x : Pend) : Prop := x.q ≠ qn ∨ x.written = true

theorem flushList_of_settled {qn : Nat} {ps : List Pend} (h : ∀ x ∈ ps, x.settledFor qn) (s : State) :
    flushList s qn ps = (ps, s) := by
  induction ps with
  | nil => rfl
  | cons x xs ih =>
    obtain ⟨hx, hxs⟩ := List.forall_mem_cons.1 h
    have hno : ¬ (x.q = qn ∧ (!x.written) = true) := by
      rintro ⟨hq, hw⟩
      rcases hx with hne | hwr
      · exact hne hq
      · simp [hwr] at hw
    simp only [flushList, if_neg hno, ih hxs]

/-- Whether an entry of a queue that waits was recorded in this cycle. -/
def waitsNow (s : State) (qn : Nat) (p : Pend) : Bool := p.q == qn && !p.written && p.at_ == s.clock

theorem waitsNow_of_settled {qn : Nat} {x : Pend} (h : x.settledFor qn) (s : State) : waitsNow s qn x = false := by
  rcases h with hne | hwr
  · simp [waitsNow, hne]
  · simp [waitsNow, hwr]

theorem any_waitsNow_of_settled {qn : Nat} {ps : List Pend} (h : ∀ x ∈ ps, x.settledFor qn) (s : State) :
    ps.any (waitsNow s qn) = false :=
  List.any_eq_false.2 fun x hx => by rw [waitsNow_of_settled (h x hx)]; exact Bool.false_ne_true

section
variable {s : State} {p : Pend} {rest : List Pend} (hpend : s.pend = p :: rest) (hw : p.written = false)
  (hrest : ∀ x ∈ rest, x.settledFor p.q)
include hpend hw hrest

/-- The head entry, which waits, is written; those behind it stay as they are. -/
theorem flushTraps_written (hf : p.failed = false) (hj : p.joined ≠ []) (hring : (s.queue p.q).trLog ≠ 0)
    (hroom : (s.queue p.q).trFull = false) {s1 : State} (he : writeEntry s p.q p.entry = (s1, true)) :
    flushTraps s p.q = { s1 with pend := { p with serial := (s.queue p.q).serial, written := true } :: rest } := by
  have hlist : flushList s p.q s.pend = ({ p with serial := (s.queue p.q).serial, written := true } :: rest, s1) := by
    rw [hpend]
    simp [flushList, hw, hf, hring, hroom, he, hj, flushList_of_settled hrest]
  have hnone : ({ p with serial := (s.queue p.q).serial, written := true } :: rest).any (waitsNow s1 p.q) = false :=
    any_waitsNow_of_settled (List.forall_mem_cons.2 ⟨.inr rfl, hrest⟩) s1
  unfold waitsNow at hnone
  simp only [flushTraps, hlist, hnone, Bool.and_false, Bool.false_eq_true, if_false]

/-- A full ring leaves the head entry waiting. -/
theorem flushTraps_full (hfull : (s.queue p.q).trFull = true) :
    flushTraps s p.q = if p.at_ = s.clock then s.logErr 2 else s := by
  have hlist : flushList s p.q s.pend = (p :: rest, s) := by
    rw [hpend]
    simp [flushList, hw, hfull]
  have hsame : { s with pend := p :: rest } = s := by rw [← hpend]
  have hany : (p :: rest).any (waitsNow s p.q) = decide (p.at_ = s.clock) := by
    rw [List.any_cons, any_waitsNow_of_settled hrest, Bool.or_false]
    simp [waitsNow, hw, Bool.beq_eq_decide_eq]
  unfold waitsNow at hany
  simp only [flushTraps, hlist, hsame, hany, hfull, Bool.true_and, decide_eq_true_eq]

end

theorem writeEntry_of_ringAt {s : State} {qn key : Nat} {ws : List Word} (h : ringAt s qn (s.queue qn).trLoc
      ((s.queue qn).trBase + (s.queue qn).trTail.toNat % 2 ^ (s.queue qn).trLog * 64) = some key) :
    let x := s.queue qn
    let s1 := s.writeBytes (((x.serial :: ws.tail).flatMap bytesOfWord).zipIdx.map fun bi => (key + bi.2, bi.1))
    let s2 := s1.setQueue qn { x with trTail := x.trTail + 1, serial := if x.serial + 1 = 0 then 1 else x.serial + 1 }
    writeEntry s qn ws = (if x.trIrq then s2.raiseVector qn else s2, true) := by
  simp only [writeEntry, h, nextSerial]

/-! ### The obligation -/

/-- Settles O36: a trap is recorded by what the launch and its queue are, an entry finds its place by slot, and a place of the ring by
whether one is free. -/
theorem trapEntry : Obligations.TrapEntry := by
  refine ⟨fun s c sl k g w l t hg hw hl hk => ?raises, fun p xs ys => ?place, fun s p rest hpend hwr hf hj hrest => ?flushes⟩
  case raises =>
    intro ag s1 p
    have hraise := raise_group (k := k) hg hw t
    have hl1 : s1.launch? w.lnch = some l := hl
    refine ⟨fun i hi => ?_, fun hn hq => ?_, fun hn hq => ?_⟩
    · exact hraise.trans (report_joins hl1 hk hi)
    · exact hraise.trans (report_noRing hl1 hk hn hq)
    · have hrec : raise s ag t = { s1 with pend := insertPend p s.pend } := hraise.trans (report_records hl1 hk hn hq)
      have hagent : agentWg s1 ag = some g.wg := setTrapRegs_agentWg hg t
      refine ⟨hrec, ?_⟩
      rw [hrec]
      exact frozen_of_mem (mem_insertPend p s.pend) (List.mem_singleton_self ag) hagent
  case place =>
    intro before hxs
    refine ⟨?_, fun x hx => ?_⟩
    · simpa only [List.append_nil, insertPend] using insertPend_append hxs []
    · rw [insertPend_append hxs, insertPend_cons_of_behind hx]
  case flushes =>
    exact fun hring => ⟨fun key hroom hkey => flushTraps_written hpend hwr hrest hf hj hring hroom (writeEntry_of_ringAt hkey),
      fun hfull => flushTraps_full hpend hwr hrest hfull⟩

end Sys2Proof.Machine
end

section
/-! Acting on a pending trap, and the trap registers (R392, R394, R395, R397, R410, R412). -/

namespace Sys2Proof.Machine

open Sys2Proof

/-! ### TRACT -/

section
variable {s : State} {q : Nat} {serial : Word}

theorem pendOf_eq_none (h : ∀ p ∈ s.pend, ¬ (p.q = q ∧ p.written = true ∧ p.serial = serial)) : pendOf s q serial = none := by
  refine List.find?_eq_none.2 fun p hp hm => h p hp ?_
  simpa [and_assoc] using hm

variable (act : Trap → State → Agent → State)

/-- What skip and retry leave: the entry is gone, each of its agents has been acted on, and those that nothing else stops go on (R394). -/
def acted (s : State) (q : Nat) (serial : Word) (act : Trap → State → Agent → State) (p : Pend) : State :=
  p.joined.foldl unfreeze (p.joined.foldl (act p.trap)
    { s with pend := s.pend.filter fun x => !(x.q == q && x.written && x.serial == serial) })

theorem actOn_none (h : pendOf s q serial = none) : actOn s q serial act = s := by
  simp [actOn, h]

variable {p : Pend} (h : pendOf s q serial = some p)
include h

theorem actOn_kill (hc : p.trap.cause = 0x4F) : actOn s q serial act = killLaunch s p.lnch := by
  simp [actOn, h, hc]

theorem actOn_acted (hc : p.trap.cause ≠ 0x4F) : actOn s q serial act = acted s q serial act p := by
  simp only [actOn, h, if_neg hc, acted]

end

theorem exec_tractKill_none {s : State} {q : Nat} {serial : Word} (h : pendOf s q serial = none) :
    exec (.tractKill q serial) s = .next s := by
  simp only [exec, execTractKill, h]

theorem exec_tractKill_some {s : State} {q : Nat} {serial : Word} {p : Pend} (h : pendOf s q serial = some p) :
    exec (.tractKill q serial) s = .next (killLaunch s p.lnch) := by
  simp only [exec, execTractKill, h]

/-! ### TRBASE -/

theorem exec_trbaseWrite_ignored {s : State} {q : Nat} (h : (s.queue q).en = true) (v : DWord) :
    exec (.trbaseWrite q v) s = .next s := by
  simp only [exec, execTrbaseWrite, h, if_true]

theorem exec_trbaseWrite {s : State} {q : Nat} (h : (s.queue q).en = false) (v : DWord) :
    exec (.trbaseWrite q v) s = .next { s.setQueue q
      { s.queue q with trLoc := v.toNat % 4, trBase := v.toNat / 4096 * 4096 } with
      pend := s.pend.map fun p => if p.q = q then { p with failed := false } else p } := by
  have hloc : bits v.toNat 0 2 = v.toNat % 4 := bits_zero _ _
  have hbase : bits v.toNat 12 52 * 4096 = v.toNat / 4096 * 4096 := bits_from_twelve v
  simp only [exec, execTrbaseWrite, h, hloc, hbase, Bool.false_eq_true, if_false]

/-! ### The obligation -/

/-- Settles O37: whether an entry pends with the serial, and whether its cause is a register error, decides what TRACT does. -/
theorem trapActions : Obligations.TrapActions := by
  refine fun s q serial => ⟨fun hno => ?none, fun p hp => ⟨exec_tractKill_some hp, fun hc => ?acts, fun hc => ?kills⟩, fun lid => rfl,
    fun v => rfl, fun v hen => exec_trbaseWrite_ignored hen v, fun v hen => exec_trbaseWrite hen v⟩
  case none =>
    have hnone := pendOf_eq_none hno
    exact ⟨congrArg Host.Outcome.next (actOn_none _ hnone), congrArg Host.Outcome.next (actOn_none _ hnone), exec_tractKill_none hnone⟩
  case acts => exact ⟨congrArg Host.Outcome.next (actOn_acted _ hp hc), congrArg Host.Outcome.next (actOn_acted _ hp hc)⟩
  case kills => exact ⟨congrArg Host.Outcome.next (actOn_kill _ hp hc), congrArg Host.Outcome.next (actOn_kill _ hp hc)⟩

end Sys2Proof.Machine
end

section
/-! The start of the module: reset, boot, training, restart and thermal stop (R377, R378, R429). -/

namespace Sys2Proof.Machine

open Sys2Proof

variable {s : State}

/-! ### Step 1 of a start -/

theorem bootFrom_ballast (hf : s.failCnt = 3) (hc : s.skipCheck = false) : bootFrom s = { s with bootState := 5 } := by
  simp [bootFrom, hf, hc]

theorem bootFrom_rom (h : s.failCnt ≠ 3 ∨ s.skipCheck = true) :
    bootFrom s = { s with failCnt := min 3 (s.failCnt + 1), skipCheck := false, bootState := 1 } := by
  refine if_neg fun ⟨hf, hc⟩ => ?_
  rcases h with hne | hskip
  · exact hne hf
  · simp [hskip] at hc

/-- What a reset leaves holds nothing that runs, and no record of an error, whatever step 1 comes to. -/
theorem bootFrom_cleared_idle (s : State) : let t := bootFrom (cleared s)
    t.queues = [] ∧ t.launches = [] ∧ t.wgs = [] ∧ t.groups = [] ∧ t.ops = [] ∧ t.pend = [] ∧ t.clock = 0 ∧ t.irqStat = 0 ∧
      t.errLog = 0 := by
  unfold bootFrom
  split
  · exact ⟨rfl, rfl, rfl, rfl, rfl, rfl, rfl, rfl, rfl⟩
  · exact ⟨rfl, rfl, rfl, rfl, rfl, rfl, rfl, rfl, rfl⟩

/-- Three failed starts lead to ballast mode, unless the start is made from there (R378). -/
theorem startModule_ballast (hf : s.failCnt = 3) (hb : s.bootState ≠ 5) :
    (startModule s).bootState = 5 ∧ (startModule s).failCnt = 3 := by
  have hskip : (cleared { s with skipCheck := s.bootState == 5 }).skipCheck = false := beq_false_of_ne hb
  rw [startModule, bootFrom_ballast (s := cleared { s with skipCheck := s.bootState == 5 }) hf hskip]
  exact ⟨rfl, hf⟩

theorem startModule_rom (h : s.failCnt ≠ 3 ∨ s.bootState = 5) :
    (startModule s).bootState = 1 ∧ (startModule s).failCnt = min 3 (s.failCnt + 1) := by
  have hgo : (cleared { s with skipCheck := s.bootState == 5 }).failCnt ≠ 3 ∨
      (cleared { s with skipCheck := s.bootState == 5 }).skipCheck = true := h.imp_right beq_iff_eq.2
  rw [startModule, bootFrom_rom hgo]
  exact ⟨rfl, rfl⟩

/-! ### The time of a start -/

/-- A start has run out of time, in cycles that the clock counts at its full rate. -/
def State.startLate (s : State) : Bool := !s.clockLow && decide (75000000000 ≤ s.clock)

theorem startLate_iff : s.startLate = true ↔ s.clockLow = false ∧ 75000000000 ≤ s.clock := by
  simp [State.startLate]

theorem not_startLate (h : s.clockLow = true ∨ s.clock < 75000000000) : ¬ s.startLate = true := by
  rw [startLate_iff]
  rintro ⟨hlow, hlate⟩
  rcases h with h | h
  · exact Bool.false_ne_true (hlow.symm.trans h)
  · omega

theorem bootTick_eq (s : State) : bootTick s =
    if (s.bootState = 1 ∨ s.bootState = 2 ∨ s.bootState = 3) ∧ s.startLate = true then failStart s 0x0B
    else if s.bootState = 1 ∨ s.bootState = 2 then if Config.freeNat s.freeCtr % 2 = 1 then bootAdvance s.free.2 else s.free.2
    else s := by
  simp [bootTick, State.startLate, startLimit]

theorem bootTick_late (hl : s.startLate = true) (hb : s.bootState = 1 ∨ s.bootState = 2 ∨ s.bootState = 3) :
    bootTick s = failStart s 0x0B := by
  rw [bootTick_eq, if_pos ⟨hb, hl⟩]

theorem bootTick_running (hl : ¬ s.startLate = true) (hb : s.bootState = 1 ∨ s.bootState = 2) :
    bootTick s = s.free.2 ∨ bootTick s = bootAdvance s.free.2 := by
  rw [bootTick_eq, if_neg fun h => hl h.2, if_pos hb]
  split
  · exact .inr rfl
  · exact .inl rfl

theorem bootTick_idle (h1 : s.bootState ≠ 1) (h2 : s.bootState ≠ 2) (h3 : s.startLate = true → s.bootState ≠ 3) : bootTick s = s := by
  rw [bootTick_eq, if_neg fun h => h.1.elim h1 (Or.elim · h2 (h3 h.2)), if_neg (Or.elim · h1 h2)]

theorem exec_startTimeout (hb : s.bootState = 1 ∨ s.bootState = 2 ∨ s.bootState = 3)
    (hl : s.clockLow = true ∨ 75000000000 ≤ s.clock) : exec .startTimeout s = .next (failStart s 0x0B) :=
  if_pos ⟨by simpa using hb, hl⟩

/-! ### ROM and firmware -/

section
variable {r : BitVec 8} (hr : Config.bootCheck (flashBytes s) = .fails r)
include hr

/-- The ROM finds the image unsound (reasons 1 to 3). -/
theorem bootAdvance_imageFails (hb : s.bootState = 1) (hle : r.toNat ≤ 3) : bootAdvance s = failStart s r := by
  simp [bootAdvance, hb, hr, hle]

/-- A fault of the record is no matter of the ROM's. -/
theorem bootAdvance_romPasses (hb : s.bootState = 1) (hgt : 3 < r.toNat) : bootAdvance s = { s with bootState := 2 } := by
  simp [bootAdvance, hb, hr, Nat.not_le.2 hgt]

theorem bootAdvance_firmwareFails (hb : s.bootState = 2) : bootAdvance s = failStart s r := by
  simp [bootAdvance, hb, hr]

end

theorem bootAdvance_passes {r : ConfigRecord} (hr : Config.bootCheck (flashBytes s) = .passes r)
    (hb : s.bootState = 1 ∨ s.bootState = 2) : bootAdvance s = { s with bootState := s.bootState + 1 } := by
  rcases hb with hb | hb
  · simp [bootAdvance, hb, hr]
  · simp [bootAdvance, hb, hr]

/-! ### Training -/

theorem exec_trainingComplete_eq (hb : s.bootState = 3) (hl : ¬ s.startLate = true) (v : BitVec 8) : exec (.trainingComplete v) s =
    if v = 0 then match Config.bootCheck (flashBytes s) with
      | .passes r => .next (trained s r)
      | .fails _ => notNow "TRAINING_COMPLETE"
    else if 7 ≤ v.toNat ∧ v.toNat ≤ 10 then .next (failStart s v)
    else notNow "TRAINING_COMPLETE" := by
  refine if_neg ?_
  rintro (hne | ⟨hlow, hlate⟩)
  · exact hne hb
  · exact hl (startLate_iff.2 ⟨by simpa using hlow, hlate⟩)

theorem exec_trainingComplete_success (hb : s.bootState = 3) (hl : ¬ s.startLate = true) {r : ConfigRecord}
    (hr : Config.bootCheck (flashBytes s) = .passes r) : exec (.trainingComplete 0) s = .next (trained s r) := by
  rw [exec_trainingComplete_eq hb hl, if_pos rfl, hr]

theorem exec_trainingComplete_failure (hb : s.bootState = 3) (hl : ¬ s.startLate = true) {v : BitVec 8} (h7 : 7 ≤ v.toNat)
    (h10 : v.toNat ≤ 10) : exec (.trainingComplete v) s = .next (failStart s v) := by
  have hv : v ≠ 0 := by
    rintro rfl
    exact absurd h7 (by decide)
  rw [exec_trainingComplete_eq hb hl, if_neg hv, if_pos ⟨h7, h10⟩]

/-! ### The thermal stop -/

/-- A thermal stop leaves a module in state 0 that reads at least 110 degrees. -/
theorem thermalTrip_leaves (s : State) : ∃ t : State, exec .thermalTrip s = .next t ∧ t.bootState = 0 ∧ t.bootReason = 0x0C ∧
    110 ≤ t.temp.toNat ∧ t.launches = [] := by
  refine ⟨_, rfl, rfl, rfl, ?_, rfl⟩
  change 110 ≤ (if s.temp.toNat < 110 then 110 else s.temp).toNat
  split
  · decide
  · omega

/-! ### The obligation -/

/-- Settles O46: the state of the start, its time and the checks of flash decide each event. -/
theorem startResults : Obligations.StartResults := by
  refine fun s => ⟨?reset, rfl, fun v hv => if_neg hv, fun hin hb => bootTick_running (not_startLate hin) hb,
    fun hin h1 h2 => bootTick_idle h1 h2 fun hl => absurd hl (not_startLate hin),
    fun hlow hlate => ⟨fun hb => bootTick_late (startLate_iff.2 ⟨hlow, hlate⟩) hb, fun h1 h2 h3 => bootTick_idle h1 h2 fun _ => h3⟩,
    fun r hr => ⟨fun hb hle => bootAdvance_imageFails hr hb hle, fun hb hgt => bootAdvance_romPasses hr hb hgt,
      fun hb => bootAdvance_firmwareFails hr hb⟩,
    fun r hr hb => bootAdvance_passes hr hb, fun hb hl => exec_startTimeout hb hl,
    fun r hb hin hr => ⟨exec_trainingComplete_success hb (not_startLate hin) hr, rfl, rfl, rfl, rfl, rfl⟩,
    fun r hb hin h7 h10 => exec_trainingComplete_failure hb (not_startLate hin) h7 h10, thermalTrip_leaves s⟩
  case reset =>
    obtain ⟨hq, hl, hw, hg, ho, hp, hc, hi, he⟩ := bootFrom_cleared_idle { s with skipCheck := s.bootState == 5 }
    exact ⟨startModule s, rfl, hq, hl, hw, hg, ho, hp, hc, hi, he, startModule_ballast, startModule_rom⟩

end Sys2Proof.Machine
end

section
/-! Correctable and uncorrectable errors of storage arrays (R411 to R413). -/

namespace Sys2Proof.Machine

open Sys2Proof

variable {s : State} {k : Nat}

/-! ### Units and words that an error strikes -/

theorem poisoned_eq_false_iff : s.poisoned k = false ↔ unitOf k ∉ s.poison ∧ k / 8 * 8 ∉ s.l2poison := by
  simp [State.poisoned]

theorem flawUnit_eq (hp : s.poisoned k = false) (hf : unitOf k ∉ s.flaws) :
    flawUnit s k = { s with flaws := s.flaws ++ [unitOf k] } := by
  simp [flawUnit, hp, hf]

theorem flawWord_eq (hp : s.poisoned k = false) (hf : k / 8 * 8 ∉ s.l2flaws) :
    flawWord s k = { s with l2flaws := s.l2flaws ++ [k / 8 * 8] } := by
  simp [flawWord, hp, hf]

theorem poisonUnit_eq (hp : s.poisoned k = false) : poisonUnit s k =
    ({ s with poison := s.poison ++ [unitOf k], flaws := s.flaws.filter (· != unitOf k) } : State).foundUe (poisonAux (unitOf k)) false := by
  simp [poisonUnit, hp]

theorem poisonWord_eq (hp : s.poisoned k = false) : poisonWord s k =
    ({ s with l2poison := s.l2poison ++ [k / 8 * 8], l2flaws := s.l2flaws.filter (· != k / 8 * 8) } : State).foundUe (l2Place s k) false := by
  simp [poisonWord, hp]

/-- An error of an SRAM word strikes a word of L2 in the memories that L2 holds, a word of its own elsewhere. -/
theorem exec_sramWord_l2 (hk : keyCode k < 4) (worse : Bool) :
    exec (.softError (.sramWord k worse)) s = .next (if worse then poisonWord s k else flawWord s k) := by
  simp only [exec, execSoftError, if_pos hk]

theorem exec_sramWord_own (hk : 4 ≤ keyCode k) (worse : Bool) :
    exec (.softError (.sramWord k worse)) s = .next (if worse then poisonUnit s k else flawUnit s k) := by
  simp only [exec, execSoftError, if_neg (Nat.not_lt.2 hk)]

/-! ### The scrubber -/

theorem corrected_eq (ht : s.ceThr = 0) (hc : s.ceCnt ≠ 0xFFFFFFFF) : s.corrected = { s with ceCnt := s.ceCnt + 1 } := by
  simp only [State.corrected, ht, if_neg hc, bne_self_eq_false, Bool.false_and, Bool.false_eq_true, if_false]

theorem correctAt_clean (hf : unitOf k ∉ s.flaws) (hl : k / 8 * 8 ∉ s.l2flaws) : correctAt s k = s := by
  simp only [correctAt, if_neg hf, if_neg hl]

section
variable (ht : s.ceThr = 0) (hc : s.ceCnt ≠ 0xFFFFFFFF)
include ht hc

theorem correctAt_unit (hf : unitOf k ∈ s.flaws) (hl : k / 8 * 8 ∉ s.l2flaws) :
    correctAt s k = { s with flaws := s.flaws.filter (· != unitOf k), ceCnt := s.ceCnt + 1 } := by
  have hone : ({ s with flaws := s.flaws.filter (· != unitOf k) } : State).corrected =
      { s with flaws := s.flaws.filter (· != unitOf k), ceCnt := s.ceCnt + 1 } := corrected_eq ht hc
  simp only [correctAt, if_pos hf, hone, if_neg hl]

theorem correctAt_word (hf : unitOf k ∉ s.flaws) (hl : k / 8 * 8 ∈ s.l2flaws) :
    correctAt s k = { s with l2flaws := s.l2flaws.filter (· != k / 8 * 8), ceCnt := s.ceCnt + 1 } := by
  have hone : ({ s with l2flaws := s.l2flaws.filter (· != k / 8 * 8) } : State).corrected =
      { s with l2flaws := s.l2flaws.filter (· != k / 8 * 8), ceCnt := s.ceCnt + 1 } := corrected_eq ht hc
  simp only [correctAt, if_neg hf, if_pos hl, hone]

end

theorem exec_scrubPatrol_sound (hp : s.poisoned k = false) : exec (.scrubPatrol k) s = .next (correctAt s k) := by
  have hword := (poisoned_eq_false_iff.1 hp).2
  simp only [exec, execScrubPatrol, if_neg hword, hp, Bool.false_eq_true, if_false]

theorem exec_scrubPatrol_word (hw : k / 8 * 8 ∈ s.l2poison) :
    exec (.scrubPatrol k) s = .next ((correctAt s k).foundUe (l2Place s k) true) := by
  simp only [exec, execScrubPatrol, if_pos hw]

theorem exec_scrubPatrol_unit (hw : k / 8 * 8 ∉ s.l2poison) (hp : s.poisoned k = true) :
    exec (.scrubPatrol k) s = .next ((correctAt s k).foundUe (poisonAux (unitOf k)) true) := by
  simp only [exec, execScrubPatrol, if_neg hw, hp, if_true]

/-! ### The obligation -/

/-- Settles O49: the array that an error strikes, and whether it is correctable, decide what it leaves; the scrubber corrects first, and
then logs the poison that it finds. -/
theorem softErrorResults : Obligations.SoftErrorResults := by
  intro s k poisons word l2
  refine ⟨fun hp hf => ⟨?dram, fun hk => ?sram, fun hl => ?clean⟩, fun hp hk hl => ?word, fun hp => ?dramPoison,
    fun hp hk => ?sramPoison, fun hp hk => ?wordPoison,
    fun hp ht hc => ⟨fun hf hl => ?scrubUnit, fun hf hl => ?scrubWord⟩, fun hf hl => ⟨fun hw => ?foundWord, fun hw hp => ?foundUnit⟩,
    fun core slot r lane => ⟨rfl, rfl⟩, fun core tile row => ⟨rfl, rfl⟩, fun core => rfl, fun die dirty => ⟨rfl, rfl⟩⟩
  case dram => exact congrArg Host.Outcome.next (flawUnit_eq hp hf)
  case sram => exact (exec_sramWord_own hk false).trans (congrArg Host.Outcome.next (flawUnit_eq hp hf))
  case clean => rw [exec_scrubPatrol_sound hp, correctAt_clean hf hl]
  case word => exact (exec_sramWord_l2 hk false).trans (congrArg Host.Outcome.next (flawWord_eq hp hl))
  case dramPoison => exact congrArg Host.Outcome.next (poisonUnit_eq hp)
  case sramPoison => exact (exec_sramWord_own hk true).trans (congrArg Host.Outcome.next (poisonUnit_eq hp))
  case wordPoison => exact (exec_sramWord_l2 hk true).trans (congrArg Host.Outcome.next (poisonWord_eq hp))
  case scrubUnit => rw [exec_scrubPatrol_sound hp, correctAt_unit ht hc hf hl]
  case scrubWord => rw [exec_scrubPatrol_sound hp, correctAt_word ht hc hf hl]
  case foundWord =>
    rw [exec_scrubPatrol_word hw, correctAt_clean hf hl]
    rfl
  case foundUnit => rw [exec_scrubPatrol_unit hw hp, correctAt_clean hf hl]

end Sys2Proof.Machine
end

section
/-! The command at the head of a queue: when its event serves it, and what a refusal or a read of peer modules comes to (R366, R373,
R415, R438). -/

namespace Sys2Proof.Machine

open Sys2Proof

/-- A sound command whose reads of peer modules, if any, have come is served by the event of its OP. -/
theorem serveCmd_eq {s : State} {q op : Nat} {c : CmdIn} (h : headCommand s q = .good c) (hwait : devWaits s q = false)
    (hfault : devFault s q = none) (hop : c.op = op) (name : String) (body : CmdIn → State → State) :
    serveCmd name op q s body = .next (body c s) := by
  simp [serveCmd, h, hop, hwait, hfault]

theorem refuse_eq (s : State) (q n : Nat) (ns : Bool) (e : Refused) :
    refuse s q n ns e = if e.2.far = [] then rejectCmd s q n e.1 else askDev s q ns e.2.far := by
  simp only [refuse, List.isEmpty_iff]

theorem bit_zero (x : Nat) : bit x 0 = decide (x % 2 = 1) := by
  rw [bit, Nat.pow_zero, Nat.div_one]

end Sys2Proof.Machine
end

section
/-! INVAL, COMM, BRIDLE and REGION, and the end of an INVAL (R338, R368, R376). -/

namespace Sys2Proof.Machine

open Sys2Proof

section
variable {s : State} {q : Nat} {c : CmdIn} (h : headCommand s q = .good c) (hwait : devWaits s q = false) (hfault : devFault s q = none)
include h hwait hfault

theorem exec_inval (hop : c.op = 0x10) (hz : c.f 0x1A 6 = 0) :
    exec (.inval q) s = .next (startCmd s c (.inval (c.f 0x18 2) (c.f 0x20 8) (c.f 0x28 8)) false) := by
  simp only [exec, execInval, serveCmd_eq h hwait hfault hop, hz, ne_eq, not_true_eq_false, if_false]

theorem exec_comm (hop : c.op = 0x13) (hz : c.f 0x1A 6 = 0) (h1 : 1 ≤ c.f 0x20 8) (h2 : c.f 0x20 8 ≤ 4096) {bs : List Byte} {s1 : State}
    (hr : readPlain s (whoCmd s q c.ctx) .load (BitVec.ofNat 64 (c.f 0x28 8)) (4 * c.f 0x20 8) 4 = .ok (bs, s1)) :
    let ws := (List.range (c.f 0x20 8)).map fun r => fieldAt bs (4 * r) 4
    (∀ w ∈ ws, w / 2 ^ 11 % 2 ^ 21 = 0) → exec (.comm q) s = .next (startCmd
      { s1 with comms := Tab.put s1.comms (c.f 0x18 2) (ws.map fun w => (w % 256, w / 256 % 8)) } c .plain true) := by
  intro ws hws
  have hfields : ¬ (c.f 0x1A 6 ≠ 0 ∨ c.f 0x20 8 = 0 ∨ 4096 < c.f 0x20 8) := by omega
  have hsound : ¬ ws.any (fun w => bits w 11 21 != 0) = true := by simpa [bits] using hws
  simp only [ws] at hsound
  simp only [exec, execComm, serveCmd_eq h hwait hfault hop, if_neg hfields, hr, if_neg hsound, bits_zero]
  rfl

theorem exec_bridle (hop : c.op = 0x14) (hslice : c.f 0x18 8 < s.slices.length)
    (hmin : c.f 0x20 8 + c.f 0x28 8 ≤ (s.slice (c.f 0x18 8)).cores) (hfix : c.f 0x30 8 ≤ 1)
    (hbound : c.f 0x30 8 = 1 → c.f 0x38 8 ≤ (s.slice (c.f 0x18 8)).cores) : exec (.bridle q) s =
      .next (startCmd (bridleSettle (s.modSlice (c.f 0x18 8) fun x =>
        { x with minG := c.f 0x20 8, minC := c.f 0x28 8, fix := decide (c.f 0x30 8 = 1), target := c.f 0x38 8 })) c .plain true) := by
  have hfields : ¬ (s.slices.length ≤ c.f 0x18 8 ∨ (s.slice (c.f 0x18 8)).cores < c.f 0x20 8 + c.f 0x28 8 ∨ 1 < c.f 0x30 8 ∨
      (c.f 0x30 8 = 1 ∧ (s.slice (c.f 0x18 8)).cores < c.f 0x38 8)) := by omega
  simp only [exec, execBridle, serveCmd_eq h hwait hfault hop, if_neg hfields, Bool.beq_eq_decide_eq]

theorem exec_region_denied (hop : c.op = 0x15) (hright : s.regionRight = false ∨ c.ctx.ns = true) :
    exec (.region q) s = .next (rejectCmd s q c.n 4) := by
  have hdenied : (!s.regionRight || c.ctx.ns) = true := by simpa using hright
  simp only [exec, execRegion, serveCmd_eq h hwait hfault hop, hdenied, if_true]

theorem exec_region (hop : c.op = 0x15) (hright : s.regionRight = true) (hns : c.ctx.ns = false) (hn : c.f 0x18 8 < 64)
    (ha : c.f 0x20 8 / 16 % 2 ^ 12 = 0) (ha' : c.f 0x20 8 < 2 ^ 48) (hb : c.f 0x28 8 % 2 ^ 16 = 0) (hb' : c.f 0x28 8 < 2 ^ 48)
    (ht : c.f 0x20 8 / 4 % 4 ≠ 3) :
    let e : Region := { v := decide (c.f 0x20 8 % 2 = 1), sec := decide (c.f 0x20 8 / 2 % 2 = 1), tier := c.f 0x20 8 / 4 % 4
                        base := c.f 0x20 8 / 2 ^ 16, limit := c.f 0x28 8 / 2 ^ 16 }
    exec (.region q) s = .next (startCmd { s with regionTab := Tab.put s.regionTab (c.f 0x18 8) e } c .region false) := by
  intro e
  have hallowed : ¬ (!s.regionRight || c.ctx.ns) = true := by simp [hright, hns]
  have hfields : ¬ (64 ≤ c.f 0x18 8 ∨ bits (c.f 0x20 8) 4 12 ≠ 0 ∨ bits (c.f 0x20 8) 48 16 ≠ 0 ∨ bits (c.f 0x28 8) 0 16 ≠ 0 ∨
      bits (c.f 0x28 8) 48 16 ≠ 0 ∨ bits (c.f 0x20 8) 2 2 = 3) := by
    simp only [bits]
    omega
  have he : ({ v := bit (c.f 0x20 8) 0, sec := bit (c.f 0x20 8) 1, tier := bits (c.f 0x20 8) 2 2, base := bits (c.f 0x20 8) 16 32
               limit := bits (c.f 0x28 8) 16 32 } : Region) = e := by
    have hbase : bits (c.f 0x20 8) 16 32 = c.f 0x20 8 / 2 ^ 16 := by simp only [bits]; omega
    have hlimit : bits (c.f 0x28 8) 16 32 = c.f 0x28 8 / 2 ^ 16 := by simp only [bits]; omega
    rw [hbase, hlimit, bit_zero]
    rfl
  simp only [exec, execRegion, serveCmd_eq h hwait hfault hop, if_neg hallowed, if_neg hfields, he]

end

theorem exec_invalComplete {s : State} {id asid base size : Nat} {c : Cmd} (hc : Tab.find? s.cmds id = some c)
    (hk : c.k = .inval asid base size) (hready : c.ready = false) (hlate : noLate s (fun l => l.ctx.asid == asid) = true) :
    exec (.invalComplete id) s =
      .next (({ s with tlbs := s.tlbs.filter fun e => !invalHits asid base size e } : State).cmdReady id) := by
  simp only [exec, execInvalComplete, hc, hk, hready, hlate, Bool.not_true, Bool.or_self, Bool.false_eq_true, if_false]

/-- Settles O44: the fields of each command keep their limits, so that it starts with its effect. -/
theorem systemCommandResults : Obligations.SystemCommandResults := by
  refine fun s q => ⟨fun c h hwait hfault => ⟨fun hop hz => exec_inval h hwait hfault hop hz,
    fun bs s1 hop hz h1 h2 hr => exec_comm h hwait hfault hop hz h1 h2 hr,
    fun hop hslice hmin hfix hbound => exec_bridle h hwait hfault hop hslice hmin hfix hbound,
    fun hop hright => exec_region_denied h hwait hfault hop hright,
    fun hop hright hns hn ha ha' hb hb' ht => exec_region h hwait hfault hop hright hns hn ha ha' hb hb' ht⟩,
    fun id c asid base size hc hk hready hlate => exec_invalComplete hc hk hready hlate⟩

end Sys2Proof.Machine
end

section
/-! FRAME, PREEMPT and RESUME, and the end of the encoder (R339, R345, R375, R376). -/

namespace Sys2Proof.Machine

open Sys2Proof

/-! ### What a start and a halt keep -/

theorem startCmd_saves (s : State) (c : CmdIn) (k : CmdK) (ready : Bool) : (startCmd s c k ready).saves = s.saves := by
  unfold startCmd
  split
  · exact (congrArg State.saves (post_orderOnly s (.queue c.q) (s.gathered (.fin c.q))) :)
  · rfl

theorem startCmd_cores (s : State) (c : CmdIn) (k : CmdK) (ready : Bool) : (startCmd s c k ready).cores = s.cores := by
  unfold startCmd
  split
  · exact (congrArg State.cores (post_orderOnly s (.queue c.q) (s.gathered (.fin c.q))) :)
  · rfl

/-- The RESUME commands that a pre-emption ends are marked, and nothing else of the state that a command starts from is moved. -/
theorem haltResumes_frame (s : State) : { haltResumes s with cmds := s.cmds, saves := s.saves } = s := by
  have hfold (xs : List (Nat × Save)) (t : State) : { xs.foldl (fun (s : State) sv => match sv.2.resuming with
      | some c => s.cmdReady c
      | none => s) t with cmds := s.cmds, saves := s.saves } = { t with cmds := s.cmds, saves := s.saves } := by
    induction xs generalizing t with
    | nil => rfl
    | cons x xs ih =>
      rw [List.foldl_cons, ih]
      split <;> rfl
  exact hfold s.saves s

theorem haltResumes_nextId (s : State) : (haltResumes s).nextId = s.nextId := (congrArg State.nextId (haltResumes_frame s) :)
theorem haltResumes_cores (s : State) : (haltResumes s).cores = s.cores := (congrArg State.cores (haltResumes_frame s) :)

theorem haltCores_saves (s : State) (cores : List Nat) (h : Bool) : (haltCores s cores h).saves = s.saves := by
  unfold haltCores
  induction cores generalizing s with
  | nil => rfl
  | cons c cs ih => exact ih (s.setCore c { s.core c with halted := h })

theorem haltCores_halted (s : State) {cores : List Nat} {h : Bool} {k : Nat} (hk : k ∈ cores ∨ (s.core k).halted = h) :
    ((haltCores s cores h).core k).halted = h := by
  unfold haltCores
  induction cores generalizing s with
  | nil => exact hk.resolve_left List.not_mem_nil
  | cons c cs ih =>
    refine ih _ ?_
    by_cases hkc : k = c
    · subst hkc
      exact .inr (by simp)
    · refine hk.imp (fun hmem => (List.mem_cons.1 hmem).resolve_left hkc) fun hh => ?_
      rw [State.setCore_core_of_ne _ _ hkc, hh]

/-! ### What a PREEMPT leaves -/

/-- The request of a PREEMPT, as its pre-emption keeps it. -/
def preemptEntry (s : State) (c : CmdIn) : Nat × Nat × Nat × Nat := (s.nextId, c.f 0x18 8 / 4 % 4, c.f 0x20 8, c.f 0x28 8)

/-- The pre-emption that a PREEMPT starts. -/
def preemptSave (s : State) (c : CmdIn) (cores : List Nat) (slice : Nat) : Save where
  cores := cores
  kind := c.f 0x18 8 % 4
  target := c.f 0x18 8 / 65536 % 65536
  tier := c.f 0x18 8 / 4 % 4
  area := c.f 0x20 8
  size := c.f 0x28 8
  cmds := [preemptEntry s c]
  slice := slice

/-- A PREEMPT that has joined a pre-emption in progress. -/
def preemptJoined (s : State) (c : CmdIn) (sv : Nat) : State :=
  let s1 := startCmd (haltResumes s) c (.preempt sv) false
  { s1 with saves := Tab.modify s1.saves sv fun x => { x with cmds := x.cmds ++ [preemptEntry s c] } }

/-- A PREEMPT that has started a pre-emption. -/
def preemptHalted (s : State) (c : CmdIn) (cores : List Nat) (slice : Nat) : State :=
  let s1 := startCmd (haltResumes s) c (.preempt (s.nextId + 1)) false
  haltCores { s1 with nextId := s.nextId + 2, saves := Tab.put s1.saves (s.nextId + 1) (preemptSave s c cores slice) } cores true

section
variable (s : State) (c : CmdIn)

theorem preemptJoined_cores (sv : Nat) : (preemptJoined s c sv).cores = s.cores :=
  (startCmd_cores (haltResumes s) c (.preempt sv) false).trans (haltResumes_cores s)

theorem preemptJoined_save {sv : Nat} {x : Save} (hx : Tab.find? (haltResumes s).saves sv = some x) :
    Tab.find? (preemptJoined s c sv).saves sv = some { x with cmds := x.cmds ++ [preemptEntry s c] } := by
  rw [preemptJoined, Tab.find?_modify_self, startCmd_saves, hx, Option.map_some]

theorem preemptHalted_save (cores : List Nat) (slice : Nat) :
    Tab.find? (preemptHalted s c cores slice).saves (s.nextId + 1) = some (preemptSave s c cores slice) := by
  rw [preemptHalted, haltCores_saves, Tab.find?_put_self]

theorem preemptHalted_halted {cores : List Nat} (slice : Nat) {k : Nat} (hk : k ∈ cores) :
    ((preemptHalted s c cores slice).core k).halted = true := haltCores_halted _ (.inl hk)

end

/-- The fields of a PREEMPT within their limits. -/
theorem preempt_fields {c : CmdIn} (ht : c.f 0x18 8 / 4 % 4 ≠ 3) (hz : c.f 0x18 8 / 16 % 2 ^ 12 = 0) (hz' : c.f 0x18 8 / 2 ^ 32 = 0) :
    ¬ (bits (c.f 0x18 8) 2 2 = 3 ∨ bits (c.f 0x18 8) 4 12 ≠ 0 ∨ bits (c.f 0x18 8) 32 32 ≠ 0) := by
  simp only [bits]
  omega

/-! ### The three commands -/

section
variable {s : State} {q : Nat} {c : CmdIn} (h : headCommand s q = .good c) (hwait : devWaits s q = false) (hfault : devFault s q = none)
include h hwait hfault

theorem exec_frame (hop : c.op = 4) (hok : frameOk c = true) {bs : List Byte} {s1 : State}
    (hr : readPlain s (whoCmd s q c.ctx) .load (BitVec.ofNat 64 (c.f 0x18 8)) (32 * (c.f 0x20 4 % 16)) 1 = .ok (bs, s1))
    (hmode : ∀ i < c.f 0x20 4 % 16, fieldAt bs (32 * i + 12) 4 ≤ 2) :
    exec (.frame q) s = .next (startCmd s1 c (.frame
      (((List.range 4).map fun i => BitVec.ofNat 64 (c.f (0x18 + 8 * i) 8)) ++
        (List.range (bs.length / 8)).map fun i => BitVec.ofNat 64 (fieldAt bs (8 * i) 8))) false) := by
  have hn : bits (c.f 0x20 4) 0 4 = c.f 0x20 4 % 16 := bits_zero _ 4
  have hsound : ¬ (List.range (c.f 0x20 4 % 16)).any (fun i => decide (2 < fieldAt bs (32 * i + 12) 4)) = true := by
    simpa using hmode
  simp only [exec, execFrame, serveCmd_eq h hwait hfault hop, hok, hn, hr, if_neg hsound, Bool.not_true, Bool.false_eq_true, if_false]

theorem exec_resume (hop : c.op = 0x12) (h0 : c.f 0x18 8 % 4 = 0) (ht : c.f 0x18 8 / 4 % 4 ≠ 3) (hz : c.f 0x18 8 / 16 = 0) :
    exec (.resume q) s = .next (goResumes (startCmd s c (.resume (c.f 0x18 8 / 4) (c.f 0x20 8)) false)) := by
  have hfields : ¬ (bits (c.f 0x18 8) 0 2 ≠ 0 ∨ bits (c.f 0x18 8) 2 2 = 3 ∨ bits (c.f 0x18 8) 4 60 ≠ 0) := by
    simp only [bits]
    omega
  have htier : bits (c.f 0x18 8) 2 2 = c.f 0x18 8 / 4 := by
    simp only [bits]
    omega
  rw [htier] at hfields
  simp only [exec, execResume, serveCmd_eq h hwait hfault hop, htier, if_neg hfields]

variable (hop : c.op = 0x11) (ht : c.f 0x18 8 / 4 % 4 ≠ 3) (hz : c.f 0x18 8 / 16 % 2 ^ 12 = 0) (hz' : c.f 0x18 8 / 2 ^ 32 = 0)
  {cores : List Nat} {slice : Nat} (hcores : targetCores s (c.f 0x18 8 % 4) (c.f 0x18 8 / 65536 % 65536) = some (cores, slice))
include hop ht hz hz' hcores

/-- A PREEMPT of a target that is halting joins the pre-emption in progress (R339). -/
theorem exec_preempt_joins {sv : Nat}
    (hsame : sameTarget (haltResumes s) (c.f 0x18 8 % 4) (c.f 0x18 8 / 65536 % 65536) = some sv) :
    exec (.preempt q) s = .next (preemptJoined s c sv) := by
  have hkind : bits (c.f 0x18 8) 0 2 = c.f 0x18 8 % 4 := bits_zero _ 2
  have htarget : bits (c.f 0x18 8) 16 16 = c.f 0x18 8 / 65536 % 65536 := rfl
  simp only [exec, execPreempt, serveCmd_eq h hwait hfault hop, if_neg (preempt_fields ht hz hz'), hkind, htarget, hcores, hsame,
    haltResumes_nextId]
  rfl

/-- Another PREEMPT halts the cores of its target (R339). -/
theorem exec_preempt_halts
    (hsame : sameTarget (haltResumes s) (c.f 0x18 8 % 4) (c.f 0x18 8 / 65536 % 65536) = none) :
    exec (.preempt q) s = .next (preemptHalted s c cores slice) := by
  have hkind : bits (c.f 0x18 8) 0 2 = c.f 0x18 8 % 4 := bits_zero _ 2
  have htarget : bits (c.f 0x18 8) 16 16 = c.f 0x18 8 / 65536 % 65536 := rfl
  simp only [exec, execPreempt, serveCmd_eq h hwait hfault hop, if_neg (preempt_fields ht hz hz'), hkind, htarget, hcores, hsame,
    haltResumes_nextId]
  rfl

end

/-! ### The encoder -/

/-- The accesses of an encoder in one of its worlds (R375, R376). -/
def encoderWho (s : State) (id : Nat) (c : Cmd) (ns : Bool) : Who :=
  { whoCmd s (frameKey id) c.ctx with ctx := { c.ctx with ns := ns }, op := some s.nextId }

/-- What the encoder writes at OUT: the length of the stream and the stream, or the length 0 where it does not fit. -/
def encoderOut (s : State) (w : Who) (words : List DWord) : List Byte :=
  let stream := Config.encode words (layerBytes s w words)
  if stream.length ≤ (words.getD 3 0).toNat % 2 ^ 32 - 8 then bytesOfNat 8 stream.length ++ stream else bytesOfNat 8 0

/-- The end of an encoder, by what its write at OUT comes to: one that peer modules have still to accept is awaited (log 17). -/
def encoderEnds (s : State) (id : Nat) : Except MFault State → State
  | .error _ => forgetDev (s.cmdReady id) (frameKey id)
  | .ok s1 =>
    let s2 := keepFar s1 (devOp noLaunch (.mask id))
    forgetDev (if s2.nextId = s1.nextId then s2.cmdReady id else s2) (frameKey id)

section
variable {s : State} {id : Nat} {c : Cmd} {words : List DWord} (hc : Tab.find? s.cmds id = some c) (hk : c.k = .frame words)
  (hready : c.ready = false) (hwait : devWaits s (frameKey id) = false)
include hc hk hready hwait

theorem exec_frameEncodeComplete_asks (hfault : devFault s (frameKey id) = none)
    (hfar : layersFar s (encoderWho s id c (s.slice c.ctx.slice).deNs) words ≠ []) : exec (.frameEncodeComplete id) s =
      .next (askDev s (frameKey id) (s.slice c.ctx.slice).deNs (layersFar s (encoderWho s id c (s.slice c.ctx.slice).deNs) words)) := by
  have hasks : ((devFault s (frameKey id)).isNone && !(layersFar s (encoderWho s id c (s.slice c.ctx.slice).deNs) words).isEmpty) =
      true := by simp [hfault, hfar]
  simp only [encoderWho] at hasks
  simp only [exec, execFrameEncodeComplete, hc, hk, hready, hwait, hasks, Bool.false_eq_true, if_false, if_true, encoderWho]

variable (hhere : layersFar s (encoderWho s id c (s.slice c.ctx.slice).deNs) words = [] ∨ devFault s (frameKey id) ≠ none)
include hhere

theorem exec_frameEncodeComplete_eq {r : Except MFault State}
    (hr : writePlain s (encoderWho s id c (s.slice c.ctx.slice).veNs) (words.getD 2 0) 1
      (encoderOut s (encoderWho s id c (s.slice c.ctx.slice).deNs) words) = r) :
    exec (.frameEncodeComplete id) s = .next (encoderEnds s id r) := by
  have hnot : ¬ ((devFault s (frameKey id)).isNone && !(layersFar s (encoderWho s id c (s.slice c.ctx.slice).deNs) words).isEmpty) =
      true := by
    rcases hhere with hfar | hfault
    · simp [hfar]
    · simp [hfault]
  simp only [encoderWho] at hnot
  rw [encoderOut, ← bits_zero _ 32] at hr
  simp only [encoderWho] at hr
  simp only [exec, execFrameEncodeComplete, hc, hk, hready, hwait, if_neg hnot, Bool.false_eq_true, if_false]
  split
  · next hw =>
    obtain rfl := hr.symm.trans hw
    rfl
  · next hw =>
    obtain rfl := hr.symm.trans hw
    rfl

end

theorem encoderEnds_written {s1 : State} (s : State) (id : Nat) (hun : unackedOp s1 s1.nextId = false) :
    encoderEnds s id (.ok s1) = forgetDev (s1.cmdReady id) (frameKey id) := by
  simp [encoderEnds, keepFar, hun]

theorem encoderEnds_awaits {s1 : State} (s : State) (id : Nat) (hun : unackedOp s1 s1.nextId = true) :
    encoderEnds s id (.ok s1) = forgetDev (keepFar s1 (devOp noLaunch (.mask id))) (frameKey id) := by
  have hnew : ¬ (keepFar s1 (devOp noLaunch (.mask id))).nextId = s1.nextId := by simp [keepFar, hun]
  rw [encoderEnds, if_neg hnew]

/-! ### The obligation -/

/-- Settles O45: whether the target is halting already decides PREEMPT, what stands at peer modules and the write at OUT the end of the
encoder. -/
theorem frameAndPreemptResults : Obligations.FrameAndPreemptResults := by
  refine fun s => ⟨fun q c h hwait hfault => ⟨fun bs s1 hop hok hr hmode => exec_frame h hwait hfault hop hok hr hmode, ?preempt,
    fun hop h0 ht hz => exec_resume h hwait hfault hop h0 ht hz⟩, ?encoder⟩
  case preempt =>
    intro hop ht hz hz' cores slice hcores
    cases hsame : sameTarget (haltResumes s) (c.f 0x18 8 % 4) (c.f 0x18 8 / 65536 % 65536) with
    | some sv =>
      refine ⟨preemptJoined s c sv, exec_preempt_joins h hwait hfault hop ht hz hz' hcores hsame, fun sv' hsv' => ?_, nofun⟩
      obtain rfl := Option.some.inj hsv'
      exact ⟨preemptJoined_cores s c sv, fun x hx => ⟨_, preemptJoined_save s c hx, rfl⟩⟩
    | none =>
      exact ⟨preemptHalted s c cores slice, exec_preempt_halts h hwait hfault hop ht hz hz' hcores hsame, nofun, fun _ =>
        ⟨fun k hk => preemptHalted_halted s c slice hk, _, preemptHalted_save s c cores slice, rfl, rfl, rfl⟩⟩
  case encoder =>
    intro id c words hc hk hready world de stream out ends hwait
    refine ⟨fun hfault hfar => exec_frameEncodeComplete_asks hc hk hready hwait hfault hfar, fun hhere => ?_⟩
    refine ⟨fun s1 hw => ⟨fun hun => ?_, fun hun => ?_⟩, fun m hw => exec_frameEncodeComplete_eq hc hk hready hwait hhere hw⟩
    · rw [exec_frameEncodeComplete_eq hc hk hready hwait hhere hw, encoderEnds_written s id hun]
    · rw [exec_frameEncodeComplete_eq hc hk hready hwait hhere hw, encoderEnds_awaits s id hun]

end Sys2Proof.Machine
end

section
/-! NOP and WAITV, and the completion of a command (R366, R368, R410, R415, R438). -/

namespace Sys2Proof.Machine

open Sys2Proof

/-! ### NOP -/

theorem exec_queueNop_good {s : State} {q : Nat} {c : CmdIn} (h : headCommand s q = .good c) (hop : c.op = 0) :
    exec (.queueNop q) s = .next (startCmd s c .plain true) := by
  simp only [exec, execQueueNop, h, if_pos hop]

theorem exec_queueNop_broken {s : State} {q : Nat} (h : headCommand s q = .broken) :
    exec (.queueNop q) s = .next (ringFail s q (s.queue q).head.toNat) := by
  simp only [exec, execQueueNop, h]

theorem exec_queueNop_unassigned {s : State} {q op n : Nat} (h : headCommand s q = .bad op n 1) :
    exec (.queueNop q) s = .next (rejectCmd s q n 1) := by
  simp only [exec, execQueueNop, h, decide_true, Bool.or_true, if_true]

/-! ### WAITV -/

section
variable {s : State} {q : Nat} {c : CmdIn} (h : headCommand s q = .good c) (hop : c.op = 3) (hwait : devWaits s q = false)
  (hfault : devFault s q = none)
include h hop hwait hfault

section
variable {x : Nat} {s1 : State} (hr : readNum s (whoCmd s q c.ctx) .load (BitVec.ofNat 64 (c.f 0x18 8)) 8 = .ok (x, s1))
include hr

theorem exec_waitv_reached (hx : c.f 0x20 8 ≤ x) : exec (.waitv q) s =
    .next (startCmd (waitvHears s1 c.q c.ctx (BitVec.ofNat 64 (c.f 0x18 8))) c
      (.waitv (BitVec.ofNat 64 (c.f 0x18 8)) (BitVec.ofNat 64 (c.f 0x20 8))) true) := by
  simp only [exec, execWaitv, serveCmd_eq h hwait hfault hop, hr, hx, if_true, decide_true]

theorem exec_waitv_waits (hx : x < c.f 0x20 8) : exec (.waitv q) s =
    .next (startCmd s1 c (.waitv (BitVec.ofNat 64 (c.f 0x18 8)) (BitVec.ofNat 64 (c.f 0x20 8))) false) := by
  have hnot : ¬ c.f 0x20 8 ≤ x := Nat.not_le.2 hx
  simp only [exec, execWaitv, serveCmd_eq h hwait hfault hop, hr, hnot, if_false, decide_false]

end

theorem exec_waitv_faults {m : MFault} (hr : readNum s (whoCmd s q c.ctx) .load (BitVec.ofNat 64 (c.f 0x18 8)) 8 = .error m) :
    exec (.waitv q) s = .next (if m.far = [] then rejectCmd s q c.n 9 else askDev s q c.ctx.ns m.far) := by
  simp only [exec, execWaitv, serveCmd_eq h hwait hfault hop, hr, refuse_eq]

end

section
variable {s : State} {q id : Nat} {c : Cmd} {a v : DWord} (h : waitingOn s q = some (id, c, a, v)) (hwait : devWaits s q = false)
  (hfault : devFault s q = none)
include h hwait hfault

theorem exec_waitvSatisfied_reached {x : Nat} {s1 : State} (hr : readNum s (whoCmd s q c.ctx) .load a 8 = .ok (x, s1))
    (hx : v.toNat ≤ x) : exec (.waitvSatisfied q) s = .next (forgetDev ((waitvHears s1 q c.ctx a).cmdReady id) q) := by
  simp only [exec, execWaitvSatisfied, h, hwait, hfault, hr, if_pos hx, Option.isSome_none, Bool.false_eq_true, if_false]

theorem exec_waitvSatisfied_faults {m : MFault} (hr : readNum s (whoCmd s q c.ctx) .load a 8 = .error m) :
    exec (.waitvSatisfied q) s =
      .next (if m.far = [] then queueErr (dropCmd (forgetDev s q) id c) q c.slot 9 else askDev s q c.ctx.ns m.far) := by
  simp only [exec, execWaitvSatisfied, h, hwait, hfault, hr, Option.isSome_none, Bool.false_eq_true, if_false, List.isEmpty_iff]

end

/-! ### The completion of a command -/

/-- The state in which a command makes its completion write: it is forgotten, and its queue's later SERIAL commands follow it. -/
def completing (s : State) (id : Nat) (c : Cmd) : State :=
  dropCmd ((s.setChan (.cmd id) []).post (.fin c.q) (s.gathered (.cmd id))) id c

/-- The completion write of a command. -/
def completionStore (s : State) (id : Nat) (c : Cmd) : Except MFault State :=
  writePlain (completing s id c) { whoCmd (completing s id c) c.q c.ctx with op := some (completing s id c).nextId } c.caddr 8
    (bytesOfNat 8 c.cval.toNat)

/-- A completion raises the vector of its queue where the command and the queue ask for it. -/
def completionTells (c : Cmd) (t : State) : State := if c.irq = true ∧ (t.queue c.q).irq = true then t.raiseVector c.q else t

/-- A completion that has been written releases what the command did, and what peer modules have still to accept of it is kept. -/
def completionWritten (s : State) (id : Nat) (c : Cmd) (t : State) : State :=
  keepFar { t with hist := t.hist.map fun r => if r.seq < (completing s id c).histLen then r
    else { r with rels := ⟨5, {}, s.gathered (.cmd id), none⟩ :: r.rels } } (devOp noLaunch (.completion c.q c.slot))

section
variable {s : State} {id : Nat} {c : Cmd}

theorem exec_commandComplete_ready (hc : Tab.find? s.cmds id = some c) (hready : c.ready = true) :
    exec (.commandComplete id) s = .next (completeCmd s id c) := by
  have hover : cmdOver s id c = true := by rw [cmdOver, hready, Bool.true_or]
  simp only [exec, execCommandComplete, hc, hover, if_true]

theorem completeCmd_silent (hz : c.caddr = 0) : completeCmd s id c = completionTells c (completing s id c) := by
  simp only [completeCmd, if_pos hz, completionTells, Bool.and_eq_true]
  rfl

theorem completeCmd_ok (hnz : c.caddr ≠ 0) {t : State} (hw : completionStore s id c = .ok t) :
    completeCmd s id c = completionTells c (completionWritten s id c t) := by
  rw [completionStore, completing] at hw
  simp only [completeCmd, if_neg hnz, completionWrite, hw, completionTells, Bool.and_eq_true]
  rfl

theorem completeCmd_error (hnz : c.caddr ≠ 0) {m : MFault} (hw : completionStore s id c = .error m) :
    completeCmd s id c = ringFail (completing s id c) c.q c.slot := by
  rw [completionStore, completing] at hw
  simp only [completeCmd, if_neg hnz, completionWrite, hw]
  rfl

end

/-- Settles O42: what the head of the queue is decides a NOP, what the read answers a WAITV, and the completion write the end. -/
theorem commandLifeResults : Obligations.CommandLifeResults := by
  refine fun s q => ⟨fun c h hop => exec_queueNop_good h hop, exec_queueNop_broken, fun op n h => exec_queueNop_unassigned h,
    fun c h hop hwait hfault => ⟨fun x s1 hr => ⟨exec_waitv_reached h hop hwait hfault hr, exec_waitv_waits h hop hwait hfault hr⟩,
      fun m hr => exec_waitv_faults h hop hwait hfault hr⟩,
    fun id c a v h hwait hfault => ⟨fun x s1 hr hx => exec_waitvSatisfied_reached h hwait hfault hr hx,
      fun m hr => exec_waitvSatisfied_faults h hwait hfault hr⟩, ?completion⟩
  intro id c hc hready past s1 who tell
  rw [exec_commandComplete_ready hc hready]
  refine ⟨fun hz => ?_, fun s2 hnz hw => ?_, fun m hnz hw => ?_⟩
  · rw [completeCmd_silent hz]
    rfl
  · rw [completeCmd_ok hnz hw]
    rfl
  · rw [completeCmd_error hnz hw]
    rfl

end Sys2Proof.Machine
end

section
/-! LAUNCH and GRAPH commands (R369, R370, R415, R438). -/

namespace Sys2Proof.Machine

open Sys2Proof

section
variable {s : State} {q : Nat} {c : CmdIn} (h : headCommand s q = .good c) (hwait : devWaits s q = false) (hfault : devFault s q = none)
include h hwait hfault

/-! ### LAUNCH: the checks in their order -/

section
variable (hop : c.op = 1)
include hop

theorem exec_launchCommand_length (hn : c.n ≠ 2) : exec (.launchCommand q) s = .next (rejectCmd s q c.n 2) := by
  simp only [exec, execLaunchCommand, serveCmd_eq h hwait hfault hop, if_pos hn]

variable (hn : c.n = 2)
include hn

theorem exec_launchCommand_kernel {e : Refused} (hk : readKernel s q c.ctx (BitVec.ofNat 64 (c.f 0x18 8)) = .error e) :
    exec (.launchCommand q) s = .next (if e.2.far = [] then rejectCmd s q c.n e.1 else askDev s q c.ctx.ns e.2.far) := by
  simp only [exec, execLaunchCommand, serveCmd_eq h hwait hfault hop, if_neg (not_not.2 hn), hk, refuse_eq]

variable {k : Kernel} {s1 : State} (hk : readKernel s q c.ctx (BitVec.ofNat 64 (c.f 0x18 8)) = .ok (k, s1))
include hk

theorem exec_launchCommand_body (hbody : bodyOk c.bs k = false) : exec (.launchCommand q) s = .next (rejectCmd s q c.n 2) := by
  simp only [exec, execLaunchCommand, serveCmd_eq h hwait hfault hop, if_neg (not_not.2 hn), hk, hbody, Bool.not_false, if_true]

variable (hbody : bodyOk c.bs k = true)
include hbody

theorem exec_launchCommand_room (hroom : roomSomewhere s (bodyLaunch s1 q c.ctx c.bs k) = false) :
    exec (.launchCommand q) s = .next (rejectCmd s q c.n 7) := by
  simp only [exec, execLaunchCommand, serveCmd_eq h hwait hfault hop, if_neg (not_not.2 hn), hk, hbody, hroom, Bool.not_false,
    Bool.not_true, Bool.false_eq_true, if_false, if_true]

variable (hroom : roomSomewhere s (bodyLaunch s1 q c.ctx c.bs k) = true)
include hroom

theorem exec_launchCommand_access {e : Refused}
    (ho : openLaunch s1 (bodyLaunch s1 q c.ctx c.bs k) (BitVec.ofNat 64 (c.f 0x60 8)) = .error e) :
    exec (.launchCommand q) s = .next (if e.2.far = [] then rejectCmd s q c.n e.1 else askDev s q c.ctx.ns e.2.far) := by
  simp only [exec, execLaunchCommand, serveCmd_eq h hwait hfault hop, if_neg (not_not.2 hn), hk, hbody, hroom, ho, refuse_eq,
    Bool.not_true, Bool.false_eq_true, if_false]

theorem exec_launchCommand_starts {l : Launch} {s2 : State}
    (ho : openLaunch s1 (bodyLaunch s1 q c.ctx c.bs k) (BitVec.ofNat 64 (c.f 0x60 8)) = .ok (l, s2)) :
    let s3 := startCmd s2 c (.launch (s2.nextId + 1)) false
    exec (.launchCommand q) s =
      .next (launchStarts (addLaunch s3 { l with cmd := some s2.nextId }) s3.nextId (s3.gathered (.queue q))) := by
  simp only [exec, execLaunchCommand, serveCmd_eq h hwait hfault hop, if_neg (not_not.2 hn), hk, hbody, hroom, ho,
    Bool.not_true, Bool.false_eq_true, if_false]

end

/-! ### GRAPH -/

section
variable (hop : c.op = 2)
include hop

theorem exec_graphCommand_refused {e : Refused} (hg : readGraph s c = .error e) : exec (.graphCommand q) s =
    .next (if e.2.far = [] then rejectCmd s q c.n e.1 else askDev s q c.ctx.ns e.2.far) := by
  simp only [exec, execGraphCommand, serveCmd_eq h hwait hfault hop, hg, refuse_eq]

/-- A replay starts, or waits for the earlier replays of its object. -/
theorem exec_graphCommand_eq {g : Graph} {s1 : State} (hg : readGraph s c = .ok (g, s1)) :
    let s2 := startCmd s1 c (.graph (s1.nextId + 1)) false
    let s3 : State := { s2.post (.node s2.nextId 256) (s2.gathered (.queue q)) with
      nextId := s2.nextId + 1, graphs := Tab.put s2.graphs s2.nextId g }
    exec (.graphCommand q) s = .next (if g.waiting then s3 else startReplay s3 s2.nextId g) := by
  simp only [exec, execGraphCommand, serveCmd_eq h hwait hfault hop, hg]

end
end

/-- Settles O43: the checks of a LAUNCH and the reads of a GRAPH, each in the order in which the command makes them. -/
theorem launchCommandResults : Obligations.LaunchCommandResults := by
  refine fun s q c h hwait hfault => ⟨fun hop hn => exec_launchCommand_length h hwait hfault hop hn,
    fun e hop hn hk => exec_launchCommand_kernel h hwait hfault hop hn hk, fun k s1 hop hn hk => ⟨fun hbody => ?body, fun hbody hroom => ?room,
      fun hbody hroom => ⟨fun l1 s2 ho => ?starts, fun e ho => ?access⟩⟩, fun g s1 hop hg => ?graph,
    fun e hop hg => exec_graphCommand_refused h hwait hfault hop hg⟩
  case body => exact exec_launchCommand_body h hwait hfault hop hn hk hbody
  case room => exact exec_launchCommand_room h hwait hfault hop hn hk hbody hroom
  case starts => exact exec_launchCommand_starts h hwait hfault hop hn hk hbody hroom ho
  case access => exact exec_launchCommand_access h hwait hfault hop hn hk hbody hroom ho
  case graph =>
    intro s2 s3
    have hexec := exec_graphCommand_eq h hwait hfault hop hg
    exact ⟨fun hw => by rw [hexec, if_pos hw], fun hw => by rw [hexec, if_neg (Bool.eq_false_iff.1 hw)]⟩

end Sys2Proof.Machine
end
